-- ==== Sys2Proof/Word.lean ====
section
/-! DEFINITION. The widths of R4 and the plainest arithmetic on them. -/

namespace Sys2Proof

/-- A byte is 8 bits (R4). -/
abbrev Byte := BitVec 8
/-- A half is 16 bits (R4). -/
abbrev Half := BitVec 16
/-- A word is 32 bits (R4). -/
abbrev Word := BitVec 32
/-- A dword is 64 bits (R4). -/
abbrev Dword := BitVec 64
/-- One bit for each of the 64 threads of a train, bit t for thread t (R17). -/
abbrev Mask := BitVec 64
/-- A cell of 128 bits (R81). -/
abbrev WideCell := BitVec 128
/-- An accumulator element of 48 bits (R79). -/
abbrev F48 := BitVec 48

/-- `Bits(x, hi, lo)` of R10, on natural numbers: `n` bits of `x` from bit `lo`. -/
def bitsAt (x lo n : Nat) : Nat := x / 2 ^ lo % 2 ^ n

/-- `SignExt(x, n)` of R10: `x` modulo 2ⁿ read as an n-bit two's complement value. -/
def signExt (x n : Nat) : Int :=
  let y := x % 2 ^ n
  if n = 0 then 0 else if y < 2 ^ (n - 1) then (y : Int) else (y : Int) - (2 ^ n : Nat)

/-- `Wrap(x, n)` of R10: `x` modulo 2ⁿ. -/
def wrap (x : Int) (n : Nat) : Nat := (x % (2 ^ n : Nat)).toNat

/-- `Sat(x, lo, hi)` of R10. -/
def sat (x lo hi : Int) : Int := if x < lo then lo else if x > hi then hi else x

/-- The threads 0 to 63 in ascending tid. -/
def tids : List Nat := List.range 64

/-- The threads of a mask in ascending tid (R9). -/
def Mask.threads (m : Mask) : List Nat := tids.filter fun t => m.getLsbD t

/-- The mask of the threads that satisfy a test. -/
def maskOf (p : Nat → Bool) : Mask :=
  tids.foldl (fun m t => if p t then m ||| (1#64 <<< t) else m) 0

/-- The low and high words of a dword. -/
def lowWord (x : Dword) : Word := x.truncate 32
def highWord (x : Dword) : Word := (x >>> 32).truncate 32
/-- A dword from its low and high words. -/
def joinWords (lo hi : Word) : Dword := hi ++ lo

/-- The n bytes of a value, least significant first (R3). -/
def bytesOf : Nat → Nat → List Byte
  | _, 0 => []
  | x, n + 1 => BitVec.ofNat 8 x :: bytesOf (x / 256) n

/-- The value of bytes, least significant first (R3). -/
def ofBytes : List Byte → Nat
  | [] => 0
  | b :: bs => b.toNat + 256 * ofBytes bs

end Sys2Proof
end

