-- ==== Sys2Proof/Syntax.lean ====
section
/-! DEFINITION. The instructions and the steps of the machine: one constructor per row of the opcode table.
An instruction that a train fetches holds its base-word fields as `Args` and its modifier byte as typed fields (R35).
A step of a unit, of the host or of the fabric holds what names it. -/

namespace Sys2Proof

/-- The special operands of R44. -/
inductive Special where
  | tid | lid | beat | trn | wgid | wkid | reason | clk
  deriving DecidableEq, Repr, Inhabited

/-- A 10-bit operand specifier (R43). `resv` is a reserved code, kept with its bits (R48 check 8). -/
inductive Opnd where
  | v (n : BitVec 8) | s (n : BitVec 6) | o (n : BitVec 4) | b (n : BitVec 2) | q (n : BitVec 4)
  | zero | special (x : Special)
  | t (n : BitVec 6) | a (n : BitVec 6) | imm (i : BitVec 8) | k (n : BitVec 3) | g (n : BitVec 3)
  | resv (c : BitVec 10)
  deriving DecidableEq, Repr, Inhabited

/-- What follows the base word: nothing, IMM32 or EXT64 (R35). -/
inductive Ext where
  | short | imm (w : Word) | ext (w : Dword)
  deriving DecidableEq, Repr, Inhabited

/-- The fields of the base word other than OPC and M, with what follows it (R35). -/
structure Args where
  u   : Bool
  nwb : Bool
  kg  : BitVec 3
  kn  : Bool
  d   : Opnd
  a   : Opnd
  b   : Opnd
  c   : Opnd
  ext : Ext
  deriving DecidableEq, Repr, Inhabited

/-- The operand types of R39. -/
inductive Ty where
  | s8 | s16 | s32 | s64 | n8 | n16 | n32 | n64 | b32 | f32 | f16 | bf16 | d8 | h4
  deriving DecidableEq, Repr, Inhabited

/-- The rounding modes of R41. -/
inductive RMode where
  | rn | rz | rp | rm
  deriving DecidableEq, Repr, Inhabited

/-- The conditions of `cmp` (R111). -/
inductive Cond where
  | eq | ne | lt | le | gt | ge
  deriving DecidableEq, Repr, Inhabited

/-- The conditions of `fcmp` (R117). -/
inductive FCond where
  | eq | ne | lt | le | gt | ge | ord | uno
  deriving DecidableEq, Repr, Inhabited

/-- The source modifiers of operand A (R114): absolute value first, then negation. -/
structure SrcMods where
  neg : Bool
  abs : Bool
  deriving DecidableEq, Repr, Inhabited

/-- The operations of `red` and `scan` (R122). -/
inductive LaneOp where
  | add | min | max | and | or | xor
  deriving DecidableEq, Repr, Inhabited

/-- The modes of `shfl` (R125). -/
inductive ShflMode where
  | idx | up | down | xor
  deriving DecidableEq, Repr, Inhabited

/-- The modes of `vote` (R127). -/
inductive VoteMode where
  | any | all | ballot | eq
  deriving DecidableEq, Repr, Inhabited

/-- The operations of `atom` (R219). -/
inductive AtomOp where
  | add | min | max | and | or | xor | xchg
  deriving DecidableEq, Repr, Inhabited

/-- The scopes of R27 with the codes of R42. -/
inductive Scope where
  | th | tr | wg | co | cl | dv | sy
  deriving DecidableEq, Repr, Inhabited

/-- The memory orders of R42. -/
inductive Order where
  | none | acq | rel | ar
  deriving DecidableEq, Repr, Inhabited

/-- A request or completion of a fabric message that reaches this module as an input (R207, R425, R426). -/
inductive RemoteReply where
  | data (bytes : List Byte) | error
  deriving DecidableEq, Repr, Inhabited

/-- An access asked for by an agent of another module at this module's owning slice (R207). -/
inductive RemoteOp where
  | read (n : Nat) | write (bytes : List Byte) | atom (op : AtomOp) (t : Ty) (v : Dword)
  | compareSwap (n : Nat) (old new : Dword) | cellAdd (delta : WideCell) | cellTake
  deriving DecidableEq, Repr, Inhabited

/-- Who sends an arrival: the module, and the partition of the train that arrives (R340, R345). -/
structure Sender where
  module : Nat
  part   : Nat
  deriving DecidableEq, Repr, Inhabited

/-- The instructions and steps, one constructor per row of the opcode table. -/
inductive Instr where
  -- Integer and address class (R103)
  | add (x : Args) (t : Ty) (sat : Bool) | sub (x : Args) (t : Ty) (sat : Bool) | mul (x : Args) (t : Ty) (sat : Bool)
  | mulhi (x : Args) (t : Ty) | mad (x : Args) (t : Ty) (sat : Bool) | madhi (x : Args) (t : Ty)
  | div (x : Args) (t : Ty) (sat : Bool) | rem (x : Args) (t : Ty) | min (x : Args) (t : Ty) | max (x : Args) (t : Ty)
  | abs (x : Args) (t : Ty) (sat : Bool)
  | and (x : Args) (t : Ty) | or (x : Args) (t : Ty) | xor (x : Args) (t : Ty) | andn (x : Args) (t : Ty)
  | shl (x : Args) (t : Ty) | shr (x : Args) (t : Ty) | sra (x : Args) (t : Ty) | rol (x : Args) (t : Ty)
  | clz (x : Args) (t : Ty) | ctz (x : Args) (t : Ty) | popc (x : Args) (t : Ty)
  | bfx (x : Args) (t : Ty) | bfi (x : Args) (t : Ty) | prm (x : Args) | sel (x : Args) (t : Ty)
  | cmp (x : Args) (t : Ty) (c : Cond) | mov (x : Args) (t : Ty) | lea (x : Args) (t : Ty) (k : Fin 5)
  | sext (x : Args) (t : Ty) | zext (x : Args) (t : Ty)
  -- Floating-point class (R114)
  | fadd (x : Args) (t : Ty) (r : RMode) (m : SrcMods) | fsub (x : Args) (t : Ty) (r : RMode) (m : SrcMods)
  | fmul (x : Args) (t : Ty) (r : RMode) (m : SrcMods) | fma (x : Args) (t : Ty) (r : RMode) (m : SrcMods)
  | fnma (x : Args) (t : Ty) (r : RMode) (m : SrcMods)
  | fmin (x : Args) (t : Ty) (m : SrcMods) | fmax (x : Args) (t : Ty) (m : SrcMods)
  | fcmp (x : Args) (t : Ty) (c : FCond) | fclass (x : Args) (t : Ty) | fsel (x : Args) (t : Ty)
  | frcp (x : Args) (t : Ty) (m : SrcMods) | frsq (x : Args) (t : Ty) (m : SrcMods)
  | fsqrt (x : Args) (t : Ty) (r : RMode) (m : SrcMods) | fdiv (x : Args) (t : Ty) (r : RMode) (m : SrcMods)
  | fex2 (x : Args) (t : Ty) (m : SrcMods) | flg2 (x : Args) (t : Ty) (m : SrcMods)
  | fsin (x : Args) (t : Ty) (m : SrcMods) | fcos (x : Args) (t : Ty) (m : SrcMods)
  | ftanh (x : Args) (t : Ty) (m : SrcMods)
  /-- The long-operation unit writes the pending result of a train (R99). -/
  | longOpResult (tr : Nat)
  -- Conversion class (R87)
  | cvt (x : Args) (dst src : Ty) | rnd (x : Args) (t : Ty) (r : RMode) | qnt (x : Args) (t : Ty) (r : RMode)
  | dqt (x : Args) (t : Ty) | pack (x : Args) (t : Ty) (r : RMode) (p : Fin 4) | unpk (x : Args) (t : Ty) (n : Fin 8)
  | scl (x : Args) (t : Ty) (r : RMode)
  -- Cross-lane and predicate class (R122)
  | red (x : Args) (t : Ty) (op : LaneOp) | scan (x : Args) (t : Ty) (op : LaneOp) (excl : Bool)
  | shfl (x : Args) (wide : Bool) (m : ShflMode) | bcst (x : Args) (wide : Bool) | vote (x : Args) (m : VoteMode)
  | first (x : Args) | kand (x : Args) | kor (x : Args) | kxor (x : Args) | knot (x : Args) | kmov (x : Args)
  -- Memory class (R173)
  | ld (x : Args) (t : Ty) (k : Fin 5) | st (x : Args) (t : Ty) (k : Fin 5)
  | ldp (x : Args) (t : Ty) (k : Fin 5) | stp (x : Args) (t : Ty) (k : Fin 5)
  | ldt (x : Args) (t : Ty) (k : Fin 5) | stt (x : Args) (t : Ty) (k : Fin 5)
  | look (x : Args) | tagw (x : Args) | tagi (x : Args) | tagiAll (x : Args) | tagiCfg (x : Args)
  | tst (x : Args) | tstDef (x : Args) | pref (x : Args) (k : Fin 5) | fence (x : Args) (sc : Scope) (o : Order)
  | flushWc (x : Args) | flushIb (x : Args)
  /-- The data of outstanding load `i` of a train returns (R186). -/
  | loadDataReturn (tr i : Nat)
  /-- Store `i` of a train reaches its point of performance (R196). -/
  | storePerformed (tr i : Nat)
  /-- Write-combining store `i` of a train drains 4096 cycles after the last write to its buffer (R196). -/
  | wcBufferDrainTimeout (tr i : Nat)
  /-- The line a train's fetch misses is filled from memory (R172). -/
  | instructionFetchFill (tr : Nat)
  /-- A fault buffer entry of a cluster has freed, and a train parked without one translates again (R161). -/
  | faultEntryFreed (tr : Nat)
  -- Atomics class (R219)
  | atom (x : Args) (t : Ty) (op : AtomOp) | cas (x : Args) (t : Ty) | facc (x : Args) | faccTagged (x : Args)
  | faccr (x : Args) (t : Ty) (r : RMode) (z : Bool) | waita (x : Args) (t : Ty) (eq : Bool)
  | waitaReread (tr : Nat) | waitaDeadline (tr : Nat)
  -- Queue and ring class (R231)
  | qbind (x : Args) | qstat (x : Args) | qdrain (x : Args)
  /-- A train blocked on a queue issues once the queue allows (R234). -/
  | queueOpIssue (tr : Nat)
  /-- A workgroup's stall exceeds its bound (R236). -/
  | queueStall (wg : Nat)
  | racq (x : Args) (sc : Scope) | rcom (x : Args) (sc : Scope) | rcomSkip (x : Args) (sc : Scope)
  | rpeek (x : Args) (sc : Scope) | rpeekTake (x : Args) (sc : Scope) | rrel (x : Args) (sc : Scope)
  | stage (x : Args) | stageCfg (x : Args)
  -- Control class (R254)
  | bra (x : Args) | brx (x : Args) | call (x : Args) | ret (x : Args) | exit (x : Args) | bar (x : Args) | gbar (x : Args)
  /-- The barrier stall of a workgroup (or, with `gang`, of its gang) exceeds its bound (R259). -/
  | bstall (wg : Nat) (gang : Bool)
  | yield (x : Args) | nop (x : Args) | joinPointNop (x : Args) | fwait (x : Args) | ftest (x : Args) | ftestH (x : Args)
  | fcancel (x : Args) | trapf (x : Args) | trapfClr (x : Args) | trap (x : Args)
  -- Matrix class (R134)
  | aalloc (x : Args) | aallocBanksFree (tr : Nat) | afree (x : Args) | azero (x : Args) | wld (x : Args) (t : Ty)
  | wldZero (x : Args) | mmaTile (x : Args) (t : Ty) | mmaMemory (x : Args) (t : Ty) | mmt (x : Args) (ta tw : Ty)
  | adrainReg (x : Args) (t : Ty) (z : Bool) | adrainSp (x : Args) (t : Ty) (z : Bool)
  | adrainGm (x : Args) (t : Ty) (z : Bool) | mred (x : Args) | mprog (x : Args)
  /-- A train blocked on a full matrix queue issues once an entry frees (R132). -/
  | matrixQueueRoom (tr : Nat)
  /-- The array of a core performs one step (R133). -/
  | arrayStep (core : Nat)
  /-- The follow-on `mma` of a copy operation is placed (R149). -/
  | followOnMma (op : Nat)
  /-- A train blocked on a tile issues once the tile's state admits it (R168). -/
  | tileGateRelease (tr : Nat)
  -- Window class (R290) and the Roundhouse; a line is named by its cluster × 256 + slot
  | lopen (x : Args) | lclose (x : Args) | feed (x : Args) | feedIntakeRoom (tr : Nat) | wmark (x : Args)
  | wrec (x : Args) | wemit (x : Args) | wemitRetry (tr : Nat) | wyield (x : Args) | wend (x : Args) | wpane (x : Args)
  | wkey (x : Args) | lstat (x : Args)
  | resolveRecord (line : Nat) | watermarkResolve (line : Nat) | paneComplete (line : Nat) | lineFlush (line : Nat)
  | lineFree (line : Nat) | activationBatchIssue (line : Nat) | activationTrainAdmit (cluster : Nat)
  | windowPoolSlotFree (line : Nat)
  -- Launches, tasks and joins (R349)
  | tfetch (x : Args) | tfetchTask (x : Args) | tfetchTaskWake (tr : Nat) | tfetchTaskDeadline (tr : Nat)
  | tsub (x : Args) | tdone (x : Args) | launch (x : Args) | lwait (x : Args) | trig (x : Args) | tsel (x : Args)
  | jopen (x : Args) | jarr (x : Args) | jwait (x : Args) | jkp (x : Args) | jstat (x : Args)
  /-- A contributor of a join, named by its train's identity, becomes a casualty (R342). -/
  | joinCasualty (slot uid : Nat)
  /-- A train that is marked for kill and blocked at a kill point is killed (R343, R357). -/
  | kill (tr : Nat)
  | stagingRoom (tr : Nat)
  | launchAdmit (part : Nat) | launchInvalid (launch : Nat) | launchComplete (launch : Nat)
  | dependantsStart (launch : Nat)
  -- Engines (R361)
  | copy (x : Args) | xst (x : Args) (wide : Bool) | publ (x : Args) (sc : Scope) | dec (x : Args) | pyr (x : Args)
  /-- A train blocked on a full engine queue or future table issues once room frees (R264, R358). -/
  | engineQueueRoom (tr : Nat)
  | engineOperationStart (op : Nat) | copyComplete (op : Nat) | decComplete (op : Nat) | pyrComplete (op : Nat)
  | engineFaultPause (op : Nat) | futureEntryFree (index : Nat)
  -- System class (R399), traps, pre-emption and partitions
  | svc (x : Args) | svcRetry (tr : Nat) | eret (x : Args) | mfsr (x : Args) | mtsr (x : Args)
  | tlbiPage (x : Args) | tlbiAsid (x : Args) | tlbiPart (x : Args) | trapq (x : Args) | ctxs (x : Args) | ctxl (x : Args)
  | svcret (x : Args) | texitFault (x : Args) | texitTerminate (x : Args)
  /-- Host software writes REPLAY to FBDATA3 in partition page `p` (R159, R406). -/
  | faultReplay (p : Nat)
  /-- Host software writes FAIL to FBDATA3 in partition page `p` (R159, R406). -/
  | faultFail (p : Nat)
  | trapDelivery (tr : Nat)
  | timeSliceExpiry (wg : Nat) | preemptDrain (wg : Nat) | drainmaxExpiry (wg : Nat)
  | preemptSave (wg : Nat) | restore (saved core : Nat)
  | partitionResetDrain (p : Nat) | partitionResetKill (p : Nat)
  /-- A write of one dword to a BAR0 location without behaviour of its own (R412, R420). -/
  | supervisorRegisterWrite (offset : Nat) (value : Dword)
  -- Host command queues (R414 to R418); `sup` names the supervisor queue
  | qtail (p : Nat) (sup : Bool) (value : Word) | qstate (p : Nat) (sup : Bool) (value : Dword)
  | setv (p : Nat) | waitv (p : Nat) | fencePacket (p : Nat) | copyPacket (p : Nat)
  | lineOpenPacket (p : Nat) | lineClosePacket (p : Nat) | launchPacket (p : Nat) | padPacket (p : Nat)
  /-- A host read or write of HDM at region-relative bulk address `q` (R412, R413, R434). -/
  | hostMemRead (q n : Nat) | hostMemWrite (q : Nat) (bytes : List Byte)
  -- Fabric, photonics and power
  | remoteResponse (request : Nat) (reply : RemoteReply)
  /-- A multicast, named by its place among the waiting ones, is forwarded on all its ports (R428). -/
  | collMulticast (index : Nat)
  | partitionDrainExpiry (p : Nat)
  | waitvReread (p : Nat)
  -- Steps of the same families as above that the default schedule never takes
  /-- Another module's agent accesses physical address `pa` of this module (R207). -/
  | remoteAccessRequest (module pa : Nat) (op : RemoteOp)
  /-- The home Roll Call's reply to a proxy arrival (R345): the waiting train and the result code. -/
  | proxyReply (tr : Nat) (result : Dword)
  /-- A COLL arrival at a home join (R345): the handle, the sender, the weight and the staged deltas by cell. -/
  | homeRemoteArrival (handle : Word) (source : Sender) (weight : Word) (deltas : List (Nat × WideCell))
  /-- A KILL message from the home of a proxy join (R345): the proxy's slot, the home's status word. -/
  | proxyKill (slot : Nat) (status : Dword)
  /-- Host software writes ASIDGEN.ADV in partition page `p` (R393, R406). -/
  | asidgenAdv (p : Nat)
  /-- Host software reads FBPEND in partition page `p` (R407). -/
  | fbpendRead (p : Nat)
  | irqenWrite (p : Nat) (value : Dword) | preemptFlushRestart (wg : Nat) | migrate (wg core : Nat)
  | qosSet (p : Nat) (slots tokens : Byte) | routingTableSwap (addr : Dword)
  /-- Message `request` met a routing-table entry marked DOWN (R426). -/
  | messageDiscard (request : Nat)
  | stagger (t0 : Dword) (dt : Word) (nslots : Half)
  | flitRetransmit (endpoint wavelength : Nat) | wavelengthWithdraw (endpoint wavelength : Nat)
  | wavelengthReturn (endpoint wavelength : Nat)
  /-- A 10 µs interval ends: the power asked for and the power the filler can add, in W (R430, R431). -/
  | powerInterval (demand filler : Nat)
  | attestationReport | stationmasterStep | moduleReset | opticalTrainingDone | bulkTrainingDone | fabricTrainingDone
  | staggerResume
  deriving DecidableEq, Repr

end Sys2Proof
end

