-- ==== Sys2Proof/Machine/Forms.lean ====
section
/-! DEFINITION. The forms of the instructions (R35 to R48 and the encoding table of each class): opcode, modifier byte,
permitted lengths, the operand kinds of each field, and the encoding checks that do not depend on the train. -/

namespace Sys2Proof

/-! ## Codes of the modifier fields (R39 to R42) -/

def Ty.code : Ty → Nat
  | .s8 => 0 | .s16 => 1 | .s32 => 2 | .s64 => 3 | .n8 => 4 | .n16 => 5 | .n32 => 6 | .n64 => 7 | .b32 => 8
  | .f32 => 9 | .f16 => 10 | .bf16 => 11 | .d8 => 12 | .h4 => 13

def Ty.ofCode : Nat → Option Ty
  | 0 => some .s8 | 1 => some .s16 | 2 => some .s32 | 3 => some .s64 | 4 => some .n8 | 5 => some .n16
  | 6 => some .n32 | 7 => some .n64 | 8 => some .b32 | 9 => some .f32 | 10 => some .f16 | 11 => some .bf16
  | 12 => some .d8 | 13 => some .h4 | _ => none

/-- The width of a type in bits (R70, R72, R75, R78). -/
def Ty.width : Ty → Nat
  | .s8 | .n8 | .d8 => 8
  | .s16 | .n16 | .f16 | .bf16 => 16
  | .s32 | .n32 | .b32 | .f32 => 32
  | .s64 | .n64 => 64
  | .h4 => 4

/-- A 64-bit type: its per-thread operand is a register pair (R46). -/
def Ty.wide : Ty → Bool
  | .s64 | .n64 => true
  | _ => false

/-- A signed integer type (R70). -/
def Ty.signed : Ty → Bool
  | .s8 | .s16 | .s32 | .s64 => true
  | _ => false

/-- The "int" of R103: codes 0 to 7. -/
def Ty.isInt (t : Ty) : Bool := t.code ≤ 7

/-- The types of the floating-point class (R41). -/
def Ty.isFloat : Ty → Bool
  | .f32 | .f16 | .bf16 => true
  | _ => false

def RMode.code : RMode → Nat
  | .rn => 0 | .rz => 1 | .rp => 2 | .rm => 3
def RMode.ofCode : Nat → RMode
  | 0 => .rn | 1 => .rz | 2 => .rp | _ => .rm

def Cond.code : Cond → Nat
  | .eq => 0 | .ne => 1 | .lt => 2 | .le => 3 | .gt => 4 | .ge => 5
def Cond.ofCode : Nat → Option Cond
  | 0 => some .eq | 1 => some .ne | 2 => some .lt | 3 => some .le | 4 => some .gt | 5 => some .ge | _ => none

def FCond.code : FCond → Nat
  | .eq => 0 | .ne => 1 | .lt => 2 | .le => 3 | .gt => 4 | .ge => 5 | .ord => 6 | .uno => 7
def FCond.ofCode : Nat → Option FCond
  | 0 => some .eq | 1 => some .ne | 2 => some .lt | 3 => some .le | 4 => some .gt | 5 => some .ge
  | 6 => some .ord | 7 => some .uno | _ => none

def LaneOp.code : LaneOp → Nat
  | .add => 0 | .min => 1 | .max => 2 | .and => 3 | .or => 4 | .xor => 5
def LaneOp.ofCode : Nat → Option LaneOp
  | 0 => some .add | 1 => some .min | 2 => some .max | 3 => some .and | 4 => some .or | 5 => some .xor | _ => none

def ShflMode.code : ShflMode → Nat
  | .idx => 0 | .up => 1 | .down => 2 | .xor => 3
def ShflMode.ofCode : Nat → Option ShflMode
  | 0 => some .idx | 1 => some .up | 2 => some .down | 3 => some .xor | _ => none

def VoteMode.code : VoteMode → Nat
  | .any => 0 | .all => 1 | .ballot => 2 | .eq => 3
def VoteMode.ofCode : Nat → Option VoteMode
  | 0 => some .any | 1 => some .all | 2 => some .ballot | 3 => some .eq | _ => none

def AtomOp.code : AtomOp → Nat
  | .add => 0 | .min => 1 | .max => 2 | .and => 3 | .or => 4 | .xor => 5 | .xchg => 6
def AtomOp.ofCode : Nat → Option AtomOp
  | 0 => some .add | 1 => some .min | 2 => some .max | 3 => some .and | 4 => some .or | 5 => some .xor
  | 6 => some .xchg | _ => none

def Scope.code : Scope → Nat
  | .th => 0 | .tr => 1 | .wg => 2 | .co => 3 | .cl => 4 | .dv => 5 | .sy => 6
def Scope.ofCode : Nat → Option Scope
  | 0 => some .th | 1 => some .tr | 2 => some .wg | 3 => some .co | 4 => some .cl | 5 => some .dv | 6 => some .sy
  | _ => none

def Order.code : Order → Nat
  | .none => 0 | .acq => 1 | .rel => 2 | .ar => 3
def Order.ofCode : Nat → Order
  | 0 => .none | 1 => .acq | 2 => .rel | _ => .ar

def SrcMods.code (m : SrcMods) : Nat := m.neg.toNat + 2 * m.abs.toNat
def SrcMods.ofCode (n : Nat) : SrcMods := ⟨n % 2 = 1, n / 2 % 2 = 1⟩

/-- A scale code 0 to 4 (R113, R173). -/
def scaleOf (n : Nat) : Option (Fin 5) := if h : n < 5 then some ⟨n, h⟩ else none

/-! ## Operand specifiers (R43, R44) -/

def Special.code : Special → Nat
  | .tid => 1 | .lid => 2 | .beat => 3 | .trn => 4 | .wgid => 5 | .wkid => 6 | .reason => 7 | .clk => 8

def Special.ofCode : Nat → Option Special
  | 1 => some .tid | 2 => some .lid | 3 => some .beat | 4 => some .trn | 5 => some .wgid | 6 => some .wkid
  | 7 => some .reason | 8 => some .clk | _ => none

def Opnd.code : Opnd → Nat
  | .v n => n.toNat
  | .s n => 0x100 + n.toNat
  | .o n => 0x140 + n.toNat
  | .b n => 0x150 + n.toNat
  | .q n => 0x160 + n.toNat
  | .zero => 0x170
  | .special x => 0x170 + x.code
  | .t n => 0x180 + n.toNat
  | .a n => 0x1C0 + n.toNat
  | .imm i => 0x200 + i.toNat
  | .k n => 0x300 + n.toNat
  | .g n => 0x308 + n.toNat
  | .resv c => c.toNat

def Opnd.ofCode (c : Nat) : Opnd :=
  if c < 0x100 then .v (BitVec.ofNat 8 c)
  else if c < 0x140 then .s (BitVec.ofNat 6 (c - 0x100))
  else if c < 0x150 then .o (BitVec.ofNat 4 (c - 0x140))
  else if c < 0x154 then .b (BitVec.ofNat 2 (c - 0x150))
  else if c < 0x160 then .resv (BitVec.ofNat 10 c)
  else if c < 0x170 then .q (BitVec.ofNat 4 (c - 0x160))
  else if c = 0x170 then .zero
  else if c < 0x180 then
    match Special.ofCode (c - 0x170) with
    | some x => .special x
    | none => .resv (BitVec.ofNat 10 c)
  else if c < 0x1C0 then .t (BitVec.ofNat 6 (c - 0x180))
  else if c < 0x200 then .a (BitVec.ofNat 6 (c - 0x1C0))
  else if c < 0x300 then .imm (BitVec.ofNat 8 (c - 0x200))
  else if c < 0x308 then .k (BitVec.ofNat 3 (c - 0x300))
  else if c < 0x310 then .g (BitVec.ofNat 3 (c - 0x308))
  else .resv (BitVec.ofNat 10 c)

def Opnd.isResv : Opnd → Bool
  | .resv _ => true
  | _ => false

/-! ## Reading one instruction from its opcode and modifier byte (R68 and the class tables) -/

/-- The types of an integer instruction: `all` adds `.b32`. -/
def intTy (m : Nat) (all : Bool) : Option Ty :=
  (Ty.ofCode (m % 16)).filter fun t => t.isInt || (all && t = .b32)

def bT (m : Nat) (all : Bool) (f : Ty → Instr) : Option Instr :=
  if m / 16 = 0 then (intTy m all).map f else none

def bTS (m : Nat) (f : Ty → Bool → Instr) : Option Instr :=
  if m / 32 = 0 then (intTy m false).map fun t => f t (m / 16 % 2 = 1) else none

def fltTy (m : Nat) : Option Ty := (Ty.ofCode (m % 16)).filter Ty.isFloat

def bFM (m : Nat) (f : Ty → RMode → SrcMods → Instr) : Option Instr :=
  (fltTy m).map fun t => f t (RMode.ofCode (m / 16 % 4)) (SrcMods.ofCode (m / 64))

def bFS (m : Nat) (f : Ty → SrcMods → Instr) : Option Instr :=
  if m / 16 % 4 = 0 then (fltTy m).map fun t => f t (SrcMods.ofCode (m / 64)) else none

def bF (m : Nat) (f : Ty → Instr) : Option Instr :=
  if m / 16 = 0 then (fltTy m).map f else none

def b0 (m : Nat) (i : Instr) : Option Instr := if m = 0 then some i else none

/-- The types of a conversion (R87): 0 to 7 and 9 to 13. -/
def cvtTy (n : Nat) : Option Ty := (Ty.ofCode n).filter fun t => t != .b32

/-- The types of `red` and `scan` with an operation (R122). -/
def redTy (m : Nat) (op : LaneOp) : Option Ty :=
  (Ty.ofCode (m % 16)).filter fun t =>
    t.isInt || (t.isFloat && (op = .add || op = .min || op = .max))

/-- The types of the loads and stores (R173): 0 to 11. -/
def memTy (m : Nat) : Option Ty := (Ty.ofCode (m % 16)).filter fun t => t.code ≤ 11

def bMem (m : Nat) (f : Ty → Fin 5 → Instr) : Option Instr :=
  match memTy m, scaleOf (m / 16) with
  | some t, some k => some (f t k)
  | _, _ => none

/-- The integer types of the atomics (R219). -/
def atomTy (m : Nat) : Option Ty :=
  (Ty.ofCode (m % 16)).filter fun t => t = .s32 || t = .s64 || t = .n32 || t = .n64 || t = .b32

/-- The scopes of the ring instructions (R231): codes 0, 1 and 7 are reserved. -/
def ringScope (n : Nat) : Option Scope := (Scope.ofCode n).filter fun s => 2 ≤ s.code

/-- The matrix types (R134). -/
def matTy (n : Nat) : Option Ty := (Ty.ofCode n).filter fun t => 9 ≤ t.code

/-- The `adrain` types (R134). -/
def drainTy (n : Nat) : Option Ty :=
  (Ty.ofCode n).filter fun t => t = .s32 || t = .f32 || t = .f16 || t = .bf16 || t = .d8

/-- The number of positions P that `pack` admits (R88). -/
def packPositions : Ty → Nat
  | .f16 | .bf16 => 1
  | .d8 => 2
  | .h4 => 4
  | _ => 0

def is128 (x : Args) : Bool := match x.ext with | .ext _ => true | _ => false
def is96 (x : Args) : Bool := match x.ext with | .imm _ => true | _ => false

/-- The immediate register number of `mfsr` and `mtsr`, if the number is an immediate (R399). -/
def regNumber (x : Args) : Option Nat :=
  match x.a, x.ext with
  | .imm i, _ => some i.toNat
  | .zero, .imm w => some w.toNat
  | _, _ => none

/-- `mtsr` and the rows of the table that are `mtsr` to one register named by an immediate (log 12). -/
def bMtsr (x : Args) : Instr :=
  if regNumber x = some 0x0A then .svcret x
  else if regNumber x = some 0x0B ∧ x.b = .imm 1 then .texitFault x
  else if regNumber x = some 0x0B ∧ x.b = .imm 2 then .texitTerminate x
  else .mtsr x

/-- The instruction with this opcode, modifier byte and fields: `none` where the opcode map has no instruction (R48
check 4), `some none` where the modifier byte is reserved (R48 check 7). -/
def build (opc m : Nat) (x : Args) : Option (Option Instr) :=
  match opc with
  | 0x01 => some (bTS m (.add x)) | 0x02 => some (bTS m (.sub x)) | 0x03 => some (bTS m (.mul x))
  | 0x04 => some (bT m false (.mulhi x)) | 0x05 => some (bTS m (.mad x)) | 0x06 => some (bT m false (.madhi x))
  | 0x07 => some (bTS m (.div x)) | 0x08 => some (bT m false (.rem x)) | 0x09 => some (bT m false (.min x))
  | 0x0A => some (bT m false (.max x))
  | 0x0B => some (if m % 16 ≤ 3 then bTS m (.abs x) else none)
  | 0x0C => some (bT m true (.and x)) | 0x0D => some (bT m true (.or x)) | 0x0E => some (bT m true (.xor x))
  | 0x0F => some (bT m true (.andn x)) | 0x10 => some (bT m true (.shl x)) | 0x11 => some (bT m true (.shr x))
  | 0x12 => some (bT m true (.sra x)) | 0x13 => some (bT m true (.rol x)) | 0x14 => some (bT m true (.clz x))
  | 0x15 => some (bT m true (.ctz x)) | 0x16 => some (bT m true (.popc x)) | 0x17 => some (bT m true (.bfx x))
  | 0x18 => some (bT m true (.bfi x)) | 0x19 => some (if m = 8 then some (.prm x) else none)
  | 0x1A => some (bT m true (.sel x))
  | 0x1B => some (match intTy m true, Cond.ofCode (m / 32) with
      | some t, some c => if m / 16 % 2 = 0 ∧ (t = .b32 → c = .eq ∨ c = .ne) then some (.cmp x t c) else none
      | _, _ => none)
  | 0x1C => some (bT m true (.mov x))
  | 0x1D => some (match intTy m false, scaleOf (m / 32) with
      | some t, some k => if m / 16 % 2 = 0 ∧ (t = .s64 ∨ t = .n32 ∨ t = .n64) then some (.lea x t k) else none
      | _, _ => none)
  | 0x1E => some (bT m true (.sext x)) | 0x1F => some (bT m true (.zext x))
  | 0x20 => some (bFM m (.fadd x)) | 0x21 => some (bFM m (.fsub x)) | 0x22 => some (bFM m (.fmul x))
  | 0x23 => some (bFM m (.fma x)) | 0x24 => some (bFM m (.fnma x)) | 0x25 => some (bFS m (.fmin x))
  | 0x26 => some (bFS m (.fmax x))
  | 0x27 => some (match fltTy m, FCond.ofCode (m / 16) with
      | some t, some c => some (.fcmp x t c)
      | _, _ => none)
  | 0x28 => some (bF m (.fclass x)) | 0x29 => some (bF m (.fsel x)) | 0x2A => some (bFS m (.frcp x))
  | 0x2B => some (bFS m (.frsq x)) | 0x2C => some (bFM m (.fsqrt x)) | 0x2D => some (bFM m (.fdiv x))
  | 0x2E => some (bFS m (.fex2 x)) | 0x2F => some (bFS m (.flg2 x)) | 0x30 => some (bFS m (.fsin x))
  | 0x31 => some (bFS m (.fcos x)) | 0x32 => some (bFS m (.ftanh x))
  | 0x40 => some (match cvtTy (m % 16), cvtTy (m / 16) with
      | some t, some s => some (.cvt x t s)
      | _, _ => none)
  | 0x41 => some (if m / 64 = 0 then (fltTy m).map fun t => .rnd x t (RMode.ofCode (m / 16 % 4)) else none)
  | 0x42 => some (if m / 64 = 0 then ((Ty.ofCode (m % 16)).filter fun t => t = .d8 || t = .h4).map
      fun t => .qnt x t (RMode.ofCode (m / 16 % 4)) else none)
  | 0x43 => some (if m / 16 = 0 then ((Ty.ofCode (m % 16)).filter fun t => t = .d8 || t = .h4).map (.dqt x) else none)
  | 0x44 => some (match Ty.ofCode (m % 16) with
      | some t => if m / 64 < packPositions t then
          some (.pack x t (RMode.ofCode (m / 16 % 4)) (Fin.ofNat 4 (m / 64))) else none
      | none => none)
  | 0x45 => some (match Ty.ofCode (m % 16) with
      | some t => if m / 16 < 2 * packPositions t then some (.unpk x t (Fin.ofNat 8 (m / 16))) else none
      | none => none)
  | 0x46 => some (if m / 64 = 0 then (fltTy m).map fun t => .scl x t (RMode.ofCode (m / 16 % 4)) else none)
  | 0x50 => some (match LaneOp.ofCode (m / 16) with
      | some op => (redTy m op).map fun t => .red x t op
      | none => none)
  | 0x51 => some (match LaneOp.ofCode (m / 16 % 8) with
      | some op => (redTy m op).map fun t => .scan x t op (m / 128 = 1)
      | none => none)
  | 0x52 => some (match ShflMode.ofCode (m / 16) with
      | some s => if m % 16 = 7 ∨ m % 16 = 8 then some (.shfl x (m % 16 = 7) s) else none
      | none => none)
  | 0x53 => some (if m = 7 ∨ m = 8 then some (.bcst x (m = 7)) else none)
  | 0x54 => some (match VoteMode.ofCode (m / 16) with
      | some v => if m % 16 = (if v = .ballot then 7 else 8) then some (.vote x v) else none
      | none => none)
  | 0x55 => some (if m = 6 then some (.first x) else none)
  | 0x56 => some (b0 m (.kand x)) | 0x57 => some (b0 m (.kor x)) | 0x58 => some (b0 m (.kxor x))
  | 0x59 => some (b0 m (.knot x)) | 0x5A => some (b0 m (.kmov x))
  | 0x70 => some (bMem m (.ld x)) | 0x71 => some (bMem m (.st x)) | 0x72 => some (bMem m (.ldp x))
  | 0x73 => some (bMem m (.stp x)) | 0x74 => some (bMem m (.ldt x)) | 0x75 => some (bMem m (.stt x))
  | 0x76 => some (if m = 7 then some (.look x) else none) | 0x77 => some (if m = 7 then some (.tagw x) else none)
  | 0x78 => some (match m with
      | 0 => some (.tagi x) | 1 => some (.tagiAll x) | 2 => some (.tagiCfg x) | _ => none)
  | 0x79 => some (match m with | 0 => some (.tst x) | 1 => some (.tstDef x) | _ => none)
  | 0x7A => some (if m % 16 = 0 then (scaleOf (m / 16)).map (.pref x) else none)
  | 0x7B => some (match Scope.ofCode (m % 8) with
      | some sc => if m / 32 = 0 ∧ m / 8 ≠ 0 then some (.fence x sc (Order.ofCode (m / 8))) else none
      | none => none)
  | 0x7C => some (match m with | 0 => some (.flushWc x) | 1 => some (.flushIb x) | _ => none)
  | 0x90 => some (match atomTy m, AtomOp.ofCode (m / 16) with
      | some t, some op =>
        if t = .b32 ∧ (op = .add ∨ op = .min ∨ op = .max) then none else some (.atom x t op)
      | _, _ => none)
  | 0x91 => some (if m / 16 = 0 then (atomTy m).map (.cas x) else none)
  | 0x92 => some (if m = 9 then some (if x.c = .zero then .facc x else .faccTagged x) else none)
  | 0x93 => some (if m / 128 = 0 then (fltTy m).map fun t => .faccr x t (RMode.ofCode (m / 16 % 4)) (m / 64 % 2 = 1)
      else none)
  | 0x94 => some (if m / 32 = 0 then (atomTy m).map fun t => .waita x t (m / 16 % 2 = 1) else none)
  | 0xA0 => some (b0 m (.qbind x)) | 0xA1 => some (b0 m (.qstat x)) | 0xA2 => some (b0 m (.qdrain x))
  | 0xA3 => some ((ringScope m).map (.racq x))
  | 0xA4 => some (if m / 16 = 0 then (ringScope (m % 8)).map
      fun s => if m / 8 % 2 = 1 then .rcomSkip x s else .rcom x s else none)
  | 0xA5 => some (if m / 16 = 0 then (ringScope (m % 8)).map
      fun s => if m / 8 % 2 = 1 then .rpeekTake x s else .rpeek x s else none)
  | 0xA6 => some ((ringScope m).map (.rrel x))
  | 0xA7 => some (match m with | 0 => some (.stage x) | 1 => some (.stageCfg x) | _ => none)
  | 0xB0 => some (b0 m (.bra x)) | 0xB1 => some (b0 m (.brx x)) | 0xB2 => some (b0 m (.call x))
  | 0xB3 => some (b0 m (.ret x)) | 0xB4 => some (b0 m (.exit x)) | 0xB5 => some (b0 m (.bar x))
  | 0xB6 => some (b0 m (.gbar x)) | 0xB7 => some (b0 m (.yield x)) | 0xB8 => some (b0 m (.fwait x))
  | 0xB9 => some (match m with | 0 => some (.ftest x) | 1 => some (.ftestH x) | _ => none)
  | 0xBA => some (b0 m (.fcancel x))
  | 0xBB => some (match m with | 0 => some (.trapf x) | 1 => some (.trapfClr x) | _ => none)
  | 0xBC => some (b0 m (.trap x))
  | 0xBD => some (match m with
      | 0 => some (.nop x) | 1 => if is96 x then none else some (.joinPointNop x) | _ => none)
  | 0xC0 => some (b0 m (.aalloc x)) | 0xC1 => some (b0 m (.afree x)) | 0xC2 => some (b0 m (.azero x))
  | 0xC3 => some (if m = 0 then (if x.a = .zero ∧ x.b = .zero then some (.wldZero x) else none)
      else (matTy m).map (.wld x))
  | 0xC4 => some ((matTy m).map fun t => if is128 x then .mmaMemory x t else .mmaTile x t)
  | 0xC5 => some (match matTy (m % 16), matTy (m / 16) with
      | some ta, some tw => some (.mmt x ta tw)
      | _, _ => none)
  | 0xC6 => some (match drainTy (m % 16), m / 16 with
      | some t, 0 => some (.adrainReg x t false) | some t, 4 => some (.adrainReg x t true)
      | some t, 1 => some (.adrainSp x t false) | some t, 5 => some (.adrainSp x t true)
      | some t, 2 => some (.adrainGm x t false) | some t, 6 => some (.adrainGm x t true)
      | _, _ => none)
  | 0xC7 => some (b0 m (.mred x)) | 0xC8 => some (b0 m (.mprog x))
  | 0xD0 => some (b0 m (.lopen x)) | 0xD1 => some (b0 m (.lclose x)) | 0xD2 => some (b0 m (.feed x))
  | 0xD3 => some (b0 m (.wmark x)) | 0xD4 => some (b0 m (.wrec x)) | 0xD5 => some (b0 m (.wemit x))
  | 0xD6 => some (b0 m (.wyield x)) | 0xD7 => some (b0 m (.wend x)) | 0xD8 => some (b0 m (.wpane x))
  | 0xD9 => some (b0 m (.wkey x)) | 0xDA => some (b0 m (.lstat x))
  | 0xE0 => some (match m with | 0 => some (.tfetch x) | 1 => some (.tfetchTask x) | _ => none)
  | 0xE1 => some (b0 m (.tsub x)) | 0xE2 => some (b0 m (.tdone x)) | 0xE3 => some (b0 m (.launch x))
  | 0xE4 => some (b0 m (.lwait x)) | 0xE5 => some (b0 m (.trig x)) | 0xE6 => some (b0 m (.tsel x))
  | 0xE7 => some (b0 m (.jopen x)) | 0xE8 => some (b0 m (.jarr x)) | 0xE9 => some (b0 m (.jwait x))
  | 0xEA => some (b0 m (.jkp x)) | 0xEB => some (b0 m (.jstat x))
  | 0xF0 => some (b0 m (.copy x))
  | 0xF1 => some (if m = 7 ∨ m = 8 then some (.xst x (m = 7)) else none)
  | 0xF2 => some ((ringScope m).bind fun s => if s = .sy then none else some (.publ x s))
  | 0xF3 => some (b0 m (.dec x)) | 0xF4 => some (b0 m (.pyr x))
  | 0xF8 => some (b0 m (.svc x)) | 0xF9 => some (b0 m (.eret x)) | 0xFA => some (b0 m (.mfsr x))
  | 0xFB => some (b0 m (bMtsr x))
  | 0xFC => some (match m with
      | 0 => some (.tlbiPage x) | 1 => some (.tlbiAsid x) | 2 => some (.tlbiPart x) | _ => none)
  | 0xFD => some (b0 m (.trapq x)) | 0xFE => some (b0 m (.ctxs x)) | 0xFF => some (b0 m (.ctxl x))
  | _ => none

/-- The privileged opcodes (R69). -/
def privilegedOpc (opc : Nat) : Bool :=
  opc = 0xF9 || opc = 0xFB || opc = 0xFC || opc = 0xFD || opc = 0xFE || opc = 0xFF

/-- Opcode, modifier byte and fields of an instruction that a train fetches; `none` for the steps of the units. -/
def Instr.form : Instr → Option (Nat × Nat × Args)
  | .add x t sat => some (0x01, t.code + 16 * sat.toNat, x)
  | .sub x t sat => some (0x02, t.code + 16 * sat.toNat, x)
  | .mul x t sat => some (0x03, t.code + 16 * sat.toNat, x)
  | .mulhi x t => some (0x04, t.code, x)
  | .mad x t sat => some (0x05, t.code + 16 * sat.toNat, x)
  | .madhi x t => some (0x06, t.code, x)
  | .div x t sat => some (0x07, t.code + 16 * sat.toNat, x)
  | .rem x t => some (0x08, t.code, x)
  | .min x t => some (0x09, t.code, x)
  | .max x t => some (0x0A, t.code, x)
  | .abs x t sat => some (0x0B, t.code + 16 * sat.toNat, x)
  | .and x t => some (0x0C, t.code, x)
  | .or x t => some (0x0D, t.code, x)
  | .xor x t => some (0x0E, t.code, x)
  | .andn x t => some (0x0F, t.code, x)
  | .shl x t => some (0x10, t.code, x)
  | .shr x t => some (0x11, t.code, x)
  | .sra x t => some (0x12, t.code, x)
  | .rol x t => some (0x13, t.code, x)
  | .clz x t => some (0x14, t.code, x)
  | .ctz x t => some (0x15, t.code, x)
  | .popc x t => some (0x16, t.code, x)
  | .bfx x t => some (0x17, t.code, x)
  | .bfi x t => some (0x18, t.code, x)
  | .prm x => some (0x19, 8, x)
  | .sel x t => some (0x1A, t.code, x)
  | .cmp x t c => some (0x1B, t.code + 32 * c.code, x)
  | .mov x t => some (0x1C, t.code, x)
  | .lea x t k => some (0x1D, t.code + 32 * k.val, x)
  | .sext x t => some (0x1E, t.code, x)
  | .zext x t => some (0x1F, t.code, x)
  | .fadd x t r m => some (0x20, t.code + 16 * r.code + 64 * m.code, x)
  | .fsub x t r m => some (0x21, t.code + 16 * r.code + 64 * m.code, x)
  | .fmul x t r m => some (0x22, t.code + 16 * r.code + 64 * m.code, x)
  | .fma x t r m => some (0x23, t.code + 16 * r.code + 64 * m.code, x)
  | .fnma x t r m => some (0x24, t.code + 16 * r.code + 64 * m.code, x)
  | .fmin x t m => some (0x25, t.code + 64 * m.code, x)
  | .fmax x t m => some (0x26, t.code + 64 * m.code, x)
  | .fcmp x t c => some (0x27, t.code + 16 * c.code, x)
  | .fclass x t => some (0x28, t.code, x)
  | .fsel x t => some (0x29, t.code, x)
  | .frcp x t m => some (0x2A, t.code + 64 * m.code, x)
  | .frsq x t m => some (0x2B, t.code + 64 * m.code, x)
  | .fsqrt x t r m => some (0x2C, t.code + 16 * r.code + 64 * m.code, x)
  | .fdiv x t r m => some (0x2D, t.code + 16 * r.code + 64 * m.code, x)
  | .fex2 x t m => some (0x2E, t.code + 64 * m.code, x)
  | .flg2 x t m => some (0x2F, t.code + 64 * m.code, x)
  | .fsin x t m => some (0x30, t.code + 64 * m.code, x)
  | .fcos x t m => some (0x31, t.code + 64 * m.code, x)
  | .ftanh x t m => some (0x32, t.code + 64 * m.code, x)
  | .cvt x t s => some (0x40, t.code + 16 * s.code, x)
  | .rnd x t r => some (0x41, t.code + 16 * r.code, x)
  | .qnt x t r => some (0x42, t.code + 16 * r.code, x)
  | .dqt x t => some (0x43, t.code, x)
  | .pack x t r p => some (0x44, t.code + 16 * r.code + 64 * p.val, x)
  | .unpk x t n => some (0x45, t.code + 16 * n.val, x)
  | .scl x t r => some (0x46, t.code + 16 * r.code, x)
  | .red x t op => some (0x50, t.code + 16 * op.code, x)
  | .scan x t op e => some (0x51, t.code + 16 * op.code + 128 * e.toNat, x)
  | .shfl x w m => some (0x52, (if w then 7 else 8) + 16 * m.code, x)
  | .bcst x w => some (0x53, (if w then 7 else 8), x)
  | .vote x m => some (0x54, (if m = .ballot then 7 else 8) + 16 * m.code, x)
  | .first x => some (0x55, 6, x)
  | .kand x => some (0x56, 0, x)
  | .kor x => some (0x57, 0, x)
  | .kxor x => some (0x58, 0, x)
  | .knot x => some (0x59, 0, x)
  | .kmov x => some (0x5A, 0, x)
  | .ld x t k => some (0x70, t.code + 16 * k.val, x)
  | .st x t k => some (0x71, t.code + 16 * k.val, x)
  | .ldp x t k => some (0x72, t.code + 16 * k.val, x)
  | .stp x t k => some (0x73, t.code + 16 * k.val, x)
  | .ldt x t k => some (0x74, t.code + 16 * k.val, x)
  | .stt x t k => some (0x75, t.code + 16 * k.val, x)
  | .look x => some (0x76, 7, x)
  | .tagw x => some (0x77, 7, x)
  | .tagi x => some (0x78, 0, x)
  | .tagiAll x => some (0x78, 1, x)
  | .tagiCfg x => some (0x78, 2, x)
  | .tst x => some (0x79, 0, x)
  | .tstDef x => some (0x79, 1, x)
  | .pref x k => some (0x7A, 16 * k.val, x)
  | .fence x sc o => some (0x7B, sc.code + 8 * o.code, x)
  | .flushWc x => some (0x7C, 0, x)
  | .flushIb x => some (0x7C, 1, x)
  | .atom x t op => some (0x90, t.code + 16 * op.code, x)
  | .cas x t => some (0x91, t.code, x)
  | .facc x => some (0x92, 9, x)
  | .faccTagged x => some (0x92, 9, x)
  | .faccr x t r z => some (0x93, t.code + 16 * r.code + 64 * z.toNat, x)
  | .waita x t e => some (0x94, t.code + 16 * e.toNat, x)
  | .qbind x => some (0xA0, 0, x)
  | .qstat x => some (0xA1, 0, x)
  | .qdrain x => some (0xA2, 0, x)
  | .racq x sc => some (0xA3, sc.code, x)
  | .rcom x sc => some (0xA4, sc.code, x)
  | .rcomSkip x sc => some (0xA4, sc.code + 8, x)
  | .rpeek x sc => some (0xA5, sc.code, x)
  | .rpeekTake x sc => some (0xA5, sc.code + 8, x)
  | .rrel x sc => some (0xA6, sc.code, x)
  | .stage x => some (0xA7, 0, x)
  | .stageCfg x => some (0xA7, 1, x)
  | .bra x => some (0xB0, 0, x)
  | .brx x => some (0xB1, 0, x)
  | .call x => some (0xB2, 0, x)
  | .ret x => some (0xB3, 0, x)
  | .exit x => some (0xB4, 0, x)
  | .bar x => some (0xB5, 0, x)
  | .gbar x => some (0xB6, 0, x)
  | .yield x => some (0xB7, 0, x)
  | .fwait x => some (0xB8, 0, x)
  | .ftest x => some (0xB9, 0, x)
  | .ftestH x => some (0xB9, 1, x)
  | .fcancel x => some (0xBA, 0, x)
  | .trapf x => some (0xBB, 0, x)
  | .trapfClr x => some (0xBB, 1, x)
  | .trap x => some (0xBC, 0, x)
  | .nop x => some (0xBD, 0, x)
  | .joinPointNop x => some (0xBD, 1, x)
  | .aalloc x => some (0xC0, 0, x)
  | .afree x => some (0xC1, 0, x)
  | .azero x => some (0xC2, 0, x)
  | .wld x t => some (0xC3, t.code, x)
  | .wldZero x => some (0xC3, 0, x)
  | .mmaTile x t => some (0xC4, t.code, x)
  | .mmaMemory x t => some (0xC4, t.code, x)
  | .mmt x ta tw => some (0xC5, ta.code + 16 * tw.code, x)
  | .adrainReg x t z => some (0xC6, t.code + 64 * z.toNat, x)
  | .adrainSp x t z => some (0xC6, t.code + 16 + 64 * z.toNat, x)
  | .adrainGm x t z => some (0xC6, t.code + 32 + 64 * z.toNat, x)
  | .mred x => some (0xC7, 0, x)
  | .mprog x => some (0xC8, 0, x)
  | .lopen x => some (0xD0, 0, x)
  | .lclose x => some (0xD1, 0, x)
  | .feed x => some (0xD2, 0, x)
  | .wmark x => some (0xD3, 0, x)
  | .wrec x => some (0xD4, 0, x)
  | .wemit x => some (0xD5, 0, x)
  | .wyield x => some (0xD6, 0, x)
  | .wend x => some (0xD7, 0, x)
  | .wpane x => some (0xD8, 0, x)
  | .wkey x => some (0xD9, 0, x)
  | .lstat x => some (0xDA, 0, x)
  | .tfetch x => some (0xE0, 0, x)
  | .tfetchTask x => some (0xE0, 1, x)
  | .tsub x => some (0xE1, 0, x)
  | .tdone x => some (0xE2, 0, x)
  | .launch x => some (0xE3, 0, x)
  | .lwait x => some (0xE4, 0, x)
  | .trig x => some (0xE5, 0, x)
  | .tsel x => some (0xE6, 0, x)
  | .jopen x => some (0xE7, 0, x)
  | .jarr x => some (0xE8, 0, x)
  | .jwait x => some (0xE9, 0, x)
  | .jkp x => some (0xEA, 0, x)
  | .jstat x => some (0xEB, 0, x)
  | .copy x => some (0xF0, 0, x)
  | .xst x w => some (0xF1, (if w then 7 else 8), x)
  | .publ x sc => some (0xF2, sc.code, x)
  | .dec x => some (0xF3, 0, x)
  | .pyr x => some (0xF4, 0, x)
  | .svc x => some (0xF8, 0, x)
  | .eret x => some (0xF9, 0, x)
  | .mfsr x => some (0xFA, 0, x)
  | .mtsr x => some (0xFB, 0, x)
  | .svcret x => some (0xFB, 0, x)
  | .texitFault x => some (0xFB, 0, x)
  | .texitTerminate x => some (0xFB, 0, x)
  | .tlbiPage x => some (0xFC, 0, x)
  | .tlbiAsid x => some (0xFC, 1, x)
  | .tlbiPart x => some (0xFC, 2, x)
  | .trapq x => some (0xFD, 0, x)
  | .ctxs x => some (0xFE, 0, x)
  | .ctxl x => some (0xFF, 0, x)
  | _ => none

/-- The fields of an instruction that a train fetches. -/
def Instr.args? (i : Instr) : Option Args := i.form.map fun f => f.2.2

end Sys2Proof
end

