-- ==== Sys2Proof/Machine/Kinds.lean ====
section
/-! DEFINITION. The operand kinds that each field of each instruction admits, its lengths, its U value and its reserved
bits (R36 to R48, R87, R102, R103, R122, R134, R173, R174, R219 to R221, R231, R254, R290, R349, R361, R399). -/

namespace Sys2Proof

/-- A set of operand specifiers. -/
abbrev Kinds := Opnd → Bool

namespace Kinds

def evenReg {n : Nat} (r : BitVec n) : Bool := r.toNat % 2 = 0

/-- A `v` or `o` register, an even one in a 64-bit position (R46). -/
def lane (wide : Bool) : Kinds
  | .v n => !wide || evenReg n
  | .o n => !wide || evenReg n
  | _ => false

/-- A `v`, `o` or `b` operand; a latch is no 64-bit operand (R46). -/
def laneSrc (wide : Bool) : Kinds
  | .b _ => !wide
  | x => lane wide x

def sreg : Kinds
  | .s _ => true
  | _ => false

def imm : Kinds
  | .imm _ => true
  | _ => false

/-- An immediate from lo to hi (a negative immediate is outside every such range). -/
def immIn (lo hi : Nat) : Kinds
  | .imm i => lo ≤ i.toNat && i.toNat ≤ hi && i.toNat < 128
  | _ => false

def isZero : Kinds
  | .zero => true
  | _ => false

def tile : Kinds
  | .t _ => true
  | _ => false

def acc : Kinds
  | .a _ => true
  | _ => false

def queue : Kinds
  | .q _ => true
  | _ => false

def pred : Kinds
  | .k _ => true
  | _ => false

def flag : Kinds
  | .g _ => true
  | _ => false

def vreg : Kinds
  | .v _ => true
  | _ => false

/-- A special that is held per train (R44, R47). -/
def trainSpecial : Special → Bool
  | .trn | .wgid | .wkid | .clk => true
  | .tid | .lid | .beat | .reason => false

def special (u : Bool) : Kinds
  | .zero => true
  | .special x => !u || trainSpecial x
  | _ => false

def or (p q : Kinds) : Kinds := fun x => p x || q x

end Kinds

open Kinds

/-- A source of the arithmetic classes (R102, R47). -/
def srcK (u wide q : Bool) : Kinds := fun x =>
  (!u && laneSrc wide x) || sreg x || special u x || imm x || (q && queue x)

/-- A destination of the arithmetic classes: `v` or `o`, `s` with U = 1, or a queue (R47, R102). -/
def dstK (u wide q : Bool) : Kinds := fun x => (!u && lane wide x) || (u && sreg x) || (q && queue x)

/-- A predicate destination `k1` to `k7`, or with U = 1 a flag `g1` to `g7` (R102, R111). -/
def condDstK (u : Bool) : Kinds
  | .k n => !u && n != 0
  | .g n => u && n != 0
  | _ => false

/-- A condition source (R110). -/
def condSrcK (u : Bool) : Kinds
  | .k _ => !u
  | .g _ => true
  | _ => false

/-- A source of a conversion: with U = 1 `s` registers and immediates only (R87). -/
def cvtSrcK (u wide : Bool) : Kinds := fun x => if u then sreg x || imm x else srcK false wide true x

/-- `v`, `o`, `b`, `s` or an immediate; with U = 1 an `s` register or an immediate (R174, R221, R361). -/
def dataK (u wide : Bool) : Kinds := fun x => (!u && laneSrc wide x) || sreg x || imm x

/-- A global base: an `s` register or an even `v` or `o` pair; with U = 1 an `s` register only (R174). -/
def baseK (u : Bool) : Kinds := fun x => sreg x || (!u && lane true x)

/-- A scratchpad base (R174). -/
def spBaseK (u : Bool) : Kinds := fun x => (!u && laneSrc false x) || sreg x || isZero x

/-- An index or offset (R174). -/
def idxK (u : Bool) : Kinds := fun x => (!u && laneSrc false x) || sreg x || imm x || isZero x

/-- A value destination (R174). -/
def valK (u wide : Bool) : Kinds := fun x => if u then sreg x else lane wide x

def sImm : Kinds := or sreg imm

/-- The pairs of kinds that `kmov` copies between (R129). -/
def kmovK (u : Bool) (d a : Opnd) (nwb : Bool) : Bool :=
  match d, a with
  | .k n, .k _ => !u && n != 0
  | .k n, .g _ => !u && n != 0
  | .k n, x => !u && n != 0 && laneSrc false x
  | .g n, .g _ => u && n != 0
  | .g n, .s _ => u && n != 0
  | .zero, .k _ => nwb && !u
  | .zero, .g _ => nwb
  | .zero, .s _ => nwb && u
  | .zero, x => nwb && !u && laneSrc false x
  | x, .k _ => !u && lane false x
  | _, _ => false

/-- Which source field IMM32 or EXT64 stands for (R37 and the fields marked in the class tables). -/
inductive ImmField where
  | none | a | b | c
  deriving DecidableEq, Repr

/-- The form of an instruction: `none` for a field means that the instruction does not use it; `nwbOk` whether the description admits
0x170 in D with NWB. -/
structure Rules where
  u      : Option Bool := none
  result : Bool := true
  d      : Option Kinds := none
  a      : Option Kinds := none
  b      : Option Kinds := none
  c      : Option Kinds := none
  imm    : ImmField := .none
  immResv : Nat := 0
  nwbOk  : Bool := true
  extOk  : Dword → Bool := fun _ => true

/-! ## Reserved values of EXT64 (R142, R144, R147, R173, R220) -/

def memExtOk (load store : Bool) (e : Dword) : Bool :=
  let x := e.toNat
  let sc := bitsAt x 32 3
  let od := bitsAt x 35 2
  let hn := bitsAt x 37 2
  x / 2 ^ 39 = 0 && sc ≠ 7 && od ≠ 3 && hn ≠ 3 && (od ≠ 0 || sc = 0)
    && (od ≠ 1 || load) && (od ≠ 2 || store) && (hn ≠ 1 || load || store) && (hn ≠ 2 || (store && od = 0))

def atomExtOk (order : Nat → Bool) (spOk : Bool) (e : Dword) : Bool :=
  let x := e.toNat
  x / 2 ^ 38 = 0 && bitsAt x 32 3 ≠ 7 && order (bitsAt x 35 2) && (spOk || bitsAt x 37 1 = 0)

/-- Whether an atomic addresses scratchpad (EXT64 bit SP, R220). -/
def Args.sp (x : Args) : Bool :=
  match x.ext with
  | .ext e => bitsAt e.toNat 37 1 = 1
  | _ => false

def atomBaseK (x : Args) : Kinds := if x.sp then spBaseK x.u else baseK x.u

/-! ## The forms -/

def intRules (x : Args) (t : Ty) (nsrc : Nat) : Rules :=
  let w := t.wide
  { d := some (dstK x.u w true), a := some (srcK x.u w true),
    b := if nsrc ≥ 2 then some (srcK x.u w true) else none,
    c := if nsrc ≥ 3 then some (srcK x.u w true) else none,
    imm := if nsrc = 1 then .a else if nsrc = 2 then .b else .c }

def fltRules (x : Args) (t : Ty) (nsrc : Nat) : Rules :=
  { intRules x t nsrc with immResv := if t = .f32 then 0 else 0xFFFF0000 }

def memLoadRules (x : Args) (t : Ty) (base : Kinds) (plain : Bool) : Rules :=
  { d := some (valK x.u t.wide), a := some base, b := some (idxK x.u),
    c := if is128 x then none else some (idxK x.u), extOk := memExtOk (!plain) false }

def memStoreRules (x : Args) (t : Ty) (base : Kinds) (plain : Bool) : Rules :=
  { result := false, a := some base, b := some (idxK x.u), c := some (dataK x.u t.wide),
    extOk := memExtOk false (!plain) }

/-- U = 1, no destination. -/
def uni (a b c : Option Kinds) : Rules := { u := some true, result := false, a := a, b := b, c := c }
/-- U = 1, an `s` destination. -/
def uniS (a b c : Option Kinds) : Rules := { u := some true, d := some sreg, a := a, b := b, c := c }

def targetK (u : Bool) : Kinds := baseK u

def vK (n : Nat) : Kinds
  | .v r => r.toNat ≤ n
  | _ => false

/-- The form of each instruction that a train fetches. -/
def rules : Instr → Rules
  | .add x t _ | .sub x t _ | .mul x t _ | .div x t _ => intRules x t 2
  | .mulhi x t | .rem x t | .min x t | .max x t | .and x t | .or x t | .xor x t | .andn x t
  | .shl x t | .shr x t | .sra x t | .rol x t | .bfx x t | .sext x t | .zext x t => intRules x t 2
  | .mad x t _ => intRules x t 3
  | .madhi x t | .bfi x t | .lea x t _ => intRules x t 3
  | .abs x t _ => intRules x t 1
  | .clz x t | .ctz x t | .popc x t | .mov x t => intRules x t 1
  | .prm x => intRules x .b32 3
  | .sel x t => { intRules x t 3 with c := some (condSrcK x.u), imm := .none }
  | .cmp x t _ => { intRules x t 2 with d := some (condDstK x.u) }
  | .fadd x t _ _ | .fsub x t _ _ | .fmul x t _ _ | .fdiv x t _ _ => fltRules x t 2
  | .fma x t _ _ | .fnma x t _ _ => fltRules x t 3
  | .fmin x t _ | .fmax x t _ => fltRules x t 2
  | .fcmp x t _ => { fltRules x t 2 with d := some (condDstK x.u) }
  | .fclass x t => fltRules x t 1
  | .fsel x t => { fltRules x t 3 with c := some (condSrcK x.u), imm := .none }
  | .frcp x t _ | .frsq x t _ | .fex2 x t _ | .flg2 x t _ | .fsin x t _ | .fcos x t _ | .ftanh x t _ => fltRules x t 1
  | .fsqrt x t _ _ => fltRules x t 1
  | .cvt x t s => { d := some (dstK x.u t.wide true), a := some (cvtSrcK x.u s.wide), b := some (immIn 0 7) }
  | .rnd x _ _ => { d := some (dstK x.u false true), a := some (cvtSrcK x.u false) }
  | .qnt x _ _ | .scl x _ _ =>
    { d := some (dstK x.u false true), a := some (cvtSrcK x.u false), b := some (cvtSrcK x.u false) }
  | .dqt x _ => { d := some (dstK x.u false true), a := some (cvtSrcK x.u false), b := some (cvtSrcK x.u false) }
  | .pack x t _ _ =>
    { d := some (dstK x.u false true), a := some (cvtSrcK x.u false), b := some (cvtSrcK x.u false),
      c := if t.width = 16 then none else some (cvtSrcK x.u false) }
  | .unpk x _ _ => { d := some (dstK x.u false true), a := some (cvtSrcK x.u false) }
  | .red x t _ => { d := some (valK x.u t.wide), a := some (laneSrc t.wide) }
  | .scan _ t _ _ => { u := some false, d := some (lane t.wide), a := some (laneSrc t.wide) }
  | .shfl _ w _ => { u := some false, d := some (lane w), a := some (laneSrc w), b := some (srcK false false false) }
  | .bcst x w => { d := some (valK x.u w), a := some (laneSrc w), b := some sImm }
  | .vote x m =>
    { d := some (fun o => if m = .ballot then valK x.u true o else condDstK x.u o || (!x.u && lane false o)),
      a := some pred }
  | .first x => { d := some (valK x.u false), a := some pred }
  | .kand x | .kor x | .kxor x =>
    { d := some (condDstK x.u), a := some (condSrcK x.u), b := some (condSrcK x.u) }
  | .knot x => { d := some (condDstK x.u), a := some (condSrcK x.u) }
  | .kmov x => { d := some (fun d => kmovK x.u d x.a x.nwb), a := some (fun a => kmovK x.u x.d a x.nwb) }
  | .ld x t _ => memLoadRules x t (baseK x.u) false
  | .st x t _ => memStoreRules x t (baseK x.u) false
  | .ldp x t _ => memLoadRules x t (spBaseK x.u) true
  | .stp x t _ => memStoreRules x t (spBaseK x.u) true
  | .ldt x t _ => { memLoadRules x t tile true with u := some false }
  | .stt x t _ => { memStoreRules x t tile true with u := some false }
  | .look x => { d := some (valK x.u false), a := some (baseK x.u) }
  | .tagw x => { result := false, a := some (srcK x.u false false), b := some (baseK x.u) }
  | .tagi x => { result := false, a := some (srcK x.u false false) }
  | .tagiAll _ => uni none none none
  | .tagiCfg _ => uni (some sreg) none none
  | .tst _ => uni (some tile) (some (or sreg (immIn 0 3))) none
  | .tstDef _ => uni (some tile) (some sreg) none
  | .pref x _ =>
    { result := false, a := some (baseK x.u), b := some (idxK x.u), c := if is128 x then none else some (idxK x.u),
      extOk := memExtOk false false }
  | .fence _ _ _ | .flushWc _ => uni none none none
  | .flushIb _ => uni (some sreg) (some (or sreg (immIn 1 127))) none
  | .atom x t _ =>
    { d := some (valK x.u t.wide), a := some (atomBaseK x), b := some (dataK x.u t.wide),
      extOk := atomExtOk (fun _ => true) true }
  | .cas x t =>
    { d := some (valK x.u t.wide), a := some (atomBaseK x), b := some (dataK x.u t.wide), c := some (dataK x.u t.wide),
      extOk := atomExtOk (fun _ => true) true }
  | .facc x =>
    { result := false, a := some (atomBaseK x), b := some (dataK x.u false), extOk := atomExtOk (· = 0) true }
  | .faccTagged x =>
    { result := false, a := some (atomBaseK x), b := some (dataK x.u false), c := some sreg,
      extOk := atomExtOk (· = 0) false }
  | .faccr x _ _ _ =>
    { d := some (valK x.u false), a := some (atomBaseK x), extOk := atomExtOk (· = 0) true, nwbOk := false }
  | .waita x t _ =>
    { d := some (valK x.u t.wide), a := some (atomBaseK x), b := some (dataK x.u t.wide),
      c := some (or sreg (or (immIn 0 127) isZero)), extOk := atomExtOk (· ≤ 1) true, nwbOk := false }
  | .qbind _ => { u := some true, result := false, d := some queue, a := some sImm, b := some sImm, imm := .b }
  | .qstat _ => { uniS (some queue) none none with nwbOk := false }
  | .qdrain _ => uniS (some queue) none none
  | .racq _ _ => { uniS (some sreg) (some sImm) none with imm := .b, nwbOk := false }
  | .rcom _ _ | .rcomSkip _ _ | .rrel _ _ => { uniS (some sreg) (some sreg) (some sImm) with imm := .c }
  | .rpeek _ _ | .rpeekTake _ _ => { uniS (some sreg) none none with nwbOk := false }
  | .stage _ => { uniS none none none with nwbOk := false }
  | .stageCfg _ => { uniS (some sreg) none none with nwbOk := false }
  | .bra _ => { result := false, a := some imm, imm := .a, immResv := 3 }
  | .brx x | .ret x => { result := false, a := some (targetK x.u) }
  | .call x =>
    { d := some (targetK x.u), a := some (or imm (targetK x.u)), imm := .a, immResv := 3, nwbOk := false }
  | .exit _ => { result := false }
  | .bar _ | .gbar _ | .joinPointNop _ => { u := some false, result := false }
  | .nop _ => { u := some false, result := false, immResv := 0xFFFFFFFF }
  | .yield _ => uni none none none
  | .fwait _ | .fcancel _ => uniS (some sreg) none none
  | .ftestH _ => { uniS (some sreg) none none with nwbOk := false }
  | .ftest _ => { u := some true, d := some flag, a := some sreg, nwbOk := false }
  | .trapf _ | .trapfClr _ => uniS (some sImm) none none
  | .trap _ => { result := false, a := some (or sreg (immIn 0 127)), imm := .a, immResv := 0xFFFF0000 }
  | .aalloc _ | .afree _ | .azero _ => { u := some true, result := false, d := some acc, a := some sImm }
  | .aallocBanksFree _ => { }
  | .wld _ _ => uni (some tile) (some (or tile sImm)) none
  | .wldZero _ => uni none none none
  | .mmaTile _ _ => { uni (some tile) (some sImm) (some (or tile isZero)) with d := some acc }
  | .mmaMemory _ _ =>
    { uni (some sreg) (some sImm) (some (or tile isZero)) with
      d := some acc, extOk := fun e => e.toNat / 2 ^ 43 = 0 }
  | .mmt _ _ _ =>
    { uni (some tile) (some tile) (some sImm) with
      d := some acc, extOk := fun e => bitsAt e.toNat 11 5 = 0 && e.toNat / 2 ^ 32 = 0 }
  | .adrainReg _ _ _ => { uni (some acc) none none with d := some vreg }
  | .adrainSp _ _ _ => uni (some acc) (some sImm) none
  | .adrainGm _ _ _ => { uni (some acc) (some sreg) none with extOk := fun e => e.toNat / 2 ^ 32 = 0 }
  | .mred _ => uni (some sImm) none none
  | .mprog _ => uniS none none none
  | .lopen _ => uniS (some sreg) (some (or sreg (or (immIn 0 47) isZero))) none
  | .lclose _ => uni (some sreg) none none
  | .feed _ => { u := some false, result := false, a := some sreg, b := some (baseK false) }
  | .wmark _ => { uni (some sreg) (some (or sreg (immIn 0 127))) none with imm := .b }
  | .wrec _ | .wpane _ =>
    { u := some false, d := some (lane false), a := some (or (laneSrc false) (or sreg (immIn 0 127))) }
  | .wemit x =>
    { u := some false, result := false, a := some (fun o => match x.b with
        | .imm n => vK (32 - n.toNat) o
        | _ => vreg o), b := some (immIn 1 16) }
  | .wyield _ | .wend _ => { u := some false, result := false }
  | .wkey _ => { u := some false, d := some (lane false) }
  | .lstat _ => uniS (some sreg) (some (immIn 0 7)) none
  | .tfetch _ => { uniS (some (or sreg (or (immIn 0 5) isZero))) none none with nwbOk := false }
  | .tfetchTask _ =>
    { uniS (some sImm) (some (or sreg (or (immIn 0 127) isZero))) none with imm := .a, immResv := 0xFFFFFF00, nwbOk := false }
  | .tsub _ | .tdone _ | .lwait _ | .jwait _ => uniS (some sreg) none none
  | .launch _ | .jopen _ | .jstat _ => { uniS (some sreg) none none with nwbOk := false }
  | .trig _ | .jkp _ => uni none none none
  | .tsel _ => { uniS (some (or sreg (immIn 0 15))) (some sImm) none with imm := .b, nwbOk := false }
  | .jarr _ => { uniS (some sreg) (some sImm) none with imm := .b }
  | .copy _ | .dec _ | .pyr _ => uniS (some sreg) none none
  | .xst x w =>
    { result := false, a := some (dataK x.u false), b := some (dataK x.u false), c := some (dataK x.u w) }
  | .publ _ _ => uni (some sreg) none none
  | .svc _ =>
    { uniS (some (or sreg isZero)) (some (or sreg (immIn 0 127))) none with imm := .b, immResv := 0xFFFF0000 }
  | .eret _ => uni none none none
  | .mfsr x =>
    { d := some (valK x.u true), a := some (or sreg (immIn 0 127)), imm := .a, immResv := 0xFFFFF000 }
  | .mtsr x | .svcret x | .texitFault x | .texitTerminate x =>
    { result := false, a := some (or sreg (immIn 0 127)),
      b := some (or sreg (or (immIn 0 127) (fun o => !x.u && lane true o))), imm := .a, immResv := 0xFFFFF000 }
  | .tlbiPage _ | .tlbiAsid _ | .tlbiPart _ =>
    uni (some (or sreg isZero)) (some (or sreg (or (immIn 0 127) isZero))) none
  | .trapq _ => uniS (some (or sreg (immIn 0 7))) none none
  | .ctxs _ | .ctxl _ => uniS (some sreg) (some sreg) none
  | _ => { }

/-! ## Lengths (R38 and each description) -/

/-- The permitted lengths in bits of an instruction with opcode `opc` and modifier byte `m`. Where a description marks no field for IMM32
there is no 96-bit form, as for `qstat`, `qdrain`, `rpeek` and `stage` (log 13). -/
def lengths (opc m : Nat) : List Nat :=
  if 0x01 ≤ opc ∧ opc ≤ 0x1F then
    (if m % 16 = 3 ∨ m % 16 = 7 then [64, 96, 128] else [64, 96])
  else if 0x20 ≤ opc ∧ opc ≤ 0x32 then [64, 96]
  else if opc = 0xC5 then [128]
  else if opc = 0xC6 then (if m / 16 % 4 = 2 then [128] else if m / 16 % 4 = 3 then [64, 128] else [64])
  else if opc = 0xC4 ∨ (0x70 ≤ opc ∧ opc ≤ 0x75) ∨ opc = 0x7A ∨ (0x90 ≤ opc ∧ opc ≤ 0x94) then [64, 128]
  else if opc = 0xA0 ∨ opc = 0xA3 ∨ opc = 0xA4 ∨ opc = 0xA6 ∨ opc = 0xB0 ∨ opc = 0xB2 ∨ opc = 0xBC ∨ opc = 0xBD
      ∨ opc = 0xD3 ∨ opc = 0xE6 ∨ opc = 0xE8 ∨ opc = 0xF8 ∨ opc = 0xFA ∨ opc = 0xFB then [64, 96]
  else if opc = 0xE0 then (if m = 0 then [64] else [64, 96])
  else [64]

def Ext.bits : Ext → Nat
  | .short => 64
  | .imm _ => 96
  | .ext _ => 128

/-- The length of an instruction in bytes. -/
def Args.len (x : Args) : Nat := x.ext.bits / 8

/-- Which field IMM32 or EXT64 stands for, by opcode; in the integer and floating-point classes the highest-lettered
source field (R37), elsewhere the field the class table marks. -/
def immFieldOf (opc : Nat) : ImmField :=
  if opc = 0x0B ∨ (0x14 ≤ opc ∧ opc ≤ 0x16) ∨ opc = 0x1C ∨ opc = 0x28 ∨ (0x2A ≤ opc ∧ opc ≤ 0x2C)
      ∨ (0x2E ≤ opc ∧ opc ≤ 0x32) then .a
  else if opc = 0x05 ∨ opc = 0x06 ∨ (0x18 ≤ opc ∧ opc ≤ 0x1A) ∨ opc = 0x1D ∨ opc = 0x23 ∨ opc = 0x24 ∨ opc = 0x29 then .c
  else if opc ≤ 0x32 then .b
  else if opc = 0xB0 ∨ opc = 0xB2 ∨ opc = 0xBC ∨ opc = 0xE0 ∨ opc = 0xFA ∨ opc = 0xFB then .a
  else if opc = 0xA0 ∨ opc = 0xA3 ∨ opc = 0xD3 ∨ opc = 0xE6 ∨ opc = 0xE8 ∨ opc = 0xF8 then .b
  else if opc = 0xA4 ∨ opc = 0xA6 then .c
  else .none

def Args.field (x : Args) : ImmField → Opnd
  | .none => .zero
  | .a => x.a
  | .b => x.b
  | .c => x.c

/-- R48 check 6: the length is permitted (R38), and the field that IMM32, or EXT64 in the integer class, stands for
holds 0x170 (R37; log 13 for the classes above 0x5F). -/
def lengthOk (opc m : Nat) (x : Args) : Bool :=
  (lengths opc m).contains x.ext.bits &&
    (match x.ext with
     | .short => true
     | .imm _ => x.field (immFieldOf opc) = .zero
     | .ext _ => opc > 0x1F || x.field (immFieldOf opc) = .zero)

/-! ## The static checks -/

/-- An unused field holds 0x170 (R47). -/
def unusedOk (k : Option Kinds) (o : Opnd) : Bool := k.isSome || o = .zero

/-- R48 check 7 apart from the modifier byte. -/
def check7 (r : Rules) (x : Args) : Bool :=
  (r.u.isNone || r.u = some x.u)
    && (match x.ext with
        | .short => true
        | .imm w => w.toNat &&& r.immResv = 0
        | .ext e => r.extOk e)
    && unusedOk r.d x.d && unusedOk r.a x.a && unusedOk r.b x.b && unusedOk r.c x.c
    && (!x.nwb || (r.result && r.d.isSome && x.d = .zero))

/-- R48 check 8: no field holds a reserved specifier. -/
def check8 (x : Args) : Bool := !(x.d.isResv || x.a.isResv || x.b.isResv || x.c.isResv)

/-- The field that IMM32 or EXT64 stands for takes no kind check. -/
def kindOk (k : Option Kinds) (served : Bool) (o : Opnd) : Bool :=
  match k with
  | none => true
  | some p => served || p o

def servedBy (r : Rules) (x : Args) (f : ImmField) : Bool := x.ext != .short && r.imm = f && f != .none

/-- R48 check 9 as far as it does not depend on the train. -/
def check9 (r : Rules) (x : Args) : Bool :=
  (if x.nwb then r.nwbOk else kindOk r.d false x.d) && kindOk r.a (servedBy r x .a) x.a && kindOk r.b (servedBy r x .b) x.b
    && kindOk r.c (servedBy r x .c) x.c

/-- The first failing check of R48 among 7, 8 and 9, for an instruction whose modifier byte is not reserved. -/
def staticCheck (i : Instr) (x : Args) : Option Nat :=
  let r := rules i
  if !check7 r x then some 7 else if !check8 x then some 8 else if !check9 r x then some 9 else none

end Sys2Proof
end

