-- ==== Sys2Proof/WellFormed.lean ====
section
/-! DEFINITION. Well-formed instructions and steps: what the encodings of the spec can express (R37 to R48), and for the
steps of the units, of the host and of the fabric the ranges of what names them. -/

namespace Sys2Proof

/-- An instruction that a train fetches is well formed when its modifier byte and fields are those of its row, its length
is permitted and the static checks 7 to 9 of R48 pass. -/
def Instr.wfForm (i : Instr) : Bool :=
  match i.form with
  | none => false
  | some (opc, m, x) =>
    lengthOk opc m x && build opc m x == some (some i) && staticCheck i x == none

/-- The bytes of a transfer are 1 to 64 (one flit; R411, R424). -/
def lenIn (n lo hi : Nat) : Bool := lo ≤ n && n ≤ hi

/-- The steps name what exists: 192 cores, 48 clusters, 64 partitions, 120 endpoints of 16 wavelengths, 256 line slots of
a cluster, 2²⁰ future entries (R11, R25, R26, R262, R272, R393). -/
def Instr.wfStep : Instr → Bool
  | .longOpResult tr | .loadDataReturn tr _ | .storePerformed tr _ | .wcBufferDrainTimeout tr _
  | .instructionFetchFill tr | .faultEntryFreed tr | .waitaReread tr | .waitaDeadline tr | .queueOpIssue tr
  | .aallocBanksFree tr | .matrixQueueRoom tr | .tileGateRelease tr | .feedIntakeRoom tr | .wemitRetry tr
  | .tfetchTaskWake tr | .tfetchTaskDeadline tr | .kill tr | .stagingRoom tr | .proxyReply tr _
  | .engineQueueRoom tr | .svcRetry tr | .trapDelivery tr => tr < 192 * 32
  | .queueStall wg | .bstall wg _ | .timeSliceExpiry wg | .preemptDrain wg | .drainmaxExpiry wg
  | .preemptFlushRestart wg | .preemptSave wg => wg < 192 * 8
  | .migrate wg core => wg < 192 * 8 && core < 192
  | .restore _ core | .arrayStep core => core < 192
  | .resolveRecord l | .watermarkResolve l | .paneComplete l | .lineFlush l | .lineFree l | .activationBatchIssue l
  | .windowPoolSlotFree l => l < 48 * 256
  | .activationTrainAdmit c => c < 48
  | .joinCasualty slot _ | .proxyKill slot _ => slot < 4096
  | .futureEntryFree i => i < 2 ^ 20
  | .launchAdmit p | .asidgenAdv p | .faultReplay p | .faultFail p | .fbpendRead p | .partitionResetDrain p
  | .partitionResetKill p | .qosSet p _ _ | .qtail p _ _ | .qstate p _ _ | .setv p | .waitv p | .fencePacket p
  | .copyPacket p | .lineOpenPacket p | .lineClosePacket p | .launchPacket p | .padPacket p | .partitionDrainExpiry p
  | .irqenWrite p _ | .waitvReread p => p < 64
  | .supervisorRegisterWrite off _ => off % 8 = 0 && off < 8 * 2 ^ 20
  | .hostMemRead _ n => lenIn n 1 64
  | .hostMemWrite _ bs => lenIn bs.length 1 64
  | .flitRetransmit e w | .wavelengthWithdraw e w | .wavelengthReturn e w => e < 120 && w < 16
  | .stagger _ _ n => n != 0
  | .followOnMma _ | .launchInvalid _ | .launchComplete _ | .dependantsStart _ | .engineOperationStart _
  | .copyComplete _ | .decComplete _ | .pyrComplete _ | .engineFaultPause _ | .homeRemoteArrival _ _ _ _
  | .attestationReport | .routingTableSwap _ | .stationmasterStep | .remoteResponse _ _ | .messageDiscard _
  | .collMulticast _ | .powerInterval _ _ | .moduleReset | .opticalTrainingDone | .bulkTrainingDone
  | .fabricTrainingDone | .remoteAccessRequest _ _ _ | .staggerResume => true
  | _ => false

/-- A well-formed instruction or step. -/
def Instr.wellFormed (i : Instr) : Bool := if i.form.isSome then i.wfForm else i.wfStep

/-- Well-formedness as a decidable proposition. -/
abbrev WellFormed (i : Instr) : Prop := i.wellFormed = true

end Sys2Proof
end

