-- ==== Sys2Proof/Decode.lean ====
section
/-! DEFINITION. Decoding (R32 to R48) and encoding. The decoder is total on any bytes and names the check of R48 that a
refused encoding fails first. The encoder writes the base word of R35 and what follows it. -/

namespace Sys2Proof

/-- Why an encoding is refused: the check of R48 that fails first (2, 4, 6, 7, 8 or 9), or too few bytes. -/
inductive Reject where
  | check (n : Nat)
  | tooShort
  deriving DecidableEq, Repr

/-- The fields of a base word and what follows it, as numbers (R35). -/
structure Raw where
  len : Nat
  opc : Nat
  u   : Nat
  nwb : Nat
  kg  : Nat
  kn  : Nat
  d   : Nat
  a   : Nat
  b   : Nat
  c   : Nat
  m   : Nat
  ext : Nat
  deriving DecidableEq, Repr

/-- The fields of an instruction read as one number, first word lowest (R35). -/
def Raw.ofNat (w : Nat) : Raw :=
  { len := w % 4, opc := w / 2 ^ 2 % 2 ^ 8, u := w / 2 ^ 10 % 2, nwb := w / 2 ^ 11 % 2, kg := w / 2 ^ 12 % 8,
    kn := w / 2 ^ 15 % 2, d := w / 2 ^ 16 % 2 ^ 10, a := w / 2 ^ 26 % 2 ^ 10, b := w / 2 ^ 36 % 2 ^ 10,
    c := w / 2 ^ 46 % 2 ^ 10, m := w / 2 ^ 56 % 2 ^ 8, ext := w / 2 ^ 64 }

/-- The number whose fields these are. -/
def Raw.toNat (r : Raw) : Nat :=
  r.len + 2 ^ 2 * r.opc + 2 ^ 10 * r.u + 2 ^ 11 * r.nwb + 2 ^ 12 * r.kg + 2 ^ 15 * r.kn + 2 ^ 16 * r.d + 2 ^ 26 * r.a
    + 2 ^ 36 * r.b + 2 ^ 46 * r.c + 2 ^ 56 * r.m + 2 ^ 64 * r.ext

/-- The bytes that LEN gives (R32): 8, 12 or 16, and `none` for the illegal code 0b11. -/
def lenBytes : Nat → Option Nat
  | 0 => some 8
  | 1 => some 12
  | 2 => some 16
  | _ => none

/-- What follows the base word, by LEN. -/
def extOf (len ext : Nat) : Ext :=
  if len = 0 then .short else if len = 1 then .imm (BitVec.ofNat 32 ext) else .ext (BitVec.ofNat 64 ext)

def Raw.args (r : Raw) : Args :=
  { u := r.u = 1, nwb := r.nwb = 1, kg := BitVec.ofNat 3 r.kg, kn := r.kn = 1, d := Opnd.ofCode r.d,
    a := Opnd.ofCode r.a, b := Opnd.ofCode r.b, c := Opnd.ofCode r.c, ext := extOf r.len r.ext }

/-- An instruction from its fields, or the first check among 2, 4, 6, 7, 8 and 9 of R48 that fails. Check 5, which
depends on the train, lies between 4 and 6: the fetch makes it (`Machine.fetchChecks`). -/
def decodeRaw (r : Raw) : Except Reject Instr :=
  if r.len = 3 then .error (.check 2)
  else
    match build r.opc r.m r.args with
    | none => .error (.check 4)
    | some built =>
      if lengthOk r.opc r.m r.args then
        match built with
        | none => .error (.check 7)
        | some i =>
          match staticCheck i r.args with
          | none => .ok i
          | some n => .error (.check n)
      else .error (.check 6)

/-- The value of the first `n` bytes of a list, if there are that many. -/
def takeValue (n : Nat) (bs : List Byte) : Option Nat :=
  if n ≤ bs.length then some (ofBytes (bs.take n)) else none

/-- Decode the instruction at the head of a list of bytes: the instruction with the rest of the list. -/
def decode (bs : List Byte) : Except Reject (Instr × List Byte) :=
  match bs with
  | [] => .error .tooShort
  | b0 :: _ =>
    match lenBytes (b0.toNat % 4) with
    | none => .error (.check 2)
    | some n =>
      match takeValue n bs with
      | none => .error .tooShort
      | some w =>
        match decodeRaw (Raw.ofNat w) with
        | .ok i => .ok (i, bs.drop n)
        | .error e => .error e

/-- The opcode of the instruction at the head of a list of bytes. -/
def peekOpc (bs : List Byte) : Nat := ofBytes (bs.take 2) / 4 % 256

/-! ## The encoder -/

def Ext.lenCode : Ext → Nat
  | .short => 0
  | .imm _ => 1
  | .ext _ => 2

def Ext.value : Ext → Nat
  | .short => 0
  | .imm w => w.toNat
  | .ext w => w.toNat

/-- The fields of an instruction with opcode `opc` and modifier byte `m` (R35). -/
def rawOf (opc m : Nat) (x : Args) : Raw :=
  { len := x.ext.lenCode, opc := opc, u := x.u.toNat, nwb := x.nwb.toNat, kg := x.kg.toNat, kn := x.kn.toNat,
    d := x.d.code, a := x.a.code, b := x.b.code, c := x.c.code, m := m, ext := x.ext.value }

/-- The number an instruction is encoded as, first word lowest; a step of a unit has no encoding. -/
def encodeNat (i : Instr) : Option Nat := i.form.map fun f => (rawOf f.1 f.2.1 f.2.2).toNat

/-- The 32-bit words of a well-formed instruction, first word first (R32). -/
def encode (i : Instr) : List Word :=
  match i.form with
  | none => []
  | some (opc, m, x) =>
    let w := (rawOf opc m x).toNat
    (List.range (x.ext.bits / 32)).map fun j => BitVec.ofNat 32 (w / 2 ^ (32 * j))

/-- The bytes of a well-formed instruction, each word little-endian (R3, R32). -/
def encodeBytes (i : Instr) : List Byte :=
  match i.form with
  | none => []
  | some (opc, m, x) => bytesOf (rawOf opc m x).toNat x.len

/-- The instruction whose bits are `w`, bit 0 the least significant bit of the first word. -/
def decodeTableWord (_nbits w : Nat) : Option Instr :=
  match decode (bytesOf w 16) with
  | .ok (i, _) => some i
  | .error _ => none

end Sys2Proof
end

