-- ==== Sys2Proof/Machine/Flags.lean ====
section
/-! DEFINITION. The sticky flags of R100 as a seven-bit word, with the bit order of the flag word. -/

namespace Sys2Proof.Machine

abbrev FlagSet := BitVec 7

namespace Fl
def none : FlagSet := 0
def inv : FlagSet := 1
def dz  : FlagSet := 2
def ovf : FlagSet := 4
def unf : FlagSet := 8
def inx : FlagSet := 16
def iov : FlagSet := 32
def aov : FlagSet := 64
end Fl

/-- A flag when a condition holds. -/
def flagIf (p : Bool) (f : FlagSet) : FlagSet := if p then f else 0

/-- The flags that several threads set (R101). -/
def joinFlags (fs : List FlagSet) : FlagSet := fs.foldl (· ||| ·) 0

end Sys2Proof.Machine
end

