-- ==== Sys2Proof/Config.lean ====
section
/-! DEFINITION. What an implementation fixes and the free values (the assumption log, entries 6, 7 and 9). A free value is
a constant with no body: nothing in Lean can prove a value of it. -/

namespace Sys2Proof.Config

/-- The free values of the model: the n-th one, as 128 bits (log 6). -/
opaque freeValue : Nat → BitVec 128

/-- The choice of the long approximations among the results that R119 allows: for an operation, a type code and the
operand's bits, how far the returned value lies from the correctly rounded one, in steps of the format (log 7). -/
opaque approxStep : Nat → Nat → Nat → Int

/-- What `reason` reads as in a thread of an activation train that holds no wake-up, which R44 leaves open (log 9). -/
opaque noWakeReason : BitVec 64

/-- The module's fabric number, which fabric bring-up puts into IDENT (R407; log 9). -/
opaque moduleNumber : BitVec 19

/-- The size of a dimension of the torus, as it is installed (R425; log 9). -/
opaque torusSize : Nat → Nat

/-- The silicon step of IDENT, per part (R407). -/
opaque siliconStep : BitVec 8

/-- The profiles of the standards of R370 that its table names. -/
inductive Profile where
  | constrainedBaseline | main | high | main10 | other
  deriving DecidableEq, Repr, Inhabited

/-- The sizes of a block in luma samples (R372). -/
inductive BlockSize where
  | of16 | of32 | of64 | of128
  deriving DecidableEq, Repr, Inhabited

/-- The rules that a stream can break in a block (R372). -/
inductive StreamError where
  | badSyntax | outOfRange | missingReference | truncatedUnit
  deriving DecidableEq, Repr, Inhabited

/-- A block of a picture in decode order: its luma coordinates and size, whether a slice or tile starts with it, and, where the
stream breaks a rule in it, the bit at which that shows and the rule. -/
structure CodedBlock where
  x : Nat
  y : Nat
  size : BlockSize
  start : Bool
  error : Option (BitVec 64 × StreamError)
  deriving DecidableEq, Repr, Inhabited

/-- What the standards of R370 make of an access unit (log 9): what it declares of itself, its blocks, and the samples that decoding
gives the sound ones, by rows, chroma with Cb and Cr in turn. Which streams are supported, what is damaged, and what takes its
place is the model's to compute. -/
structure Picture where
  profile : Profile
  /-- The level, in tenths. -/
  level : Nat
  /-- Bits of a sample. -/
  depth : Nat
  /-- chroma_format_idc: 0 monochrome, 1 4:2:0. -/
  chromaFormat : Nat
  /-- Field-coded, or MBAFF. -/
  fieldCoded : Bool
  /-- Uses a tool outside its profile. -/
  otherTools : Bool
  width : Nat
  height : Nat
  shown : Bool
  intra : Bool
  order : BitVec 64
  blocks : List CodedBlock
  luma : List (List Nat)
  chroma : List (List Nat)
  deriving DecidableEq, Repr, Inhabited

/-- The picture of an access unit, for the codec and the slot's earlier access units. -/
opaque decodeUnit : Nat → List (List Byte) → List Byte → Picture

/-- The P-256 signature with the identity key, and the check of a signature of a digest with a public key (R397, R398; log 9). -/
opaque signP256 : BitVec 256 → BitVec 512
opaque verifyP256 : BitVec 512 → BitVec 256 → BitVec 512 → Bool

/-- A firmware image as the boot ROM finds it (R397): its bytes, its public key, its signature and its version. -/
structure Firmware where
  image : List Byte
  key : BitVec 512
  signature : BitVec 512
  version : Nat
  deriving DecidableEq, Repr, Inhabited

/-- The firmware of a part, in boot order, what its fuses hold, and the outcome of its self-test (R397, R420; log 9). -/
opaque stationmaster : Firmware
opaque management : Firmware
opaque fusedKeyDigest : BitVec 256
opaque fusedVersion : Nat
opaque selfTest : Bool

end Sys2Proof.Config
end

