-- ==== Sys2Proof/Machine/Table.lean ====
section
/-! DEFINITION. Sparse tables: lists of key and value pairs with strictly rising keys. A table read with a default lists no
entry equal to the default, so equal contents are equal lists. -/

namespace Sys2Proof

/-- A table from natural numbers, keys strictly rising. -/
abbrev Tab (α : Type) := List (Nat × α)

namespace Tab
variable {α : Type}

/-- The entry at a key. -/
def get? : Tab α → Nat → Option α
  | [], _ => none
  | (k', v) :: r, k => if k = k' then some v else get? r k

/-- Add or replace the entry at a key. -/
def put : Tab α → Nat → α → Tab α
  | [], k, v => [(k, v)]
  | (k', v') :: r, k, v =>
    if k < k' then (k, v) :: (k', v') :: r else if k = k' then (k, v) :: r else (k', v') :: put r k v

/-- Remove the entry at a key. -/
def del : Tab α → Nat → Tab α
  | [], _ => []
  | (k', v') :: r, k => if k = k' then del r k else (k', v') :: del r k

/-- The value at a key, `d` where nothing is listed. -/
def read (d : α) (m : Tab α) (k : Nat) : α := (get? m k).getD d

/-- Write a value; writing the default removes the entry. -/
def write [DecidableEq α] (d : α) (m : Tab α) (k : Nat) (v : α) : Tab α := if v = d then del m k else put m k v

/-- Change the entry at a key, if there is one. -/
def adjust (m : Tab α) (k : Nat) (f : α → α) : Tab α :=
  match get? m k with
  | some v => put m k (f v)
  | none => m

/-- Keys strictly rising, all above `lo`. -/
def risingFrom : Nat → Tab α → Bool
  | _, [] => true
  | lo, (k, _) :: r => lo ≤ k && risingFrom (k + 1) r

/-- The canonical form of a table: keys strictly rising. -/
def rising (m : Tab α) : Bool := risingFrom 0 m

/-- The canonical form of a table read with a default: rising, and no entry equal to the default. -/
def canonical [DecidableEq α] (d : α) (m : Tab α) : Bool := rising m && m.all fun e => e.2 ≠ d

/-- The lowest key not listed from `n` upward. -/
def firstFree (m : Tab α) : Nat → Nat → Option Nat
  | 0, _ => none
  | fuel + 1, n => if (get? m n).isNone then some n else firstFree m fuel (n + 1)

/-- Write consecutive values from a key. -/
def writeList [DecidableEq α] (d : α) : Tab α → Nat → List α → Tab α
  | m, _, [] => m
  | m, k, v :: vs => writeList d (write d m k v) (k + 1) vs

/-- Read `n` consecutive values from a key. -/
def readList (d : α) (m : Tab α) (k : Nat) : Nat → List α
  | 0 => []
  | n + 1 => read d m k :: readList d m (k + 1) n

end Tab
end Sys2Proof
end

