-- ==== Sys2Proof/Machine/State.lean ====
section
/-! DEFINITION. The state of a Velnik module as plain data, and the state after module reset. Tables list what exists: a
train, a workgroup, a line, a join and so on; each record's docstring names the rules that give it. -/

namespace Sys2Proof.Machine

/-- Why the machine stops. No step of the machine raises it: the issue of a train names the train that it issues for. -/
inductive Fault where
  /-- `exec` of an instruction that a train fetches, in a state in which no train is being issued. Raised by every meaning
  of such an instruction when `State.current` names no resident train; safe, since no state in which the hardware
  executes an instruction is meant by it. -/
  | noTrain
  deriving DecidableEq, Repr

/-- Why an instruction has no meaning. -/
inductive Refusal where
  /-- The instruction has no meaning in this model. Raised by the arms of `exec` that name a mnemonic; safe. -/
  | notModelled (mnemonic : String)
  deriving DecidableEq, Repr

/-! ## Trains -/

/-- A register that a latch chain reads or writes (R53). -/
inductive Reg where
  | v (n : Nat) | o (n : Nat) | s (n : Nat) | k (n : Nat) | g (n : Nat)
  deriving DecidableEq, Repr

/-- The latch chain of a train (R51 to R54): whether an instruction was executed since the first, whether the last one was
terminal, the members of the current chain, the PC of its head, the registers it has read, and whether its head writes a
register that it reads. -/
structure Chain where
  started   : Bool := false
  terminal  : Bool := false
  len       : Nat := 0
  head      : Dword := 0
  reads     : List Reg := []
  selfWrite : Bool := false
  deriving DecidableEq, Repr, Inhabited

/-- What a bypass latch holds: values by tid, or contents that were lost (R50), which are the free value with this number
(log 6). -/
inductive Latch where
  | vals (m : Tab Word)
  | lost (n : Nat)
  deriving DecidableEq, Repr, Inhabited

/-- The bypass latches as the train sees them (R49, R50). -/
structure Latches where
  b0 : Latch := .vals []
  b1 : Latch := .vals []
  b2 : Latch := .vals []
  b3 : Latch := .vals []
  deriving DecidableEq, Repr, Inhabited

/-- A trap record (R378). -/
structure TrapRec where
  kind    : Nat := 0
  cause   : Nat := 0
  flagw   : BitVec 7 := 0
  async   : Bool := false
  overrun : Nat := 0
  detail  : Word := 0
  pc      : Dword := 0
  rpc     : Dword := 0
  mask    : Mask := 0
  addr    : Dword := 0
  aux0    : Dword := 0
  aux1    : Dword := 0
  aux2    : Dword := 0
  deriving DecidableEq, Repr, Inhabited

/-- An outstanding load of one instruction (R186): its destination and type, the physical address read for each thread
(tid 64 stands for the train of a U = 1 form), and how many instructions the train has executed since, which tells the
latch that holds the result. -/
structure PendLoad where
  u     : Bool
  dst   : Opnd
  ty    : Ty
  parts : List (Nat × Nat)
  age   : Nat := 0
  deriving DecidableEq, Repr

/-- A store of one thread that is not yet performed (R176, R178, R196): physical address, bytes, whether it waits in a
write-combining buffer, and the cycle of the write. -/
structure PendStore where
  pa    : Nat
  bytes : List Byte
  wc    : Bool := false
  cycle : Nat := 0
  deriving DecidableEq, Repr

/-- What a translation and its checks answer: a fault with the page-table entry at which the walk stopped, a violation with
its cause, or the place (R153 to R164). -/
inductive Xl where
  | fault (pte : Nat)
  | bad (cause : Nat)
  | mem (pa : Nat)
  | remote (module pa : Nat)
  deriving DecidableEq, Repr

/-- An access of one instruction whose requests to other modules are out (R54, R189, R207): the instruction, with which the train goes on
once all are answered, its PC, the latches and the chain behind which it stands, and for each thread its address and its place. What it
does in this module's memory it has done; such a place stands as one that has answered. -/
structure PendAccess where
  instr   : Instr
  pc      : Dword
  latches : Latches
  chain   : Chain
  places  : List (Nat × Dword × Xl)
  deriving DecidableEq, Repr

/-- A slot of a queue register reserved for a value still to come (R234): queue, epoch of the queue and entry offset. -/
structure PushSlot where
  q : Nat
  epoch : Nat
  offset : Nat
  deriving DecidableEq, Repr

/-- A long operation whose result is pending (R99): the instruction, its fields, width and results by tid, the flags it sets
and the queue slots it reserved. -/
structure LongOp where
  instr : Instr
  x     : Args
  wide  : Bool
  vals  : List (Nat × Dword)
  flags : BitVec 7
  slots : List PushSlot
  deriving DecidableEq, Repr

/-- A thread that waits in `waita` (R228): tid, physical or scratchpad address, operand, the module of a remote address, and the virtual
address. -/
structure WaitCell where
  tid : Nat
  addr : Nat
  operand : Nat
  module : Option Nat := none
  va : Dword := 0
  deriving DecidableEq, Repr

/-- Why a train is blocked and consumes no issue slots (R20). -/
inductive Block where
  /-- Pops and pushes that a queue does not yet allow: queue, pops, pushes (R234); with the instruction's PC. -/
  | queue (qs : List (Nat × Nat × Nat)) (pc : Dword)
  /-- A tile whose state must be one of these, and, where `free` says so, which no queued matrix instruction refers to (R139, R167 to
  R169). -/
  | tile (t : Nat) (states : List Nat) (free : Bool)
  /-- An `s` register with a pending mark (R261). -/
  | mark (s : Nat)
  /-- `fwait` on a handle (R265). -/
  | future (handle : Dword)
  /-- `waita` (R228, R229): scratchpad or global, the threads still waiting, the last value read for every thread, the
  instruction's PC and the chain behind which it stands, the trap of its violating threads, and the cycle of the last reads. -/
  | waita (sp : Bool) (cells : List WaitCell) (vals : List (Nat × Nat)) (pc : Dword) (chain : Chain) (trap : Option TrapRec)
      (last : Nat)
  /-- `aalloc` of this many banks: its queue entry, whose number tells its order of issue, and the cycle at which it blocked
  (R132, R136). -/
  | aalloc (banks entry since : Nat)
  /-- A full matrix queue (R132). -/
  | matrixQueue
  /-- A matrix instruction, named by its entry, that the train waits for (R132, R142, R147). -/
  | matrixOp (entry : Nat)
  /-- `mred` and `exit` never block here: a train whose threads have exited and whose matrix instructions are not complete (R132, R256). -/
  | draining
  /-- `lwait` on a pool entry and generation (R318). -/
  | lwait (pool gen : Nat)
  /-- `jwait` on a join slot and generation (R348). -/
  | jwait (slot gen : Nat)
  /-- `tfetch.task` with a priority mask (R329). -/
  | tfetch (mask : Nat)
  /-- `feed` of so many records to a line (R294). -/
  | feed (line n : Nat)
  /-- `lclose` after it took its place: line, generation (R293). -/
  | lclose (line gen : Nat)
  /-- `wemit` retrying its reservation, since this cycle (R298). -/
  | wemit (since : Nat)
  /-- `svc` without a free token or a ring slot, since this cycle (R384). -/
  | svcRoom (since : Nat)
  /-- `svc` waiting for its reply: token (R384). -/
  | svcReply (token : Nat)
  /-- A tagged `facc` that found the staging area full (R339). -/
  | staging
  /-- Parked in the Siding on a fault buffer entry of its cluster (R159): the entry, the train's own address and PC, how
  far the resume PC of an UNRESOLVED trap lies behind it (R142, R147; 0: the chain head), and the threads that met a fault
  (0: all selected ones). -/
  | fault (index : Nat) (va pc : Dword) (skip : Nat) (mask : Mask)
  /-- Parked without an entry (R161): the address, whether a store or fetch (KIND), and the entry's key. -/
  | faultNoEntry (va : Dword) (kind : Nat)
  /-- The full queue of an engine (R358). -/
  | engineQueue (engine : Nat)
  /-- No free future table entry (R264). -/
  | futureTable
  /-- Remote accesses awaiting their RSP (R207). -/
  | remote (requests : List Nat)
  /-- A register, or a latch, that awaits the result of an arrival at a proxy join (R345, R352). -/
  | proxy
  /-- An instruction fetch that misses while every line is held (R172). -/
  | fetchLine
  /-- `ctxs` until the workgroup with this identity is saved, at this address (R403). -/
  | ctxs (uid : Nat) (addr : Dword)
  deriving DecidableEq, Repr

/-- An arrival at a proxy join whose result has not come back from the home (R345, R352): the join's slot, the `s` register that
receives the result, for `tdone` the other bits of the result, how many instructions the train has executed since, and whether it was
made while an earlier one of the train at that join had no answer yet. -/
structure HomeWait where
  slot : Nat
  reg  : Option Nat
  rest : Option Dword := none
  age  : Nat := 0
  again : Bool := false
  deriving DecidableEq, Repr

/-- The row-progress register (R143). -/
structure RowProg where
  pc    : Dword := 0
  rows  : Nat := 0
  valid : Bool := false
  deriving DecidableEq, Repr, Inhabited

/-- The kinds of wake-up (R283). -/
inductive WakeKind where
  | opened | record | pane | merge | close
  deriving DecidableEq, Repr

/-- A wake-up of a window (R281 to R283): its kind and bits, the record bytes, the pane partial, the absorbed session,
the window's record count at the delivery, and its place in the order of resolution (R302). -/
structure Wake where
  kind    : WakeKind
  partly  : Bool := false
  expire  : Bool := false
  bytes   : List Byte := []
  words   : List Word := []
  other   : Nat := 0
  count   : Nat := 0
  order   : Nat := 0
  deriving DecidableEq, Repr

/-- What an activation train runs (R281): the line, its generation, and the window and wake-up of each tid. -/
structure Act where
  line  : Nat
  gen   : Nat
  wakes : Tab (Nat × Wake)
  deriving DecidableEq, Repr

/-- What an `s` register carries for a future (R261, R266): a pending mark with the handle, or, once the operation has completed,
that it holds the status word which the mark delivered. A write of the register ends either. -/
inductive Mark where
  | pending (handle : Dword)
  | told
  deriving DecidableEq, Repr

/-- A wait from which a train was taken to its handler, and which it takes up again where it stood (R54, R379): its PC, the wait itself or
none in the middle of an access to another module, the instruction that completes, the replies so far and the access that they answer, and
the result, if it has come. -/
structure Aside where
  pc      : Dword
  block   : Option Block := none
  wait    : Option Instr := none
  replies : Tab RemoteReply := []
  access  : Option PendAccess := none
  result  : Option Dword := none
  deriving DecidableEq, Repr

/-- A resident train (R14, R17, R22, R100, R143, R251, R261, R376 to R386). The PC of a selected thread is `pc`;
`pcs` lists the PCs of the other threads. `s`, `v`, `o` list the registers that are not zero:
`v` and `o` under 64 × number + tid. `k` lists `k1` to `k7` as masks. `atWait` is the instruction that completes when the
train's wait ends; `asides` the waits that a handler interrupted; `xbar` and `xgbar` the lanes that were held at `bar` and at `gbar` when the
handled trap was taken and still count as arrived (R380); `held` the record that a parked dispatch holds, with the priority of its queue (R330); `predTrap` the trap that a
dispatch owes and `noWait` that a predicate violated, after which it does not wait (R329, R330); `kpc` the handler of a pending kill (R343). -/
structure Train where
  uid     : Nat := 0
  core    : Nat := 0
  slot    : Nat := 0
  wg      : Option Nat := none
  launch  : Option Nat := none
  trn     : Nat := 0
  part    : Nat := 0
  asid    : Nat := 0
  prio    : Nat := 0
  depth   : Nat := 0
  vgran   : Nat := 0
  sgran   : Nat := 0
  v       : Tab Word := []
  o       : Tab Word := []
  s       : Tab Dword := []
  k       : Tab Mask := []
  g       : BitVec 8 := 1
  flags   : BitVec 7 := 0
  pc      : Dword := 0
  pcs     : Tab Dword := []
  selected : Mask := 0
  heldBar : Mask := 0
  heldGbar : Mask := 0
  exited  : Mask := 0
  fresh   : Bool := true
  marks   : Tab Mark := []
  latches : Latches := {}
  chain   : Chain := {}
  block   : Option Block := none
  priv    : Bool := false
  intrap  : Bool := false
  ppriv   : Bool := false
  tq      : List TrapRec := []
  xpc     : Tab Dword := []
  xstate  : Tab (BitVec 3) := []
  xbar    : Mask := 0
  xgbar   : Mask := 0
  xk      : Tab Mask := []
  xg      : BitVec 15 := 0
  xs      : Tab Dword := []
  svctok  : Dword := 0
  rowprog : RowProg := {}
  deadline : Option Nat := none
  wkid    : Dword := 0
  stage   : Nat := 0
  gidx    : Nat := 0
  gotEnd  : Bool := false
  grant   : Option Dword := none
  task    : Option Dword := none
  held    : Option (Dword × Nat) := none
  predTrap : Option TrapRec := none
  noWait  : Bool := false
  killed  : Bool := false
  kpc     : Option Dword := none
  loads   : List PendLoad := []
  homes   : List HomeWait := []
  stores  : List PendStore := []
  long    : Option LongOp := none
  replies : Tab RemoteReply := []
  access  : Option PendAccess := none
  atWait  : Option Instr := none
  asides  : List Aside := []
  act     : Option Act := none
  yielded : Bool := false
  deriving DecidableEq, Repr, Inhabited

/-! ## Workgroups -/

/-- A queue register's descriptor (R232): storage and capacity in 256-byte units, entries and head index; `reserved` lists
the offsets of entries whose value is not yet written, `epoch` counts the times the queue was emptied (R234, R238). -/
structure QDesc where
  bound : Bool := false
  base  : Nat := 0
  size  : Nat := 0
  count : Nat := 0
  head  : Nat := 0
  reserved : List Nat := []
  epoch : Nat := 0
  deriving DecidableEq, Repr, Inhabited

/-- A tile register (R168): base and size in bytes, state 0 EMPTY, 1 FILLING, 2 READY, 3 DRAINING, and whether an engine
phase is in progress on it (R169). -/
structure Tile where
  base  : Nat := 0
  size  : Nat := 0
  state : Nat := 0
  engine : Bool := false
  deriving DecidableEq, Repr, Inhabited

/-- The binding of an accumulator name: its bank and, in redundant mode, its check bank (R131). A number from 64 on stands for the
bank that a blocked `aalloc` will obtain: the names are bound for the checks of later instructions from its issue on (R132). -/
structure AccBind where
  bank  : Nat
  check : Option Nat := none
  deriving DecidableEq, Repr

/-- The weight latch (R138): type, tile and the 64 column scales. -/
structure WLatch where
  ty     : Ty
  tile   : Nat
  scales : List (BitVec 8)
  deriving DecidableEq, Repr

/-- A matrix-queue entry (R132): the instruction with its PC and issuing train, the banks it uses as bound at issue, the
operand values read at issue, the rows or steps already done, the places of a row whose requests to other modules are out, and the
operation that a follow-on completes. -/
structure MqEntry where
  id     : Nat
  instr  : Instr
  pc     : Dword
  uid    : Nat
  trn    : Nat
  banks  : List AccBind
  val    : Dword := 0
  addr   : Dword := 0
  tiles  : List Nat := []
  rows   : Nat := 0
  done   : Nat := 0
  row    : List (Nat × Dword × Xl) := []
  follow : Option Nat := none
  deriving DecidableEq, Repr

/-- The tile-progress register (R145). -/
structure TileProg where
  step   : Nat := 0
  r      : Nat := 0
  k      : Nat := 0
  n      : Nat := 0
  active : Bool := false
  deriving DecidableEq, Repr, Inhabited

/-- A resident workgroup (R18, R63, R130 to R148, R165 to R170, R232, R249, R310). `since` is when it took its slot. `stopping`
is set while a Save waits for its trains' chain boundaries, and by then no train starts a chain (R390). `lateXst` holds the `xst` data of threads that had arrived at `gbar`, by scratchpad address (R212). `ended` is set when its last train has ended while engine operations still use its tiles (R360), with whether it ended by `exit`. -/
structure Wg where
  uid     : Nat := 0
  launch  : Nat := 0
  wgid    : Nat := 0
  core    : Nat := 0
  slot    : Nat := 0
  part    : Nat := 0
  asid    : Nat := 0
  ntrains : Nat := 0
  vgran   : Nat := 0
  sgran   : Nat := 0
  pad     : Nat := 0
  qbytes  : Nat := 0
  tbytes  : Nat := 0
  ntiles  : Nat := 0
  gang    : Nat := 0
  cls     : Nat := 0
  prio    : Nat := 0
  idem    : Bool := false
  disp    : Bool := false
  sp      : Tab Byte := []
  queues  : Tab QDesc := []
  tiles   : Tab Tile := []
  accs    : Tab AccBind := []
  banks   : Nat := 0
  resv    : Nat := 0
  used    : List Nat := []
  red     : Bool := false
  wlatch  : Option WLatch := none
  tprog   : TileProg := {}
  mq      : List MqEntry := []
  srcOf   : Tab (Bool × Dword) := []
  tagCfg  : Option Dword := none
  stageTab : Option (List Dword) := none
  grants  : List Dword := []
  taken   : Nat := 0
  qstall  : Nat := 0
  bstall  : Nat := 0
  qSince  : Nat := 0
  bSince  : Nat := 0
  gSince  : Nat := 0
  since   : Nat := 0
  sliceOver : Bool := false
  drain   : Option Nat := none
  stopping : Bool := false
  ended   : Option Bool := none
  lateXst : List (Nat × List Byte) := []
  deriving DecidableEq, Repr, Inhabited

/-- A saved workgroup (R390): its state at the save and its trains in order; the physical address of its image in the Depot
area, or the ASID and virtual address that `ctxs` named; the image's size, its CLK, and whether the distributor wrote it. -/
structure Saved where
  wg     : Wg
  trains : List Train
  image  : Nat
  place  : Option (Nat × Dword) := none
  size   : Nat := 0
  clk    : Dword := 0
  hwimg  : Bool := true
  deriving DecidableEq, Repr

/-! ## Cores and clusters -/

/-- A line of an instruction buffer (R172, R185): its physical tag, its bytes that are not zero by offset, and for a stale
line the trains (by identity) that still fetch from it. -/
structure ILine where
  tag   : Nat
  bytes : Tab Byte
  stale : Bool := false
  users : List Nat := []
  deriving DecidableEq, Repr

/-- A cached translation (R158): ASID, virtual page base, page size, the leaf entry, the 2 MiB granule of the page that it was made
for, and the partition map's byte of that granule then, which a later write of the map does not change (R413). -/
structure Trans where
  asid : Nat
  page : Nat
  size : Nat
  leaf : Dword
  granule : Nat := 0
  owner : Nat := 0
  deriving DecidableEq, Repr

/-- What each core holds (R13): accumulator memory under (bank × 16 + row) × 64 + column, instruction buffer,
micro-translation cache, the last pipe's turn and the array's turn. -/
structure Core where
  acc    : Tab F48 := []
  ibuf   : List ILine := []
  utlb   : List Trans := []
  array  : Nat := 0
  deriving DecidableEq, Repr, Inhabited

/-- A fault buffer entry (R160), with the page-table entry at which its walk stopped (R159), the operation of an entry of
KIND 3 (R359), and whether FBPEND has reported it (R407). -/
structure FaultEnt where
  va    : Dword
  asid  : Nat
  part  : Nat
  kind  : Nat
  core  : Nat
  slot  : Nat
  pc    : Dword
  links : Nat
  status : Nat := 0
  pte   : Nat
  op    : Option Nat := none
  reported : Bool := false
  order : Nat := 0
  deriving DecidableEq, Repr

/-! ## Lines and windows -/

/-- The state of a window, or, while it is RUNNING, the state it returns to when its activation is terminated (R285, R287):
`absent` for a newborn window. An ABSENT window that does not run is not listed. -/
inductive WinState where
  | absent | dormant | closed | ended
  deriving DecidableEq, Repr

/-- A window, session or pane thread (R275 to R287): key, window or pane number, first and last timestamps of a session,
record count, state words as last written back, waiting wake-ups, the wake-up whose activation runs (RUNNING), whether its
close and expiry points are resolved, the survivor that absorbed it, and its slot of the window pool. -/
structure Win where
  key     : Nat
  index   : Nat
  pane    : Bool := false
  first   : Nat := 0
  last    : Nat := 0
  count   : Nat := 0
  state   : WinState := .absent
  words   : List Word := []
  waiting : List Wake := []
  running : Option Wake := none
  closeDone : Bool := false
  expireDone : Bool := false
  absorbed : Option Nat := none
  orphan  : Bool := false
  slot    : Nat := 0
  deriving DecidableEq, Repr, Inhabited

/-- What stands in a line's intake (R274). -/
inductive Intake where
  | record (bytes : List Byte)
  | mark (w : Dword)
  | close
  deriving DecidableEq, Repr

/-- A membership that is being resolved, still to be delivered (R279, R280, R289): key and window or pane number, whether that is a
pane, and the bytes of the record, or the partial of a pane that has completed. -/
structure Delivery where
  key   : Nat
  index : Nat
  pane  : Bool
  bytes : List Byte := []
  part  : Option Wake := none
  deriving DecidableEq, Repr

/-- An open line (R272 to R296). `past` lists the sessions whose close point is resolved (R276 rule 1): key, first, last.
`flush` is 0 before the flush, 1 while panes deliver their partials and windows receive their flush events, 2 once all have
them (R293). `nextWake` numbers the wake-ups in the order of their resolution (R302). -/
structure Line where
  gen     : Nat := 0
  desc    : List Dword := []
  descVA  : Dword := 0
  asid    : Nat := 0
  part    : Nat := 0
  priv    : Bool := false
  prio    : Nat := 0
  launch  : Option Nat := none
  depth   : Nat := 0
  w       : Nat := 0
  intake  : List Intake := []
  deliver : List Delivery := []
  wins    : Tab Win := []
  nextWin : Nat := 0
  nextWake : Nat := 1
  seq     : Tab Nat := []
  batch   : List (Nat × Wake) := []
  batchAt : Nat := 0
  accepted : Nat := 0
  late    : Nat := 0
  drops   : Nat := 0
  acts    : Nat := 0
  failed  : Nat := 0
  past    : List (Nat × Nat × Nat) := []
  poolWait : Bool := false
  closing : Bool := false
  flush   : Nat := 0
  deriving DecidableEq, Repr, Inhabited

/-- An activation train that waits for admission (R21). -/
structure PendAct where
  line  : Nat
  wakes : List (Nat × Wake)
  deriving DecidableEq, Repr

/-! ## Rings, launches, tasks, joins, engines -/

/-- A reservation register of a Ticket Office (R241): slice, the block's physical address, its eight dwords and the
cached bitmap entries, each with its physical address, by slot index. -/
structure RingReg where
  slice : Nat
  pa    : Nat
  block : List Dword
  ents  : Tab (Nat × Half) := []
  deriving DecidableEq, Repr

/-- The first fault of a launch (R319, R321). -/
structure FaultInfo where
  kind  : Nat
  cause : Nat
  pc    : Dword
  core  : Nat
  wgid  : Nat
  task  : Dword
  deriving DecidableEq, Repr

/-- The states of a launch (R322). -/
inductive LState where
  | pending | running | complete
  deriving DecidableEq, Repr

/-- A launch (R306 to R323). `left` lists the cores whose workgroup is not yet admitted;
`reissue` the grants of restarted workgroups by `wgid` (R314). `fromQueue` names the command queue of a LAUNCH packet. -/
structure Launch where
  part    : Nat := 0
  asid    : Nat := 0
  depth   : Nat := 0
  priv    : Bool := false
  hdrVA   : Dword := 0
  hdr     : List Dword := []
  state   : LState := .pending
  left    : List Nat := []
  next    : Nat := 0
  level   : Option Nat := none
  reissue : Tab (List Dword) := []
  trig    : List Nat := []
  started : Bool := false
  depsLeft : List Dword := []
  exits   : Nat := 0
  nfault  : Nat := 0
  ffault  : Option FaultInfo := none
  start   : Option Nat := none
  pool    : Option Nat := none
  parent  : Option Nat := none
  waited  : Bool := false
  doomed  : Bool := false
  halted  : Bool := false
  fromQueue : Option (Nat × Bool) := none
  record  : Dword := 0
  deriving DecidableEq, Repr, Inhabited

/-- A pool entry of a device-side launch (R315 to R317). -/
structure PoolEnt where
  asid   : Nat
  launch : Nat
  deriving DecidableEq, Repr

/-- A record in a ready queue (R327): address, the ASID that made it ready, and whether it spilled. -/
structure ReadyRec where
  va    : Dword
  asid  : Nat
  spilled : Bool := false
  deriving DecidableEq, Repr

/-- An exact sum of FP32 weights (R340): in units of 2⁻¹⁴⁹, with the non-finite addends met. -/
structure Weight where
  num : Int := 0
  nan : Bool := false
  pinf : Bool := false
  ninf : Bool := false
  deriving DecidableEq, Repr, Inhabited

/-- How a contributor of a join stands (R339 to R343); `fallen` until its casualty is counted (R342). -/
inductive CState where
  | enrolled | arrived | marked | fallen | settled
  deriving DecidableEq, Repr

/-- A contributor: its train's identity, its staged deltas by cell, and how it stands. -/
structure Contrib where
  uid   : Nat
  stage : Tab WideCell := []
  state : CState := .enrolled
  deriving DecidableEq, Repr

/-- A registered join (R335 to R348). -/
structure Join where
  part    : Nat := 0
  asid    : Nat := 0
  agen    : Nat := 0
  priv    : Bool := false
  recVA   : Dword := 0
  n       : Nat := 0
  q       : Nat := 0
  fill    : Nat := 0
  remote  : Bool := false
  proxy   : Bool := false
  state   : Nat := 1
  arrived : Nat := 0
  casual  : Nat := 0
  kills   : Nat := 0
  fillerr : Bool := false
  eweight : Word := 0
  weight  : Weight := {}
  cells   : Dword := 0
  ncells  : Nat := 0
  clist   : Dword := 0
  notify  : Dword := 0
  kpc     : Dword := 0
  sbuf    : Dword := 0
  sweight : Word := 0
  mods    : List Nat := []
  home    : Nat := 0
  hhandle : Word := 0
  contribs : List Contrib := []
  commits : Tab WideCell := []
  status  : Dword := 1
  awake   : Bool := false
  deriving DecidableEq, Repr, Inhabited

/-- The wake-up that the waiters of a released join still await after its slot is free: the slot and generation that they wait for, and the
status word (R344, R345). -/
structure JoinWake where
  slot   : Nat
  gen    : Nat
  status : Dword
  deriving DecidableEq, Repr

/-- A future table entry (R262 to R264): ASID, status once complete, the operation and its launch, or its line with the line's
generation. -/
structure Future where
  asid   : Nat
  status : Option Dword := none
  op     : Nat
  launch : Option Nat := none
  line   : Option (Nat × Nat) := none
  deriving DecidableEq, Repr

/-- The engines (R358). -/
inductive EngKind where
  | copy | dec | pyr
  deriving DecidableEq, Repr

/-- Where an engine operation stands (R358, R359): `paused` on a fault buffer entry, `placed` while its follow-on is due, `owing` the
status word of a COPY packet whose STATADDR has not translated, on a fault buffer entry if there was one (R418). -/
inductive OpState where
  | queued | running | paused (index : Nat) | placed | owing (status : Dword) (entry : Option Nat)
  deriving DecidableEq, Repr

/-- An engine operation (R358 to R365): descriptor, tag of R360, where it was issued, its workgroup, the pieces written,
the translations it holds (page base and size), and the COPY packet that started it. -/
structure EngOp where
  kind   : EngKind
  desc   : List Dword
  part   : Nat
  asid   : Nat
  priv   : Bool
  agen   : Nat
  launch : Option Nat
  line   : Option Nat := none
  cluster : Nat
  core   : Nat
  slot   : Nat
  pc     : Dword
  uid    : Nat
  wg     : Option Nat
  future : Option Nat
  statVA : Dword := 0
  packet : Option (Nat × Bool) := none
  state  : OpState := .queued
  pieces : List Nat := []
  pages   : List (Nat × Nat) := []
  flags  : BitVec 7 := 0
  order  : Nat := 0
  deriving DecidableEq, Repr

/-- A decoded picture: its size, whether its samples have 10 bits, and its rows, chroma with Cb and Cr in turn (R371). -/
structure Frame where
  width  : Nat
  height : Nat
  ten    : Bool
  luma   : List (List Nat)
  chroma : List (List Nat)
  deriving DecidableEq, Repr

/-- The context of a stream slot (R370 to R372): the access units that it has decoded, and its last picture. -/
structure Stream where
  units : List (List Byte) := []
  last  : Option Frame := none
  deriving DecidableEq, Repr, Inhabited

/-- An entry of the service table whose token is taken (R384 to R386): partition, requester, and whether its request stands in the ring, so
that a reply can name it. -/
structure Service where
  part   : Nat
  uid    : Nat
  posted : Bool := false
  deriving DecidableEq, Repr

/-! ## Partitions, the host and the fabric -/

/-- A command queue (R414). -/
structure CmdQueue where
  base : Dword := 0
  size : Nat := 0
  asid : Nat := 0
  tail : Word := 0
  head : Word := 0
  state : Nat := 0
  err  : Dword := 0
  deriving DecidableEq, Repr, Inhabited

/-- What holds a Stationmaster lane (R418); `waitv` with the cycle of its last read, `fault` with the fault buffer entry and the
lane's own address, `room` while an engine queue or the fault buffer is full. -/
inductive LaneHold where
  | waitv (last : Nat)
  | fence (sup : Bool)
  | lclose (line gen : Nat)
  | fault (cluster index : Nat) (va : Dword)
  | room
  deriving DecidableEq, Repr

/-- A packet that a lane has selected (R417): the queue, its address and its dwords. -/
structure Packet where
  sup   : Bool
  addr  : Nat
  words : List Dword
  deriving DecidableEq, Repr

/-- A Stationmaster lane (R417): its packet, what holds it, and a result that is still to be written (R418). -/
structure Lane where
  packet : Option Packet := none
  hold   : Option LaneHold := none
  result : Option Dword := none
  deriving DecidableEq, Repr, Inhabited

/-- A partition's registers (R406, R407), command queues (R414), lane (R417), ready queues (R327), and a reset in
progress (R395). -/
structure Part where
  tvec     : Dword := 0
  svcring  : Dword := 0
  swthr    : Dword := 256
  qstall   : Dword := 0
  bstall   : Dword := 0
  tslice   : Dword := 0x100000
  drainmax : Dword := 0x10000
  depot    : Dword := 0
  depotsz  : Dword := 0
  wpool    : Dword := 0
  wpoolsz  : Dword := 0
  wpoolva  : Dword := 0
  stage    : Dword := 0
  stagesz  : Dword := 0
  spill    : Dword := 0
  spillsz  : Dword := 0
  vlogbase : Dword := 0
  vloghead : Dword := 0
  vlogsz   : Dword := 0
  fbsel    : Dword := 0
  asidsel  : Dword := 0
  irq      : Dword := 0
  irqen    : Dword := 0
  slots    : Byte := 1
  tokens   : Byte := 1
  userQ    : CmdQueue := {}
  superQ   : CmdQueue := {}
  lane     : Lane := {}
  ready    : Tab (List ReadyRec) := []
  resetDrain : Option Nat := none
  closed   : Bool := false
  deriving DecidableEq, Repr, Inhabited

/-- The supervisor registers (R420); `smRefused` tells that the boot ROM refused the Stationmaster's image (R397), `resets` lists the
partition resets that run, each with whether its mode is KILL, and `fillerRest` is the filler energy below 1 mJ, in units of 10 µJ (R430). -/
structure Super where
  limp      : Bool := true
  optReady  : Bool := false
  bulkReady : Bool := false
  fabReady  : Bool := false
  short     : Bool := false
  boot      : Byte := 0
  smRefused : Bool := false
  ftime     : Dword := 0
  pwrRise   : Half := 0
  pwrFall   : Half := 0
  pwrNow    : Half := 0
  fillerE   : Dword := 0
  fillerRest : Nat := 0
  rpart     : BitVec 6 := 0
  rmode     : Bool := false
  resets    : List (Nat × Bool) := []
  qpart     : BitVec 6 := 0
  qslots    : Byte := 1
  qtokens   : Byte := 1
  attAddr   : BitVec 56 := 0
  rtAddr    : BitVec 56 := 0
  rtStat    : BitVec 2 := 0
  resume    : Dword := 0
  deriving DecidableEq, Repr, Inhabited

/-- A request to another module that awaits its RSP (R207): the train, the thread, the module, the address there and the
operation. The number 0, which no train has, stands for a train that no longer waits for the reply. -/
structure RemoteReq where
  uid    : Nat
  tid    : Nat
  module : Nat
  pa     : Nat
  op     : RemoteOp
  deriving DecidableEq, Repr

/-- A wavelength of a home channel (R422): whether it is withdrawn and retrains, and its counts of uncorrectable flits, each sent
again, of retrainings and of corrected bits. -/
structure Wave where
  retraining  : Bool := false
  resent      : Nat := 0
  retrainings : Nat := 0
  corrected   : Nat := 0
  deriving DecidableEq, Repr, Inhabited

/-- A multicast waiting for its branches (R428): its output ports and its message. -/
structure Multicast where
  ports : List Nat
  tag   : Nat
  deriving DecidableEq, Repr

/-- The classes of fabric messages (R425). -/
inductive MsgClass where
  | req | rsp | coll | mgmt
  deriving DecidableEq, Repr

/-- A way out of a router: a dimension 0 to 3 for X, Y, Z, W, its direction, − or +, and the channel of the virtual network (R424,
R425). -/
structure Hop where
  dim     : Nat
  minus   : Bool
  channel : Nat
  deriving DecidableEq, Repr

/-- The header of a fabric message: its class, its partition, the modules it comes from and goes to, and the way that it has taken out
of the last router; none while it has left no router (R425). -/
structure FabHeader where
  cls    : MsgClass
  part   : Nat
  source : Nat
  dest   : Nat
  hop    : Option Hop
  deriving DecidableEq, Repr

/-- What a message of this module says to another (R207, R345). -/
inductive FabMsg where
  | rsp (reply : RemoteReply)
  | req (id pa : Nat) (op : RemoteOp)
  | arrival (handle weight : Word) (deltas : List (Nat × WideCell))
  | arrivalReply (result : Dword)
  | killMsg (handle : Word) (status : Dword)
  deriving DecidableEq, Repr

/-- What leaves the module: MSI-X messages (R394), answers to the host, its own fabric messages, those of other modules that pass its router, a
multicast by each of its branches, and flits sent again. -/
inductive Out where
  | msix (vector : Nat)
  | hostData (q : Nat) (bytes : List Byte)
  | hostReg (p : Nat) (value : Dword)
  | fabric (header : FabHeader) (message : FabMsg)
  | passed (header : FabHeader) (tag : Nat)
  | forwarded (port tag : Nat)
  | flit (endpoint wavelength : Nat)
  deriving DecidableEq, Repr

/-- A turn of the machine (log 3): a step of a unit, the host or the fabric; the issue of one train; one 64-byte piece of
an engine operation; cycles that pass; the pre-emption of an activation train (R285); or what comes from outside and is no row of the opcode table: bits that the error
correction of a wavelength mended (R422), what another module's memory holds from now on and whether that module answers
(R164, R207), a multicast that reaches this router (R428), a message that reaches it on its way to another module (R425), and which ports the training that goes on has found without a link
partner (R420). -/
inductive Turn where
  | event (i : Instr)
  | issue (tr : Nat)
  | piece (op n : Nat)
  | elapse (cycles : Nat)
  | corrected (endpoint wavelength bits : Nat)
  | suspend (tr : Nat)
  | far (module pa : Nat) (bytes : List Byte)
  | reach (module : Nat) (answers : Bool)
  | cast (ports : List Nat) (tag : Nat)
  | transit (header : FabHeader) (tag : Nat)
  | links (lone : BitVec 8)
  deriving DecidableEq, Repr

/-- Whose turn a pipe had last: the train's key and identity (R14, R20). -/
structure PipeTurn where
  key : Nat := 0
  uid : Nat := 0
  deriving DecidableEq, Repr, Inhabited

/-! ## The machine -/

/-- The state of the module. `mem` lists the bytes of this module under their physical address, and above `farBase` the bytes of
other modules as its units meet them (R207, log 39); bit n of `lone` says that port n found no link partner (R420); `wakes` lists the
waiters' status words of released joins whose slots are free (R344, R345); `mute` lists the modules that do not answer. `savedActs` holds the
activation trains that are pre-empted (R285), `freed` what the fields of a free fault buffer entry were last written with (R8, R160). -/
structure State where
  clk     : Nat
  mem     : List Host.Cell
  moduleNo : BitVec 19
  super   : Super
  asidTab : Tab Dword
  pmap    : Tab Byte
  roots   : Tab Dword
  agens   : Tab Half
  parts   : Tab Part
  trains  : Tab Train
  wgs     : Tab Wg
  saved   : Tab Saved
  savedActs : Tab Train
  cores   : Tab Core
  faults  : Tab FaultEnt
  freed   : Tab FaultEnt
  launches : Tab Launch
  pool    : Tab PoolEnt
  poolGen : Tab Half
  lines   : Tab Line
  lineGen : Tab Half
  pendActs : List PendAct
  rings   : List RingReg
  joins   : Tab Join
  joinGen : Tab Half
  wakes   : List JoinWake
  futures : Tab Future
  futGen  : Tab Half
  ops     : Tab EngOp
  streams : Tab Stream
  services : Tab Service
  svcGen  : Tab (BitVec 20)
  attest  : Dword
  routes  : Tab Byte
  lone    : BitVec 8
  stagT0  : Dword
  staggered : Bool
  waves   : Tab Wave
  remote  : Tab RemoteReq
  mute    : List Nat
  casts   : List Multicast
  outbox  : List Out
  pipes   : Tab PipeTurn
  agenda  : List Turn
  current : Option Nat
  freeCount : Nat
  nextId  : Nat
  deriving DecidableEq, Repr

/-- What a byte of memory that nothing has written reads as (log 1). -/
def unwritten : Byte := 0

/-- The module right after module reset (R8, R406, R407, R414, R420, R432): limp service, nothing resident, every register
at its reset value; a register without one holds the value of log 8. -/
def State.reset : State where
  clk := 0
  mem := []
  moduleNo := 0
  super := {}
  asidTab := []
  pmap := []
  roots := []
  agens := []
  parts := []
  trains := []
  wgs := []
  saved := []
  savedActs := []
  cores := []
  faults := []
  freed := []
  launches := []
  pool := []
  poolGen := []
  lines := []
  lineGen := []
  pendActs := []
  rings := []
  joins := []
  joinGen := []
  wakes := []
  futures := []
  futGen := []
  ops := []
  streams := []
  services := []
  svcGen := []
  attest := 0
  routes := []
  lone := 0
  stagT0 := 0
  staggered := false
  waves := []
  remote := []
  mute := []
  casts := []
  outbox := []
  pipes := []
  agenda := []
  current := none
  freeCount := 0
  nextId := 1

end Sys2Proof.Machine
end

