-- ==== Sys2Proof/Machine/Base.lean ====
section
/-! DEFINITION. Access to the records of the state, to the registers of a train and to bytes of memory. Every read and
write of a register goes through the accessors of this file. -/

namespace Sys2Proof.Machine

/-! ## Keys -/

def trainKey (core slot : Nat) : Nat := core * 32 + slot
def wgKey (core slot : Nat) : Nat := core * 8 + slot
/-- The core, cluster and pipe of a train key (R11, R14). -/
def coreOfKey (k : Nat) : Nat := k / 32
def clusterOfKey (k : Nat) : Nat := k / 128
def pipeOfKey (k : Nat) : Nat := k / 32 * 4 + k % 32 % 4

/-! ## Records of the state -/

def train? (s : State) (k : Nat) : Option Train := Tab.get? s.trains k
def putTrain (s : State) (k : Nat) (tr : Train) : State := { s with trains := Tab.put s.trains k tr }
def modTrain (s : State) (k : Nat) (f : Train → Train) : State := { s with trains := Tab.adjust s.trains k f }
def dropTrain (s : State) (k : Nat) : State := { s with trains := Tab.del s.trains k }

def wg? (s : State) (w : Nat) : Option Wg := Tab.get? s.wgs w
def putWg (s : State) (w : Nat) (g : Wg) : State := { s with wgs := Tab.put s.wgs w g }
def modWg (s : State) (w : Nat) (f : Wg → Wg) : State := { s with wgs := Tab.adjust s.wgs w f }
def wgOf (s : State) (tr : Train) : Option Wg := tr.wg.bind (wg? s)

def coreAt (s : State) (c : Nat) : Core := Tab.read {} s.cores c
def putCore (s : State) (c : Nat) (x : Core) : State := { s with cores := Tab.write {} s.cores c x }
def modCore (s : State) (c : Nat) (f : Core → Core) : State := putCore s c (f (coreAt s c))

def partAt (s : State) (p : Nat) : Part := Tab.read {} s.parts p
def modPart (s : State) (p : Nat) (f : Part → Part) : State :=
  { s with parts := Tab.write {} s.parts p (f (partAt s p)) }

def launch? (s : State) (l : Nat) : Option Launch := Tab.get? s.launches l
def modLaunch (s : State) (l : Nat) (f : Launch → Launch) : State := { s with launches := Tab.adjust s.launches l f }

def modLine (s : State) (l : Nat) (f : Line → Line) : State := { s with lines := Tab.adjust s.lines l f }
def modJoin (s : State) (j : Nat) (f : Join → Join) : State := { s with joins := Tab.adjust s.joins j f }
def modOp (s : State) (o : Nat) (f : EngOp → EngOp) : State := { s with ops := Tab.adjust s.ops o f }

/-- Service tokens are free again: a token names one wait, and its generation advances with the entry's release (R385). -/
def freeServices (s : State) (gone : Service → Bool) : State :=
  (s.services.filter fun e => gone e.2).foldl (fun s e =>
    { s with services := Tab.del s.services e.1, svcGen := Tab.write 0 s.svcGen e.1 (Tab.read 0 s.svcGen e.1 + 1) }) s

/-- The token that a train holds for a request which does not stand in the ring yet (R384), and its return. -/
def heldToken (s : State) (uid : Nat) : Option Nat := (s.services.find? fun e => e.2.uid = uid && !e.2.posted).map (·.1)
def returnToken (s : State) (uid : Nat) : State := freeServices s fun e => e.uid = uid && !e.posted

/-- A new identity. -/
def freshId (s : State) : Nat × State := (s.nextId, { s with nextId := s.nextId + 1 })
/-- The next free values (log 6): the number of the first of `n`. -/
def freshFree (s : State) (n : Nat) : Nat × State := (s.freeCount, { s with freeCount := s.freeCount + n })

/-- The trains that satisfy a test, by key in ascending order. -/
def trainsWhere (s : State) (p : Nat → Train → Bool) : List Nat :=
  (s.trains.filter fun e => p e.1 e.2).map (·.1)

/-- The resident train with an identity. -/
def trainByUid (s : State) (uid : Nat) : Option (Nat × Train) := s.trains.find? fun e => e.2.uid = uid

/-- The resident trains of a workgroup, in order of `trn`. -/
def trainsOfWg (s : State) (w : Nat) : List Nat := trainsWhere s fun _ t => t.wg = some w

/-! ## Bytes of physical memory (R3, R154) -/

def nearEnd : Nat := 0x8_0000_0000
def bulkBase : Nat := 0x100_0000_0000
def bulkEnd : Nat := 0x1C0_0000_0000

/-- A physical address in one of the two ranges of R154. -/
def physOk (pa : Nat) : Bool := pa < nearEnd || (bulkBase ≤ pa && pa < bulkEnd)

/-- The byte at a physical address. -/
def readByte (s : State) (pa : Nat) : Byte := Tab.read unwritten s.mem pa
/-- The `n` bytes from a physical address as a little-endian number. -/
def readMem (s : State) (pa n : Nat) : Nat := ofBytes (Tab.readList unwritten s.mem pa n)
def readBytes (s : State) (pa n : Nat) : List Byte := Tab.readList unwritten s.mem pa n
/-- Write bytes from a physical address. -/
def writeBytes (s : State) (pa : Nat) (bs : List Byte) : State :=
  { s with mem := Tab.writeList unwritten s.mem pa bs }
/-- Write the low `n` bytes of a number, little-endian. -/
def writeMem (s : State) (pa n v : Nat) : State := writeBytes s pa (bytesOf v n)

/-- Above every physical address of this module. -/
def farBase : Nat := 2 ^ 48
/-- Where `mem` lists a physical address of another module; a page that names this module itself means its own memory (R207). -/
def farPa (s : State) (m pa : Nat) : Nat := if m = s.moduleNo.toNat then pa else farBase * (m + 1) + pa

/-- The coordinates of a module number in the dimensions X, Y, Z and W (R424). -/
def coordsOf (m : Nat) : List Nat := [bitsAt m 0 5, bitsAt m 5 5, bitsAt m 10 5, bitsAt m 15 4]

/-- The dimension that a message to another module corrects next, the first of X, Y, Z, W in which the coordinates differ, and its
coordinate there (R425). -/
def routeDim (s : State) (m : Nat) : Option (Nat × Nat) :=
  ([0, 1, 2, 3].find? fun d => (coordsOf s.moduleNo.toNat).getD d 0 ≠ (coordsOf m).getD d 0).map fun d => (d, (coordsOf m).getD d 0)

/-- Where the routing table's byte of a message of partition `p` to another module lies (R425, R427). -/
def routeEntry (s : State) (p m : Nat) : Option Nat :=
  (routeDim s m).map fun e => 112 * p + [0, 32, 64, 96].getD e.1 0 + e.2

/-- Whether that byte is marked DOWN (R426, R427). -/
def routeDown (s : State) (p m : Nat) : Bool :=
  (routeEntry s p m).any fun i => bitsAt (Tab.read 0 s.routes i).toNat 1 1 = 1

/-- Whether that byte's DIR leads in the − direction (R427). -/
def routeMinus (s : State) (p m : Nat) : Bool :=
  (routeEntry s p m).any fun i => bitsAt (Tab.read 0 s.routes i).toNat 0 1 = 1

/-- The port of a way out: 2d leads in the + direction of dimension d, 2d + 1 in the − direction (R424). -/
def Hop.port (h : Hop) : Nat := 2 * h.dim + (if h.minus then 1 else 0)

/-- Whether a message that came by this way has crossed the dateline on it, the link between the last coordinate and 0 (R425). -/
def Hop.crossed (s : State) (h : Hop) : Bool :=
  let x := (coordsOf s.moduleNo.toNat).getD h.dim 0
  if h.minus then x + 1 = Config.torusSize h.dim else x = 0

/-- Whether a message comes into the dimension that it corrects next, so that the routing table is read for it (R425). -/
def entersDim (s : State) (m : Nat) (came : Option Hop) : Bool := (routeDim s m).any fun e => came.all (·.dim ≠ e.1)

/-- The way of a message of partition `p` out of this router: within a dimension it keeps its direction, and is on channel 1 once it has
crossed the dateline; on entry into a dimension the routing table chooses, and it is on channel 0 (R425, R427). -/
def nextHop (s : State) (p m : Nat) (came : Option Hop) : Option Hop :=
  (routeDim s m).map fun e => match came.filter (·.dim = e.1) with
    | some h => { h with channel := if Hop.crossed s h then 1 else h.channel }
    | none => { dim := e.1, minus := routeMinus s p m, channel := 0 }

/-- Whether this router discards a message of partition `p` to another module that came by this way: the byte that the table gives on entry
into a dimension is marked DOWN (R426), or the port that it is routed to has no link partner (R420). -/
def discards (s : State) (p m : Nat) (came : Option Hop) : Bool :=
  (entersDim s m came && routeDown s p m) || (nextHop s p m came).any fun h => s.lone.getLsbD h.port

/-- The class of a message; R345 names it for arrivals and kills (log 63). -/
def FabMsg.cls : FabMsg → MsgClass
  | .rsp _ | .arrivalReply _ => .rsp
  | .req _ _ _ => .req
  | .arrival _ _ _ => .coll
  | .killMsg _ _ => .mgmt

/-- The header of a message of this module to another. -/
def headerTo (s : State) (p m : Nat) (o : FabMsg) : FabHeader :=
  { cls := o.cls, part := p, source := s.moduleNo.toNat, dest := m, hop := nextHop s p m none }

/-- A fabric message leaves for another module, unless this router discards it. -/
def sendFabric (s : State) (p m : Nat) (o : FabMsg) : State :=
  if discards s p m none then s else { s with outbox := s.outbox ++ [.fabric (headerTo s p m o) o] }

/-- Q of R155: a near or bulk physical address relative to its region. -/
def regionRel (pa : Nat) : Nat := if pa < bulkBase then pa else pa - bulkBase
/-- `Slice(Q)` and `Offset(Q)` of R155. -/
def sliceAt (q : Nat) : Nat := bitsAt q 8 6 ^^^ bitsAt q 14 6 ^^^ bitsAt q 20 6 ^^^ bitsAt q 26 6 ^^^ bitsAt q 32 6
def offsetAt (q : Nat) : Nat := bitsAt q 14 50 * 256 + bitsAt q 0 8

/-- The owning slice of a physical address (R155). -/
def sliceOf (pa : Nat) : Nat := sliceAt (regionRel pa)
/-- Where the byte of a physical address lies within its slice's part of the region (R155). -/
def sliceOffset (pa : Nat) : Nat := offsetAt (regionRel pa)

/-- The index of the 2 MiB granule of a physical address in the partition map (R412). -/
def granuleOf (pa : Nat) : Nat := if pa < bulkBase then pa / 2 ^ 21 else 16384 + (pa - bulkBase) / 2 ^ 21

/-- The partition map byte of a physical address (R413). -/
def pmapByte (s : State) (pa : Nat) : Nat := (Tab.read 0 s.pmap (granuleOf pa)).toNat
/-- Whether the granule of an address is assigned to a partition (R393, R413). -/
def ownedBy (s : State) (p pa : Nat) : Bool := bitsAt (pmapByte s pa) 6 1 = 1 && pmapByte s pa % 64 = p
def hostVisible (s : State) (pa : Nat) : Bool := bitsAt (pmapByte s pa) 7 1 = 1

/-- Whether partition `p` owns an ASID (R393). -/
def asidOwned (s : State) (p a : Nat) : Bool :=
  let e := (Tab.read 0 s.asidTab a).toNat
  bitsAt e 6 1 = 1 && e % 64 = p

/-! ## Registers of a train -/

def rdV (tr : Train) (n t : Nat) : Word := Tab.read 0 tr.v (64 * n + t)
def wrV (tr : Train) (n t : Nat) (w : Word) : Train := { tr with v := Tab.write 0 tr.v (64 * n + t) w }
def rdO (tr : Train) (n t : Nat) : Word := Tab.read 0 tr.o (64 * n + t)
def wrO (tr : Train) (n t : Nat) (w : Word) : Train := { tr with o := Tab.write 0 tr.o (64 * n + t) w }
def rdS (tr : Train) (n : Nat) : Dword := Tab.read 0 tr.s n
/-- A write of an `s` register clears its pending mark (R261). -/
def wrS (tr : Train) (n : Nat) (d : Dword) : Train :=
  { tr with s := Tab.write 0 tr.s n d, marks := Tab.del tr.marks n }
/-- The handle with which an `s` register is pending (R261). -/
def pendingMark (tr : Train) (n : Nat) : Option Dword :=
  match Tab.get? tr.marks n with
  | some (.pending h) => some h
  | _ => none
/-- `k0` reads as 1 in every thread (R22). -/
def rdK (tr : Train) (n : Nat) : Mask := if n = 0 then BitVec.allOnes 64 else Tab.read 0 tr.k n
/-- A write of `k0` is discarded (R22). -/
def wrK (tr : Train) (n t : Nat) (b : Bool) : Train :=
  if n = 0 then tr
  else
    let m := rdK tr n
    let bit : Mask := 1#64 <<< t
    { tr with k := Tab.write 0 tr.k n (if b then m ||| bit else m &&& ~~~bit) }
/-- `g0` reads as 1 (R22). -/
def rdG (tr : Train) (n : Nat) : Bool := n = 0 || tr.g.getLsbD n
/-- A write of `g0` is discarded (R22). -/
def wrG (tr : Train) (n : Nat) (b : Bool) : Train :=
  if n = 0 then tr
  else
    let bit : BitVec 8 := 1#8 <<< n
    { tr with g := if b then tr.g ||| bit else tr.g &&& ~~~bit }
def setFlags (tr : Train) (f : FlagSet) : Train := { tr with flags := tr.flags ||| f }

/-- The value in a latch for a thread; lost contents are free values (R50, log 6). -/
def latchAt (l : Latch) (t : Nat) : Word :=
  match l with
  | .vals m => Tab.read 0 m t
  | .lost n => (Config.freeValue (64 * n + t)).truncate 32

def rdB (tr : Train) (n t : Nat) : Word :=
  latchAt (match n with | 0 => tr.latches.b0 | 1 => tr.latches.b1 | 2 => tr.latches.b2 | _ => tr.latches.b3) t

/-- Shift the latches by one instruction with these values (R49). -/
def pushLatch (tr : Train) (m : Tab Word) : Train :=
  { tr with latches := { b0 := .vals m, b1 := tr.latches.b0, b2 := tr.latches.b1, b3 := tr.latches.b2 } }

/-- The contents of the latches are lost (R50). -/
def loseLatches (s : State) (k : Nat) : State :=
  let n := s.freeCount
  modTrain { s with freeCount := n + 4 } k fun tr =>
    { tr with latches := { b0 := .lost n, b1 := .lost (n + 1), b2 := .lost (n + 2), b3 := .lost (n + 3) } }

/-- The declared registers of a train (R47). -/
def vCount (tr : Train) : Nat := tr.vgran * 8
def sCount (tr : Train) : Nat := (if tr.sgran = 0 then 1 else tr.sgran) * 8

/-- The low `n` bits of a value, from bit `lo` up. -/
def keepBits (v : Dword) (lo n : Nat) : Dword := BitVec.ofNat 64 (bitsAt v.toNat lo n * 2 ^ lo)

/-! ## Threads (R251, R252) -/

def allThreads : Mask := BitVec.allOnes 64
def live (tr : Train) : Mask := ~~~tr.exited
def held (tr : Train) : Mask := tr.heldBar ||| tr.heldGbar
def eligible (tr : Train) : Mask := live tr &&& ~~~(held tr)

/-- The PC of a thread; that of an exited thread is where it exited. -/
def pcOf (tr : Train) (t : Nat) : Dword := if tr.selected.getLsbD t then tr.pc else Tab.read 0 tr.pcs t

/-- The least of a list of PCs. -/
def minPc : List Dword → Option Dword
  | [] => none
  | a :: r => match minPc r with
    | none => some a
    | some b => some (if a ≤ b then a else b)

/-- The table of the PCs of the threads of a mask. -/
def pcTable (m : Mask) (pcf : Nat → Dword) : Tab Dword := (Mask.threads m).foldl (fun tb t => Tab.write 0 tb t (pcf t)) []

/-- Selection with these PCs (R252). -/
def selectWith (tr : Train) (pcf : Nat → Dword) : Train :=
  let e := eligible tr
  match minPc ((Mask.threads e).map pcf) with
  | none => { tr with selected := 0, pcs := pcTable allThreads pcf }
  | some p =>
    let sel := maskOf fun t => e.getLsbD t && pcf t = p
    { tr with pc := p, selected := sel, pcs := pcTable (~~~sel) pcf }

/-- Selection from the present PCs. -/
def reselect (tr : Train) : Train := selectWith tr (pcOf tr)

/-- The number of threads in a mask. -/
def countMask (m : Mask) : Nat := (Mask.threads m).length

/-- The lowest thread of a mask. -/
def lowest (m : Mask) : Option Nat := (Mask.threads m).head?

/-! ## Scratchpad bytes of a workgroup (R165) -/

def spRead (g : Wg) (a n : Nat) : Nat := ofBytes (Tab.readList 0 g.sp a n)
def spBytes (g : Wg) (a n : Nat) : List Byte := Tab.readList 0 g.sp a n
def spPut (g : Wg) (a : Nat) (bs : List Byte) : Wg := { g with sp := Tab.writeList 0 g.sp a bs }
def spWrite (g : Wg) (a n v : Nat) : Wg := spPut g a (bytesOf v n)

/-! ## Results of R242 and R350 -/

namespace Rc
def full : Dword := 0x8000_0000_0000_0001
def tooBig : Dword := 0x8000_0000_0000_0002
def invalid : Dword := 0x8000_0000_0000_0003
def busy : Dword := 0x8000_0000_0000_0004
def empty : Dword := 0x8000_0000_0000_0005
def badTicket : Dword := 0x8000_0000_0000_0006
def depth : Dword := 0x8000_0000_0000_0007
def noFit : Dword := 0x8000_0000_0000_0008
def stale : Dword := 0x8000_0000_0000_000A
def late : Dword := 0x8000_0000_0000_000B
def dup : Dword := 0x8000_0000_0000_000C
def badState : Dword := 0x8000_0000_0000_000D
def noTable : Dword := 0x8000_0000_0000_000E
end Rc

end Sys2Proof.Machine
end

