-- ==== Sys2Proof/Machine/Num.lean ====
section
/-! DEFINITION. The number formats (R70 to R83) and rounding. A finite number is kept exactly, as a sign, a natural
mantissa and a binary exponent; `sticky` says that the number lies strictly between this mantissa and the next. -/

namespace Sys2Proof.Machine

/-- The finite number (-1)^neg × mant × 2^exp; with `sticky`, a number just above that in magnitude. -/
structure Ex where
  neg    : Bool
  mant   : Nat
  exp    : Int
  sticky : Bool := false
  deriving DecidableEq, Repr, Inhabited

/-- A number read from an encoding: NaN, infinity or finite. -/
inductive Num where
  | nan (signalling : Bool)
  | inf (neg : Bool)
  | fin (e : Ex)
  deriving DecidableEq, Repr, Inhabited

/-- An IEEE-like format: exponent bits, fraction bits (R72, R79). -/
structure Fmt where
  ebits : Nat
  fbits : Nat
  deriving DecidableEq, Repr

namespace Fmt
def f32 : Fmt := ⟨8, 23⟩
def f16 : Fmt := ⟨5, 10⟩
def bf16 : Fmt := ⟨8, 7⟩
def f48 : Fmt := ⟨10, 37⟩
def bias (f : Fmt) : Nat := 2 ^ (f.ebits - 1) - 1
def width (f : Fmt) : Nat := 1 + f.ebits + f.fbits
def expMax (f : Fmt) : Nat := 2 ^ f.ebits - 1
/-- The exponent of the unit in the last place of the subnormals. -/
def qmin (f : Fmt) : Int := 1 - (f.bias : Int) - f.fbits
def infCode (f : Fmt) (neg : Bool) : Nat := (if neg then 2 ^ (f.width - 1) else 0) + f.expMax * 2 ^ f.fbits
/-- The canonical NaN: positive, quiet (R74). -/
def nanCode (f : Fmt) : Nat := f.expMax * 2 ^ f.fbits + 2 ^ (f.fbits - 1)
end Fmt

/-- The format of a floating-point type; FP32 for every other type. -/
def fmtOf : Ty → Fmt
  | .f16 => .f16
  | .bf16 => .bf16
  | _ => .f32

/-- Read an encoding (R72, R74, R79). -/
def decodeFmt (f : Fmt) (n : Nat) : Num :=
  let neg := bitsAt n (f.width - 1) 1 = 1
  let e := bitsAt n f.fbits f.ebits
  let m := bitsAt n 0 f.fbits
  if e = f.expMax then (if m = 0 then .inf neg else .nan (bitsAt n (f.fbits - 1) 1 = 0))
  else if e = 0 then .fin ⟨neg, m, f.qmin, false⟩
  else .fin ⟨neg, m + 2 ^ f.fbits, f.qmin + (e - 1 : Nat), false⟩

/-- How a magnitude stands to the units below it: the unit count, and what is left (0 nothing, 1 below half, 2 half,
3 above half). -/
structure Cut where
  n    : Nat
  rest : Nat
  deriving DecidableEq, Repr

/-- Cut the magnitude `mant × 2^exp` (with sticky) at the unit `2^q`. -/
def cutAt (e : Ex) (q : Int) : Cut :=
  let sh := q - e.exp
  if sh ≤ 0 then ⟨e.mant * 2 ^ (-sh).toNat, if e.sticky then 1 else 0⟩
  else if sh > (Nat.log2 e.mant : Int) + 2 then ⟨0, if e.mant = 0 && !e.sticky then 0 else 1⟩
  else
    let k := sh.toNat
    let r := e.mant % 2 ^ k
    let h := 2 ^ (k - 1)
    ⟨e.mant / 2 ^ k,
      if r = 0 && !e.sticky then 0 else if r < h then 1 else if r = h && !e.sticky then 2 else 3⟩

/-- Whether a cut magnitude rounds up in a mode (R41). -/
def roundsUp (mode : RMode) (neg : Bool) (c : Cut) : Bool :=
  match mode with
  | .rn => c.rest = 3 || (c.rest = 2 && c.n % 2 = 1)
  | .rz => false
  | .rp => c.rest ≠ 0 && !neg
  | .rm => c.rest ≠ 0 && neg

/-- An encoding with the flags that producing it set. -/
structure Enc where
  code  : Nat
  flags : FlagSet := 0
  deriving DecidableEq, Repr, Inhabited

def signCode (f : Fmt) (neg : Bool) : Nat := if neg then 2 ^ (f.width - 1) else 0

/-- What an overflow gives (R73): ±∞, or the largest finite value. -/
def overflowCode (f : Fmt) (mode : RMode) (sat neg : Bool) : Nat :=
  let toInf := !sat && (match mode with | .rn => true | .rz => false | .rp => !neg | .rm => neg)
  if toInf then f.infCode neg else f.infCode neg - 1

/-- Round a finite number once to an IEEE-like format (R73). -/
def roundEx (f : Fmt) (mode : RMode) (sat : Bool) (e : Ex) : Enc :=
  if e.mant = 0 ∧ e.sticky = false then ⟨signCode f e.neg, 0⟩
  else
    let top : Int := e.exp + Nat.log2 e.mant
    let emin : Int := f.qmin + f.fbits
    let emax : Int := f.bias
    if top > emax then ⟨overflowCode f mode sat e.neg, Fl.ovf ||| Fl.inx⟩
    else
      let qn := top - f.fbits
      let q := if qn < f.qmin then f.qmin else qn
      let c := cutAt e q
      let n := if roundsUp mode e.neg c then c.n + 1 else c.n
      let code := (q - f.qmin).toNat * 2 ^ f.fbits + n
      let inexact := c.rest ≠ 0
      let cu := cutAt e qn
      let nu := if roundsUp mode e.neg cu then cu.n + 1 else cu.n
      let tiny := top < emin && !(top + 1 = emin && nu = 2 ^ (f.fbits + 1))
      if code ≥ f.expMax * 2 ^ f.fbits then ⟨overflowCode f mode sat e.neg, Fl.ovf ||| Fl.inx⟩
      else ⟨signCode f e.neg + code, flagIf inexact Fl.inx ||| flagIf (tiny && inexact) Fl.unf⟩

/-- `Round(x, fmt, mode)` for a number of any kind: a NaN gives the canonical NaN, with INV when signalling (R74). -/
def roundNum (f : Fmt) (mode : RMode) (sat : Bool) : Num → Enc
  | .nan s => ⟨f.nanCode, flagIf s Fl.inv⟩
  | .inf neg => ⟨f.infCode neg, 0⟩
  | .fin e => roundEx f mode sat e

/-! ## Exact arithmetic -/

def Ex.zero (neg : Bool) : Ex := ⟨neg, 0, 0, false⟩
def Ex.isZero (e : Ex) : Bool := e.mant = 0 && !e.sticky
def Ex.ofInt (i : Int) : Ex := ⟨i < 0, i.natAbs, 0, false⟩
/-- Multiply by a power of two. -/
def Ex.scale (e : Ex) (k : Int) : Ex := { e with exp := e.exp + k }

/-- The mantissa with its sign, in units of 2^q for q at or below the exponent. -/
def Ex.units (e : Ex) (q : Int) : Int :=
  let m : Int := (e.mant * 2 ^ (e.exp - q).toNat : Nat)
  if e.neg then -m else m

/-- The exact sum; an exact zero sum of opposite signs is +0, or −0 in `.rm` (R115). -/
def Ex.add (mode : RMode) (a b : Ex) : Ex :=
  if a.mant = 0 ∧ b.mant = 0 then ⟨if a.neg = b.neg then a.neg else mode = .rm, 0, 0, false⟩
  else if a.mant = 0 then b
  else if b.mant = 0 then a
  else
    let q := if a.exp < b.exp then a.exp else b.exp
    let s := a.units q + b.units q
    if s = 0 then ⟨mode = .rm, 0, 0, false⟩ else ⟨s < 0, s.natAbs, q, false⟩

def Ex.mul (a b : Ex) : Ex := ⟨a.neg != b.neg, a.mant * b.mant, a.exp + b.exp, false⟩

/-- The quotient to at least 63 bits, with what is left kept in `sticky`; the divisor is not zero. -/
def Ex.div (a b : Ex) : Ex :=
  let k := 64 + Nat.log2 b.mant
  let n := a.mant * 2 ^ k
  ⟨a.neg != b.neg, n / b.mant, a.exp - b.exp - k, n % b.mant ≠ 0⟩

/-- The integer square root, bit by bit from bit `n - 1`. -/
def isqrtFrom : Nat → Nat → Nat → Nat
  | 0, _, r => r
  | n + 1, x, r => let r' := r + 2 ^ n; isqrtFrom n x (if r' * r' ≤ x then r' else r)

def isqrt (x : Nat) : Nat := isqrtFrom (Nat.log2 x / 2 + 1) x 0

/-- The square root to at least 63 bits, with what is left kept in `sticky`. -/
def Ex.sqrt (a : Ex) : Ex :=
  let odd := (a.exp % 2).toNat
  let m := a.mant * 2 ^ (odd + 128)
  let r := isqrt m
  ⟨false, r, (a.exp - odd) / 2 - 64, r * r ≠ m⟩

/-- Compare two finite numbers, zeros equal. -/
def Ex.lt (a b : Ex) : Bool :=
  let q := if a.exp < b.exp then a.exp else b.exp
  a.units q < b.units q

def Ex.eq (a b : Ex) : Bool :=
  let q := if a.exp < b.exp then a.exp else b.exp
  a.units q = b.units q

/-- Compare two numbers that are not NaN. -/
def Num.lt : Num → Num → Bool
  | .inf n, .inf m => n && !m
  | .inf n, _ => n
  | _, .inf m => !m
  | .fin a, .fin b => a.lt b
  | _, _ => false

def Num.eq : Num → Num → Bool
  | .inf n, .inf m => n = m
  | .fin a, .fin b => a.eq b
  | _, _ => false

def Num.isNan : Num → Bool
  | .nan _ => true
  | _ => false
def Num.isSnan : Num → Bool
  | .nan s => s
  | _ => false
def Num.neg? : Num → Bool
  | .nan _ => false
  | .inf n => n
  | .fin e => e.neg
def Num.isZero : Num → Bool
  | .fin e => e.isZero
  | _ => false
def Num.isInf : Num → Bool
  | .inf _ => true
  | _ => false

/-! ## Rounding to an integer (R89, R90) -/

/-- `RoundInt(x, mode)`, with whether it differs from x. Numbers beyond 2¹⁹⁰ stand as 2¹⁹⁰ of their sign: every
integer range of R70 lies far inside. -/
def roundInt (mode : RMode) (e : Ex) : Int × Bool :=
  let top : Int := e.exp + Nat.log2 e.mant
  if e.mant ≠ 0 ∧ top > 190 then (if e.neg then -(2 ^ 190 : Nat) else (2 ^ 190 : Nat), false)
  else
    let c := cutAt e 0
    let n := if roundsUp mode e.neg c then c.n + 1 else c.n
    (if e.neg then -(n : Int) else n, c.rest ≠ 0)

/-! ## Decade-8 (R75 to R77) -/

/-- Leading zeros of a seven-bit body. -/
def d8z (b : Nat) : Nat := 6 - Nat.log2 b

/-- The defined magnitude of body `b ≠ 0` in units of 2⁻²⁰: the ideal of R75 rounded to 11 significant bits. -/
def d8Mag (b : Nat) : Nat :=
  let z := d8z b
  let r := 6 - z
  let f := b % 2 ^ r
  let num := (2 ^ r + 9 * f) *
    (match z with | 0 => 1 | 1 => 1 | 2 => 10 | 3 => 1 | 4 => 100 | 5 => 1 | _ => 1000) * 2 ^ 20
  let den := 2 ^ r * (match z with | 1 => 10 | 3 => 100 | 5 => 1000 | _ => 1)
  let q := Nat.log2 (num / den) - 10
  let n := num / (den * 2 ^ q)
  let rem := num % (den * 2 ^ q)
  let up := 2 * rem > den * 2 ^ q ∨ (2 * rem = den * 2 ^ q ∧ n % 2 = 1)
  (if up then n + 1 else n) * 2 ^ q

/-- The bodies of nonzero codes in ascending magnitude. -/
def d8Order : List Nat :=
  [2, 3] ++ (List.range 8).map (· + 8) ++ (List.range 32).map (· + 32) ++ (List.range 64).map (· + 64)
    ++ (List.range 16).map (· + 16) ++ [4, 5, 6, 7, 1]

def d8Value (c : Nat) : Num :=
  if c % 256 = 0 then .fin (.zero false)
  else if c % 256 = 0x80 then .nan false
  else .fin ⟨c % 256 ≥ 128, d8Mag (c % 128), -20, false⟩

/-- Compare a magnitude with `u × 2^q`: 0 below, 1 equal, 2 above. -/
def cmpMag (e : Ex) (u : Nat) (q : Int) : Nat :=
  let c := cutAt e q
  if c.n < u then 0 else if c.n > u then 2 else if c.rest = 0 then 1 else 2

/-- The bodies next below (or equal) and next above a magnitude, from a list in ascending magnitude: body and units. -/
def d8Neighbours (e : Ex) : List Nat → Nat × Nat → (Nat × Nat) × Option (Nat × Nat)
  | [], lo => (lo, none)
  | b :: bs, lo =>
    let u := d8Mag b
    if cmpMag e u (-20) = 0 then (lo, some (b, u)) else d8Neighbours e bs (b, u)

/-- `Round(x, .d8, mode)` for a finite number (R77). -/
def roundD8 (mode : RMode) (e : Ex) : Enc :=
  if e.mant = 0 ∧ e.sticky = false then ⟨0, 0⟩
  else
    let s := if e.neg then 0x80 else 0
    if e.exp + Nat.log2 e.mant > 12 ∨ cmpMag e (1000 * 2 ^ 20) (-20) = 2 then ⟨s + 1, Fl.ovf ||| Fl.inx⟩
    else
      match d8Neighbours e d8Order (0, 0) with
      | ((b, u), none) => ⟨s + b, flagIf (cmpMag e u (-20) ≠ 1) Fl.inx⟩
      | ((b, u), some (b', u')) =>
        if cmpMag e u (-20) = 1 then ⟨if b = 0 then 0 else s + b, 0⟩
        else
          let side := cmpMag e (u + u') (-21)
          let up := match mode with
            | .rn => side = 2 ||
                (side = 1 && b ≠ 0 && b % 2 = 1 && b' % 2 = 0)
            | .rz => false
            | .rp => !e.neg
            | .rm => e.neg
          let body := if up then b' else b
          if body = 0 then ⟨0, Fl.unf ||| Fl.inx⟩ else ⟨s + body, Fl.inx⟩

/-! ## h4 (R78) -/

/-- Code n has the value n − 7.5. -/
def h4Value (c : Nat) : Num :=
  let k : Int := 2 * ((c % 16 : Nat) : Int) - 15
  .fin ⟨k < 0, k.natAbs, -1, false⟩

/-- `Round(x, .h4, mode)` for a finite number. -/
def roundH4 (mode : RMode) (e : Ex) : Enc :=
  if (e.mant ≠ 0 ∧ e.exp + Nat.log2 e.mant > 4) ∨ cmpMag e 15 (-1) = 2 then
    ⟨if e.neg then 0 else 15, Fl.ovf ||| Fl.inx⟩
  else if cmpMag e 1 (-1) = 0 then
    -- between the two innermost levels: code 7 is −0.5, code 8 is +0.5
    let code := match mode with
      | .rn => if e.mant = 0 ∧ e.sticky = false then 8 else if e.neg then 7 else 8
      | .rz => if e.neg then 7 else 8
      | .rp => 8
      | .rm => 7
    ⟨code, Fl.inx⟩
  else
    -- |x| ≥ 0.5: level k of its sign lies at k + 0.5
    let c := cutAt (Ex.mk e.neg e.mant (e.exp + 1) e.sticky) 0   -- units of 0.5
    let k := (c.n - 1) / 2
    let exact := c.n % 2 = 1 && c.rest = 0
    let tie := c.n % 2 = 0 && c.rest = 0
    let above := c.n % 2 = 0 && c.rest ≠ 0
    let kLo := k
    let codeOf := fun (j : Nat) => if e.neg then 7 - j else 8 + j
    if exact then ⟨codeOf kLo, 0⟩
    else
      let up := match mode with
        | .rn => above || (tie && codeOf kLo % 2 = 1)
        | .rz => false
        | .rp => !e.neg
        | .rm => e.neg
      ⟨codeOf (if up then kLo + 1 else kLo), Fl.inx⟩

/-! ## Values and encodings by type -/

/-- `Value(x, T)`: the number an encoding of a type denotes (R70 to R78). -/
def valueOf (t : Ty) (x : Nat) : Num :=
  match t with
  | .f32 => decodeFmt .f32 x
  | .f16 => decodeFmt .f16 x
  | .bf16 => decodeFmt .bf16 x
  | .d8 => d8Value x
  | .h4 => h4Value x
  | t => .fin (.ofInt (if t.signed then signExt x t.width else (x % 2 ^ t.width : Nat)))

/-- `Round(x, T, mode)` to a type that is no integer type, encoded. -/
def roundTo (t : Ty) (mode : RMode) (sat : Bool) (v : Num) : Enc :=
  match t with
  | .d8 => match v with
    | .nan s => ⟨0x80, flagIf s Fl.inv⟩
    | .inf n => ⟨if n then 0x81 else 1, Fl.ovf ||| Fl.inx⟩
    | .fin e => roundD8 mode e
  | .h4 => match v with
    | .nan _ => ⟨8, Fl.inv⟩
    | .inf n => ⟨if n then 0 else 15, Fl.ovf ||| Fl.inx⟩
    | .fin e => roundH4 mode e
  | t => roundNum (fmtOf t) mode sat v

def minOf (t : Ty) : Int := if t.signed then -(2 ^ (t.width - 1) : Nat) else 0
def maxOf (t : Ty) : Int := if t.signed then (2 ^ (t.width - 1) : Nat) - 1 else (2 ^ t.width : Nat) - 1

/-- A value of a type as it stands in a 32-bit register, or in a pair (R71): signed narrow types sign-extended, the
others zero-extended. -/
def placed (t : Ty) (x : Nat) : Dword :=
  if t.wide then BitVec.ofNat 64 x
  else if t.signed then BitVec.ofNat 64 (wrap (signExt x t.width) 32)
  else BitVec.ofNat 64 (x % 2 ^ t.width)

/-! ## The F48 pass (R80) -/

/-- A product of two numbers and a scale. -/
def mulScaled (a b : Num) (k : Int) : Num :=
  match a, b with
  | .nan s, .nan s' => .nan (s || s')
  | .nan s, _ => .nan s
  | _, .nan s => .nan s
  | .inf n, .inf m => .inf (n != m)
  | .inf n, .fin e => if e.isZero then .nan true else .inf (n != e.neg)
  | .fin e, .inf n => if e.isZero then .nan true else .inf (n != e.neg)
  | .fin a, .fin b => .fin ((a.mul b).scale k)

/-- The exponent of the leading bit of a product, `none` for a zero. -/
def topExp : Num → Option Int
  | .fin e => if e.mant = 0 then none else some (e.exp + Nat.log2 e.mant)
  | _ => none

def maxTop (ps : List Num) : Option Int :=
  ps.foldl (fun m p => match m, topExp p with
    | none, t => t
    | m, none => m
    | some a, some b => some (if a < b then b else a)) none

/-- A product truncated toward zero to a multiple of 2^q, in those units. -/
def truncUnits (q : Int) : Num → Int
  | .fin e => let n : Int := (cutAt e q).n; if e.neg then -n else n
  | _ => 0

/-- `F48Pass(acc, p)`: the new element with AOV and INV (R80). An infinite sum that meets the opposite infinity in the
element gives NaN and no flag, since R80 names no flag for it. A product that is NaN through an infinity times zero, or
from a signalling operand, is marked signalling by `mulScaled`. -/
def f48Pass (acc : F48) (ps : List Num) : F48 × FlagSet :=
  let nan : F48 := BitVec.ofNat 48 (Fmt.nanCode .f48)
  let snan := ps.any Num.isSnan
  let pinf := ps.any fun p => p.isInf && !p.neg?
  let ninf := ps.any fun p => p.isInf && p.neg?
  if ps.any Num.isNan ∨ (pinf ∧ ninf) then (nan, flagIf (snan || (pinf && ninf)) Fl.inv)
  else
    let a := decodeFmt .f48 acc.toNat
    if pinf ∨ ninf then
      match a with
      | .nan s => (nan, flagIf s Fl.inv)
      | .inf n => if n = ninf then (acc, 0) else (nan, 0)
      | .fin _ => (BitVec.ofNat 48 (Fmt.infCode .f48 ninf), 0)
    else
      let s : Ex := match maxTop ps with
        | none => .zero false
        | some m => let q := m - 64
                    let u := ps.foldl (fun x p => x + truncUnits q p) 0
                    ⟨u < 0, u.natAbs, q, false⟩
      let r1 := roundEx .f48 .rn false s
      let f1 := flagIf (r1.flags &&& Fl.ovf ≠ 0) Fl.aov
      match a, decodeFmt .f48 r1.code with
      | .nan s, _ => (nan, f1 ||| flagIf s Fl.inv)
      | .inf n, .inf m => if n = m then (acc, f1) else (nan, f1)
      | .inf _, _ => (acc, f1)
      | .fin _, .inf m => (BitVec.ofNat 48 (Fmt.infCode .f48 m), f1)
      | .fin x, .fin y =>
        let r2 := roundEx .f48 .rn false (x.add .rn y)
        (BitVec.ofNat 48 r2.code, f1 ||| flagIf (r2.flags &&& Fl.ovf ≠ 0) Fl.aov)
      | .fin _, .nan _ => (nan, f1)

/-! ## Cells (R81 to R83) -/

/-- `FloatToCell(x)`: the cell integer an FP32 value adds, with INV for a NaN or an infinity. -/
def floatToCell (x : Num) : WideCell × FlagSet :=
  match x with
  | .fin e => let n : Int := (cutAt e (-64)).n; (BitVec.ofNat 128 (wrap (if e.neg then -n else n) 128), 0)
  | _ => (0, Fl.inv)

/-- `CellToFloat(C, fmt, mode)`, encoded. -/
def cellToFloat (c : WideCell) (f : Fmt) (mode : RMode) : Enc :=
  if c.getLsbD 127 ≠ c.getLsbD 126 then ⟨f.infCode (c.getLsbD 127), Fl.ovf⟩
  else roundEx f mode false { Ex.ofInt (signExt c.toNat 128) with exp := -64 }

end Sys2Proof.Machine
end

