-- ==== Sys2Proof/Machine/Mmu.lean ====
section
/-! DEFINITION. Translation and protection (R153 to R164), the fault buffer, the violation log, and the loads and stores of a
train before they are performed (R176 to R178, R186, R195, R196). -/

namespace Sys2Proof.Machine

/-! ## Interrupts and the violation log (R394, R406, R407) -/

/-- Set IRQ bit `b` of partition `p`; a message goes out when the bit changes from 0 while enabled (R394). -/
def setIrq (s : State) (p b : Nat) : State :=
  let q := partAt s p
  if q.irq.getLsbD b then s
  else
    let s := modPart s p fun q => { q with irq := q.irq ||| (1#64 <<< b) }
    if q.irqen.getLsbD b then { s with outbox := s.outbox ++ [.msix (8 * p + b)] } else s

/-- Write a violation-log entry (R163, R406). -/
def logViolation (s : State) (p : Nat) (addr pc : Dword) (cause core asid slot : Nat) (mask : Mask) : State :=
  let q := partAt s p
  let a := q.vlogbase.toNat + 32 * (q.vloghead.toNat % 2 ^ q.vlogsz.toNat)
  let s := if q.vlogbase ≠ 0 ∧ ownedBy s p a then
      writeMem (writeMem (writeMem (writeMem s a 8 addr.toNat)
        (a + 8) 8 (pc.toNat % 2 ^ 48 + cause * 2 ^ 48 + core * 2 ^ 56))
        (a + 16) 8 (asid + slot * 2 ^ 12)) (a + 24) 8 mask.toNat
    else s
  setIrq (modPart s p fun q => { q with vloghead := q.vloghead + 1 }) p 1

/-! ## The walk (R156, R157) -/

/-- The accesses; `rmw` is an atomic that reads and writes. -/
inductive Access where
  | load | store | fetch | rmw
  deriving DecidableEq, Repr

/-- Causes of R164. -/
def causePerm : Nat := 1
def causePart : Nat := 2
def causeRange : Nat := 3
def causeAlign : Nat := 4
def causePte : Nat := 5
def causeRemote : Nat := 6
def causeUnresolved : Nat := 7
def causeSpRange : Nat := 8
def causeSpClass : Nat := 9
def causeTRange : Nat := 10

/-- An address is canonical when bits [63:55] are all equal (R153). -/
def canonicalVa (va : Dword) : Bool := bitsAt va.toNat 55 9 = 0 || bitsAt va.toNat 55 9 = 0x1FF

/-- A level of the table: lowest index bit, index width, the size of the next table and of a page (0 where LEAF must be 0). -/
structure Level where
  lo   : Nat
  bits : Nat
  next : Nat
  page : Nat

def levels : List Level :=
  [⟨43, 13, 2 ^ 16, 0⟩, ⟨30, 13, 2 ^ 12, 2 ^ 30⟩, ⟨21, 9, 2 ^ 8, 2 ^ 21⟩, ⟨16, 5, 0, 2 ^ 16⟩]

/-- The ADDR field as an address. -/
def entryAddr (e : Nat) : Nat := bitsAt e 8 37 * 2 ^ 8

/-- Whether physical memory answers at this address: bulk does not in limp service (R155, R432). -/
def reachable (s : State) (pa : Nat) : Bool := physOk pa && (pa < nearEnd || !s.super.limp)

inductive Walk where
  | fault (pte : Nat)
  | bad (cause : Nat)
  | leaf (t : Trans)
  deriving DecidableEq, Repr

def walkFrom (s : State) (asid : Nat) (va : Nat) : List Level → Nat → Walk
  | [], _ => .bad causePte
  | l :: ls, table =>
    let ea := table + 8 * bitsAt va l.lo l.bits
    if !reachable s ea then .bad causeRange
    else
      let e := readMem s ea 8
      let isLeaf := bitsAt e 1 1 = 1
      if e % 2 = 0 then .fault ea
      else if (isLeaf && l.page = 0) || (!isLeaf && l.next = 0) then .bad causePte
      else
        let align := if isLeaf then l.page else l.next
        if entryAddr e % align ≠ 0 || (bitsAt e 45 19 ≠ 0 && !(isLeaf && bitsAt e 6 2 = 3)) then .bad causePte
        else if isLeaf then
          .leaf { asid := asid, page := va / l.page * l.page, size := l.page, leaf := BitVec.ofNat 64 e
                  granule := va % l.page / 2 ^ 21, owner := pmapByte s (entryAddr e + va % l.page) }
        else walkFrom s asid va ls (entryAddr e)

/-- The walk from the root of an ASID; a root with V = 0 is the entry at which it stops (log 14). -/
def walk (s : State) (asid : Nat) (va : Dword) : Walk :=
  let r := (Tab.read 0 s.roots asid).toNat
  if r % 2 = 0 then .fault (2 ^ 60 + asid)
  else walkFrom s asid va.toNat levels (bitsAt r 16 29 * 2 ^ 16)

/-- Whether no request of partition `p` reaches another module (R164, R426, R432). -/
def cutOff (s : State) (p m : Nat) : Bool := s.super.limp || !s.super.fabReady || s.mute.contains m || discards s p m none

/-- Whether the granule that a translation reaches is assigned to a partition (R393, R405). -/
def Trans.ownedBy (t : Trans) (p : Nat) : Bool := bitsAt t.owner 6 1 = 1 && t.owner % 64 = p

/-- The checks of a translated access, in the order of log 15: PERM, REMOTE, RANGE, PART, ALIGN (R154, R155, R164, R432). A remote leaf
that names this module has the owner of its granule checked like any other (log 39). -/
def checkLeaf (s : State) (p : Nat) (priv : Bool) (acc : Access) (va : Dword) (align : Nat) (t : Trans) : Xl :=
  let e := t.leaf.toNat
  let perms := match acc with | .load => [2] | .store => [3] | .fetch => [4] | .rmw => [2, 3]
  let kind := bitsAt e 6 2
  let base := entryAddr e
  let pa := base + va.toNat % t.size
  if perms.any (fun b => bitsAt e b 1 = 0) || (bitsAt e 5 1 = 1 && !priv) then .bad causePerm
  else if kind = 3 then
    if cutOff s p (bitsAt e 45 19) then .bad causeRemote
    else if bitsAt e 45 19 = s.moduleNo.toNat && reachable s pa && !t.ownedBy p then .bad causePart
    else if align ≠ 0 && va.toNat % align ≠ 0 then .bad causeAlign
    else .remote (bitsAt e 45 19) pa
  else if kind = 0 && base + t.size > nearEnd then .bad causeRange
  else if kind ≠ 0 && !(bulkBase ≤ base && base + t.size ≤ bulkEnd) then .bad causeRange
  else if !reachable s pa then .bad causeRange
  else if !t.ownedBy p then .bad causePart
  else if align ≠ 0 && va.toNat % align ≠ 0 then .bad causeAlign
  else .mem pa

/-- A place as a unit reaches it: the bytes of another module as that module holds them, or REMOTE when it has no memory there
(R154, R164, R207). -/
def reachXl (s : State) : Xl → Xl
  | .remote m pa => if physOk pa then .mem (farPa s m pa) else .bad causeRemote
  | x => x

/-- A place as a train's access reaches it: a page that names this module is this module's own memory, so that its accesses
stand with those of every other page of that memory (R188, R207, log 39). -/
def homeXl (s : State) : Xl → Xl
  | .remote m pa => if m = s.moduleNo.toNat then (if reachable s pa then .mem pa else .bad causeRemote) else .remote m pa
  | x => x

/-- The translation an ASID's tables give now, with every check (R341, R359, R418). -/
def unitXl (s : State) (p asid : Nat) (priv : Bool) (acc : Access) (va : Dword) (align : Nat) : Xl :=
  if !canonicalVa va then .bad causeRange
  else match walk s asid va with
    | .fault a => .fault a
    | .bad c => .bad c
    | .leaf t => checkLeaf s p priv acc va align t

/-- The access of a unit, to this module's memory or another's. -/
def unitAccess (s : State) (p asid : Nat) (priv : Bool) (acc : Access) (va : Dword) (align : Nat) : Xl :=
  reachXl s (unitXl s p asid priv acc va align)

def Trans.covers (t : Trans) (asid va : Nat) : Bool :=
  t.asid = asid && t.page ≤ va && va < t.page + t.size && (va - t.page) / 2 ^ 21 = t.granule

/-- Keep a translation in the micro-translation cache of a core: 256, oldest replaced (R158). -/
def cacheTrans (s : State) (c : Nat) (t : Trans) : State :=
  modCore s c fun x => { x with utlb := (x.utlb ++ [t]).drop (x.utlb.length + 1 - 256) }

/-- An access of a train: translation through its core's micro-translation cache, then the checks (R158, R163). -/
def access (s : State) (tr : Train) (acc : Access) (va : Dword) (align : Nat) : State × Xl :=
  if !canonicalVa va then (s, .bad causeRange)
  else match (coreAt s tr.core).utlb.find? (fun t => t.covers tr.asid va.toNat) with
    | some t => (s, checkLeaf s tr.part tr.priv acc va align t)
    | none => match walk s tr.asid va with
      | .fault a => (s, .fault a)
      | .bad c => (s, .bad c)
      | .leaf t => (cacheTrans s tr.core t, checkLeaf s tr.part tr.priv acc va align t)

/-! ## Stores that are not performed yet (R178, R195, R196) -/

def overlaps (a n b m : Nat) : Bool := a < b + m && b < a + n

/-- The bytes of a load as its train sees them: memory, overlaid with the train's own earlier stores (R195). -/
def overlay (stores : List PendStore) (s : State) (pa : Nat) : Byte :=
  stores.foldl (fun b st => if st.pa ≤ pa && pa < st.pa + st.bytes.length then st.bytes.getD (pa - st.pa) 0 else b)
    (readByte s pa)

def trainBytes (s : State) (tr : Train) (pa : Nat) : Nat → List Byte
  | 0 => []
  | n + 1 => overlay tr.stores s pa :: trainBytes s tr (pa + 1) n

def trainMem (s : State) (tr : Train) (pa n : Nat) : Nat := ofBytes (trainBytes s tr pa n)

/-- The stores that go with the last of a list so that stores to one address keep program order (R178): those that overlap
it, directly or through another; and the others. -/
def splitOverlap (last : PendStore) (before : List PendStore) : List PendStore × List PendStore :=
  before.foldr (fun st (acc : List PendStore × List PendStore) =>
      if (acc.1 ++ [last]).any (fun x => overlaps st.pa st.bytes.length x.pa x.bytes.length) then (st :: acc.1, acc.2)
      else (acc.1, st :: acc.2)) ([], [])

/-- Perform store `i` of a train at its slice, with the earlier ones it must follow. -/
def performStore (s : State) (k i : Nat) : State :=
  match train? s k with
  | none => s
  | some tr =>
    match tr.stores.drop i with
    | [] => s
    | st :: rest =>
      let (first, stay) := splitOverlap st (tr.stores.take i)
      let s := (first ++ [st]).foldl (fun s x => writeBytes s x.pa x.bytes) s
      modTrain s k fun tr => { tr with stores := stay ++ rest }

/-- Perform every store of a train, oldest first (R177, R178, R184). -/
def performAll (s : State) (k : Nat) : State :=
  match train? s k with
  | none => s
  | some tr =>
    modTrain (tr.stores.foldl (fun s x => writeBytes s x.pa x.bytes) s) k fun tr => { tr with stores := [] }

/-- Perform the stores of a train that touch a range: an atomic follows its train's earlier stores (R223). -/
def performOverlapping (s : State) (k pa n : Nat) : State :=
  match train? s k with
  | none => s
  | some tr =>
    let (first, stay) := splitOverlap { pa := pa, bytes := List.replicate n 0 } tr.stores
    modTrain (first.foldl (fun s x => writeBytes s x.pa x.bytes) s) k fun tr => { tr with stores := stay }

/-- Perform every store of a train that waits in a write-combining buffer (R185). -/
def performWc (s : State) (k : Nat) : State :=
  match train? s k with
  | none => s
  | some tr => tr.stores.foldl (fun s st => if st.wc then performOverlapping s k st.pa st.bytes.length else s) s

/-! ## Outstanding loads (R186) -/

/-- Write the low word of a result into the latch that holds it, if it has not left the latches. -/
def fillLatch (tr : Train) (age : Nat) (u : Bool) (t : Nat) (w : Word) : Train :=
  let put := fun (l : Latch) => match l with
    | .vals m => Latch.vals (if u then tids.foldl (fun m t => Tab.write 0 m t w) m else Tab.write 0 m t w)
    | .lost n => Latch.lost n
  let l := tr.latches
  match age with
  | 0 => { tr with latches := { l with b0 := put l.b0 } }
  | 1 => { tr with latches := { l with b1 := put l.b1 } }
  | 2 => { tr with latches := { l with b2 := put l.b2 } }
  | 3 => { tr with latches := { l with b3 := put l.b3 } }
  | _ => tr

/-- Write a value to a destination register of a thread: a pair for a 64-bit type (R46, R71, R435). -/
def writeReg (tr : Train) (dst : Opnd) (wide : Bool) (t : Nat) (val : Dword) : Train :=
  match dst with
  | .v n => if wide then wrV (wrV tr n.toNat t (lowWord val)) (n.toNat + 1) t (highWord val)
            else wrV tr n.toNat t (lowWord val)
  | .o n => if wide then wrO (wrO tr n.toNat t (lowWord val)) (n.toNat + 1) t (highWord val)
            else wrO tr n.toNat t (lowWord val)
  | .s n => wrS tr n.toNat (if wide then val else (lowWord val).zeroExtend 64)
  | .k n => wrK tr n.toNat t (val.getLsbD 0)
  | .g n => wrG tr n.toNat (val.getLsbD 0)
  | _ => tr

/-- Write the values of a load that returned: each thread's register, and the latch that holds the result. -/
def writeLoad (tr : Train) (ld : PendLoad) (vals : List (Nat × Nat)) : Train :=
  vals.foldl (fun tr e =>
    let v := placed ld.ty e.2
    fillLatch (writeReg tr ld.dst ld.ty.wide e.1 v) ld.age ld.u e.1 (lowWord v)) tr

/-- Return outstanding load `i` of a train: its bytes are read now, after its train's earlier stores. -/
def returnLoad (s : State) (k i : Nat) : State :=
  match train? s k with
  | none => s
  | some tr =>
    match tr.loads.drop i with
    | [] => s
    | ld :: rest =>
      let vals := ld.parts.map fun e => (e.1, trainMem s tr e.2 (ld.ty.width / 8))
      modTrain s k fun tr => writeLoad { tr with loads := tr.loads.take i ++ rest } ld vals

def loadTouches (ld : PendLoad) (pa n : Nat) : Bool :=
  ld.parts.any fun e => overlaps e.2 (ld.ty.width / 8) pa n

/-- Return the oldest load while one of the outstanding ones satisfies a test. -/
def returnWhere (s : State) (k : Nat) (p : PendLoad → Bool) : Nat → State
  | 0 => s
  | n + 1 =>
    let s := returnWhere s k p n
    match train? s k with
    | none => s
    | some tr => if tr.loads.any p then returnLoad s k 0 else s

/-- Return every outstanding load of a train that satisfies a test, and those issued before one that does, oldest first: loads of
one location return in program order (R189, R194). -/
def returnLoads (s : State) (k : Nat) (p : PendLoad → Bool) : State :=
  match train? s k with
  | none => s
  | some tr => returnWhere s k p tr.loads.length

/-- The load that returns next so that load `i` can: the first one of its bytes, directly or through another (R189, R194). -/
def firstLoad (loads : List PendLoad) : Nat → Nat → Nat
  | 0, i => i
  | fuel + 1, i =>
    match loads[i]? with
    | none => i
    | some ld =>
      match (loads.take i).findIdx? (fun e => ld.parts.any fun q => loadTouches e q.2 (ld.ty.width / 8)) with
      | some j => firstLoad loads fuel j
      | none => i

/-- LOAD_DATA_RETURN: load `i`, or the earlier load of the same bytes that returns before it (R189, R194). -/
def returnLoadOrdered (s : State) (k i : Nat) : State :=
  match train? s k with
  | none => s
  | some tr => returnLoad s k (firstLoad tr.loads tr.loads.length i)

/-- Every earlier access of a train is performed: a release (R184, R191, R198, R199). -/
def performEarlier (s : State) (k : Nat) : State := performAll (returnLoads s k fun _ => true) k

/-- The accesses of the trains of some ASIDs are performed: nothing uses a translation that goes (R211, R401). -/
def settleAsids (s : State) (p : Nat → Bool) : State :=
  (trainsWhere s fun _ t => p t.asid).foldl performEarlier s

/-- A further load of a train that has 16 outstanding waits for one to return (R186, R223). -/
def loadRoom (s : State) (k : Nat) : State :=
  match train? s k with
  | some tr => if tr.loads.length ≥ 16 then returnLoad s k 0 else s
  | none => s

/-- Issue a store of a train: outstanding loads of the same bytes return first (R189). -/
def issueStore (s : State) (k pa : Nat) (bs : List Byte) (wc : Bool) : State :=
  let s := returnLoads s k fun ld => loadTouches ld pa bs.length
  modTrain s k fun tr => { tr with stores := tr.stores ++ [{ pa := pa, bytes := bs, wc := wc, cycle := s.clk }] }

/-! ## Write-combining buffers (R178) -/

def blockOf (pa : Nat) : Nat := pa / 64

/-- The write-combining buffers of a core: train key and block. -/
def wcBuffers (s : State) (c : Nat) : List (Nat × Nat) :=
  (s.trains.filter fun e => e.2.core = c).foldl (fun acc e =>
    (e.2.stores.filter (·.wc)).foldl (fun acc st =>
      if acc.contains (e.1, blockOf st.pa) then acc else acc ++ [(e.1, blockOf st.pa)]) acc) []

/-- Perform the stores of one write-combining buffer. -/
def drainBuffer (s : State) (k block : Nat) : State :=
  match train? s k with
  | none => s
  | some tr =>
    (tr.stores.filter fun st => st.wc && blockOf st.pa = block).foldl
      (fun s st => performOverlapping s k st.pa st.bytes.length) s

/-- The bytes of a block that a train's write-combining stores cover. -/
def wcCovered (tr : Train) (block : Nat) : Nat :=
  ((List.range 64).filter fun o => tr.stores.any fun st =>
    st.wc && st.pa ≤ block * 64 + o && block * 64 + o < st.pa + st.bytes.length).length

/-- The cycle of the last write to a write-combining buffer. -/
def lastWrite (s : State) (b : Nat × Nat) : Nat :=
  (train? s b.1).elim 0 fun t => t.stores.foldl (fun n x => if x.wc && blockOf x.pa = b.2 && n < x.cycle then x.cycle else n) 0

/-- The buffer whose last write lies furthest back, the first of several. -/
def oldestBuffer (s : State) : List (Nat × Nat) → Option (Nat × Nat)
  | [] => none
  | b :: r => match oldestBuffer s r with
    | none => some b
    | some o => if lastWrite s b ≤ lastWrite s o then some b else some o

/-- After a write-combining store of a train to a block: a full buffer drains. When the store needs a seventeenth buffer, the
spec does not say which of the others is needed for it: the one written longest ago drains (log 31). -/
def settleWc (s : State) (k block : Nat) : State :=
  match train? s k with
  | none => s
  | some tr =>
    let s := if wcCovered tr block = 64 then drainBuffer s k block else s
    let bs := wcBuffers s (coreOfKey k)
    if bs.length ≤ 16 then s
    else match oldestBuffer s (bs.filter (· ≠ (k, block))) with
      | some b => drainBuffer s b.1 b.2
      | none => s

/-- Buffers whose last write lies 4 096 cycles back are drained, and a store that no buffer holds is performed by then too: in a finite
time, whatever else runs (R196, log 2). -/
def drainOld (s : State) : State :=
  s.trains.foldl (fun s e =>
    e.2.stores.foldl (fun s st =>
      if st.wc then
        if s.clk ≥ lastWrite s (e.1, blockOf st.pa) + 4096 then drainBuffer s e.1 (blockOf st.pa) else s
      else if s.clk ≥ st.cycle + 4096 then performOverlapping s e.1 st.pa st.bytes.length else s) s) s

/-! ## Faults and the Siding (R159 to R161) -/

/-- The resume point of a train that cannot complete an instruction of its chain is the chain's head (R54). -/
def rewindTo (tr : Train) (head : Dword) : Train :=
  { tr with pc := head, chain := { tr.chain with len := 0, reads := [], selfWrite := false } }

/-- The entry of a cluster's fault buffer that a fault goes to which is not an engine's: an unresolved one of its ASID whose walk
stopped at the same page-table entry, with one link more, or a free one (R159). Its key, if there is one. -/
def takeEntry (s : State) (cl : Nat) (f : FaultEnt) : Option Nat × State :=
  match s.faults.find? (fun e => e.1 / 1024 = cl && e.2.asid = f.asid && e.2.pte = f.pte && e.2.status = 0 && e.2.kind ≠ 3) with
  | some (i, g) => (some i, { s with faults := Tab.put s.faults i { g with links := g.links + 1 } })
  | none =>
    match Tab.firstFree s.faults 1024 (cl * 1024) with
    | none => (none, s)
    | some i =>
      let (o, s) := freshId s
      (some i, setIrq { s with faults := Tab.put s.faults i { f with order := o } } f.part 0)

/-- The entry for a train fault. -/
def takeFault (s : State) (tr : Train) (va : Dword) (kind pte : Nat) (pc : Dword) : Option Nat × State :=
  takeEntry s (tr.core / 4) { va := va, asid := tr.asid, part := tr.part, kind := kind, core := tr.core % 4, slot := tr.slot,
                              pc := pc, links := 1, pte := pte }

/-- An entry is free: its fields keep what they were last written with, LINKS 0, and STATUS `status` (R8, R160, log 38). -/
def freeFault (s : State) (i status : Nat) : State :=
  match Tab.get? s.faults i with
  | none => s
  | some f => { s with faults := Tab.del s.faults i
                       freed := Tab.put s.freed i { f with links := 0, status := status, op := none } }

/-- One link of an entry is dropped; it frees with the last one (R162). -/
def dropLink (s : State) (i : Nat) : State :=
  match Tab.get? s.faults i with
  | some f => if f.links ≤ 1 then freeFault s i f.status
              else { s with faults := Tab.put s.faults i { f with links := f.links - 1 } }
  | none => s

/-- Park a train in the Siding (R159, R161). -/
def park (s : State) (k : Nat) (head : Dword) (va : Dword) (kind pte : Nat) (pc : Dword) (skip : Nat) (mask : Mask := 0) : State :=
  match train? s k with
  | none => s
  | some tr =>
    let (i, s) := takeFault s tr va kind pte pc
    modTrain s k fun tr => { rewindTo tr head with
      block := some (match i with | some i => .fault i va pc skip mask | none => .faultNoEntry va kind) }

/-- Drop a parked train's link to its entry (R162). -/
def unlinkFault (s : State) (k : Nat) : State :=
  match train? s k with
  | some { block := some (.fault i _ _ _ _), .. } => dropLink s i
  | _ => s

end Sys2Proof.Machine
end

