-- ==== Sys2Proof/Machine/Ring.lean ====
section
/-! DEFINITION. Rings and the Ticket Office (R239 to R248): the ring operations on a control block at a physical address. -/

namespace Sys2Proof.Machine

/-- Whose ring operation it is: partition, address space and mode, through which the bitmap is reached (R241), and whether an entry on
a remote page is (R207); a late record's reservation reaches none there (R278). -/
structure RingUser where
  part : Nat
  asid : Nat
  priv : Bool := false
  far  : Bool := true

inductive RingOp where
  | acq (n : Nat)
  | com (skip : Bool) (ticket n : Nat)
  | peek (take : Bool)
  | rel (ticket n : Nat)
  deriving DecidableEq, Repr

namespace RingReg

def word (r : RingReg) (i : Nat) : Nat := (r.block.getD i 0).toNat
def base (r : RingReg) : Nat := r.word 0
def ssize (r : RingReg) : Nat := bitsAt (r.word 1) 0 32
def nslot (r : RingReg) : Nat := bitsAt (r.word 1) 32 32
def hd (r : RingReg) : Nat := r.word 2
def tl (r : RingReg) : Nat := r.word 3
def tickets (r : RingReg) : Nat := r.word 4
def cbmp (r : RingReg) : Nat := r.word 5
def rd (r : RingReg) : Nat := r.word 6
def cancels (r : RingReg) : Nat := bitsAt (r.word 7) 0 16
def set (r : RingReg) (i v : Nat) : RingReg := { r with block := r.block.set i (BitVec.ofNat 64 v) }

/-- The limits and alignments of R239. -/
def wellFormed (r : RingReg) : Bool :=
  r.base % 64 = 0 && r.ssize % 8 = 0 && 8 ≤ r.ssize && r.ssize ≤ 65536 && 1 ≤ r.nslot && r.nslot ≤ 2 ^ 24
    && r.cbmp % 64 = 0

end RingReg

/-- The states of a slot (R240). -/
def slotFree : Nat := 0
def slotReserved : Nat := 1
def slotCommitted : Nat := 2
def slotSkip : Nat := 3
def slotReleased : Nat := 4

def slotState (e : Half) : Nat := bitsAt e.toNat 0 3
def slotPart (e : Half) : Nat := bitsAt e.toNat 8 6
def slotEntry (state part : Nat) : Half := BitVec.ofNat 16 (state + 256 * part)

/-- Where the bitmap entry of slot `j` lies through the user's ASID, in this module or another (R207); none when it does not translate or
is refused (R241). -/
def entryPa (s : State) (u : RingUser) (r : RingReg) (acc : Access) (j : Nat) : Option Nat :=
  let x := unitXl s u.part u.asid u.priv acc (BitVec.ofNat 64 (r.cbmp + 2 * (j % r.nslot))) 2
  match if u.far then reachXl s x else x with
  | .mem pa => some pa
  | _ => none

/-- Read the bitmap entry of slot `j`: from the register where it holds it. -/
def readEntry (s : State) (u : RingUser) (r : RingReg) (j : Nat) : Option Half :=
  match entryPa s u r .load j with
  | none => none
  | some pa =>
    match Tab.get? r.ents (j % r.nslot) with
    | some (_, e) => some e
    | none => some (BitVec.ofNat 16 (readMem s pa 2))

/-- Write the bitmap entry of slot `j`, in the register and through to memory. -/
def writeEntry (u : RingUser) (j : Nat) (e : Half) (x : State × RingReg) : Option (State × RingReg) :=
  match entryPa x.1 u x.2 .store j with
  | none => none
  | some pa => some (writeMem x.1 pa 2 e.toNat, { x.2 with ents := Tab.put x.2.ents (j % x.2.nslot) (pa, e) })

/-- Write the same state and partition into the entries of `n` slots from `j`. -/
def writeEntries (u : RingUser) (state part : Nat) : Nat → Nat → State × RingReg → Option (State × RingReg)
  | _, 0, x => some x
  | j, n + 1, x =>
    match writeEntry u j (slotEntry state part) x with
    | none => none
    | some x => writeEntries u state part (j + 1) n x

/-- Whether the `n` slots from `j` are all in a state; none when an entry cannot be reached. -/
def allInState (s : State) (u : RingUser) (r : RingReg) (state : Nat) : Nat → Nat → Option Bool
  | _, 0 => some true
  | j, n + 1 =>
    match readEntry s u r j with
    | none => none
    | some e => if slotState e = state then allInState s u r state (j + 1) n else some false

/-- Change the state of the `n` slots from `j`, keeping their partition. -/
def changeEntries (u : RingUser) (state : Nat) : Nat → Nat → State × RingReg → Option (State × RingReg)
  | _, 0, x => some x
  | j, n + 1, x =>
    match readEntry x.1 u x.2 j with
    | none => none
    | some e =>
      match writeEntry u j (slotEntry state (slotPart e)) x with
      | none => none
      | some x => changeEntries u state (j + 1) n x

/-- HEAD passes the released slots below READ, which become FREE (R246). -/
def advanceHead (u : RingUser) : Nat → State × RingReg → Option (State × RingReg)
  | 0, x => some x
  | fuel + 1, x =>
    if x.2.hd < x.2.rd then
      match readEntry x.1 u x.2 x.2.hd with
      | none => none
      | some e =>
        if slotState e = slotReleased then
          match writeEntry u x.2.hd (slotEntry slotFree (slotPart e)) x with
          | none => none
          | some (s, r) => advanceHead u fuel (s, r.set 2 (r.hd + 1))
        else some x
    else some x

/-- The length of the run of SKIP slots from `j`, below TAIL, that stops before the first slot of index 0 after `j`. -/
def skipRun (s : State) (u : RingUser) (r : RingReg) : Nat → Nat → Option Nat
  | 0, _ => some 0
  | fuel + 1, j =>
    if j < r.tl then
      match readEntry s u r j with
      | none => none
      | some e =>
        if slotState e = slotSkip then
          if (j + 1) % r.nslot = 0 then some 1
          else (skipRun s u r fuel (j + 1)).map (· + 1)
        else some 0
    else some 0

/-- `racq` (R243). -/
def ringAcq (u : RingUser) (n : Nat) (x : State × RingReg) : Option ((State × RingReg) × Dword) :=
  let r := x.2
  if n = 0 then some (x, Rc.invalid)
  else if n > r.nslot then some (x, Rc.tooBig)
  else
    let i := r.tl % r.nslot
    let k := if i + n > r.nslot then r.nslot - i else 0
    if r.tl + k + n > r.nslot + r.hd then some (x, Rc.full)
    else
      match writeEntries u slotSkip u.part r.tl k x with
      | none => none
      | some x =>
        match writeEntries u slotReserved u.part (r.tl + k) n x with
        | none => none
        | some (s, r') =>
          some ((s, (r'.set 3 (r.tl + k + n)).set 4 (r.tickets + 1)), BitVec.ofNat 64 (bitsAt (r.tl + k) 0 62))

/-- `rcom` (R244). -/
def ringCom (u : RingUser) (skip : Bool) (ticket n : Nat) (x : State × RingReg) : Option ((State × RingReg) × Dword) :=
  let r := x.2
  if n = 0 then some (x, Rc.invalid)
  else if ticket < r.hd ∨ ticket + n > r.tl then some (x, Rc.badTicket)
  else
    match allInState x.1 u r slotReserved ticket n with
    | none => none
    | some false => some (x, Rc.badTicket)
    | some true =>
      match changeEntries u (if skip then slotSkip else slotCommitted) ticket n x with
      | none => none
      | some x => some (x, 0)

/-- `rpeek` (R245). A run of SKIP slots that is taken keeps the PART of the trains that made it: R245 names a new PART only for a COMMITTED
slot (log 46). -/
def ringPeek (u : RingUser) (take : Bool) (x : State × RingReg) : Option ((State × RingReg) × Dword) :=
  let r := x.2
  if r.rd = r.tl then some (x, Rc.empty)
  else
    match readEntry x.1 u r r.rd with
    | none => none
    | some e =>
      if slotState e = slotCommitted then
        let res := BitVec.ofNat 64 (bitsAt r.rd 0 62)
        if take then
          match writeEntry u r.rd (slotEntry slotCommitted u.part) x with
          | none => none
          | some (s, r) => some ((s, r.set 6 (r.rd + 1)), res)
        else some (x, res)
      else if slotState e = slotSkip then
        let res := BitVec.ofNat 64 (bitsAt r.rd 0 62 + 2 ^ 62)
        if take then
          match skipRun x.1 u r (r.tl - r.rd) r.rd with
          | none => none
          | some n =>
            match changeEntries u slotReleased r.rd n x with
            | none => none
            | some (s, r) =>
              let r := r.set 6 (r.rd + n)
              match advanceHead u (r.rd - r.hd) (s, r) with
              | none => none
              | some x => some (x, res)
        else some (x, res)
      else some (x, Rc.empty)

/-- `rrel` (R246). -/
def ringRel (u : RingUser) (ticket n : Nat) (x : State × RingReg) : Option ((State × RingReg) × Dword) :=
  let r := x.2
  if n = 0 then some (x, Rc.invalid)
  else if ticket < r.hd ∨ ticket + n > r.rd then some (x, Rc.badTicket)
  else
    match allInState x.1 u r slotCommitted ticket n with
    | none => none
    | some false => some (x, Rc.badTicket)
    | some true =>
      match changeEntries u slotReleased ticket n x with
      | none => none
      | some (s, r) =>
        match advanceHead u (r.rd - r.hd) (s, r) with
        | none => none
        | some x => some (x, 0)

def RingOp.apply (op : RingOp) (u : RingUser) (x : State × RingReg) : Option ((State × RingReg) × Dword) :=
  match op with
  | .acq n => ringAcq u n x
  | .com skip t n => ringCom u skip t n x
  | .peek take => ringPeek u take x
  | .rel t n => ringRel u t n x

/-- The register that holds the block at an address, or a new one that caches it; none when all 256 of the slice are taken
(R241). -/
def ringReg? (s : State) (pa : Nat) : Option RingReg :=
  match s.rings.find? (·.pa = pa) with
  | some r => some r
  | none =>
    if (s.rings.filter (·.slice = sliceOf pa)).length ≥ 256 then none
    else some { slice := sliceOf pa, pa := pa,
                block := (List.range 8).map fun i => BitVec.ofNat 64 (readMem s (pa + 8 * i) 8) }

/-- Write the hardware's dwords of a block through to memory. -/
def writeBlock (s : State) (r : RingReg) : State :=
  let s := writeMem (writeMem (writeMem s (r.pa + 0x10) 8 r.hd) (r.pa + 0x18) 8 r.tl) (r.pa + 0x20) 8 r.tickets
  writeMem (writeMem s (r.pa + 0x30) 8 r.rd) (r.pa + 0x38) 8 (r.word 7)

/-- Keep a register, or free it when HEAD = TAIL (R241). -/
def keepRing (s : State) (r : RingReg) : State :=
  let others := s.rings.filter (·.pa ≠ r.pa)
  { s with rings := if r.hd = r.tl then others else others ++ [r] }

/-- Whether the block at a physical address is the service ring's of the partition (R384). -/
def isServiceRing (s : State) (u : RingUser) (pa : Nat) : Bool :=
  let ring := (partAt s u.part).svcring
  ring ≠ 0 && match unitXl s u.part u.asid true .load ring 64 with
    | .mem a => a = pa
    | _ => false

/-- A commit to the service ring sets IRQ.SVC (R407). -/
def signalCommit (s : State) (u : RingUser) (pa : Nat) : RingOp → State
  | .com false _ _ => if isServiceRing s u pa then setIrq s u.part 3 else s
  | _ => s

/-- A ring instruction on the block at physical address `pa` (R241, R242). A failed one changes no ring. Where no register is free it is
BUSY, whatever its count and its block are (log 46). -/
def ringAt (s : State) (u : RingUser) (pa : Nat) (op : RingOp) : State × Dword :=
  match ringReg? s pa with
  | none => (s, Rc.busy)
  | some r =>
    if !r.wellFormed then (s, Rc.invalid)
    else
      match op.apply u (s, r) with
      | none => (keepRing s r, Rc.invalid)
      | some ((s', r'), res) =>
        if res.getLsbD 63 then (keepRing s r, res) else (signalCommit (keepRing (writeBlock s' r') r') u pa op, res)

/-- A ring operation of a unit on the block at a virtual address; INVALID where the block is not reached, BUSY on a remote
page (R241). -/
def ringUnit (s : State) (u : RingUser) (va : Dword) (op : RingOp) : State × Dword :=
  match unitXl s u.part u.asid u.priv .load va 64 with
  | .mem pa => ringAt s u pa op
  | .remote _ _ => (s, Rc.busy)
  | _ => (s, Rc.invalid)

/-! ## Repair when a partition resets (R248) -/

/-- Change the cached entry of slot `j` and write it through. -/
def repairEntry (s : State) (r : RingReg) (j state : Nat) (pa : Nat) (e : Half) : State × RingReg :=
  let e := slotEntry state (slotPart e)
  (writeMem s pa 2 e.toNat, { r with ents := Tab.put r.ents (j % r.nslot) (pa, e) })

/-- The `n` slots from `j`: RESERVED slots of partition `p` become SKIP, its taken COMMITTED slots RELEASED; with the
number changed. Every slot from HEAD to TAIL was written by this register, so it is cached. -/
def repairSlots (p : Nat) : Nat → Nat → State → RingReg → Nat → State × RingReg × Nat
  | _, 0, s, r, c => (s, r, c)
  | j, n + 1, s, r, c =>
    match Tab.get? r.ents (j % r.nslot) with
    | none => repairSlots p (j + 1) n s r c
    | some (pa, e) =>
      if slotPart e = p && slotState e = slotReserved then
        let (s, r) := repairEntry s r j slotSkip pa e
        repairSlots p (j + 1) n s r (c + 1)
      else if slotPart e = p && slotState e = slotCommitted && j < r.rd then
        let (s, r) := repairEntry s r j slotReleased pa e
        repairSlots p (j + 1) n s r (c + 1)
      else repairSlots p (j + 1) n s r c

/-- HEAD passes the released slots below READ, by the cached entries. -/
def repairHead : Nat → State → RingReg → State × RingReg
  | 0, s, r => (s, r)
  | fuel + 1, s, r =>
    match Tab.get? r.ents (r.hd % r.nslot) with
    | some (pa, e) =>
      if r.hd < r.rd && slotState e = slotReleased then
        let (s, r) := repairEntry s r r.hd slotFree pa e
        repairHead fuel s (r.set 2 (r.hd + 1))
      else (s, r)
    | none => (s, r)

/-- One register when partition `p` resets: freed without write-back where its block lies in the partition's memory; one that the repair
leaves with HEAD = TAIL is freed at once (log 46). -/
def repairRing (p : Nat) (s : State) (r : RingReg) : State :=
  if ownedBy s p r.pa then { s with rings := s.rings.filter (·.pa ≠ r.pa) }
  else
    let (s, r, c) := repairSlots p r.hd (r.tl - r.hd) s r 0
    let (s, r) := repairHead (r.rd - r.hd) s r
    let cancels := if r.cancels + c > 65535 then 65535 else r.cancels + c
    let r := r.set 7 (r.word 7 / 65536 * 65536 + cancels)
    keepRing (writeBlock s r) r

/-- Every register of every Ticket Office when partition `p` resets (R248). -/
def repairRings (s : State) (p : Nat) : State := s.rings.foldl (repairRing p) s

end Sys2Proof.Machine
end

