-- ==== Sys2Proof/Machine/Lines.lean ====
section
/-! DEFINITION. Lines, windows, sessions and panes (R272 to R289, R293): what a delivery, a watermark, a flush and the end of an
activation do to a line. -/

namespace Sys2Proof.Machine

/-! ## The descriptor (R65, R66) -/

/-- Pure helper: the greatest common divisor. -/
def gcdFuel : Nat → Nat → Nat → Nat
  | 0, a, _ => a
  | n + 1, a, b => if b = 0 then a else gcdFuel n b (a % b)

namespace Line

def word (ln : Line) (i : Nat) : Nat := (ln.desc.getD i 0).toNat
def kind (ln : Line) : Nat := bitsAt (ln.word 0) 0 2
def mode (ln : Line) : Nat := bitsAt (ln.word 0) 2 1
def swords (ln : Line) : Nat := bitsAt (ln.word 0) 3 5
def rsize (ln : Line) : Nat := bitsAt (ln.word 0) 8 9
def koff (ln : Line) : Nat := bitsAt (ln.word 0) 17 8
def toff (ln : Line) : Nat := bitsAt (ln.word 0) 25 8
def keyed (ln : Line) : Bool := bitsAt (ln.word 0) 33 1 = 1
def kwide (ln : Line) : Bool := bitsAt (ln.word 0) 34 1 = 1
def len (ln : Line) : Nat := ln.word 1
def stride (ln : Line) : Nat := ln.word 2
def gap (ln : Line) : Nat := ln.word 3
def lateness (ln : Line) : Nat := ln.word 4
def handler (ln : Line) : Nat := bitsAt (ln.word 5) 0 48
def outring (ln : Line) : Dword := ln.desc.getD 6 0
def latering (ln : Line) : Dword := ln.desc.getD 7 0
/-- P = gcd(L, S) (R280). -/
def panelen (ln : Line) : Nat := gcdFuel 128 ln.len ln.stride
def isCount (ln : Line) : Bool := ln.kind = 0
def isTime (ln : Line) : Bool := ln.kind = 1
def isGap (ln : Line) : Bool := ln.kind = 2
def isPane (ln : Line) : Bool := ln.mode = 1

/-- Whether `lopen` rejects the descriptor (R66, R292). -/
def invalid (ln : Line) : Bool :=
  let kn := if ln.kwide then 8 else 4
  bitsAt (ln.word 0) 35 29 ≠ 0 || bitsAt (ln.word 5) 48 16 ≠ 0 || ln.kind = 3
    || ln.rsize % 4 ≠ 0 || ln.rsize < 4 || ln.rsize > 256
    || (ln.keyed && (ln.koff % kn ≠ 0 || ln.koff + kn > ln.rsize))
    || (!ln.isCount && (ln.toff % 8 ≠ 0 || ln.toff + 8 > ln.rsize))
    || (!ln.isGap && (ln.len = 0 || ln.stride = 0))
    || (ln.isGap && (!ln.keyed || ln.gap = 0 || ln.isPane))
    || ln.outring.toNat % 64 ≠ 0 || ln.latering.toNat % 64 ≠ 0 || ln.swords > 16

/-- The key and the timestamp of a record. -/
def keyOf (ln : Line) (rec : List Byte) : Nat :=
  if ln.keyed then ofBytes ((rec.drop ln.koff).take (if ln.kwide then 8 else 4)) else 0
def timeOf (ln : Line) (rec : List Byte) : Nat := ofBytes ((rec.drop ln.toff).take 8)

/-- The windows that contain position `x` (R275): from j₀ on, so many. -/
def windowsOf (ln : Line) (x : Nat) : List Nat :=
  let lo := if x < ln.len then 0 else (x - ln.len) / ln.stride + 1
  let hi := x / ln.stride
  (List.range (hi + 1 - lo)).map (· + lo)

/-- The windows that contain pane `k` (R280). -/
def windowsOfPane (ln : Line) (k : Nat) : List Nat :=
  let e := (k + 1) * ln.panelen
  let lo := if e ≤ ln.len then 0 else (e - ln.len + ln.stride - 1) / ln.stride
  let hi := k * ln.panelen / ln.stride
  (List.range (hi + 1 - lo)).map (· + lo)

/-- Window start and end as o0 to o3 give them (R282). -/
def bounds (ln : Line) (w : Win) : Nat × Nat :=
  if ln.isGap then (w.first, w.last + ln.gap)
  else if w.pane then (w.index * ln.panelen, w.index * ln.panelen + ln.panelen)
  else (w.index * ln.stride, w.index * ln.stride + ln.len)

/-- The handle of a line (R272). -/
def handleOf (ln : Line) (key : Nat) : Dword :=
  BitVec.ofNat 64 (key % 256 + 2 ^ 8 * (key / 256) + 2 ^ 16 * ln.gen + 2 ^ 32 * ln.asid + 2 ^ 44 * ln.part)

/-- Whether a record or a membership in the intake is unresolved (R281). -/
def unresolved (ln : Line) : Bool :=
  !ln.deliver.isEmpty || ln.intake.any fun | .record _ => true | _ => false

def records (ln : Line) : Nat := (ln.intake.filter fun | .record _ => true | _ => false).length

/-- The wake-ups of a line that wait (R289). -/
def waitingCount (ln : Line) : Nat := ln.wins.foldl (fun n e => n + e.2.waiting.length) 0 + ln.batch.length

/-! ## Wake-ups and windows -/

def win? (ln : Line) (id : Nat) : Option Win := Tab.get? ln.wins id
def modWin (ln : Line) (id : Nat) (f : Win → Win) : Line := { ln with wins := Tab.adjust ln.wins id f }

/-- The window or pane thread of a key with an index. -/
def find (ln : Line) (key index : Nat) (pane : Bool) : Option Nat :=
  (ln.wins.find? fun e => e.2.key = key && e.2.index = index && e.2.pane = pane).map (·.1)

def runs (ln : Line) (id : Nat) : Bool := (ln.win? id).any fun w => w.running.isSome

/-- A MERGE wake-up waits while the absorbed session runs (R286). -/
def mayStart (ln : Line) (wk : Wake) : Bool := wk.kind ≠ .merge || !ln.runs wk.other

/-- The wake-up runs: the window is RUNNING and the wake-up is in the batch (R281, R287). A flush CLOSE of a window that was
CLOSED has no PARTIAL. That the window runs from here on, and not only once a core admits the batch (R21), is the model's choice; a MERGE
waits behind it (log 66). -/
def start (ln : Line) (clk id : Nat) (wk : Wake) : Line :=
  match ln.win? id with
  | none => ln
  | some w =>
    let wk := if wk.kind = .close && w.state = .closed then { wk with partly := false } else wk
    { ln with
      wins := Tab.put ln.wins id { w with running := some wk }
      batchAt := if ln.batch.isEmpty then clk else ln.batchAt
      batch := ln.batch ++ [(id, wk)] }

/-- A wake-up takes its place in the order of resolution; one that has moved from another window keeps it (R286, R302). -/
def number (ln : Line) (wk : Wake) : Line × Wake :=
  if wk.order = 0 then ({ ln with nextWake := ln.nextWake + 1 }, { wk with order := ln.nextWake }) else (ln, wk)

/-- A wake-up reaches a window that is not ENDED. -/
def offer (ln : Line) (clk id : Nat) (wk : Wake) : Line :=
  let (ln, wk) := ln.number wk
  match ln.win? id with
  | none => ln
  | some w =>
    if w.running.isSome || !w.waiting.isEmpty || !ln.mayStart wk then
      ln.modWin id fun w => { w with waiting := w.waiting ++ [wk] }
    else ln.start clk id wk

/-- The first waiting wake-up of a window starts when it may. -/
def promote (ln : Line) (clk id : Nat) : Line :=
  match ln.win? id with
  | none => ln
  | some w =>
    match w.running, w.waiting with
    | none, wk :: rest =>
      if w.state ≠ .ended && ln.mayStart wk then (ln.modWin id fun w => { w with waiting := rest }).start clk id wk else ln
    | _, _ => ln

/-- Discard the waiting wake-ups of a window, each counted in DROPS; a session that a discarded MERGE would have absorbed
dies, at once or at the end of its activation. -/
def discard (ln : Line) (id : Nat) : Line :=
  match ln.win? id with
  | none => ln
  | some w =>
    let ln := { ln with drops := (ln.drops + w.waiting.length) % 2 ^ 64 }
    let ln := w.waiting.foldl (fun ln wk =>
      if wk.kind = .merge then
        if ln.runs wk.other then ln.modWin wk.other fun b => { b with orphan := true }
        else { ln with wins := Tab.del ln.wins wk.other }
      else ln) ln
    ln.modWin id fun w => { w with waiting := [] }

/-- The window becomes ABSENT and its slot frees. -/
def remove (ln : Line) (id : Nat) : Line :=
  let ln := ln.discard id
  { ln with wins := Tab.del ln.wins id }

/-- A new window with zero state (R275, R280). -/
def bear (ln : Line) (key index first : Nat) (pane : Bool) (slot : Nat) : Line × Nat :=
  let id := ln.nextWin
  ({ ln with nextWin := id + 1, wins := Tab.put ln.wins id { key := key, index := index, pane := pane, first := first,
                                                             last := first, slot := slot } }, id)

/-- The close point, or with `expire` the expiry point too, of a window is resolved (R277, R283, R287). -/
def trigger (ln : Line) (clk id : Nat) (expire : Bool) : Line :=
  match ln.win? id with
  | none => ln
  | some w =>
    let ln := ln.modWin id fun w => { w with closeDone := true, expireDone := w.expireDone || expire }
    if w.state = .ended then (if expire then ln.remove id else ln)
    else ln.offer clk id { kind := .close, expire := expire, count := w.count }

/-- Deliver a wake-up to a window: it adds `n` to the record count (R279, R280, R287). -/
def deliverTo (ln : Line) (clk id n : Nat) (wk : Wake) : Line :=
  match ln.win? id with
  | none => ln
  | some w =>
    let c := w.count + n
    let ln := ln.modWin id fun w => { w with count := c }
    let ln := if w.state = .ended then { ln with drops := (ln.drops + 1) % 2 ^ 64 }
              else ln.offer clk id { wk with count := c }
    if ln.isCount && !w.pane && !w.closeDone && c ≥ ln.len then ln.trigger clk id true else ln

/-- The close and expiry points of a TIME window in MULTICAST mode that W has reached (R275, R283). -/
def timePoints (ln : Line) (clk id : Nat) : Line :=
  match ln.win? id with
  | none => ln
  | some w =>
    let e := (ln.bounds w).2
    let ln := if !w.closeDone && ln.w ≥ e then ln.trigger clk id (ln.lateness = 0) else ln
    match ln.win? id with
    | none => ln
    | some w => if w.closeDone && !w.expireDone && ln.w ≥ e + ln.lateness then ln.trigger clk id true else ln

/-- The close point of a TIME window in PANE mode, behind the partials of its panes, those that are still on their way to it among
them (R275, R280). -/
def panePoint (ln : Line) (clk id : Nat) : Line :=
  match ln.win? id with
  | none => ln
  | some w =>
    let (a, e) := ln.bounds w
    let panesLeft := ln.wins.any fun x => x.2.pane && x.2.key = w.key && a ≤ (ln.bounds x.2).1 && (ln.bounds x.2).1 < e
    let coming := ln.deliver.any fun d => d.part.isSome && d.key = w.key && d.index = w.index
    if !w.pane && !w.closeDone && ln.w ≥ e + ln.lateness && !panesLeft && !coming then ln.trigger clk id true else ln

/-- The close point of a session: its range goes on making records late (R276, R286). -/
def gapPoint (ln : Line) (clk id : Nat) : Line :=
  match ln.win? id with
  | none => ln
  | some w =>
    if w.absorbed.isNone && !w.closeDone && ln.w ≥ w.last + ln.gap then
      { ln with past := ln.past ++ [(w.key, w.first, w.last)] }.trigger clk id true
    else ln

/-- Insert by key, then start. -/
def insertWin (ln : Line) (e : Nat × Win) : List (Nat × Win) → List (Nat × Win)
  | [] => [e]
  | x :: r =>
    let a := (ln.bounds e.2).1
    let b := (ln.bounds x.2).1
    if e.2.key < x.2.key || (e.2.key = x.2.key && a < b) then e :: x :: r else x :: insertWin ln e r

/-- The windows of a line by key and, within a key, by start. The spec orders the windows of one key only (R277, R303); the ascending order
of the keys is the model's choice (log 66). -/
def ordered (ln : Line) : List Nat := (ln.wins.foldl (fun acc e => ln.insertWin e acc) []).map (·.1)

/-- The points of one window that W has reached. -/
def pointsOf (ln : Line) (clk id : Nat) : Line :=
  if ln.isGap then ln.gapPoint clk id
  else if ln.isTime then (if ln.isPane then ln.panePoint clk id else
    match ln.win? id with
    | some w => if w.pane then ln else ln.timePoints clk id
    | none => ln)
  else ln

/-- The points that W has reached are resolved, per key in ascending order of start, while the wake-ups that wait stay within `cap`;
and whether all of them are (R277, R289). The keys come in ascending order, the model's choice (log 66). -/
def resolvePoints (ln : Line) (clk cap : Nat) : Line × Bool :=
  ln.ordered.foldl (fun (x : Line × Bool) id =>
    let next := x.1.pointsOf clk id
    if x.2 && next.waitingCount ≤ cap then (next, true) else (x.1, false)) (ln, true)

/-! ## Ends of activations (R285, R287, R299) -/

inductive EndHow where
  | yield (words : List Word)
  | finish (words : List Word)
  | fail
  deriving DecidableEq, Repr

/-- The activation of a window ends: by `wyield`, by `wend` (which acts as `wyield` on a pane thread), or by termination. -/
def endActivation (ln : Line) (clk id : Nat) (how : EndHow) : Line :=
  match ln.win? id with
  | none => ln
  | some w =>
    match w.running with
    | none => ln
    | some wk =>
      let ln := match how with
        | .fail => { ln with failed := (ln.failed + 1) % 2 ^ 64 }
        | _ => { ln with acts := (ln.acts + 1) % 2 ^ 64 }
      let ln := ln.modWin id fun w => { w with running := none }
      -- step 4 of R286: the absorbed session dies with the MERGE
      let ln := if wk.kind = .merge then { ln with wins := Tab.del ln.wins wk.other } else ln
      let isClose : Bool := wk.kind = .close
      let ln :=
        if w.orphan then ln.remove id
        else match how with
          | .yield ws =>
            if isClose && wk.expire then ln.remove id
            else ln.modWin id fun w => { w with words := ws, state := if isClose then .closed else .dormant }
          | .finish ws =>
            if w.pane then ln.modWin id fun w => { w with words := ws, state := .dormant }
            else if w.expireDone then ln.remove id
            else (ln.discard id).modWin id fun w => { w with words := [], state := .ended }
          | .fail =>
            if isClose then
              (if w.expireDone then ln.remove id
               else (ln.discard id).modWin id fun w => { w with words := [], state := .ended })
            else if w.state = .absent then ln.remove id
            else ln
      let ln := ln.promote clk id
      match w.absorbed with
      | some a => ln.promote clk a
      | none => ln

/-- Insert by the order of resolution. -/
def insertWake (e : Nat × Wake) : List (Nat × Wake) → List (Nat × Wake)
  | [] => [e]
  | x :: r => if e.2.order < x.2.order then e :: x :: r else x :: insertWake e r

/-- The activations of several windows end at one instant: the wake-ups that become eligible enter the batch in the order in which
they were resolved (R281, R302). -/
def endActivations (ln : Line) (clk : Nat) (ends : List (Nat × EndHow)) : Line :=
  let ln' := ends.foldl (fun ln e => ln.endActivation clk e.1 e.2) ln
  let n := ln.batch.length
  { ln' with batch := ln'.batch.take n ++ (ln'.batch.drop n).foldr insertWake [] }

/-! ## Records of a GAP line (R276, R286) -/

/-- τ lies in the open interval (first − G, last + G). -/
def inRange (ln : Line) (first last τ : Nat) : Bool := first < τ + ln.gap && τ < last + ln.gap

/-- The live sessions of a key whose range holds τ, by first timestamp. -/
def sessionsAt (ln : Line) (key τ : Nat) : List Nat :=
  ln.ordered.filter fun id => (ln.win? id).any fun w =>
    w.key = key && w.absorbed.isNone && !w.closeDone && ln.inRange w.first w.last τ

/-- Join session `b` to session `a` by a record at τ (steps 1 to 3 of R286). -/
def bridge (ln : Line) (clk a b τ : Nat) : Line :=
  match ln.win? a, ln.win? b with
  | some wa, some wb =>
    let last := if wa.last < wb.last then wb.last else wa.last
    let ln := ln.modWin a fun w => { w with first := if τ < w.first then τ else w.first,
                                            last := if last < τ then τ else last, count := wa.count + wb.count }
    let moved := wb.waiting
    let ln := ln.modWin b fun w => { w with absorbed := some a, waiting := [] }
    -- a session that `b` was to absorb is now absorbed by `a`
    let ln := moved.foldl (fun ln wk =>
      if wk.kind = .merge then ln.modWin wk.other fun c => { c with absorbed := some a } else ln) ln
    let ln := ln.offer clk a { kind := .merge, other := b, count := wa.count + wb.count }
    moved.foldl (fun ln wk => ln.offer clk a wk) ln
  | _, _ => ln

/-- A record of a GAP line that is not beyond lateness; `slot` is a free slot of the pool. -/
inductive GapResult where
  | late
  | noRoom
  | line (ln : Line)

/-- An ENDED session keeps its range: a record that falls in it counts in DROPS and, where no other session's range holds it, widens it
(R276, R287). Between an ENDED session and another the spec names no bridge: both keep their ranges (log 57). Such a record counts among the
accepted ones of R296 too, the model's choice (log 66). -/
def endedRecord (ln : Line) (clk τ : Nat) (ids : List Nat) : Line :=
  let ln := { ln with accepted := (ln.accepted + 1) % 2 ^ 64, drops := (ln.drops + 1) % 2 ^ 64 }
  match ids with
  | [id] => (ln.modWin id fun w => { w with first := if τ < w.first then τ else w.first,
                                            last := if w.last < τ then τ else w.last, count := w.count + 1 }).gapPoint clk id
  | _ => ln

def gapRecord (ln : Line) (clk : Nat) (slot : Option Nat) (rec : List Byte) : GapResult :=
  let key := ln.keyOf rec
  let τ := ln.timeOf rec
  let deliver := fun (ln : Line) (id : Nat) (k : WakeKind) =>
    let ln := { ln with accepted := (ln.accepted + 1) % 2 ^ 64 }
    GapResult.line ((ln.deliverTo clk id 1 { kind := k, bytes := rec }).gapPoint clk id)
  if ln.past.any fun (k, f, l) => k = key && ln.inRange f l τ then .late
  else
    let ids := ln.sessionsAt key τ
    if ids.any fun id => (ln.win? id).any (·.state = .ended) then .line (ln.endedRecord clk τ ids)
    else match ids with
      | [] =>
        match slot with
        | none => .noRoom
        | some sl =>
          let (ln, id) := ln.bear key ln.nextWin τ false sl
          deliver ln id .opened
      | [id] =>
        deliver (ln.modWin id fun w => { w with first := if τ < w.first then τ else w.first,
                                                last := if w.last < τ then τ else w.last }) id .record
      | a :: b :: _ => deliver (ln.bridge clk a b τ) a .record

end Line
end Sys2Proof.Machine
end

