-- ==== Sys2Proof/Machine/Ends.lean ====
section
/-! DEFINITION. The ends of waits, threads, trains, workgroups and launches (R199, R256 to R258, R285, R320 to R322, R333,
R342 to R344), and the barriers they complete. -/

namespace Sys2Proof.Machine

/-! ## Blocking (R20, R54, R236) -/

/-- The stall timer of a train's workgroup starts anew: a stall lasts while none of its trains blocks, unblocks, arrives at
a barrier or exits (R236). -/
def touchStall (s : State) (k : Nat) : State :=
  match train? s k with
  | some { wg := some w, .. } => modWg s w fun g => { g with qSince := s.clk }
  | _ => s

/-- A train unblocks. -/
def unblock (s : State) (k : Nat) : State :=
  match train? s k with
  | none => s
  | some tr =>
    putTrain (touchStall s k) k { tr with block := none, atWait := none }

/-- The workgroups resident on a core. -/
def wgsOnCore (s : State) (core : Nat) : List (Nat × Wg) := s.wgs.filter fun e => e.2.core = core

/-- The banks of a core that no workgroup uses, and how many of them no workgroup has reserved. -/
def freeBanks (s : State) (core : Nat) : List Nat :=
  let used := (wgsOnCore s core).flatMap (·.2.used)
  (List.range 64).filter fun b => !used.contains b
def unreservedBanks (s : State) (core : Nat) : Nat :=
  (freeBanks s core).length - (wgsOnCore s core).foldl (fun n e => n + e.2.resv) 0

/-- The requests of a core that wait, issued before one: workgroup of each. -/
def earlierRequests (s : State) (core order : Nat) : List (Option Nat) :=
  (s.trains.filter fun e => e.2.core = core && (match e.2.block with | some (.aalloc _ o _) => o < order | _ => false)).map (·.2.wg)

/-- Whether there are banks for a request of a workgroup: its own reservation, and the banks that none has reserved (R131, R136). -/
def banksMeet (s : State) (w need : Nat) : Bool :=
  (wg? s w).any fun g => need ≤ g.resv + unreservedBanks s g.core

/-- Whether a blocked request of a core is served: none that was issued before it waits, and there are banks for it (R136). -/
def banksFree (s : State) (w need order : Nat) : Bool :=
  (wg? s w).any fun g => (earlierRequests s g.core order).isEmpty && banksMeet s w need

/-- The bank number that stands for bank `j` of the request of a blocked `aalloc`, named by its queue entry (R132, R136). -/
def pendingBank (entry j : Nat) : Nat := 64 + 128 * entry + j
/-- Whether a bank number stands for a bank still to be obtained. -/
def isPending (b : Nat) : Bool := b ≥ 64
def pendingOf (entry b : Nat) : Bool := isPending b && (b - 64) / 128 = entry

/-- A blocked `aalloc` gives up its request: its entry leaves the queue and its names are unbound again. -/
def withdrawAlloc (s : State) (k : Nat) : State :=
  match train? s k with
  | some { block := some (.aalloc _ id _), wg := some w, .. } =>
    modWg s w fun g => { g with mq := g.mq.filter (·.id ≠ id), accs := g.accs.filter fun a => !pendingOf id a.2.bank }
  | _ => s

/-- Block a train at its chain's head (R54). -/
def blockAt (s : State) (k : Nat) (head : Dword) (b : Block) : State :=
  modTrain (touchStall s k) k fun tr => { rewindTo tr head with block := some b }

/-- The chain after a terminal instruction at `pc` that no chain stands before (R51). -/
def terminalChain (pc : Dword) : Chain := { started := true, terminal := true, len := 1, head := pc }

/-- Advance the selected threads past an instruction of `len` bytes (R252). -/
def advance (tr : Train) (len : Nat) : Train := { tr with pc := tr.pc + BitVec.ofNat 64 len }

/-- Broadcast a uniform result to every latch position (R49). -/
def broadcast (w : Word) : Tab Word := tids.foldl (fun m t => Tab.write 0 m t w) []

/-- Every outstanding load, and every result that a home owes, grows one instruction older (R186, R352). -/
def ageLoads (tr : Train) : Train :=
  { tr with loads := tr.loads.map fun l => { l with age := l.age + 1 }, homes := tr.homes.map fun h => { h with age := h.age + 1 } }

/-- Write the 64-bit uniform result of an instruction that names `s` registers. -/
def writeUniform (tr : Train) (x : Args) (val : Dword) : Train :=
  match x.d with
  | .s n => if x.nwb then tr else wrS tr n.toNat val
  | _ => tr

/-- The fields of an instruction that completes a wait. -/
def waitArgs : Instr → Option Args
  | .fwait x | .lwait x | .jwait x | .lclose x | .svc x | .jarr x | .tdone x | .ctxs x
  | .tlbiPage x | .tlbiAsid x | .tlbiPart x => some x
  | _ => none

/-- A waiting train's instruction completes with this value: D, latches and PC (R265, R293, R318, R345, R348, R384). -/
def finishWait (s : State) (k : Nat) (val : Dword) : State :=
  match train? s k with
  | none => s
  | some tr =>
    match tr.atWait.bind waitArgs with
    | none => s
    | some x =>
      let hasD := match x.d with | .s _ => true | _ => x.nwb
      let s := unblock s k
      modTrain s k fun tr =>
        { advance (pushLatch (writeUniform (ageLoads tr) x val) (if hasD then broadcast (lowWord val) else [])) x.len with
          chain := terminalChain tr.pc }

/-! ## Waits that a handler interrupted (R54, R379) -/

/-- Whether a wait is taken up again where it stood: its instruction has begun what it cannot begin again. -/
def keepsPlace : Block → Bool
  | .svcReply _ | .lclose _ _ | .remote _ | .ctxs _ _ => true
  | _ => false

/-- What a train that leaves for its handler takes up again: such a wait, or the replies of an access to another module that it was in the
middle of. A dispatch that read a predicate there begins anew. -/
def asideOf (tr : Train) : Option Aside :=
  let a : Aside := { pc := tr.pc, block := tr.block, wait := tr.atWait, replies := tr.replies, access := tr.access }
  match tr.block with
  | none => if tr.replies.isEmpty || tr.held.isSome then none else some a
  | some b => if keepsPlace b && tr.held.isNone then some a else none

def setAside (tr : Train) : Train := { tr with asides := (asideOf tr).toList ++ tr.asides }

/-- Whether an interrupted wait is for the reply to a request. -/
def asideAwaits (id : Nat) (a : Aside) : Bool := match a.block with | some (.remote ids) => ids.contains id | _ => false

/-- A train no longer waits for its requests to other modules, those of its interrupted waits apart: their replies reach no train, and no
train has the number 0 (R207, R343). -/
def forsake (s : State) (k : Nat) : State :=
  match train? s k with
  | none => s
  | some tr => { s with remote := s.remote.map fun e =>
      if e.2.uid = tr.uid && !tr.asides.any (asideAwaits e.1) then (e.1, { e.2 with uid := 0 }) else e }

/-- The waits of a train that a handler interrupted and that satisfy a test end with a value, to be taken when the train returns. -/
def answerAside (p : Block → Bool) (val : Dword) (tr : Train) : Train :=
  { tr with asides := tr.asides.map fun a =>
      if a.result.isNone && a.block.any p then { a with result := some val } else a }

/-- The same in every train, resident or not. -/
def answerAsides (s : State) (p : Block → Bool) (val : Dword) : State :=
  { s with
    trains := s.trains.map fun e => (e.1, answerAside p val e.2)
    saved := s.saved.map fun e => (e.1, { e.2 with trains := e.2.trains.map (answerAside p val) })
    savedActs := s.savedActs.map fun e => (e.1, answerAside p val e.2) }

/-- Every train blocked in the same way completes its wait with a value. -/
def finishWaits (s : State) (b : Block) (val : Dword) : State :=
  answerAsides ((trainsWhere s fun _ t => t.block = some b).foldl (fun s k => finishWait s k val) s) (· = b) val

/-! ## Matrix instructions that a train waits for -/

/-- The memory forms, whose progress the row-progress register records (R143). -/
def recordsRows : Instr → Bool
  | .mmaMemory _ _ | .adrainGm _ _ _ => true
  | _ => false

/-- A train leaves a matrix instruction that it waits for: its entry leaves the queue, the row-progress register records a memory form's
rows, and the instruction is executed again after the return (R143, R379). -/
def withdrawMatrix (s : State) (k : Nat) : State :=
  match train? s k with
  | some { block := some (.matrixOp id), wg := some w, .. } =>
    match (wg? s w).bind fun g => g.mq.find? (·.id = id) with
    | some e =>
      let s := modWg s w fun g => { g with mq := g.mq.filter (·.id ≠ id) }
      if recordsRows e.instr then modTrain s k fun tr => { tr with rowprog := { pc := e.pc, rows := e.done, valid := true } } else s
    | none => s
  | _ => s

/-! ## Joins: contributors that end (R341 to R344) -/

/-- The status word of a join (R348). A proxy shows its home's last word and, before any, STATE 1 with counts of 0, which the spec leaves
open (log 22). -/
def joinStatus (jn : Join) : Dword :=
  if jn.proxy then jn.status
  else BitVec.ofNat 64 (jn.state + 2 ^ 8 * (jn.arrived % 2 ^ 16) + 2 ^ 24 * (jn.casual % 2 ^ 16) + 2 ^ 40 * (jn.kills % 2 ^ 16)
    + (if jn.fillerr then 2 ^ 56 else 0))

/-- A released join whose contributors have all arrived or ended frees its slot, in any released state (R344, R347). Waiters that its
module's STAGGER still holds back get their word later (R345). -/
def freeJoin (s : State) (j : Nat) : State :=
  match Tab.get? s.joins j with
  | none => s
  | some jn =>
    if jn.state ≠ 1 && jn.contribs.all (fun c => c.state = .arrived || c.state = .settled) then
      let gen := Tab.read 0 s.joinGen j
      { s with joins := Tab.del s.joins j, joinGen := Tab.write 0 s.joinGen j (gen + 1)
               wakes := if jn.awake then s.wakes else s.wakes ++ [{ slot := j, gen := gen.toNat, status := joinStatus jn }] }
    else s

/-- How a contributor stands once its train has ended: a casualty still to be counted when `fall`, else settled. One that has arrived is no
casualty, which R342 leaves open (log 22). -/
def endContrib (fall : Bool) (jn : Join) (c : Contrib) : Contrib :=
  match c.state with
  | .arrived | .settled | .fallen => { c with stage := [] }
  | .enrolled => { c with stage := [], state := if fall && jn.state = 1 then .fallen else .settled }
  | .marked => { c with stage := [], state := .settled }

/-- A train ends: in every join in which it is enrolled, except slot `skip`, its staging is discarded. -/
def endContribs (s : State) (uid : Nat) (fall : Bool) (skip : Option Nat) : State :=
  s.joins.foldl (fun s e =>
    if some e.1 = skip then s
    else if e.2.contribs.any (·.uid = uid) then
      freeJoin (modJoin s e.1 fun jn =>
        { jn with contribs := jn.contribs.map fun c => if c.uid = uid then endContrib fall jn c else c }) e.1
    else s) s

/-! ## Tasks -/

/-- Write bytes of a task record through an address space, where it is reached (R67). -/
def writeRecord (s : State) (p asid : Nat) (va : Dword) (off : Nat) (bs : List Byte) : State :=
  match unitAccess s p asid true .store (va + BitVec.ofNat 64 off) 1 with
  | .mem pa => writeBytes s pa bs
  | _ => s

/-- The task of a train that ends after a trap becomes FAULTED (R333). -/
def faultTask (s : State) (tr : Train) (kind : Nat) : State :=
  match tr.task with
  | none => s
  | some va => writeRecord s tr.part tr.asid va 0x38 [4, BitVec.ofNat 8 kind]

/-- The partition's ready queue of a priority. -/
def readyQueue (s : State) (p prio : Nat) : List ReadyRec := Tab.read [] (partAt s p).ready prio
def setReadyQueue (s : State) (p prio : Nat) (q : List ReadyRec) : State :=
  modPart s p fun x => { x with ready := Tab.write [] x.ready prio q }

/-- The priority of a task record. -/
def recordPrio (s : State) (p asid : Nat) (va : Dword) : Nat :=
  match unitAccess s p asid true .load (va + 0x28) 8 with
  | .mem pa => bitsAt (readMem s pa 8) 32 3
  | _ => 0

/-- The records of one partition's queues that satisfy a test. -/
def countReady (q : Part) (p : ReadyRec → Bool) : Nat := q.ready.foldl (fun n e => n + (e.2.filter p).length) 0

/-- The hardware entries in use, over all partitions. -/
def hardwareReady (s : State) : Nat := s.parts.foldl (fun n e => n + countReady e.2 fun r => !r.spilled) 0

/-- A record returns to the head of the ready queue of a priority with STATE = READY (R314, R330); it spills where the hardware is full
(R327). -/
def requeueAt (s : State) (p asid : Nat) (va : Dword) (prio : Nat) : State :=
  let s := writeRecord s p asid va 0x38 [1]
  setReadyQueue s p prio ({ va := va, asid := asid, spilled := hardwareReady s ≥ 65536 } :: readyQueue s p prio)

/-- A record returns to the queue of its PRIO. -/
def requeue (s : State) (p asid : Nat) (va : Dword) : State := requeueAt s p asid va (recordPrio s p asid va)

/-- The record that a parked dispatch holds goes back (R330). -/
def returnHeld (s : State) (k : Nat) : State :=
  match train? s k with
  | none => s
  | some tr =>
    match tr.held with
    | none => s
    | some r => modTrain (requeueAt s tr.part tr.asid r.1 r.2) k fun tr => { tr with held := none }

/-! ## Barriers (R199, R257 to R259) -/

/-- The state code of a thread that the XST register holds. -/
def xstate (tr : Train) (t : Nat) : Nat := (Tab.read 0 tr.xstate t).toNat

/-- The live threads that have arrived at a barrier and not left it: held, or held when the handled trap was taken (R380). What the
handler writes to XST counts from the return on (R381, log 28). -/
def arrivedBar (tr : Train) : Mask := live tr &&& (tr.heldBar ||| tr.xbar)
def arrivedGbar (tr : Train) : Mask := live tr &&& (tr.heldGbar ||| tr.xgbar)

/-- The saved state of the lanes that count as arrived at a barrier while their train is in its handler becomes deferred, where the handler
has not replaced it (R259, R380); with `past`, their saved PC moves past the barrier instruction. -/
def deferSaved (tr : Train) (gang past : Bool) : Train :=
  let m := if gang then tr.xgbar else tr.xbar
  let code := if gang then 3 else 2
  let tr := (tids.filter fun t => m.getLsbD t && xstate tr t = code).foldl (fun tr t =>
    { tr with xstate := Tab.write 0 tr.xstate t 1
              xpc := if past then Tab.write 0 tr.xpc t (Tab.read 0 tr.xpc t + 8) else tr.xpc }) tr
  if gang then { tr with xgbar := 0 } else { tr with xbar := 0 }

/-- Threads of a mask leave a barrier: past the 64-bit barrier instruction, no longer held; a selection follows for a train
with nothing else to run (R252, R257). -/
def leaveBarrier (tr : Train) (gang : Bool) : Train :=
  let h := if gang then tr.heldGbar else tr.heldBar
  let pcf := fun t => if h.getLsbD t then pcOf tr t + 8 else pcOf tr t
  let idle : Bool := tr.selected = 0
  let tr := if gang then { tr with heldGbar := 0 } else { tr with heldBar := 0 }
  let tr := if idle then selectWith tr pcf
            else { tr with pcs := pcTable (~~~tr.selected) pcf }
  deferSaved tr gang true

/-- Whether every thread of a workgroup has arrived at a barrier or exited. -/
def allArrived (s : State) (w : Nat) (gang : Bool) : Bool :=
  (trainsOfWg s w).all fun k => (train? s k).all fun tr =>
    live tr &&& ~~~(if gang then arrivedGbar tr else arrivedBar tr) = 0

def anyArrived (s : State) (w : Nat) (gang : Bool) : Bool :=
  (trainsOfWg s w).any fun k => (train? s k).any fun tr => (if gang then arrivedGbar tr else arrivedBar tr) ≠ 0

/-- The accesses before a barrier are performed, loads and stores (R199, R212); then the threads leave it. -/
def releaseBarrier (s : State) (w : Nat) (gang : Bool) : State :=
  (trainsOfWg s w).foldl (fun s k =>
    let s := performEarlier s k
    match train? s k with
    | none => s
    | some tr =>
      let s := modTrain s k fun tr => leaveBarrier tr gang
      if tr.selected = 0 && tr.block.isNone then unblock s k else s) s

/-- The workgroups of the gang of a workgroup, itself among them (R313). -/
def gangOf (s : State) (w : Nat) : List Nat :=
  match wg? s w with
  | none => []
  | some g =>
    let size := if g.gang = 1 then 2 else 4
    if g.gang = 0 then [w]
    else (s.wgs.filter fun e => e.2.launch = g.launch && e.2.core / size = g.core / size).map (·.1)

/-- The exchange banks of a member: its front and shadow windows swap (R368), and what threads sent after their arrival goes to the
new shadow (R212). A workgroup of no gang, whose threads only a handler can have made held at `gbar`, has no exchange bank (log 28). -/
def swapWindows (g : Wg) : Wg :=
  if g.gang = 0 then g else
  let x := g.pad * 256 - 32768
  let front := Tab.readList 0 g.sp x 16384
  let shadow := Tab.readList 0 g.sp (x + 16384) 16384
  let sp := Tab.writeList 0 (Tab.writeList 0 g.sp x shadow) (x + 16384) front
  { g with sp := g.lateXst.foldl (fun m e => Tab.writeList 0 m e.1 e.2) sp, lateXst := [] }

/-- Complete the barriers of a workgroup that are complete (R257, R258). -/
def settleBarriers (s : State) (w : Nat) : State :=
  let s := if anyArrived s w false && allArrived s w false then releaseBarrier s w false else s
  let gang := gangOf s w
  if gang.any (fun g => anyArrived s g true) && gang.all (fun g => allArrived s g true) then
    let s := gang.foldl (fun s g => modWg s g swapWindows) s
    gang.foldl (fun s g => releaseBarrier s g true) s
  else s

/-- An arrival or an exit restarts the barrier stall timers (R259). -/
def touchBarriers (s : State) (w : Nat) : State :=
  let s := modWg s w fun g => { g with bSince := s.clk, qSince := s.clk }
  (gangOf s w).foldl (fun s g => modWg s g fun x => { x with gSince := s.clk }) s

/-! ## Ends -/

/-- Whether a wait is for the save of a workgroup, and where its image goes. -/
def savesWg (uid : Nat) : Block → Option Dword
  | .ctxs u addr => if u = uid then some addr else none
  | _ => none

/-- Where a train asked for the image of a workgroup, if it waits for that save, its handler apart. -/
def asksSave (uid : Nat) (tr : Train) : Option Dword :=
  (tr.block.bind (savesWg uid)).or (tr.asides.findSome? fun a => if a.result.isNone then a.block.bind (savesWg uid) else none)

/-- The trains that wait for the save of a workgroup. -/
def saveWaiters (s : State) (uid : Nat) : List Nat := trainsWhere s fun _ t => (asksSave uid t).isSome

/-- A train's wait for the save of a workgroup ends. -/
def finishSave (s : State) (k uid : Nat) (val : Dword) : State :=
  if (train? s k).any fun t => (t.block.bind (savesWg uid)).isSome then finishWait s k val
  else modTrain s k (answerAside (fun b => (savesWg uid b).isSome) val)

/-- Every train that waits for the save of a workgroup completes its `ctxs` (R403). -/
def finishSaves (s : State) (uid : Nat) (val : Dword) : State :=
  answerAsides ((saveWaiters s uid).foldl (fun s k => finishSave s k uid val) s) (fun b => (savesWg uid b).isSome) val

/-- A workgroup of a launch has ended; with `trig`, by `exit`, which counts as its trigger (R323). -/
def wgEnded (s : State) (w : Nat) (trig : Bool) : State :=
  match wg? s w with
  | none => s
  | some g =>
    let others := (gangOf s w).filter (· ≠ w)
    let s := finishSaves { s with wgs := Tab.del s.wgs w } g.uid Rc.invalid
    let s := modLaunch s g.launch fun l =>
      { l with trig := if trig && !l.trig.contains g.wgid then l.trig ++ [g.wgid] else l.trig }
    match others with
    | o :: _ => settleBarriers s o
    | [] => s

/-- Whether an engine operation reads or writes tiles: a `copy` with STK or DTK, a `dec` with OKIND (R363, R371). -/
def EngOp.usesTiles (o : EngOp) : Bool :=
  let w := (o.desc.getD 5 0).toNat
  match o.kind with
  | .copy => bitsAt w 0 2 ≠ 0
  | .dec => bitsAt w 38 1 = 1
  | .pyr => false

/-- Whether operations that use the tiles of a workgroup, named by its identity, are not complete (R360). -/
def tilesInUse (s : State) (uid : Nat) : Bool :=
  s.ops.any fun e => e.2.wg = some uid && EngOp.usesTiles e.2

/-- The last train of a workgroup has ended: the workgroup ends once no operation uses its tiles. -/
def closeWg (s : State) (w : Nat) (trig : Bool) : State :=
  match wg? s w with
  | none => s
  | some g => if tilesInUse s g.uid then putWg s w { g with ended := some trig } else wgEnded s w trig

/-- Whether a train has a matrix instruction that is not complete (R132). -/
def hasMatrix (s : State) (tr : Train) : Bool := (wgOf s tr).any fun g => g.mq.any (·.uid = tr.uid)

/-- A train whose 64 threads have exited ends once its matrix instructions are complete; its workgroup ends with its last
train (R256, R299). -/
def settleTrain (s : State) (k : Nat) : State :=
  match train? s k with
  | none => s
  | some tr =>
    if tr.exited ≠ allThreads then s
    else if hasMatrix s tr then modTrain s k fun tr => { tr with block := some .draining }
    else
      let s := performAll s k
      let s := endContribs s tr.uid false none
      let s := dropTrain s k
      match tr.wg with
      | some w => if (trainsOfWg s w).isEmpty then closeWg s w true else s
      | none => s

/-- Threads exit (R256): stores performed, the launch's counter, the barriers, a selection, and the end of the train. The
selected threads that go on have the PCs given. -/
def exitThreads (s : State) (k : Nat) (m : Mask) (pcf : Nat → Dword) : State :=
  let s := performAll s k
  match train? s k with
  | none => s
  | some tr =>
    let n := countMask (m &&& live tr)
    let s := match tr.launch with
      | some l => if tr.act.isNone then modLaunch s l fun x => { x with exits := (x.exits + n) % 2 ^ 64 } else s
      | none => s
    let s := modTrain s k fun tr =>
      selectWith { tr with exited := tr.exited ||| m, heldBar := tr.heldBar &&& ~~~m, heldGbar := tr.heldGbar &&& ~~~m } pcf
    let s := match tr.wg with
      | some w => settleBarriers (touchBarriers s w) w
      | none => s
    settleTrain s k

/-- The activations of some threads of a train end by termination (R285). -/
def failLanes (s : State) (k : Nat) (m : Mask) : State :=
  match train? s k with
  | some { act := some a, .. } =>
    let gone := a.wakes.filter fun e => m.getLsbD e.1
    let s := modLine s a.line fun ln =>
      if ln.gen = a.gen then ln.endActivations s.clk (gone.map fun e => (e.2.1, .fail)) else ln
    modTrain s k fun tr => { tr with act := some { a with wakes := a.wakes.filter fun e => !m.getLsbD e.1 } }
  | _ => s

/-- Every activation of a train ends by termination. -/
def failActivations (s : State) (k : Nat) : State := failLanes s k allThreads

/-- A train is ended by software, by termination or by reset: its issued stores are performed, its claims are dropped, and
it is a casualty of its joins (R162, R285, R330, R342). -/
def killTrain (s : State) (k : Nat) : State :=
  let s := failActivations (returnHeld (unlinkFault (withdrawAlloc (performAll s k) k) k) k) k
  match train? s k with
  | none => s
  | some tr =>
    let s := endContribs s tr.uid true none
    dropTrain (freeServices s fun e => e.uid = tr.uid) k

/-- A workgroup is killed with all its trains. -/
def killWg (s : State) (w : Nat) : State := closeWg ((trainsOfWg s w).foldl killTrain s) w false

/-- A fault of a launch (R321): the first one is recorded, with the first task that faulted (R319), and every one counts. -/
def recordFault (s : State) (l : Nat) (f : FaultInfo) : State :=
  modLaunch s l fun x =>
    let first := x.ffault.getD f
    { x with nfault := if x.nfault < 2 ^ 31 - 1 then x.nfault + 1 else x.nfault,
             ffault := some { first with task := if first.task = 0 then f.task else first.task } }

/-- System software or hardware ends a train after a trap: its workgroup as faulted, or its activations (R321, R333, R382,
R383). The train is one fault, and so is every other task train that ends with it. -/
def endFaulted (s : State) (k : Nat) (kind cause : Nat) (pc : Dword) : State :=
  match train? s k with
  | none => s
  | some tr =>
    match tr.wg with
    | none => killTrain s k
    | some w =>
      let wgid := (wg? s w).elim 0 (·.wgid)
      let record := fun (s : State) (task : Dword) => tr.launch.elim s fun l =>
        recordFault s l { kind := kind, cause := cause, pc := pc, core := tr.core, wgid := wgid, task := task }
      let others := (trainsOfWg s w).filterMap fun j => if j = k then none else (train? s j).bind (·.task)
      let s := others.foldl record (record s (tr.task.getD 0))
      let s := (trainsOfWg s w).foldl (fun s k => match train? s k with | some t => faultTask s t kind | none => s) s
      killWg s w

end Sys2Proof.Machine
end

