-- ==== Sys2Proof/Machine/OpEnds.lean ====
section
/-! DEFINITION. Futures and the completion of engine operations (R261 to R267, R358 to R360), and the termination of a launch
(R322). -/

namespace Sys2Proof.Machine

/-! ## Status words and handles (R262, R263) -/

/-- The status word of R263. -/
def statusWord (code cause flags detail : Nat) : Dword :=
  BitVec.ofNat 64 (code % 256 + 2 ^ 8 * (cause % 256) + 2 ^ 16 * (flags % 128) + 2 ^ 32 * (detail % 2 ^ 32))

namespace Code
def done : Nat := 0
def cancelled : Nat := 1
def faulted : Nat := 2
def mmafail : Nat := 3
def terminated : Nat := 4
def invalid : Nat := 5
def remapped : Nat := 16
def damaged : Nat := 17
def unsupported : Nat := 18
def noroom : Nat := 19
end Code

/-- The handle of a future table entry. -/
def futureHandle (s : State) (i : Nat) (f : Future) : Dword :=
  BitVec.ofNat 64 (i + 2 ^ 20 * f.asid + 2 ^ 32 * (Tab.read 0 s.futGen i).toNat)

/-- The live future table entry that a handle names for a reader's ASID; none for a stale handle (R264). -/
def futureOf (s : State) (asid : Nat) (h : Dword) : Option (Nat × Future) :=
  let i := bitsAt h.toNat 0 20
  match Tab.get? s.futures i with
  | some f =>
    if bitsAt h.toNat 20 12 = asid && f.asid = asid && bitsAt h.toNat 32 16 = (Tab.read 0 s.futGen i).toNat then some (i, f)
    else none
  | none => none

/-- The registers of a train that carry a mark with a handle receive the status word, and the marks clear (R261). -/
def deliverMarks (tr : Train) (h st : Dword) : Train :=
  (tr.marks.filter fun e => e.2 = .pending h).foldl (fun tr e =>
    { wrS tr e.1 st with marks := Tab.put tr.marks e.1 .told }) tr

/-- A train blocked on a mark that has cleared goes on. -/
def releaseMark (s : State) (k : Nat) : State :=
  match train? s k with
  | some tr => match tr.block with
    | some (.mark n) => if (pendingMark tr n).isNone then unblock s k else s
    | _ => s
  | none => s

/-- The operation of a future table entry completes with a status word (R261, R265). -/
def completeFuture (s : State) (i : Nat) (st : Dword) : State :=
  match Tab.get? s.futures i with
  | none => s
  | some f =>
    if f.status.isSome then s
    else
      let h := futureHandle s i f
      let s := { s with futures := Tab.put s.futures i { f with status := some st } }
      let marked := trainsWhere s fun _ t => t.marks.any fun e => e.2 = .pending h
      let s := marked.foldl (fun s k => releaseMark (modTrain s k fun tr => deliverMarks tr h st) k) s
      finishWaits s (.future h) st

/-! ## The tiles of an operation (R169, R359) -/

namespace EngOp

def word (o : EngOp) (i : Nat) : Nat := (o.desc.getD i 0).toNat

/-- The tile that an operation drains. -/
def srcTile (o : EngOp) : Option Nat :=
  match o.kind with
  | .copy => if bitsAt (o.word 5) 0 1 = 1 then some (bitsAt (o.word 5) 2 6) else none
  | _ => none

/-- The tile that an operation fills. -/
def dstTile (o : EngOp) : Option Nat :=
  match o.kind with
  | .copy => if bitsAt (o.word 5) 1 1 = 1 then some (bitsAt (o.word 5) 8 6) else none
  | .dec => if bitsAt (o.word 5) 38 1 = 1 then some (bitsAt (o.word 5) 32 6) else none
  | .pyr => none

end EngOp

/-- The resident workgroup with an identity. -/
def wgByUid (s : State) (uid : Nat) : Option Nat := (s.wgs.find? fun e => e.2.uid = uid).map (·.1)

/-- Set the state of a tile whose engine phase begins or ends (R169). -/
def phaseTile (s : State) (uid : Option Nat) (t : Option Nat) (st : Nat) (engine : Bool) : State :=
  match uid.bind (wgByUid s), t with
  | some w, some i => modWg s w fun g =>
      { g with tiles := Tab.write {} g.tiles i { Tab.read {} g.tiles i with state := st, engine := engine } }
  | _, _ => s

/-- The tiles of a started operation end their phase: moved when it succeeded, as before when it did not (R359). -/
def endPhases (s : State) (o : EngOp) (ok : Bool) : State :=
  let s := phaseTile s o.wg o.srcTile (if ok then 0 else 2) false
  phaseTile s o.wg o.dstTile (if ok then 2 else 0) false

/-- A fault buffer entry for an operation (R359, R160), if one is free: its key. -/
def takeOpFault (s : State) (op : Nat) (o : EngOp) (va : Dword) (pte : Nat) : Option (Nat × State) :=
  (Tab.firstFree s.faults 1024 (o.cluster * 1024)).map fun i =>
    let (order, s) := freshId s
    let f : FaultEnt := { va := va, asid := o.asid, part := o.part, kind := 3, core := o.core % 4, slot := o.slot, pc := o.pc,
                          links := 0, pte := pte, op := some op, order := order }
    (i, setIrq { s with faults := Tab.put s.faults i f } o.part 0)

/-- The status word of a COPY packet goes to STATADDR, or a violation there is logged; where it does not translate, the page-table
entry at which the walk stopped (R163, R418). -/
def writePacketStatus (s : State) (o : EngOp) (st : Dword) : Except Nat State :=
  if o.packet.isNone then .ok s
  else match unitAccess s o.part o.asid o.priv .store o.statVA 8 with
    | .mem pa => .ok (writeMem s pa 8 st.toNat)
    | .bad cause => .ok (logViolation s o.part o.statVA 0 cause 0xFF o.asid 0 0)
    | .fault pte => .error pte
    | .remote _ _ => .ok s

/-- A workgroup without trains ends once no operation uses its tiles (R360). -/
def settleWg (s : State) (uid : Option Nat) : State :=
  match uid.bind (wgByUid s) with
  | some w => match (wg? s w).bind (·.ended) with
    | some trig => closeWg s w trig
    | none => s
  | none => s

/-- Whether an operation has begun and its tiles are in their phases (R359). -/
def OpState.started : OpState → Bool
  | .running | .paused _ => true
  | _ => false

/-- CLOSE frees the stream slot of a decode after the operation (R371). -/
def closeStream (s : State) (o : EngOp) : State :=
  if o.kind = .dec && bitsAt (o.word 1) 35 1 = 1 then { s with streams := Tab.del s.streams (bitsAt (o.word 1) 36 8) } else s

/-- The entry on which an operation waits is free. -/
def freeOpFault (s : State) : OpState → State
  | .paused i | .owing _ (some i) => dropLink s i
  | _ => s

/-- An operation is gone: its future completes, and its workgroup may end. -/
def dropOp (s : State) (o : Nat) (op : EngOp) (st : Dword) : State :=
  let s := { s with ops := Tab.del s.ops o }
  let s := match op.future with
    | some i => completeFuture s i st
    | none => s
  settleWg s op.wg

/-- An engine operation completes with a status word; `ok` says that its tiles' phases ended well (R358 to R360). A COPY packet's
operation owes its status word while STATADDR does not translate (R418, log 36). -/
def endOp (s : State) (o : Nat) (ok : Bool) (st : Dword) : State :=
  match Tab.get? s.ops o with
  | none => s
  | some op =>
    let s := if op.state.started then closeStream (endPhases s op ok) op else s
    let s := freeOpFault s op.state
    match writePacketStatus s op st with
    | .ok s => dropOp s o op st
    | .error pte => match takeOpFault s o op op.statVA pte with
      | some (i, s) => modOp s o fun op => { op with state := .owing st (some i) }
      | none => modOp s o fun op => { op with state := .owing st none }

/-- Whether an operation still has pieces to write. -/
def EngOp.unfinished (o : EngOp) : Bool :=
  match o.state with
  | .placed | .owing _ _ => false
  | _ => true

/-- The operations that satisfy a test complete with a code, their pieces so far standing (R360). -/
def endOpsWhere (s : State) (p : EngOp → Bool) (code : Nat) : State :=
  (s.ops.filter fun e => p e.2).foldl (fun s e => endOp s e.1 false (statusWord code 0 0 e.2.pieces.length)) s

/-- Whether the follow-on of an operation is in its workgroup's matrix queue. -/
def followQueued (s : State) (o : Nat) : Bool := s.wgs.any fun e => e.2.mq.any fun m => m.follow = some o

/-- Ask an operation to stop (R267): 0 when the request is accepted. A copy whose follow-on has been placed has completed as far as
a request can reach it (R365). -/
def cancelOp (s : State) (o : Nat) : State × Dword :=
  match Tab.get? s.ops o with
  | none => (s, 1)
  | some op =>
    if followQueued s o then (s, 1)
    else (endOp s o false (statusWord Code.cancelled 0 0 (if op.state = .queued then 0 else op.pieces.length)), 0)

/-! ## Termination -/

/-- A launch is terminated (R322): its workgroups are killed, resident or saved; it completes TERMINATED. -/
def terminateLaunch (s : State) (l : Nat) : State :=
  let s := endOpsWhere s (fun o => o.launch = some l) Code.terminated
  let s := (s.wgs.filter fun e => e.2.launch = l).foldl (fun s e => killWg s e.1) s
  let dead := s.saved.filter fun e => e.2.wg.launch = l
  let s := dead.foldl (fun s e => e.2.trains.foldl (fun s t => endContribs s t.uid true none) s) s
  let uids := dead.flatMap fun e => e.2.trains.map (·.uid)
  let s := freeServices { s with saved := s.saved.filter fun e => e.2.wg.launch ≠ l } fun e => uids.contains e.uid
  modLaunch s l fun x => { x with doomed := true, left := [] }

end Sys2Proof.Machine
end

