-- ==== Sys2Proof/Machine/Ops.lean ====
section
/-! DEFINITION. Taking a trap, returning from one, and ending work after one (R163, R164, R376 to R383). -/

namespace Sys2Proof.Machine

/-! ## Trap kinds (R377) -/

namespace Trap
def illegal : Nat := 1
def operand : Nat := 2
def privilege : Nat := 3
def access : Nat := 4
def matrix : Nat := 5
def queue : Nat := 6
def control : Nat := 7
def window : Nat := 8
def task : Nat := 9
def engine : Nat := 10
def flag : Nat := 11
def software : Nat := 12
def double : Nat := 13
end Trap

/-! ## Delivery (R380) and return (R381) -/

/-- The state code of a thread in XST (R407). -/
def laneState (tr : Train) (t : Nat) : BitVec 3 :=
  if tr.exited.getLsbD t then 4 else if tr.heldBar.getLsbD t then 2 else if tr.heldGbar.getLsbD t then 3
  else if tr.selected.getLsbD t then 0 else 1

/-- XG: g1 to g7 and the flag word (R407). -/
def xgOf (tr : Train) : BitVec 15 := BitVec.ofNat 15 (2 * bitsAt tr.g.toNat 1 7 + 256 * tr.flags.toNat)

/-- The lanes' saved predicates: live lanes take the present ones, exited lanes keep what they had. -/
def saveK (tr : Train) : Tab Mask :=
  (List.range 8).foldl (fun m n =>
    if n = 0 then m
    else Tab.write 0 m n ((rdK tr n &&& live tr) ||| (Tab.read 0 m n &&& tr.exited))) tr.xk

/-- The live lanes whose state code is `n`. -/
def lanesWith (tr : Train) (code : Nat → BitVec 3) (n : BitVec 3) : Mask := live tr &&& maskOf fun t => code t = n

/-- Deliver the head record (R380): every lane that has not exited saves its PC and state and goes to the handler; the
train becomes privileged; the latches are lost; a held lane stays counted as arrived. `free` numbers the free values of the lost
latches. -/
def deliver (tr : Train) (tvec : Dword) (pcf : Nat → Dword) (code : Nat → BitVec 3) (free : Nat) : Train :=
  let lanes := Mask.threads (live tr)
  { tr with
    xpc := lanes.foldl (fun m t => Tab.write 0 m t (BitVec.ofNat 64 (bitsAt (pcf t).toNat 0 48))) tr.xpc
    xstate := lanes.foldl (fun m t => Tab.write 0 m t (code t)) tr.xstate
    xk := saveK tr
    xg := xgOf tr
    flags := 0
    ppriv := tr.priv, priv := true, intrap := true
    pcs := pcTable tr.exited pcf
    pc := tvec, selected := live tr, heldBar := 0, heldGbar := 0
    xbar := lanesWith tr code 2, xgbar := lanesWith tr code 3
    block := none, atWait := none, deadline := none, replies := [], access := none
    latches := { b0 := .lost free, b1 := .lost (free + 1), b2 := .lost (free + 2), b3 := .lost (free + 3) }
    chain := { tr.chain with len := 0, reads := [], selfWrite := false } }

/-- The handler entry of a partition, bits [1:0] zero (R406). -/
def tvecOf (s : State) (p : Nat) : Dword := (partAt s p).tvec &&& ~~~(3 : Dword)

/-- Deliver the head record of a train from its present state. -/
def deliverHead (s : State) (k : Nat) : State :=
  match train? s k with
  | none => s
  | some tr =>
    let n := s.freeCount
    modTrain { s with freeCount := n + 4 } k fun tr0 =>
      deliver tr0 (tvecOf s tr.part) (pcOf tr0) (laneState tr0) n

/-- A record behind eight others is discarded and counted in the last one (R379). -/
def enqueueTrap (q : List TrapRec) (r : TrapRec) : List TrapRec :=
  if q.length < 8 then q ++ [r]
  else match q.reverse with
    | [] => q
    | l :: rest => (({ l with overrun := if l.overrun < 15 then l.overrun + 1 else 15 } : TrapRec) :: rest).reverse

/-- TAKING A TRAP, the one operation that every trap of the machine goes through (R378 to R380, R382); `waits` says that it is
asynchronous. The train's PC is already the resume PC. An exact trap while one is handled is a double fault. -/
def takeTrapAs (s : State) (k : Nat) (r : TrapRec) (waits : Bool) : State :=
  match train? s k with
  | none => s
  | some tr =>
    if waits then modTrain s k fun tr => { tr with tq := enqueueTrap tr.tq r }
    else if tr.intrap then endFaulted (setIrq s tr.part 2) k Trap.double r.kind r.pc
    else deliverHead (modTrain (unblock (withdrawAlloc s k) k) k fun tr => { tr with tq := enqueueTrap tr.tq r }) k

/-- A trap whose record tells whether it is asynchronous: every one but the queue-stall trap of R136. -/
def takeTrap (s : State) (k : Nat) (r : TrapRec) : State := takeTrapAs s k r r.async

/-- The logged causes (R164). -/
def loggedCause (r : TrapRec) : Bool := r.kind = Trap.access && 1 ≤ r.cause && r.cause ≤ 7

/-- Write the violation log for a trap that R164 marks as logged. -/
def logTrap (s : State) (k : Nat) (r : TrapRec) : State :=
  match train? s k with
  | none => s
  | some tr => if loggedCause r then logViolation s tr.part r.addr r.pc r.cause tr.core tr.asid tr.slot r.mask else s

/-- A trap of the instruction that the row-progress register describes ends what it records (R143). -/
def clearRows (tr : Train) (r : TrapRec) : Train :=
  if !r.async && tr.rowprog.valid && tr.rowprog.pc = r.pc then { tr with rowprog := {} } else tr

/-- A trap whose instruction has no effect: the resume PC is the head of the chain (R54, R164). A record without a mask
names the selected threads (R378). `waits` says that it is asynchronous. -/
def raiseAtAs (s : State) (k : Nat) (head : Dword) (r : TrapRec) (waits : Bool) : State :=
  match train? s k with
  | none => s
  | some tr =>
    let r := { r with rpc := head, mask := if r.mask = 0 then tr.selected else r.mask }
    takeTrapAs (logTrap (modTrain s k fun tr => clearRows (rewindTo tr head) r) k r) k r waits

/-- Such a trap whose record tells whether it is asynchronous. -/
def raiseAt (s : State) (k : Nat) (head : Dword) (r : TrapRec) : State := raiseAtAs s k head r r.async

/-- A trap after its instruction completed: the resume PC is the next instruction, where the train already stands
(R163, R268, R269). -/
def raiseAfter (s : State) (k : Nat) (r : TrapRec) : State :=
  match train? s k with
  | none => s
  | some tr =>
    let r := { r with rpc := tr.pc, mask := if r.mask = 0 then tr.selected else r.mask }
    takeTrap (logTrap s k r) k r

/-- A wait that was set aside is forgotten when the handler has moved every thread from it. -/
def keepAsides (tr : Train) : Train :=
  { tr with asides := tr.asides.filter fun a => (Mask.threads (live tr)).any fun t => pcOf tr t = a.pc }

/-- Threads have arrived at the barriers of their train's workgroup (R257 to R259); a train without a workgroup has none. -/
def arrive (s : State) (k : Nat) : State :=
  match (train? s k).bind (·.wg) with
  | some w => settleBarriers (touchBarriers s w) w
  | none => s

/-- The state codes of a train's lanes from which a further record is delivered after an `eret`: those restored, but for a lane that its
barrier has let go since, which is deferred. -/
def resumedState (tr : Train) (code : Nat → BitVec 3) (t : Nat) : BitVec 3 :=
  if tr.exited.getLsbD t then 4 else if tr.heldBar.getLsbD t then 2 else if tr.heldGbar.getLsbD t then 3
  else if code t = 2 ∨ code t = 3 then 1 else code t

/-- Deliver the head record of a train from the state that its lanes were restored to (R380, R381). -/
def deliverFrom (s : State) (k : Nat) (code : Nat → BitVec 3) : State :=
  let n := s.freeCount
  modTrain { s with freeCount := n + 4 } k fun tr => deliver tr (tvecOf s tr.part) (pcOf tr) (resumedState tr code) n

/-- RETURNING FROM A TRAP (R381): the head record leaves the queue, the lanes take their saved PCs, states and predicates,
and a further record is delivered at once from that state; otherwise a selection follows. A lane whose saved state the
handler made EXITED exits, and its activation, which ends by neither `wyield` nor `wend`, ends by termination (R285, log 16).
A lane whose saved state the handler made HELD arrives at that barrier by the return, which can complete it (R257, R258, log 28).
`eret` is terminal, so the instruction after it names no latch (R51, R52). -/
def returnTrap (s : State) (k : Nat) : State :=
  match train? s k with
  | none => s
  | some tr0 =>
    let lanes := Mask.threads (live tr0)
    let code := fun t => Tab.read 0 tr0.xstate t
    let pcf := fun t => if tr0.exited.getLsbD t then pcOf tr0 t else Tab.read 0 tr0.xpc t
    let ks := (List.range 8).foldl (fun m n =>
      if n = 0 then m
      else Tab.write 0 m n ((Tab.read 0 tr0.xk n &&& live tr0) ||| (Tab.read 0 m n &&& tr0.exited))) tr0.k
    let bar := lanesWith tr0 code 2
    let gbar := lanesWith tr0 code 3
    let exits := maskOf fun t => lanes.contains t && code t = 4
    let tr := { tr0 with
      tq := tr0.tq.drop 1, k := ks, g := BitVec.ofNat 8 (1 + 2 * bitsAt tr0.xg.toNat 1 7)
      flags := BitVec.ofNat 7 (bitsAt tr0.xg.toNat 8 7), priv := tr0.ppriv, intrap := false
      heldBar := bar, heldGbar := gbar, xbar := 0, xgbar := 0
      chain := { tr0.chain with started := true, terminal := true, len := 0, reads := [], selfWrite := false } }
    let s := loseLatches (putTrain s k (keepAsides (selectWith tr pcf))) k
    let s := if exits ≠ 0 then exitThreads (failLanes s k exits) k exits pcf
      else if (bar &&& ~~~tr0.xbar) ||| (gbar &&& ~~~tr0.xgbar) ≠ 0 then arrive s k else s
    match train? s k with
    | none => s
    | some _ => if (tr0.tq.drop 1).isEmpty then s else deliverFrom s k code

/-- Work ends by TEXIT (R383): value 1 ends the workgroup as faulted, value 2 terminates the launch. `pc` is the address of
the write. -/
def workExit (s : State) (k : Nat) (value : Nat) (pc : Dword) : State :=
  match train? s k with
  | none => s
  | some tr =>
    if value = 1 then
      match tr.intrap, tr.tq with
      | true, r :: _ => endFaulted s k r.kind r.cause r.pc
      | _, _ => endFaulted s k Trap.software 0 pc
    else if value = 2 then
      match tr.launch with
      | some l => terminateLaunch s l
      | none =>
        let l := tr.act.bind fun a => (Tab.get? s.lines a.line).bind (·.launch)
        let s := killTrain s k
        l.elim s (terminateLaunch s)
    else s

end Sys2Proof.Machine
end

