-- ==== Sys2Proof/Machine/Operands.lean ====
section
/-! DEFINITION. Operands (R36, R37, R43 to R47, R51 to R53, R231 to R235): what an instruction executes for, what its fields
read and write, and the checks that depend on the train. -/

namespace Sys2Proof.Machine

/-- What an instruction sees at its issue: itself, the train's key and the train, the fields, the head of its chain, whether its
guard holds (U = 1) or for which threads (U = 0), and what its queue fields popped. -/
structure Ctx where
  instr : Instr
  k     : Nat
  tr    : Train
  x     : Args
  head  : Dword
  mask  : Mask
  popA  : List (Nat × Dword) := []
  popB  : List (Nat × Dword) := []
  popC  : List (Nat × Dword) := []
  clk   : Nat := 0
  wgid  : Nat := 0
  imm   : ImmField := .none

/-- The tid that stands for the train in a U = 1 instruction. -/
def uniTid : Nat := 64

/-- Whether the guard holds for a thread (R36). -/
def guardMask (tr : Train) (x : Args) : Mask :=
  if x.u then
    if rdG tr x.kg.toNat != x.kn then allThreads else 0
  else
    let m := rdK tr x.kg.toNat
    if x.kn then ~~~m else m

/-- The executing threads of a U = 0 instruction; for U = 1 the selected threads when the guard holds. -/
def execMask (tr : Train) (x : Args) : Mask := tr.selected &&& guardMask tr x

namespace Ctx

/-- Whether anything executes. -/
def on (c : Ctx) : Bool := c.mask ≠ 0

/-- The tids that execute: the threads in ascending order, or the train. -/
def lanes (c : Ctx) : List Nat := if c.x.u then (if c.on then [uniTid] else []) else Mask.threads c.mask

def pc (c : Ctx) : Dword := c.tr.pc

end Ctx

/-! ## Sources -/

/-- The width of an operand position: a register, or a pair (R46). -/
def opndWidth (t : Ty) : Nat := if t.wide then 64 else 32

/-- An 8-bit immediate by the type it stands for (R45). -/
def immValue (t : Ty) (i : BitVec 8) : Dword :=
  match t with
  | .f32 | .f16 | .bf16 => BitVec.ofNat 64 (roundEx (fmtOf t) .rn false (.ofInt i.toInt)).code
  | .d8 => BitVec.ofNat 64 i.toNat
  | .h4 => BitVec.ofNat 64 (i.toNat % 16)
  | t => BitVec.ofNat 64 (wrap i.toInt (opndWidth t))

/-- The value of IMM32 or EXT64 (R37). -/
def extValue (t : Ty) (e : Ext) : Dword :=
  match e with
  | .short => 0
  | .ext w => w
  | .imm w => BitVec.ofNat 64 (wrap (if t.signed then w.toInt else (w.toNat : Int)) (opndWidth t))

/-- A special operand (R44). The spec gives `reason` no value in a thread of an activation train that holds no wake-up: it is free
(log 9). -/
def specialValue (c : Ctx) (sp : Special) (t : Nat) : Dword :=
  match sp with
  | .tid => BitVec.ofNat 64 t
  | .lid => BitVec.ofNat 64 (c.tr.trn * 64 + t)
  | .beat => BitVec.ofNat 64 (t / 16)
  | .trn => BitVec.ofNat 64 c.tr.trn
  | .wgid => if c.tr.task.isSome then 0 else BitVec.ofNat 64 c.wgid
  | .wkid => c.tr.wkid
  | .reason =>
    match c.tr.act with
    | none => 0xFFFFFFFF
    | some a =>
      match Tab.get? a.wakes t with
      | none => Config.noWakeReason
      | some (_, w) =>
        let code := match w.kind with | .opened => 0 | .record => 1 | .pane => 2 | .merge => 3 | .close => 4
        BitVec.ofNat 64 (code + (if w.partly then 0x100 else 0) + (if w.expire then 0x200 else 0))
  | .clk => BitVec.ofNat 64 c.clk

/-- The bits of a register, latch, immediate or special for a thread, 64 bits wide where the position is. -/
def rdOpnd (c : Ctx) (o : Opnd) (ty : Ty) (t : Nat) : Dword :=
  let w := fun (d : Dword) => if ty.wide then d else (lowWord d).zeroExtend 64
  match o with
  | .v n => if ty.wide then joinWords (rdV c.tr n.toNat t) (rdV c.tr (n.toNat + 1) t) else (rdV c.tr n.toNat t).zeroExtend 64
  | .o n => if ty.wide then joinWords (rdO c.tr n.toNat t) (rdO c.tr (n.toNat + 1) t) else (rdO c.tr n.toNat t).zeroExtend 64
  | .b n => (rdB c.tr n.toNat t).zeroExtend 64
  | .s n => w (rdS c.tr n.toNat)
  | .special sp => w (specialValue c sp t)
  | .imm i => immValue ty i
  | .k n => if (rdK c.tr n.toNat).getLsbD t then 1 else 0
  | .g n => if rdG c.tr n.toNat then 1 else 0
  | _ => 0

/-- What a queue field popped for a thread. -/
def popped (ty : Ty) (l : List (Nat × Dword)) (t : Nat) : Dword :=
  match l.find? (·.1 = t) with
  | some (_, d) => if ty.wide then d else (lowWord d).zeroExtend 64
  | none => 0

/-- `Src(F, t)`: the value of a source field for a thread, by the type of its position. Only the field that IMM32 or EXT64
stands for takes its value (R37); 0x170 in any other field is zero. -/
def src (c : Ctx) (f : ImmField) (ty : Ty) (t : Nat) : Dword :=
  match c.x.field f with
  | .q _ => popped ty (match f with | .a => c.popA | .b => c.popB | _ => c.popC) t
  | o => if c.x.ext != .short && c.imm = f && o = .zero then extValue ty c.x.ext else rdOpnd c o ty t

/-- A source without an extension of its own: classes above 0x5F whose EXT64 is no operand. -/
def srcPlain (c : Ctx) (o : Opnd) (ty : Ty) (t : Nat) : Dword := rdOpnd c o ty t

/-- A condition operand: the predicate of a thread, or a flag. -/
def condOf (c : Ctx) (o : Opnd) (t : Nat) : Bool := (rdOpnd c o .b32 t).getLsbD 0

/-! ## Registers that an instruction reads and writes (R53, R186, R261) -/

def regsOf (wide : Bool) : Opnd → List Reg
  | .v n => if wide then [.v n.toNat, .v (n.toNat + 1)] else [.v n.toNat]
  | .o n => if wide then [.o n.toNat, .o (n.toNat + 1)] else [.o n.toNat]
  | .s n => [.s n.toNat]
  | .k n => [.k n.toNat]
  | .g n => [.g n.toNat]
  | _ => []

/-- The widths of D, A, B and C as register pairs. -/
structure Widths where
  d : Bool := false
  a : Bool := false
  b : Bool := false
  c : Bool := false

def Widths.all (w : Bool) : Widths := ⟨w, w, w, w⟩

/-- Where each instruction names register pairs (R46, R87, R174, R221, R254, R290, R361, R399). -/
def widths : Instr → Widths
  | .add _ t _ | .sub _ t _ | .mul _ t _ | .mulhi _ t | .mad _ t _ | .madhi _ t | .div _ t _ | .rem _ t | .min _ t | .max _ t
  | .abs _ t _ | .and _ t | .or _ t | .xor _ t | .andn _ t | .shl _ t | .shr _ t | .sra _ t | .rol _ t | .clz _ t | .ctz _ t
  | .popc _ t | .bfx _ t | .bfi _ t | .sel _ t | .mov _ t | .lea _ t _ | .sext _ t | .zext _ t => .all t.wide
  | .cmp _ t _ => { Widths.all t.wide with d := false }
  | .cvt _ t s => { d := t.wide, a := s.wide }
  | .red _ t _ | .scan _ t _ _ => { d := t.wide, a := t.wide }
  | .shfl _ w _ | .bcst _ w => { d := w, a := w }
  | .vote _ m => { d := m = .ballot }
  | .ld _ t _ => { d := t.wide, a := true }
  | .st _ t _ => { a := true, c := t.wide }
  | .ldp _ t _ | .ldt _ t _ => { d := t.wide }
  | .stp _ t _ | .stt _ t _ => { c := t.wide }
  | .look _ | .pref _ _ => { a := true }
  | .tagw _ => { b := true }
  | .atom x t _ => { d := t.wide, a := !x.sp, b := t.wide }
  | .cas x t => { d := t.wide, a := !x.sp, b := t.wide, c := t.wide }
  | .facc x | .faccTagged x | .faccr x _ _ _ => { a := !x.sp }
  | .waita x t _ => { d := t.wide, a := !x.sp, b := t.wide }
  | .brx _ | .ret _ => { a := true }
  | .call _ => { d := true, a := true }
  | .feed _ => { b := true }
  | .wkey _ => { d := true }
  | .xst _ w => { c := w }
  | .mfsr _ => { d := true }
  | .mtsr _ => { b := true }
  | _ => { }

/-- The registers an instruction reads: its source fields and its guard predicate or flag. -/
def regsRead (i : Instr) (x : Args) : List Reg :=
  let w := widths i
  let guard : List Reg := if x.kg = 0 then [] else if x.u then [.g x.kg.toNat] else [.k x.kg.toNat]
  let extra : List Reg := match i with
    | .wemit x => match x.a, x.b with
      | .v n, .imm m => (List.range m.toNat).map fun j => .v (n.toNat + j)
      | _, _ => []
    | _ => []
  regsOf w.a x.a ++ regsOf w.b x.b ++ regsOf w.c x.c ++ guard ++ extra

/-- The registers an instruction writes. -/
def regsWritten (i : Instr) (x : Args) : List Reg := if x.nwb then [] else regsOf (widths i).d x.d

/-- Whether an instruction names a latch. -/
def namesLatch (x : Args) : Bool := [x.a, x.b, x.c].any fun | .b _ => true | _ => false

/-- Terminal instructions (R51): classes 0x70 to 0xFF, and any that names a `q` or `t` operand. -/
def isTerminal (i : Instr) (x : Args) : Bool :=
  (i.form.any fun f => f.1 ≥ 0x70) || [x.d, x.a, x.b, x.c].any fun | .q _ => true | .t _ => true | _ => false

/-! ## Checks that depend on the train (R47, R48, R51 to R53) -/

def isPrivileged (i : Instr) : Bool := i.form.any fun f => privilegedOpc f.1

/-- R47: a `v` or `s` register beyond the declared ones. -/
def beyondDeclared (tr : Train) (x : Args) : Bool :=
  [x.d, x.a, x.b, x.c].any fun
    | .v n => vCount tr ≤ n.toNat
    | .s n => sCount tr ≤ n.toNat
    | _ => false

/-- R52, R53: the chain rules that a member breaks. The spec does not say which member breaks R53 when the head of a chain writes
a register that it reads itself: the head has executed by then, so it is the second member that traps (log 18). -/
def breaksChain (tr : Train) (i : Instr) (x : Args) : Bool :=
  namesLatch x &&
    (!tr.chain.started || tr.chain.terminal || tr.chain.len ≥ 8
      || (tr.chain.len ≠ 0 &&
          (tr.chain.selfWrite || (regsWritten i x).any fun r => (tr.chain.reads ++ regsRead i x).contains r)))

/-- The chain after an instruction at `pc` (R51). After a trap, a blocking or a restoration no instruction stands before the next
one in its chain: one that names a latch then reads lost contents (R50) and is the head of a new chain, in which the counts of R52
and the reads of R53 start anew (log 18). -/
def nextChain (ch : Chain) (i : Instr) (x : Args) (pc : Dword) : Chain :=
  let reads := regsRead i x
  if namesLatch x && ch.len ≠ 0 then
    { ch with terminal := isTerminal i x, len := ch.len + 1, reads := ch.reads ++ reads }
  else { started := true, terminal := isTerminal i x, len := 1, head := pc, reads := reads,
         selfWrite := (regsWritten i x).any fun r => reads.contains r }

/-- The head of the chain that an instruction belongs to (R51, R54). -/
def chainHead (tr : Train) (x : Args) : Dword := if namesLatch x && tr.chain.len ≠ 0 then tr.chain.head else tr.pc

/-- A U = 1 instruction whose guard fails: it has no effect on the train but the shift of the latches (R36), so it waits for nothing. -/
def guardedOff (tr : Train) (x : Args) : Bool := x.u && execMask tr x = 0

/-- The first `s` source that carries a pending mark and whose reading blocks (R54, R261); for U = 0 whatever the guard says (log 44). -/
def markedSource (tr : Train) (i : Instr) (x : Args) : Option Nat :=
  let exempt := match i with | .fwait _ | .ftest _ | .ftestH _ | .fcancel _ => true | _ => false
  if exempt || guardedOff tr x then none
  else [x.a, x.b, x.c].findSome? fun
    | .s n => if (pendingMark tr n.toNat).isSome then some n.toNat else none
    | _ => none

/-! ## Queues (R232 to R235) -/

/-- The entries that a queue field moves: for U = 1 two; else one or, 64 bits wide, two for each executing thread. -/
def queueCount (x : Args) (wide : Bool) (m : Mask) : Nat :=
  if m = 0 then 0 else if x.u then 2 else countMask m * (if wide then 2 else 1)

/-- The queue operands of an instruction: the number of a queue and how many entries are popped (A, B, C in order). -/
def queuePops (i : Instr) (x : Args) (m : Mask) : List (Nat × Nat) :=
  let w := widths i
  [(x.a, w.a), (x.b, w.b), (x.c, w.c)].filterMap fun e => match e.1 with
    | .q n => some (n.toNat, queueCount x e.2 m)
    | _ => none

def queuePush (i : Instr) (x : Args) (m : Mask) : Option (Nat × Nat) :=
  match x.d with
  | .q n => some (n.toNat, queueCount x (widths i).d m)
  | _ => none

/-- An instruction of the queue class names queues without moving entries (R231). -/
def movesQueues : Instr → Bool
  | .qbind _ | .qstat _ | .qdrain _ => false
  | _ => true

/-- Pops and pushes by queue: queue, pops, pushes. -/
def queueNeeds (i : Instr) (x : Args) (m : Mask) : List (Nat × Nat × Nat) :=
  if !movesQueues i then []
  else
    let pops := queuePops i x m
    let push := queuePush i x m
    let qs := (pops.map (·.1) ++ (push.map (·.1)).toList).eraseDups
    qs.map fun q => (q, (pops.filter (·.1 = q)).foldl (fun n e => n + e.2) 0, if push.any (·.1 = q) then push.elim 0 (·.2) else 0)

def qdesc (g : Wg) (q : Nat) : QDesc := Tab.read {} g.queues q
def QDesc.cap (d : QDesc) : Nat := d.size * 64
def setQ (g : Wg) (q : Nat) (d : QDesc) : Wg := { g with queues := Tab.write {} g.queues q d }

/-- Whether a queue allows pops and pushes now: room, entries, and no popped entry still to be written (R234). That a pop which reaches a
slot still to be written holds its train back before the issue, with nothing popped, is the model's choice (log 45). -/
def queueAllows (g : Wg) (n : Nat × Nat × Nat) : Bool :=
  let d := qdesc g n.1
  n.2.1 ≤ d.count && d.count + n.2.2 ≤ d.cap + n.2.1 && d.reserved.all fun r => n.2.1 ≤ r

inductive QueueGate where
  | open
  | wait
  | raise (cause : Nat)
  deriving DecidableEq, Repr

/-- The queue checks of an instruction (R234, R235): NOWG, UNBOUND, TOOBIG, in this order over all the queues that it names, and whether it
blocks. One that moves no entry, since no thread executes it, raises nothing, also in an activation train (log 45). -/
def queueGate (s : State) (tr : Train) (needs : List (Nat × Nat × Nat)) : QueueGate :=
  if needs.all fun n => n.2.1 = 0 && n.2.2 = 0 then .open
  else match wgOf s tr with
    | none => .raise 7
    | some g =>
      if needs.any fun n => !(qdesc g n.1).bound then .raise 1
      else if needs.any fun n => n.2.1 > (qdesc g n.1).cap || n.2.2 > (qdesc g n.1).cap then .raise 5
      else if needs.all (queueAllows g) then .open
      else .wait

/-- The scratchpad offset of entry `i` of a queue (R232). -/
def entryOffset (d : QDesc) (i : Nat) : Nat := d.base * 256 + 4 * ((d.head + i) % d.cap)

def spWord (g : Wg) (a : Nat) : Word := BitVec.ofNat 32 (ofBytes (Tab.readList 0 g.sp a 4))
def setSpWord (g : Wg) (a : Nat) (w : Word) : Wg := { g with sp := Tab.writeList 0 g.sp a (bytesOf w.toNat 4) }

/-- Pop one entry. -/
def pop1 (g : Wg) (q : Nat) : Word × Wg :=
  let d := qdesc g q
  (spWord g (entryOffset d 0),
   setQ g q { d with head := (d.head + 1) % d.cap, count := d.count - 1, reserved := d.reserved.map (· - 1) })

/-- Push one entry with its value. -/
def push1 (g : Wg) (q : Nat) (w : Word) : Wg :=
  let d := qdesc g q
  setQ (setSpWord g (entryOffset d d.count) w) q { d with count := d.count + 1 }

/-- Reserve one entry whose value is still to come: its place in the ring of the queue. -/
def reserve1 (g : Wg) (q : Nat) : PushSlot × Wg :=
  let d := qdesc g q
  ({ q := q, epoch := d.epoch, offset := entryOffset d d.count },
   setQ g q { d with count := d.count + 1, reserved := d.reserved ++ [d.count] })

/-- Write a reserved entry; the value of a discarded slot is dropped (R238). -/
def fill1 (g : Wg) (sl : PushSlot) (w : Word) : Wg :=
  let d := qdesc g sl.q
  if d.epoch ≠ sl.epoch then g
  else
    let pos := d.reserved.find? fun r => entryOffset d r = sl.offset
    match pos with
    | none => g
    | some r => setQ (setSpWord g sl.offset w) sl.q { d with reserved := d.reserved.filter (· ≠ r) }

/-- Pop the values of one field for the executing lanes, in ascending tid (R233). -/
def popField (x : Args) (wide : Bool) (q : Nat) : List Nat → Wg → List (Nat × Dword) × Wg
  | [], g => ([], g)
  | t :: ts, g =>
    if x.u || wide then
      let (lo, g) := pop1 g q
      let (hi, g) := pop1 g q
      let (r, g) := popField x wide q ts g
      ((t, joinWords lo hi) :: r, g)
    else
      let (lo, g) := pop1 g q
      let (r, g) := popField x wide q ts g
      ((t, lo.zeroExtend 64) :: r, g)

/-- Pop one field if it names a queue. -/
def popOpnd (x : Args) (o : Opnd) (wide : Bool) (lanes : List Nat) (g : Wg) : List (Nat × Dword) × Wg :=
  match o with
  | .q n => popField x wide n.toNat lanes g
  | _ => ([], g)

/-- Push the results of the lanes to a queue (R233, R234). -/
def pushVals (x : Args) (wide : Bool) (q : Nat) : List (Nat × Dword) → Wg → Wg
  | [], g => g
  | (_, d) :: r, g =>
    let g := push1 g q (lowWord d)
    pushVals x wide q r (if x.u || wide then push1 g q (highWord d) else g)

/-- Reserve the slots of the lanes' results. -/
def reserveVals (x : Args) (wide : Bool) (q : Nat) : List (Nat × Dword) → Wg → List PushSlot × Wg
  | [], g => ([], g)
  | _ :: r, g =>
    let (a, g) := reserve1 g q
    if x.u || wide then
      let (b, g) := reserve1 g q
      let (l, g) := reserveVals x wide q r g
      (a :: b :: l, g)
    else
      let (l, g) := reserveVals x wide q r g
      (a :: l, g)

/-- Write the values of reserved slots. -/
def fillVals (x : Args) (wide : Bool) : List (Nat × Dword) → List PushSlot → Wg → Wg
  | (_, d) :: r, a :: rest, g =>
    let g := fill1 g a (lowWord d)
    if x.u || wide then
      match rest with
      | b :: rest => fillVals x wide r rest (fill1 g b (highWord d))
      | [] => g
    else fillVals x wide r rest g
  | _, _, g => g

end Sys2Proof.Machine
end

