-- ==== Sys2Proof/Machine/Issue.lean ====
section
/-! DEFINITION. The issue of one instruction of a train: the checks of R48 that depend on the train, what makes the train wait
(R54, R186, R234, R261), and how an instruction completes (R49, R51, R99, R163, R252). -/

namespace Sys2Proof.Machine

/-- What a completing instruction leaves: its results by tid, the flags it sets, an outstanding load, the next PC of each
selected thread when it is not the next instruction (a selection follows), the latch contents when they are not the
results, and a trap that follows the instruction. -/
structure Done where
  vals  : List (Nat × Dword) := []
  flags : FlagSet := 0
  load  : Option PendLoad := none
  jump  : Option (Nat → Dword) := none
  latch : Option (Tab Word) := none
  trap  : Option TrapRec := none

/-- How the meaning of an instruction ends: it completes; its result is pending in the long-operation unit; it raises a trap
and has no effect; it blocks and is executed again from its chain head; or it has already left the train where it belongs
(parked, waiting for its own event, ended). -/
inductive Res where
  | done (s : State) (d : Done)
  | long (s : State) (vals : List (Nat × Dword)) (flags : FlagSet)
  | trap (s : State) (r : TrapRec)
  | blocked (s : State) (b : Block)
  | left (s : State)

/-- A trap record of a kind and cause. -/
def trapOf (kind cause : Nat) : TrapRec := { kind := kind, cause := cause }

/-! ## Completion -/

/-- Write the results to D of the lanes, unless NWB suppresses them (R55) or D is a queue. -/
def writeResults (tr : Train) (x : Args) (wide : Bool) (vals : List (Nat × Dword)) : Train :=
  if x.nwb then tr else vals.foldl (fun tr e => writeReg tr x.d wide e.1 e.2) tr

/-- The latch contents of an instruction (R49): the low words of its results, a uniform result broadcast. -/
def latchOf (x : Args) (vals : List (Nat × Dword)) : Tab Word :=
  if x.u then (match vals with | (_, d) :: _ => broadcast (lowWord d) | [] => [])
  else vals.foldl (fun m e => Tab.write 0 m e.1 (lowWord e.2)) []

/-- The train after an instruction completes, before any selection. -/
def completeTrain (i : Instr) (x : Args) (wide : Bool) (d : Done) (pc : Dword) (tr : Train) : Train :=
  let tr := writeResults (ageLoads tr) x wide d.vals
  let tr := pushLatch (setFlags tr d.flags) (d.latch.getD (latchOf x d.vals))
  let tr := { tr with chain := nextChain tr.chain i x pc, loads := tr.loads ++ d.load.toList }
  match d.jump with
  | none => advance tr x.len
  | some f => selectWith tr fun t => if tr.selected.getLsbD t then f t else pcOf tr t

/-- Push results to a queue named by D (R233). -/
def pushResults (s : State) (tr : Train) (x : Args) (wide : Bool) (vals : List (Nat × Dword)) : State :=
  match x.d, tr.wg with
  | .q n, some w => if x.nwb then s else modWg s w (pushVals x wide n.toNat vals)
  | _, _ => s

/-- A push is a release at `.wg`: every earlier access of its train is performed first (R198). -/
def pushRelease (s : State) (k : Nat) (x : Args) (vals : List (Nat × Dword)) : State :=
  match x.d with
  | .q _ => if x.nwb || vals.isEmpty then s else performEarlier s k
  | _ => s

/-- An instruction completes. -/
def complete (i : Instr) (x : Args) (wide : Bool) (k : Nat) (pc : Dword) (s : State) (d : Done) : State :=
  let s := pushRelease s k x d.vals
  match train? s k with
  | none => s
  | some tr =>
    let s := putTrain (pushResults s tr x wide d.vals) k (completeTrain i x wide d pc tr)
    match d.trap with
    | none => s
    | some r => raiseAfter s k r

/-- A long operation starts: its result stays pending, its push slots are reserved (R99, R234). -/
def startLong (i : Instr) (x : Args) (wide : Bool) (k : Nat) (s : State) (vals : List (Nat × Dword)) (fl : FlagSet) :
    State :=
  let s := pushRelease s k x vals
  match train? s k with
  | none => s
  | some tr =>
    match x.d, tr.wg with
    | .q n, some w =>
      match wg? s w with
      | some g =>
        let (slots, g) := reserveVals x wide n.toNat vals g
        modTrain (putWg s w g) k fun tr =>
          { tr with long := some { instr := i, x := x, wide := wide, vals := vals, flags := fl, slots := slots } }
      | none => s
    | _, _ =>
      modTrain s k fun tr =>
        { tr with long := some { instr := i, x := x, wide := wide, vals := vals, flags := fl, slots := [] } }

/-- LONG_OP_RESULT: the pending result is written (R99). -/
def finishLong (s : State) (k : Nat) : State :=
  match train? s k with
  | none => s
  | some tr =>
    match tr.long with
    | none => s
    | some l =>
      let s := match tr.wg with
        | some w => modWg s w (fillVals l.x l.wide l.vals l.slots)
        | none => s
      modTrain s k fun tr => completeTrain l.instr l.x l.wide { vals := l.vals, flags := l.flags } tr.pc { tr with long := none }

/-! ## Gates -/

/-- Loads that must return before the instruction: their destination is read or written, or the instruction names a latch
(R186). -/
def mustReturn (i : Instr) (x : Args) (ld : PendLoad) : Bool :=
  namesLatch x || (regsOf ld.ty.wide ld.dst).any fun r => (regsRead i x).contains r || (regsWritten i x).contains r

/-- Whether an instruction needs a result that a home still owes: it reads or writes the register, or names a latch (R352). -/
def owedResult (tr : Train) (i : Instr) (x : Args) : Bool :=
  !guardedOff tr x && tr.homes.any fun h => namesLatch x || h.reg.any fun n => (regsRead i x).contains (.s n) || (regsWritten i x).contains (.s n)

/-- What the gates of an issue answer: go on with the meaning, or the state in which the train stands. -/
inductive Gate where
  | go (c : Ctx) (s : State)
  | stop (s : State)

/-- The first failing check of the issue: 5 privilege, 9 registers beyond the declared ones, 10 the chain (R48, R69). -/
def issueCheck (tr : Train) (i : Instr) (x : Args) : Option TrapRec :=
  if isPrivileged i && !tr.priv then some (trapOf Trap.privilege 1)
  else if beyondDeclared tr x then some (trapOf Trap.operand 9)
  else if breaksChain tr i x then some (trapOf Trap.operand 10)
  else none

/-- Pop the queue operands in the order A, B, C (R47, R233). -/
def popAll (i : Instr) (c : Ctx) (s : State) : Ctx × State :=
  match c.tr.wg with
  | none => (c, s)
  | some w =>
    match wg? s w with
    | none => (c, s)
    | some g =>
      if movesQueues i && [c.x.a, c.x.b, c.x.c].any (fun | .q _ => true | _ => false) then
        let wd := widths i
        let (pa, g) := popOpnd c.x c.x.a wd.a c.lanes g
        let (pb, g) := popOpnd c.x c.x.b wd.b c.lanes g
        let (pc, g) := popOpnd c.x c.x.c wd.c c.lanes g
        ({ c with popA := pa, popB := pb, popC := pc }, putWg s w g)
      else (c, s)

/-- Everything before the meaning of an instruction: the checks, then what makes the train wait (of a U = 1 form whose guard fails, nothing: R36; of a
U = 0 form the same whatever its guard says, log 44), then the pops. The loads that it needs return first, as one that writes a marked register clears the mark (R261). -/
def gates (i : Instr) (x : Args) (s : State) (k : Nat) (tr : Train) : Gate :=
  let head := chainHead tr x
  match issueCheck tr i x with
  | some r => .stop (raiseAt s k head { r with pc := tr.pc })
  | none =>
    let s := returnLoads s k (mustReturn i x)
    match train? s k with
    | none => .stop s
    | some tr =>
      match markedSource tr i x with
      | some n => .stop (blockAt s k head (.mark n))
      | none => if owedResult tr i x then .stop (blockAt s k head .proxy) else
        let m := execMask tr x
        let needs := queueNeeds i x m
        match queueGate s tr needs with
        | .raise c => .stop (raiseAt s k head { trapOf Trap.queue c with pc := tr.pc })
        | .wait => .stop (blockAt s k head (.queue needs tr.pc))
        | .open =>
          let c : Ctx := { instr := i, k := k, tr := tr, x := x, head := head, mask := m, clk := s.clk,
                           wgid := (wgOf s tr).elim 0 (·.wgid), imm := (rules i).imm }
          let (c, s) := popAll i c s
          .go c s

/-- The machine after the meaning of an instruction. -/
def settle (i : Instr) (x : Args) (wide : Bool) (c : Ctx) : Res → State
  | .done s d => complete i x wide c.k c.tr.pc s d
  | .long s vals fl => startLong i x wide c.k s vals fl
  | .trap s r => raiseAt s c.k c.head { r with pc := c.tr.pc }
  | .blocked s b => blockAt s c.k c.head b
  | .left s => s

/-- THE ISSUE of an instruction that a train fetched, with its meaning `body`; `wide` says that its result is 64 bits. The
train is the one that the step issues. -/
def issue (i : Instr) (x : Args) (wide : Bool) (s : State) (body : Ctx → State → Res) : Host.Outcome State Fault Refusal :=
  match s.current with
  | none => .fault .noTrain
  | some k =>
    match train? s k with
    | none => .fault .noTrain
    | some tr =>
      match gates i x s k tr with
      | .stop s => .next s
      | .go c s => .next (settle i x wide c (body c s))

/-- An instruction whose result is a pure function of its operands. -/
def issuePure (i : Instr) (x : Args) (wide : Bool) (s : State) (f : Ctx → Nat → Dword × FlagSet) :
    Host.Outcome State Fault Refusal :=
  issue i x wide s fun c s =>
    let r := c.lanes.map fun t => (t, f c t)
    .done s { vals := r.map fun e => (e.1, e.2.1), flags := joinFlags (r.map fun e => e.2.2) }

/-- A long operation whose result is a pure function of its operands (R99). -/
def issueLong (i : Instr) (x : Args) (wide : Bool) (s : State) (f : Ctx → Nat → Dword × FlagSet) :
    Host.Outcome State Fault Refusal :=
  issue i x wide s fun c s =>
    let r := c.lanes.map fun t => (t, f c t)
    .long s (r.map fun e => (e.1, e.2.1)) (joinFlags (r.map fun e => e.2.2))

/-- A step of a unit that changes the state. -/
def unitStep (s : State) : Host.Outcome State Fault Refusal := .next s

end Sys2Proof.Machine
end

