-- ==== Sys2Proof/Machine/IntClass.lean ====
section
/-! DEFINITION. The integer and address class (R103 to R113). -/

namespace Sys2Proof.Machine

/-! ## Reading operands as numbers -/

/-- `V(X, t)`: the operand as a number of the type. -/
def numOf (c : Ctx) (f : ImmField) (ty : Ty) (t : Nat) : Int :=
  let d := (src c f ty t).toNat
  if ty.signed then signExt d ty.width else (d % 2 ^ ty.width : Nat)

/-- `U(X, t)`: the operand as unsigned bits. -/
def bitsOf (c : Ctx) (f : ImmField) (ty : Ty) (t : Nat) : Nat := (src c f ty t).toNat % 2 ^ ty.width

/-- `Bits(U(X, t), 7, 0)` of a shift amount or count. -/
def countOf (c : Ctx) (f : ImmField) (ty : Ty) (t : Nat) : Nat := bitsOf c f ty t % 256

/-! ## Writing results (R104) -/

/-- The exact integer `x` as a result of the type: wrapped, or saturated with IOV. -/
def intResult (ty : Ty) (saturate : Bool) (x : Int) : Dword × FlagSet :=
  if saturate && (x < (minOf ty) || (maxOf ty) < x) then
    (placed ty (wrap (sat x (minOf ty) (maxOf ty)) ty.width), Fl.iov)
  else (placed ty (wrap x ty.width), 0)

/-- Unsigned bits as a result of the type. -/
def bitResult (ty : Ty) (n : Nat) : Dword × FlagSet := (placed ty (n % 2 ^ ty.width), 0)

/-! ## The operations -/

/-- Truncating division and remainder (R105): the quotient, the remainder and the flags. -/
def divide (ty : Ty) (saturate : Bool) (a b : Int) : Int × Int × FlagSet :=
  if b = 0 then (if a ≥ 0 then (maxOf ty) else (minOf ty), a, Fl.dz)
  else if ty.signed && a = (minOf ty) && b = -1 then (if saturate then (maxOf ty) else (minOf ty), 0, Fl.iov)
  else (a.tdiv b, a.tmod b, 0)

def shlBits (w a n : Nat) : Nat := if n ≥ w then 0 else a * 2 ^ n % 2 ^ w
def shrBits (a n : Nat) : Nat := a / 2 ^ n
def sraBits (w a n : Nat) : Nat := wrap (signExt a w / (2 ^ (if n < w then n else w) : Nat)) w
def rolBits (w a n : Nat) : Nat := let m := n % w; (a * 2 ^ m + a / 2 ^ (w - m)) % 2 ^ w

/-- Leading zeros of `a` in `w` bits. -/
def clzBits (w a : Nat) : Nat := if a = 0 then w else w - 1 - Nat.log2 a
/-- Trailing zeros from bit `n`, at most `fuel` further bits. -/
def ctzFrom (a : Nat) : Nat → Nat → Nat
  | 0, n => n
  | fuel + 1, n => if a / 2 ^ n % 2 = 1 then n else ctzFrom a fuel (n + 1)
def ctzBits (w a : Nat) : Nat := ctzFrom a w 0
def popBits (w a : Nat) : Nat := ((List.range w).filter fun i => a / 2 ^ i % 2 = 1).length

/-- Position and length of a bit field, the length cut at the width (R108). -/
def fieldOf (w ctl : Nat) : Nat × Nat :=
  let pos := ctl % 256
  let len := ctl / 256 % 256
  (pos, if pos ≥ w then 0 else if len < w - pos then len else w - pos)

def bfxResult (ty : Ty) (a ctl : Nat) : Int :=
  let (pos, n) := fieldOf ty.width ctl
  if n = 0 then 0 else if ty.signed then signExt (bitsAt a pos n) n else bitsAt a pos n

def bfiResult (w a ctl c : Nat) : Nat :=
  let (pos, n) := fieldOf w ctl
  if n = 0 then c else c - bitsAt c pos n * 2 ^ pos + a % 2 ^ n * 2 ^ pos

/-- One byte of `prm` (R109). -/
def prmByte (bytes sel : Nat) : Nat :=
  let b := bitsAt bytes (8 * (sel % 8)) 8
  if sel / 8 % 2 = 1 then (if b ≥ 128 then 0xFF else 0) else b

def prmResult (a b sel : Nat) : Nat :=
  let bytes := b * 2 ^ 32 + a
  (List.range 4).foldl (fun x i => x + prmByte bytes (bitsAt sel (4 * i) 4) * 2 ^ (8 * i)) 0

def condHolds (c : Cond) (a b : Int) : Bool :=
  match c with
  | .eq => a = b | .ne => a ≠ b | .lt => a < b | .le => a ≤ b | .gt => a > b | .ge => a ≥ b

/-- A truth value as a predicate or flag result. -/
def truth (b : Bool) : Dword := if b then 1 else 0

/-- An instruction of the R104 rule. -/
def arith (i : Instr) (x : Args) (ty : Ty) (saturate : Bool) (s : State) (f : Int → Int → Int → Int) :=
  issuePure i x ty.wide s fun c t => intResult ty saturate (f (numOf c .a ty t) (numOf c .b ty t) (numOf c .c ty t))

/-- An instruction on the unsigned bits of its operands. -/
def bitwise (i : Instr) (x : Args) (ty : Ty) (s : State) (f : Ctx → Nat → Nat) :=
  issuePure i x ty.wide s fun c t => bitResult ty (f c t)

/-! ## The instructions -/

def execAdd (x : Args) (t : Ty) (sat : Bool) (s : State) : Host.Outcome State Fault Refusal :=
  arith (.add x t sat) x t sat s fun a b _ => a + b
def execSub (x : Args) (t : Ty) (sat : Bool) (s : State) : Host.Outcome State Fault Refusal :=
  arith (.sub x t sat) x t sat s fun a b _ => a - b
def execMul (x : Args) (t : Ty) (sat : Bool) (s : State) : Host.Outcome State Fault Refusal :=
  arith (.mul x t sat) x t sat s fun a b _ => a * b
def execMulhi (x : Args) (t : Ty) (s : State) : Host.Outcome State Fault Refusal :=
  arith (.mulhi x t) x t false s fun a b _ => a * b / (2 ^ t.width : Nat)
def execMad (x : Args) (t : Ty) (sat : Bool) (s : State) : Host.Outcome State Fault Refusal :=
  arith (.mad x t sat) x t sat s fun a b c => a * b + c
def execMadhi (x : Args) (t : Ty) (s : State) : Host.Outcome State Fault Refusal :=
  arith (.madhi x t) x t false s fun a b c => a * b / (2 ^ t.width : Nat) + c
def execDiv (x : Args) (t : Ty) (sat : Bool) (s : State) : Host.Outcome State Fault Refusal :=
  issueLong (.div x t sat) x t.wide s fun c l =>
    let r := divide t sat (numOf c .a t l) (numOf c .b t l)
    (placed t (wrap r.1 t.width), r.2.2)
def execRem (x : Args) (t : Ty) (s : State) : Host.Outcome State Fault Refusal :=
  issueLong (.rem x t) x t.wide s fun c l =>
    let r := divide t false (numOf c .a t l) (numOf c .b t l)
    (placed t (wrap r.2.1 t.width), r.2.2)
def execMin (x : Args) (t : Ty) (s : State) : Host.Outcome State Fault Refusal :=
  arith (.min x t) x t false s fun a b _ => if a ≤ b then a else b
def execMax (x : Args) (t : Ty) (s : State) : Host.Outcome State Fault Refusal :=
  arith (.max x t) x t false s fun a b _ => if a ≥ b then a else b
def execAbs (x : Args) (t : Ty) (sat : Bool) (s : State) : Host.Outcome State Fault Refusal :=
  arith (.abs x t sat) x t sat s fun a _ _ => a.natAbs
def execAnd (x : Args) (t : Ty) (s : State) : Host.Outcome State Fault Refusal :=
  bitwise (.and x t) x t s fun c l => bitsOf c .a t l &&& bitsOf c .b t l
def execOr (x : Args) (t : Ty) (s : State) : Host.Outcome State Fault Refusal :=
  bitwise (.or x t) x t s fun c l => bitsOf c .a t l ||| bitsOf c .b t l
def execXor (x : Args) (t : Ty) (s : State) : Host.Outcome State Fault Refusal :=
  bitwise (.xor x t) x t s fun c l => bitsOf c .a t l ^^^ bitsOf c .b t l
def execAndn (x : Args) (t : Ty) (s : State) : Host.Outcome State Fault Refusal :=
  bitwise (.andn x t) x t s fun c l => bitsOf c .a t l &&& (2 ^ t.width - 1 - bitsOf c .b t l)
def execShl (x : Args) (t : Ty) (s : State) : Host.Outcome State Fault Refusal :=
  bitwise (.shl x t) x t s fun c l => shlBits t.width (bitsOf c .a t l) (countOf c .b t l)
def execShr (x : Args) (t : Ty) (s : State) : Host.Outcome State Fault Refusal :=
  bitwise (.shr x t) x t s fun c l => shrBits (bitsOf c .a t l) (countOf c .b t l)
def execSra (x : Args) (t : Ty) (s : State) : Host.Outcome State Fault Refusal :=
  bitwise (.sra x t) x t s fun c l => sraBits t.width (bitsOf c .a t l) (countOf c .b t l)
def execRol (x : Args) (t : Ty) (s : State) : Host.Outcome State Fault Refusal :=
  bitwise (.rol x t) x t s fun c l => rolBits t.width (bitsOf c .a t l) (countOf c .b t l)
def execClz (x : Args) (t : Ty) (s : State) : Host.Outcome State Fault Refusal :=
  bitwise (.clz x t) x t s fun c l => clzBits t.width (bitsOf c .a t l)
def execCtz (x : Args) (t : Ty) (s : State) : Host.Outcome State Fault Refusal :=
  bitwise (.ctz x t) x t s fun c l => ctzBits t.width (bitsOf c .a t l)
def execPopc (x : Args) (t : Ty) (s : State) : Host.Outcome State Fault Refusal :=
  bitwise (.popc x t) x t s fun c l => popBits t.width (bitsOf c .a t l)
def execBfx (x : Args) (t : Ty) (s : State) : Host.Outcome State Fault Refusal :=
  issuePure (.bfx x t) x t.wide s fun c l =>
    intResult t false (bfxResult t (bitsOf c .a t l) (src c .b t l).toNat)
def execBfi (x : Args) (t : Ty) (s : State) : Host.Outcome State Fault Refusal :=
  bitwise (.bfi x t) x t s fun c l => bfiResult t.width (bitsOf c .a t l) (src c .b t l).toNat (bitsOf c .c t l)
def execPrm (x : Args) (s : State) : Host.Outcome State Fault Refusal :=
  bitwise (.prm x) x .b32 s fun c l => prmResult (bitsOf c .a .b32 l) (bitsOf c .b .b32 l) (bitsOf c .c .b32 l)
def execSel (x : Args) (t : Ty) (s : State) : Host.Outcome State Fault Refusal :=
  bitwise (.sel x t) x t s fun c l => if condOf c x.c l then bitsOf c .a t l else bitsOf c .b t l
def execCmp (x : Args) (t : Ty) (cond : Cond) (s : State) : Host.Outcome State Fault Refusal :=
  issuePure (.cmp x t cond) x false s fun c l => (truth (condHolds cond (numOf c .a t l) (numOf c .b t l)), 0)
def execMov (x : Args) (t : Ty) (s : State) : Host.Outcome State Fault Refusal :=
  bitwise (.mov x t) x t s fun c l => bitsOf c .a t l
def execLea (x : Args) (t : Ty) (k : Fin 5) (s : State) : Host.Outcome State Fault Refusal :=
  arith (.lea x t k) x t false s fun a b c => a + b * (2 ^ k.val : Nat) + c
def execSext (x : Args) (t : Ty) (s : State) : Host.Outcome State Fault Refusal :=
  issuePure (.sext x t) x t.wide s fun c l =>
    let n := (src c .b t l).toNat % 256
    let a := bitsOf c .a t l
    intResult t false (if 0 < n ∧ n < t.width then signExt (a % 2 ^ n) n else a)
def execZext (x : Args) (t : Ty) (s : State) : Host.Outcome State Fault Refusal :=
  issuePure (.zext x t) x t.wide s fun c l =>
    let n := (src c .b t l).toNat % 256
    let a := bitsOf c .a t l
    intResult t false (if 0 < n ∧ n < t.width then (a % 2 ^ n : Nat) else a)

end Sys2Proof.Machine
end

