-- ==== Sys2Proof/Machine/MemClass.lean ====
section
/-! DEFINITION. The memory class (R165 to R186): global, scratchpad and tile accesses, tags, tiles, prefetch, fences, flushes. -/

namespace Sys2Proof.Machine

/-! ## Addresses (R173 to R175) -/

def extWord (x : Args) : Nat := x.ext.value
def extOffset (x : Args) : Int := signExt (bitsAt (extWord x) 0 32) 32
def extOrder (x : Args) : Nat := bitsAt (extWord x) 35 2
def extHint (x : Args) : Nat := bitsAt (extWord x) 37 2

/-- A signed 32-bit index or offset operand. -/
def idxOf (c : Ctx) (o : Opnd) (t : Nat) : Int := signExt (rdOpnd c o .b32 t).toNat 32

/-- Index times scale plus offset; `c` names the field C where the 64-bit form takes an offset from it. -/
def displacement (c : Ctx) (k : Nat) (offsetInC : Bool) (t : Nat) : Int :=
  idxOf c c.x.b t * (2 ^ k : Nat)
    + (if c.x.ext != .short then extOffset c.x else if offsetInC then idxOf c c.x.c t else 0)

/-- The effective address of a global access. -/
def globalAddr (c : Ctx) (k : Nat) (offsetInC : Bool) (t : Nat) : Dword :=
  BitVec.ofNat 64 (wrap ((rdOpnd c c.x.a .n64 t).toNat + displacement c k offsetInC t) 64)

/-- The effective address of a scratchpad access. -/
def spAddr (c : Ctx) (k : Nat) (offsetInC : Bool) (t : Nat) : Nat :=
  wrap ((rdOpnd c c.x.a .b32 t).toNat + displacement c k offsetInC t) 32

/-- An offset within a tile. -/
def tileOffset (c : Ctx) (k : Nat) (offsetInC : Bool) (t : Nat) : Nat := wrap (displacement c k offsetInC t) 32

/-! ## Global accesses: translation of every thread before any access (R159, R163) -/

/-- What the translation of all threads answers: a fault of the lowest thread that meets one, or where each access goes. -/
inductive Places where
  | fault (va : Dword) (pte : Nat)
  | ok (l : List (Nat × Dword × Xl))

def translateAll (s : State) (tr : Train) (acc : Access) (align : Nat) : List (Nat × Dword) → State × Places
  | [] => (s, .ok [])
  | (t, va) :: rest =>
    match access s tr acc va align with
    | (s, .fault pte) => (s, .fault va pte)
    | (s, x) =>
      match translateAll s tr acc align rest with
      | (s, .ok l) => (s, .ok ((t, va, homeXl s x) :: l))
      | r => r

/-- The accesses that go to memory of this module. -/
def localPlaces (l : List (Nat × Dword × Xl)) : List (Nat × Nat) :=
  l.filterMap fun e => match e.2.2 with | .mem pa => some (e.1, pa) | _ => none

/-- The accesses to other modules (R207). -/
def remotePlaces (l : List (Nat × Dword × Xl)) : List (Nat × Nat × Nat) :=
  l.filterMap fun e => match e.2.2 with | .remote m pa => some (e.1, m, pa) | _ => none

/-- The violations, with REMOTE for an access that the other module answered with an error (R163, R164). -/
def violations (replies : Tab RemoteReply) (l : List (Nat × Dword × Xl)) : List (Nat × Dword × Nat) :=
  l.filterMap fun e => match e.2.2 with
    | .bad cause => some (e.1, e.2.1, cause)
    | .remote _ _ => match Tab.get? replies e.1 with
      | some .error => some (e.1, e.2.1, causeRemote)
      | _ => none
    | _ => none

/-- The threads that meet a translation fault; 0 for the train of a U = 1 form. -/
def faultMask (s : State) (tr : Train) (u : Bool) (acc : Access) (n : Nat) (addrs : List (Nat × Dword)) : Mask :=
  if u then 0
  else maskOf fun t => addrs.any fun e => e.1 = t && (match (access s tr acc e.2 n).2 with | .fault _ => true | _ => false)

/-- Requests for the remote accesses that have no reply yet: the train waits for their RSP (R207). -/
def askRemote (s : State) (k : Nat) (op : Nat → RemoteOp) (l : List (Nat × Nat × Nat)) : Option (State × List Nat) :=
  match train? s k with
  | none => none
  | some tr =>
    let missing := l.filter fun e => (Tab.get? tr.replies e.1).isNone
    if missing.isEmpty then none
    else
      some (missing.foldl (fun (acc : State × List Nat) e =>
        let (id, s) := freshId acc.1
        let o := op e.1
        (sendFabric { s with remote := Tab.put s.remote id { uid := tr.uid, tid := e.1, module := e.2.1, pa := e.2.2, op := o } }
          tr.part e.2.1 (.req id e.2.2 o), acc.2 ++ [id])) (s, []))

/-- The replies have been used. -/
def clearReplies (s : State) (k : Nat) : State := modTrain s k fun tr => { tr with replies := [], access := none }

/-- What the threads of an instruction do at their places in this module's memory: the state, and what each gets back. -/
abbrev Near : Type := State → List (Nat × Nat) → State × List (Nat × RemoteReply)

/-- A place in this module's memory whose access is made stands as one that has answered. -/
def asAnswered (s : State) (l : List (Nat × RemoteReply)) (e : Nat × Dword × Xl) : Nat × Dword × Xl :=
  match e.2.2 with
  | .mem pa => if l.any (·.1 = e.1) then (e.1, e.2.1, .remote s.moduleNo.toNat pa) else e
  | _ => e

/-- Make the accesses to this module's memory that an instruction makes beside those to other modules: the state with what they answer,
and the places as they then stand. They and the requests are made in one step, after every translation, so that no later translation can
part them (R189). -/
def makeNear (s : State) (k : Nat) (near : Near) (l : List (Nat × Dword × Xl)) : State × List (Nat × Dword × Xl) :=
  let (s, got) := near s (localPlaces l)
  (modTrain s k fun tr => { tr with replies := got.foldl (fun m e => Tab.put m e.1 e.2) tr.replies }, l.map (asAnswered s got))

/-- The instruction of a train goes on with these places once all its requests are answered. -/
def keepAccess (c : Ctx) (s : State) (near : Near) (l : List (Nat × Dword × Xl)) : State :=
  let (s, l) := makeNear s c.k near l
  modTrain s c.k fun tr => { tr with
    access := some { instr := c.instr, pc := c.tr.pc, latches := c.tr.latches, chain := c.tr.chain, places := l } }

def replyValue (r : Option RemoteReply) : Nat :=
  match r with
  | some (.data bs) => ofBytes bs
  | _ => 0

/-- The trap that follows an instruction with violating threads: cause and address of the lowest, mask of all (R163, R378). -/
def violationTrap (c : Ctx) (v : List (Nat × Dword × Nat)) : Option TrapRec :=
  match v with
  | [] => none
  | (_, va, cause) :: _ =>
    some { kind := Trap.access, cause := cause, pc := c.tr.pc, addr := va,
           mask := if c.x.u then 0 else maskOf fun t => v.any fun e => e.1 = t }

/-- Outstanding loads of the bytes return before an access that is performed at once (R189, R194). -/
def settleLoads (s : State) (k : Nat) (places : List (Nat × Nat)) (n : Nat) : State :=
  returnLoads s k fun ld => places.any fun e => loadTouches ld e.2 n

/-- A load of the bytes of each place now, after the train's own stores (R195). -/
def loadNow (s : State) (k : Nat) (n : Nat) (places : List (Nat × Nat)) : List (Nat × Nat) :=
  match train? s k with
  | none => []
  | some tr => places.map fun e => (e.1, trainMem s tr e.2 n)

/-- Everything before the accesses of a global instruction of `n` bytes per thread: the translations, the parking, the remote requests,
with which `near` makes the other accesses. `go` continues with the places; an instruction whose requests are answered goes on with those
that it had, and neither translates nor parks any more (R189). One without `near` only reads at one place, or reads again while it waits:
it translates anew. -/
def withPlaces (c : Ctx) (s : State) (acc : Access) (n : Nat) (addrs : List (Nat × Dword)) (op : Nat → RemoteOp)
    (go : State → List (Nat × Dword × Xl) → Res) (near : Option Near := none) : Res :=
  match c.tr.access with
  | some a => go s a.places
  | none => match translateAll s c.tr acc n addrs with
    | (s, .fault va pte) =>
      .left (park s c.k c.head va (match acc with | .load => 0 | .store | .rmw => 1 | .fetch => 2) pte c.tr.pc 0
        (faultMask s c.tr c.x.u acc n addrs))
    | (s, .ok l) =>
      match askRemote s c.k op (remotePlaces l) with
      | some (s, ids) => .blocked (near.elim s fun f => keepAccess c s f l) (.remote ids)
      | none => go s l

def tyBytes (t : Ty) : Nat := t.width / 8

/-- Loads of this module's memory that are made at once. -/
def nearLoads (k n : Nat) : Near := fun s l =>
  let s := settleLoads s k l n
  (s, (loadNow s k n l).map fun e => (e.1, .data (bytesOf e.2 n)))

def loadBody (t : Ty) (k : Nat) (c : Ctx) (s : State) : Res :=
  let n := tyBytes t
  let addrs := c.lanes.map fun l => (l, globalAddr c k true l)
  withPlaces c s .load n addrs (near := some (nearLoads c.k n)) (fun _ => .read n) fun s l =>
    let viol := violations c.tr.replies l
    let far := (remotePlaces l).map fun e => (e.1, placed t (replyValue (Tab.get? c.tr.replies e.1)))
    let bad := viol.map fun e => (e.1, (0 : Dword))
    let near := localPlaces l
    let s := clearReplies s c.k
    let known := far.filter (fun e => !viol.any fun v => v.1 = e.1) ++ bad
    if extOrder c.x = 1 then
      let s := settleLoads s c.k near n
      .done s { vals := (loadNow s c.k n near).map (fun e => (e.1, placed t e.2)) ++ known, trap := violationTrap c viol }
    else
      .done (loadRoom s c.k)
        { vals := known, trap := violationTrap c viol
          load := if near.isEmpty then none else some { u := c.x.u, dst := c.x.d, ty := t, parts := near } }

/-- Issue the stores of an instruction in ascending tid (R176). -/
def issueStores (s : State) (k n : Nat) (wc : Bool) (val : Nat → Nat) (places : List (Nat × Nat)) : State :=
  places.foldl (fun s e =>
    let s := issueStore s k e.2 (bytesOf (val e.1) n) wc
    if wc then settleWc s k (blockOf e.2) else s) s

/-- A release performs the train's earlier accesses before its own store goes anywhere (R177, R191, R207). -/
def storeBody (t : Ty) (k : Nat) (c : Ctx) (s : State) : Res :=
  let n := tyBytes t
  let addrs := c.lanes.map fun l => (l, globalAddr c k false l)
  let val := fun l => (rdOpnd c c.x.c t l).toNat
  let s := if extOrder c.x = 2 then performEarlier s c.k else s
  let stores := fun (s : State) (l : List (Nat × Nat)) => issueStores s c.k n (extHint c.x = 2) val l
  withPlaces c s .store n addrs (near := some fun s l => (stores s l, l.map fun e => (e.1, .data [])))
    (fun l => .write (bytesOf (val l) n)) fun s l =>
    let viol := violations c.tr.replies l
    .done (stores (clearReplies s c.k) (localPlaces l)) { trap := violationTrap c viol }

/-! ## Scratchpad (R165 to R167, R179) -/

/-- A queued matrix instruction refers to a tile (R139). -/
def referenced (g : Wg) (t : Nat) : Bool := g.mq.any fun e => e.tiles.contains t

def latchedTile (g : Wg) (t : Nat) : Bool := g.wlatch.any fun w => w.tile = t

/-- A tile descriptor; one that the table does not list is EMPTY with BASE 0 and SIZE 0 (log 8). -/
def tileOf (g : Wg) (t : Nat) : Tile := Tab.read {} g.tiles t
def setTile (g : Wg) (t : Nat) (x : Tile) : Wg := { g with tiles := Tab.write {} g.tiles t x }

/-- The fate of one scratchpad access. -/
inductive SpFate where
  | ok
  | bad (cause : Nat)
  | wait (t : Nat) (states : List Nat) (free : Bool)
  | held
  deriving DecidableEq, Repr

/-- The tag table's bytes: base and length, length 0 when unconfigured (R170). -/
def tagTable (g : Wg) : Nat × Nat :=
  match g.tagCfg with
  | none => (0, 0)
  | some v => (bitsAt v.toNat 32 22, 2 ^ bitsAt v.toNat 4 4 * 8)

/-- The regions of R167 for an access of `n` bytes at `a`. -/
def spFate (g : Wg) (store : Bool) (a n : Nat) : SpFate :=
  let size := g.pad * 256
  if a % n ≠ 0 || a + n > size then .bad causeSpRange
  else
    let hit := fun (b m : Nat) => m ≠ 0 && overlaps a n b m
    let x := size - 32768
    if g.queues.any fun q => q.2.bound && hit (q.2.base * 256) (q.2.size * 256) then .bad causeSpClass
    else if g.gang ≠ 0 && (hit (x + 16384) 16384 || (store && hit x 16384)) then .bad causeSpClass
    else if hit (tagTable g).1 (tagTable g).2 then .bad causeSpClass
    else
      let mine := g.tiles.filter fun t => hit t.2.base t.2.size
      match mine.find? fun t => t.2.state = 1 || t.2.state = 3 with
      | some t => .wait t.1 [0, 2] false
      | none =>
        if store && mine.any (fun t => latchedTile g t.1) then .held
        else if store then
          match mine.find? fun t => referenced g t.1 with
          | some t => .wait t.1 [0, 2] true
          | none => .ok
        else .ok

/-- The fates of all threads; without a workgroup there is no allocation (R291). A misaligned address has the cause `align`: SPRANGE,
but for `facc`, of which R226 says ALIGN. -/
def spFates (g : Option Wg) (store : Bool) (n : Nat) (addrs : List (Nat × Nat)) (align : Nat := causeSpRange) : List (Nat × Nat × SpFate) :=
  addrs.map fun e => (e.1, e.2,
    if e.2 % n ≠ 0 then .bad align else match g with | some g => spFate g store e.2 n | none => .bad causeSpRange)

def spViolations (l : List (Nat × Nat × SpFate)) : List (Nat × Dword × Nat) :=
  l.filterMap fun e => match e.2.2 with | .bad cause => some (e.1, BitVec.ofNat 64 e.2.1, cause) | _ => none

/-- Everything before the accesses of a scratchpad instruction: HELD, the tiles that block, the violations. -/
def withSp (c : Ctx) (s : State) (store : Bool) (n : Nat) (addrs : List (Nat × Nat))
    (go : List (Nat × Nat) → Option TrapRec → Res) (align : Nat := causeSpRange) : Res :=
  let l := spFates (wgOf s c.tr) store n addrs align
  if l.any fun e => e.2.2 = .held then .trap s (trapOf Trap.matrix 7)
  else match l.findSome? fun e => match e.2.2 with | .wait t st free => some (t, st, free) | _ => none with
    | some (t, st, free) => .blocked s (.tile t st free)
    | none => go (l.filterMap fun e => if e.2.2 = .ok then some (e.1, e.2.1) else none) (violationTrap c (spViolations l))

/-- The results of a scratchpad load: zero for the violating threads (R163). -/
def spLoad (s : State) (tr : Train) (t : Ty) (n : Nat) (lanes : List Nat) (places : List (Nat × Nat)) :
    List (Nat × Dword) :=
  match wgOf s tr with
  | none => lanes.map fun l => (l, 0)
  | some g => lanes.map fun l => match places.find? (·.1 = l) with
    | some e => (l, placed t (spRead g e.2 n))
    | none => (l, 0)

/-- The stores of a scratchpad instruction. Every train of the workgroup and the array see them at once, also where nothing synchronises
them (R218, R353), which is the model's choice (log 53). -/
def spStore (s : State) (tr : Train) (n : Nat) (val : Nat → Nat) (places : List (Nat × Nat)) : State :=
  match tr.wg with
  | none => s
  | some w => modWg s w fun g => places.foldl (fun g e => spWrite g e.2 n (val e.1)) g

/-! ## Tiles: ldt, stt, tst (R168, R169, R179, R182) -/

/-- The threads whose tile offset is legal, as scratchpad addresses, and the violations (TRANGE). -/
def tilePlaces (tl : Tile) (n : Nat) (offs : List (Nat × Nat)) : List (Nat × Nat) × List (Nat × Dword × Nat) :=
  (offs.filterMap fun e => if e.2 % n = 0 && e.2 + n ≤ tl.size then some (e.1, tl.base + e.2) else none,
   offs.filterMap fun e => if e.2 % n = 0 && e.2 + n ≤ tl.size then none else some (e.1, BitVec.ofNat 64 e.2, causeTRange))

def tileNum (o : Opnd) : Nat := match o with | .t n => n.toNat | _ => 0

/-- A tile instruction of a train without a workgroup meets an empty allocation (R291). -/
def noTileTrap (c : Ctx) : Option TrapRec :=
  violationTrap c (c.lanes.map fun l => (l, (0 : Dword), causeSpRange))

/-- `ldt` waits for its tile, and `stt` for its own, also where the guard fails in every thread (R168, log 44). -/
def ldtBody (t : Ty) (k : Nat) (c : Ctx) (s : State) : Res :=
  match wgOf s c.tr with
  | none => .done s { vals := c.lanes.map fun l => (l, 0), trap := noTileTrap c }
  | some g =>
    let i := tileNum c.x.a
    let tl := tileOf g i
    if tl.state ≠ 2 then .blocked s (.tile i [2] false)
    else
      let n := tyBytes t
      let p := tilePlaces tl n (c.lanes.map fun l => (l, tileOffset c k true l))
      .done s { vals := spLoad s c.tr t n c.lanes p.1, trap := violationTrap c p.2 }

/-- The tiles in which accesses of `n` bytes lie: tiles may overlap (R139, R182). -/
def tilesHit (g : Wg) (n : Nat) (places : List (Nat × Nat)) : List Nat :=
  (g.tiles.filter fun t => places.any fun e => overlaps e.2 n t.2.base t.2.size).map (·.1)

def sttBody (t : Ty) (k : Nat) (c : Ctx) (s : State) : Res :=
  match wgOf s c.tr with
  | none => .done s { trap := noTileTrap c }
  | some g =>
    let i := tileNum c.x.a
    let tl := tileOf g i
    if tl.state ≠ 0 ∧ tl.state ≠ 2 then .blocked s (.tile i [0, 2] false)
    else
      let n := tyBytes t
      let p := tilePlaces tl n (c.lanes.map fun l => (l, tileOffset c k false l))
      let mine := tilesHit g n p.1
      if (c.on && latchedTile g i) || mine.any (latchedTile g) then .trap s (trapOf Trap.matrix 7)
      else if c.on && referenced g i then .blocked s (.tile i [0, 2] true)
      else match mine.find? (referenced g) with
      | some j => .blocked s (.tile j [0, 1, 2, 3] true)
      | none => .done (spStore s c.tr n (fun l => (rdOpnd c c.x.c t l).toNat) p.1) { trap := violationTrap c p.2 }

/-- `tst` with a state code (R169, R182): in an engine phase, in which the tile is FILLING or DRAINING, it waits for the phase alone. -/
def tstBody (c : Ctx) (s : State) : Res :=
  match c.on, wgOf s c.tr with
  | false, _ => .done s {}
  | _, none => .done s { trap := noTileTrap c }
  | true, some g =>
    let i := tileNum c.x.a
    let tl := tileOf g i
    let st := (rdOpnd c c.x.b .n64 uniTid).toNat % 4
    if tl.engine then .blocked s (.tile i [0, 2] false)
    else if tl.state = 2 && st ≠ 2 && latchedTile g i then .trap s (trapOf Trap.matrix 7)
    else if tl.state = 2 && st ≠ 2 && referenced g i then .blocked s (.tile i [0, 1, 2, 3] true)
    else .done (modWg s (c.tr.wg.getD 0) fun g => setTile g i { tl with state := st }) {}

/-- `tst.def` (R182): TSTATE has no effect, and its record names no address; a bad descriptor gives TRANGE, whose record holds BASE as its
address (log 55). -/
def tstDefBody (c : Ctx) (s : State) : Res :=
  match c.on, wgOf s c.tr with
  | false, _ => .done s {}
  | _, none => .done s { trap := noTileTrap c }
  | true, some g =>
    let i := tileNum c.x.a
    let tl := tileOf g i
    let v := (rdOpnd c c.x.b .n64 uniTid).toNat
    let base := v % 2 ^ 32
    let size := v / 2 ^ 32
    let lo := g.qbytes * 256
    if tl.state ≠ 0 then .trap s (trapOf Trap.access 13)
    else if base % 256 ≠ 0 ∨ size % 256 ≠ 0 ∨ size = 0 ∨ base < lo ∨ base + size > lo + g.tbytes * 256 then
      .done s { trap := violationTrap c [(uniTid, BitVec.ofNat 64 base, causeTRange)] }
    else .done (modWg s (c.tr.wg.getD 0) fun g => setTile g i { tl with base := base, size := size }) {}

/-! ## Tags (R170, R171, R180, R181) -/

structure TagCfg where
  lshift : Nat
  eshift : Nat
  tbase  : Nat

def tagCfgOf (v : Dword) : TagCfg := ⟨bitsAt v.toNat 0 4, bitsAt v.toNat 4 4, bitsAt v.toNat 32 22⟩
def TagCfg.set (cf : TagCfg) (x : Nat) : Nat := bitsAt x cf.lshift (cf.eshift - 3)
def TagCfg.tag (cf : TagCfg) (x : Nat) : Nat := bitsAt x cf.lshift (56 - cf.lshift)

def tagEntry (g : Wg) (cf : TagCfg) (slot : Nat) : Nat := spRead g (cf.tbase + 8 * slot) 8
def setTagEntry (g : Wg) (cf : TagCfg) (slot v : Nat) : Wg := spWrite g (cf.tbase + 8 * slot) 8 v
def clearTag (g : Wg) (cf : TagCfg) (slot : Nat) : Wg :=
  setTagEntry g cf slot (tagEntry g cf slot / 2 * 2)

/-- `look` (R180). -/
def lookResult (g : Wg) (cf : TagCfg) (x : Nat) : Dword :=
  let st := cf.set x
  let ways := List.range 8
  match ways.find? fun w =>
      let e := tagEntry g cf (st * 8 + w)
      e % 2 = 1 && e / 256 = cf.tag x with
  | some w => BitVec.ofNat 64 (st * 8 + w)
  | none =>
    let m := ways.foldl (fun m w => if tagEntry g cf (st * 8 + w) % 2 = 0 then m + 2 ^ w else m) 0
    BitVec.ofNat 64 (0x80000000 + m * 2 ^ 23 + st * 8)

/-- `tagw` of one thread (R181). -/
def tagWrite (g : Wg) (cf : TagCfg) (slot x : Nat) : Wg :=
  let st := cf.set x
  let g := (List.range 8).foldl (fun g w =>
    let e := tagEntry g cf (st * 8 + w)
    if st * 8 + w ≠ slot && e % 2 = 1 && e / 256 = cf.tag x then clearTag g cf (st * 8 + w) else g) g
  setTagEntry g cf slot (cf.tag x * 256 + 1)

/-- NOTAG names every executing thread, and the address or slot of the lowest (R164, R378; log 55). -/
def noTag (c : Ctx) (addr : Nat → Dword) : TrapRec :=
  (violationTrap c (c.lanes.map fun l => (l, addr l, 12))).getD (trapOf Trap.access 12)

/-- The workgroup and its tag table, or the NOTAG trap (R164 cause 12); `addr` gives the record's address. -/
def withTags (c : Ctx) (s : State) (addr : Nat → Dword) (go : Nat → Wg → TagCfg → Res) : Res :=
  match c.on, c.tr.wg, wgOf s c.tr with
  | false, _, _ => .done s {}
  | true, some w, some g =>
    match g.tagCfg with
    | some v => go w g (tagCfgOf v)
    | none => .trap s (noTag c addr)
  | true, _, _ => .trap s (noTag c addr)

/-- The trap of threads with a bad slot: no effect (R164 cause 11). -/
def tagsetTrap (c : Ctx) (bad : List (Nat × Dword × Nat)) : TrapRec :=
  (violationTrap c bad).getD (trapOf Trap.access 11)

def lookBody (c : Ctx) (s : State) : Res :=
  withTags c s (rdOpnd c c.x.a .n64) fun _ g cf =>
    .done s { vals := c.lanes.map fun l => (l, lookResult g cf (rdOpnd c c.x.a .n64 l).toNat) }

def tagwBody (c : Ctx) (s : State) : Res :=
  withTags c s (rdOpnd c c.x.b .n64) fun w _ cf =>
    let l := c.lanes.map fun l => (l, (rdOpnd c c.x.a .b32 l).toNat, (rdOpnd c c.x.b .n64 l).toNat)
    match l.filterMap fun e =>
        if e.2.1 ≥ 2 ^ cf.eshift ∨ e.2.1 / 8 ≠ cf.set e.2.2 then some (e.1, BitVec.ofNat 64 e.2.2, 11) else none with
    | [] => .done (modWg s w fun g => l.foldl (fun g e => tagWrite g cf e.2.1 e.2.2) g) {}
    | bad => .trap s (tagsetTrap c bad)

/-- `tagi` (R181); it names no address, so the record of TAGSET and NOTAG holds the slot (log 55). -/
def tagiBody (c : Ctx) (s : State) : Res :=
  withTags c s (rdOpnd c c.x.a .b32) fun w _ cf =>
    let l := c.lanes.map fun l => (l, (rdOpnd c c.x.a .b32 l).toNat)
    match l.filterMap fun e => if e.2 ≥ 2 ^ cf.eshift then some (e.1, BitVec.ofNat 64 e.2, 11) else none with
    | [] => .done (modWg s w fun g => l.foldl (fun g e => clearTag g cf e.2) g) {}
    | bad => .trap s (tagsetTrap c bad)

def clearTags (g : Wg) (cf : TagCfg) : Wg := (List.range (2 ^ cf.eshift)).foldl (fun g e => clearTag g cf e) g

def tagiAllBody (c : Ctx) (s : State) : Res :=
  withTags c s (fun _ => 0) fun w _ cf => .done (modWg s w fun g => clearTags g cf) {}

/-- Whether a configuration value is in range and its table in plain space (R170); reserved bits are ignored (R5). -/
def tagCfgOk (g : Wg) (v : Nat) : Bool :=
  let cf := tagCfgOf (BitVec.ofNat 64 v)
  let n := 2 ^ cf.eshift * 8
  let plain := (g.qbytes + g.tbytes) * 256
  6 ≤ cf.lshift && cf.lshift ≤ 12 && 3 ≤ cf.eshift && cf.eshift ≤ 12
    && cf.tbase % 256 = 0 && plain ≤ cf.tbase && cf.tbase + n ≤ g.pad * 256
    && (g.gang = 0 || cf.tbase + n ≤ g.pad * 256 - 32768)

/-- `tagi.cfg` (R170); a rejected value has no address, so the record holds the whole value (log 55). -/
def tagiCfgBody (c : Ctx) (s : State) : Res :=
  match c.on, c.tr.wg, wgOf s c.tr with
  | false, _, _ => .done s {}
  | true, some w, some g =>
    let v := rdOpnd c c.x.a .n64 uniTid
    if bitsAt v.toNat 0 8 = 0 ∧ bitsAt v.toNat 32 22 = 0 then .done (modWg s w fun g => { g with tagCfg := none }) {}
    else if tagCfgOk g v.toNat then .done (modWg s w fun g => clearTags { g with tagCfg := some v } (tagCfgOf v)) {}
    else .done s { trap := violationTrap c [(uniTid, v, causeSpRange)] }
  | true, _, _ => .done s { trap := noTileTrap c }

/-! ## The instruction buffer (R172, R185) -/

/-- The leaves of a table that map addresses in [lo, hi): the page's virtual base with its translation. -/
def leavesIn (s : State) (asid lo hi : Nat) : List Level → Nat → Nat → List Trans
  | [], _, _ => []
  | l :: ls, table, base =>
    let span := 2 ^ l.lo
    let i0 := if lo ≤ base then 0 else (lo - base) / span
    let i1 := if hi ≤ base then 0 else (hi - base + span - 1) / span
    let i1 := if i1 < 2 ^ l.bits then i1 else 2 ^ l.bits
    ((List.range (i1 - i0)).map (· + i0)).flatMap fun i =>
      let e := readMem s (table + 8 * i) 8
      if e % 2 = 0 || !reachable s (table + 8 * i) then []
      else if bitsAt e 1 1 = 1 then
        (if l.page = 0 then [] else [{ asid := asid, page := base + i * span, size := l.page, leaf := BitVec.ofNat 64 e }])
      else if l.next = 0 then []
      else leavesIn s asid lo hi ls (entryAddr e) (base + i * span)

/-- The physical ranges that [lo, hi) of an address space maps (R185). -/
def physRanges (s : State) (asid lo hi : Nat) : List (Nat × Nat) :=
  let r := (Tab.read 0 s.roots asid).toNat
  if r % 2 = 0 then []
  else
    let table := bitsAt r 16 29 * 2 ^ 16
    let low := if lo < 2 ^ 55 then leavesIn s asid lo (if hi < 2 ^ 55 then hi else 2 ^ 55) levels table 0 else []
    let top := 2 ^ 64 - 2 ^ 56
    let high := if hi > 2 ^ 64 - 2 ^ 55 then
      leavesIn s asid ((if lo > 2 ^ 64 - 2 ^ 55 then lo else 2 ^ 64 - 2 ^ 55) - top) (hi - top) levels table 0 else []
    let clip := fun (lo hi : Nat) (t : Trans) =>
      let a := if t.page < lo then lo else t.page
      let b := if hi < t.page + t.size then hi else t.page + t.size
      let pa := entryAddr t.leaf.toNat + (a - t.page)
      (if bitsAt t.leaf.toNat 6 2 = 3 then farPa s (bitsAt t.leaf.toNat 45 19) pa else pa, b - a)
    low.map (clip lo hi) ++ high.map (clip (lo - top) (hi - top))

/-- Where the fetch of a train at a PC goes: instruction fetch translates as a load does, so also to another module (R172). -/
def fetchPlace (s : State) (tr : Train) (pc : Dword) : Xl := reachXl s (access s tr .fetch pc 0).2

/-- The lines in which a train's fetch points lie (R172). -/
def fetchTags (s : State) (tr : Train) : List Nat :=
  ((Mask.threads (live tr)).map (pcOf tr)).eraseDups.filterMap fun pc =>
    match fetchPlace s tr pc with
    | .mem pa => some (pa / 256)
    | _ => none

/-- The other trains of a core that have a fetch point in a line. -/
def lineUsers (s : State) (c k tag : Nat) : List Nat :=
  (s.trains.filter fun e => e.2.core = c && e.1 ≠ k && (fetchTags s e.2).contains tag).map (·.2.uid)

/-- `flush.ib` of a range (R185). -/
def flushIb (s : State) (k : Nat) (tr : Train) (lo size : Nat) : State :=
  let hi := if lo + size < 2 ^ 64 then lo + size else 2 ^ 64
  let ranges := (physRanges s tr.asid lo hi).filter fun r => r.2 ≠ 0
  let age : ILine → Option ILine := fun ln =>
    if ranges.any (fun r => overlaps (ln.tag * 256) 256 r.1 r.2) then
      let users := lineUsers s tr.core k ln.tag
      let users := if ln.stale then users.filter (ln.users.contains ·) else users
      if users.isEmpty then none else some { ln with stale := true, users := users }
    else some ln
  modCore s tr.core fun co => { co with ibuf := co.ibuf.filterMap age }

/-- A stale line keeps the trains that have not left it, and goes with the last (R185). -/
def pruneStale (s : State) (c : Nat) : State :=
  let left : ILine → Option ILine := fun ln =>
    if ln.stale then
      let users := ln.users.filter fun u => (trainByUid s u).any fun e => (fetchTags s e.2).contains ln.tag
      if users.isEmpty then none else some { ln with users := users }
    else some ln
  modCore s c fun co => { co with ibuf := co.ibuf.filterMap left }

/-! ## The instructions -/

def execLd (x : Args) (t : Ty) (k : Fin 5) (s : State) : Host.Outcome State Fault Refusal :=
  issue (.ld x t k) x t.wide s (loadBody t k.val)
def execSt (x : Args) (t : Ty) (k : Fin 5) (s : State) : Host.Outcome State Fault Refusal :=
  issue (.st x t k) x false s (storeBody t k.val)
def execLdp (x : Args) (t : Ty) (k : Fin 5) (s : State) : Host.Outcome State Fault Refusal :=
  issue (.ldp x t k) x t.wide s fun c s =>
    let n := tyBytes t
    withSp c s false n (c.lanes.map fun l => (l, spAddr c k.val true l)) fun places trap =>
      .done s { vals := spLoad s c.tr t n c.lanes places, trap := trap }
def execStp (x : Args) (t : Ty) (k : Fin 5) (s : State) : Host.Outcome State Fault Refusal :=
  issue (.stp x t k) x false s fun c s =>
    let n := tyBytes t
    withSp c s true n (c.lanes.map fun l => (l, spAddr c k.val false l)) fun places trap =>
      .done (spStore s c.tr n (fun l => (rdOpnd c x.c t l).toNat) places) { trap := trap }
def execLdt (x : Args) (t : Ty) (k : Fin 5) (s : State) : Host.Outcome State Fault Refusal :=
  issue (.ldt x t k) x t.wide s (ldtBody t k.val)
def execStt (x : Args) (t : Ty) (k : Fin 5) (s : State) : Host.Outcome State Fault Refusal :=
  issue (.stt x t k) x false s (sttBody t k.val)
def execLook (x : Args) (s : State) : Host.Outcome State Fault Refusal := issue (.look x) x false s lookBody
def execTagw (x : Args) (s : State) : Host.Outcome State Fault Refusal := issue (.tagw x) x false s tagwBody
def execTagi (x : Args) (s : State) : Host.Outcome State Fault Refusal := issue (.tagi x) x false s tagiBody
def execTagiAll (x : Args) (s : State) : Host.Outcome State Fault Refusal := issue (.tagiAll x) x false s tagiAllBody
def execTagiCfg (x : Args) (s : State) : Host.Outcome State Fault Refusal := issue (.tagiCfg x) x false s tagiCfgBody
def execTst (x : Args) (s : State) : Host.Outcome State Fault Refusal := issue (.tst x) x false s tstBody
def execTstDef (x : Args) (s : State) : Host.Outcome State Fault Refusal := issue (.tstDef x) x false s tstDefBody

/-- A prefetch of an address: its translation is kept where no check stops the access; a fault or violation drops it (R183). -/
def prefetch (s : State) (tr : Train) (va : Dword) : State :=
  match access s tr .load va 0 with
  | (s', .mem _) | (s', .remote _ _) => s'
  | (_, .fault _) | (_, .bad _) => s

/-- `pref` caches the translations and drops what fails (R183). -/
def execPref (x : Args) (k : Fin 5) (s : State) : Host.Outcome State Fault Refusal :=
  issue (.pref x k) x false s fun c s =>
    .done (c.lanes.foldl (fun s l => prefetch s c.tr (globalAddr c k.val true l)) s) {}

/-- `fence` (R184): a release performs the train's earlier accesses, an acquire returns its earlier loads. -/
def execFence (x : Args) (sc : Scope) (o : Order) (s : State) : Host.Outcome State Fault Refusal :=
  issue (.fence x sc o) x false s fun c s =>
    if !c.on then .done s {}
    else match o with
      | .rel | .ar => .done (performEarlier s c.k) {}
      | .acq => .done (returnLoads s c.k fun _ => true) {}
      | .none => .done s {}
def execFlushWc (x : Args) (s : State) : Host.Outcome State Fault Refusal :=
  issue (.flushWc x) x false s fun c s => .done (if c.on then performWc s c.k else s) {}
def execFlushIb (x : Args) (s : State) : Host.Outcome State Fault Refusal :=
  issue (.flushIb x) x false s fun c s =>
    .done (if c.on then flushIb s c.k c.tr (rdOpnd c x.a .n64 uniTid).toNat (rdOpnd c x.b .n64 uniTid).toNat else s) {}

/-! ## Events of memory -/

/-- LOAD_DATA_RETURN (R186). -/
def execLoadDataReturn (tr i : Nat) (s : State) : Host.Outcome State Fault Refusal := unitStep (returnLoadOrdered s tr i)

/-- STORE_PERFORMED: a store that is not held in a write-combining buffer (R196). -/
def execStorePerformed (tr i : Nat) (s : State) : Host.Outcome State Fault Refusal :=
  unitStep (match train? s tr with
    | some t => if (t.stores.drop i).head?.any (fun st => !st.wc) then performStore s tr i else s
    | none => s)

/-- WC_BUFFER_DRAIN_TIMEOUT: a buffer drains, at the latest 4 096 cycles after its last write (R196), when `drainOld` makes it. -/
def execWcBufferDrainTimeout (tr i : Nat) (s : State) : Host.Outcome State Fault Refusal :=
  unitStep (match train? s tr with
    | some t =>
      match (t.stores.drop i).head? with
      | some st => if st.wc then drainBuffer s tr (blockOf st.pa) else s
      | none => s
    | none => s)

/-- The bytes of a line of memory that are not zero, by offset. -/
def lineBytes (s : State) (tag : Nat) : Tab Byte :=
  (List.range 256).foldl (fun m o => Tab.write 0 m o (readByte s (tag * 256 + o))) []

/-- Fill a line for a train: while all 256 lines are held nothing is filled; else the oldest line that no fetch point
holds makes room (R172). -/
def fillLine (s : State) (c tag : Nat) : Option State :=
  let co := coreAt s c
  let new : ILine := { tag := tag, bytes := lineBytes s tag }
  if co.ibuf.length < 256 then some (putCore s c { co with ibuf := co.ibuf ++ [new] })
  else
    let heldTags := ((s.trains.filter fun e => e.2.core = c).flatMap fun e => fetchTags s e.2)
    match co.ibuf.findIdx? fun ln => !ln.stale && !heldTags.contains ln.tag with
    | some i => some (putCore s c { co with ibuf := co.ibuf.eraseIdx i ++ [new] })
    | none => none

/-- The line that a train may fetch from: a stale line only for the trains it is kept for. -/
def fetchLine (co : Core) (uid tag : Nat) : Option ILine :=
  match co.ibuf.find? fun ln => ln.tag = tag && ln.stale && ln.users.contains uid with
  | some ln => some ln
  | none => co.ibuf.find? fun ln => ln.tag = tag && !ln.stale

/-- INSTRUCTION_FETCH_FILL: the line at a train's PC is filled, and a train that waited for it issues (R172). -/
def execInstructionFetchFill (tr : Nat) (s : State) : Host.Outcome State Fault Refusal :=
  unitStep (match train? s tr with
    | some t =>
      match fetchPlace s t t.pc with
      | .mem pa =>
        if (fetchLine (coreAt s t.core) t.uid (pa / 256)).isSome then
          (if t.block = some .fetchLine then unblock s tr else s)
        else
          match fillLine s t.core (pa / 256) with
          | some s => if t.block = some .fetchLine then unblock s tr else s
          | none => s
      | _ => if t.block = some .fetchLine then unblock s tr else s
    | none => s)

/-- FAULT_ENTRY_FREED: a train parked without an entry executes again once an entry of its cluster is free (R161). -/
def execFaultEntryFreed (tr : Nat) (s : State) : Host.Outcome State Fault Refusal :=
  unitStep (match train? s tr with
    | some { block := some (.faultNoEntry _ _), .. } =>
      if (Tab.firstFree s.faults 1024 (clusterOfKey tr * 1024)).isSome then unblock s tr else s
    | _ => s)

/-- Whether a blocked train's tile admits it now (R168, R169). -/
def tileAdmits (g : Wg) (t : Nat) (states : List Nat) (free : Bool) : Bool :=
  states.contains (tileOf g t).state && (!free || !referenced g t)

/-- TILE_GATE_RELEASE (R168). A latched tile lets a `tst` or store go on to its HELD trap (R139). -/
def execTileGateRelease (tr : Nat) (s : State) : Host.Outcome State Fault Refusal :=
  unitStep (match train? s tr with
    | some t =>
      match t.block, wgOf s t with
      | some (.tile i st free), some g => if tileAdmits g i st free || latchedTile g i then unblock s tr else s
      | _, _ => s
    | none => s)

end Sys2Proof.Machine
end

