-- ==== Sys2Proof/Machine/Atomic.lean ====
section
/-! DEFINITION. The atomics class (R219 to R230), join staging (R226, R338, R339), and the events of `waita`. -/

namespace Sys2Proof.Machine

/-! ## Joins that a handle names (R338) and staging (R339) -/

/-- The slot of the registered join that a handle names for a partition; none for a stale handle. -/
def joinSlot (s : State) (part : Nat) (handle : Nat) : Option Nat :=
  let j := bitsAt handle 0 12
  match Tab.get? s.joins j with
  | some jn => if bitsAt handle 12 16 = (Tab.read 0 s.joinGen j).toNat && jn.part = part then some j else none
  | none => none

/-- A train becomes an enrolled contributor of a join (R339). -/
def enrol (s : State) (j uid : Nat) : State :=
  modJoin s j fun jn =>
    if jn.contribs.any (·.uid = uid) then jn else { jn with contribs := jn.contribs ++ [{ uid := uid }] }

/-- The deltas that a partition's staging area holds. -/
def stagedCells (s : State) (p : Nat) : Nat :=
  s.joins.foldl (fun n e => if e.2.part = p then e.2.contribs.foldl (fun n c => n + c.stage.length) n else n) 0

/-- Whether the staging area holds one more delta, of 16 bytes (R339, R406). -/
def stagingFits (s : State) (p : Nat) : Bool := 16 * (stagedCells s p + 1) ≤ (partAt s p).stagesz.toNat

/-- The cell of a join at the place to which an address translates. -/
def cellIndex (s : State) (jn : Join) (place : Xl) : Option Nat :=
  (List.range jn.ncells).find? fun i =>
    unitAccess s jn.part jn.asid jn.priv .store (jn.cells + BitVec.ofNat 64 (16 * i)) 16 = place

inductive Staged where
  | ok (s : State)
  | full
  | outside

/-- Add a delta to a contributor's staging copy of the cell at a place. -/
def stageCell (s : State) (j uid : Nat) (place : Xl) (delta : WideCell) : Staged :=
  match Tab.get? s.joins j with
  | none => .ok s
  | some jn =>
    match cellIndex s jn place with
    | none => .outside
    | some i =>
      let s := enrol s j uid
      let listed := (Tab.get? s.joins j).any fun jn => jn.contribs.any fun c => c.uid = uid && (Tab.get? c.stage i).isSome
      if !listed && !stagingFits s jn.part then .full
      else .ok (modJoin s j fun jn =>
        { jn with contribs := jn.contribs.map fun c =>
            if c.uid = uid then { c with stage := Tab.put c.stage i (Tab.read 0 c.stage i + delta) } else c })

/-! ## Read-modify-writes (R222 to R227) -/

def atomicGlobal (c : Ctx) (t : Nat) : Dword :=
  BitVec.ofNat 64 (wrap ((rdOpnd c c.x.a .n64 t).toNat + (if c.x.ext != .short then extOffset c.x else 0)) 64)
def atomicSp (c : Ctx) (t : Nat) : Nat :=
  wrap ((rdOpnd c c.x.a .b32 t).toNat + (if c.x.ext != .short then extOffset c.x else 0)) 32

/-- One atomic on memory, after the train's earlier stores to the bytes (R223): the old value and the state. -/
def atomicAt (s : State) (k pa n : Nat) (write : Bool) (f : Nat → Nat) : Nat × State :=
  let s := performOverlapping s k pa n
  let old := readMem s pa n
  (old, if write then writeMem s pa n (f old) else s)

/-- The atomics of all threads on memory, in ascending tid. -/
def atomicAll (k n : Nat) (write : Bool) (f : Nat → Nat → Nat) : List (Nat × Nat) → State → List (Nat × Nat) × State
  | [], s => ([], s)
  | (t, pa) :: rest, s =>
    let (old, s) := atomicAt s k pa n write (f t)
    let (r, s) := atomicAll k n write f rest s
    ((t, old) :: r, s)

/-- The atomics of all threads on a scratchpad. -/
def atomicAllSp (n : Nat) (write : Bool) (f : Nat → Nat → Nat) : List (Nat × Nat) → Wg → List (Nat × Nat) × Wg
  | [], g => ([], g)
  | (t, a) :: rest, g =>
    let old := spRead g a n
    let (r, g) := atomicAllSp n write f rest (if write then spWrite g a n (f t old) else g)
    ((t, old) :: r, g)

/-- What one kind of atomic does: its access, size, request to another module, new value, result and flags by thread. -/
structure AtomicOp where
  acc    : Access
  n      : Nat
  align  : Nat := causeSpRange
  write  : Bool := true
  remote : Nat → RemoteOp
  new    : Nat → Nat → Nat
  res    : Nat → Dword × FlagSet := fun _ => (0, 0)
  flags  : Nat → FlagSet := fun _ => 0

/-- `atom`, `cas`, untagged `facc` and `faccr`; `ret` says whether D receives results. -/
def atomicBody (o : AtomicOp) (ret : Bool) (c : Ctx) (s : State) : Res :=
  let fin := fun (s : State) (olds : List (Nat × Nat)) (bad : List Nat) (trap : Option TrapRec) =>
    let r := olds.map fun e => (e.1, o.res e.2)
    Res.done s { vals := if ret then r.map (fun e => (e.1, e.2.1)) ++ bad.map (fun t => (t, (0 : Dword))) else []
                 flags := joinFlags (r.map fun e => e.2.2 ||| o.flags e.1), trap := trap }
  let s := if extOrder c.x ≥ 2 then performEarlier s c.k else s
  let s := if ret && !c.x.sp then loadRoom s c.k else s
  if c.x.sp then
    withSp c s true o.n (align := o.align) (c.lanes.map fun t => (t, atomicSp c t)) fun places trap =>
      match c.tr.wg, wgOf s c.tr with
      | some w, some g =>
        let (olds, g) := atomicAllSp o.n o.write o.new places g
        fin (putWg s w g) olds (c.lanes.filter fun t => !places.any fun e => e.1 = t) trap
      | _, _ => fin s [] c.lanes trap
  else
    let near := fun (s : State) (l : List (Nat × Nat)) => atomicAll c.k o.n o.write o.new l (settleLoads s c.k l o.n)
    withPlaces c s o.acc o.n (c.lanes.map fun t => (t, atomicGlobal c t)) o.remote
      (near := some fun s l => let r := near s l; (r.2, r.1.map fun e => (e.1, .data (bytesOf e.2 o.n)))) fun s l =>
      let viol := violations c.tr.replies l
      let bad := viol.map (·.1)
      let far := ((remotePlaces l).filter fun e => !bad.contains e.1).map fun e =>
        (e.1, replyValue (Tab.get? c.tr.replies e.1))
      let (olds, s) := near (clearReplies s c.k) (localPlaces l)
      fin s (olds ++ far) bad (violationTrap c viol)

/-- The new value of an `atom` (R224). -/
def atomNew (op : AtomOp) (t : Ty) (old b : Nat) : Nat :=
  let w := t.width
  let less := if t.signed then signExt old w ≤ signExt b w else old ≤ b
  match op with
  | .add => (old + b) % 2 ^ w
  | .min => if less then old else b
  | .max => if less then b else old
  | .and => old &&& b
  | .or => old ||| b
  | .xor => old ^^^ b
  | .xchg => b

/-- A data operand of an atomic, as a number of the type's width. -/
def atomData (c : Ctx) (o : Opnd) (t : Ty) (l : Nat) : Nat := (rdOpnd c o t l).toNat % 2 ^ t.width

def atomOp (c : Ctx) (t : Ty) (op : AtomOp) : AtomicOp :=
  { acc := .rmw, n := tyBytes t, remote := fun l => .atom op t (BitVec.ofNat 64 (atomData c c.x.b t l))
    new := fun l old => atomNew op t old (atomData c c.x.b t l), res := fun old => (BitVec.ofNat 64 old, 0) }

def casOp (c : Ctx) (t : Ty) : AtomicOp :=
  { acc := .rmw, n := tyBytes t
    remote := fun l => .compareSwap (tyBytes t) (BitVec.ofNat 64 (atomData c c.x.b t l)) (BitVec.ofNat 64 (atomData c c.x.c t l))
    new := fun l old => if old = atomData c c.x.b t l then atomData c c.x.c t l else old
    res := fun old => (BitVec.ofNat 64 old, 0) }

/-- What an addend adds to a cell (R82). -/
def addend (c : Ctx) (l : Nat) : WideCell × FlagSet :=
  floatToCell (decodeFmt .f32 ((rdOpnd c c.x.b .f32 l).toNat % 2 ^ 32))

def faccOp (c : Ctx) : AtomicOp :=
  { acc := .rmw, n := 16, align := causeAlign, remote := fun l => .cellAdd (addend c l).1
    new := fun l old => (BitVec.ofNat 128 old + (addend c l).1).toNat
    flags := fun l => (addend c l).2 }

def faccrOp (t : Ty) (r : RMode) (z : Bool) : AtomicOp :=
  { acc := if z then .rmw else .load, n := 16, write := z, remote := fun _ => if z then .cellTake else .read 16
    new := fun _ _ => 0
    res := fun old => let e := cellToFloat (BitVec.ofNat 128 old) (fmtOf t) r
                      (placed t e.code, e.flags) }

def execAtom (x : Args) (t : Ty) (op : AtomOp) (s : State) : Host.Outcome State Fault Refusal :=
  issue (.atom x t op) x t.wide s fun c s => atomicBody (atomOp c t op) true c s
def execCas (x : Args) (t : Ty) (s : State) : Host.Outcome State Fault Refusal :=
  issue (.cas x t) x t.wide s fun c s => atomicBody (casOp c t) true c s
def execFacc (x : Args) (s : State) : Host.Outcome State Fault Refusal :=
  issue (.facc x) x false s fun c s => atomicBody (faccOp c) false c s
def execFaccr (x : Args) (t : Ty) (r : RMode) (z : Bool) (s : State) : Host.Outcome State Fault Refusal :=
  issue (.faccr x t r z) x false s fun c s => atomicBody (faccrOp t r z) true c s

/-! ## Join-tagged `facc` (R226, R339) -/

/-- Stage the addends of the threads in ascending tid; the threads outside the cell array, and none when the area is full. -/
def stageAll (j uid : Nat) (delta : Nat → WideCell) : List (Nat × Dword × Xl) → State →
    Option (State × List (Nat × Dword × Nat))
  | [], s => some (s, [])
  | (t, va, place) :: rest, s =>
    match stageCell s j uid place (delta t) with
    | .full => none
    | .outside => (stageAll j uid delta rest s).map fun r => (r.1, (t, va, 14) :: r.2)
    | .ok s => stageAll j uid delta rest s

/-- Violations in ascending tid. -/
def sortTids {α : Type} (lanes : List Nat) (l : List (Nat × α)) : List (Nat × α) :=
  lanes.filterMap fun t => l.find? (·.1 = t)

/-- The open join that C of a tagged `facc` names (R226). -/
def taggedJoin (c : Ctx) (s : State) : Option Nat :=
  (joinSlot s c.tr.part (rdOpnd c c.x.c .b32 uniTid).toNat).filter fun j => (Tab.get? s.joins j).any (·.state = 1)

/-- A tagged addend is translated and checked as a store and goes to the contributor's staging copy; JCELL is cause 14 (R222). Where no
open join is named nothing is staged or raised (R226, log 21). A train enrols as it stages: one whose first tagged `facc` waits for room in
the staging area is not enrolled yet, which the spec leaves open (log 21). -/
def faccTaggedBody (c : Ctx) (s : State) : Res :=
  let addrs := c.lanes.map fun t => (t, atomicGlobal c t)
  match translateAll s c.tr .store 16 addrs with
  | (s, .fault va pte) => .left (park s c.k c.head va 1 pte c.tr.pc 0 (faultMask s c.tr c.x.u .store 16 addrs))
  | (s, .ok l) =>
    match taggedJoin c s with
    | none => .done s { flags := joinFlags (c.lanes.map fun t => (addend c t).2) }
    | some j =>
      let l := l.map fun e => (e.1, e.2.1, reachXl s e.2.2)
      let viol := violations [] l
      let rest := l.filter fun e => !viol.any fun v => v.1 = e.1
      match stageAll j c.tr.uid (fun t => (addend c t).1) rest (if c.on then enrol s j c.tr.uid else s) with
      | none => .blocked s .staging
      | some (s, outside) =>
        let v := sortTids c.lanes (viol ++ outside)
        let lanes := c.lanes.filter fun t => !v.any fun e => e.1 = t
        .done s { flags := joinFlags (lanes.map fun t => (addend c t).2), trap := violationTrap c v }

def execFaccTagged (x : Args) (s : State) : Host.Outcome State Fault Refusal :=
  issue (.faccTagged x) x false s faccTaggedBody

/-- STAGING_ROOM: a train that found the staging area full goes on once it holds a delta more (R339). -/
def execStagingRoom (tr : Nat) (s : State) : Host.Outcome State Fault Refusal :=
  unitStep (match train? s tr with
    | some t => if t.block = some .staging && stagingFits s t.part then unblock s tr else s
    | none => s)

/-! ## `waita` (R228, R229) -/

/-- What a waiting thread reads now: nothing yet for a remote one without a reply, and no value where the other module does not
answer (R164, R426). -/
inductive WaitGot where
  | value (v : Nat)
  | later
  | refused
  deriving DecidableEq, Repr

/-- The read of a waiting thread. -/
def waitRead (s : State) (tr : Train) (sp : Bool) (n : Nat) (w : WaitCell) : WaitGot :=
  if sp then .value ((wgOf s tr).elim 0 fun g => spRead g w.addr n)
  else match w.module with
    | none => .value (trainMem s tr w.addr n)
    | some _ => match Tab.get? tr.replies w.tid with
      | some (.data bs) => .value (ofBytes bs)
      | some .error => .refused
      | none => .later

def waitHolds (eq : Bool) (w : WaitCell) (val : Nat) : Bool := (val = w.operand) == eq

/-- A round of reads: the threads still waiting, the values by thread, and the violations. -/
structure Waiting where
  left : List WaitCell := []
  vals : List (Nat × Nat) := []
  viol : List (Nat × Dword × Nat) := []

/-- One round of reads. A thread that is refused waits no longer: its value is zero (R163). -/
def waitRound (read : WaitCell → WaitGot) (eq : Bool) : List WaitCell → List (Nat × Nat) → Waiting
  | [], vals => { vals := vals }
  | w :: rest, vals =>
    let told := fun (v : Nat) => vals.filter (fun e => e.1 ≠ w.tid) ++ [(w.tid, v)]
    match read w with
    | .later => let r := waitRound read eq rest vals; { r with left := w :: r.left }
    | .refused => let r := waitRound read eq rest (told 0); { r with viol := (w.tid, w.va, causeRemote) :: r.viol }
    | .value v =>
      let r := waitRound read eq rest (told v)
      { r with left := if waitHolds eq w v then r.left else w :: r.left }

/-- The trap of a `waita` with violations that a round met added: it names the lowest thread's address and cause, and the mask of all
(R163). -/
def addViolations (x : Args) (pc : Dword) (trap : Option TrapRec) (viol : List (Nat × Dword × Nat)) : Option TrapRec :=
  viol.foldl (fun trap v =>
    let bit : Mask := if x.u then 0 else 1#64 <<< v.1
    let new : TrapRec := { kind := Trap.access, cause := v.2.2, pc := pc, addr := v.2.1, mask := bit }
    match trap with
    | none => some new
    | some r => some (if (lowest r.mask).any (v.1 < ·) then { new with mask := r.mask ||| bit } else { r with mask := r.mask ||| bit }))
    trap

def pastDeadline (s : State) (tr : Train) : Bool := tr.deadline.any fun d => d ≤ s.clk

/-- The values that a `waita` writes. -/
def waitVals (vals : List (Nat × Nat)) : List (Nat × Dword) := vals.map fun e => (e.1, BitVec.ofNat 64 e.2)

def clearDeadline (s : State) (k : Nat) : State := modTrain s k fun tr => { tr with deadline := none, replies := [] }

/-- A train that parks keeps no deadline (R228). -/
def forgetDeadline (s : State) (k : Nat) : State :=
  match (train? s k).bind (·.block) with
  | some (.fault _ _ _ _ _) | some (.faultNoEntry _ _) => modTrain s k fun tr => { tr with deadline := none }
  | _ => s

/-- The execution of a `waita`. A bound counts from the execution: one that parks starts anew at its REPLAY; one that awaits the
replies of other modules, or was saved in the Depot, keeps its deadline (R228, R229). From its first read on it is a `waita` that waits,
and so at a kill point (R229, R357). -/
def waitaBody (i : Instr) (t : Ty) (eq : Bool) (c : Ctx) (s : State) : Res :=
  let n := tyBytes t
  let dl : Option Nat := if c.x.c = .zero then none else
    some (c.tr.deadline.getD (s.clk + (rdOpnd c c.x.c .b32 uniTid).toNat))
  let go := fun (s : State) (cells : List WaitCell) (bad : List (Nat × Nat)) (trap : Option TrapRec) =>
    match train? s c.k with
    | none => Res.left s
    | some tr =>
      let r := waitRound (waitRead s tr c.x.sp n) eq cells bad
      if r.left.isEmpty || dl.any (· ≤ s.clk) then .done (clearDeadline s c.k) { vals := waitVals r.vals, trap := trap }
      else
        let b := Block.waita c.x.sp r.left r.vals tr.pc tr.chain trap s.clk
        .left (modTrain (blockAt s c.k c.head b) c.k fun tr => { tr with deadline := dl, atWait := some i, replies := [] })
  if c.x.sp then
    withSp c s true n (c.lanes.map fun l => (l, atomicSp c l)) fun places trap =>
      go s (places.map fun e => { tid := e.1, addr := e.2, operand := atomData c c.x.b t e.1 })
        ((c.lanes.filter fun l => !places.any fun e => e.1 = l).map fun l => (l, 0)) trap
  else
    let addrs := c.lanes.map fun l => (l, atomicGlobal c l)
    let s := modTrain (loadRoom s c.k) c.k fun tr => { tr with deadline := dl }
    let res := withPlaces c s .load n addrs (fun _ => .read n) fun s l =>
      let viol := violations c.tr.replies l
      let s := settleLoads s c.k (localPlaces l) n
      let cells := l.filterMap fun e => match e.2.2 with
        | .mem pa => some { tid := e.1, addr := pa, operand := atomData c c.x.b t e.1, va := e.2.1 }
        | .remote m pa =>
          if viol.any fun v => v.1 = e.1 then none
          else some { tid := e.1, addr := pa, operand := atomData c c.x.b t e.1, module := some m, va := e.2.1 }
        | _ => none
      go s cells (viol.map fun v => (v.1, 0)) (violationTrap c viol)
    match res with
    | .left s => .left (forgetDeadline s c.k)
    | .blocked s b => .left (modTrain (blockAt s c.k c.head b) c.k fun tr => { tr with atWait := some i })
    | r => r

def execWaita (x : Args) (t : Ty) (eq : Bool) (s : State) : Host.Outcome State Fault Refusal :=
  issue (.waita x t eq) x t.wide s (waitaBody (.waita x t eq) t eq)

/-- The wait of a `waita` ends with these values. -/
def finishWaita (s : State) (k : Nat) (x : Args) (t : Ty) (vals : List (Nat × Nat)) (pc : Dword) (chain : Chain)
    (trap : Option TrapRec) : State :=
  match train? s k with
  | some { atWait := some i, .. } =>
    let s := forsake (clearDeadline (unblock s k) k) k
    complete i x t.wide k pc (modTrain s k fun tr => { tr with pc := pc, chain := chain })
      { vals := waitVals vals, trap := trap }
  | _ => s

/-- Ask again for the remote threads that wait and have neither reply nor request (R229); one that no request reaches any more is
refused (R426). -/
def askAgain (s : State) (k n : Nat) (cells : List WaitCell) : State :=
  match train? s k with
  | none => s
  | some tr =>
    cells.foldl (fun s w => match w.module with
      | some m =>
        if s.remote.any fun r => r.2.uid = tr.uid && r.2.tid = w.tid && !tr.asides.any (asideAwaits r.1) then s
        else if cutOff s tr.part m then modTrain s k fun tr => { tr with replies := Tab.put tr.replies w.tid .error }
        else ((askRemote s k (fun _ => .read n) [(w.tid, m, w.addr)]).map (·.1)).getD s
      | none => s) s

/-- WAITA_REREAD: the waiting threads read again (R229); the wait ends when every condition has held. A read follows every write
within 1 024 cycles and before the bound ends the wait, when the step makes it (`overdue`). -/
def execWaitaReread (tr : Nat) (s : State) : Host.Outcome State Fault Refusal :=
  unitStep (match train? s tr with
    | some { block := some (.waita sp cells vals pc chain trap _), atWait := some (.waita x t eq), .. } =>
      (train? s tr).elim s fun me =>
        let r := waitRound (waitRead s me sp (tyBytes t)) eq cells vals
        let trap := addViolations x pc trap r.viol
        if r.left.isEmpty then finishWaita s tr x t r.vals pc chain trap
        else
          let s := modTrain s tr fun me => { me with block := some (.waita sp r.left r.vals pc chain trap s.clk), replies := [] }
          askAgain s tr (tyBytes t) r.left
    | _ => s)

/-- WAITA_DEADLINE: the bound passes; the waiting threads read once more, and every thread gets the value last read (R228). -/
def execWaitaDeadline (tr : Nat) (s : State) : Host.Outcome State Fault Refusal :=
  unitStep (match train? s tr with
    | some { block := some (.waita sp cells vals pc chain trap _), atWait := some (.waita x t eq), deadline := some d, .. } =>
      if d ≤ s.clk then
        (train? s tr).elim s fun me =>
          let r := waitRound (waitRead s me sp (tyBytes t)) eq cells vals
          finishWaita s tr x t r.vals pc chain (addViolations x pc trap r.viol)
      else s
    | _ => s)

/-- Where a waiting thread's location lies by the translation of now; none where it faults or violates. -/
def renewCell (s : State) (tr : Train) (n : Nat) (w : WaitCell) : Option WaitCell :=
  match homeXl s (access s tr .load w.va n).2 with
  | .mem pa => some { w with addr := pa, module := none }
  | .remote m pa => some { w with addr := pa, module := some m }
  | _ => none

/-- A waiting `waita` on memory translates again once its translations have gone: its reads to come use none of them (R158, R211, R401).
Where an address faults or violates now, the instruction executes anew from its chain head. -/
def renewWait (s : State) (k : Nat) : State :=
  match train? s k with
  | some { block := some (.waita false cells vals pc chain trap last), atWait := some (.waita x t eq), .. } =>
    (train? s k).elim s fun tr =>
      let new := cells.map (renewCell s tr (tyBytes t))
      if new.any (·.isNone) then forsake (unblock s k) k
      else modTrain s k fun tr => { tr with block := some (.waita false (new.filterMap id) vals pc chain trap last)
                                            atWait := some (.waita x t eq) }
  | _ => s

/-- Every waiting `waita` of some address spaces translates again. -/
def renewWaits (s : State) (p : Nat → Bool) : State := (trainsWhere s fun _ t => p t.asid).foldl renewWait s

end Sys2Proof.Machine
end

