-- ==== Sys2Proof/Machine/Fetch.lean ====
section
/-! DEFINITION. The fetch of an instruction (R32, R33, R48, R172): the checks that precede its meaning, in their order. -/

namespace Sys2Proof.Machine

/-- What the fetch of a train answers: the instruction to execute, or the state in which it stands: parked, trapped or waiting
for a line. -/
inductive Fetched where
  | run (i : Instr) (s : State)
  | stop (s : State)

/-- Where a train resumes when the fetch of the instruction at its PC cannot complete. The instruction may be a member of the
chain, so the head is executed again where R53 makes that repetition leave the same values; a head that writes a register
that it reads can have no member (R54). -/
def fetchHead (tr : Train) : Dword :=
  if tr.chain.len ≠ 0 && !tr.chain.terminal && !tr.chain.selfWrite then tr.chain.head else tr.pc

/-- The bytes from a physical address to the end of its 256-byte line, at most 16. -/
def lineWindow (ln : ILine) (pa : Nat) : List Byte :=
  Tab.readList 0 ln.bytes (pa % 256) (if pa % 256 ≤ 240 then 16 else 256 - pa % 256)

/-- The failing check of R48 for the bytes at a PC, or the instruction. Check 5, privilege, stands between 4 and 6. -/
def fetchChecks (priv : Bool) (pc : Dword) (bs : List Byte) : Except Nat Instr :=
  match lenBytes ((bs.headD 0).toNat % 4) with
  | none => .error 2
  | some n =>
    if pc.toNat % 32 + n > 32 then .error 3
    else match decode bs with
      | .ok (i, _) => if isPrivileged i && !priv then .error 5 else .ok i
      | .error (.check c) => if c ≥ 6 && privilegedOpc (peekOpc bs) && !priv then .error 5 else .error c
      | .error .tooShort => .error 3

/-- The trap of a failing check (R48, R377). -/
def checkTrap (n : Nat) : TrapRec :=
  if n = 5 then trapOf Trap.privilege 1 else if n ≥ 8 then trapOf Trap.operand n else trapOf Trap.illegal n

/-- The operand fields of the base word at the head of a list of bytes. -/
def peekArgs (bs : List Byte) : Args := (Raw.ofNat (ofBytes (bs.take 8))).args

/-- The resume point of a failing check: a word that is framed and names a latch is a member of the chain (R51, R54; log 18). -/
def checkHead (tr : Train) (n : Nat) (bs : List Byte) : Dword :=
  if n ≥ 4 then chainHead tr (peekArgs bs) else tr.pc

/-- Decode the bytes at the train's PC, or raise the trap of the first failing check. -/
def fetchFrom (s : State) (k : Nat) (tr : Train) (bs : List Byte) : Fetched :=
  match fetchChecks tr.priv tr.pc bs with
  | .ok i => .run i s
  | .error n => .stop (raiseAt s k (checkHead tr n bs) { checkTrap n with pc := tr.pc })

/-- The line at a physical address, filled when it is not in the buffer (R172). -/
def lineAt (s : State) (tr : Train) (tag : Nat) : Option (ILine × State) :=
  match fetchLine (coreAt s tr.core) tr.uid tag with
  | some ln => some (ln, s)
  | none => match fillLine s tr.core tag with
    | some s => (fetchLine (coreAt s tr.core) tr.uid tag).map fun ln => (ln, s)
    | none => none

/-- THE FETCH of a train's next instruction (R48, R172). -/
def fetch (s : State) (k : Nat) : Fetched :=
  match train? s k with
  | none => .stop s
  | some tr =>
    if tr.pc.toNat % 4 ≠ 0 then .stop (raiseAt s k tr.pc { checkTrap 1 with pc := tr.pc })
    else
      let s := (access s tr .fetch tr.pc 0).1
      match fetchPlace s tr tr.pc with
      | .fault pte => .stop (park s k (fetchHead tr) tr.pc 2 pte tr.pc 0)
      | .bad c => .stop (raiseAt s k (fetchHead tr) { trapOf Trap.access c with pc := tr.pc, addr := tr.pc })
      | .remote _ _ => .stop s
      | .mem pa => match lineAt s tr (pa / 256) with
        | none => .stop (blockAt s k (fetchHead tr) .fetchLine)
        | some (ln, s) => fetchFrom s k tr (lineWindow ln pa)

/-- The bytes at a train's PC as its core's buffer, or memory, holds them; none where the fetch does not reach them. -/
def peekBytes (s : State) (tr : Train) : Option (List Byte) :=
  match fetchPlace s tr tr.pc with
  | .mem pa =>
    some (lineWindow ((fetchLine (coreAt s tr.core) tr.uid (pa / 256)).getD
      { tag := pa / 256, bytes := lineBytes s (pa / 256) }) pa)
  | _ => none

/-- Whether the word at a train's PC names a latch, and so continues its chain (R51). A word that its fetch does not reach yet may
be a member: the pipe stays with the train until the fetch tells. -/
def nextNames (s : State) (tr : Train) : Bool :=
  match peekBytes s tr with
  | none => true
  | some bs => match fetchChecks tr.priv tr.pc bs with
    | .ok _ => namesLatch (peekArgs bs)
    | .error n => n ≥ 4 && namesLatch (peekArgs bs)

/-- Whether a train stands inside a latch chain: between two of its members (R51, R54). A pending long operation does when it names
a latch itself or the next instruction does (R99). -/
def insideChain (s : State) (tr : Train) : Bool :=
  match tr.long with
  | some l => namesLatch l.x || (!isTerminal l.instr l.x && nextNames s (advance tr l.x.len))
  | none => tr.chain.len ≠ 0 && !tr.chain.terminal && tr.block.isNone && nextNames s tr

/-- Whether a train stands at a chain boundary, where traps and pre-emption take effect (R54, R99). -/
def chainBoundary (s : State) (tr : Train) : Bool := tr.long.isNone && !insideChain s tr

/-! ## Delivery of a waiting record (R379, R380) -/

/-- Whether a train's wait lets a record be delivered: it resumes from its chain head (R54). A row of a matrix instruction whose
requests to another module are out is no boundary (R146), and a train whose threads have all exited has none to deliver to. -/
def interruptible (s : State) (tr : Train) : Bool :=
  match tr.block with
  | some .draining => false
  | some (.matrixOp _) => tr.replies.isEmpty && !s.remote.any fun r => r.2.uid = tr.uid
  | _ => true

/-- Whether a train goes on with an instruction whose requests to another module are answered: it is in its middle (R207). -/
def midAccess (tr : Train) : Bool := tr.block.isNone && !tr.replies.isEmpty

/-- Whether a train has a record that is to be delivered now: it handles no trap and stands at a chain boundary. It executes
nothing before that (R379). -/
def recordDue (s : State) (tr : Train) : Bool :=
  !tr.intrap && !tr.tq.isEmpty && interruptible s tr && chainBoundary s tr

/-- A train leaves its wait: a parked one leaves the Siding, what a dispatch holds goes back, a request for banks and a matrix instruction
leave the queue, a `waita` its reads of other modules and an `svc` its token. It starts anew from its chain head; a wait that cannot begin again is
set aside (log 28). -/
def leaveWait (s : State) (k : Nat) : State :=
  let s := (train? s k).elim s fun tr => returnToken s tr.uid
  let s := forsake (returnHeld (unlinkFault (withdrawMatrix (withdrawAlloc (modTrain s k setAside) k) k) k) k) k
  modTrain (unblock s k) k fun t => { rewindTo t t.pc with replies := [], access := none }

/-- Deliver a record that is due. -/
def deliverDue (s : State) (k : Nat) : State :=
  match train? s k with
  | some t =>
    if recordDue s t then deliverHead (leaveWait s k) k else s
  | none => s

end Sys2Proof.Machine
end

