-- ==== Sys2Proof/Machine/QueueClass.lean ====
section
/-! DEFINITION. The queue and ring class (R231 to R250) and the events of queues. -/

namespace Sys2Proof.Machine

/-! ## Queue registers (R235 to R238) -/

/-- An instruction of the queue class needs a workgroup and its guard. -/
def withQueues (c : Ctx) (s : State) (go : Nat → Wg → Res) : Res :=
  if !c.on then .done s {}
  else match c.tr.wg, wgOf s c.tr with
    | some w, some g => go w g
    | _, _ => .trap s (trapOf Trap.queue 7)

def queueNum (o : Opnd) : Nat := match o with | .q n => n.toNat | _ => 0

/-- The trains of a workgroup that are blocked on a queue, each with the PC of its instruction. -/
def blockedOn (s : State) (w q : Nat) : List (Nat × Dword) :=
  (trainsOfWg s w).filterMap fun k => match train? s k with
    | some { block := some (.queue qs pc), .. } => if qs.any fun n => n.1 = q then some (k, pc) else none
    | _ => none

/-- A queue trap of a blocked train at its instruction (R235, R236). The record of every STALL has ASYNC = 1 (R378); `waits` says whether
the trap is taken as an asynchronous one. -/
def raiseBlocked (s : State) (k cause : Nat) (pc : Dword) (async waits : Bool) : State :=
  match train? s k with
  | none => s
  | some tr => deliverDue (raiseAtAs s k tr.pc { trapOf Trap.queue cause with pc := pc, async := async } waits) k

/-- Whether two regions of bytes share one. -/
def qbindOverlaps (g : Wg) (q base size : Nat) : Bool :=
  g.queues.any fun e => e.1 ≠ q && e.2.bound && overlaps base size (e.2.base * 256) (e.2.size * 256)

/-- `qbind` (R237). -/
def qbindBody (c : Ctx) (s : State) : Res :=
  withQueues c s fun w g =>
    let n := queueNum c.x.d
    let q := qdesc g n
    let base := (src c .a .n64 uniTid).toNat
    let size := (src c .b .n64 uniTid).toNat
    if size = 0 then
      if !q.bound then .done s {}
      else if q.count ≠ 0 then .trap s (trapOf Trap.queue 4)
      else
        let waiting := blockedOn s w n
        let s := putWg s w (setQ g n { epoch := q.epoch })
        .done (waiting.foldl (fun s e => raiseBlocked s e.1 1 e.2 false false) s) {}
    else if base % 256 ≠ 0 ∨ size % 256 ≠ 0 ∨ base + size > g.qbytes * 256 then .trap s (trapOf Trap.queue 2)
    else if qbindOverlaps g n base size then .trap s (trapOf Trap.queue 3)
    else if q.bound && q.count ≠ 0 then .trap s (trapOf Trap.queue 4)
    else .done (putWg s w (setQ g n { q with bound := true, base := base / 256, size := size / 256, count := 0, head := 0 })) {}

def execQbind (x : Args) (s : State) : Host.Outcome State Fault Refusal := issue (.qbind x) x true s qbindBody

def execQstat (x : Args) (s : State) : Host.Outcome State Fault Refusal :=
  issue (.qstat x) x true s fun c s =>
    withQueues c s fun _ g =>
      let q := qdesc g (queueNum c.x.a)
      .done s { vals := [(uniTid, if q.bound then BitVec.ofNat 64 (q.count + 2 ^ 32 * q.cap) else 0)] }

/-- `qdrain` (R238): every entry and every reserved slot is discarded. -/
def execQdrain (x : Args) (s : State) : Host.Outcome State Fault Refusal :=
  issue (.qdrain x) x true s fun c s =>
    withQueues c s fun w g =>
      let n := queueNum c.x.a
      let q := qdesc g n
      .done (putWg s w (setQ g n { q with count := 0, head := 0, reserved := [], epoch := q.epoch + 1 }))
        { vals := [(uniTid, BitVec.ofNat 64 q.count)] }

/-- QUEUE_OP_ISSUE: a train blocked on queues goes on once every queue that it names allows (R234). -/
def execQueueOpIssue (tr : Nat) (s : State) : Host.Outcome State Fault Refusal :=
  unitStep (match train? s tr with
    | some { block := some (.queue qs _), wg := some w, .. } =>
      match wg? s w with
      | some g => if qs.all (queueAllows g) then unblock s tr else s
      | none => s
    | _ => s)

/-- Whether a wait at queues or for banks lasts only until its unit takes it up: the queues allow its operations by now, or the banks are
free (R234, R236). -/
def waitOver (s : State) (tr : Train) : Bool :=
  match tr.block, tr.wg with
  | some (.queue qs _), some w => (wg? s w).any fun g => qs.all (queueAllows g)
  | some (.aalloc need id _), some w => banksFree s w need id
  | _, _ => false

/-- How a train stands to the stall of its workgroup (R236): whether it lets the stall be, and its instruction's PC when it is
blocked on a queue or on banks. -/
def stallOf (s : State) (tr : Train) : Bool × Option Dword :=
  if waitOver s tr then (false, none)
  else match tr.block with
  | some (.queue _ pc) => (true, some pc)
  | some (.aalloc _ _ _) => (true, some tr.pc)
  | some .draining => (true, none)
  | some _ => (false, none)
  | none => (tr.exited = allThreads || (tr.selected = 0 && tr.long.isNone), none)

/-- The trains that a stall of a workgroup holds at a queue or a bank allocation, when every other lets it be. -/
def stalled (s : State) (w : Nat) : List (Nat × Dword) :=
  let ks := trainsOfWg s w
  if ks.all fun k => (train? s k).all fun tr => (stallOf s tr).1 then
    ks.filterMap fun k => ((train? s k).bind fun tr => (stallOf s tr).2).map fun pc => (k, pc)
  else []

/-- The trains whose own `aalloc` has waited for longer than the bound, its banks not free (R136). -/
def stalledAalloc (s : State) (w bound : Nat) : List (Nat × Dword) :=
  (trainsOfWg s w).filterMap fun k => match train? s k with
    | some { block := some (.aalloc need id since), pc := pc, .. } =>
      if s.clk - since > bound && !banksFree s w need id then some (k, pc) else none
    | _ => none

/-- QUEUE_STALL: the wait of an `aalloc` lasts longer than the bound, which is exact at that `aalloc` (R136; its record has ASYNC = 1 like
that of every STALL, log 28), or the stall of a workgroup does, which is asynchronous (R236). -/
def execQueueStall (wg : Nat) (s : State) : Host.Outcome State Fault Refusal :=
  unitStep (match wg? s wg with
    | some g =>
      if g.qstall = 0 then s
      else
        let own := stalledAalloc s wg g.qstall
        let others := (if s.clk - g.qSince > g.qstall then stalled s wg else []).filter fun e => !own.contains e
        let trap := fun (waits : Bool) (s : State) (e : Nat × Dword) => touchStall (raiseBlocked s e.1 6 e.2 true waits) e.1
        others.foldl (trap true) (own.foldl (trap false) s)
    | none => s)

/-! ## Rings (R239 to R247) -/

/-- A ring instruction (R241): the issuing train translates the block, the Ticket Office performs the operation in the train's program
order, behind its earlier accesses (R187, R189, R247). -/
def ringBody (op : Ctx → RingOp) (c : Ctx) (s : State) : Res :=
  if !c.on then .done s {}
  else
    let s := performEarlier s c.k
    let va := rdOpnd c c.x.a .n64 uniTid
    let fin := fun (s : State) (d : Dword) (trap : Option TrapRec) => Res.done s { vals := [(uniTid, d)], trap := trap }
    match access s c.tr .load va 64 with
    | (s, .fault pte) => .left (park s c.k c.head va 0 pte c.tr.pc 0)
    | (s, .remote _ _) => fin s Rc.busy none
    | (s, .bad cause) =>
      if cause = causeRemote then fin s Rc.busy none else fin s Rc.invalid (violationTrap c [(uniTid, va, cause)])
    | (s, .mem pa) =>
      let (s, d) := ringAt s { part := c.tr.part, asid := c.tr.asid, priv := c.tr.priv } pa (op c)
      fin s d none

def ringNum (c : Ctx) (f : ImmField) : Nat := (src c f .n64 uniTid).toNat

def execRacq (x : Args) (sc : Scope) (s : State) : Host.Outcome State Fault Refusal :=
  issue (.racq x sc) x true s (ringBody fun c => .acq (ringNum c .b))
def execRcom (x : Args) (sc : Scope) (s : State) : Host.Outcome State Fault Refusal :=
  issue (.rcom x sc) x true s (ringBody fun c => .com false (ringNum c .b) (ringNum c .c))
def execRcomSkip (x : Args) (sc : Scope) (s : State) : Host.Outcome State Fault Refusal :=
  issue (.rcomSkip x sc) x true s (ringBody fun c => .com true (ringNum c .b) (ringNum c .c))
def execRpeek (x : Args) (sc : Scope) (s : State) : Host.Outcome State Fault Refusal :=
  issue (.rpeek x sc) x true s (ringBody fun _ => .peek false)
def execRpeekTake (x : Args) (sc : Scope) (s : State) : Host.Outcome State Fault Refusal :=
  issue (.rpeekTake x sc) x true s (ringBody fun _ => .peek true)
def execRrel (x : Args) (sc : Scope) (s : State) : Host.Outcome State Fault Refusal :=
  issue (.rrel x sc) x true s (ringBody fun c => .rel (ringNum c .b) (ringNum c .c))

/-! ## The Signal Box (R249, R250) -/

namespace StageTab

def word (t : List Dword) (i : Nat) : Nat := (t.getD i 0).toNat
def nst (t : List Dword) : Nat := bitsAt (word t 0) 0 3
def qsrc (t : List Dword) (i : Nat) : Bool := bitsAt (word t (2 * i)) 63 1 = 1
def source (t : List Dword) (i : Nat) : Nat := bitsAt (word t (2 * i)) 0 63
def hi (t : List Dword) (i : Nat) : Nat := bitsAt (word t (2 * i + 1)) 0 32
def most (t : List Dword) (i : Nat) : Nat := bitsAt (word t (2 * i + 1)) 32 5

/-- Whether a used link breaks a rule of R249. -/
def badLink (t : List Dword) (i : Nat) : Bool :=
  bitsAt (word t (2 * i + 1)) 37 27 ≠ 0 || most t i = 0 || most t i > 16
    || (if qsrc t i then source t i ≥ 16 else source t i % 64 ≠ 0)

def invalid (t : List Dword) : Bool :=
  nst t = 0 || nst t > 4 || word t 0 / 8 ≠ 0 || word t 1 ≠ 0
    || [1, 2, 3].any fun i => if i < nst t then badLink t i else word t (2 * i) ≠ 0 || word t (2 * i + 1) ≠ 0

end StageTab

/-- `stage.cfg` (R249): a plain load of 64 bytes; a violating load reads zero, which is no valid table. -/
def stageCfgBody (c : Ctx) (s : State) : Res :=
  withQueues c s fun w _ =>
    let va := rdOpnd c c.x.a .n64 uniTid
    withPlaces c s .load 64 [(uniTid, va)] (fun _ => .read 64) fun s l =>
      let viol := violations c.tr.replies l
      let far := (Tab.get? c.tr.replies uniTid).map fun r => replyValue (some r)
      let s := settleLoads s c.k (localPlaces l) 64
      let val := if viol.isEmpty then
          (match localPlaces l with | (_, pa) :: _ => trainMem s c.tr pa 64 | [] => far.getD 0) else 0
      let t := (List.range 8).map fun i => BitVec.ofNat 64 (bitsAt val (64 * i) 64)
      let s := clearReplies s c.k
      let fin := fun (s : State) (d : Dword) => Res.done s { vals := [(uniTid, d)], trap := violationTrap c viol }
      if StageTab.invalid t then fin s Rc.invalid
      else
        let s := modWg s w fun g => { g with stageTab := some t }
        fin ((trainsOfWg s w).foldl (fun s k => modTrain s k fun tr => { tr with stage := 0 }) s) 0

def execStageCfg (x : Args) (s : State) : Host.Outcome State Fault Refusal := issue (.stageCfg x) x true s stageCfgBody

/-- TAIL and READ of a ring's block: the reservation register's where the ring has one (R241), else those in memory, without what the
train that runs `stage` has stored and not performed (R250, log 46). -/
def ringOccupancy (s : State) (pa : Nat) : Nat :=
  match s.rings.find? (·.pa = pa) with
  | some r => r.tl - r.rd
  | none => readMem s (pa + 0x18) 8 - readMem s (pa + 0x30) 8

/-- `Occ(i)` (R250). -/
def stageOcc (s : State) (tr : Train) (g : Wg) (t : List Dword) (i : Nat) : Nat :=
  if StageTab.qsrc t i then (let q := qdesc g (StageTab.source t i); if q.bound then q.count else 0)
  else match (access s tr .load (BitVec.ofNat 64 (StageTab.source t i)) 64).2 with
    | .mem pa => ringOccupancy s pa
    | _ => 0

/-- `Workers(i)` (R250): a train whose threads have all exited runs no stage (R409). -/
def stageWorkers (s : State) (w k i : Nat) : Nat :=
  ((trainsOfWg s w).filter fun k' => k' ≠ k && (train? s k').any fun t => t.stage = i && t.exited ≠ allThreads).length

/-- The stage that a train runs next (R250). -/
def nextStage (s : State) (w k : Nat) (g : Wg) (tr : Train) (t : List Dword) : Nat :=
  let n := StageTab.nst t
  match ((List.range n).reverse.filter (· ≥ 1)).find? fun i =>
      stageOcc s tr g t i ≥ StageTab.hi t i && stageWorkers s w k i < StageTab.most t i with
  | some i => i
  | none => if tr.stage ≥ 1 && stageOcc s tr g t tr.stage = 0 then 0 else tr.stage

def execStage (x : Args) (s : State) : Host.Outcome State Fault Refusal :=
  issue (.stage x) x true s fun c s =>
    withQueues c s fun w g =>
      match g.stageTab with
      | none => .done s { vals := [(uniTid, 0)] }
      | some t =>
        let n := nextStage s w c.k g c.tr t
        .done (modTrain s c.k fun tr => { tr with stage := n }) { vals := [(uniTid, BitVec.ofNat 64 n)] }

end Sys2Proof.Machine
end

