-- ==== Sys2Proof/Machine/Control.lean ====
section
/-! DEFINITION. The control class (R251 to R270): branches, exits, barriers, hints, futures, traps by request. -/

namespace Sys2Proof.Machine

/-! ## Branches (R254, R255) -/

/-- The byte offset of a `bra` or `call`: 4 times an 8-bit immediate, or IMM32. -/
def branchOffset (x : Args) : Int :=
  match x.ext, x.a with
  | .imm w, _ => w.toInt
  | _, .imm i => 4 * i.toInt
  | _, _ => 0

/-- Whether the target stands in a register. -/
def targetInRegister (x : Args) : Bool :=
  match x.a with | .s _ | .v _ | .o _ => true | _ => false

/-- Target(t): relative to the instruction, or the 64-bit value of A for the thread. -/
def targetOf (c : Ctx) (t : Nat) : Dword :=
  if targetInRegister c.x then rdOpnd c c.x.a .n64 (if c.x.u then uniTid else t)
  else BitVec.ofNat 64 (wrap (c.tr.pc.toNat + branchOffset c.x) 64)

/-- The next PC of each selected thread: its target where the guard holds (R255). -/
def branchPc (c : Ctx) (t : Nat) : Dword :=
  if c.mask.getLsbD t then targetOf c t else c.tr.pc + BitVec.ofNat 64 c.x.len

def branchBody (c : Ctx) (s : State) : Res := .done s { jump := some (branchPc c) }

def execBra (x : Args) (s : State) : Host.Outcome State Fault Refusal := issue (.bra x) x false s branchBody
def execBrx (x : Args) (s : State) : Host.Outcome State Fault Refusal := issue (.brx x) x false s branchBody
def execRet (x : Args) (s : State) : Host.Outcome State Fault Refusal := issue (.ret x) x false s branchBody
/-- `call` (R255): the target is taken from A as it was before the link is written (log 44). -/
def execCall (x : Args) (s : State) : Host.Outcome State Fault Refusal :=
  issue (.call x) x true s fun c s =>
    .done s { vals := c.lanes.map fun t => (t, c.tr.pc + BitVec.ofNat 64 c.x.len), jump := some (branchPc c) }

/-! ## Exit (R256) -/

/-- The control trap with cause HANDLER (R270). -/
def handlerTrap : TrapRec := trapOf Trap.control 3

def exitBody (i : Instr) (c : Ctx) (s : State) : Res :=
  if !c.on then .done s { jump := some (branchPc c) }
  else if c.tr.act.isSome then .trap s handlerTrap
  else
    let m := if c.x.u then live c.tr else c.mask
    let s := complete i c.x false c.k c.tr.pc s {}
    .left (exitThreads s c.k m fun t =>
      if c.tr.selected.getLsbD t && !m.getLsbD t then c.tr.pc + BitVec.ofNat 64 c.x.len else pcOf c.tr t)

def execExit (x : Args) (s : State) : Host.Outcome State Fault Refusal := issue (.exit x) x false s (exitBody (.exit x))

/-! ## Barriers (R257 to R259) -/

/-- The selected threads whose guard holds arrive and are held at the instruction; the others go past it; a selection follows,
and the barrier completes if it can. -/
def barBody (i : Instr) (gang : Bool) (c : Ctx) (s : State) : Res :=
  if !c.on then .done s { jump := some fun _ => c.tr.pc + BitVec.ofNat 64 c.x.len }
  else if c.tr.act.isSome then .trap s handlerTrap
  else match c.tr.wg, wgOf s c.tr with
    | some w, some g =>
      if gang && g.gang = 0 then .trap s (trapOf Trap.control 2)
      else
        let s := modTrain s c.k fun tr =>
          if gang then { tr with heldGbar := tr.heldGbar ||| c.mask } else { tr with heldBar := tr.heldBar ||| c.mask }
        let next : Nat → Dword := fun t => if c.mask.getLsbD t then c.tr.pc else c.tr.pc + BitVec.ofNat 64 c.x.len
        let s := complete i c.x false c.k c.tr.pc s { jump := some next }
        .left (settleBarriers (touchBarriers s w) w)
    | _, _ => .trap s handlerTrap

def execBar (x : Args) (s : State) : Host.Outcome State Fault Refusal := issue (.bar x) x false s (barBody (.bar x) false)
def execGbar (x : Args) (s : State) : Host.Outcome State Fault Refusal := issue (.gbar x) x false s (barBody (.gbar x) true)

/-- The arrivals of a train at a barrier are withdrawn; the threads stay at their barrier instruction (R259). -/
def withdraw (tr : Train) (gang : Bool) : Train :=
  let h := if gang then tr.heldGbar else tr.heldBar
  let pcf := pcOf tr
  let tr := if gang then { tr with heldGbar := 0 } else { tr with heldBar := 0 }
  let tr := if h ≠ 0 && tr.selected = 0 then selectWith tr pcf else tr
  deferSaved tr gang false

/-- The barrier PC of a thread: where it is held, or where it was when the handled trap was taken. -/
def barrierPc (tr : Train) (h : Mask) (t : Nat) : Dword := if h.getLsbD t then pcOf tr t else Tab.read 0 tr.xpc t

/-- The BSTALL record of a train (R259, R378): the barrier instruction of its lowest waiting thread, the threads held there,
the number of threads that had arrived, and the trains of the workgroup that had not fully arrived. -/
def bstallRec (s : State) (tr : Train) (gang : Bool) (arrived : Nat) : TrapRec :=
  let h := if gang then tr.heldGbar else tr.heldBar
  let all := if gang then arrivedGbar tr else arrivedBar tr
  let pc := (lowest all).elim tr.pc fun t => barrierPc tr h t
  let missing := (trainsOfWg s (tr.wg.getD 0)).foldl (fun n k => match train? s k with
    | some t => if live t &&& ~~~(if gang then arrivedGbar t else arrivedBar t) ≠ 0 then n + 2 ^ t.trn else n
    | none => n) 0
  { kind := Trap.control, cause := 1, async := true, detail := BitVec.ofNat 32 arrived, pc := pc, rpc := pc
    mask := maskOf fun t => all.getLsbD t && barrierPc tr h t = pc, aux0 := BitVec.ofNat 64 missing }

/-- BSTALL: the barrier of a workgroup, or with `gang` of its gang, has stalled for longer than the bound (R259). The number of arrived
threads counts the live threads that arrived and not those that have exited, which R259 leaves open, and the count runs on while a train of
the workgroup waits in `waita`, where R229 exempts that wait itself (log 28). -/
def execBstall (wg : Nat) (gang : Bool) (s : State) : Host.Outcome State Fault Refusal :=
  unitStep (match wg? s wg with
    | none => s
    | some g =>
      let ws := if gang then gangOf s wg else [wg]
      let ks := ws.flatMap (trainsOfWg s)
      let arrivedOf := fun (tr : Train) => if gang then arrivedGbar tr else arrivedBar tr
      let n := ks.foldl (fun n k => n + (train? s k).elim 0 fun tr => countMask (arrivedOf tr)) 0
      if g.bstall = 0 ∨ n = 0 ∨ s.clk - (if gang then g.gSince else g.bSince) ≤ g.bstall then s
      else
        let recs := ks.filterMap fun k => match train? s k with
          | some tr => if arrivedOf tr = 0 then none else some (k, bstallRec s tr gang n)
          | none => none
        let s := recs.foldl (fun s e => modTrain s e.1 fun tr => withdraw tr gang) s
        let s := recs.foldl (fun s e => deliverDue (takeTrap s e.1 e.2) e.1) s
        ws.foldl (fun s w => modWg s w fun x =>
          if gang then { x with gSince := s.clk } else { x with bSince := s.clk }) s)

/-! ## Hints (R260) -/

/-- `yield` ends the train's turn. -/
def execYield (x : Args) (s : State) : Host.Outcome State Fault Refusal :=
  issue (.yield x) x false s fun c s =>
    .done (if c.on then modTrain s c.k fun tr => { tr with yielded := true } else s) {}

def execNop (x : Args) (s : State) : Host.Outcome State Fault Refusal := issue (.nop x) x false s fun _ s => .done s {}

/-- The join point of R252: the train selects before it executes, and goes on from the lowest PC; the `nop` itself executes
when that is its own. -/
def joinPointBody (c : Ctx) (s : State) : Res :=
  let tr := reselect c.tr
  let s := putTrain s c.k tr
  if tr.pc = c.tr.pc then .done s {} else .left s

def execJoinPointNop (x : Args) (s : State) : Host.Outcome State Fault Refusal :=
  issue (.joinPointNop x) x false s joinPointBody

/-! ## Futures (R261 to R267) -/

/-- The train waits at its instruction, which completes with the wait's value. -/
def waitHere (i : Instr) (c : Ctx) (s : State) (b : Block) : Res :=
  .left (modTrain (blockAt s c.k c.head b) c.k fun tr => { tr with atWait := some i })

/-- The result of a uniform instruction when its guard holds. -/
def uniResult (s : State) (d : Dword) : Res := .done s { vals := [(uniTid, d)] }

/-- Whether A holds the status word that its mark delivered (R261, R266). -/
def holdsStatus (c : Ctx) : Bool :=
  match c.x.a with
  | .s n => Tab.get? c.tr.marks n.toNat = some .told
  | _ => false

/-- `fwait` (R265): the status word at once where the operation has completed, A holding its word or its handle; else the train waits for
the operation that the handle names, whatever its reserved bits hold (R262). -/
def execFwait (x : Args) (s : State) : Host.Outcome State Fault Refusal :=
  issue (.fwait x) x true s fun c s =>
    if !c.on then .done s {}
    else
      let h := rdOpnd c x.a .n64 uniTid
      if holdsStatus c then uniResult s h
      else match futureOf s c.tr.asid h with
        | none => uniResult s (statusWord Code.invalid 0 0 0)
        | some (j, f) => match f.status with
          | some st => uniResult s st
          | none => waitHere (.fwait x) c s (.future (futureHandle s j f))

def execFtest (x : Args) (s : State) : Host.Outcome State Fault Refusal :=
  issue (.ftest x) x false s fun c s =>
    if !c.on then .done s {}
    else
      let pending := !holdsStatus c && (futureOf s c.tr.asid (rdOpnd c x.a .n64 uniTid)).any fun f => f.2.status.isNone
      uniResult s (if pending then 0 else 1)

/-- Whether a value is a status word: the one of an operation that has completed, wherever it was moved since, or INVALID (log 26). -/
def isStatusWord (s : State) (v : Dword) : Bool :=
  v = statusWord Code.invalid 0 0 0 || s.futures.any fun f => f.2.status = some v

/-- `ftest.h`: what A holds, a raw handle or a status word (R266); a stale handle is reported as INVALID (R264). -/
def execFtestH (x : Args) (s : State) : Host.Outcome State Fault Refusal :=
  issue (.ftestH x) x true s fun c s =>
    if !c.on then .done s {}
    else
      let h := rdOpnd c x.a .n64 uniTid
      if holdsStatus c || (futureOf s c.tr.asid h).isSome || isStatusWord s h then uniResult s h
      else uniResult s (statusWord Code.invalid 0 0 0)

def execFcancel (x : Args) (s : State) : Host.Outcome State Fault Refusal :=
  issue (.fcancel x) x true s fun c s =>
    if !c.on then .done s {}
    else if holdsStatus c then uniResult s 1
    else match futureOf s c.tr.asid (rdOpnd c x.a .n64 uniTid) with
      | none => uniResult s 2
      | some (_, f) =>
        if f.status.isSome then uniResult s 1 else let (s, d) := cancelOp s f.op; uniResult s d

/-! ## Traps on flags and by request (R268, R269) -/

/-- The mask of a `trapf`. -/
def trapMask (c : Ctx) : BitVec 7 := BitVec.ofNat 7 (rdOpnd c c.x.a .n64 uniTid).toNat

def trapfBody (clr : Bool) (c : Ctx) (s : State) : Res :=
  if !c.on then .done s {}
  else
    let m := trapMask c
    let f := c.tr.flags
    let s' := modTrain s c.k fun tr => { tr with flags := f &&& ~~~m }
    let vals := [(uniTid, BitVec.ofNat 64 f.toNat)]
    if clr then .done s' { vals := vals }
    else if f &&& m ≠ 0 then
      .done s' { vals := vals, trap := some { kind := Trap.flag, flagw := f, pc := c.tr.pc } }
    else .done s { vals := vals }

def execTrapf (x : Args) (s : State) : Host.Outcome State Fault Refusal := issue (.trapf x) x true s (trapfBody false)
def execTrapfClr (x : Args) (s : State) : Host.Outcome State Fault Refusal := issue (.trapfClr x) x true s (trapfBody true)

/-- The 16-bit code of a `trap`. -/
def trapCode (c : Ctx) : Nat := (src c .a .n64 uniTid).toNat % 2 ^ 16

def execTrap (x : Args) (s : State) : Host.Outcome State Fault Refusal :=
  issue (.trap x) x false s fun c s =>
    if !c.on then .done s {}
    else .done s { trap := some { kind := Trap.software, detail := BitVec.ofNat 32 (trapCode c), mask := c.mask,
                                  pc := c.tr.pc } }

end Sys2Proof.Machine
end

