-- ==== Sys2Proof/Machine/Approx.lean ====
section
/-! DEFINITION. The long approximations (R119, R120). The exact value is enclosed to some 200 bits in fixed point, rounded
to nearest, and moved by the implementation's own choice `Config.approxStep` as far as the bound of R119 allows (log 7). -/

namespace Sys2Proof.Machine

/-- The fixed-point precision: numbers stand in units of 2⁻⁴²⁰. -/
def fxBits : Nat := 420
/-- π and ln 2 in those units, rounded down. -/
def fxPi : Nat := 0x3243F6A8885A308D313198A2E03707344A4093822299F31D0082EFA98EC4E6C89452821E638D01377BE5466CF34E90C6CC0AC29B7C
def fxLn2 : Nat := 0xB17217F7D1CF79ABC9E3B39803F2F6AF40F343267298B62D8A0D175B8BAAFA2BE7B876206DEBAC98559552FB4AFA1B10ED2EAE35C

def fxMul (a b : Int) : Int := (a * b) / (2 ^ fxBits : Nat)
def fxOne : Int := (2 ^ fxBits : Nat)

/-- A finite number in fixed point, rounded toward −∞ beyond the last unit. -/
def fxOf (e : Ex) : Int :=
  let n : Int := (cutAt e (-(fxBits : Int))).n
  if e.neg then -n else n

/-- A fixed-point value as a number known only to within its last units. -/
def exOfFx (x : Int) : Ex := ⟨x < 0, x.natAbs, -(fxBits : Int), true⟩

/-- Σ terms of a series: each term is the one before times `x` over `d k`, from k. -/
def series (x : Int) (d : Nat → Int) : Nat → Nat → Int → Int
  | 0, _, _ => 0
  | n + 1, k, term => term + series x d n (k + 1) (fxMul term x / d k)

/-- e^y in fixed point for |y| < 1. -/
def fxExp (y : Int) : Int := series y (fun k => (k : Int) + 1) 100 0 fxOne

/-- 2^x for a number below 2¹¹ in magnitude: the power of two taken out, and the rest in fixed point. -/
def exp2Ex (e : Ex) : Ex :=
  let n : Int := (cutAt ⟨e.neg, e.mant, e.exp, false⟩ 0).n
  let fl : Int := if e.neg then (if (cutAt e 0).rest = 0 then -n else -n - 1) else n
  let frac := fxOf e - fl * fxOne
  (exOfFx (fxExp (fxMul frac fxLn2))).scale fl

/-- The binary digits of log₂ of a fixed-point number in [1, 2), by repeated squaring. -/
def log2Digits : Nat → Int → Int → Int
  | 0, _, acc => acc
  | n + 1, x, acc =>
    let y := fxMul x x
    if y ≥ 2 * fxOne then log2Digits n (y / 2) (2 * acc + 1) else log2Digits n y (2 * acc)

/-- log₂ of a positive number, to 200 binary places. -/
def log2Ex (e : Ex) : Ex :=
  let top := Nat.log2 e.mant
  let k : Int := e.exp + top
  let m : Int := fxOf { e with exp := -(top : Int) }
  let d := k * (2 ^ 200 : Nat) + log2Digits 200 m 0
  ⟨d < 0, d.natAbs, -200, true⟩

/-- The quadrant and the remainder within a quarter turn of an angle (exact reduction over the whole range, R119). -/
def reduceAngle (e : Ex) : Nat × Int :=
  let x := fxOf e
  let h : Int := (fxPi : Int)
  let q := (2 * x * 2 + h) / (2 * h)
  ((q % 4).toNat, x - q * h / 2)

def fxSin (r : Int) : Int := series (-(fxMul r r)) (fun k => (2 * (k : Int) + 2) * (2 * k + 3)) 50 0 r
def fxCos (r : Int) : Int := series (-(fxMul r r)) (fun k => (2 * (k : Int) + 1) * (2 * k + 2)) 50 0 fxOne

/-- sin (`c = 0`) or cos (`c = 1`) of a finite number. -/
def sinEx (c : Nat) (e : Ex) : Ex :=
  let (q, r) := reduceAngle e
  exOfFx (match (q + c) % 4 with
    | 0 => fxSin r | 1 => fxCos r | 2 => -(fxSin r) | _ => -(fxCos r))

/-- tanh of a finite number below 2⁶ in magnitude: (E − 1) / (E + 1) with E = e^2x. -/
def tanhEx (e : Ex) : Ex :=
  let x := fxOf { e with neg := false }
  let n := (2 * x) / (fxLn2 : Int)
  let big := fxExp (2 * x - n * fxLn2)
  let p : Ex := ⟨false, big.toNat, n - fxBits, false⟩
  let one : Ex := ⟨false, 1, 0, false⟩
  let t := (p.add .rn ⟨true, 1, 0, false⟩).div (p.add .rn one)
  { t with neg := e.neg, sticky := true }

/-- A magnitude just below another one. -/
def justBelow (e : Ex) : Ex := ⟨e.neg, e.mant * 2 ^ 128 - 1, e.exp - 128, true⟩
/-- A magnitude just above another one. -/
def justAbove (e : Ex) : Ex := ⟨e.neg, e.mant * 2 ^ 128, e.exp - 128, true⟩

inductive ApproxOp where
  | rcp | rsq | ex2 | lg2 | sin | cos | tanh
  deriving DecidableEq, Repr

def ApproxOp.code : ApproxOp → Nat
  | .rcp => 0 | .rsq => 1 | .ex2 => 2 | .lg2 => 3 | .sin => 4 | .cos => 5 | .tanh => 6
/-- The bound of R119 in ulp. -/
def ApproxOp.ulps : ApproxOp → Nat
  | .rcp | .rsq | .ex2 | .lg2 => 1
  | .sin | .cos | .tanh => 2

/-- Whether a magnitude is a power of two, with its exponent. -/
def pow2? (e : Ex) : Option Int :=
  if e.mant = 0 ∨ e.sticky then none
  else if e.mant = 2 ^ Nat.log2 e.mant then some (e.exp + Nat.log2 e.mant) else none

/-- The result for a finite operand: an exact case or special operand with its flags, or the enclosed value. -/
def approxFinite (op : ApproxOp) (e : Ex) : Sum (Num × FlagSet) Ex :=
  let tiny := e.exp + Nat.log2 e.mant < -60
  let one : Ex := ⟨false, 1, 0, false⟩
  match op with
  | .rcp =>
    if e.mant = 0 then .inl (.inf e.neg, Fl.dz)
    else match pow2? e with
      | some k => .inl (.fin ⟨e.neg, 1, -k, false⟩, 0)
      | none => .inr (one.div e)
  | .rsq =>
    if e.mant = 0 then .inl (.inf e.neg, Fl.dz)
    else if e.neg then .inl (.nan true, 0)
    else match pow2? e with
      | some k => if k % 2 = 0 then .inl (.fin ⟨false, 1, -(k / 2), false⟩, 0) else .inr ((one.div { e with sticky := false }).sqrt)
      | none => .inr { (one.div e).sqrt with sticky := true }
  | .ex2 =>
    if e.mant = 0 then .inl (.fin one, 0)
    else if e.exp + Nat.log2 e.mant > 10 then
      .inr (if e.neg then ⟨false, 1, -5000, true⟩ else ⟨false, 1, 5000, true⟩)
    else if (cutAt e 0).rest = 0 then
      .inl (.fin ⟨false, 1, if e.neg then -((cutAt e 0).n : Int) else (cutAt e 0).n, false⟩, 0)
    else .inr (exp2Ex e)
  | .lg2 =>
    if e.mant = 0 then .inl (.inf true, Fl.dz)
    else if e.neg then .inl (.nan true, 0)
    else match pow2? e with
      | some k => .inl (.fin (.ofInt k), 0)
      | none => .inr (log2Ex e)
  | .sin =>
    if e.mant = 0 then .inl (.fin e, 0)
    else if tiny then .inr (justBelow e) else .inr (sinEx 0 e)
  | .cos =>
    if e.mant = 0 then .inl (.fin one, 0)
    else if tiny then .inr (justBelow one) else .inr (sinEx 1 e)
  | .tanh =>
    if e.mant = 0 then .inl (.fin e, 0)
    else if tiny then .inr (justBelow e)
    else if e.exp + Nat.log2 e.mant > 6 then .inr (justBelow { one with neg := e.neg })
    else .inr (tanhEx e)

/-- The code `k` steps of the format away from a finite code, by value; none where it leaves the finite codes. -/
def stepCode (f : Fmt) (code : Nat) (k : Int) : Option Nat :=
  let m : Int := (code % 2 ^ (f.width - 1) : Nat)
  let v : Int := if code ≥ 2 ^ (f.width - 1) then -m else m
  let w := v + k
  if w.natAbs ≥ f.expMax * 2 ^ f.fbits then none
  else some (if w < 0 then 2 ^ (f.width - 1) + w.natAbs else w.natAbs)

/-- Whether a finite code lies within `n` ulp of a value, exact or enclosed. -/
def withinUlps (f : Fmt) (n : Nat) (code : Nat) (y : Ex) : Bool :=
  match decodeFmt f code with
  | .fin c =>
    let top : Int := y.exp + Nat.log2 y.mant
    let qn := top - f.fbits
    let ulp := if qn < f.qmin then f.qmin else qn
    let d := c.add .rn { y with neg := !y.neg, sticky := false }
    cmpMag { d with sticky := y.sticky } n ulp ≤ 1
  | _ => false

/-- Round a value and move it by the implementation's choice, to any finite result that R119 allows; a finite result is never moved to
infinity, of which R119 gives no distance (log 7). R119 names INX for finite results only: an overflow to infinity sets OVF and INX
here, as R73 does for every rounded result that differs (log 7). -/
def approxRound (f : Fmt) (op : ApproxOp) (tyCode bits : Nat) (y : Ex) : Enc :=
  let r := roundEx f .rn false y
  let k := Config.approxStep op.code tyCode bits
  match stepCode f r.code k with
  | some c => if k ≠ 0 ∧ withinUlps f op.ulps c y then
      { code := c, flags := Fl.inx ||| flagIf (bitsAt c f.fbits f.ebits = 0) Fl.unf }
    else r
  | none => r

/-- A long approximation of an operand (R119, R120). A power of two or logarithm that the format holds is exact; one that it does not
hold is rounded within the bound like any other result. -/
def approx (op : ApproxOp) (t : Ty) (bits : Nat) (v : Num) : Enc :=
  let f := fmtOf t
  let qnan : Enc := ⟨f.nanCode, 0⟩
  let bad : Enc := ⟨f.nanCode, Fl.inv⟩
  match v with
  | .nan s => ⟨f.nanCode, flagIf s Fl.inv⟩
  | .inf n =>
    match op with
    | .rcp => ⟨signCode f n, 0⟩
    | .rsq => if n then bad else ⟨0, 0⟩
    | .ex2 => if n then ⟨0, 0⟩ else ⟨f.infCode false, 0⟩
    | .lg2 => if n then bad else ⟨f.infCode false, 0⟩
    | .sin | .cos => bad
    | .tanh => roundEx f .rn false ⟨n, 1, 0, false⟩
  | .fin e =>
    match approxFinite op e with
    | .inl (.nan s, fl) => if s then bad else { qnan with flags := fl }
    | .inl (.inf n, fl) => ⟨f.infCode n, fl⟩
    | .inl (.fin x, fl) =>
      let r := roundEx f .rn false x
      if r.flags &&& Fl.inx = 0 then { r with flags := r.flags ||| fl } else approxRound f op t.code bits x
    | .inr y => approxRound f op t.code bits y

end Sys2Proof.Machine
end

