-- ==== Sys2Proof/Machine/FloatClass.lean ====
section
/-! DEFINITION. The floating-point class (R114 to R120) and the result of a long operation (R99). -/

namespace Sys2Proof.Machine

/-! ## Exact results (R115); a NaN that an operation makes invalid is marked signalling, so that rounding it sets INV -/

def numAdd (mode : RMode) (a b : Num) : Num :=
  match a, b with
  | .nan s, .nan s' => .nan (s || s')
  | .nan s, _ => .nan s
  | _, .nan s => .nan s
  | .inf n, .inf m => if n = m then .inf n else .nan true
  | .inf n, .fin _ => .inf n
  | .fin _, .inf m => .inf m
  | .fin a, .fin b => .fin (a.add mode b)

def numNeg : Num → Num
  | .nan s => .nan s
  | .inf n => .inf (!n)
  | .fin e => .fin { e with neg := !e.neg }

/-- The quotient, with DZ for a finite nonzero value divided by zero. -/
def numDiv (a b : Num) : Num × FlagSet :=
  match a, b with
  | .nan s, .nan s' => (.nan (s || s'), 0)
  | .nan s, _ => (.nan s, 0)
  | _, .nan s => (.nan s, 0)
  | .inf _, .inf _ => (.nan true, 0)
  | .inf n, .fin e => (.inf (n != e.neg), 0)
  | .fin e, .inf n => (.fin (.zero (e.neg != n)), 0)
  | .fin x, .fin y =>
    if y.isZero then (if x.isZero then (.nan true, 0) else (.inf (x.neg != y.neg), Fl.dz))
    else if x.isZero then (.fin (.zero (x.neg != y.neg)), 0)
    else (.fin (x.div y), 0)

def numSqrt : Num → Num
  | .nan s => .nan s
  | .inf n => if n then .nan true else .inf false
  | .fin e => if e.isZero then .fin e else if e.neg then .nan true else .fin e.sqrt

/-- Round to the type and place the encoding, with flags (R73, R115). -/
def fltResult (t : Ty) (mode : RMode) (v : Num) (fl : FlagSet) : Dword × FlagSet :=
  let r := roundNum (fmtOf t) mode false v
  (placed t r.code, r.flags ||| fl)

/-! ## Operands -/

/-- Operand A after its modifiers: absolute value, then negation (R114). -/
def modified (t : Ty) (m : SrcMods) (n : Nat) : Nat :=
  let top := 2 ^ (t.width - 1)
  let n := n % 2 ^ t.width
  let n := if m.abs then n % top else n
  if m.neg then (if n < top then n + top else n - top) else n

def fltA (c : Ctx) (t : Ty) (m : SrcMods) (l : Nat) : Num := valueOf t (modified t m (src c .a t l).toNat)
def fltB (c : Ctx) (t : Ty) (l : Nat) : Num := valueOf t (src c .b t l).toNat
def fltC (c : Ctx) (t : Ty) (l : Nat) : Num := valueOf t (src c .c t l).toNat

/-! ## Minimum, maximum, comparison, class (R116 to R118) -/

/-- minimumNumber or maximumNumber of two encodings; −0 is less than +0. -/
def minMaxNum (t : Ty) (greatest : Bool) (a b : Nat) : Nat × FlagSet :=
  let x := valueOf t a
  let y := valueOf t b
  let fl := flagIf (x.isSnan || y.isSnan) Fl.inv
  if x.isNan && y.isNan then ((fmtOf t).nanCode, fl)
  else if x.isNan then (b, fl)
  else if y.isNan then (a, fl)
  else
    let less := x.lt y || (x.isZero && y.isZero && x.neg? && !y.neg?)
    let lessB := y.lt x || (x.isZero && y.isZero && y.neg? && !x.neg?)
    (if greatest then (if less then b else a) else (if lessB then b else a), fl)

def fcondHolds (cnd : FCond) (x y : Num) : Bool × FlagSet :=
  let un := x.isNan || y.isNan
  let sig := x.isSnan || y.isSnan
  let eq := !un && x.eq y
  let lt := !un && x.lt y
  let gt := !un && y.lt x
  match cnd with
  | .eq => (eq, flagIf sig Fl.inv)
  | .ne => (un || !eq, flagIf sig Fl.inv)
  | .lt => (lt, flagIf un Fl.inv)
  | .le => (lt || eq, flagIf un Fl.inv)
  | .gt => (gt, flagIf un Fl.inv)
  | .ge => (gt || eq, flagIf un Fl.inv)
  | .ord => (!un, flagIf sig Fl.inv)
  | .uno => (un, flagIf sig Fl.inv)

/-- The class bit of an encoding. -/
def classBit (t : Ty) (n : Nat) : Nat :=
  let f := fmtOf t
  let neg := bitsAt n (f.width - 1) 1 = 1
  match valueOf t n with
  | .nan s => if s then 0 else 1
  | .inf neg => if neg then 2 else 9
  | .fin e =>
    if e.mant = 0 then (if neg then 5 else 6)
    else if bitsAt n f.fbits f.ebits = 0 then (if neg then 4 else 7)
    else if neg then 3 else 8

/-! ## The instructions -/

def execFadd (x : Args) (t : Ty) (r : RMode) (m : SrcMods) (s : State) : Host.Outcome State Fault Refusal :=
  issuePure (.fadd x t r m) x false s fun c l => fltResult t r (numAdd r (fltA c t m l) (fltB c t l)) 0
def execFsub (x : Args) (t : Ty) (r : RMode) (m : SrcMods) (s : State) : Host.Outcome State Fault Refusal :=
  issuePure (.fsub x t r m) x false s fun c l => fltResult t r (numAdd r (fltA c t m l) (numNeg (fltB c t l))) 0
def execFmul (x : Args) (t : Ty) (r : RMode) (m : SrcMods) (s : State) : Host.Outcome State Fault Refusal :=
  issuePure (.fmul x t r m) x false s fun c l => fltResult t r (mulScaled (fltA c t m l) (fltB c t l) 0) 0
def execFma (x : Args) (t : Ty) (r : RMode) (m : SrcMods) (s : State) : Host.Outcome State Fault Refusal :=
  issuePure (.fma x t r m) x false s fun c l =>
    fltResult t r (numAdd r (mulScaled (fltA c t m l) (fltB c t l) 0) (fltC c t l)) 0
def execFnma (x : Args) (t : Ty) (r : RMode) (m : SrcMods) (s : State) : Host.Outcome State Fault Refusal :=
  issuePure (.fnma x t r m) x false s fun c l =>
    fltResult t r (numAdd r (numNeg (mulScaled (fltA c t m l) (fltB c t l) 0)) (fltC c t l)) 0
def execFmin (x : Args) (t : Ty) (m : SrcMods) (s : State) : Host.Outcome State Fault Refusal :=
  issuePure (.fmin x t m) x false s fun c l =>
    let q := minMaxNum t false (modified t m (src c .a t l).toNat) ((src c .b t l).toNat % 2 ^ t.width)
    (placed t q.1, q.2)
def execFmax (x : Args) (t : Ty) (m : SrcMods) (s : State) : Host.Outcome State Fault Refusal :=
  issuePure (.fmax x t m) x false s fun c l =>
    let q := minMaxNum t true (modified t m (src c .a t l).toNat) ((src c .b t l).toNat % 2 ^ t.width)
    (placed t q.1, q.2)
def execFcmp (x : Args) (t : Ty) (cnd : FCond) (s : State) : Host.Outcome State Fault Refusal :=
  issuePure (.fcmp x t cnd) x false s fun c l =>
    let q := fcondHolds cnd (valueOf t (src c .a t l).toNat) (fltB c t l)
    (truth q.1, q.2)
def execFclass (x : Args) (t : Ty) (s : State) : Host.Outcome State Fault Refusal :=
  issuePure (.fclass x t) x false s fun c l => (BitVec.ofNat 64 (2 ^ classBit t (src c .a t l).toNat), 0)
def execFsel (x : Args) (t : Ty) (s : State) : Host.Outcome State Fault Refusal :=
  issuePure (.fsel x t) x false s fun c l => bitResult t (if condOf c x.c l then bitsOf c .a t l else bitsOf c .b t l)

/-- A long approximation (R119, R120). -/
def approxResult (op : ApproxOp) (t : Ty) (m : SrcMods) (c : Ctx) (l : Nat) : Dword × FlagSet :=
  let n := modified t m (src c .a t l).toNat
  let r := approx op t n (valueOf t n)
  (placed t r.code, r.flags)

def execFrcp (x : Args) (t : Ty) (m : SrcMods) (s : State) : Host.Outcome State Fault Refusal :=
  issueLong (.frcp x t m) x false s (approxResult .rcp t m)
def execFrsq (x : Args) (t : Ty) (m : SrcMods) (s : State) : Host.Outcome State Fault Refusal :=
  issueLong (.frsq x t m) x false s (approxResult .rsq t m)
def execFsqrt (x : Args) (t : Ty) (r : RMode) (m : SrcMods) (s : State) : Host.Outcome State Fault Refusal :=
  issueLong (.fsqrt x t r m) x false s fun c l => fltResult t r (numSqrt (fltA c t m l)) 0
def execFdiv (x : Args) (t : Ty) (r : RMode) (m : SrcMods) (s : State) : Host.Outcome State Fault Refusal :=
  issueLong (.fdiv x t r m) x false s fun c l =>
    let q := numDiv (fltA c t m l) (fltB c t l)
    fltResult t r q.1 q.2
def execFex2 (x : Args) (t : Ty) (m : SrcMods) (s : State) : Host.Outcome State Fault Refusal :=
  issueLong (.fex2 x t m) x false s (approxResult .ex2 t m)
def execFlg2 (x : Args) (t : Ty) (m : SrcMods) (s : State) : Host.Outcome State Fault Refusal :=
  issueLong (.flg2 x t m) x false s (approxResult .lg2 t m)
def execFsin (x : Args) (t : Ty) (m : SrcMods) (s : State) : Host.Outcome State Fault Refusal :=
  issueLong (.fsin x t m) x false s (approxResult .sin t m)
def execFcos (x : Args) (t : Ty) (m : SrcMods) (s : State) : Host.Outcome State Fault Refusal :=
  issueLong (.fcos x t m) x false s (approxResult .cos t m)
def execFtanh (x : Args) (t : Ty) (m : SrcMods) (s : State) : Host.Outcome State Fault Refusal :=
  issueLong (.ftanh x t m) x false s (approxResult .tanh t m)

/-- LONG_OP_RESULT (R99). -/
def execLongOpResult (tr : Nat) (s : State) : Host.Outcome State Fault Refusal := unitStep (finishLong s tr)

end Sys2Proof.Machine
end

