-- ==== Sys2Proof/Machine/Convert.lean ====
section
/-! DEFINITION. The conversion class (R87 to R96). -/

namespace Sys2Proof.Machine

/-- A value converted to an integer type (R89). -/
def toInteger (t : Ty) (mode : RMode) (v : Num) : Dword × FlagSet :=
  let out := fun (i : Int) (fl : FlagSet) => (placed t (wrap i t.width), fl)
  match v with
  | .nan _ => out 0 Fl.inv
  | .inf n => out (if n then minOf t else maxOf t) Fl.inv
  | .fin e =>
    let r := roundInt mode e
    if r.1 < minOf t ∨ maxOf t < r.1 then out (sat r.1 (minOf t) (maxOf t)) Fl.inv
    else out r.1 (flagIf r.2 Fl.inx)

/-- `cvt` from an encoding of type `S` to type `T` (R89). -/
def convert (dst from_ : Ty) (mode : RMode) (saturate : Bool) (n : Nat) : Dword × FlagSet :=
  if dst.isInt then
    if from_.isInt then
      let x : Int := if from_.signed then signExt n from_.width else (n % 2 ^ from_.width : Nat)
      if x < minOf dst ∨ maxOf dst < x then
        (placed dst (wrap (if saturate then sat x (minOf dst) (maxOf dst) else x) dst.width), Fl.iov)
      else (placed dst (wrap x dst.width), 0)
    else toInteger dst mode (valueOf from_ n)
  else
    let r := roundTo dst mode saturate (valueOf from_ n)
    (placed dst r.code, r.flags)

/-- The CTL immediate of `cvt` (R87). -/
def cvtControl (x : Args) : RMode × Bool :=
  match x.b with
  | .imm i => (RMode.ofCode (i.toNat % 4), bitsAt i.toNat 2 1 = 1)
  | _ => (.rn, false)

/-- A scale exponent: bits [7:0] as two's complement (R86, R91). -/
def scaleExp (n : Nat) : Int := signExt n 8

/-- A number multiplied by a power of two. -/
def scaleNum (v : Num) (k : Int) : Num :=
  match v with
  | .fin e => .fin (e.scale k)
  | v => v

/-- `pack` keeps the pattern of the exact widening of a 16-bit NaN (R74). -/
def packNan (t : Ty) (n : Nat) : Option Nat :=
  let w := n % 2 ^ 32
  let isNan := bitsAt w 23 8 = 255 && bitsAt w 0 23 ≠ 0
  match t with
  | .f16 => if isNan && bitsAt w 0 13 = 0 && bitsAt w 13 10 ≠ 0 then
      some (bitsAt w 31 1 * 2 ^ 15 + 0x1F * 2 ^ 10 + bitsAt w 13 10) else none
  | .bf16 => if isNan && bitsAt w 0 16 = 0 then some (w / 2 ^ 16) else none
  | _ => none

/-- One conversion of `pack` (R93). -/
def packOne (t : Ty) (mode : RMode) (n : Nat) : Enc :=
  match packNan t n with
  | some p => ⟨p, 0⟩
  | none => roundTo t mode false (valueOf .f32 n)

/-- Replace bits [2w(P+1)−1 : 2wP] of a word. -/
def packInto (w p v pair : Nat) : Nat :=
  let lo := 2 * w * p
  v % 2 ^ lo + pair * 2 ^ lo + v / 2 ^ (lo + 2 * w) * 2 ^ (lo + 2 * w)

def execCvt (x : Args) (dst from_ : Ty) (s : State) : Host.Outcome State Fault Refusal :=
  issuePure (.cvt x dst from_) x dst.wide s fun c l =>
    let ctl := cvtControl x
    convert dst from_ ctl.1 ctl.2 (src c .a from_ l).toNat
def execRnd (x : Args) (t : Ty) (r : RMode) (s : State) : Host.Outcome State Fault Refusal :=
  issuePure (.rnd x t r) x false s fun c l =>
    match valueOf t (src c .a t l).toNat with
    | .nan sg => (placed t (fmtOf t).nanCode, flagIf sg Fl.inv)
    | .inf n => (placed t ((fmtOf t).infCode n), 0)
    | .fin e =>
      let v := (roundInt r e).1
      let big := e.exp ≥ 0
      (placed t (roundEx (fmtOf t) .rn false (if big then e else ⟨e.neg, v.natAbs, 0, false⟩)).code, 0)
def execQnt (x : Args) (t : Ty) (r : RMode) (s : State) : Host.Outcome State Fault Refusal :=
  issuePure (.qnt x t r) x false s fun c l =>
    let q := roundTo t r false (scaleNum (valueOf .f32 (src c .a .f32 l).toNat) (-scaleExp (src c .b .b32 l).toNat))
    (placed t q.code, q.flags)
def execDqt (x : Args) (t : Ty) (s : State) : Host.Outcome State Fault Refusal :=
  issuePure (.dqt x t) x false s fun c l =>
    let v := scaleNum (valueOf t (src c .a t l).toNat) (scaleExp (src c .b .b32 l).toNat)
    fltResult .f32 .rn v 0
def execPack (x : Args) (t : Ty) (r : RMode) (p : Fin 4) (s : State) : Host.Outcome State Fault Refusal :=
  issuePure (.pack x t r p) x false s fun c l =>
    let lo := packOne t r (src c .a .f32 l).toNat
    let hi := packOne t r (src c .b .f32 l).toNat
    let v := (src c .c .b32 l).toNat
    (BitVec.ofNat 64 (packInto t.width p.val v (hi.code * 2 ^ t.width + lo.code)), lo.flags ||| hi.flags)
def execUnpk (x : Args) (t : Ty) (n : Fin 8) (s : State) : Host.Outcome State Fault Refusal :=
  issuePure (.unpk x t n) x false s fun c l =>
    fltResult .f32 .rn (valueOf t (bitsAt (src c .a .b32 l).toNat (t.width * n.val) t.width)) 0
def execScl (x : Args) (t : Ty) (r : RMode) (s : State) : Host.Outcome State Fault Refusal :=
  issuePure (.scl x t r) x false s fun c l =>
    fltResult t r (scaleNum (valueOf t (src c .a t l).toNat) (signExt (src c .b .s32 l).toNat 32)) 0

end Sys2Proof.Machine
end

