-- ==== Sys2Proof/Machine/CrossLane.lean ====
section
/-! DEFINITION. The cross-lane and predicate class (R121 to R129). -/

namespace Sys2Proof.Machine

/-! ## The reduction tree (R123) -/

/-- Combine two present leaves, with the flags that sets. -/
def combine2 (op : LaneOp) (t : Ty) (x y : Nat) : Nat × FlagSet :=
  if t.isFloat then
    match op with
    | .min => minMaxNum t false x y
    | .max => minMaxNum t true x y
    | _ =>
      let r := roundNum (fmtOf t) .rn false (numAdd .rn (valueOf t x) (valueOf t y))
      (r.code, r.flags)
  else
    let w := t.width
    let i : Int := if t.signed then signExt x w else (x : Nat)
    let j : Int := if t.signed then signExt y w else (y : Nat)
    match op with
    | .add => ((x + y) % 2 ^ w, 0)
    | .min => (if i ≤ j then x else y, 0)
    | .max => (if i ≥ j then x else y, 0)
    | .and => (x &&& y, 0)
    | .or => (x ||| y, 0)
    | .xor => (x ^^^ y, 0)

/-- `Combine` of R123; an absent leaf is ignored. -/
def combine (op : LaneOp) (t : Ty) (x y : Option Nat) : Option Nat × FlagSet :=
  match x, y with
  | none, y => (y, 0)
  | x, none => (x, 0)
  | some x, some y => let r := combine2 op t x y; (some r.1, r.2)

/-- The next level of the tree. -/
def nextLevel (op : LaneOp) (t : Ty) : List (Option Nat) → List (Option Nat) × FlagSet
  | x :: y :: r =>
    let n := combine op t x y
    let rest := nextLevel op t r
    (n.1 :: rest.1, n.2 ||| rest.2)
  | r => (r, 0)

/-- `n` further levels above a level, with the flags of every node. -/
def treeFrom (op : LaneOp) (t : Ty) : Nat → List (Option Nat) → List (List (Option Nat)) × FlagSet
  | 0, l => ([l], 0)
  | n + 1, l =>
    let up := nextLevel op t l
    let rest := treeFrom op t n up.1
    (l :: rest.1, up.2 ||| rest.2)

/-- The leaves of the participants. -/
def leaves (m : Mask) (val : Nat → Nat) : List (Option Nat) :=
  tids.map fun t => if m.getLsbD t then some (val t) else none

/-- `Ident(op, T)` as an encoding. -/
def identOf (op : LaneOp) (t : Ty) : Nat :=
  if t.isFloat then
    match op with
    | .min => (fmtOf t).infCode false
    | .max => (fmtOf t).infCode true
    | _ => 0
  else
    match op with
    | .add | .or | .xor => 0
    | .and => 2 ^ t.width - 1
    | .min => wrap (maxOf t) t.width
    | .max => wrap (minOf t) t.width

def nodeAt (tree : List (List (Option Nat))) (l j : Nat) : Option Nat := (tree.getD l []).getD j none

/-- The combination of leaves 0 to n − 1 from the nodes (R124): levels from `l` down. -/
def prefixFrom (op : LaneOp) (t : Ty) (tree : List (List (Option Nat))) (n : Nat) :
    Nat → Nat → Option Nat → FlagSet → Option Nat × FlagSet
  | 0, start, x, fl =>
    if n % 2 = 1 then let r := combine op t x (nodeAt tree 0 start); (r.1, fl ||| r.2) else (x, fl)
  | l + 1, start, x, fl =>
    if bitsAt n (l + 1) 1 = 1 then
      let r := combine op t x (nodeAt tree (l + 1) (start / 2 ^ (l + 1)))
      prefixFrom op t tree n l (start + 2 ^ (l + 1)) r.1 (fl ||| r.2)
    else prefixFrom op t tree n l start x fl

/-- Operand A of a thread, in the cross-lane class. -/
def laneA (c : Ctx) (t : Ty) (l : Nat) : Dword := rdOpnd c c.x.a t l

def laneBits (c : Ctx) (t : Ty) (l : Nat) : Nat := (laneA c t l).toNat % 2 ^ t.width

/-- A leaf as the tree reads it: a NaN gives the canonical one, and sets INV when it is signalling (R74). -/
def readLeaf (t : Ty) (n : Nat) : Nat × FlagSet :=
  match if t.isFloat then valueOf t n else .inf false with
  | .nan s => ((fmtOf t).nanCode, flagIf s Fl.inv)
  | _ => (n, 0)

/-- The leaf of a thread. -/
def laneLeaf (c : Ctx) (t : Ty) (l : Nat) : Nat := (readLeaf t (laneBits c t l)).1

/-- The flags that reading the participants' leaves sets. -/
def leafFlags (c : Ctx) (t : Ty) : FlagSet := joinFlags ((Mask.threads c.mask).map fun l => (readLeaf t (laneBits c t l)).2)

/-- Complete with one value for every participant, or for D of a U = 1 form. -/
def uniformDone (c : Ctx) (s : State) (v : Dword) (fl : FlagSet) : Res :=
  .done s { vals := c.lanes.map fun t => (t, v), flags := fl }

def execRed (x : Args) (t : Ty) (op : LaneOp) (s : State) : Host.Outcome State Fault Refusal :=
  issue (.red x t op) x t.wide s fun c s =>
    let tree := treeFrom op t 6 (leaves c.mask (laneLeaf c t))
    uniformDone c s (placed t ((nodeAt tree.1 6 0).getD (identOf op t))) (tree.2 ||| leafFlags c t)
/-- `scan` (R124). The flags are those of every participant's leaf and of every node of the tree, which the spec forms once, whether or not a prefix uses it; the spec
does not say so (log 56). -/
def execScan (x : Args) (t : Ty) (op : LaneOp) (excl : Bool) (s : State) : Host.Outcome State Fault Refusal :=
  issue (.scan x t op excl) x t.wide s fun c s =>
    let tree := treeFrom op t 6 (leaves c.mask (laneLeaf c t))
    let r := c.lanes.map fun l => (l, prefixFrom op t tree.1 (if excl then l else l + 1) 6 0 none 0)
    .done s { vals := r.map fun e => (e.1, placed t (e.2.1.getD (identOf op t)))
              flags := tree.2 ||| leafFlags c t ||| joinFlags (r.map fun e => e.2.2) }

/-- The source thread of `shfl` (R125). -/
def shflSource (m : ShflMode) (t b : Nat) : Nat :=
  match m with
  | .idx => b % 64
  | .up => if b ≤ t then t - b else t
  | .down => if t + b < 64 then t + b else t
  | .xor => t ^^^ (b % 64)

def wordTy (wide : Bool) : Ty := if wide then .n64 else .b32

def execShfl (x : Args) (wide : Bool) (m : ShflMode) (s : State) : Host.Outcome State Fault Refusal :=
  issue (.shfl x wide m) x wide s fun c s =>
    .done s { vals := c.lanes.map fun t =>
      (t, laneA c (wordTy wide) (shflSource m t ((rdOpnd c x.b .b32 t).toNat % 2 ^ 32))) }
def execBcst (x : Args) (wide : Bool) (s : State) : Host.Outcome State Fault Refusal :=
  issue (.bcst x wide) x wide s fun c s =>
    uniformDone c s (laneA c (wordTy wide) ((rdOpnd c x.b .b32 0).toNat % 64)) 0

/-- The participants whose predicate A is 1. -/
def voters (c : Ctx) : Mask := c.mask &&& (match c.x.a with | .k n => rdK c.tr n.toNat | _ => 0)

def voteResult (m : VoteMode) (part yes : Mask) : Dword :=
  match m with
  | .any => truth (yes ≠ 0)
  | .all => truth (yes = part)
  | .ballot => yes
  | .eq => truth (yes = 0 || yes = part)

def execVote (x : Args) (m : VoteMode) (s : State) : Host.Outcome State Fault Refusal :=
  issue (.vote x m) x (m = .ballot) s fun c s => uniformDone c s (voteResult m c.mask (voters c)) 0
def execFirst (x : Args) (s : State) : Host.Outcome State Fault Refusal :=
  issue (.first x) x false s fun c s =>
    uniformDone c s (BitVec.ofNat 64 ((Mask.threads (voters c)).headD 64)) 0

/-- An instruction on conditions. -/
def logic (i : Instr) (x : Args) (s : State) (f : Bool → Bool → Bool) : Host.Outcome State Fault Refusal :=
  issuePure i x false s fun c t => (truth (f (condOf c x.a t) (condOf c x.b t)), 0)

def execKand (x : Args) (s : State) : Host.Outcome State Fault Refusal := logic (.kand x) x s fun a b => a && b
def execKor (x : Args) (s : State) : Host.Outcome State Fault Refusal := logic (.kor x) x s fun a b => a || b
def execKxor (x : Args) (s : State) : Host.Outcome State Fault Refusal := logic (.kxor x) x s fun a b => a != b
def execKnot (x : Args) (s : State) : Host.Outcome State Fault Refusal := logic (.knot x) x s fun a _ => !a
def execKmov (x : Args) (s : State) : Host.Outcome State Fault Refusal :=
  issuePure (.kmov x) x false s fun c t =>
    match x.a with
    | .k _ | .g _ => (truth (condOf c x.a t), 0)
    | .s n => (truth (rdS c.tr n.toNat ≠ 0), 0)
    | a => (truth (rdOpnd c a .b32 t ≠ 0), 0)

end Sys2Proof.Machine
end

