-- ==== Sys2Proof/Machine/Matrix.lean ====
section
/-! DEFINITION. The matrix class (R130 to R152): accumulator banks, the matrix queue of a workgroup, the array's steps. -/

namespace Sys2Proof.Machine

/-! ## Accumulator memory (R130, R131) -/

def accKey (bank i j : Nat) : Nat := (bank * 16 + i) * 64 + j

/-- Write +0 to every element of banks. -/
def clearBanks (s : State) (core : Nat) (banks : List Nat) : State :=
  modCore s core fun co => { co with acc := co.acc.filter fun e => !banks.contains (e.1 / 1024) }

/-- The physical banks of a binding. -/
def AccBind.list (b : AccBind) : List Nat := b.bank :: b.check.toList

/-- Return banks of a workgroup (R131). -/
def returnBanks (g : Wg) (banks : List Nat) : Wg :=
  banks.foldl (fun g b => { g with used := g.used.filter (· ≠ b), resv := if g.resv < g.banks then g.resv + 1 else g.resv }) g

/-- Bind `n` names from `first`, each to one bank, or to two in redundant mode, from a list of banks. -/
def bindNames (g : Wg) : Nat → Nat → List Nat → Wg
  | _, 0, _ => g
  | first, n + 1, bs =>
    if g.red then match bs with
      | b :: c :: rest => bindNames { g with accs := Tab.put g.accs first ⟨b, some c⟩ } (first + 1) n rest
      | _ => g
    else match bs with
      | b :: rest => bindNames { g with accs := Tab.put g.accs first ⟨b, none⟩ } (first + 1) n rest
      | [] => g

/-- The banks that `n` names need. -/
def banksNeeded (g : Wg) (n : Nat) : Nat := if g.red then 2 * n else n

/-- Take banks for names `first` on, its own reservation first; they hold +0 (R130, R136). -/
def takeBanks (s : State) (w : Nat) (first n : Nat) : State :=
  match wg? s w with
  | none => s
  | some g =>
    let need := banksNeeded g n
    let bs := (freeBanks s g.core).take need
    let s := clearBanks s g.core bs
    putWg s w (bindNames { g with used := g.used ++ bs, resv := g.resv - (if need < g.resv then need else g.resv) } first n bs)

/-- The names of a request for `n` names from `first`, bound to the banks that it will obtain. -/
def pendingNames (g : Wg) (entry first n : Nat) : Tab AccBind :=
  (List.range n).map fun j =>
    (first + j, if g.red then ⟨pendingBank entry (2 * j), some (pendingBank entry (2 * j + 1))⟩ else ⟨pendingBank entry j, none⟩)

/-- The banks of a workgroup under other numbers: in its names, its queue and its record of sources. -/
def AccBind.rename (f : Nat → Nat) (b : AccBind) : AccBind := { bank := f b.bank, check := b.check.map f }
def renameBanks (f : Nat → Nat) (g : Wg) : Wg :=
  { g with
    accs := g.accs.map fun e => (e.1, e.2.rename f)
    mq := g.mq.map fun e => { e with banks := e.banks.map (AccBind.rename f) }
    srcOf := g.srcOf.foldl (fun m e => Tab.put m (f e.1) e.2) [] }

/-- A blocked request obtains its banks: they take the place of the numbers that stood for them, hold +0, and its entry leaves the
queue (R130, R136). -/
def serveBanks (s : State) (w entry need : Nat) : State :=
  match wg? s w with
  | none => s
  | some g =>
    let bs := (freeBanks s g.core).take need
    let g := { g with used := g.used ++ bs, resv := g.resv - (if need < g.resv then need else g.resv)
                      mq := g.mq.filter (·.id ≠ entry) }
    putWg (clearBanks s g.core bs) w
      (renameBanks (fun b => if pendingOf entry b then bs.getD ((b - 64) % 128) 0 else b) g)

/-- Whether a request for `need` banks is served as it issues: its workgroup's queue is empty, so that nothing stands before it (R132),
and its banks are free: its own reservation covers it, so that it does not block, or it stands behind no blocked request and there are
banks for it (R131, R136, log 20). -/
def canTakeNow (s : State) (w need : Nat) : Bool :=
  (wg? s w).any (fun g => g.mq.isEmpty && need ≤ g.resv) || ((wg? s w).any (·.mq.isEmpty) && banksFree s w need s.nextId)

/-- Whether a waiting request can be served: every entry before it in its workgroup's queue has taken effect (R132), and it is served in
order of issue (R136). -/
def canServe (s : State) (w need entry : Nat) : Bool :=
  (wg? s w).any (fun g => g.mq.head?.any (·.id = entry)) && banksFree s w need entry

/-! ## Issue (R132, R134, R135) -/

def accNum (o : Opnd) : Nat := match o with | .a n => n.toNat | _ => 0

/-- The first failing check: pairs of a cause and whether it fails, in the order of R135. -/
def firstFail (l : List (Nat × Bool)) : Option Nat := (l.find? (·.2)).map (·.1)

/-- The row bytes RB. -/
def rowBytes (g : Wg) : Nat := if g.red then 256 else 512

/-- The weight type of the latch as the instructions issued so far leave it. -/
def issuedLatch (g : Wg) : Option Ty :=
  g.mq.foldl (fun l e => match e.instr with
    | .wld _ t => some t
    | .wldZero _ => none
    | _ => l) (g.wlatch.map (·.ty))

/-- Whether a name in a range is unbound. -/
def unboundIn (g : Wg) (first n : Nat) : Bool := (List.range n).any fun i => (Tab.get? g.accs (first + i)).isNone
/-- The bindings of a range of names. -/
def bindsOf (g : Wg) (first n : Nat) : List AccBind := (List.range n).filterMap fun i => Tab.get? g.accs (first + i)

/-- A matrix instruction: guard, NOWG, the tiles that must be READY, the queue; `go` continues with the workgroup. With a failing guard it
waits for no tile (log 44). -/
def withMatrix (c : Ctx) (s : State) (tiles : List Opnd) (go : Nat → Wg → Res) : Res :=
  if !c.on then .done s {}
  else match c.tr.wg, wgOf s c.tr with
    | some w, some g =>
      let ts := tiles.filterMap fun o => match o with | .t n => some n.toNat | _ => none
      match ts.find? fun t => (tileOf g t).state ≠ 2 with
      | some t => .blocked s (.tile t [2] false)
      | none => if g.mq.length ≥ 8 then .blocked s .matrixQueue else go w g
    | _, _ => .trap s (trapOf Trap.matrix 12)

/-- Go on when no check fails. -/
def orMatrixTrap (s : State) (checks : List (Nat × Bool)) (go : Res) : Res :=
  match firstFail checks with
  | some cause => .trap s (trapOf Trap.matrix cause)
  | none => go

/-- Place an entry in the matrix queue; its identity. -/
def enqueue (s : State) (w : Nat) (e : MqEntry) : Nat × State :=
  let (id, s) := freshId s
  (id, modWg s w fun g => { g with mq := g.mq ++ [{ e with id := id }] })

/-- The entry of an issued instruction. -/
def entryOf (c : Ctx) (i : Instr) : MqEntry :=
  { id := 0, instr := i, pc := c.tr.pc, uid := c.tr.uid, trn := c.tr.trn, banks := [] }

/-- The numbers of the tiles among operands. -/
def tilesOf (l : List Opnd) : List Nat := l.filterMap fun o => match o with | .t n => some n.toNat | _ => none

/-- An instruction that the train continues past. -/
def queued (s : State) (w : Nat) (e : MqEntry) : Res := .done (enqueue s w e).2 {}

/-- An instruction that the train waits for. -/
def queuedWait (c : Ctx) (s : State) (w : Nat) (e : MqEntry) : Res :=
  let (id, s) := enqueue s w e
  .left (blockAt s c.k c.head (.matrixOp id))

def tileSize (g : Wg) (o : Opnd) : Nat := (tileOf g (tileNum o)).size
def isTile (o : Opnd) : Bool := match o with | .t _ => true | _ => false

def countOperand (c : Ctx) : Nat := (rdOpnd c c.x.a .n64 uniTid).toNat

/-! ## aalloc, afree, azero (R136, R137) -/

/-- An `aalloc` enters the queue (R132). Where nothing stands before it and its banks are free it takes effect at once; else its entry
holds its place, its names are bound for the checks of later instructions, and the train waits until it has taken effect. -/
def aallocBody (i : Instr) (c : Ctx) (s : State) : Res :=
  withMatrix c s [] fun w g =>
    let first := accNum c.x.d
    let n := countOperand c
    let need := banksNeeded g n
    let bound := g.accs.foldl (fun m e => m + (AccBind.list e.2).length) 0
    let others := (wgsOnCore s g.core).foldl (fun m e => if e.1 = w then m else m + e.2.banks) 0
    orMatrixTrap s [(3, n = 0 || first + n > 64), (2, (List.range n).any fun j => (Tab.get? g.accs (first + j)).isSome),
                    (10, bound + need + others > 64)] (
      if canTakeNow s w need then .done (takeBanks s w first n) {}
      else
        let (id, s) := enqueue s w (entryOf c i)
        waitHere i c (modWg s w fun g => { g with accs := (pendingNames g id first n).foldl (fun t e => Tab.put t e.1 e.2) g.accs })
          (.aalloc need id s.clk))

def execAalloc (x : Args) (s : State) : Host.Outcome State Fault Refusal := issue (.aalloc x) x false s (aallocBody (.aalloc x))

/-- AALLOC_BANKS_FREE: a waiting request has its turn and is served (R132, R136). -/
def execAallocBanksFree (tr : Nat) (s : State) : Host.Outcome State Fault Refusal :=
  unitStep (match train? s tr with
    | some { block := some (.aalloc need id _), wg := some w, atWait := some (.aalloc x), pc := pc, .. } =>
      if canServe s w need id then complete (.aalloc x) x false tr pc (unblock (serveBanks s w id need) tr) {} else s
    | _ => s)

/-- Names from `first` on are unbound, but for those bindings that `keep` names. -/
def unbindNames (g : Wg) (first n : Nat) (keep : AccBind → Bool := fun _ => false) : Wg :=
  { g with accs := g.accs.filter fun a => !(first ≤ a.1 && a.1 < first + n) || keep a.2 }

/-- `afree` unbinds at issue; the array returns the banks. -/
def execAfree (x : Args) (s : State) : Host.Outcome State Fault Refusal :=
  issue (.afree x) x false s fun c s =>
    withMatrix c s [] fun w g =>
      let first := accNum x.d
      let n := countOperand c
      orMatrixTrap s [(3, n = 0 || first + n > 64), (1, unboundIn g first n)] (
        let e := { entryOf c (.afree x) with banks := bindsOf g first n }
        queued (modWg s w fun g => unbindNames g first n) w e)

def execAzero (x : Args) (s : State) : Host.Outcome State Fault Refusal :=
  issue (.azero x) x false s fun c s =>
    withMatrix c s [] fun w g =>
      let first := accNum x.d
      let n := countOperand c
      orMatrixTrap s [(3, n = 0 || first + n > 64), (1, unboundIn g first n)] (
        queued s w { entryOf c (.azero x) with banks := bindsOf g first n })

/-! ## wld, mma, mmt, mprog, mred (R138, R141, R142, R144, R145, R148) -/

def limpF32 (s : State) (t : Ty) : Bool := t = .f32 && s.super.limp

/-- The scale of a `wld` from a register or an immediate. -/
def wldScale (c : Ctx) : Dword := rdOpnd c c.x.b .n64 uniTid

def execWld (x : Args) (t : Ty) (s : State) : Host.Outcome State Fault Refusal :=
  issue (.wld x t) x false s fun c s =>
    withMatrix c s [x.a, x.b] fun w g =>
      orMatrixTrap s [(13, limpF32 s t), (6, tileSize g x.a < 64 * rowBytes g || (isTile x.b && tileSize g x.b < 64))] (
        queued s w { entryOf c (.wld x t) with val := wldScale c, tiles := tilesOf [x.a, x.b] })

def execWldZero (x : Args) (s : State) : Host.Outcome State Fault Refusal :=
  issue (.wldZero x) x false s fun c s => withMatrix c s [] fun w _ => queued s w (entryOf c (.wldZero x))

def ceilDiv (a b : Nat) : Nat := (a + b - 1) / b

/-- The checks of an `mma` in the order of R135: `m` rows, activation type, and the remaining ones of its form. -/
def mmaChecks (s : State) (g : Wg) (t : Ty) (first m : Nat) (align tilesize : Bool) : List (Nat × Bool) :=
  let names := ceilDiv m 16
  [(13, limpF32 s t), (3, m = 0 || m > 1024 || first + names > 64), (1, unboundIn g first names),
   (5, (issuedLatch g).isNone), (4, (issuedLatch g).any fun tw => tw.width ≠ t.width), (11, align), (6, tilesize)]

/-- M of the tile form: from the control register, or the tile (R141). -/
def mmaRows (ctl : Opnd) (val : Dword) (size rb : Nat) : Nat × Bool :=
  let m := bitsAt val.toNat 8 11
  match ctl with
  | .imm _ => (size / rb, true)
  | _ => if m = 0 then (size / rb, true) else (m, false)

def mmaTileChecks (s : State) (g : Wg) (t : Ty) (first : Nat) (ctl : Opnd) (val : Dword) (a sc : Opnd) : Nat × List (Nat × Bool) :=
  let rb := rowBytes g
  let size := tileSize g a
  let (m, fromTile) := mmaRows ctl val size rb
  (m, mmaChecks s g t first m false
    ((fromTile && size % rb ≠ 0) || m * rb > size || (isTile sc && tileSize g sc < m)))

def execMmaTile (x : Args) (t : Ty) (s : State) : Host.Outcome State Fault Refusal :=
  issue (.mmaTile x t) x false s fun c s =>
    withMatrix c s [x.a, x.c] fun w g =>
      let first := accNum x.d
      let val := rdOpnd c x.b .n64 uniTid
      let (m, checks) := mmaTileChecks s g t first x.b val x.a x.c
      orMatrixTrap s checks (
        queued s w { entryOf c (.mmaTile x t) with
          banks := bindsOf g first (ceilDiv m 16), val := val, rows := m, tiles := tilesOf [x.a, x.c] })

/-- The row at which a memory-form instruction starts (R143). -/
def startRow (tr : Train) : Nat := if tr.rowprog.valid && tr.rowprog.pc = tr.pc then tr.rowprog.rows else 0

def execMmaMemory (x : Args) (t : Ty) (s : State) : Host.Outcome State Fault Refusal :=
  issue (.mmaMemory x t) x false s fun c s =>
    withMatrix c s [x.c] fun w g =>
      let first := accNum x.d
      let m := bitsAt (extWord x) 32 11
      let base := rdOpnd c x.a .n64 uniTid
      let stride := bitsAt (extWord x) 0 32
      orMatrixTrap s (mmaChecks s g t first m (base.toNat % 64 ≠ 0 || stride % 64 ≠ 0) (isTile x.c && tileSize g x.c < m)) (
        queuedWait c s w { entryOf c (.mmaMemory x t) with
          banks := bindsOf g first (ceilDiv m 16), val := rdOpnd c x.b .n64 uniTid, addr := base, rows := m
          done := startRow c.tr, tiles := tilesOf [x.c] })

/-- ROWS, KS and NB of an `mmt`. -/
def mmtShape (x : Args) : Nat × Nat × Nat := (bitsAt (extWord x) 0 11, bitsAt (extWord x) 16 8, bitsAt (extWord x) 24 8)

def execMmt (x : Args) (ta tw : Ty) (s : State) : Host.Outcome State Fault Refusal :=
  issue (.mmt x ta tw) x false s fun c s =>
    withMatrix c s [x.a, x.b] fun w g =>
      let first := accNum x.d
      let (m, ks, nb) := mmtShape x
      let names := nb * ceilDiv m 16
      let rb := rowBytes g
      orMatrixTrap s
        [(13, limpF32 s ta || limpF32 s tw), (3, m = 0 || m > 1024 || ks = 0 || nb = 0 || nb > 64 || first + names > 64),
         (1, unboundIn g first names), (4, ta.width ≠ tw.width),
         (6, tileSize g x.a < ks * m * rb || tileSize g x.b < nb * ks * 64 * rb)] (
        queued (modWg s w fun g => { g with tprog := { g.tprog with active := true } }) w
          { entryOf c (.mmt x ta tw) with
            banks := bindsOf g first names, val := rdOpnd c x.c .n64 uniTid, rows := m, tiles := tilesOf [x.a, x.b] })

/-- The tile-progress register as a dword (R145). -/
def tprogWord (p : TileProg) : Dword :=
  BitVec.ofNat 64 (p.step % 2 ^ 32 + 2 ^ 32 * (p.r % 256) + 2 ^ 40 * (p.k % 256) + 2 ^ 48 * (p.n % 256)
    + (if p.active then 2 ^ 63 else 0))

/-- The tile-progress register's ACTIVE: an `mmt` is queued or running (R145). -/
def isMmt : Instr → Bool
  | .mmt _ _ _ => true
  | _ => false
def mmtQueued (g : Wg) : Bool := g.mq.any fun e => isMmt e.instr
def settleActive (g : Wg) : Wg := { g with tprog := { g.tprog with active := mmtQueued g } }

def execMprog (x : Args) (s : State) : Host.Outcome State Fault Refusal :=
  issue (.mprog x) x true s fun c s =>
    if !c.on then .done s {}
    else match wgOf s c.tr with
      | some g => uniResult s (tprogWord g.tprog)
      | none => .trap s (trapOf Trap.matrix 12)

/-- `mred` finds its workgroup's queue empty, so it takes effect as it enters (R132, R148). -/
def execMred (x : Args) (s : State) : Host.Outcome State Fault Refusal :=
  issue (.mred x) x false s fun c s =>
    withMatrix c s [] fun w g =>
      let m := (rdOpnd c x.a .n64 uniTid).toNat
      orMatrixTrap s [(9, !g.accs.isEmpty || !g.mq.isEmpty || m > 1)] (
        .done (modWg s w fun g => { g with red := m = 1, wlatch := none }) {})

/-- MATRIX_QUEUE_ROOM: a train that found the queue full goes on (R132). -/
def execMatrixQueueRoom (tr : Nat) (s : State) : Host.Outcome State Fault Refusal :=
  unitStep (match train? s tr with
    | some { block := some .matrixQueue, wg := some w, .. } =>
      if (wg? s w).any fun g => g.mq.length < 8 then unblock s tr else s
    | _ => s)

/-! ## adrain (R147) -/

/-- The registers of the register form run past the file or the declared ones, whatever the guard (R47, R48). -/
def drainBeyond (c : Ctx) : Bool :=
  match c.x.d with
  | .v n => n.toNat + 15 > 255 || vCount c.tr ≤ n.toNat + 15
  | _ => false

/-- Whether an outstanding load returns to one of the registers that the register form writes. -/
def drainTouches (x : Args) (ld : PendLoad) : Bool :=
  match x.d with
  | .v d => (regsOf ld.ty.wide ld.dst).any fun r => match r with | .v n => d.toNat ≤ n && n ≤ d.toNat + 15 | _ => false
  | _ => false

def drainEntry (c : Ctx) (i : Instr) (g : Wg) (addr : Dword) (done : Nat) : MqEntry :=
  { entryOf c i with banks := bindsOf g (accNum c.x.a) 1, addr := addr, rows := 16, done := done }

def execAdrainReg (x : Args) (t : Ty) (z : Bool) (s : State) : Host.Outcome State Fault Refusal :=
  issue (.adrainReg x t z) x false s fun c s =>
    if drainBeyond c then .trap s (trapOf Trap.operand 9)
    else withMatrix c s [] fun w g =>
      orMatrixTrap s [(1, unboundIn g (accNum x.a) 1)] (
        queuedWait c (returnLoads s c.k (drainTouches x)) w (drainEntry c (.adrainReg x t z) g 0 0))

/-- The pieces of 64 bytes that a scratchpad drain writes: row, piece and address. -/
def drainPieces (t : Ty) (addr : Nat) : List (Nat × Nat) :=
  let n := tyBytes t
  (List.range (16 * n)).map fun p => (p, addr + 64 * p)

/-- The address of a scratchpad drain is an `s` register or an immediate, 32 bits wide (R174). -/
def execAdrainSp (x : Args) (t : Ty) (z : Bool) (s : State) : Host.Outcome State Fault Refusal :=
  issue (.adrainSp x t z) x false s fun c s =>
    withMatrix c s [] fun w g =>
      let addr := (rdOpnd c x.b .b32 uniTid).toNat
      orMatrixTrap s [(1, unboundIn g (accNum x.a) 1), (11, addr % 64 ≠ 0)] (
        withSp c s true 64 (drainPieces t addr) fun _ _ =>
          queuedWait c s w (drainEntry c (.adrainSp x t z) g (BitVec.ofNat 64 addr) 0))

def execAdrainGm (x : Args) (t : Ty) (z : Bool) (s : State) : Host.Outcome State Fault Refusal :=
  issue (.adrainGm x t z) x false s fun c s =>
    withMatrix c s [] fun w g =>
      let base := rdOpnd c x.b .n64 uniTid
      orMatrixTrap s [(1, unboundIn g (accNum x.a) 1), (11, base.toNat % 64 ≠ 0 || bitsAt (extWord x) 0 32 % 64 ≠ 0)] (
        queuedWait c s w (drainEntry c (.adrainGm x t z) g base (startRow c.tr)))

/-! ## The array (R84, R133, R138, R140) -/

/-- Groups of `n` bytes as numbers. -/
def groups (n : Nat) : Nat → List Byte → List Nat
  | 0, _ => []
  | fuel + 1, bs => if bs.isEmpty then [] else ofBytes (bs.take n) :: groups n fuel (bs.drop n)

/-- The elements of a row (R84; R138 in redundant mode). -/
def rowElems (t : Ty) (bs : List Byte) : List Nat :=
  match t with
  | .h4 => bs.map (fun b => b.toNat % 16) ++ bs.map (fun b => b.toNat / 16)
  | t => groups (t.width / 8) bs.length bs

def rowValues (t : Ty) (bs : List Byte) : List Num := (rowElems t bs).map (valueOf t)

/-- The weights of 64 columns from an offset of a tile, with their scales. -/
def weightCols (g : Wg) (t : Ty) (tile off : Nat) (scale : Nat → Int) : List (List Num × Int) :=
  (List.range 64).map fun j =>
    (rowValues t (spBytes g ((tileOf g tile).base + off + j * rowBytes g) (rowBytes g)), scale j)

/-- The products of a row with a column. -/
def products : List Num → List Num → Int → List Num
  | a :: as, w :: ws, k => mulScaled a w k :: products as ws k
  | _, _, _ => []

/-- `ArrayPass` on one bank row: columns `j` on. -/
def passCols (bank i : Nat) (row : List Num) (sc : Int) : Nat → List (List Num × Int) → Tab F48 × FlagSet → Tab F48 × FlagSet
  | _, [], x => x
  | j, (ws, k) :: rest, (acc, fl) =>
    let (v, f) := f48Pass (Tab.read 0 acc (accKey bank i j)) (products row ws (sc + k))
    passCols bank i row sc (j + 1) rest (Tab.write 0 acc (accKey bank i j) v, fl ||| f)

/-- A row pass into a binding: the primary bank and, in redundant mode, the check bank (R140, R148). -/
def passRow (b : AccBind) (i : Nat) (row : List Num) (sc : Int) (cols : List (List Num × Int)) (x : Tab F48 × FlagSet) :
    Tab F48 × FlagSet :=
  (AccBind.list b).foldl (fun x bank => passCols bank i row sc 0 cols x) x

/-- Passes of rows into the banks of an entry, and the flags they set. -/
def passRows (s : State) (core : Nat) (rows : List (AccBind × Nat × List Num × Int)) (cols : List (List Num × Int)) :
    State × FlagSet :=
  let (acc, fl) := rows.foldl (fun x r => passRow r.1 r.2.1 r.2.2.1 r.2.2.2 cols x) ((coreAt s core).acc, 0)
  (modCore s core fun co => { co with acc := acc }, fl)

/-- The flags of a pass or a conversion go to the issuing train, if it is resident, and to the status of a follow-on's copy
(R149, R151). -/
def flagTrain (s : State) (e : MqEntry) (fl : FlagSet) : State :=
  let s := match trainByUid s e.uid with
    | some (k, _) => modTrain s k fun tr => setFlags tr fl
    | none => s
  match e.follow with
  | some o => modOp s o fun op => { op with flags := op.flags ||| fl }
  | none => s

/-- The row scales come from a tile, or are 0. -/
def rowScale (g : Wg) (o : Opnd) (i : Nat) : Int :=
  match o with
  | .t n => scaleExp (spRead g ((tileOf g n.toNat).base + i) 1)
  | _ => 0

/-- The columns of the latched weights. -/
def latchedCols (g : Wg) : List (List Num × Int) :=
  match g.wlatch with
  | none => []
  | some l => weightCols g l.ty l.tile 0 fun j => scaleExp (l.scales.getD j 0).toNat

/-- The activation source of the last `mma` or `mmt` into each of these banks (R148): whether memory, and tile number or address. -/
def noteSource (g : Wg) (bs : List AccBind) (mem : Bool) (v : Dword) : Wg :=
  { g with srcOf := bs.foldl (fun m b => Tab.put m b.bank (mem, v)) g.srcOf }

def noBind : AccBind := ⟨0, none⟩

/-- The fields of a matrix instruction. -/
def matrixArgs : Instr → Option Args
  | .afree x | .azero x | .wld x _ | .wldZero x | .mmaTile x _ | .mmaMemory x _ | .mmt x _ _ | .adrainReg x _ _
  | .adrainSp x _ _ | .adrainGm x _ _ => some x
  | _ => none

/-- An entry leaves the queue; what waited for it goes on (R132, R149, R256). -/
def dropEntry (s : State) (w : Nat) (e : MqEntry) : State := modWg s w fun g => { g with mq := g.mq.filter (·.id ≠ e.id) }

/-- A train whose threads have exited ends with its last matrix instruction. -/
def settleDraining (s : State) (uid : Nat) : State :=
  match trainByUid s uid with
  | some (k, tr) => if tr.block = some .draining then settleTrain (unblock s k) k else s
  | none => s

/-- The row-progress register after an entry's instruction completes: cleared where it describes that instruction (R143). -/
def rowsAfter (tr : Train) (e : MqEntry) : RowProg :=
  if recordsRows e.instr && tr.rowprog.pc = e.pc then {} else tr.rowprog

def finishEntry (s : State) (w : Nat) (e : MqEntry) (d : Done) : State :=
  let s := dropEntry s w e
  let s := match trainByUid s e.uid, matrixArgs e.instr with
    | some (k, tr), some x =>
      if tr.block = some (.matrixOp e.id) then
        complete e.instr x false k e.pc (modTrain (unblock s k) k fun tr => { tr with rowprog := rowsAfter tr e, replies := [] }) d
      else s
    | _, _ => s
  let s := match e.follow with
    | some o => match Tab.get? s.ops o with
      | some op => endOp s o true (statusWord Code.done 0 op.flags.toNat op.pieces.length)
      | none => s
    | none => s
  settleDraining s e.uid

/-- A waiting memory-form instruction parks: the row-progress register records its rows (R142, R147). The spec does not say whether
it keeps its place in the queue: it leaves it, the entries behind it run, and its replay enters the queue anew (log 34). -/
def parkEntry (s : State) (w k : Nat) (e : MqEntry) (va : Dword) (kind pte len : Nat) : State :=
  let s := dropEntry s w e
  let s := modTrain (unblock s k) k fun tr => { tr with rowprog := { pc := e.pc, rows := e.done, valid := true }, replies := [] }
  park s k e.pc va kind pte e.pc len

/-- The trap that ends a memory-form instruction at a row (R142, R147). -/
def rowTrap (e : MqEntry) (va : Dword) (cause : Nat) : TrapRec :=
  { kind := Trap.access, cause := cause, pc := e.pc, addr := va, detail := BitVec.ofNat 32 e.done }

/-! ## Rows in global memory -/

/-- Where the 64-byte pieces of a row lie. -/
inductive RowPlaces where
  | fault (va : Dword) (pte : Nat)
  | bad (va : Dword) (cause : Nat)
  | asked (l : List (Nat × Dword × Xl))
  | ok (l : List (Nat × Dword × Xl))

/-- The places of a row: `row` where its requests to other modules are out, else those that the translations of now give. With its requests
`near` makes its accesses to this module's memory (R189). -/
def rowPlaces (s : State) (k : Nat) (row : List (Nat × Dword × Xl)) (acc : Access) (base : Dword) (n : Nat) (op : Nat → RemoteOp)
    (near : Near) : State × RowPlaces :=
  match train? s k with
  | none => (s, .ok [])
  | some tr =>
    match if row.isEmpty then translateAll s tr acc 64 ((List.range (n / 64)).map fun p => (p, base + BitVec.ofNat 64 (64 * p)))
        else (s, .ok row) with
    | (s, .fault va pte) => (s, .fault va pte)
    | (s, .ok l) =>
      match violations tr.replies l with
      | (_, va, cause) :: _ => (s, .bad va cause)
      | [] => match askRemote s k op (remotePlaces l) with
        | some (s, _) => let (s, l) := makeNear s k near l; (s, .asked l)
        | none => (s, .ok l)

/-- An entry of a workgroup's queue is another now. -/
def putEntryIn (s : State) (w : Nat) (e : MqEntry) : State :=
  modWg s w fun g => { g with mq := g.mq.map fun m => if m.id = e.id then e else m }

/-- Earlier loads of a row's bytes return before the row is read (R142, R189, R194). -/
def settleRow (s : State) (k : Nat) (l : List (Nat × Dword × Xl)) : State := settleLoads s k (localPlaces l) 64

/-- The pieces of a row that lie in this module's memory, read. -/
def nearRow (k : Nat) : Near := fun s l =>
  let s := settleLoads s k l 64
  (s, l.map fun e => (e.1, .data ((train? s k).elim [] fun tr => trainBytes s tr e.2 64)))

/-- The bytes of a row that is read. -/
def rowData (s : State) (k : Nat) (l : List (Nat × Dword × Xl)) : List Byte :=
  match train? s k with
  | none => []
  | some tr => l.flatMap fun e => match e.2.2 with
    | .mem pa => trainBytes s tr pa 64
    | _ => match Tab.get? tr.replies e.1 with
      | some (.data bs) => bs
      | _ => []

/-- Store pieces of a row: ordinary stores of the train, performed at once (R147). -/
def storePieces (s : State) (k : Nat) (bs : List Byte) (l : List (Nat × Nat)) : State :=
  l.foldl (fun s e => performOverlapping (issueStore s k e.2 ((bs.drop (64 * e.1)).take 64) false) k e.2 64) s
def storeRow (s : State) (k : Nat) (bs : List Byte) (l : List (Nat × Dword × Xl)) : State := storePieces s k bs (localPlaces l)

/-! ## The steps of an entry -/

def bankOfRow (e : MqEntry) (i : Nat) : AccBind := e.banks.getD (i / 16) noBind

/-- One row of a memory-form `mma`. -/
def stepMmaMemory (s : State) (w k : Nat) (g : Wg) (e : MqEntry) (x : Args) (t : Ty) : State :=
  let rb := rowBytes g
  let base := e.addr + BitVec.ofNat 64 (e.done * bitsAt (extWord x) 0 32)
  match rowPlaces s k e.row .load base rb (fun _ => .read 64) (nearRow k) with
  | (s, .fault va pte) => parkEntry s w k e va 0 pte x.len
  | (s, .bad va cause) => finishEntry s w e { trap := some (rowTrap e va cause) }
  | (s, .asked l) => putEntryIn s w { e with row := l }
  | (s, .ok l) =>
    let s := settleRow s k l
    let row := rowValues t (rowData s k l)
    let sc := scaleExp e.val.toNat + rowScale g x.c e.done
    let (s, fl) := passRows s g.core [(bankOfRow e e.done, e.done % 16, row, sc)] (latchedCols g)
    let s := flagTrain s e fl
    let e' := { e with done := e.done + 1, row := [] }
    let s := modTrain (modWg s w fun g =>
      { noteSource g [bankOfRow e e.done] true e.addr with mq := g.mq.map fun m => if m.id = e.id then e' else m }) k
      fun tr => { tr with replies := [] }
    if e'.done ≥ e.rows then finishEntry s w e' {} else s

/-- One step (n, k, r) of an `mmt` (R144, R145). TPROG names the next step; after the last, which has none, it holds N = NB, K = 0 and R = 0,
the model's choice (log 20). -/
def stepMmt (s : State) (w : Nat) (g : Wg) (e : MqEntry) (x : Args) (ta tw : Ty) : State :=
  let (m, ks, _) := mmtShape x
  let rbk := ceilDiv m 16
  let r := e.done % rbk
  let k := e.done / rbk % ks
  let n := e.done / (rbk * ks)
  let rb := rowBytes g
  let sw : Int := match x.c with | .imm _ => 0 | _ => signExt (bitsAt e.val.toNat 8 8) 8
  let cols := weightCols g tw (tileNum x.b) ((n * ks + k) * 64 * rb) fun _ => sw
  let rows := (List.range 16).filterMap fun i =>
    if 16 * r + i < m then
      some (e.banks.getD (n * rbk + r) noBind, i,
            rowValues ta (spBytes g ((tileOf g (tileNum x.a)).base + (k * m + 16 * r + i) * rb) rb), scaleExp e.val.toNat)
    else none
  let (s, fl) := passRows s g.core rows cols
  let s := flagTrain s e fl
  let d := e.done + 1
  let more := (g.mq.filter fun o => o.id ≠ e.id).any fun o => isMmt o.instr
  let last := d ≥ e.banks.length * ks
  let s := modWg s w fun g =>
    { noteSource g [e.banks.getD (n * rbk + r) noBind] false (BitVec.ofNat 64 (tileNum x.a)) with
      mq := g.mq.map fun o => if o.id = e.id then { e with done := d } else o
      tprog := { step := d, r := d % rbk, k := d / rbk % ks, n := d / (rbk * ks), active := !last || more } }
  if last then finishEntry s w e {} else s

/-- The first element in which the two banks of a binding differ: row, column and both values (R148). -/
def mismatch (s : State) (core : Nat) (b : AccBind) : Option (Nat × Nat × F48 × F48) :=
  match b.check with
  | none => none
  | some c => (List.range 1024).findSome? fun ij =>
    let p := Tab.read 0 (coreAt s core).acc (b.bank * 1024 + ij)
    let q := Tab.read 0 (coreAt s core).acc (c * 1024 + ij)
    if p ≠ q then some (ij / 64, ij % 64, p, q) else none

/-- The MISMATCH record (R148, R378). -/
def mismatchRec (g : Wg) (e : MqEntry) (name : Nat) (b : AccBind) (d : Nat × Nat × F48 × F48) : TrapRec :=
  let (mem, src) := Tab.read (false, (0 : Dword)) g.srcOf b.bank
  { kind := Trap.matrix, cause := 8, pc := e.pc, addr := if mem then src else 0
    aux0 := BitVec.ofNat 64 (name + 2 ^ 8 * b.bank + 2 ^ 16 * b.check.getD 0 + 2 ^ 24 * d.1 + 2 ^ 32 * d.2.1
      + (if mem then 2 ^ 40 else 2 ^ 42 * (src.toNat % 64)))
    aux1 := d.2.2.1.zeroExtend 64, aux2 := d.2.2.2.zeroExtend 64 }

/-- An element converted to the drain's type (R147). -/
def drainElem (t : Ty) (v : F48) : Dword × FlagSet :=
  if t.isInt then toInteger t .rn (decodeFmt .f48 v.toNat)
  else let r := roundTo t .rn true (decodeFmt .f48 v.toNat); (placed t r.code, r.flags)

/-- The converted elements of row `i`, and the flags they set. -/
def drainRow (s : State) (core : Nat) (b : AccBind) (t : Ty) (i : Nat) : List Dword × FlagSet :=
  let l := tids.map fun j => drainElem t (Tab.read 0 (coreAt s core).acc (accKey b.bank i j))
  (l.map (·.1), joinFlags (l.map (·.2)))

def drainBytes (t : Ty) (l : List Dword) : List Byte := l.flatMap fun d => bytesOf d.toNat (tyBytes t)

/-- A row of a register drain goes to one register of every thread. -/
def drainToReg (tr : Train) (n : Nat) (l : List Dword) : Train :=
  tids.foldl (fun tr t => wrV tr n t (lowWord (l.getD t 0))) tr

/-- The end of a drain: `.z`, the flags of its rows, and the waiting train. -/
def endDrain (s : State) (w : Nat) (g : Wg) (e : MqEntry) (b : AccBind) (z : Bool) (d : Done) : State :=
  finishEntry (if z then clearBanks s g.core (AccBind.list b) else s) w e d

/-- The rows of a memory drain, from row `i` on. -/
def drainRows (w k : Nat) (g : Wg) (b : AccBind) (x : Args) (t : Ty) (z : Bool) : Nat → MqEntry → State → State
  | 0, e, s => endDrain s w g e b z {}
  | n + 1, e, s =>
    let (row, fl) := drainRow s g.core b t e.done
    let bs := drainBytes t row
    match rowPlaces s k e.row .store (e.addr + BitVec.ofNat 64 (e.done * bitsAt (extWord x) 0 32)) bs.length
        (fun p => .write ((bs.drop (64 * p)).take 64)) fun s l => (storePieces s k bs l, l.map fun p => (p.1, .data [])) with
    | (s, .fault va pte) => parkEntry s w k e va 1 pte x.len
    | (s, .bad va cause) => finishEntry s w e { trap := some (rowTrap e va cause) }
    | (s, .asked l) => putEntryIn s w { e with row := l }
    | (s, .ok l) =>
      let s := flagTrain (storeRow s k bs l) e fl
      drainRows w k g b x t z n { e with done := e.done + 1, row := [] } (modTrain s k fun tr => { tr with replies := [] })

/-- One `adrain`: the comparison of redundant mode, then the form's writes. The scratchpad form was admitted at its issue: what has
come to refer to a tile since then stands behind it in the queue, every piece in range is written, and `.z` sets the bank to +0, also where
other pieces fail the range check (R132, R147, log 20). -/
def stepDrain (s : State) (w k : Nat) (g : Wg) (e : MqEntry) : State :=
  let b := e.banks.getD 0 noBind
  match mismatch s g.core b with
  | some d =>
    let name := (matrixArgs e.instr).elim 0 fun x => accNum x.a
    raiseAt (unblock (dropEntry s w e) k) k e.pc (mismatchRec g e name b d)
  | none =>
    let rows := (List.range 16).map fun i => (i, drainRow s g.core b (match e.instr with
      | .adrainReg _ t _ | .adrainSp _ t _ | .adrainGm _ t _ => t
      | _ => .f32) i)
    let fl := joinFlags (rows.map fun r => r.2.2)
    match e.instr with
    | .adrainReg x _ z =>
      let d := match x.d with | .v n => n.toNat | _ => 0
      let s := modTrain (flagTrain s e fl) k fun tr => rows.foldl (fun tr r => drainToReg tr (d + r.1) r.2.1) tr
      let first := (rows.getD 0 (0, [], 0)).2.1
      let latch := tids.foldl (fun m t => Tab.write 0 m t (lowWord (first.getD t 0))) ([] : Tab Word)
      endDrain s w g e b z { latch := some latch }
    | .adrainSp _ t z =>
      let fates := (drainPieces t e.addr.toNat).map fun p => (p.1, p.2, spFate g true p.2 64)
      let bs := rows.flatMap fun r => drainBytes t r.2.1
      let bad := fun (f : SpFate) => match f with | .bad _ => true | _ => false
      let s := modWg (flagTrain s e fl) w fun g => fates.foldl (fun g f =>
        if bad f.2.2 then g else spPut g f.2.1 ((bs.drop (64 * f.1)).take 64)) g
      let trap := match spViolations fates with
        | (_, va, cause) :: _ => some { trapOf Trap.access cause with pc := e.pc, addr := va }
        | [] => none
      endDrain s w g e b z { trap := trap }
    | .adrainGm x t z => drainRows w k g b x t z (16 - e.done) e s
    | _ => s

/-- The scales of a `wld`: bytes of a tile, or one scale for every column. -/
def wldScales (g : Wg) (o : Opnd) (val : Dword) : List (BitVec 8) :=
  match o with
  | .t n => spBytes g (tileOf g n.toNat).base 64
  | _ => List.replicate 64 (BitVec.ofNat 8 val.toNat)

/-- Whether an entry names banks of an `aalloc` that gave up its request. -/
def orphaned (e : MqEntry) : Bool := (e.banks.flatMap AccBind.list).any isPending

/-- An entry whose banks were never obtained ends: the train that waits for it takes UNBOUND at the instruction, a follow-on completes
its copy with it, and an `mmt` is no longer active. -/
def endOrphan (s : State) (w : Nat) (e : MqEntry) : State :=
  let s := modWg (dropEntry s w e) w settleActive
  let s := match trainByUid s e.uid with
    | some (k, tr) =>
      if tr.block = some (.matrixOp e.id) then raiseAt (unblock s k) k e.pc { trapOf Trap.matrix 1 with pc := e.pc } else s
    | none => s
  let s := match e.follow with
    | some o => match Tab.get? s.ops o with
      | some op => endOp s o true (statusWord Code.mmafail 1 op.flags.toNat op.pieces.length)
      | none => s
    | none => s
  settleDraining s e.uid

/-- One step of the entry at the head of a workgroup's queue (R133). An entry whose banks were never obtained ends UNBOUND, without
an effect (R135, log 34). -/
def stepEntry (s : State) (w : Nat) (g : Wg) (e : MqEntry) : State :=
  let k := (trainByUid s e.uid).map (·.1)
  if orphaned e then endOrphan s w e
  else match e.instr with
  | .wld x t => finishEntry (putWg s w { g with wlatch := some ⟨t, tileNum x.a, wldScales g x.b e.val⟩ }) w e {}
  | .wldZero _ => finishEntry (putWg s w { g with wlatch := none }) w e {}
  | .azero _ => finishEntry (clearBanks s g.core (e.banks.flatMap AccBind.list)) w e {}
  | .afree _ => finishEntry (putWg s w (returnBanks g (e.banks.flatMap AccBind.list))) w e {}
  | .mmaTile x t =>
    let rows := (List.range e.rows).map fun i =>
      (bankOfRow e i, i % 16, rowValues t (spBytes g ((tileOf g (tileNum x.a)).base + i * rowBytes g) (rowBytes g)),
       scaleExp e.val.toNat + rowScale g x.c i)
    let (s, fl) := passRows s g.core rows (latchedCols g)
    finishEntry (modWg (flagTrain s e fl) w fun g => noteSource g e.banks false (BitVec.ofNat 64 (tileNum x.a))) w e {}
  | .mmaMemory x t => k.elim (dropEntry s w e) fun k => stepMmaMemory s w k g e x t
  | .mmt x ta tw => stepMmt s w g e x ta tw
  | .adrainReg _ _ _ | .adrainSp _ _ _ | .adrainGm _ _ _ => k.elim (dropEntry s w e) fun k => stepDrain s w k g e
  | _ => dropEntry s w e

/-- Whether the head of a queue can step: it is no blocked `aalloc`, and waits for no reply of another module. -/
def headRuns (s : State) (g : Wg) : Bool :=
  match g.mq with
  | [] => false
  | { instr := .aalloc _, .. } :: _ => false
  | e :: _ => !s.remote.any fun r => r.2.uid = e.uid

/-- The next workgroup that the array of a core serves, in round-robin order of slots (R133). -/
def nextForArray (s : State) (core : Nat) : Option Nat :=
  let l := (wgsOnCore s core).filter fun e => headRuns s e.2
  let after := l.filter fun e => e.1 > (coreAt s core).array
  ((after ++ l).head?).map (·.1)

/-- ARRAY_STEP: the array of a core performs one step. -/
def execArrayStep (core : Nat) (s : State) : Host.Outcome State Fault Refusal :=
  unitStep (match nextForArray s core with
    | none => s
    | some w => match wg? s w with
      | some g => match g.mq with
        | e :: _ => stepEntry (modCore s core fun co => { co with array := w }) w g e
        | [] => s
      | none => s)

/-! ## Follow-on of a copy (R149, R365) -/

/-- The instruction of a follow-on: `mma.ATYPE aANAME, tDTILE, ASCALE [, tASTILE]`. -/
def followInstr (o : EngOp) : Instr :=
  let w := o.word 6
  let b := fun n => BitVec.ofNat 6 n
  .mmaTile { u := true, nwb := false, kg := 0, kn := false, d := .a (b (bitsAt w 0 6)), a := .t (b (bitsAt (o.word 5) 8 6))
             b := .imm (BitVec.ofNat 8 (bitsAt w 10 8)),
             c := if bitsAt w 24 1 = 1 then .t (b (bitsAt w 18 6)) else .zero, ext := .short }
    (match bitsAt w 6 4 with | 9 => .f32 | 10 => .f16 | 11 => .bf16 | 12 => .d8 | _ => .h4)

/-- The last byte of a copy has landed and its tiles have moved on: its `mma` is checked and placed in the queue of the copy's
workgroup; a failed check completes the copy with MMAFAIL, NOWG for a copy that no workgroup issued. It is placed later only while the
queue is full or its scale tile is not READY. -/
def placeFollowOn (s : State) (op : Nat) : State :=
  match Tab.get? s.ops op with
  | none => s
  | some o =>
    let fail := fun (cause : Nat) => endOp s op true (statusWord Code.mmafail cause o.flags.toNat o.pieces.length)
    if o.state ≠ .placed then s
    else match o.wg.bind (wgByUid s) with
      | none => if s.saved.any (fun e => some e.2.wg.uid = o.wg) then s else fail 12
      | some w =>
        match wg? s w, followInstr o with
        | some g, .mmaTile x t =>
          if g.mq.any (fun e => e.follow = some op) || g.mq.length ≥ 8 then s
          else if (tilesOf [x.a, x.c]).any (fun n => (tileOf g n).state ≠ 2) then s
          else
            let first := accNum x.d
            let val : Dword := immValue .n64 (match x.b with | .imm i => i | _ => 0)
            let (m, checks) := mmaTileChecks s g t first x.b val x.a x.c
            match firstFail checks with
            | some cause => fail cause
            | none =>
              (enqueue s w { id := 0, instr := .mmaTile x t, pc := o.pc, uid := o.uid, trn := 0
                             banks := bindsOf g first (ceilDiv m 16), val := val, rows := m, tiles := tilesOf [x.a, x.c]
                             follow := some op }).2
        | _, _ => s

/-- FOLLOW_ON_MMA: a follow-on that found no room when its copy's last byte landed is placed (R149, R365). -/
def execFollowOnMma (op : Nat) (s : State) : Host.Outcome State Fault Refusal := unitStep (placeFollowOn s op)

end Sys2Proof.Machine
end

