-- ==== Sys2Proof/Machine/Resources.lean ====
section
/-! DEFINITION. Launch headers (R63, R64, R308) and the resources of a core (R14 to R16, R131, R311). -/

namespace Sys2Proof.Machine

namespace Launch

def word (l : Launch) (i : Nat) : Nat := (l.hdr.getD i 0).toNat
def entry (l : Launch) : Nat := bitsAt (l.word 0) 0 48
def args (l : Launch) : Dword := l.hdr.getD 1 0
def width (l : Launch) (i : Nat) : Nat := bitsAt (l.word 2) (6 * i) 6
def nf (l : Launch) : Nat := bitsAt (l.word 2) 36 3
def count (l : Launch) : Nat := l.word 3
def coreMask (l : Launch) : Nat := l.word 4 + 2 ^ 64 * l.word 5 + 2 ^ 128 * l.word 6
/-- The cores of the set, ascending. -/
def cores (l : Launch) : List Nat := (List.range 192).filter fun i => bitsAt l.coreMask i 1 = 1
def cls (l : Launch) : Nat := bitsAt (l.word 7) 0 2
def gang (l : Launch) : Nat := bitsAt (l.word 7) 2 2
def xscope (l : Launch) : Nat := bitsAt (l.word 7) 4 3
def idem (l : Launch) : Bool := bitsAt (l.word 7) 7 1 = 1
def prio (l : Launch) : Nat := bitsAt (l.word 7) 8 3
def disp (l : Launch) : Bool := bitsAt (l.word 7) 11 1 = 1
def ntrains (l : Launch) : Nat := bitsAt (l.word 8) 0 5
def vgran (l : Launch) : Nat := bitsAt (l.word 8) 5 6
def sgran (l : Launch) : Nat := bitsAt (l.word 8) 11 4
def pad (l : Launch) : Nat := bitsAt (l.word 8) 24 15
def banks (l : Launch) : Nat := bitsAt (l.word 8) 39 7
def qbytes (l : Launch) : Nat := bitsAt (l.word 9) 16 16
def tbytes (l : Launch) : Nat := bitsAt (l.word 9) 32 16
def ntiles (l : Launch) : Nat := bitsAt (l.word 9) 48 7
def comp (l : Launch) : Dword := l.hdr.getD 10 0
def depsAt (l : Launch) : Dword := l.hdr.getD 11 0
def ndeps (l : Launch) : Nat := bitsAt (l.word 12) 0 16
def ttab (l : Launch) : Dword := l.hdr.getD 13 0

/-- The cores of a gang's shape: 1, 2 or 4 cores side by side (R313). -/
def gangSize (l : Launch) : Nat := if l.gang = 1 then 2 else if l.gang = 2 then 4 else 1

/-- The sum of the used widths; NF = 1 with W0 = 0 counts 64 (R64). -/
def widthSum (l : Launch) : Nat :=
  if l.nf = 1 ∧ l.width 0 = 0 then 64 else (List.range l.nf).foldl (fun n i => n + l.width i) 0

/-- The reserved fields of R63. -/
def reservedSet (l : Launch) : Bool :=
  bitsAt (l.word 0) 56 8 ≠ 0 || bitsAt (l.word 2) 39 25 ≠ 0 || bitsAt (l.word 7) 12 52 ≠ 0 || bitsAt (l.word 8) 15 9 ≠ 0
    || bitsAt (l.word 8) 46 18 ≠ 0 || bitsAt (l.word 9) 55 9 ≠ 0 || bitsAt (l.word 12) 16 48 ≠ 0 || l.word 14 ≠ 0 || l.word 15 ≠ 0

/-- A core set that holds part of a gang (R308). -/
def splitGang (l : Launch) : Bool :=
  l.gang ≠ 0 && l.cores.any fun c =>
    !(List.range l.gangSize).all fun i => l.cores.contains (c / l.gangSize * l.gangSize + i)

/-- Whether a header is invalid (R64, R308, R368). -/
def invalid (l : Launch) : Bool :=
  bitsAt (l.word 0) 48 8 ≠ 1 || l.reservedSet || l.nf = 0 || l.nf = 7
    || (List.range l.nf).any (fun i => l.width i = 0 && !(l.nf = 1))
    || l.widthSum > 64 || (l.widthSum < 64 && l.count > 2 ^ l.widthSum)
    || l.coreMask = 0 || l.cls = 3 || l.gang = 3 || l.xscope < 2 || l.xscope = 7
    || l.ntrains = 0 || l.ntrains > 16 || l.vgran > 32 || l.sgran > 8 || l.banks > 64
    || l.qbytes + l.tbytes > l.pad || l.pad > 16384
    || l.entry % 4 ≠ 0 || l.comp = 0 || l.comp.toNat % 64 ≠ 0 || (l.ndeps > 0 && l.depsAt.toNat % 8 ≠ 0)
    || l.ttab.toNat % 64 ≠ 0 || l.splitGang
    || (l.gang ≠ 0 && (l.pad - l.qbytes - l.tbytes) * 256 < 32768)

end Launch

/-! ## What a core has free -/

/-- Workgroup slots 0 to 6, the slot reserved for launches at depth one or more (R16), train slots, vector granules,
scratchpad units and banks. -/
structure CoreRes where
  low    : Nat
  high   : Nat
  trains : Nat
  grans  : Nat
  pad    : Nat
  banks  : Nat
  deriving DecidableEq, Repr

/-- The workgroup slot that R16 reserves. -/
def reservedSlot : Nat := 7

def freeSlots (s : State) (core : Nat) : List Nat := (List.range 8).filter fun n => (wg? s (wgKey core n)).isNone
def freeTrainSlots (s : State) (core : Nat) : List Nat := (List.range 32).filter fun n => (train? s (trainKey core n)).isNone

/-- The vector granules of trains that belong to no workgroup. -/
def loneGrans (s : State) (core : Nat) : Nat :=
  s.trains.foldl (fun n e => if e.2.core = core && e.2.wg.isNone then n + e.2.vgran else n) 0
def loneTrains (s : State) (core : Nat) : Nat := (s.trains.filter fun e => e.2.core = core && e.2.wg.isNone).length

/-- Granules free with the trains that are resident. -/
def freeGrans (s : State) (core : Nat) : Nat :=
  768 - s.trains.foldl (fun n e => if e.2.core = core then n + e.2.vgran else n) 0

def coreFree (s : State) (core : Nat) : CoreRes :=
  let slots := freeSlots s core
  { low := (slots.filter (· ≠ reservedSlot)).length, high := if slots.contains reservedSlot then 1 else 0
    trains := (freeTrainSlots s core).length, grans := freeGrans s core
    pad := 16384 - (wgsOnCore s core).foldl (fun n e => n + e.2.pad) 0, banks := unreservedBanks s core }

/-- What a workgroup needs of a core. -/
structure WgNeed where
  deep   : Bool
  trains : Nat
  grans  : Nat
  pad    : Nat
  banks  : Nat

def Launch.need (l : Launch) : WgNeed :=
  { deep := l.depth ≥ 1, trains := l.ntrains, grans := l.ntrains * l.vgran, pad := l.pad, banks := l.banks }

def CoreRes.fits (r : CoreRes) (n : WgNeed) : Bool :=
  (r.low ≥ 1 || (n.deep && r.high ≥ 1)) && n.trains ≤ r.trains && n.grans ≤ r.grans && n.pad ≤ r.pad && n.banks ≤ r.banks

/-- What is left when a waiting launch holds, up to its need, what is free (R311). -/
def CoreRes.hold (r : CoreRes) (n : WgNeed) : CoreRes :=
  { low := if n.deep && r.high ≥ 1 then r.low else r.low - 1
    high := if n.deep then r.high - 1 else r.high
    trains := r.trains - n.trains, grans := r.grans - n.grans, pad := r.pad - n.pad, banks := r.banks - n.banks }

/-- Whether a launch waits as a class 0 launch waits: a valid pending launch of class 0 or of gangs (R311, R313). -/
def Launch.holds (l : Launch) : Bool :=
  l.state ≠ .complete && !l.doomed && !l.left.isEmpty && (l.cls = 0 || l.gang ≠ 0)

/-- The launches of the module in order of admission: by PRIO, 7 highest, then by arrival (R311). -/
def launchOrder (s : State) : List (Nat × Launch) :=
  (List.range 8).reverse.flatMap fun p => s.launches.filter fun e => e.2.prio = p

/-- The launches that hold before launch `l` (all of them when `l` is none). -/
def holdersBefore (s : State) (l : Option Nat) : List Launch :=
  let before := match l with
    | none => launchOrder s
    | some i => (launchOrder s).takeWhile fun e => e.1 ≠ i
  (before.filter fun e => e.2.holds).map (·.2)

/-- What a core has for launch `l`: free, and held by no launch that waits before it. -/
def available (s : State) (l : Option Nat) (core : Nat) : CoreRes :=
  (holdersBefore s l).foldl (fun r h => if h.left.contains core then r.hold h.need else r) (coreFree s core)

end Sys2Proof.Machine
end

