-- ==== Sys2Proof/Machine/Window.lean ====
section
/-! DEFINITION. The window class (R290 to R299) and the Roundhouse: the resolution of intake, panes, flush, batches, activation
trains (R272 to R289). -/

namespace Sys2Proof.Machine

/-! ## Accesses of a unit through an address space -/

/-- The physical addresses of `n` pieces of 8 bytes, when every one is reached. -/
def unitPlaces (s : State) (u : RingUser) (acc : Access) (va : Dword) : Nat → Option (List Nat)
  | 0 => some []
  | n + 1 =>
    match unitAccess s u.part u.asid u.priv acc va 8 with
    | .mem pa => (unitPlaces s u acc (va + 8) n).map (pa :: ·)
    | _ => none

/-- Write bytes, a multiple of 8, when all of them are reached. -/
def unitWrite (s : State) (u : RingUser) (va : Dword) (bs : List Byte) : Option State :=
  (unitPlaces s u .store va (bs.length / 8)).map fun places =>
    (places.foldl (fun (x : State × List Byte) pa => (writeBytes x.1 pa (x.2.take 8), x.2.drop 8)) (s, bs)).1

/-- The block of a ring as its Ticket Office sees it. -/
def ringView (s : State) (u : RingUser) (va : Dword) : Option RingReg :=
  match unitXl s u.part u.asid u.priv .load va 64 with
  | .mem pa => ringReg? s pa
  | _ => none

/-- The address of a slot (R239). -/
def RingReg.slotVa (r : RingReg) (ticket : Nat) : Dword := BitVec.ofNat 64 (r.base + r.ssize * (ticket % r.nslot))

/-- Bytes padded with zeros to a length. -/
def padTo (n : Nat) (bs : List Byte) : List Byte := bs ++ List.replicate (n - bs.length) 0

/-! ## The window pool (R288) -/

/-- The slots of a partition's window pool that are taken. -/
def poolTaken (s : State) (p : Nat) : List Nat :=
  s.lines.foldl (fun acc e => if e.2.part = p then acc ++ e.2.wins.map (·.2.slot) else acc) []

/-- The first free slot of a partition's pool; a module holds at most 2²⁸. -/
def poolSlot (s : State) (p : Nat) : Option Nat :=
  let taken := poolTaken s p
  let all : Nat := s.lines.foldl (fun n e => n + e.2.wins.length) 0
  if all ≥ 2 ^ 28 then none
  else (List.range (taken.length + 1)).find? fun i => !taken.contains i && i < (partAt s p).wpoolsz.toNat / 128

/-- The address of a slot of a partition's window pool in bulk memory. -/
def slotPa (s : State) (p slot : Nat) : Nat := (partAt s p).wpool.toNat + 128 * slot

/-- A slot of the window pool receives the sixteen state words of its window (R288); a pool that lies in no memory of its partition
receives nothing (log 58). -/
def putSlot (s : State) (p slot : Nat) (words : List Word) : State :=
  let a := slotPa s p slot
  if (partAt s p).wpool ≠ 0 && ownedBy s p a && reachable s a then
    writeBytes s a ((List.range 16).flatMap fun i => bytesOf (words.getD i 0).toNat 4)
  else s

/-- The slot of a window of a line receives its state words. -/
def syncSlot (s : State) (l id : Nat) : State :=
  match Tab.get? s.lines l with
  | some ln => match ln.win? id with
    | some w => putSlot s ln.part w.slot w.words
    | none => s
  | none => s

/-- A line as a user of rings: its partition and ASID, in the mode of the train that opened it, as R278 and R298 name the ASID alone
(log 46). -/
def Line.user (ln : Line) : RingUser := { part := ln.part, asid := ln.asid, priv := ln.priv }

/-! ## The late ring (R278) -/

/-- Write a late record to the late ring; none when it is discarded. A control block or a bitmap entry on a remote page fails the
reservation; the slot itself may lie there. -/
def writeLate (s : State) (ln : Line) (rec : List Byte) : State × Bool :=
  let u := { ln.user with far := false }
  if ln.latering = 0 then (s, false)
  else match ringView s u ln.latering with
    | none => (s, false)
    | some r =>
      if r.ssize < ln.rsize then (s, false)
      else
        let (s, d) := ringUnit s u ln.latering (.acq 1)
        if d.getLsbD 63 then (s, false)
        else match unitWrite s u (r.slotVa d.toNat) (padTo r.ssize rec) with
          | some s => ((ringUnit s u ln.latering (.com false d.toNat 1)).1, true)
          | none => ((ringUnit s u ln.latering (.com true d.toNat 1)).1, false)

/-- A record found late. -/
def lateRecord (s : State) (l : Nat) (rec : List Byte) : State :=
  match Tab.get? s.lines l with
  | none => s
  | some ln =>
    let (s, kept) := writeLate s ln rec
    modLine s l fun ln => { ln with late := (ln.late + 1) % 2 ^ 64, drops := if kept then ln.drops else (ln.drops + 1) % 2 ^ 64 }

/-! ## Resolution of the intake (R274, R279, R280, R288, R289) -/

/-- The wake-ups that wait in a Roundhouse: in its lines, and in activation trains that no core has admitted (R21, R289). -/
def roundhouseLoad (s : State) (cluster : Nat) : Nat :=
  s.lines.foldl (fun n e => if e.1 / 256 = cluster then n + e.2.waitingCount else n) 0
    + s.pendActs.foldl (fun n a => if a.line / 256 = cluster then n + a.wakes.length else n) 0

/-- The waiting wake-ups that a Roundhouse holds. -/
def roundhouseSize : Nat := 65536

/-- Whether a Roundhouse may resolve: its 65 536 waiting wake-ups are not all in use. -/
def roundhouseRoom (s : State) (cluster : Nat) : Bool := roundhouseLoad s cluster < roundhouseSize

/-- A resolution takes place when the Roundhouse holds the wake-ups that it makes (R289). -/
def ifHeld (s : State) (cluster : Nat) (s' : State) : State := if roundhouseLoad s' cluster ≤ roundhouseSize then s' else s

/-- How many wake-ups a line may have waiting. -/
def lineCap (s : State) (l : Nat) (ln : Line) : Nat := ln.waitingCount + roundhouseSize - roundhouseLoad s (l / 256)

/-- Deliver the next membership that is being resolved; a window that must be born needs a pool slot. The spec leaves two points open
here: a window that an activation's termination has returned to ABSENT is opened again by the next record that falls in it (R275,
log 59), and a window whose points W has passed already receives its CLOSE at once (R277, log 60). -/
def deliverNext (s : State) (l : Nat) (ln : Line) : State :=
  match ln.deliver with
  | [] => s
  | d :: rest =>
    let put := fun (ln : Line) => { s with lines := Tab.put s.lines l ln }
    let points := fun (ln : Line) (id : Nat) => if ln.isTime && !d.pane then ln.pointsOf s.clk id else ln
    let n := if d.part.isSome then ln.panelen else 1
    let wake := fun (k : WakeKind) => d.part.getD { kind := k, bytes := d.bytes }
    match ln.find d.key d.index d.pane with
    | some id => put (points ({ ln with deliver := rest }.deliverTo s.clk id n (wake .record)) id)
    | none =>
      match poolSlot s ln.part with
      | none => put { ln with poolWait := true }
      | some sl =>
        let (ln, id) := { ln with deliver := rest }.bear d.key d.index 0 d.pane sl
        putSlot (put (points (ln.deliverTo s.clk id n (wake .opened)) id)) ln.part sl []

/-- Classify the record at the head of the intake of a COUNT or TIME line: its memberships, or none when it falls in no
window or pane. -/
def memberships (ln : Line) (key x : Nat) (rec : List Byte) : List Delivery :=
  if ln.isPane then
    let k := x / ln.panelen
    if (ln.windowsOfPane k).isEmpty then [] else [{ key := key, index := k, pane := true, bytes := rec }]
  else (ln.windowsOf x).map fun j => { key := key, index := j, pane := false, bytes := rec }

/-- Take the record at the head of the intake. -/
def takeRecord (s : State) (l : Nat) (ln : Line) (rec : List Byte) (rest : List Intake) : State :=
  let key := ln.keyOf rec
  let τ := ln.timeOf rec
  let popped := { ln with intake := rest }
  let put := fun (ln : Line) => { s with lines := Tab.put s.lines l ln }
  if !ln.isCount && ln.w > ln.lateness && τ < ln.w - ln.lateness then lateRecord (put popped) l rec
  else if ln.isGap then
    match popped.gapRecord s.clk (poolSlot s ln.part) rec with
    | .late => lateRecord (put popped) l rec
    | .noRoom => put { ln with poolWait := true }
    | .line ln' => if ln'.nextWin = ln.nextWin then put ln' else syncSlot (put ln') l ln.nextWin
  else
    let n := Tab.read 0 ln.seq key
    let popped := if ln.isCount then { popped with seq := Tab.write 0 ln.seq key (n + 1) } else popped
    let ds := memberships ln key (if ln.isCount then n else τ) rec
    if ds.isEmpty then put { popped with drops := (popped.drops + 1) % 2 ^ 64 }
    else
      let ln := { popped with accepted := (popped.accepted + 1) % 2 ^ 64, deliver := ds }
      deliverNext (put ln) l ln

/-- RESOLVE_RECORD: one record-to-window membership of a line (R289). -/
def execResolveRecord (line : Nat) (s : State) : Host.Outcome State Fault Refusal :=
  unitStep (match Tab.get? s.lines line with
    | none => s
    | some ln =>
      if ln.poolWait || !roundhouseRoom s (line / 256) then s
      else if !ln.deliver.isEmpty then ifHeld s (line / 256) (deliverNext s line ln)
      else match ln.intake with
        | .record rec :: rest => ifHeld s (line / 256) (takeRecord s line ln rec rest)
        | _ => s)

/-- WINDOW_POOL_SLOT_FREE: a line that stopped for want of a slot goes on (R288). -/
def execWindowPoolSlotFree (line : Nat) (s : State) : Host.Outcome State Fault Refusal :=
  unitStep (match Tab.get? s.lines line with
    | some ln => if ln.poolWait && (poolSlot s ln.part).isSome then modLine s line fun ln => { ln with poolWait := false } else s
    | none => s)

/-- WATERMARK_RESOLVE: the watermark at the head of the intake (R277); it leaves the intake once every point that it reaches is
resolved, for which the Roundhouse must have room (R289). -/
def execWatermarkResolve (line : Nat) (s : State) : Host.Outcome State Fault Refusal :=
  unitStep (match Tab.get? s.lines line with
    | none => s
    | some ln =>
      if ln.poolWait || !roundhouseRoom s (line / 256) then s
      else match ln.deliver, ln.intake with
        | [], .mark v :: rest =>
          let (ln', all) := if v.toNat ≥ ln.w then { ln with w := v.toNat }.resolvePoints s.clk (lineCap s line ln) else (ln, true)
          { s with lines := Tab.put s.lines line { ln' with intake := if all then rest else ln.intake } }
        | _, _ => s)

/-! ## Panes (R280) -/

/-- Whether a pane thread is complete. -/
def Line.paneFull (ln : Line) (w : Win) : Bool :=
  if ln.isCount then w.count ≥ ln.panelen else ln.w ≥ (ln.bounds w).2 + ln.lateness

/-- The pane threads that are due: complete, or flushed, and without an activation (R280, R293, R303). -/
def Line.duePanes (ln : Line) : List Nat :=
  ln.ordered.filter fun id => (ln.win? id).any fun w =>
    w.pane && w.running.isNone && w.waiting.isEmpty && (ln.paneFull w || ln.flush = 1)

/-- The deliveries of the partial of a pane thread: one to each window that contains the pane, in ascending order of start (R280). -/
def Line.paneDeliveries (ln : Line) (id : Nat) : List Delivery :=
  (ln.win? id).elim [] fun w => (ln.windowsOfPane w.index).map fun j =>
    { key := w.key, index := j, pane := false, part := some { kind := .pane, partly := !ln.paneFull w, words := w.words } }

/-- PANE_COMPLETE: the pane threads that are due complete together and die, whatever waits for delivery then, and their partials are on
their way to the windows that contain the panes, one at a time (R280, R289, R303). Without a pane that is due, the points of windows that
waited for their last pane are resolved. -/
def execPaneComplete (line : Nat) (s : State) : Host.Outcome State Fault Refusal :=
  unitStep (match Tab.get? s.lines line with
    | none => s
    | some ln =>
      let due := ln.duePanes
      if !due.isEmpty then
        { s with lines := Tab.put s.lines line { ln with wins := due.foldl Tab.del ln.wins
                                                         deliver := ln.deliver ++ due.flatMap ln.paneDeliveries } }
      else if ln.isTime && ln.isPane && ln.deliver.isEmpty && roundhouseRoom s (line / 256) then
        { s with lines := Tab.put s.lines line (ln.resolvePoints s.clk (lineCap s line ln)).1 }
      else s)

/-! ## The flush (R287, R293) -/

/-- The flush event of one window. -/
def Line.flushWin (ln : Line) (clk id : Nat) : Line :=
  match ln.win? id with
  | none => ln
  | some w =>
    if w.absorbed.isSome || w.expireDone || w.pane then ln
    else if w.state = .ended && w.running.isNone then ln.remove id
    else
      let ln := ln.modWin id fun w => { w with closeDone := true, expireDone := true }
      ln.offer clk id { kind := .close, partly := true, expire := true, count := w.count }

/-- Whether a window has its flush event behind it, or needs none. -/
def flushed (w : Win) : Bool := w.absorbed.isSome || w.expireDone || w.pane

/-- LINE_FLUSH: `lclose` reaches the head of the intake and every complete pane has been delivered (R305); once no pane thread and no
partial is left, every window receives the flush event, as the Roundhouse has room for its wake-up (R289). R293 and R305 order these events
not; they come by key and then by start, the model's choice (log 66). -/
def execLineFlush (line : Nat) (s : State) : Host.Outcome State Fault Refusal :=
  unitStep (match Tab.get? s.lines line with
    | none => s
    | some ln =>
      let ln? : Option Line := match ln.flush, ln.deliver, ln.intake with
        | 0, [], .close :: rest =>
          if ln.wins.any fun e => e.2.pane && ln.paneFull e.2 then none else some { ln with intake := rest, flush := 1 }
        | 1, [], _ => some ln
        | _, _, _ => none
      match ln? with
      | none => s
      | some ln =>
        let cap := lineCap s line ln
        let ln := if ln.wins.any fun e => e.2.pane then ln
                  else
                    let ln := ln.ordered.foldl (fun ln id =>
                      let next := ln.flushWin s.clk id
                      if next.waitingCount ≤ cap then next else ln) ln
                    { ln with flush := if ln.wins.all fun e => flushed e.2 then 2 else 1 }
        { s with lines := Tab.put s.lines line ln })

/-- LINE_FREE: the activations of the flush have ended; the slot is freed and GEN advances. -/
def execLineFree (line : Nat) (s : State) : Host.Outcome State Fault Refusal :=
  unitStep (match Tab.get? s.lines line with
    | none => s
    | some ln =>
      if ln.flush = 2 && ln.wins.isEmpty && ln.batch.isEmpty then
        finishWaits { s with lines := Tab.del s.lines line
                             lineGen := Tab.write 0 s.lineGen line (Tab.read 0 s.lineGen line + 1) }
          (.lclose line ln.gen) 0
      else s)

/-! ## Activation trains (R21, R281, R282) -/

/-- ACTIVATION_BATCH_ISSUE: up to 64 wake-ups of the batch become a train that waits for admission; a complete pane whose partial
is not delivered counts as an unresolved record (R281, R304), and so, by the model's choice, does an incomplete pane of a flush until its
PARTIAL deliveries are made (log 66). -/
def execActivationBatchIssue (line : Nat) (s : State) : Host.Outcome State Fault Refusal :=
  unitStep (match Tab.get? s.lines line with
    | none => s
    | some ln =>
      if !ln.batch.isEmpty && (ln.batch.length ≥ 64 || !(ln.unresolved || !ln.duePanes.isEmpty) || s.clk ≥ ln.batchAt + 32) then
        { s with
          pendActs := s.pendActs ++ [{ line := line, wakes := ln.batch.take 64 }]
          lines := Tab.put s.lines line { ln with batch := ln.batch.drop 64, batchAt := s.clk } }
      else s)

/-- The virtual address of the state words of a MERGE's absorbed session, in its slot of the pool (R282, R288). -/
def mergeState (s : State) (ln : Line) (wk : Wake) : Nat :=
  if wk.kind ≠ .merge then 0
  else (ln.win? wk.other).elim 0 fun b => (partAt s ln.part).wpoolva.toNat + 128 * b.slot

/-- Write the registers of one activation (R282). -/
def wakeRegs (ln : Line) (w : Win) (wk : Wake) (merge : Nat) (t : Nat) (tr : Train) : Train :=
  let (lo, hi) := ln.bounds w
  let tr := (List.range 16).foldl (fun tr i => wrV tr i t (w.words.getD i 0)) tr
  let ins : List Word := match wk.kind with
    | .opened | .record => (List.range 8).map fun i => BitVec.ofNat 32 (ofBytes ((wk.bytes.drop (4 * i)).take 4))
    | .pane => wk.words.take 8
    | _ => []
  let tr := (List.range 8).foldl (fun tr i => wrV tr (16 + i) t (ins.getD i 0)) tr
  let half := fun (n i : Nat) => BitVec.ofNat 32 (bitsAt n (32 * i) 32)
  wrO (wrO (wrO (wrO (wrO (wrO (wrO tr 0 t (half lo 0)) 1 t (half lo 1)) 2 t (half hi 0)) 3 t (half hi 1))
    4 t (BitVec.ofNat 32 wk.count)) 6 t (half merge 0)) 7 t (half merge 1)

/-- Fill the threads of an activation train in the order of the batch. -/
def fillWakes (s : State) (ln : Line) : List (Nat × Wake) → Nat → Train → Train
  | [], _, tr => tr
  | (id, wk) :: rest, t, tr =>
    fillWakes s ln rest (t + 1) (match ln.win? id with | some w => wakeRegs ln w wk (mergeState s ln wk) t tr | none => tr)

/-- Threads `n` to 63. -/
def threadsFrom (n : Nat) : Mask := maskOf fun t => n ≤ t

/-- A core of the cluster that can take an activation train: a train slot and 4 vector granules. -/
def activationCore (s : State) (cluster : Nat) : Option (Nat × Nat) :=
  ((List.range 4).map (cluster * 4 + ·)).findSome? fun core =>
    let r := available s none core
    if r.trains ≥ 1 ∧ r.grans ≥ 4 then (freeTrainSlots s core).head?.map fun n => (core, n) else none

/-- ACTIVATION_TRAIN_ADMIT: the first waiting activation train of a cluster is admitted. -/
def execActivationTrainAdmit (cluster : Nat) (s : State) : Host.Outcome State Fault Refusal :=
  unitStep (match s.pendActs.findIdx? (fun a => a.line / 256 = cluster), activationCore s cluster with
    | some i, some (core, slot) =>
      match s.pendActs.drop i with
      | [] => s
      | a :: rest =>
        let s := { s with pendActs := s.pendActs.take i ++ rest }
        match Tab.get? s.lines a.line with
        | none => s
        | some ln =>
          let (uid, s) := freshId s
          let n := a.wakes.length
          let wakes : Tab (Nat × Wake) := (List.range n).zip a.wakes
          let tr : Train :=
            { uid := uid, core := core, slot := slot, part := ln.part, asid := ln.asid, prio := ln.prio, depth := ln.depth
              vgran := 4, sgran := 1, s := Tab.write 0 (Tab.write 0 [] 0 (ln.handleOf a.line)) 1 ln.descVA
              pc := BitVec.ofNat 64 ln.handler, exited := threadsFrom n, selected := ~~~(threadsFrom n)
              pcs := pcTable (threadsFrom n) fun _ => BitVec.ofNat 64 ln.handler
              act := some { line := a.line, gen := ln.gen, wakes := wakes } }
          putTrain s (trainKey core slot) (fillWakes s ln a.wakes 0 tr)
    | _, _ => s)

/-! ## Handles (R272, R273) -/

/-- The line that a live handle names for a train. -/
def lineOf (s : State) (tr : Train) (h : Dword) : Option (Nat × Line) :=
  let n := h.toNat
  let l := bitsAt n 8 6 * 256 + bitsAt n 0 8
  match Tab.get? s.lines l with
  | some ln =>
    if bitsAt n 8 6 ≤ 47 && bitsAt n 16 16 = ln.gen && bitsAt n 32 12 = ln.asid && bitsAt n 44 6 = ln.part
        && tr.asid = ln.asid && tr.part = ln.part && !ln.closing then some (l, ln) else none
  | none => none

def windowTrap (cause : Nat) : TrapRec := trapOf Trap.window cause

/-- Whether a train is an activation train of a line. -/
def actOfLine (tr : Train) (l : Nat) : Bool := tr.act.any fun a => a.line = l

/-! ## lopen, lclose, feed, wmark, lstat (R292 to R296) -/

/-- The launch that a train belongs to: its own, or that of the train that opened its line (R307). -/
def launchOf (s : State) (tr : Train) : Option Nat :=
  match tr.launch with
  | some l => some l
  | none => tr.act.bind fun a => (Tab.get? s.lines a.line).bind (·.launch)

/-- Open a line in a Roundhouse: INVALID, FULL, or the handle (R292), in its lowest free slot (log 29). -/
def openLine (s : State) (cluster : Nat) (ln : Line) : State × Dword :=
  if cluster > 47 || ln.invalid then (s, Rc.invalid)
  else match Tab.firstFree s.lines 256 (cluster * 256) with
    | none => (s, Rc.full)
    | some l =>
      let ln := { ln with gen := (Tab.read 0 s.lineGen l).toNat }
      ({ s with lines := Tab.put s.lines l ln }, ln.handleOf l)

/-- The 64 bytes that a descriptor load reads, and its violations: zeros where it violates. -/
def loadBlock (c : Ctx) (s : State) (va : Dword) (go : State → List Dword → Option TrapRec → Res) : Res :=
  withPlaces c s .load 64 [(uniTid, va)] (fun _ => .read 64) fun s l =>
    let viol := violations c.tr.replies l
    let far := (Tab.get? c.tr.replies uniTid).map fun r => replyValue (some r)
    let val := if viol.isEmpty then
        (match localPlaces l with | (_, pa) :: _ => trainMem s c.tr pa 64 | [] => far.getD 0) else 0
    go (clearReplies s c.k) ((List.range 8).map fun i => BitVec.ofNat 64 (bitsAt val (64 * i) 64)) (violationTrap c viol)

def execLopen (x : Args) (s : State) : Host.Outcome State Fault Refusal :=
  issue (.lopen x) x true s fun c s =>
    if !c.on then .done s {}
    else
      let va := rdOpnd c x.a .n64 uniTid
      let cluster := if x.b = .zero then c.tr.core / 4 else (rdOpnd c x.b .n64 uniTid).toNat
      loadBlock c (performEarlier s c.k) va fun s desc trap =>
        let (s, d) := openLine s cluster
          { desc := desc, descVA := va, asid := c.tr.asid, part := c.tr.part, priv := c.tr.priv, prio := c.tr.task.elim c.tr.prio fun va => recordPrio s c.tr.part c.tr.asid va
            launch := launchOf s c.tr, depth := c.tr.depth }
        .done s { vals := [(uniTid, d)], trap := trap }

/-- The trains blocked in `feed` on a line that closes take STALE (R293). -/
def staleFeeds (s : State) (l : Nat) : State :=
  (trainsWhere s fun _ t => match t.block with | some (.feed m _) => m = l | _ => false).foldl (fun s k =>
    match train? s k with
    | some tr => raiseAt s k tr.pc { windowTrap 2 with pc := tr.pc }
    | none => s) s

/-- `lclose` takes its place in the intake (R273, R293). -/
def closeLine (s : State) (l : Nat) : State :=
  staleFeeds (modLine s l fun ln => { ln with closing := true, intake := ln.intake ++ [.close] }) l

def execLclose (x : Args) (s : State) : Host.Outcome State Fault Refusal :=
  issue (.lclose x) x false s fun c s =>
    if !c.on then .done s {}
    else match lineOf s c.tr (rdOpnd c x.a .n64 uniTid) with
      | none => .trap s (windowTrap 2)
      | some (l, ln) =>
        if actOfLine c.tr l then .trap s (windowTrap 3)
        else waitHere (.lclose x) c (closeLine s l) (.lclose l ln.gen)

/-- The 4-byte pieces of each thread's record. -/
def feedPieces (c : Ctx) (rsize : Nat) : List (Nat × Dword) :=
  c.lanes.flatMap fun t =>
    let va := rdOpnd c c.x.b .n64 t
    (List.range (rsize / 4)).map fun i => (64 * i + t, va + BitVec.ofNat 64 (4 * i))

/-- The violations of a feed by thread: the cause of the first piece that violates, and the thread's address, that of its record (R163,
R294). -/
def feedViolations (c : Ctx) (v : List (Nat × Dword × Nat)) : List (Nat × Dword × Nat) :=
  c.lanes.filterMap fun t => (v.find? fun e => e.1 % 64 = t).map fun e => (t, e.2.1 - BitVec.ofNat 64 (4 * (e.1 / 64)), e.2.2)

/-- The bytes of a thread's record. -/
def feedBytes (s : State) (tr : Train) (l : List (Nat × Dword × Xl)) (t : Nat) : List Byte :=
  (l.filter fun e => e.1 % 64 = t).flatMap fun e => match e.2.2 with
    | .mem pa => trainBytes s tr pa 4
    | _ => []

/-- The records that an intake holds at most. -/
def intakeSize : Nat := 1024

/-- `feed` (R294). A record in another module's memory is read as that module holds it when it enters, like one of this module. -/
def feedBody (c : Ctx) (s : State) : Res :=
  if !c.on then .done s {}
  else match lineOf s c.tr (rdOpnd c c.x.a .n64 uniTid) with
    | none => .trap s (windowTrap 2)
    | some (l, ln) =>
      let pieces := feedPieces c ln.rsize
      if actOfLine c.tr l then .trap s (windowTrap 3)
      else match translateAll s c.tr .load 4 pieces with
        | (s, .fault va pte) =>
          .left (park s c.k c.head va 0 pte c.tr.pc 0 (faultMask s c.tr c.x.u .load 4 (pieces.map fun e => (e.1 % 64, e.2))))
        | (s, .ok places) =>
          let places := places.map fun e => (e.1, e.2.1, reachXl s e.2.2)
          let viol := feedViolations c (violations [] places)
          let lanes := c.lanes.filter fun t => !viol.any fun v => v.1 = t
          if ln.records + lanes.length > intakeSize then .blocked s (.feed l lanes.length)
          else
            let s := performEarlier s c.k
            let recs := lanes.map fun t => Intake.record (feedBytes s c.tr places t)
            .done (modLine s l fun ln => { ln with intake := ln.intake ++ recs }) { trap := violationTrap c viol }

def execFeed (x : Args) (s : State) : Host.Outcome State Fault Refusal := issue (.feed x) x false s feedBody

/-- FEED_INTAKE_ROOM: a blocked `feed` goes on once the intake has room for all its records (R294). -/
def execFeedIntakeRoom (tr : Nat) (s : State) : Host.Outcome State Fault Refusal :=
  unitStep (match train? s tr with
    | some { block := some (.feed l n), .. } =>
      if (Tab.get? s.lines l).all fun ln => ln.records + n ≤ intakeSize then unblock s tr else s
    | _ => s)

def execWmark (x : Args) (s : State) : Host.Outcome State Fault Refusal :=
  issue (.wmark x) x false s fun c s =>
    if !c.on then .done s {}
    else match lineOf s c.tr (rdOpnd c x.a .n64 uniTid) with
      | none => .trap s (windowTrap 2)
      | some (l, _) =>
        .done (modLine (performEarlier s c.k) l fun ln => { ln with intake := ln.intake ++ [.mark (src c .b .n64 uniTid)] }) {}

/-- The items of `lstat` (R296). -/
def lstatItem (ln : Line) (item : Nat) : Nat :=
  match item with
  | 0 => (if ln.records ≥ intakeSize then 1 else 0) + (if ln.poolWait then 2 else 0) + (if ln.closing then 4 else 0)
  | 1 => (ln.wins.filter fun e => e.2.absorbed.isNone || e.2.running.isSome).length
  | 2 => ln.accepted
  | 3 => ln.late
  | 4 => ln.drops
  | 5 => ln.w
  | 6 => ln.acts
  | _ => ln.failed

def execLstat (x : Args) (s : State) : Host.Outcome State Fault Refusal :=
  issue (.lstat x) x true s fun c s =>
    if !c.on then .done s {}
    else match lineOf s c.tr (rdOpnd c x.a .n64 uniTid) with
      | none => uniResult s Rc.invalid
      | some (_, ln) => uniResult s (BitVec.ofNat 64 (lstatItem ln (rdOpnd c x.b .n64 uniTid).toNat))

/-! ## wrec, wpane, wkey (R291, R297) -/

/-- A handler instruction: its train must be an activation train. -/
def withAct (c : Ctx) (s : State) (go : Act → Line → Res) : Res :=
  if !c.on then .done s {}
  else match c.tr.act with
    | none => .trap s (windowTrap 1)
    | some a => match Tab.get? s.lines a.line with
      | none => .trap s (windowTrap 1)
      | some ln => go a ln

/-- The wake-up of a thread. -/
def wakeOf (a : Act) (t : Nat) : Option Wake := (Tab.get? a.wakes t).map (·.2)

def isRecordWake (w : Wake) : Bool := w.kind = .opened || w.kind = .record
def isPaneWake (w : Wake) : Bool := w.kind = .pane

/-- Checks over all executing threads: NOREC, then RANGE. -/
def inputChecks (c : Ctx) (a : Act) (kind : Wake → Bool) (range : Nat → Bool) : Option Nat :=
  if c.lanes.any fun t => !(wakeOf a t).any kind then some 5
  else if c.lanes.any fun t => !range t then some 4
  else none

def execWrec (x : Args) (s : State) : Host.Outcome State Fault Refusal :=
  issue (.wrec x) x false s fun c s => withAct c s fun a ln =>
    let off := fun t => (rdOpnd c x.a .b32 t).toNat
    match inputChecks c a isRecordWake fun t => off t % 4 = 0 && off t < ln.rsize with
    | some cause => .trap s (windowTrap cause)
    | none => .done s { vals := c.lanes.map fun t =>
        (t, BitVec.ofNat 64 (ofBytes (((wakeOf a t).elim [] (·.bytes)).drop (off t) |>.take 4))) }

def execWpane (x : Args) (s : State) : Host.Outcome State Fault Refusal :=
  issue (.wpane x) x false s fun c s => withAct c s fun a ln =>
    let idx := fun t => (rdOpnd c x.a .b32 t).toNat
    match inputChecks c a isPaneWake fun t => idx t < ln.swords with
    | some cause => .trap s (windowTrap cause)
    | none => .done s { vals := c.lanes.map fun t =>
        (t, (((wakeOf a t).elim [] (·.words)).getD (idx t) 0).zeroExtend 64) }

/-- Whether the issuing train runs a line with 64-bit keys. -/
def keyIsWide (s : State) : Bool :=
  ((s.current.bind (train? s)).bind (·.act)).any fun a => (Tab.get? s.lines a.line).any (·.kwide)

def oddRegister (o : Opnd) : Bool := match o with | .v n => n.toNat % 2 = 1 | .o n => n.toNat % 2 = 1 | _ => false

/-- `wkey` (R290, R291): an odd register on a line with 64-bit keys fails check 9 of R48, whatever the guard. -/
def execWkey (x : Args) (s : State) : Host.Outcome State Fault Refusal :=
  let wide := keyIsWide s
  issue (.wkey x) x wide s fun c s =>
    if wide && oddRegister x.d then .trap s (trapOf Trap.operand 9)
    else withAct c s fun a ln => .done s { vals := c.lanes.map fun t =>
      (t, BitVec.ofNat 64 (((Tab.get? a.wakes t).bind fun e => ln.win? e.1).elim 0 (·.key))) }

/-! ## wemit (R298) -/

/-- The 8-byte pieces of the reserved slots: 8192 × i + piece for the i-th executing thread. -/
def slotPieces (r : RingReg) (ticket n : Nat) : List (Nat × Dword) :=
  (List.range n).flatMap fun i =>
    (List.range (r.ssize / 8)).map fun p => (8192 * i + p, r.slotVa (ticket + i) + BitVec.ofNat 64 (8 * p))

/-- The bytes of the result slot of a thread. -/
def slotBytes (c : Ctx) (first count ssize t : Nat) : List Byte :=
  padTo ssize ((List.range count).flatMap fun j => bytesOf (rdV c.tr (first + j) t).toNat 4)

/-- Write the slots as stores of the train, those of another module among them: a later release waits for all (R207). -/
def writeSlots (c : Ctx) (first count ssize : Nat) (l : List (Nat × Dword × Xl)) (s : State) : State :=
  l.foldl (fun s e =>
    let bs := ((slotBytes c first count ssize (c.lanes.getD (e.1 / 8192) 0)).drop (8 * (e.1 % 8192))).take 8
    match e.2.2 with
    | .mem pa => issueStore s c.k pa bs false
    | _ => s) s

/-- After the reservation: translate every slot, then write and commit, or commit as SKIP. A thread whose slot violates has the address of
its slot in the record, and the cause of the slot's first piece that violates (R163, R298). -/
def emitSlots (c : Ctx) (s : State) (u : RingUser) (pa : Nat) (r : RingReg) (ticket first count : Nat) : Res :=
  let m := c.lanes.length
  match translateAll s c.tr .store 8 (slotPieces r ticket m) with
  | (s, .fault va pte) =>
    let at' := (slotPieces r ticket m).map fun e => (c.lanes.getD (e.1 / 8192) 0, e.2)
    .left (park (ringAt s u pa (.com true ticket m)).1 c.k c.head va 1 pte c.tr.pc 0 (faultMask s c.tr false .store 8 at'))
  | (s, .ok l) =>
    let l := l.map fun e => (e.1, e.2.1, reachXl s e.2.2)
    let viol := violations [] l
    let byThread := (List.range m).filterMap fun i =>
      (viol.find? fun e => e.1 / 8192 = i).map fun e => (c.lanes.getD i 0, e.2.1 - BitVec.ofNat 64 (8 * (e.1 % 8192)), e.2.2)
    if byThread.isEmpty then
      let s := performEarlier (writeSlots c first count r.ssize l s) c.k
      .done (ringAt s u pa (.com false ticket m)).1 {}
    else .done (ringAt s u pa (.com true ticket m)).1 { trap := violationTrap c byThread }

/-- `wemit` (R298). Its ring operations stand in program order behind the train's earlier accesses, as those of `racq` and `rcom.skip` do
(R189, R247, log 46). -/
def wemitBody (c : Ctx) (s : State) : Res :=
  withAct c s fun _ ln =>
    let s := performEarlier s c.k
    let (first, count) := match c.x.a, c.x.b with
      | .v n, .imm k => (n.toNat, k.toNat)
      | _, _ => (0, 0)
    let u : RingUser := { part := c.tr.part, asid := c.tr.asid, priv := c.tr.priv }
    if ln.outring = 0 then .trap s (windowTrap 6)
    else match access s c.tr .load ln.outring 64 with
      | (s, .fault pte) => .left (park s c.k c.head ln.outring 0 pte c.tr.pc 0 c.mask)
      | (s, .bad _) | (s, .remote _ _) => .trap s (windowTrap 6)
      | (s, .mem pa) =>
        match ringReg? s pa with
        | none => .blocked s (.wemit s.clk)
        | some r =>
          if 4 * count > r.ssize then .trap s (windowTrap 6)
          else
            let (s, d) := ringAt s u pa (.acq c.lanes.length)
            if d = Rc.full || d = Rc.busy then .blocked s (.wemit s.clk)
            else if d.getLsbD 63 then .trap s (windowTrap 6)
            else emitSlots c s u pa r d.toNat first count

def execWemit (x : Args) (s : State) : Host.Outcome State Fault Refusal := issue (.wemit x) x false s wemitBody

/-- WEMIT_RETRY: a blocked `wemit` tries its reservation again (R298). -/
def execWemitRetry (tr : Nat) (s : State) : Host.Outcome State Fault Refusal :=
  unitStep (match train? s tr with
    | some t => match t.block with
      | some (.wemit _) => unblock s tr
      | _ => s
    | none => s)

/-! ## wyield, wend (R287, R299) -/

/-- The state words that a thread leaves. -/
def stateWords (tr : Train) (n t : Nat) : List Word := (List.range n).map fun i => rdV tr i t

/-- The activations of the executing threads end at one instant, the windows' slots receive their state; the threads exit and a selection
follows. -/
def endBody (i : Instr) (how : List Word → Line.EndHow) (c : Ctx) (s : State) : Res :=
  if !c.on then .done s { jump := some (branchPc c) }
  else withAct c s fun a _ =>
    let s := performEarlier s c.k
    let tr := (train? s c.k).getD c.tr
    let s := complete i c.x false c.k c.tr.pc s {}
    let s := modLine s a.line fun ln => ln.endActivations s.clk (c.lanes.filterMap fun t =>
      (Tab.get? a.wakes t).map fun e => (e.1, how (stateWords tr ln.swords t)))
    let s := c.lanes.foldl (fun s t => (Tab.get? a.wakes t).elim s fun e => syncSlot s a.line e.1) s
    let s := modTrain s c.k fun tr => { tr with act := some { a with wakes := a.wakes.filter fun e => !c.lanes.contains e.1 } }
    .left (exitThreads s c.k c.mask fun t =>
      if c.tr.selected.getLsbD t && !c.mask.getLsbD t then c.tr.pc + BitVec.ofNat 64 c.x.len
      else pcOf c.tr t)

def execWyield (x : Args) (s : State) : Host.Outcome State Fault Refusal :=
  issue (.wyield x) x false s (endBody (.wyield x) .yield)
def execWend (x : Args) (s : State) : Host.Outcome State Fault Refusal :=
  issue (.wend x) x false s (endBody (.wend x) .finish)

end Sys2Proof.Machine
end

