-- ==== Sys2Proof/Machine/Join.lean ====
section
/-! DEFINITION. The Roll Call: quorum joins (R335 to R348) and kills (R343, R357). -/

namespace Sys2Proof.Machine

/-! ## Exact weights (R340, R341) -/

/-- A finite FP32 value in units of 2⁻¹⁴⁹. -/
def f32Units (e : Ex) : Int := (if e.neg then -1 else 1) * (e.mant * 2 ^ (e.exp + 149).toNat : Nat)

/-- Add `n` times an FP32 weight. -/
def Weight.plus (a : Weight) (w : Word) (n : Nat) : Weight :=
  match decodeFmt .f32 w.toNat with
  | .nan _ => { a with nan := true }
  | .inf true => { a with ninf := true }
  | .inf false => { a with pinf := true }
  | .fin e => { a with num := a.num + n * f32Units e }

def Weight.finite (a : Weight) : Bool := !a.nan && !a.pinf && !a.ninf

/-- The exact sum rounded to FP32 by `.rn`. -/
def Weight.code (a : Weight) : Nat :=
  if a.nan || (a.pinf && a.ninf) then Fmt.f32.nanCode
  else if a.pinf || a.ninf then Fmt.f32.infCode a.ninf
  else (roundEx .f32 .rn false ((Ex.ofInt a.num).scale (-149))).code

/-- `p / q` rounded to an integer, ties to even. -/
def roundEven (p q : Int) : Int :=
  let neg := (p < 0) != (q < 0)
  let a := p.natAbs
  let b := q.natAbs
  let n := a / b
  let up : Bool := 2 * (a % b) > b || (2 * (a % b) = b && n % 2 = 1)
  let m : Int := (if up then n + 1 else n : Nat)
  if neg then -m else m

/-! ## Handles (R338) -/

def joinHandle (s : State) (j : Nat) : Dword := BitVec.ofNat 64 (j + 2 ^ 12 * (Tab.read 0 s.joinGen j).toNat)

/-! ## Cells (R341) -/

/-- The physical address of a cell through the opener's address space; none when it is skipped. -/
def cellPa (s : State) (jn : Join) (i : Nat) : Option Nat :=
  match unitAccess s jn.part jn.asid jn.priv .store (jn.cells + BitVec.ofNat 64 (16 * i)) 16 with
  | .mem pa => some pa
  | _ => none

def fillError (s : State) (j : Nat) : State := modJoin s j fun jn => { jn with fillerr := true }

/-- Change one cell; a skipped one sets FILLERR. -/
def changeCell (s : State) (j : Nat) (jn : Join) (i : Nat) (f : WideCell → WideCell) : State :=
  match cellPa s jn i with
  | some pa => writeMem s pa 16 (f (BitVec.ofNat 128 (readMem s pa 16))).toNat
  | none => fillError s j

/-- Change every cell. -/
def changeCells (s : State) (j : Nat) (jn : Join) (f : WideCell → WideCell) : State :=
  (List.range jn.ncells).foldl (fun s i => changeCell s j jn i f) s

/-- One cell times EWEIGHT / A, rounded to an integer (R341). -/
def rescaleCell (e a : Int) (c : WideCell) : WideCell := BitVec.ofNat 128 (wrap (roundEven (signExt c.toNat 128 * e) a) 128)

/-- One substitute: the cell index's SBUF value times the missing contributors. -/
def substitute (s : State) (j : Nat) (jn : Join) (m i : Nat) : State :=
  match cellPa s jn i with
  | none => fillError s j
  | some pa =>
    match unitAccess s jn.part jn.asid jn.priv .load (jn.sbuf + BitVec.ofNat 64 (4 * i)) 4 with
    | .mem sp =>
      let (d, fl) := floatToCell (decodeFmt .f32 (readMem s sp 4))
      let s := if fl ≠ 0 then fillError s j else s
      writeMem s pa 16 (BitVec.ofNat 128 (readMem s pa 16) + BitVec.ofNat 128 m * d).toNat
    | _ => fillError s j

/-- The fill rule for `m` missing contributors. -/
def fillCells (s : State) (j : Nat) (jn : Join) (m : Nat) : State :=
  match jn.fill with
  | 0 =>
    match decodeFmt .f32 jn.eweight.toNat with
    | .fin e => if jn.weight.num = 0 || !jn.weight.finite then s
                else changeCells s j jn (rescaleCell (f32Units e) jn.weight.num)
    | _ => s
  | 1 =>
    let s := (List.range jn.ncells).foldl (fun s i => substitute s j jn m i) s
    modJoin s j fun jn => { jn with weight := jn.weight.plus jn.sweight m }
  | 3 =>
    let s := jn.commits.foldl (fun s e => changeCell s j jn e.1 (· - e.2)) s
    modJoin s j fun jn => { jn with state := 4 }
  | _ => s

/-! ## Kills (R343, R357) -/

/-- Blocks that are kill points (R343). An `aalloc` that waits for room in the matrix queue (R132) is at none, as any other matrix
instruction there, which the spec leaves open (log 22). -/
def killPoint : Block → Bool
  | .waita _ _ _ _ _ _ _ | .future _ | .lwait _ _ | .jwait _ _ | .tfetch _ | .aalloc _ _ _ | .queue _ _
  | .feed _ _ | .lclose _ _ | .wemit _ | .staging => true
  | _ => false

/-- Whether a train waits at a kill point: blocked there, in a `waita` from its first read on (R229, R357), or with every eligible thread
held at a barrier. -/
def atKillPoint (tr : Train) : Bool :=
  match tr.block with
  | some (.remote _) => match tr.atWait with | some (.waita _ _ _) => true | _ => false
  | some b => killPoint b
  | none => tr.selected = 0 && tr.long.isNone && held tr ≠ 0

/-- What a train that is marked waited for is abandoned, with its requests to other modules, its arrivals at barriers are withdrawn, and it is a casualty of every other
open join. -/
def abandonWait (s : State) (k : Nat) : State :=
  match train? s k with
  | none => s
  | some tr =>
    let s := endContribs (unblock (withdrawAlloc s k) k) tr.uid true none
    let s := forsake (modTrain s k fun tr => { withdraw (withdraw tr false) true with
      deadline := none, replies := [], access := none, asides := [], predTrap := none, noWait := false, killed := tr.task.isSome }) k
    match tr.wg with | some w => touchBarriers s w | none => s

/-- The live threads of a marked train go to KPC, or exit. -/
def goToKpc (s : State) (k : Nat) : State :=
  match train? s k with
  | none => s
  | some tr =>
    let kpc := tr.kpc.getD 0
    let s := modTrain s k fun tr => { tr with kpc := none }
    if kpc = 0 then
      let s := failActivations s k
      exitThreads s k ((train? s k).elim 0 live) (pcOf ((train? s k).getD tr))
    else
      modTrain s k fun tr =>
        { selectWith tr (fun t => if (live tr).getLsbD t then kpc else pcOf tr t) with
          chain := { tr.chain with len := 0, reads := [], selfWrite := false } }

/-- The kill of a train that is marked (R343). -/
def killNow (s : State) (k : Nat) : State := goToKpc (abandonWait s k) k

/-! ## Marks for kill (R341, R343) -/

/-- Mark a contributor's train for kill, resident or saved. A train that is marked already keeps the KPC of its first mark (log 22). -/
def markKill (s : State) (uid : Nat) (kpc : Dword) : State :=
  let mark := fun (t : Train) => { t with kpc := some (t.kpc.getD kpc) }
  match trainByUid s uid with
  | some (k, _) => modTrain s k mark
  | none =>
    let one := fun (t : Train) => if t.uid = uid then mark t else t
    { s with
      saved := s.saved.map fun e => (e.1, { e.2 with trains := e.2.trains.map one })
      savedActs := s.savedActs.map fun e => (e.1, one e.2) }

/-- Whether a contributor's train is marked and waits at a kill point: it is killed at once (R357). -/
def stuckAt (s : State) (uid : Nat) : Option Nat :=
  (trainByUid s uid).bind fun e => if e.2.kpc.isSome && atKillPoint e.2 then some e.1 else none

/-- Whether a train has not ended: it is resident or saved. -/
def notEnded (s : State) (uid : Nat) : Bool :=
  (trainByUid s uid).isSome || s.saved.any (fun e => e.2.trains.any (·.uid = uid)) || s.savedActs.any (·.2.uid = uid)

/-- Whether a release marks a contributor: it has not arrived and its train has not ended (R341), also where another join has killed that
train, so that it is or will be a casualty too. -/
def straggles (s : State) (c : Contrib) : Bool :=
  c.state = .enrolled || ((c.state = .fallen || c.state = .settled) && notEnded s c.uid)

/-- Every enrolled contributor that has not arrived is marked, its staging discarded; those that wait at a kill point die at
once, and all of them have left their barriers before the exit of one can complete a barrier. -/
def markStragglers (s : State) (j : Nat) (kpc : Dword) : State :=
  match Tab.get? s.joins j with
  | none => s
  | some jn =>
    let late := jn.contribs.filter (straggles s)
    let s := modJoin s j fun jn =>
      { jn with kills := late.length
                contribs := jn.contribs.map fun c => if straggles s c then { c with state := .marked, stage := [] } else c }
    let s := late.foldl (fun s c => markKill s c.uid kpc) s
    let stuck := late.filterMap fun c => stuckAt s c.uid
    stuck.foldl goToKpc (stuck.foldl abandonWait s)

/-! ## Wake-ups (R345, R348, R429) -/

/-- Whether the waiters of a released join may wake: at once in this module's joins, after the STAGGER resume time otherwise. -/
def mayWake (s : State) (jn : Join) : Bool := !(jn.remote || jn.proxy) || s.super.resume ≤ s.super.ftime

/-- Wake the `jwait` waiters of a released join, if they may wake, and free its slot if it can be. -/
def wakeJoin (s : State) (j : Nat) : State :=
  match Tab.get? s.joins j with
  | none => s
  | some jn =>
    if jn.state ≠ 1 && !jn.awake && mayWake s jn then
      let s := modJoin s j fun jn => { jn with awake := true }
      freeJoin (finishWaits s (.jwait j (Tab.read 0 s.joinGen j).toNat) (joinStatus jn)) j
    else freeJoin s j

/-- Wake the waiters of released joins whose slots are free. -/
def wakeFreed (s : State) : State :=
  s.wakes.foldl (fun s w => finishWaits s (.jwait w.slot w.gen) w.status) { s with wakes := [] }

/-! ## The release (R341) -/

/-- Write STATE, ARRIVED, CASUAL and AWEIGHT to the record, where it is reached. -/
def writeJoinRecord (s : State) (jn : Join) : State :=
  match unitAccess s jn.part jn.asid jn.priv .store jn.recVA 64 with
  | .mem pa => writeMem (writeMem (writeMem (writeMem s (pa + 6) 2 jn.state) (pa + 8) 4 jn.arrived) (pa + 12) 4 jn.casual)
      (pa + 0x14) 4 jn.weight.code
  | _ => s

/-- Write the status word to NOTIFY. -/
def writeNotify (s : State) (j : Nat) (jn : Join) : State :=
  if jn.notify = 0 then s
  else match unitAccess s jn.part jn.asid jn.priv .store jn.notify 8 with
    | .mem pa => writeMem s pa 8 (joinStatus jn).toNat
    | _ => fillError s j

/-- The KILL messages of a home to its modules (R345). -/
def sendKills (s : State) (j : Nat) (jn : Join) : State :=
  if jn.remote then
    jn.mods.foldl (fun s m => sendFabric s jn.part m (.killMsg (lowWord (joinHandle s j)) (joinStatus jn))) s
  else s

/-- The contributors that fell before a release, and that no JOIN_CASUALTY has counted yet, are casualties (R342). -/
def countFallen (jn : Join) : Join :=
  { jn with casual := jn.casual + (jn.contribs.filter (·.state = .fallen)).length
            contribs := jn.contribs.map fun c => if c.state = .fallen then { c with state := .settled, stage := [] } else c }

/-- The release of a join with a cause: STATE 2 DONE or 3 SHORT, unless FAIL sets FAILED. -/
def releaseJoin (s : State) (j cause : Nat) : State :=
  match Tab.get? s.joins j with
  | none => s
  | some jn =>
    let s := modJoin (markStragglers (modJoin s j countFallen) j jn.kpc) j fun jn => { jn with state := cause }
    let s := if jn.n > jn.arrived then fillCells s j jn (jn.n - jn.arrived) else s
    match Tab.get? s.joins j with
    | none => s
    | some jn =>
      let s := writeNotify (writeJoinRecord s jn) j jn
      match Tab.get? s.joins j with
      | none => s
      | some jn => wakeJoin (sendKills s j jn) j

/-! ## Casualties (R342) and arrivals (R340) -/

/-- A fallen contributor is counted while the join is OPEN, which may release it. -/
def countCasualty (s : State) (j uid : Nat) : State :=
  match Tab.get? s.joins j with
  | none => s
  | some jn =>
    if jn.contribs.any fun c => c.uid = uid && c.state = .fallen then
      let settle := fun (jn : Join) =>
        { jn with contribs := jn.contribs.map fun c => if c.uid = uid then { c with state := .settled, stage := [] } else c }
      if jn.state ≠ 1 then freeJoin (modJoin s j settle) j
      else
        let s := modJoin s j fun jn => { settle jn with casual := jn.casual + 1 }
        if !jn.proxy && jn.n - (jn.casual + 1) < jn.q then releaseJoin s j 3 else s
    else s

/-- JOIN_CASUALTY (R342). -/
def execJoinCasualty (slot uid : Nat) (s : State) : Host.Outcome State Fault Refusal := unitStep (countCasualty s slot uid)

/-- Discard a train's staging for a join. -/
def dropStaging (s : State) (j uid : Nat) : State :=
  modJoin s j fun jn => { jn with contribs := jn.contribs.map fun c => if c.uid = uid then { c with stage := [] } else c }

/-- Whether the address space that opened a join has been given up since: its generation differs (R215, R360). -/
def Join.outlived (s : State) (jn : Join) : Bool := (Tab.read 0 s.agens jn.asid).toNat ≠ jn.agen

/-- Commit deltas to the destination cells, one write per cell; a cell that is not reached is skipped, and every write is dropped
once the address space was given up (R215). -/
def commitCells (s : State) (j : Nat) (deltas : Tab WideCell) : State :=
  deltas.foldl (fun s e => match Tab.get? s.joins j with
    | none => s
    | some jn =>
      if Join.outlived s jn || (cellPa s jn e.1).isNone then fillError s j
      else
        modJoin (changeCell s j jn e.1 (· + e.2)) j fun jn =>
          { jn with commits := Tab.put jn.commits e.1 (Tab.read 0 jn.commits e.1 + e.2) }) s

/-- A committed arrival: the deltas, the count, the weight; the release follows when the quorum is reached. -/
def commitArrival (s : State) (j : Nat) (deltas : Tab WideCell) (w : Word) : State :=
  let s := modJoin (commitCells s j deltas) j fun jn => { jn with arrived := jn.arrived + 1, weight := jn.weight.plus w 1 }
  match Tab.get? s.joins j with
  | some jn => if jn.arrived = jn.q then releaseJoin s j 2 else s
  | none => s

def contribOf (s : State) (j uid : Nat) : Option Contrib :=
  (Tab.get? s.joins j).bind fun jn => jn.contribs.find? (·.uid = uid)

/-- A train becomes an arrived contributor. -/
def setArrived (s : State) (j uid : Nat) : State :=
  modJoin s j fun jn =>
    { jn with contribs := jn.contribs.map fun c => if c.uid = uid then { c with state := .arrived, stage := [] } else c }

/-- An arrival at a join that has released: the contributor's staging is discarded, and the join waits for it no longer (R340, R344);
one that is marked for kill stays so. -/
def lateArrival (s : State) (j uid : Nat) : State :=
  modJoin s j fun jn =>
    { jn with contribs := jn.contribs.map fun c =>
        if c.uid = uid then { c with stage := [], state := if c.state = .enrolled then .settled else c.state } else c }

/-- What an arrival answers: a result, or a message to the home of a proxy whose reply is awaited. -/
inductive Arrival where
  | result (s : State) (d : Dword)
  | sent (s : State) (slot : Nat)

/-- The message of an arrival at a proxy (R345). -/
def sendArrival (s : State) (jn : Join) (w : Word) (deltas : Tab WideCell) : State :=
  sendFabric s jn.part jn.home (.arrival jn.hhandle w deltas)

/-- Whether a train has an arrival at a join whose result has not come back from the home. -/
def owesHome (tr : Train) (j : Nat) : Bool := tr.homes.any (·.slot = j)

/-- The arrival of a train at a join (R340). At a proxy, one that comes while an earlier one of the train has no answer yet is not sent:
the answer of the first decides it. -/
def arriveAt (s : State) (part uid : Nat) (marked : Bool) (handle : Nat) (w : Word) : Arrival :=
  match joinSlot s part handle with
  | none => .result s Rc.stale
  | some j =>
    let s := countCasualty s j uid
    match Tab.get? s.joins j with
    | none => .result s Rc.stale
    | some jn =>
      if jn.state ≠ 1 then .result (freeJoin (lateArrival (enrol s j uid) j uid) j) Rc.late
      else
        let s := enrol s j uid
        if marked then .result (dropStaging s j uid) Rc.late
        else if (contribOf s j uid).any (·.state = .arrived) then .result (dropStaging s j uid) Rc.dup
        else
          let deltas := (contribOf s j uid).elim [] (·.stage)
          let sent : Bool := (trainByUid s uid).any fun e => owesHome e.2 j
          if jn.proxy then .sent (if sent then dropStaging s j uid else sendArrival (dropStaging s j uid) jn w deltas) j
          else .result (commitArrival (setArrived s j uid) j deltas w) 0

/-- The queue unit's own arrival: weight 0, no staging; its result goes nowhere (R332). -/
def unitArrive (s : State) (part handle : Nat) : State :=
  match joinSlot s part handle with
  | none => s
  | some j =>
    match Tab.get? s.joins j with
    | some jn =>
      if jn.state ≠ 1 then s
      else if jn.proxy then sendArrival s jn 0 []
      else commitArrival s j [] 0
    | none => s

/-! ## KILL and `jkp` (R343, R357) -/

/-- KILL: a train that is marked and waits at a kill point is killed. -/
def execKill (tr : Nat) (s : State) : Host.Outcome State Fault Refusal :=
  unitStep (match train? s tr with
    | some t => if t.kpc.isSome && atKillPoint t then killNow s tr else s
    | none => s)

def execJkp (x : Args) (s : State) : Host.Outcome State Fault Refusal :=
  issue (.jkp x) x false s fun c s => if c.on && c.tr.kpc.isSome then .left (killNow s c.k) else .done s {}

/-! ## jopen (R335 to R337) -/

/-- The fields of a record as a join that is not yet registered. -/
def joinOfRecord (c : Ctx) (va : Dword) (d : List Dword) : Join :=
  let w := fun i => (d.getD i 0).toNat
  { part := c.tr.part, asid := c.tr.asid, priv := c.tr.priv, recVA := va
    n := bitsAt (w 0) 0 16, q := bitsAt (w 0) 16 16, fill := bitsAt (w 0) 32 8
    remote := bitsAt (w 0) 40 1 = 1, proxy := bitsAt (w 0) 41 1 = 1
    eweight := BitVec.ofNat 32 (w 2), cells := d.getD 3 0, ncells := bitsAt (w 4) 0 32, clist := d.getD 5 0
    notify := d.getD 6 0, kpc := BitVec.ofNat 64 (bitsAt (w 7) 0 48) }

/-- Whether a field of a record breaks its range (R335, R337); N, Q and FILL of a proxy are ignored (R345). -/
def badRecord (jn : Join) (d : List Dword) : Bool :=
  let w := fun i => (d.getD i 0).toNat
  bitsAt (w 0) 42 6 ≠ 0 || bitsAt (w 0) 48 16 ≠ 0 || bitsAt (w 4) 32 32 ≠ 0 || bitsAt (w 7) 48 16 ≠ 0
    || (!jn.proxy && (jn.n = 0 || jn.q = 0 || jn.q > jn.n || jn.fill > 3 || jn.kpc.toNat % 4 ≠ 0))
    || jn.cells.toNat % 16 ≠ 0 || jn.ncells = 0 || jn.ncells > 2 ^ 24 || jn.clist.toNat % 64 ≠ 0 || jn.notify.toNat % 8 ≠ 0
    || (jn.remote && jn.proxy) || (jn.clist = 0 && (jn.remote || jn.proxy || jn.fill = 1))

/-- The head of a contributor list: SBUF, SWEIGHT, NMOD, HOME, HHANDLE; none when a field breaks its range (R336). -/
def listHead (jn : Join) (l0 l1 l2 : Nat) : Option (Join × Nat) :=
  if l0 % 4 ≠ 0 || bitsAt l1 32 32 > 1024 || bitsAt l2 19 13 ≠ 0 then none
  else some ({ jn with sbuf := BitVec.ofNat 64 l0, sweight := BitVec.ofNat 32 l1, home := bitsAt l2 0 19
                       hhandle := BitVec.ofNat 32 (bitsAt l2 32 32) }, bitsAt l1 32 32)

/-- Register a join: FULL, or its handle; STATE becomes OPEN. -/
def registerJoin (s : State) (jn : Join) : State × Dword :=
  match Tab.firstFree s.joins 4096 0 with
  | none => (s, Rc.full)
  | some j =>
    let s := { s with joins := Tab.put s.joins j { jn with state := 1, agen := (Tab.read 0 s.agens jn.asid).toNat } }
    let s := match unitAccess s jn.part jn.asid jn.priv .store (jn.recVA + 6) 2 with
      | .mem pa => writeMem s pa 2 1
      | _ => s
    (s, joinHandle s j)

/-- The pieces of `n` bytes from an address. -/
def pieceAddrs (n : Nat) (va : Dword) (count : Nat) : List (Nat × Dword) :=
  (List.range count).map fun i => (uniTid, va + BitVec.ofNat 64 (n * i))

/-- What the pieces hold, as a train sees them; 0 for one that is not reached. -/
def piecesAt (s : State) (tr : Train) (n : Nat) (l : List (Nat × Dword × Xl)) : List Nat :=
  l.map fun e => match e.2.2 with | .mem pa => trainMem s tr pa n | _ => 0

/-- The pieces of a table or list that an instruction of this class reads, in this module or another (R207): a piece that faults parks
the train; else `go` has the values, 0 for a violating one (R163), and the trap that the violations leave. Nothing waits here: the
train issues on (R352, log 39). -/
def withPieces (c : Ctx) (s : State) (n : Nat) (addrs : List (Nat × Dword)) (go : State → List Nat → Option TrapRec → Res) : Res :=
  match translateAll s c.tr .load n addrs with
  | (s, .fault va pte) => .left (park s c.k c.head va 0 pte c.tr.pc 0)
  | (s, .ok l) =>
    let l := l.map fun e => (e.1, e.2.1, reachXl s e.2.2)
    let s := settleLoads s c.k (localPlaces l) n
    go s (piecesAt s c.tr n l) (violationTrap c (violations [] l))

/-- The record or header that a task or join instruction names is reached, in this module or another (R207), with an alignment: `go`
has its physical address; a violation goes to `bad` with the trap that follows the instruction. -/
def withRecordOr (c : Ctx) (s : State) (acc : Access) (align : Nat) (va : Dword) (bad : Nat → State → Option TrapRec → Res)
    (go : State → Nat → Res) : Res :=
  let (s, x) := access s c.tr acc va align
  match reachXl s x with
  | .fault pte => .left (park s c.k c.head va (if acc = .load then 0 else 1) pte c.tr.pc 0)
  | .bad cause => bad cause s (violationTrap c [(uniTid, va, cause)])
  | .remote _ _ => .left s
  | .mem pa => go s pa

/-- A record whose violation has no effect but its trap (R349). -/
def withRecord (c : Ctx) (s : State) (acc : Access) (align : Nat) (va : Dword) (go : State → Nat → Res) : Res :=
  withRecordOr c s acc align va (fun _ s trap => .done s { trap := trap }) go

/-- Register, once the record and its list have been read. -/
def jopenFin (s : State) (jn : Option Join) (trap : Option TrapRec) : Res :=
  match jn with
  | none => .done s { vals := [(uniTid, Rc.invalid)], trap := trap }
  | some jn =>
    let (s, d) := registerJoin s jn
    .done s { vals := [(uniTid, d)] }

/-- The contributor list (R336). -/
def jopenList (c : Ctx) (s : State) (jn : Join) : Res :=
  withPieces c s 8 (pieceAddrs 8 jn.clist 3) fun s v trap =>
    if trap.isSome then jopenFin s none trap
    else match listHead jn (v.getD 0 0) (v.getD 1 0) (v.getD 2 0) with
      | none => jopenFin s none none
      | some (jn, nmod) =>
        withPieces c s 4 (pieceAddrs 4 (jn.clist + 0x18) nmod) fun s ms trap =>
          if trap.isSome then jopenFin s none trap
          else if ms.any fun m => bitsAt m 19 13 ≠ 0 then jopenFin s none none
          else jopenFin s (some { jn with mods := ms }) none

/-- `jopen` loads the record; a violating load reads zeros, which are no valid record (R163, R337), but a misaligned address has no
effect other than its trap (R349). -/
def execJopen (x : Args) (s : State) : Host.Outcome State Fault Refusal :=
  issue (.jopen x) x true s fun c s =>
    if !c.on then .done s {}
    else
      let va := rdOpnd c x.a .n64 uniTid
      withRecordOr c (performEarlier s c.k) .load 64 va
          (fun cause s trap => if cause = causeAlign then .done s { trap := trap } else jopenFin s none trap) fun s pa =>
        let d := (List.range 8).map fun i => BitVec.ofNat 64 (trainMem s c.tr (pa + 8 * i) 8)
        let jn := joinOfRecord c va d
        if badRecord jn d then jopenFin s none none
        else if jn.clist = 0 then jopenFin s (some jn) none
        else jopenList c s jn

/-! ## jarr, jwait, jstat -/

/-- An arrival is on its way to the home, or stands behind an earlier one of the train at the same join: the instruction completes, and
its result comes as a load's does (R186, R345, R352). -/
def awaitHome (i : Instr) (c : Ctx) (s : State) (slot : Nat) (rest : Option Dword) (flags : FlagSet) (trap : Option TrapRec) : Res :=
  let reg := match c.x.d with | .s n => if c.x.nwb then none else some n.toNat | _ => none
  let s := complete i c.x true c.k c.tr.pc s { vals := [(uniTid, 0)], flags := flags }
  let s := modTrain s c.k fun tr =>
    { tr with homes := tr.homes ++ [{ slot := slot, reg := reg, rest := rest, again := owesHome tr slot }] }
  .left (trap.elim s (raiseAfter s c.k))

/-- `jarr` (R340). Its weight is read as a number, so a signalling NaN sets INV whatever the result (R74). -/
def execJarr (x : Args) (s : State) : Host.Outcome State Fault Refusal :=
  issue (.jarr x) x true s fun c s =>
    if !c.on then .done s {}
    else
      let w := lowWord (src c .b .f32 uniTid)
      let flags := flagIf (decodeFmt .f32 w.toNat).isSnan Fl.inv
      match arriveAt (performEarlier s c.k) c.tr.part c.tr.uid c.tr.kpc.isSome (rdOpnd c x.a .b32 uniTid).toNat w with
      | .result s d => .done s { vals := [(uniTid, d)], flags := flags }
      | .sent s j => awaitHome (.jarr x) c s j none flags none

def execJwait (x : Args) (s : State) : Host.Outcome State Fault Refusal :=
  issue (.jwait x) x true s fun c s =>
    if !c.on then .done s {}
    else if c.tr.act.isSome then .trap s handlerTrap
    else match joinSlot s c.tr.part (rdOpnd c x.a .b32 uniTid).toNat with
      | none => uniResult s Rc.stale
      | some j => match Tab.get? s.joins j with
        | some jn =>
          if jn.state ≠ 1 && jn.awake then uniResult s (joinStatus jn)
          else waitHere (.jwait x) c s (.jwait j (Tab.read 0 s.joinGen j).toNat)
        | none => uniResult s Rc.stale

def execJstat (x : Args) (s : State) : Host.Outcome State Fault Refusal :=
  issue (.jstat x) x true s fun c s =>
    if !c.on then .done s {}
    else match (joinSlot s c.tr.part (rdOpnd c x.a .b32 uniTid).toNat).bind (Tab.get? s.joins) with
      | some jn => uniResult s (joinStatus jn)
      | none => uniResult s Rc.stale

/-! ## Joins across modules (R345, R346) -/

/-- The code of a join result in a `tdone` result (R332). -/
def joinCode (d : Dword) : Nat :=
  if d = 0 then 1 else if d = Rc.late then 2 else if d = Rc.stale then 3 else if d = Rc.dup then 4 else 2

/-- A contributor whose arrival the home committed. -/
def homeAnswered (s : State) (j uid : Nat) (result : Dword) : State := if result = 0 then freeJoin (setArrived s j uid) j else s

/-- What a home's result makes of an arrival's result: for `tdone` the join result among its other bits. -/
def homeValue (h : HomeWait) (result : Dword) : Dword :=
  h.rest.elim result fun rest => rest ||| BitVec.ofNat 64 (2 ^ 33 * joinCode result)

/-- The result of an arrival reaches its register and the latch that holds it. -/
def writeHome (tr : Train) (h : HomeWait) (v : Dword) : Train :=
  fillLatch (h.reg.elim tr fun n => wrS tr n v) h.age true uniTid (lowWord v)

/-- The results that a home's answer to a train's oldest arrival gives: its own, and for each later arrival at that join DUP, or the same
refusal (R340). -/
def homeResults (h : HomeWait) (rest : List HomeWait) (result : Dword) : List (HomeWait × Dword) :=
  (h, result) :: (rest.filter fun x => x.again && x.slot = h.slot).map fun x => (x, if result = 0 then Rc.dup else result)

/-- PROXY_REPLY: the home's result becomes the result of the train's oldest arrival that awaits one. -/
def execProxyReply (tr : Nat) (result : Dword) (s : State) : Host.Outcome State Fault Refusal :=
  unitStep (match train? s tr with
    | some t => match t.homes with
      | h :: rest =>
        let s := homeAnswered s h.slot t.uid result
        let s := modTrain s tr fun t =>
          (homeResults h rest result).foldl (fun t e => writeHome t e.1 (homeValue e.1 e.2))
            { t with homes := rest.filter fun x => !(x.again && x.slot = h.slot) }
        if (train? s tr).any fun t => t.block = some .proxy then unblock s tr else s
      | [] => s
    | none => s)

/-- HOME_REMOTE_ARRIVAL: an arrival message at its home join (R340, R345). The handle is stale for a proxy of another partition too (R338,
R376). The answer goes back to the sender's module, by the table of the sender's partition (log 63). An arrival at a join with REMOTE = 0,
or at a proxy, for which R345 gives no result, is committed like any other (log 22). -/
def execHomeRemoteArrival (handle : Word) (source : Sender) (weight : Word) (deltas : List (Nat × WideCell)) (s : State) :
    Host.Outcome State Fault Refusal :=
  let answer := fun (s : State) (d : Dword) => unitStep (sendFabric s source.part source.module (.arrivalReply d))
  match joinSlot s source.part handle.toNat with
  | none => answer s Rc.stale
  | some j =>
    if (Tab.get? s.joins j).any (·.state = 1) then answer (commitArrival s j deltas weight) 0 else answer s Rc.late

/-- PROXY_KILL: a KILL message at a proxy join: its unarrived contributors are marked, its waiters get the home's word. -/
def execProxyKill (slot : Nat) (status : Dword) (s : State) : Host.Outcome State Fault Refusal :=
  unitStep (match Tab.get? s.joins slot with
    | some jn =>
      if !jn.proxy || jn.state ≠ 1 then s
      else
        let st := bitsAt status.toNat 0 8
        let s := modJoin (markStragglers s slot 0) slot fun jn => { jn with state := st, status := status }
        let s := match unitAccess s jn.part jn.asid jn.priv .store (jn.recVA + 6) 2 with
          | .mem pa => writeMem s pa 2 st
          | _ => s
        wakeJoin s slot
    | none => s)

/-- A partition reset cancels a join: no fill, no staging; a home tells its proxies (R346). -/
def cancelJoin (s : State) (j : Nat) : State :=
  match Tab.get? s.joins j with
  | none => s
  | some jn =>
    if jn.state ≠ 1 then s
    else
      let s := modJoin s j fun jn =>
        { jn with state := 5, awake := true, status := 5,
                  contribs := jn.contribs.map fun c => { c with stage := [], state := .settled } }
      match Tab.get? s.joins j with
      | none => s
      | some jn => freeJoin (sendKills (writeJoinRecord s jn) j jn) j

end Sys2Proof.Machine
end

