-- ==== Sys2Proof/Machine/Task.lean ====
section
/-! DEFINITION. Tasks (R326 to R334): the ready queues, `tsub`, `tfetch.task`, `tdone`. -/

namespace Sys2Proof.Machine

/-- A task trap (R351). -/
def taskTrap (cause : Nat) : TrapRec := trapOf Trap.task cause

/-- A task trap whose resume PC is the next instruction: the instruction has no effect. -/
def taskTrapNext (c : Ctx) (s : State) (cause : Nat) : Res := .done s { trap := some { taskTrap cause with pc := c.tr.pc } }

/-! ## The ready queues (R327, R328) -/

/-- The free hardware entries and the partition's free spill entries. -/
def readyRoom (s : State) (p : Nat) : Nat :=
  (65536 - hardwareReady s) + ((partAt s p).spillsz.toNat / 8 - countReady (partAt s p) (·.spilled))

/-- The physical address of a record that its address space reaches. -/
def recordPa (s : State) (p asid : Nat) (va : Dword) : Option Nat :=
  match unitAccess s p asid true .store va 64 with
  | .mem pa => some pa
  | _ => none

/-- The fields of a record's STATUS. -/
def setState (s : State) (pa st : Nat) : State := writeMem s (pa + 0x38) 1 st
def setFcode (s : State) (pa code : Nat) : State := writeMem s (pa + 0x39) 1 code
def setCore (s : State) (pa core : Nat) : State := writeMem s (pa + 0x3A) 1 core
def taskState (s : State) (pa : Nat) : Nat := readMem s (pa + 0x38) 1
def taskDeps (s : State) (pa : Nat) : Nat := readMem s (pa + 0x28) 4

/-- A record becomes READY and enters the queue of its PRIO (R326, R327). -/
def makeReady (s : State) (p asid : Nat) (va : Dword) (pa : Nat) : State :=
  let prio := bitsAt (readMem s (pa + 0x28) 8) 32 3
  let rec' : ReadyRec := { va := va, asid := asid, spilled := hardwareReady s ≥ 65536 }
  setReadyQueue (setState s pa 1) p prio (readyQueue s p prio ++ [rec'])

/-! ## Successors (R332) -/

/-- What the reading of successor addresses answers: a fault, or the records reached and the violations. -/
inductive Succs where
  | fault (va : Dword) (kind pte : Nat)
  | ok (l : List (Dword × Nat)) (viol : List (Dword × Nat))

/-- Read a zero-terminated list of addresses; an entry that violates ends it. -/
def succList (s : State) (tr : Train) : Nat → Dword → State × Succs
  | 0, _ => (s, .ok [] [])
  | n + 1, va =>
    let (s, x) := access s tr .load va 8
    match reachXl s x with
    | .fault pte => (s, .fault va 0 pte)
    | .bad cause => (s, .ok [] [(va, cause)])
    | .remote _ _ => (s, .ok [] [(va, causeRemote)])
    | .mem pa =>
      let a := readMem s pa 8
      if a = 0 then (s, .ok [] [])
      else match succList s tr n (va + 8) with
        | (s, .ok l v) => (s, .ok ((BitVec.ofNat 64 a, 0) :: l) v)
        | r => r

/-- Translate successors; one that violates is left out. -/
def succPlaces (s : State) (tr : Train) : List Dword → State × Succs
  | [] => (s, .ok [] [])
  | va :: rest =>
    match access s tr .rmw va 64 with
    | (s, .fault pte) => (s, .fault va 1 pte)
    | (s, x) =>
      match succPlaces s tr rest with
      | (s, .ok l v) => match reachXl s x with
        | .mem pa => (s, .ok ((va, pa) :: l) v)
        | .bad cause => (s, .ok l ((va, cause) :: v))
        | _ => (s, .ok l ((va, causeRemote) :: v))
      | r => r

/-- The successors of the record at `pa`: SUCC0, then SUCC1 or the list. -/
def successors (s : State) (tr : Train) (pa : Nat) : State × Succs :=
  let s0 := BitVec.ofNat 64 (readMem s (pa + 0x18) 8)
  let s1 := BitVec.ofNat 64 (readMem s (pa + 0x20) 8)
  let slist := bitsAt (readMem s pa 8) 48 1 = 1
  let first := if s0 = 0 then [] else [s0]
  match (if slist then succList s tr (2 ^ 61) s1 else (s, .ok (if s1 = 0 then [] else [(s1, 0)]) [])) with
  | (s, .fault va kind pte) => (s, .fault va kind pte)
  | (s, .ok l bad) =>
    match succPlaces s tr (first ++ l.map (·.1)) with
    | (s, .ok l v) => (s, .ok l (v ++ bad))
    | r => r

/-- Decrement the successors in order: the records made READY and whether a count was already 0 (R332 step 4). -/
def decrement (s : State) (p asid : Nat) : List (Dword × Nat) → State × Nat × Bool
  | [] => (s, 0, false)
  | (va, pa) :: rest =>
    let d := taskDeps s pa
    if d = 0 then
      let (s, n, _) := decrement s p asid rest
      (s, n, true)
    else
      let s := writeMem s (pa + 0x28) 4 (d - 1)
      let s := if d = 1 then makeReady s p asid va pa else s
      let (s, n, o) := decrement s p asid rest
      (s, (if d = 1 then n + 1 else n), o)

/-- The trap of a list of violations (R163). -/
def succTrap (c : Ctx) (v : List (Dword × Nat)) : Option TrapRec := violationTrap c (v.map fun e => (uniTid, e))

/-! ## tsub (R326) and tdone (R332) -/

def execTsub (x : Args) (s : State) : Host.Outcome State Fault Refusal :=
  issue (.tsub x) x true s fun c s =>
    if !c.on then .done s {}
    else
      let va := rdOpnd c x.a .n64 uniTid
      withRecord c (performEarlier s c.k) .rmw 64 va fun s pa =>
        if taskState s pa ≠ 0 then uniResult s Rc.badState
        else if taskDeps s pa ≠ 0 then uniResult s 1
        else if readyRoom s c.tr.part = 0 then .trap s (taskTrap 3)
        else uniResult (makeReady s c.tr.part c.tr.asid va pa) 0

/-- The end of a `tdone`: the status, the successors, the train no task train any more. -/
def tdoneFin (c : Ctx) (s : State) (pa : Nat) (l : List (Dword × Nat)) : State × Nat :=
  let s := setState s pa (if c.tr.killed then 5 else 3)
  let (s, n, spilt) := decrement s c.tr.part c.tr.asid l
  (modTrain s c.k fun tr => { tr with task := none, killed := false }, n % 2 ^ 32 + (if spilt then 2 ^ 32 else 0))

/-- `tdone` of a record that the train reaches (R332). WEIGHT arrives as the record holds it, with no flag (log 23). -/
def tdoneBody (i : Instr) (c : Ctx) (s : State) (pa : Nat) : Res :=
  if taskState s pa ≠ 2 then uniResult s Rc.badState
  else match successors s c.tr pa with
    | (s, .fault va kind pte) => .left (park s c.k c.head va kind pte c.tr.pc 0)
    | (s, .ok l viol) =>
      if (decrement s c.tr.part c.tr.asid l).2.1 > readyRoom s c.tr.part then .trap s (taskTrap 3)
      else
        let join := readMem s (pa + 0x30) 4
        let w := BitVec.ofNat 32 (readMem s (pa + 0x34) 4)
        let fin := fun (s : State) (code : Nat) =>
          let (s, r) := tdoneFin c s pa l
          Res.done s { vals := [(uniTid, BitVec.ofNat 64 (r + 2 ^ 33 * code))], trap := succTrap c viol }
        if join = 0 then fin s 0
        else match arriveAt s c.tr.part c.tr.uid c.tr.kpc.isSome join w with
          | .result s d => fin s (joinCode d)
          | .sent s j =>
            let (s, r) := tdoneFin c s pa l
            awaitHome i c s j (some (BitVec.ofNat 64 r)) 0 (succTrap c viol)

def execTdone (x : Args) (s : State) : Host.Outcome State Fault Refusal :=
  issue (.tdone x) x true s fun c s =>
    if !c.on then .done s {}
    else withRecord c (performEarlier s c.k) .rmw 64 (rdOpnd c x.a .n64 uniTid) (tdoneBody (.tdone x) c)

/-! ## tfetch.task (R329 to R331) -/

/-- The first record that a train may take, with its priority: of the highest priority of the mask, of the train's ASID, and reached
through it. -/
def findRecord (s : State) (tr : Train) (mask : Nat) : Option (Nat × ReadyRec) :=
  (List.range 8).reverse.findSome? fun p =>
    if bitsAt mask p 1 = 1 then
      ((readyQueue s tr.part p).find? fun r => r.asid = tr.asid && (recordPa s tr.part r.asid r.va).isSome).map fun r => (p, r)
    else none

/-- Take the record that the train holds, or the next one of its queues: its address and the priority of its queue. -/
def takeNext (s : State) (k mask : Nat) : Option ((Dword × Nat) × State) :=
  match train? s k with
  | none => none
  | some tr =>
    match tr.held with
    | some r => some (r, modTrain s k fun tr => { tr with held := none })
    | none => (findRecord s tr mask).map fun (p, r) => ((r.va, p), setReadyQueue s tr.part p ((readyQueue s tr.part p).erase r))

/-- The predicate of a conditional record (R330). -/
inductive Pred where
  | value (s : State) (v : Nat)
  | bad (s : State) (va : Dword) (cause : Nat)
  | wait (r : Res)

/-- The predicate word is read at the dispatch, behind the train's earlier accesses (R202, R330). -/
def readPred (c : Ctx) (s : State) (replies : Tab RemoteReply) (rec' : Dword × Nat) (pa : Nat) : Pred :=
  let hold := fun (s : State) => modTrain s c.k fun tr => { tr with held := some rec' }
  let pv := BitVec.ofNat 64 (readMem s (pa + 8) 8) + BitVec.ofNat 64 (bitsAt (readMem s (pa + 0x28) 8) 40 24)
  let (s, x) := access s c.tr .load pv 4
  match homeXl s x with
  | .fault pte => .wait (.left (park (hold s) c.k c.head pv 0 pte c.tr.pc 0))
  | .bad cause => .bad s pv cause
  | .mem a => .value s (readMem s a 4)
  | .remote m a =>
    match Tab.get? replies uniTid with
    | some .error => .bad s pv causeRemote
    | some r => .value s (replyValue (some r))
    | none =>
      match askRemote (clearReplies s c.k) c.k (fun _ => .read 4) [(uniTid, m, a)] with
      | some (s, ids) => .wait (.blocked (hold s) (.remote ids))
      | none => .bad s pv causeRemote

/-- The first trap that a dispatch owes is kept. -/
def oweTrap (s : State) (k : Nat) (r : Option TrapRec) : State :=
  modTrain s k fun tr => { tr with predTrap := match tr.predTrap with | some t => some t | none => r }

/-- What the train's dispatch leaves behind when it ends. -/
def endDispatch (s : State) (k : Nat) : State :=
  modTrain s k fun tr => { tr with deadline := none, predTrap := none, noWait := false, replies := [] }

/-- The train takes the record (R329, R331, R339). It goes on issuing at its launch's PRIO: the spec does not say that the record's counts
(log 23). -/
def takeTask (c : Ctx) (s : State) (va : Dword) (pa : Nat) : Res :=
  let s := setCore (setState s pa 2) pa c.tr.core
  let trap := (train? s c.k).bind (·.predTrap)
  let s := modTrain (endDispatch s c.k) c.k fun tr =>
    { tr with task := some va, killed := false, wkid := BitVec.ofNat 64 (readMem s (pa + 0x10) 8) }
  let s := match joinSlot s c.tr.part (readMem s (pa + 0x30) 4) with
    | some j => if readMem s (pa + 0x30) 4 ≠ 0 then enrol s j c.tr.uid else s
    | none => s
  .done s { vals := [(uniTid, va)], trap := trap }

/-- What one round of the loop of R329 answers: the instruction goes on with the next round, or it ends. -/
inductive Round where
  | again (s : State)
  | fin (r : Res)

/-- A record whose predicate is false (R329, R330): SKIPPED, and completed by the queue unit. -/
def skipTask (c : Ctx) (s0 s : State) (rec' : Dword × Nat) (pa : Nat) : Round :=
  match successors s c.tr pa with
  | (s, .fault sv kind pte) =>
    .fin (.left (park (modTrain s c.k fun tr => { tr with held := some rec' }) c.k c.head sv kind pte c.tr.pc 0))
  | (s, .ok l viol) =>
    if (decrement s c.tr.part c.tr.asid l).2.1 > readyRoom s c.tr.part then .fin (.trap (returnHeld s0 c.k) (taskTrap 3))
    else
      let join := readMem s (pa + 0x30) 4
      let s := setCore (setState s pa 5) pa c.tr.core
      let s := if join = 0 then s else unitArrive s c.tr.part join
      let s := (decrement s c.tr.part c.tr.asid l).1
      .again (if viol.isEmpty then s else oweTrap s c.k (succTrap c viol))

/-- A record whose predicate violates is FAULTED, a fault of the dispatching train's launch, and the dispatch waits no more (R321,
R330, R334). -/
def faultRecord (c : Ctx) (s : State) (va : Dword) (pa : Nat) (pv : Dword) (cause : Nat) : State :=
  let s := oweTrap (setFcode (setState s pa 4) pa cause) c.k (violationTrap c [(uniTid, pv, cause)])
  let s := modTrain s c.k fun tr => { tr with noWait := true }
  c.tr.launch.elim s fun l =>
    recordFault s l { kind := Trap.access, cause := cause, pc := c.tr.pc, core := c.tr.core, wgid := c.wgid, task := va }

/-- One round: the record that is dispatched now. One that is no longer reached goes back to its queue: none is lost (R328). -/
def dispatchRound (c : Ctx) (mask : Nat) (replies : Tab RemoteReply) (s0 : State) : Option Round :=
  (takeNext s0 c.k mask).map fun (rec', s) =>
    match recordPa s c.tr.part c.tr.asid rec'.1 with
    | none => .again (requeueAt s c.tr.part c.tr.asid rec'.1 rec'.2)
    | some pa =>
      if bitsAt (readMem s (pa + 0x28) 8) 35 1 = 0 then .fin (takeTask c s rec'.1 pa)
      else match readPred c s replies rec' pa with
        | .wait r => .fin r
        | .bad s pv cause => .again (faultRecord c s rec'.1 pa pv cause)
        | .value s 0 => skipTask c s0 s rec' pa
        | .value s _ => .fin (takeTask c s rec'.1 pa)

/-- No record is ready: EMPTY at once when the bound has passed or a predicate violated, else the train waits (R329, R330). -/
def dispatchEmpty (c : Ctx) (mask : Nat) (s : State) : Res :=
  match train? s c.k with
  | none => .left s
  | some tr =>
    if tr.noWait || pastDeadline s tr then .done (endDispatch s c.k) { vals := [(uniTid, Rc.empty)], trap := tr.predTrap }
    else .blocked (clearReplies s c.k) (.tfetch mask)

/-- The loop of R329; after as many rounds as there are records the instruction is executed again. -/
def dispatchLoop (c : Ctx) (mask : Nat) : Nat → Tab RemoteReply → State → Res
  | 0, _, s => .left (modTrain s c.k fun tr => rewindTo tr c.head)
  | n + 1, replies, s =>
    match dispatchRound c mask replies s with
    | none => dispatchEmpty c mask s
    | some (.fin r) => r
    | some (.again s) => dispatchLoop c mask n [] s

/-- `tfetch.task`: a skipped task releases, so the train's earlier accesses are performed first (R202). -/
def tfetchTaskBody (c : Ctx) (s : State) : Res :=
  if !c.on then .done s {}
  else if c.tr.act.isSome then taskTrapNext c s 1
  else if c.tr.task.isSome then uniResult s Rc.badState
  else
    let mask := (src c .a .n64 uniTid).toNat % 256
    let dl : Option Nat := if c.x.b = .zero then none else
      some (c.tr.deadline.getD (s.clk + (rdOpnd c c.x.b .b32 uniTid).toNat))
    let s := modTrain (performEarlier s c.k) c.k fun tr => { tr with deadline := dl }
    dispatchLoop c mask (countReady (partAt s c.tr.part) (fun _ => true) + 2) c.tr.replies s

def execTfetchTask (x : Args) (s : State) : Host.Outcome State Fault Refusal := issue (.tfetchTask x) x true s tfetchTaskBody

/-- TFETCH_TASK_WAKE: a waiting train finds a record (R329). -/
def execTfetchTaskWake (tr : Nat) (s : State) : Host.Outcome State Fault Refusal :=
  unitStep (match train? s tr with
    | some t => match t.block with
      | some (.tfetch mask) => if (findRecord s t mask).isSome then unblock s tr else s
      | _ => s
    | none => s)

/-- TFETCH_TASK_DEADLINE: the bound of a waiting train passes (R329). -/
def execTfetchTaskDeadline (tr : Nat) (s : State) : Host.Outcome State Fault Refusal :=
  unitStep (match train? s tr with
    | some t => match t.block with
      | some (.tfetch _) => if pastDeadline s t then unblock s tr else s
      | _ => s
    | none => s)

end Sys2Proof.Machine
end

