-- ==== Sys2Proof/Machine/LaunchClass.lean ====
section
/-! DEFINITION. Launches (R306 to R325): grants, device-side launches, admission, completion, triggers, the Timetable. -/

namespace Sys2Proof.Machine

/-! ## Grants (R309, R310, R314) -/

/-- END. -/
def endGrant : Dword := BitVec.allOnes 64

/-- The size of a grant at a level. -/
def Launch.grantSize (l : Launch) (level : Nat) : Nat := 2 ^ (List.range level).foldl (fun n i => n + l.width i) 0

/-- The next grant of a workgroup: of its re-issue list first, then of the dispenser. -/
def Launch.draw (l : Launch) (wgid level : Nat) : Dword × Launch :=
  match Tab.read [] l.reissue wgid with
  | g :: rest => (g, { l with reissue := Tab.write [] l.reissue wgid rest })
  | [] =>
    if l.next ≥ l.count then (endGrant, l)
    else (BitVec.ofNat 64 l.next, { l with next := l.next + l.grantSize level })

/-- Grants of a DISP = 1 workgroup that every train has taken are dropped. -/
def trimGrants (s : State) (w : Nat) : State :=
  match wg? s w with
  | none => s
  | some g =>
    let low := (trainsOfWg s w).foldl (fun m k => match train? s k with
      | some t => if t.gidx < m then t.gidx else m
      | none => m) (g.taken + g.grants.length)
    putWg s w { g with grants := g.grants.drop (low - g.taken), taken := low }

/-- The next grant of a train (R310). -/
def takeGrant (s : State) (w l level : Nat) (tr : Train) : Dword × State :=
  match wg? s w, launch? s l with
  | some g, some x =>
    if !g.disp then
      let (d, x) := x.draw g.wgid level
      (d, { s with launches := Tab.put s.launches l x })
    else match g.grants.drop (tr.gidx - g.taken) with
      | d :: _ => (d, s)
      | [] =>
        let (d, x) := x.draw g.wgid level
        (d, putWg { s with launches := Tab.put s.launches l x } w { g with grants := g.grants ++ [d] })
  | _, _ => (endGrant, s)

/-- An instruction of a train of a launch; in an activation train it raises NOLAUNCH (R351). -/
def withLaunch (c : Ctx) (s : State) (go : Nat → Launch → Res) : Res :=
  if !c.on then .done s {}
  else match c.tr.launch, c.tr.launch.bind (launch? s) with
    | some l, some x => if c.tr.act.isSome then taskTrapNext c s 1 else go l x
    | _, _ => taskTrapNext c s 1

/-- `tfetch` (R309, R310). Also in a task train `wkid` holds the grant from here on, and no longer the COORD of R331, which the spec leaves
open (log 23). -/
def execTfetch (x : Args) (s : State) : Host.Outcome State Fault Refusal :=
  issue (.tfetch x) x true s fun c s => withLaunch c s fun l ln =>
    let level := (rdOpnd c x.a .b32 uniTid).toNat
    if level ≥ ln.nf || ln.level.any (· ≠ level) then taskTrapNext c s 2
    else
      let s := modLaunch s l fun y => { y with level := some level }
      let (d, s) := takeGrant s (c.tr.wg.getD 0) l level c.tr
      let s := modTrain s c.k fun tr =>
        { tr with wkid := d, grant := some d, gotEnd := tr.gotEnd || d = endGrant, gidx := tr.gidx + (if (wgOf s tr).any (·.disp) then 1 else 0) }
      uniResult (trimGrants s (c.tr.wg.getD 0)) d

/-! ## Device-side launches (R315 to R318) -/

/-- A pending launch with a pool entry: its handle; none when the pool is full. -/
def poolLaunch (s : State) (x : Launch) : Option (State × Dword) :=
  match Tab.firstFree s.pool 4096 0 with
  | none => none
  | some i =>
    let (id, s) := freshId s
    let s := { s with launches := Tab.put s.launches id { x with pool := some i }
                      pool := Tab.put s.pool i { asid := x.asid, launch := id } }
    some (s, BitVec.ofNat 64 (i + 2 ^ 16 * (Tab.read 0 s.poolGen i).toNat + 2 ^ 32 * x.asid))

/-- A pool entry is free again; its generation advances (R317). -/
def freePool (s : State) (l : Nat) : State :=
  match launch? s l with
  | some { pool := some i, .. } =>
    modLaunch { s with pool := Tab.del s.pool i, poolGen := Tab.write 0 s.poolGen i (Tab.read 0 s.poolGen i + 1) } l
      fun x => { x with pool := none }
  | _ => s

def execLaunch (x : Args) (s : State) : Host.Outcome State Fault Refusal :=
  issue (.launch x) x true s fun c s => withLaunch c s fun l ln =>
    let va := rdOpnd c x.a .n64 uniTid
    withRecord c s .load 128 va fun s _ =>
      if ln.depth = 8 then uniResult s Rc.depth
      else match poolLaunch (performEarlier s c.k)
          { part := c.tr.part, asid := c.tr.asid, depth := ln.depth + 1, priv := c.tr.priv, hdrVA := va, parent := some l } with
        | none => uniResult s Rc.full
        | some (s, h) => uniResult s h

/-- The launch that a live handle names for an ASID (R316). -/
def launchOfHandle (s : State) (asid : Nat) (h : Dword) : Option (Nat × Nat) :=
  let i := bitsAt h.toNat 0 12
  match Tab.get? s.pool i with
  | some e =>
    if bitsAt h.toNat 32 12 = asid && e.asid = asid && bitsAt h.toNat 16 16 = (Tab.read 0 s.poolGen i).toNat then some (i, e.launch)
    else none
  | none => none

def execLwait (x : Args) (s : State) : Host.Outcome State Fault Refusal :=
  issue (.lwait x) x true s fun c s => withLaunch c s fun _ _ =>
    match launchOfHandle s c.tr.asid (rdOpnd c x.a .n64 uniTid) with
    | none => uniResult s Rc.stale
    | some (i, l) =>
      match launch? s l with
      | none => uniResult s Rc.stale
      | some y =>
        if y.state = .complete then uniResult (freePool s l) y.record
        else waitHere (.lwait x) c s (.lwait i (Tab.read 0 s.poolGen i).toNat)

/-! ## Triggers (R323) -/

def execTrig (x : Args) (s : State) : Host.Outcome State Fault Refusal :=
  issue (.trig x) x false s fun c s => withLaunch c s fun l ln =>
    let s := performEarlier s c.k
    let id := (wgOf s c.tr).elim 0 (·.wgid)
    .done (if ln.ndeps = 0 || ln.trig.contains id then s else modLaunch s l fun y => { y with trig := y.trig ++ [id] }) {}

/-! ## The Timetable (R324, R325) -/

/-- The entry that serves a size: the least CAP, ties to the lower index. -/
def bestEntry (n : Nat) (v : List Nat) : Option Nat :=
  (List.range 8).foldl (fun best i =>
    let cap := v.getD (2 * i) 0
    if cap ≠ 0 && cap ≥ n && best.all (fun b => cap < v.getD (2 * b) 0) then some i else best) none

def execTsel (x : Args) (s : State) : Host.Outcome State Fault Refusal :=
  issue (.tsel x) x true s fun c s => withLaunch c s fun _ ln =>
    let cls := (rdOpnd c x.a .b32 uniTid).toNat
    let n := (src c .b .n64 uniTid).toNat
    if cls > 15 then .trap s (trapOf Trap.operand 9)
    else if ln.ttab = 0 then uniResult s Rc.noTable
    else withPieces c s 8 (pieceAddrs 8 (ln.ttab + BitVec.ofNat 64 (128 * cls)) 16) fun s v trap =>
      let d := match bestEntry n v with
        | none => Rc.noFit
        | some i => BitVec.ofNat 64 (bitsAt (v.getD (2 * i + 1) 0) 0 48)
      .done s { vals := [(uniTid, d)], trap := trap }

/-! ## Headers and admission (R306 to R313, R322) -/

/-- The user through whose address space the distributor reaches a launch's memory. -/
def Launch.user (l : Launch) : RingUser := { part := l.part, asid := l.asid, priv := l.priv }

/-- Read `n` dwords of an address space. -/
def unitDwords (s : State) (u : RingUser) (va : Dword) (n : Nat) : Option (List Dword) :=
  (unitPlaces s u .load va n).map fun l => l.map fun pa => BitVec.ofNat 64 (readMem s pa 8)

/-- The launch with its header as it stands in memory; none when it is not reached or the address is misaligned. -/
def readHeader (s : State) (l : Launch) : Option Launch :=
  if l.hdrVA.toNat % 128 ≠ 0 then none
  else (unitDwords s l.user l.hdrVA 16).map fun h => { l with hdr := h }

/-- Whether a pending launch's header was not read yet. -/
def Launch.unread (l : Launch) : Bool := l.state = .pending && l.hdr.isEmpty && !l.doomed

/-- Read the headers of a partition's pending launches; the valid ones wait for admission. -/
def readHeaders (s : State) (p : Nat) : State :=
  { s with launches := s.launches.map fun e =>
      if e.2.part = p && e.2.unread then
        match readHeader s e.2 with
        | some x => if x.invalid then e else (e.1, { x with left := x.cores })
        | none => e
      else e }

/-- Write dword 0 of a completion record, where it is reached. -/
def writeComp (s : State) (l : Launch) (off : Nat) (v : Nat) : State :=
  (unitWrite s l.user (l.comp + BitVec.ofNat 64 off) (bytesOf v 8)).getD s

/-- The pool entries of the children that have completed become free once their parent completes (R317). -/
def freeChildren (s : State) (l : Nat) : State :=
  s.launches.foldl (fun s e => if e.2.parent = some l && e.2.state = .complete then freePool s e.1 else s) s

/-- A launch is COMPLETE: its waiters take dword 0 of its record; its pool entry frees when a waiter took it or its parent
has completed. -/
def completeLaunch (s : State) (l : Nat) (word : Dword) : State :=
  match launch? s l with
  | none => s
  | some x =>
    let s := modLaunch s l fun x => { x with state := .complete, record := word, left := [] }
    let s := freeChildren s l
    match x.pool with
    | none => s
    | some i =>
      let b : Block := .lwait i (Tab.read 0 s.poolGen i).toNat
      let taken : Bool := s.trains.any fun e => e.2.block = some b
      let s := finishWaits s b word
      let parentDone : Bool := (x.parent.bind (launch? s)).all fun p => p.state = .complete
      if taken || parentDone then freePool s l else s

/-- LAUNCH_INVALID: an invalid header completes with CODE INVALID and nothing else in its record; it starts no dependant (R320,
R322). -/
def execLaunchInvalid (launch : Nat) (s : State) : Host.Outcome State Fault Refusal :=
  unitStep (match launch? s launch with
    | none => s
    | some x =>
      if !x.unread then s
      else match readHeader s x with
        | none => completeLaunch s launch 4
        | some y =>
          if !y.invalid then s
          else
            let s := if y.comp ≠ 0 ∧ y.comp.toNat % 64 = 0 then writeComp s y 0 4 else s
            completeLaunch (modLaunch s launch fun x => { x with hdr := y.hdr, started := true }) launch 4)

/-- A train of a workgroup that is admitted (R64, R306). -/
def newTrain (l : Launch) (id w core slot trn uid : Nat) : Train :=
  { uid := uid, core := core, slot := slot, wg := some w, launch := some id, trn := trn, part := l.part, asid := l.asid
    prio := l.prio, depth := l.depth, vgran := l.vgran, sgran := l.sgran
    s := Tab.write 0 (Tab.write 0 [] 0 l.args) 1 l.hdrVA
    pc := BitVec.ofNat 64 l.entry, selected := allThreads, priv := l.priv }

/-- The workgroup slot that a launch takes on a core: the reserved one at depth one or more, where it is free (R16), else the lowest free
one (log 24). -/
def pickSlot (s : State) (deep : Bool) (core : Nat) : Option Nat :=
  let free := freeSlots s core
  if deep && free.contains reservedSlot then some reservedSlot else (free.filter (· ≠ reservedSlot)).head?

/-- The number of CORES bits below a core: its `wgid`. -/
def Launch.wgidOf (l : Launch) (core : Nat) : Nat := (l.cores.filter (· < core)).length

/-- Place the trains of a workgroup in free slots, the lowest ones in order of trn (log 29). -/
def placeTrains (l : Launch) (id w core : Nat) : Nat → List Nat → State → State
  | _, [], s => s
  | trn, slot :: rest, s =>
    let (uid, s) := freshId s
    placeTrains l id w core (trn + 1) rest (putTrain s (trainKey core slot) (newTrain l id w core slot trn uid))

/-- The tiles at admission: equal consecutive parts of tile storage, all EMPTY (R166). The tile registers from t(TILES) on, of which R166
does not speak, hold BASE 0 and SIZE 0, the model's choice (log 8). -/
def firstTiles (l : Launch) : Tab Tile :=
  (List.range l.ntiles).map fun i => (i, { base := 256 * (l.qbytes + i * (l.tbytes / l.ntiles)), size := 256 * (l.tbytes / l.ntiles) })

/-- Place the workgroup of a launch on one core of its set. The spec does not state what its scratchpad holds then: zero (log 61). -/
def placeWg (s : State) (id core : Nat) : State :=
  match launch? s id with
  | none => s
  | some l =>
    match pickSlot s (l.depth ≥ 1) core with
    | none => s
    | some slot =>
      let (uid, s) := freshId s
      let w := wgKey core slot
      let p := partAt s l.part
      let g : Wg :=
        { uid := uid, launch := id, wgid := l.wgidOf core, core := core, slot := slot, part := l.part, asid := l.asid
          ntrains := l.ntrains, vgran := l.vgran, sgran := l.sgran, pad := l.pad
          qbytes := l.qbytes, tbytes := l.tbytes, ntiles := l.ntiles, tiles := firstTiles l, gang := l.gang, cls := l.cls, prio := l.prio
          idem := l.idem, disp := l.disp, banks := l.banks, resv := l.banks
          qstall := p.qstall.toNat, bstall := p.bstall.toNat, qSince := s.clk, bSince := s.clk, gSince := s.clk, since := s.clk }
      let s := modLaunch (putWg s w g) id fun l =>
        { l with state := .running, start := some (l.start.getD s.clk), left := l.left.filter (· ≠ core) }
      placeTrains l id w core 0 ((freeTrainSlots s core).take l.ntrains) s

/-- The cores of a launch that can take their workgroups now: all of them for class 0, whole gangs, or each alone. -/
def admissible (s : State) (id : Nat) (l : Launch) : List Nat :=
  let ok := fun c => (available s (some id) c).fits l.need
  if l.cls = 0 then (if l.left.all ok then l.left else [])
  else if l.gang ≠ 0 then l.left.filter fun c =>
    (l.left.filter fun d => d / l.gangSize = c / l.gangSize).all ok
  else l.left.filter ok

/-- LAUNCH_ADMIT: the first launch of a partition that can place workgroups places them (R311 to R313). -/
def execLaunchAdmit (part : Nat) (s : State) : Host.Outcome State Fault Refusal :=
  unitStep (if (partAt s part).closed then s
    else
      let s := readHeaders s part
      match (launchOrder s).find? fun e => e.2.part = part && e.2.state ≠ .complete && !e.2.halted && !(admissible s e.1 e.2).isEmpty with
      | none => s
      | some (id, l) => (admissible s id l).foldl (fun s c => placeWg s id c) s)

/-! ## Completion (R319, R320) -/

/-- Whether all that a launch ran has ended. -/
def launchOver (s : State) (id : Nat) (l : Launch) : Bool :=
  l.state ≠ .complete && (l.doomed || (l.state = .running && l.left.isEmpty))
    && !s.wgs.any (fun e => e.2.launch = id) && !s.saved.any (fun e => e.2.wg.launch = id)
    && !s.ops.any (fun e => e.2.launch = some id)

/-- Dword 0 of the completion record. -/
def compWord (l : Launch) (code : Nat) : Nat :=
  let f := l.ffault
  code + 2 ^ 8 * (f.elim 0 (·.kind) % 256) + 2 ^ 16 * (f.elim 0 (·.cause) % 256) + 2 ^ 32 * (l.nfault % 2 ^ 31)

/-- Write the whole record, dword 0 last. -/
def writeCompletion (s : State) (l : Launch) (code : Nat) : State :=
  let f := l.ffault
  let w1 := f.elim 0 fun f => f.pc.toNat % 2 ^ 48 + 2 ^ 48 * (f.core % 256) + 2 ^ 56 * (f.wgid % 256)
  let s := writeComp (writeComp s l 0x08 w1) l 0x10 (f.elim 0 fun f => f.task.toNat)
  let s := writeComp (writeComp s l 0x18 l.exits) l 0x20 (l.start.getD 0)
  let s := writeComp (writeComp (writeComp s l 0x28 s.clk) l 0x30 0) l 0x38 0
  writeComp s l 0 (compWord l code)

/-- LAUNCH_COMPLETE (R320, R322). -/
def execLaunchComplete (launch : Nat) (s : State) : Host.Outcome State Fault Refusal :=
  unitStep (match launch? s launch with
    | none => s
    | some l =>
      if !launchOver s launch l then s
      else
        let code := if l.doomed then 3 else if l.nfault > 0 then 2 else 1
        let l := if l.hdr.isEmpty then (readHeader s l).getD l else l
        let s := if l.comp ≠ 0 ∧ l.comp.toNat % 64 = 0 then writeCompletion s l code else s
        completeLaunch s launch (BitVec.ofNat 64 (compWord l code)))

/-! ## Dependants (R323) -/

/-- Whether every workgroup of a launch has triggered. -/
def allTriggered (l : Launch) : Bool :=
  l.state ≠ .pending && l.ndeps ≠ 0 && (List.range l.cores.length).all fun i => l.trig.contains i

/-- Start dependants while pool entries last. -/
def startDeps (id : Nat) (x : Launch) : List Dword → State → State × List Dword
  | [], s => (s, [])
  | va :: rest, s =>
    match poolLaunch s { part := x.part, asid := x.asid, depth := x.depth, priv := x.priv, hdrVA := va, parent := some id } with
    | none => (s, va :: rest)
    | some (s, _) => startDeps id x rest s

/-- The addresses at DEPS that are reached. -/
def readDeps (s : State) (l : Launch) : List Dword :=
  (List.range l.ndeps).filterMap fun i => (unitDwords s l.user (l.depsAt + BitVec.ofNat 64 (8 * i)) 1).bind (·.head?)

/-- DEPENDANTS_START: once, when every workgroup has triggered; a dependant that finds the pool full waits for an entry. -/
def execDependantsStart (launch : Nat) (s : State) : Host.Outcome State Fault Refusal :=
  unitStep (match launch? s launch with
    | none => s
    | some l =>
      if l.started then
        let (s, rest) := startDeps launch l l.depsLeft s
        modLaunch s launch fun x => { x with depsLeft := rest }
      else if allTriggered l then
        let (s, rest) := startDeps launch l (readDeps s l) s
        modLaunch s launch fun x => { x with started := true, depsLeft := rest }
      else s)

end Sys2Proof.Machine
end

