-- ==== Sys2Proof/Machine/Engine.lean ====
section
/-! DEFINITION. Engine operations (R358 to R365): issue, start, pieces, faults, completion. -/

namespace Sys2Proof.Machine

/-! ## Queues of engines and the future table (R264, R358) -/

/-- The logic die of a cluster: 12 clusters each (R11). -/
def dieOfCluster (cl : Nat) : Nat := cl / 12

/-- The engine that serves an operation: the cluster's copy engine, the decoder of the slot's die, the die's pyramid engine. -/
def EngOp.engine (o : EngOp) : Nat :=
  match o.kind with
  | .copy => o.cluster
  | .dec => 64 + bitsAt (o.word 1) 36 8 / 64
  | .pyr => 128 + dieOfCluster o.cluster

/-- Whether the queue of 64 operations of an engine is full. -/
def engineFull (s : State) (e : Nat) : Bool := (s.ops.filter fun x => x.2.engine = e).length ≥ 64

/-- Add an operation to its engine's queue. -/
def addOp (s : State) (o : EngOp) : State :=
  let (id, s) := freshId s
  { s with ops := Tab.put s.ops id { o with order := id } }

/-- A new entry of the future table for the operation that is added next; none when the table is full. -/
def takeFuture (s : State) (asid : Nat) (launch : Option Nat) (line : Option (Nat × Nat)) : Option (Nat × State) :=
  (Tab.firstFree s.futures (2 ^ 20) 0).map fun i =>
    (i, { s with futures := Tab.put s.futures i { asid := asid, status := none, op := s.nextId, launch := launch, line := line } })

/-- The operation of an engine instruction. -/
def opOf (c : Ctx) (s : State) (kind : EngKind) (desc : List Dword) : EngOp :=
  { kind := kind, desc := desc, part := c.tr.part, asid := c.tr.asid, priv := c.tr.priv
    agen := (Tab.read 0 s.agens c.tr.asid).toNat, launch := launchOf s c.tr, line := c.tr.act.map (·.line)
    cluster := c.tr.core / 4, core := c.tr.core, slot := c.tr.slot, pc := c.tr.pc, uid := c.tr.uid
    wg := (wgOf s c.tr).map (·.uid), future := none }

/-- The handle goes to D with a pending mark (R261). -/
def markResult (i : Instr) (c : Ctx) (s : State) (h : Dword) (trap : Option TrapRec) : Res :=
  match c.x.d with
  | .s n =>
    let s := complete i c.x true c.k c.tr.pc s { vals := [(uniTid, h)] }
    let s := if c.x.nwb then s else modTrain s c.k fun tr => { tr with marks := Tab.put tr.marks n.toNat (.pending h) }
    .left (trap.elim s (raiseAfter s c.k))
  | _ => .done s { vals := [(uniTid, h)], trap := trap }

/-- `copy`, `dec` and `pyr`: the descriptor is read as a load, a future entry taken, the operation queued (R361). -/
def engineBody (i : Instr) (kind : EngKind) (c : Ctx) (s : State) : Res :=
  if !c.on then .done s {}
  else
    let va := rdOpnd c c.x.a .n64 uniTid
    if va.toNat % 64 ≠ 0 then .done s { trap := violationTrap c [(uniTid, va, causeAlign)] }
    else loadBlock c (performEarlier s c.k) va fun s desc trap =>
      let o := opOf c s kind desc
      if engineFull s o.engine then .blocked s (.engineQueue o.engine)
      else match takeFuture s c.tr.asid c.tr.launch (c.tr.act.map fun a => (a.line, a.gen)) with
        | none => .blocked s .futureTable
        | some (f, s) =>
          let h := (Tab.get? s.futures f).elim 0 (futureHandle s f)
          markResult i c (addOp s { o with future := some f }) h trap

def execCopy (x : Args) (s : State) : Host.Outcome State Fault Refusal := issue (.copy x) x true s (engineBody (.copy x) .copy)
def execDec (x : Args) (s : State) : Host.Outcome State Fault Refusal := issue (.dec x) x true s (engineBody (.dec x) .dec)
def execPyr (x : Args) (s : State) : Host.Outcome State Fault Refusal := issue (.pyr x) x true s (engineBody (.pyr x) .pyr)

/-- ENGINE_QUEUE_ROOM: a train blocked on a full queue or a full future table issues again once there is room (R264, R358). -/
def execEngineQueueRoom (tr : Nat) (s : State) : Host.Outcome State Fault Refusal :=
  unitStep (match train? s tr with
    | some { block := some (.engineQueue e), .. } => if engineFull s e then s else unblock s tr
    | some { block := some .futureTable, .. } => if (Tab.firstFree s.futures (2 ^ 20) 0).isSome then unblock s tr else s
    | _ => s)

/-- FUTURE_ENTRY_FREE (R264). -/
def execFutureEntryFree (index : Nat) (s : State) : Host.Outcome State Fault Refusal :=
  unitStep (match Tab.get? s.futures index with
    | none => s
    | some f =>
      let launchDone := f.launch.all fun l => (launch? s l).all fun x => x.state = .complete
      let lineDone := f.line.all fun l => !(Tab.get? s.lines l.1).any (·.gen = l.2)
      if f.status.isSome && (if f.line.isSome then lineDone else launchDone) then
        { s with futures := Tab.del s.futures index, futGen := Tab.write 0 s.futGen index (Tab.read 0 s.futGen index + 1) }
      else s)

/-! ## Descriptors (R363, R371, R373) -/

namespace EngOp

/-- Fields of a copy descriptor. -/
def stk (o : EngOp) : Bool := bitsAt (o.word 5) 0 1 = 1
def dtk (o : EngOp) : Bool := bitsAt (o.word 5) 1 1 = 1
def follows (o : EngOp) : Bool := bitsAt (o.word 5) 14 1 = 1
def rowb (o : EngOp) : Nat := bitsAt (o.word 4) 0 20
def nrow (o : EngOp) : Nat := bitsAt (o.word 4) 32 16
def nplane (o : EngOp) : Nat := bitsAt (o.word 4) 48 16
def user (o : EngOp) : RingUser := { part := o.part, asid := o.asid, priv := o.priv }

/-- The first dword of a copy descriptor that breaks a limit. A reserved field that is not zero breaks one, which R5 and R363 leave open
(log 27). -/
def badCopy (o : EngOp) : Option Nat :=
  let al := fun (i lo n : Nat) => bitsAt (o.word i) lo n % 64 ≠ 0
  if o.word 0 % 64 ≠ 0 then some 0
  else if o.word 1 % 64 ≠ 0 then some 0x08
  else if al 2 0 32 || al 2 32 32 then some 0x10
  else if al 3 0 32 || al 3 32 32 then some 0x18
  else if o.rowb % 64 ≠ 0 || o.rowb < 64 || o.rowb > 524288 || bitsAt (o.word 4) 20 12 ≠ 0 || o.nrow = 0 || o.nplane = 0 then some 0x20
  else if bitsAt (o.word 5) 15 49 ≠ 0 || (o.stk && o.dtk && bitsAt (o.word 5) 2 6 = bitsAt (o.word 5) 8 6)
      || (o.follows && !o.dtk) || ((o.stk || o.dtk) && o.wg.isNone) then some 0x28
  else if bitsAt (o.word 6) 25 39 ≠ 0 || (o.follows && (bitsAt (o.word 6) 6 4 < 9 || bitsAt (o.word 6) 6 4 > 13)) then some 0x30
  else if o.word 7 ≠ 0 then some 0x38
  else none

/-- The first dword of a decode descriptor that breaks a limit. A reserved field that is not zero breaks one, which R5 and R371 leave open
(log 27). -/
def badDec (o : EngOp) : Option Nat :=
  if bitsAt (o.word 1) 0 32 = 0 || bitsAt (o.word 1) 0 32 > 2 ^ 31 || bitsAt (o.word 1) 32 2 = 3 || bitsAt (o.word 1) 44 20 ≠ 0
  then some 0x08
  else if o.word 2 % 65536 ≠ 0 then some 0x10
  else if o.word 4 % 256 ≠ 0 then some 0x20
  else if bitsAt (o.word 5) 0 32 % 256 ≠ 0 || bitsAt (o.word 5) 39 25 ≠ 0 || (bitsAt (o.word 5) 38 1 = 1 && o.wg.isNone) then some 0x28
  else if o.word 6 % 64 ≠ 0 then some 0x30
  else if o.word 7 ≠ 0 then some 0x38
  else none

/-- The first dword of a pyramid descriptor that breaks a limit. A reserved field that is not zero breaks one, which R5 and R373 leave open
(log 27). -/
def badPyr (o : EngOp) : Option Nat :=
  let w := bitsAt (o.word 1) 0 16
  let h := bitsAt (o.word 1) 16 16
  if w % 2 ≠ 0 || w < 2 || w > 8192 || h % 2 ≠ 0 || h < 2 || h > 8192 || bitsAt (o.word 1) 32 16 % 256 ≠ 0
      || bitsAt (o.word 1) 48 2 = 3 || bitsAt (o.word 1) 53 3 = 0 || bitsAt (o.word 1) 53 3 > 6 then some 0x08
  else if o.word 2 % 64 ≠ 0 then some 0x10
  else ([3, 4, 5, 6, 7].find? fun i => o.word i ≠ 0).map (8 * ·)

def bad (o : EngOp) : Option Nat :=
  match o.kind with
  | .copy => o.badCopy
  | .dec => o.badDec
  | .pyr => o.badPyr

/-- The pieces of a copy. -/
def total (o : EngOp) : Nat := o.nplane * o.nrow * (o.rowb / 64)

/-- The source and destination of piece `n`: base + plane and row strides + 64-byte step. -/
def place (o : EngOp) (dst : Bool) (n : Nat) : Int :=
  let per := o.rowb / 64
  let i := if dst then 1 else 0
  (o.word i : Int) + (n / per / o.nrow : Nat) * signExt (bitsAt (o.word 3) (32 * i) 32) 32
    + (n / per % o.nrow : Nat) * signExt (bitsAt (o.word 2) (32 * i) 32) 32 + (64 * (n % per) : Nat)

end EngOp

/-! ## Start (R359, R363, R364, R372) -/

/-- The decode's OPEN: the stream context of its slot is reset (R371). -/
def openStream (s : State) (o : EngOp) : State :=
  if o.kind = .dec && bitsAt (o.word 1) 34 1 = 1 then { s with streams := Tab.del s.streams (bitsAt (o.word 1) 36 8) } else s

/-- Whether the generation of an operation's ASID has moved on (R360). -/
def outlived (s : State) (o : EngOp) : Bool := (Tab.read 0 s.agens o.asid).toNat ≠ o.agen

/-- The state of a tile of an operation's workgroup. -/
def opTile (s : State) (o : EngOp) (n : Nat) : Tile :=
  match (o.wg.bind (wgByUid s)).bind (wg? s) with
  | some g => tileOf g n
  | none => {}

/-- Whether the tiles of an operation admit its start: its source READY, its destination EMPTY, no engine phase on either. -/
def tilesAdmit (s : State) (o : EngOp) : Bool :=
  (o.srcTile.all fun n => let t := opTile s o n; t.state = 2 && !t.engine)
    && (o.dstTile.all fun n => let t := opTile s o n; t.state = 0 && !t.engine)

/-- Whether an operation is the next of its engine: the earlier ones have started, and no earlier decode of its stream slot is
incomplete. -/
def nextOfEngine (s : State) (o : EngOp) : Bool :=
  s.ops.all fun e => e.2.order ≥ o.order || e.2.engine ≠ o.engine
    || (e.2.state ≠ .queued && !(o.kind = .dec && bitsAt (e.2.word 1) 36 8 = bitsAt (o.word 1) 36 8))

/-- ENGINE_OPERATION_START. -/
def execEngineOperationStart (op : Nat) (s : State) : Host.Outcome State Fault Refusal :=
  unitStep (match Tab.get? s.ops op with
    | none => s
    | some o =>
      if o.state ≠ .queued || !nextOfEngine s o then s
      else if outlived s o then endOp s op false (statusWord Code.terminated 0 0 0)
      else match o.bad with
        | some off => closeStream (openStream (endOp s op false (statusWord Code.invalid off 0 0)) o) o
        | none =>
          if !tilesAdmit s o then s
          else
            let s := openStream (phaseTile (phaseTile s o.wg o.srcTile 3 true) o.wg o.dstTile 1 true) o
            modOp s op fun o => { o with state := .running })

/-! ## Faults and violations of an operation (R359) -/

/-- An operation meets a translation fault: it takes a fault buffer entry of its own and pauses; without a free entry it tries
again. -/
def pauseOp (s : State) (op : Nat) (o : EngOp) (va : Dword) (pte : Nat) : State :=
  match takeOpFault s op o va pte with
  | none => s
  | some (i, s) => modOp s op fun o => { o with state := .paused i }

/-- A violation stops an operation: it is logged where its cause is, and the operation completes FAULTED. -/
def faultOp (s : State) (op : Nat) (o : EngOp) (va : Dword) (cause : Nat) : State :=
  let s := if cause ≤ 7 then logViolation s o.part va o.pc cause o.core o.asid o.slot 0 else s
  endOp s op false (statusWord Code.faulted cause o.flags.toNat o.pieces.length)

/-! ## The copy engine (R364) -/

/-- Where a piece of a copy lies. -/
inductive Site where
  | mem (pa : Nat)
  | tile (w a : Nat)
  | fault (va : Dword) (pte : Nat)
  | bad (va : Dword) (cause : Nat)

/-- 64 bytes at an offset of a tile: TRANGE beyond it. -/
def tileSite (s : State) (o : EngOp) (n : Nat) (off : Int) (len : Nat) : Site :=
  let t := opTile s o n
  match o.wg.bind (wgByUid s) with
  | some w => if 0 ≤ off && off.toNat + len ≤ t.size then .tile w (t.base + off.toNat) else .bad (BitVec.ofInt 64 off) causeTRange
  | none => .bad (BitVec.ofInt 64 off) causeTRange

def globalSite (s : State) (o : EngOp) (acc : Access) (va : Dword) (align : Nat) : Site :=
  match unitAccess s o.part o.asid o.priv acc va align with
  | .mem pa => .mem pa
  | .fault pte => .fault va pte
  | .bad cause => .bad va cause
  | .remote _ _ => .bad va causeRemote

def srcSite (s : State) (o : EngOp) (n : Nat) : Site :=
  match o.srcTile with
  | some t => tileSite s o t (o.place false n) 64
  | none => globalSite s o .load (BitVec.ofInt 64 (o.place false n)) 64

def dstSite (s : State) (o : EngOp) (n : Nat) : Site :=
  match o.dstTile with
  | some t => tileSite s o t (o.place true n) 64
  | none => globalSite s o .store (BitVec.ofInt 64 (o.place true n)) 64

/-- The translation that a store of an operation holds (R360). -/
def holdPage (s : State) (op : Nat) (o : EngOp) (va : Dword) : State :=
  match walk s o.asid va with
  | .leaf t => modOp s op fun o => if o.pages.contains (t.page, t.size) then o else { o with pages := (t.page, t.size) :: o.pages }
  | _ => s

/-- Put the 64 bytes of a piece. -/
def putPiece (s : State) (op : Nat) (o : EngOp) (n : Nat) (bs : List Byte) : State :=
  let done := fun (s : State) => modOp s op fun o => { o with pieces := n :: o.pieces }
  match dstSite s o n with
  | .fault va pte => pauseOp s op o va pte
  | .bad va cause => faultOp s op o va cause
  | .tile w a => done (modWg s w fun g => spPut g a bs)
  | .mem pa => done (holdPage (writeBytes s pa bs) op o (BitVec.ofInt 64 (o.place true n)))

/-- Perform piece `n` of a running copy, or pause at it. -/
def copyPiece (s : State) (op : Nat) (o : EngOp) (n : Nat) : State :=
  match srcSite s o n with
  | .fault va pte => pauseOp s op o va pte
  | .bad va cause => faultOp s op o va cause
  | .mem pa => putPiece s op o n (readBytes s pa 64)
  | .tile w a => putPiece s op o n (match wg? s w with | some g => spBytes g a 64 | none => [])

/-- The output base of a decode or pyramid operation in global memory. -/
def EngOp.outBase (o : EngOp) : Option Dword :=
  match o.kind with
  | .copy => none
  | .dec => if o.dstTile.isSome then none else some (o.desc.getD 4 0)
  | .pyr => some (o.desc.getD 2 0)

/-- A turn of an engine: one 64-byte piece of a copy (R364); a decode or pyramid operation takes the translation of its output, which
it then holds (R360). -/
def pieceStep (s : State) (op n : Nat) : State :=
  match Tab.get? s.ops op with
  | none => s
  | some o =>
    if o.state ≠ .running then s
    else if outlived s o then endOp s op false (statusWord Code.terminated 0 0 o.pieces.length)
    else if o.kind ≠ .copy then o.outBase.elim s (holdPage s op o)
    else if n ≥ o.total || o.pieces.contains n then s
    else copyPiece s op o n

/-- The first piece that is still to be written. -/
def nextPiece (o : EngOp) : Option Nat := (List.range (o.pieces.length + 1)).find? fun n => n < o.total && !o.pieces.contains n

/-- COPY_COMPLETE: the last piece has landed; the tiles move on, and a follow-on is placed at that moment (R149, R365). An operation
that owes a status word and found no fault buffer entry tries again. -/
def execCopyComplete (op : Nat) (s : State) : Host.Outcome State Fault Refusal :=
  unitStep (match Tab.get? s.ops op with
    | none => s
    | some o =>
      if let .owing st none := o.state then endOp s op true st
      else if o.kind ≠ .copy || o.state ≠ .running || o.pieces.length < o.total then s
      else if o.follows then placeFollowOn (modOp (endPhases s o true) op fun o => { o with state := .placed }) op
      else endOp s op true (statusWord Code.done 0 0 (o.total % 2 ^ 32)))

/-! ## Ranges of bytes through an address space -/

/-- The places of `n` bytes, or the first that fails. -/
inductive Span where
  | ok (l : List Nat)
  | fault (va : Dword) (pte : Nat)
  | bad (va : Dword) (cause : Nat)

def spanOf (s : State) (o : EngOp) (acc : Access) (va : Dword) : Nat → Span
  | 0 => .ok []
  | n + 1 =>
    match globalSite s o acc va 1 with
    | .mem pa => match spanOf s o acc (va + 1) n with
      | .ok l => .ok (pa :: l)
      | r => r
    | .fault va pte => .fault va pte
    | .bad va cause => .bad va cause
    | .tile _ _ => .bad va causeTRange

/-- Go on with a span, or pause or fault the operation. -/
def withSpan (s : State) (op : Nat) (o : EngOp) (sp : Span) (go : List Nat → State) : State :=
  match sp with
  | .ok l => go l
  | .fault va pte => pauseOp s op o va pte
  | .bad va cause => faultOp s op o va cause

def readPlaces (s : State) (l : List Nat) : List Byte := l.map (readByte s)

/-- Write bytes at places, in order. -/
def writePlaces (s : State) (l : List Nat) (bs : List Byte) : State :=
  (l.zip bs).foldl (fun s e => writeBytes s e.1 [e.2]) s

/-- Rows of bytes to write: each with its offset from the output base. -/
abbrev Rows := List (Nat × List Byte)

/-- Write rows to global memory when every place is reached. -/
def writeRows (s : State) (op : Nat) (o : EngOp) (base : Dword) : Rows → (State → State) → State
  | [], go => go s
  | (off, bs) :: rest, go =>
    withSpan s op o (spanOf s o .store (base + BitVec.ofNat 64 off) bs.length) fun l =>
      writeRows s op o base rest fun s => go (holdPage (writePlaces s l bs) op o (base + BitVec.ofNat 64 off))

/-! ## The first fault of an operation -/

/-- ENGINE_FAULT_PAUSE: a running copy stops at its next piece when that piece does not translate (R359). The decode and
pyramid engines meet their faults at completion. -/
def execEngineFaultPause (op : Nat) (s : State) : Host.Outcome State Fault Refusal :=
  unitStep (match Tab.get? s.ops op with
    | none => s
    | some o =>
      if o.kind ≠ .copy || o.state ≠ .running then s
      else match nextPiece o with
        | none => s
        | some n => match srcSite s o n, dstSite s o n with
          | .fault va pte, _ => pauseOp s op o va pte
          | _, .fault va pte => pauseOp s op o va pte
          | _, _ => s)

end Sys2Proof.Machine
end

