-- ==== Sys2Proof/Machine/Digest.lean ====
section
/-! DEFINITION. The SHA-256 digest of R397 and R398: the function of the Secure Hash Standard, which the spec names. -/

namespace Sys2Proof.Machine

/-- The integer part of the `k`-th root of `n`, its bits tried from the highest of `b` down. -/
def rootBits (k n : Nat) : Nat → Nat → Nat
  | 0, found => found
  | b + 1, found => rootBits k n b (if (found + 2 ^ b) ^ k ≤ n then found + 2 ^ b else found)

/-- The primes below a number. -/
def primesBelow (n : Nat) : List Nat :=
  (List.range n).filter fun p => 2 ≤ p && (List.range p).all fun d => d < 2 || p % d ≠ 0

/-- The first 32 bits of the fractional part of the `k`-th root of a number below 512. -/
def fractionWord (k p : Nat) : Word := BitVec.ofNat 32 (rootBits k (p * 2 ^ (32 * k)) 41 0)

/-- The words of the digest before the first block: from the square roots of the first eight primes. -/
def digestStart : List Word := (primesBelow 20).map (fractionWord 2)

/-- What the rounds add, in order: from the cube roots of the first 64 primes. -/
def roundAddends : List Word := (primesBelow 312).map (fractionWord 3)

/-- A word in several rotations, added without carry. -/
def rotations (w : Word) (by' : List Nat) : Word := by'.foldl (fun x n => x ^^^ w.rotateRight n) 0

/-- `n` further words of a block in front of those it has, newest first. -/
def expandBlock : Nat → List Word → List Word
  | 0, ws => ws
  | n + 1, ws =>
    let back := fun i => ws.getD (i - 1) 0
    let near := rotations (back 2) [17, 19] ^^^ back 2 >>> 10
    let far := rotations (back 15) [7, 18] ^^^ back 15 >>> 3
    expandBlock n ((near + back 7 + far + back 16) :: ws)

/-- One round on the eight working words, with the sum of its block word and its addend: the words move one place, the last of each
half is made anew. A bit of the fifth chooses between those of the sixth and seventh, and the first three take a vote. -/
def digestRound (h : List Word) (added : Word) : List Word :=
  let at' := fun i => h.getD i 0
  let choice := (at' 5 ^^^ at' 6) &&& at' 4 ^^^ at' 6
  let vote := (at' 0 ||| at' 1) &&& at' 2 ||| at' 0 &&& at' 1
  let step := at' 7 + added + choice + rotations (at' 4) [6, 11, 25]
  (step + vote + rotations (at' 0) [2, 13, 22]) :: h.take 3 ++ (at' 3 + step) :: (h.drop 4).take 3

/-- A number from bytes, most significant first. -/
def ofBigEndian (bs : List Byte) : Nat := bs.foldl (fun n b => 256 * n + b.toNat) 0

/-- One 64-byte block. -/
def digestBlock (h : List Word) (block : List Byte) : List Word :=
  let words := (List.range 16).map fun i => (BitVec.ofNat 32 (ofBigEndian ((block.drop (4 * i)).take 4)) : Word)
  let sums := (expandBlock 48 words.reverse).reverse.zipWith (· + ·) roundAddends
  h.zipWith (· + ·) (sums.foldl digestRound h)

/-- The padding after a message of `n` bytes: one bit, zeros, and its length in bits. -/
def digestPadding (n : Nat) : List Byte :=
  0x80 :: (List.replicate ((119 - n % 64) % 64) 0 ++ (bytesOf (8 * n) 8).reverse)

/-- Blocks of a padded message. -/
def digestBlocks : Nat → List Byte → List Word → List Word
  | 0, _, h => h
  | n + 1, bs, h => digestBlocks n (bs.drop 64) (digestBlock h (bs.take 64))

/-- The SHA-256 digest of a message, as the number whose first byte is the most significant. -/
def sha256 (msg : List Byte) : BitVec 256 :=
  let bs := msg ++ digestPadding msg.length
  BitVec.ofNat 256 ((digestBlocks (bs.length / 64) bs digestStart).foldl (fun n w => 2 ^ 32 * n + w.toNat) 0)

end Sys2Proof.Machine
end

