-- ==== Sys2Proof/Machine/Decoder.lean ====
section
/-! DEFINITION. The decode engine (R370 to R372): the streams it supports, concealment, the picture's layout, the status record. -/

namespace Sys2Proof.Machine

/-! ## What is supported (R370) -/

def Picture.ten (p : Config.Picture) : Bool := p.depth > 8
def Picture.mono (p : Config.Picture) : Bool := p.chromaFormat = 0

/-- Whether a picture of a codec is one of those in the table of R370. -/
def Picture.supported (codec : Nat) (p : Config.Picture) : Bool :=
  !p.otherTools && match codec, p.profile with
    | 0, .constrainedBaseline | 0, .main | 0, .high => p.depth = 8 && p.chromaFormat = 1 && !p.fieldCoded && p.level ≤ 62
    | 1, .main => p.depth = 8 && p.chromaFormat = 1 && !p.fieldCoded && p.level ≤ 62
    | 1, .main10 => 8 ≤ p.depth && p.depth ≤ 10 && p.chromaFormat = 1 && !p.fieldCoded && p.level ≤ 62
    | 2, .main => (p.depth = 8 || p.depth = 10) && p.chromaFormat ≤ 1 && p.level ≤ 63
    | _, _ => false

/-! ## Damage and concealment (R372) -/

/-- The blocks that are concealed: from a damaged one up to the next start of a slice or tile. -/
def concealedBlocks : Bool → List Config.CodedBlock → List Config.CodedBlock
  | _, [] => []
  | bad, b :: rest =>
    if b.error.isSome || (bad && !b.start) then b :: concealedBlocks true rest else concealedBlocks false rest

def Picture.damaged (p : Config.Picture) : List Config.CodedBlock := concealedBlocks false p.blocks

/-- The side of a block (DSIZE). -/
def blockSide : Config.BlockSize → Nat
  | .of16 => 16
  | .of32 => 32
  | .of64 => 64
  | .of128 => 128

/-- The ECODE of a broken rule. -/
def errorCode : Config.StreamError → Nat
  | .badSyntax => 1
  | .outOfRange => 2
  | .missingReference => 3
  | .truncatedUnit => 4

/-- The bit position and the ECODE of the first error; both 0 when there is none. -/
def Picture.firstError (p : Config.Picture) : BitVec 64 × Nat :=
  (p.blocks.findSome? (·.error)).elim (0, 0) fun e => (e.1, errorCode e.2)

def ceilDivN (a b : Nat) : Nat := (a + b - 1) / b

/-- The mid-grey of a bit depth. -/
def midGrey (ten : Bool) : Nat := if ten then 512 else 128

/-- The picture that a concealed block copies: the previous one of the stream, for an inter picture. -/
def Picture.source (p : Config.Picture) (last : Option Frame) : Option Frame := if p.intra then none else last

/-- A sample of rows, or mid-grey outside them. -/
def sampleAt (rows : List (List Nat)) (ten : Bool) (x y : Nat) : Nat := (rows.getD y []).getD x (midGrey ten)

/-- Whether a block of a list covers a luma sample. -/
def covered (bs : List Config.CodedBlock) (x y : Nat) : Bool :=
  bs.any fun b => b.x ≤ x && x < b.x + blockSide b.size && b.y ≤ y && y < b.y + blockSide b.size

/-- The picture as it is written: decoded samples, concealed blocks, and mid-grey chroma for monochrome (R371, R372). -/
def Picture.frame (p : Config.Picture) (last : Option Frame) : Frame :=
  let ten := Picture.ten p
  let bad := Picture.damaged p
  let src := Picture.source p last
  let hidden := fun (rows : Frame → List (List Nat)) (x y : Nat) =>
    src.elim (midGrey ten) fun f => sampleAt (rows f) ten x y
  { width := p.width, height := p.height, ten := ten
    luma := (List.range p.height).map fun y => (List.range p.width).map fun x =>
      if covered bad x y then hidden (·.luma) x y else sampleAt p.luma ten x y
    chroma := (List.range (ceilDivN p.height 2)).map fun y => (List.range (2 * ceilDivN p.width 2)).map fun x =>
      if Picture.mono p then midGrey ten
      else if covered bad (x / 2 * 2) (2 * y) then hidden (·.chroma) x y else sampleAt p.chroma ten x y }

/-! ## The layout of a picture and its status record (R371, R372) -/

/-- The bytes of a row of samples. -/
def sampleBytes (ten : Bool) (row : List Nat) : List Byte :=
  row.flatMap fun v => if ten then bytesOf (v % 1024) 2 else bytesOf v 1

/-- The rows of a picture: luma at the pitch, then the interleaved chroma plane. -/
def frameRows (f : Frame) (pitch : Nat) : Rows :=
  ((List.range f.height).zip f.luma).map (fun r => (pitch * r.1, sampleBytes f.ten r.2))
    ++ ((List.range f.chroma.length).zip f.chroma).map fun r =>
      (pitch * (ceilDivN f.height 16 * 16 + r.1), sampleBytes f.ten r.2)

/-- The bytes that the rows span. -/
def rowsEnd (r : Rows) : Nat := r.foldl (fun n e => if e.1 + e.2.length > n then e.1 + e.2.length else n) 0

/-- SHOWN: only an AV1 frame, codec 2, may be one that is not shown. -/
def Picture.shownIn (codec : Nat) (p : Config.Picture) : Bool := codec ≠ 2 || p.shown

/-- ORDER: the display frame number of AV1, else the picture order count, 32 bits wide, sign-extended (log 9). -/
def Picture.orderIn (codec : Nat) (p : Config.Picture) : Dword := if codec = 2 then p.order else (p.order.truncate 32).signExtend 64

/-- The status record of R372, for a picture and its concealed blocks. It has no field for the film grain parameters of R370, and the model
reports them nowhere (log 9). -/
def statusRecord (codec : Nat) (p : Config.Picture) (last : Option Frame) : List Byte :=
  let bit := fun (b : Bool) (n : Nat) => if b then 2 ^ n else 0
  let ok := Picture.supported codec p
  let bad := if ok then Picture.damaged p else []
  let err := if ok then Picture.firstError p else (0, 5)
  let first := bad.head?.elim (0, 0, 0) fun b => (b.x, b.y, blockSide b.size)
  let conceal := if bad.isEmpty then 0 else if (Picture.source p last).isSome then 1 else 2
  bytesOf (p.width % 65536 + 2 ^ 16 * (p.height % 65536) + bit (Picture.shownIn codec p) 32 + bit (Picture.ten p) 33 + bit p.intra 34) 8
    ++ bytesOf (Picture.orderIn codec p).toNat 8 ++ bytesOf (bad.length % 2 ^ 32) 8 ++ bytesOf err.1.toNat 8
    ++ bytesOf (first.1 % 65536 + 2 ^ 16 * (first.2.1 % 65536) + 2 ^ 32 * first.2.2 + 2 ^ 40 * conceal + 2 ^ 48 * err.2) 8
    ++ bytesOf 0 24

/-- The least context buffer of a codec for a picture size. -/
def contextNeed (codec : Nat) (p : Config.Picture) : Nat :=
  let twice := p.width * p.height * 3 * (if Picture.ten p then 2 else 1)
  ceilDivN ((if codec = 2 then 9 else 17) * twice) 2 + 4 * 2 ^ 20

/-! ## The operation -/

/-- Go on with the places of the pages of the context buffer, which the engine reads and writes. -/
def withContext (s : State) (op : Nat) (o : EngOp) : List Dword → (List Nat → State) → State
  | [], go => go []
  | va :: rest, go =>
    match globalSite s o .rmw va 64 with
    | .mem pa => withContext s op o rest fun l => go (pa :: l)
    | .fault va pte => pauseOp s op o va pte
    | .bad va cause => faultOp s op o va cause
    | .tile _ _ => s

/-- What the context buffer holds afterwards is the engine's own: free values (log 9). -/
def loseContext (s : State) (need : Nat) (pages : List Nat) : State :=
  ((List.range pages.length).zip pages).foldl (fun s e =>
    let (n, s) := freshFree s 1024
    let len := if need - 65536 * e.1 < 65536 then need - 65536 * e.1 else 65536
    writeBytes s e.2 ((List.range len).map fun i => (Config.freeValue (64 * n + i)).truncate 8)) s

/-- The end of a decode: the status record is written, the slot has its stream, and the operation completes. -/
def finishDec (s : State) (op : Nat) (o : EngOp) (record : List Byte) (code detail : Nat) (next : Stream) : State :=
  withSpan s op o (spanOf s o .store (o.desc.getD 6 0) 64) fun l =>
    let s := writePlaces s l record
    endOp { s with streams := Tab.write {} s.streams (bitsAt (o.word 1) 36 8) next } op (code ≠ Code.unsupported)
      (statusWord code 0 0 detail)

/-- The picture of an access unit goes to its rows, and is the slot's last picture. -/
def writeDec (s : State) (op : Nat) (o : EngOp) (unit : List Byte) (p : Config.Picture) (old : Stream) (rows : Rows) (f : Frame) : State :=
  let bad := Picture.damaged p
  let code := if bad.isEmpty then Code.done else Code.damaged
  let record := statusRecord (bitsAt (o.word 1) 32 2) p old.last
  let fin := fun (s : State) => finishDec s op o record code bad.length { units := old.units ++ [unit], last := some f }
  match o.dstTile with
  | none => writeRows s op o (o.desc.getD 4 0) rows fin
  | some t =>
    match o.wg.bind (wgByUid s) with
    | none => endOp s op false (statusWord Code.noroom 0 0 0)
    | some w =>
      let tl := opTile s o t
      fin (modWg s w fun g => rows.foldl (fun g r => spPut g (tl.base + o.word 4 + r.1) r.2) g)

/-- Decode the access unit and write its picture. -/
def decodeOp (s : State) (op : Nat) (o : EngOp) (unit : List Byte) : State :=
  let codec := bitsAt (o.word 1) 32 2
  let old := Tab.read {} s.streams (bitsAt (o.word 1) 36 8)
  let p := Config.decodeUnit codec old.units unit
  let pitch := bitsAt (o.word 5) 0 32
  let f := Picture.frame p old.last
  let rows := frameRows f pitch
  let need := contextNeed codec p
  let roomy : Bool := match o.dstTile with
    | some t => o.word 4 + rowsEnd rows ≤ (opTile s o t).size
    | none => true
  if !Picture.supported codec p then finishDec s op o (statusRecord codec p old.last) Code.unsupported 0 old
  else if o.word 3 < need || !roomy then endOp s op false (statusWord Code.noroom 0 0 0)
  else if pitch < p.width * (if Picture.ten p then 2 else 1) then endOp s op false (statusWord Code.invalid 0x28 0 0)
  else
    withContext s op o ((List.range (ceilDivN need 65536)).map fun i => o.desc.getD 2 0 + BitVec.ofNat 64 (65536 * i)) fun pages =>
      writeDec (loseContext s need pages) op o unit p old rows f

/-- DEC_COMPLETE. -/
def execDecComplete (op : Nat) (s : State) : Host.Outcome State Fault Refusal :=
  unitStep (match Tab.get? s.ops op with
    | none => s
    | some o =>
      if o.kind ≠ .dec || o.state ≠ .running then s
      else if outlived s o then endOp s op false (statusWord Code.terminated 0 0 0)
      else withSpan s op o (spanOf s o .load (o.desc.getD 0 0) (bitsAt (o.word 1) 0 32)) fun l =>
        decodeOp s op o (readPlaces s l))

end Sys2Proof.Machine
end

