-- ==== Sys2Proof/Machine/Pyramid.lean ====
section
/-! DEFINITION. The pyramid engine (R373, R374), the exchange unit (R368, R369) and `publ` (R366, R367). -/

namespace Sys2Proof.Machine

/-! ## Exact rationals -/

/-- The rational num / den, den positive. -/
structure Rat' where
  num : Int
  den : Nat

namespace Rat'
def add (a b : Rat') : Rat' := ⟨a.num * b.den + b.num * a.den, a.den * b.den⟩
def sub (a b : Rat') : Rat' := ⟨a.num * b.den - b.num * a.den, a.den * b.den⟩
def mul (a b : Rat') : Rat' := ⟨a.num * b.num, a.den * b.den⟩
/-- Division by a positive rational. -/
def div (a b : Rat') : Rat' := ⟨a.num * b.den, a.den * b.num.toNat⟩

/-- As a number to be rounded: 64 bits beyond the point where the quotient begins, and whether something is left. -/
def toEx (a : Rat') : Ex :=
  let k := 64 + Nat.log2 a.den
  let n := a.num.natAbs * 2 ^ k
  { neg := a.num < 0, mant := n / a.den, exp := -(k : Int), sticky := n % a.den ≠ 0 }
end Rat'

/-! ## The pyramid engine -/

namespace EngOp
def pw (o : EngOp) : Nat := bitsAt (o.word 1) 0 16
def ph (o : EngOp) : Nat := bitsAt (o.word 1) 16 16
def pstride (o : EngOp) : Nat := bitsAt (o.word 1) 32 16
def pten (o : EngOp) : Bool := bitsAt (o.word 1) 51 1 = 1
def pfull (o : EngOp) : Bool := bitsAt (o.word 1) 50 1 = 1
def pd8 (o : EngOp) : Bool := bitsAt (o.word 1) 52 1 = 1
def plevels (o : EngOp) : Nat := bitsAt (o.word 1) 53 3
def pscale (o : EngOp) : Int := signExt (bitsAt (o.word 1) 56 8) 8
end EngOp

/-- K_R and K_B in units of 1/10 000. -/
def lumaK (o : EngOp) : Int × Int :=
  match bitsAt (o.word 1) 48 2 with
  | 0 => (2990, 1140)
  | 1 => (2126, 722)
  | _ => (2627, 593)

/-- R, G and B of one pixel, exact. -/
def rgbOf (o : EngOp) (y cb cr : Int) : Rat' × Rat' × Rat' :=
  let q : Int := if o.pten then 4 else 1
  let top : Nat := if o.pten then 1023 else 255
  let luma : Rat' := if o.pfull then ⟨y, top⟩ else ⟨y - 16 * q, (219 * q).toNat⟩
  let chroma := fun (c : Int) => if o.pfull then Rat'.mk (c - 128 * q) top else Rat'.mk (c - 128 * q) (224 * q).toNat
  let (kr, kb) := lumaK o
  let r := luma.add ((chroma cr).mul ⟨2 * (10000 - kr), 10000⟩)
  let b := luma.add ((chroma cb).mul ⟨2 * (10000 - kb), 10000⟩)
  let g := ((luma.sub (r.mul ⟨kr, 10000⟩)).sub (b.mul ⟨kb, 10000⟩)).div ⟨10000 - kr - kb, 10000⟩
  (r, g, b)

/-- A plane of FP32 codes by rows. -/
abbrev Plane := List (List Nat)

def Plane.at (p : Plane) (x y : Nat) : Nat := (p.getD y []).getD x 0

/-- A number in units of 2⁻¹⁴⁹; the planes hold finite values. -/
def codeUnits (c : Nat) : Int := match decodeFmt .f32 c with | .fin e => f32Units e | _ => 0

/-- An index moved by `i - 2` and clamped. -/
def clampAt (n x i : Nat) : Nat := if x + i < 2 then 0 else if x + i - 2 > n - 1 then n - 1 else x + i - 2

/-- The weight of tap `i`, in sixteenths. -/
def tap (i : Nat) : Int := [1, 4, 6, 4, 1].getD i 0

/-- One sample of the next level. -/
def reduceAt (p : Plane) (w h x y : Nat) : Enc :=
  let sum : Int := (List.range 5).foldl (fun n j => (List.range 5).foldl (fun n i =>
    n + tap i * tap j * codeUnits (p.at (clampAt w (2 * x) i) (clampAt h (2 * y) j))) n) 0
  roundEx .f32 .rn false ((Ex.ofInt sum).scale (-157))

/-- A plane from a function, and the flags of its values. -/
def planeOf (w h : Nat) (f : Nat → Nat → Enc) : Plane × FlagSet :=
  let rows := (List.range h).map fun y => (List.range w).map fun x => f x y
  (rows.map fun r => r.map (·.code), joinFlags (rows.map fun r => joinFlags (r.map (·.flags))))

/-- ⌈n / 2ᵏ⌉. -/
def halved (n k : Nat) : Nat := (n + 2 ^ k - 1) / 2 ^ k

/-- Levels `k` to the last of one plane. -/
def levelsFrom (o : EngOp) : Nat → Nat → Plane → List Plane × FlagSet
  | 0, _, _ => ([], 0)
  | n + 1, k, p =>
    let (next, f) := planeOf (halved o.pw (k + 1)) (halved o.ph (k + 1))
      fun x y => reduceAt p (halved o.pw k) (halved o.ph k) x y
    let (rest, g) := if n = 0 then ([], 0) else levelsFrom o n (k + 1) next
    (p :: rest, if n = 0 then 0 else f ||| g)

/-- One output sample. -/
def outSample (o : EngOp) (c : Nat) : Enc :=
  match decodeFmt .f32 c with
  | .fin e => if o.pd8 then roundD8 .rn (e.scale (-o.pscale)) else roundEx .bf16 .rn false e
  | x => roundNum .bf16 .rn false x

/-- The byte length of a row of level `k`, and with its padding to 64. -/
def rowLen (o : EngOp) (k : Nat) : Nat := halved o.pw k * (if o.pd8 then 1 else 2)
def rowPitch (o : EngOp) (k : Nat) : Nat := (rowLen o k + 63) / 64 * 64

/-- The offset of plane `c` of level `k` from OUT. -/
def planeAt (o : EngOp) (k c : Nat) : Nat :=
  (List.range k).foldl (fun n i => n + 3 * (rowPitch o i * halved o.ph i)) 0 + c * (rowPitch o k * halved o.ph k)

/-- The rows of one plane of one level, and the flags of their rounding. -/
def outPlane (o : EngOp) (k c : Nat) (p : Plane) : Rows × FlagSet :=
  let size := if o.pd8 then 1 else 2
  let enc := p.map fun r => r.map (outSample o)
  (((List.range p.length).zip enc).map fun r =>
      (planeAt o k c + rowPitch o k * r.1, r.2.flatMap fun e => bytesOf e.code size),
   joinFlags (enc.map fun r => joinFlags (r.map (·.flags))))

/-- Every row and flag of a pyramid, from the samples of the source: luma, then interleaved chroma. -/
def pyramid (o : EngOp) (luma chroma : List (List Nat)) : Rows × FlagSet :=
  let px := fun (x y : Nat) =>
    let cr := chroma.getD (y / 2) []
    rgbOf o ((luma.getD y []).getD x 0) (cr.getD (2 * (x / 2)) 0) (cr.getD (2 * (x / 2) + 1) 0)
  let plane := fun (f : Rat' × Rat' × Rat' → Rat') =>
    planeOf o.pw o.ph fun x y => roundEx .f32 .rn false (f (px x y)).toEx
  let base := [plane (·.1), plane (·.2.1), plane (·.2.2)]
  let all := ((List.range 3).zip base).map fun b =>
    let lv : List Plane × FlagSet := levelsFrom o o.plevels 0 b.2.1
    let outs : List (Rows × FlagSet) := ((List.range lv.1.length).zip lv.1).map fun l => outPlane o l.1 b.1 l.2
    (outs.flatMap (·.1), b.2.2 ||| lv.2 ||| joinFlags (outs.map (·.2)))
  (all.flatMap (·.1), joinFlags (all.map (·.2)))

/-- The samples of a row of bytes. -/
def samplesOf (o : EngOp) : List Byte → List Nat
  | a :: b :: r => if o.pten then (a.toNat + 256 * b.toNat) % 1024 :: samplesOf o r else a.toNat :: samplesOf o (b :: r)
  | [a] => [a.toNat]
  | [] => []

/-- Read rows of a source picture, then go on. -/
def readRows (s : State) (op : Nat) (o : EngOp) (len : Nat) : List Nat → (List (List Nat) → State) → State
  | [], go => go []
  | off :: rest, go =>
    withSpan s op o (spanOf s o .load (o.desc.getD 0 0 + BitVec.ofNat 64 off) len) fun l =>
      readRows s op o len rest fun r => go (samplesOf o (readPlaces s l) :: r)

/-- PYR_COMPLETE: the whole pyramid is computed and written, and the operation completes with its flags. -/
def execPyrComplete (op : Nat) (s : State) : Host.Outcome State Fault Refusal :=
  unitStep (match Tab.get? s.ops op with
    | none => s
    | some o =>
      if o.kind ≠ .pyr || o.state ≠ .running then s
      else if outlived s o then endOp s op false (statusWord Code.terminated 0 0 0)
      else
        let len := o.pw * (if o.pten then 2 else 1)
        let base := ceilDivN o.ph 16 * 16
        readRows s op o len ((List.range o.ph).map (o.pstride * ·)) fun luma =>
          readRows s op o len ((List.range (o.ph / 2)).map fun i => o.pstride * (base + i)) fun chroma =>
            let (rows, fl) := pyramid o luma chroma
            writeRows s op o (o.desc.getD 2 0) rows fun s => endOp s op true (statusWord Code.done 0 fl.toNat 0))

/-! ## The exchange unit (R368, R369) -/

def engineTrap (cause : Nat) : TrapRec := trapOf Trap.engine cause

/-- The cores of a gang: 2 or 4. -/
def gangCores (g : Wg) : Nat := if g.gang = 1 then 2 else 4

/-- Write data into the shadow window of the member with a rank; a member that has ended takes nothing. What a thread sends after its
arrival at `gbar` (`late`: a trap handler may do so) is for the next shadow (R212, log 62). -/
def sendTo (s : State) (g : Wg) (late : Bool) (rank off n v : Nat) : State :=
  let core := g.core / gangCores g * gangCores g + rank
  match s.wgs.find? fun e => e.2.launch = g.launch && e.2.core = core with
  | some (w, m) =>
    let a := m.pad * 256 - 16384 + off
    putWg s w (if late then { m with lateXst := m.lateXst ++ [(a, bytesOf v n)] } else spWrite m a n v)
  | none => s

def execXst (x : Args) (wide : Bool) (s : State) : Host.Outcome State Fault Refusal :=
  issue (.xst x wide) x false s fun c s =>
    if !c.on then .done s {}
    else match wgOf s c.tr with
      | none => .trap s (engineTrap 1)
      | some g =>
        let n := if wide then 8 else 4
        let rank := fun t => (rdOpnd c x.a .b32 t).toNat
        let off := fun t => (rdOpnd c x.b .b32 t).toNat
        if g.gang = 0 then .trap s (engineTrap 1)
        else if c.lanes.any fun t => rank t ≥ gangCores g || off t % n ≠ 0 || off t + n > 16384 then .trap s (engineTrap 2)
        else
          let late := fun t => if x.u then c.tr.selected &&& ~~~(arrivedGbar c.tr) = 0 else (arrivedGbar c.tr).getLsbD t
          .done (c.lanes.foldl (fun s t =>
            sendTo s g (late t) (rank t) (off t) n (rdOpnd c x.c (if wide then .n64 else .b32) t).toNat) (performEarlier s c.k)) {}

/-! ## Buffer pairs (R366, R367) -/

/-- The entry of the level-3 table for an address: its physical address, a fault where the walk to it stops, or a table that
breaks a rule. -/
inductive Leaf where
  | at (ea : Nat)
  | fault (pte : Nat)
  | bad

def leafFrom (s : State) (va : Nat) : List Level → Nat → Leaf
  | [], _ => .bad
  | l :: ls, table =>
    let ea := table + 8 * bitsAt va l.lo l.bits
    if ls.isEmpty then .at ea
    else if !reachable s ea then .bad
    else
      let e := readMem s ea 8
      if e % 2 = 0 then .fault ea
      else if bitsAt e 1 1 = 1 || entryAddr e % l.next ≠ 0 || bitsAt e 45 19 ≠ 0 then .bad
      else leafFrom s va ls (entryAddr e)

def leafOf (s : State) (asid : Nat) (va : Dword) : Leaf :=
  let r := (Tab.read 0 s.roots asid).toNat
  if r % 2 = 0 then .fault (2 ^ 60 + asid) else leafFrom s va.toNat levels (bitsAt r 16 29 * 2 ^ 16)

/-- Whether a leaf of the front (or shadow) range passes: V, LEAF, KIND 0 or 1, its permissions. -/
def pairLeafOk (front : Bool) (e : Nat) : Bool :=
  e % 2 = 1 && bitsAt e 1 1 = 1 && bitsAt e 6 2 ≤ 1 && bitsAt e 45 19 = 0 && entryAddr e % 65536 = 0
    && (if front then bitsAt e 2 1 = 1 else bitsAt e 2 1 = 0 && bitsAt e 3 1 = 1)

/-- What the check of a pair answers. -/
inductive PairCheck where
  | ok (l : List (Nat × Nat))
  | fault (va : Dword) (pte : Nat)
  | bad

/-- Check the leaves of the pages from the first; the entries of every pair of pages. -/
def pairLeaves (s : State) (asid : Nat) : Nat → Dword → Dword → PairCheck
  | 0, _, _ => .ok []
  | n + 1, f, h =>
    match leafOf s asid f, leafOf s asid h with
    | .fault pte, _ => .fault f pte
    | _, .fault pte => .fault h pte
    | .at a, .at b =>
      let ea := readMem s a 8
      let eb := readMem s b 8
      if !reachable s a || !reachable s b || !pairLeafOk true ea || !pairLeafOk false eb || bitsAt ea 5 1 ≠ bitsAt eb 5 1 then .bad
      else match pairLeaves s asid n (f + 65536) (h + 65536) with
        | .ok l => .ok ((a, b) :: l)
        | r => r
    | _, _ => .bad

/-- The bits of an entry that `publ` exchanges: ADDR [44:8] and KIND [7:6]. -/
def pairBits (e : Nat) : Nat := bitsAt e 6 39

/-- Exchange ADDR and KIND of two entries. -/
def swapLeaves (s : State) (p : Nat × Nat) : State :=
  let a := readMem s p.1 8
  let b := readMem s p.2 8
  writeMem (writeMem s p.1 8 (a - 64 * pairBits a + 64 * pairBits b)) p.2 8 (b - 64 * pairBits b + 64 * pairBits a)

/-- Whether a page of a size shares an address with a range. -/
def pageTouches (page size lo len : Nat) : Bool := page < lo + len && lo < page + size

/-- Remove the translations of a range from every cache of the module; an operation that holds one for a target page completes
REMAPPED (R360, R367, R402). -/
def dropTranslations (s : State) (asid lo len : Nat) : State :=
  let s := { s with cores := s.cores.map fun e =>
      (e.1, { e.2 with utlb := e.2.utlb.filter fun t => !(t.asid = asid && pageTouches t.page t.size lo len) }) }
  endOpsWhere s (fun o => o.asid = asid && o.unfinished && o.pages.any fun p => pageTouches p.1 p.2 lo len) Code.remapped

/-- The requests to other modules that trains of some ASIDs await (R207). -/
def requestsOf (s : State) (p : Nat → Bool) : List Nat :=
  (s.remote.filter fun e => (trainByUid s e.2.uid).any fun t => p t.2.asid).map (·.1)

/-- The swap of a pair, as one act: what was issued with the old translations has been performed, and what waits on the pair reads the
new pages from now on (R211). -/
def publish (s : State) (asid pa front shadow n : Nat) (l : List (Nat × Nat)) : State :=
  let s := l.foldl swapLeaves (settleAsids s (· = asid))
  let s := dropTranslations (dropTranslations s asid front (n * 65536)) asid shadow (n * 65536)
  let s := renewWaits s (· = asid)
  let pubs := (readMem s (pa + 0x18) 4 + 1) % 2 ^ 32
  let flip := readMem s (pa + 0x1C) 1
  writeMem (writeMem s (pa + 0x18) 4 pubs) (pa + 0x1C) 1 (if flip % 2 = 0 then flip + 1 else flip - 1)

/-- Whether every page of a range of at most 2^32 bytes is canonical: both of its ends are, and it ends within the address space (R153). -/
def canonicalRange (lo len : Nat) : Bool :=
  lo + len ≤ 2 ^ 64 && canonicalVa (BitVec.ofNat 64 lo) && canonicalVa (BitVec.ofNat 64 (lo + len - 1))

def execPubl (x : Args) (sc : Scope) (s : State) : Host.Outcome State Fault Refusal :=
  issue (.publ x sc) x false s fun c s =>
    if !c.on then .done s {}
    else withRecord c (performEarlier s c.k) .rmw 64 (rdOpnd c x.a .n64 uniTid) fun s pa =>
      let front := readMem s pa 8
      let shadow := readMem s (pa + 8) 8
      let n := readMem s (pa + 0x10) 4
      if front % 65536 ≠ 0 || shadow % 65536 ≠ 0 || n = 0 || n > 65536
          || !canonicalRange front (n * 65536) || !canonicalRange shadow (n * 65536)
          || overlaps front (n * 65536) shadow (n * 65536) then
        .trap s (engineTrap 3)
      else match pairLeaves s c.tr.asid n (BitVec.ofNat 64 front) (BitVec.ofNat 64 shadow) with
        | .fault va pte => .left (park s c.k c.head va 0 pte c.tr.pc 0)
        | .bad => .trap s (engineTrap 3)
        | .ok l => match requestsOf s (· = c.tr.asid) with
          | [] => .done (publish s c.tr.asid pa front shadow n l) {}
          | ids => .blocked s (.remote ids)

end Sys2Proof.Machine
end

