-- ==== Sys2Proof/Machine/Image.lean ====
section
/-! DEFINITION. The Depot image of a workgroup (R391, R392): its layout, and what a restore takes from it. -/

namespace Sys2Proof.Machine

/-- XST of a lane: LSTATE and LK. -/
def xstWord (tr : Train) (t : Nat) : Dword :=
  BitVec.ofNat 64 (xstate tr t + (List.range 8).foldl (fun n i =>
    if i ≠ 0 ∧ (Tab.read 0 tr.xk i).getLsbD t then n + 2 ^ (3 + i) else n) 0)

/-- A dword of a trap record (R378). -/
def TrapRec.dword (r : TrapRec) (i : Nat) : Dword :=
  match i with
  | 0 => BitVec.ofNat 64 (r.kind + 2 ^ 8 * r.cause + 2 ^ 16 * r.flagw.toNat + (if r.async then 2 ^ 23 else 0)
      + 2 ^ 24 * r.overrun + 2 ^ 32 * r.detail.toNat)
  | 1 => keepBits r.pc 0 48
  | 2 => keepBits r.rpc 0 48
  | 3 => r.mask
  | 4 => r.addr
  | 5 => r.aux0
  | 6 => r.aux1
  | 7 => r.aux2
  | _ => 0

/-- The record of eight dwords (R378). -/
def TrapRec.ofDwords (d : Nat → Nat) : TrapRec :=
  { kind := bitsAt (d 0) 0 8, cause := bitsAt (d 0) 8 8, flagw := BitVec.ofNat 7 (bitsAt (d 0) 16 7), async := bitsAt (d 0) 23 1 = 1
    overrun := bitsAt (d 0) 24 4, detail := BitVec.ofNat 32 (bitsAt (d 0) 32 32), pc := BitVec.ofNat 64 (bitsAt (d 1) 0 48)
    rpc := BitVec.ofNat 64 (bitsAt (d 2) 0 48), mask := BitVec.ofNat 64 (d 3), addr := BitVec.ofNat 64 (d 4)
    aux0 := BitVec.ofNat 64 (d 5), aux1 := BitVec.ofNat 64 (d 6), aux2 := BitVec.ofNat 64 (d 7) }

/-! ## Images as tables of bytes by offset -/

/-- An image under construction: its bytes that are not zero. -/
abbrev Img := Tab Byte

def Img.putN (m : Img) (off n v : Nat) : Img := Tab.writeList 0 m off (bytesOf v n)
def Img.getN (m : Img) (off n : Nat) : Nat := ofBytes (Tab.readList 0 m off n)
def Img.putWords (m : Img) (off : Nat) (ws : Tab Word) : Img := ws.foldl (fun m e => Img.putN m (off + 4 * e.1) 4 e.2.toNat) m
def Img.putDwords (m : Img) (off : Nat) (ds : Tab Dword) : Img := ds.foldl (fun m e => Img.putN m (off + 8 * e.1) 8 e.2.toNat) m

/-- The words of a section that are not zero, by index. -/
def Img.words (m : Img) (off n : Nat) : Tab Word :=
  m.foldl (fun ws e =>
    if off ≤ e.1 && e.1 < off + 4 * n then
      let i := (e.1 - off) / 4
      Tab.write 0 ws i (Tab.read (0 : Word) ws i ||| ((e.2.zeroExtend 32 : Word) <<< (8 * ((e.1 - off) % 4))))
    else ws) []

/-- The bytes of a section that are not zero, by offset in the section. -/
def Img.section (m : Img) (off n : Nat) : Tab Byte :=
  (m.filter fun e => off ≤ e.1 && e.1 < off + n).map fun e => (e.1 - off, e.2)

/-! ## Sizes (R391) -/

def uniGrans (sgran : Nat) : Nat := if sgran = 0 then 1 else sgran
/-- TSZ. -/
def trainSize (g : Wg) : Nat := 0x1800 + 64 * uniGrans g.sgran + 2048 * g.vgran
def bankSection (g : Wg) : Nat := 0x800 + g.ntrains * trainSize g
def padSection (g : Wg) : Nat := bankSection g + 6144 * g.used.length
/-- The bytes of a workgroup's image. -/
def imageSize (g : Wg) : Nat := padSection g + 256 * g.pad

/-! ## Writing -/

/-- The index of a bank within the image's bank section. -/
def bankIndex (g : Wg) (b : Nat) : Nat := (g.used.idxOf? b).getD 0

/-- A queue descriptor (R232). -/
def putQueue (m : Img) (e : Nat × QDesc) : Img :=
  let d := e.2
  Img.putN (Img.putN m (0x100 + 16 * e.1) 8
    ((if d.bound then 1 else 0) + 2 * d.base + 2 ^ 16 * d.size + 2 ^ 32 * d.count)) (0x108 + 16 * e.1) 8 d.head

/-- A tile descriptor. -/
def putTile (m : Img) (e : Nat × Tile) : Img :=
  Img.putN m (0x200 + 8 * e.1) 8 (e.2.base + 2 ^ 22 * e.2.state + 2 ^ 24 * e.2.size)

/-- The names that are bound to banks (R137, R146): those of an unstarted `afree` still are, those of a blocked `aalloc` are not yet. -/
def boundNames (g : Wg) : Tab AccBind :=
  g.mq.foldl (fun t e => match e.instr with
    | .afree x => e.banks.zipIdx.foldl (fun t b => if isPending b.1.bank then t else Tab.put t (accNum x.d + b.2) b.1) t
    | _ => t) (g.accs.filter fun a => !isPending a.2.bank)

/-- The binding of a name. -/
def putBind (g : Wg) (m : Img) (e : Nat × AccBind) : Img :=
  Img.putN m (0x400 + 2 * e.1) 2 (1 + 2 * bankIndex g e.2.bank + 2 ^ 9 * e.2.check.elim 0 (bankIndex g))

/-- The weight latch. -/
def putLatch (m : Img) : Option WLatch → Img
  | none => m
  | some w => Tab.writeList 0 (Img.putN m 0x480 8 (w.ty.code + 16 + 2 ^ 5 * w.tile)) 0x4C0 w.scales

/-- A matrix-queue entry. -/
def putEntry (m : Img) (i : Nat) (e : MqEntry) : Img :=
  let m := Tab.writeList 0 m (0x500 + 32 * i) (encodeBytes e.instr)
  Img.putN (Img.putN m (0x510 + 32 * i) 8 e.pc.toNat) (0x518 + 32 * i) 1 (128 + e.trn)

def putEntries (m : Img) : Nat → List MqEntry → Img
  | _, [] => m
  | i, e :: es => putEntries (putEntry m i e) (i + 1) es

/-- A bank's elements. -/
def putBank (acc : Tab F48) (off b : Nat) (m : Img) : Img :=
  (acc.filter fun e => e.1 / 1024 = b).foldl (fun m e =>
    Img.putN m (off + 384 * (e.1 % 1024 / 64) + 6 * (e.1 % 64)) 6 e.2.toNat) m

def putBanks (acc : Tab F48) : Nat → List Nat → Img → Img
  | _, [], m => m
  | off, b :: bs, m => putBanks acc (off + 6144) bs (putBank acc off b m)

/-- The header and the descriptors. -/
def putHeader (g : Wg) (hdrVA : Dword) (agen clk : Nat) (hwimg : Bool) (m : Img) : Img :=
  let m := Img.putN m 0 8 (1 + 2 ^ 8 + (if g.red then 2 ^ 9 else 0) + (if hwimg then 2 ^ 10 else 0) + 2 ^ 16 * g.ntrains
    + 2 ^ 21 * g.vgran + 2 ^ 27 * g.sgran + 2 ^ 32 * g.pad + 2 ^ 47 * g.used.length)
  let m := Img.putN m 8 8 hdrVA.toNat
  let m := Img.putN m 0x10 8 (g.wgid + 2 ^ 8 * g.core + 2 ^ 16 * g.asid + 2 ^ 28 * g.part + 2 ^ 34 * agen)
  let m := Img.putN m 0x18 8 clk
  let m := (List.range 8).foldl (fun m i => Img.putN m (0x40 + 8 * i) 8 ((g.stageTab.getD []).getD i 0).toNat) m
  let m := (List.range 16).foldl (fun m i => Img.putN m (0x80 + 8 * i) 8 (g.grants.getD i 0).toNat) m
  let m := g.tiles.foldl putTile (g.queues.foldl putQueue m)
  let m := putLatch ((boundNames g).foldl (putBind g) m) g.wlatch
  putEntries (Img.putN (Img.putN m 0x488 8 g.resv) 0x490 8 (tprogWord g.tprog).toNat) 0 g.mq

/-- Whether a train waits for the reply to its `svc`, and the token. -/
def svcWait (tr : Train) : Option Nat := match tr.block with | some (.svcReply t) => some t | _ => none

/-- A train section at an offset (R392). -/
def putSection (g : Wg) (o : Nat) (tr : Train) (m : Img) : Img :=
  let bit := fun (b : Bool) (n : Nat) => if b then 2 ^ n else 0
  let m := Img.putN m o 8 (bit tr.priv 0 + bit tr.intrap 1 + bit tr.ppriv 2 + 2 ^ 4 * tr.tq.length + 2 ^ 8 * tr.stage)
  let m := Img.putN m (o + 0x08) 8 (tr.marks.foldl (fun n e => if e.2 = .told then n else n + 2 ^ e.1) 0)
  let m := Img.putN (Img.putN m (o + 0x10) 8 tr.flags.toNat) (o + 0x18) 8 (2 * bitsAt tr.g.toNat 1 7)
  let m := Img.putN m (o + 0x20) 8 (bitsAt tr.rowprog.pc.toNat 0 48 + 2 ^ 48 * tr.rowprog.rows + bit tr.rowprog.valid 63)
  let m := Img.putN m (o + 0x28) 8 (tr.deadline.getD (2 ^ 64 - 1))
  let m := Img.putN (Img.putN m (o + 0x30) 8 ((tr.gidx - g.taken) % 32)) (o + 0x38) 8 tr.wkid.toNat
  let m := Img.putN m (o + 0x40) 8 (tr.task.getD 0).toNat
  let m := Img.putDwords m (o + 0x48) tr.xs
  let m := Img.putN m (o + 0x68) 8 ((svcWait tr).elim 0 fun t => t + 2 ^ 32)
  let m := tids.foldl (fun m t => Img.putN m (o + 0x80 + 8 * t) 8 (bitsAt (pcOf tr t).toNat 0 48 + 2 ^ 48 * (laneState tr t).toNat)) m
  let m := tids.foldl (fun m t =>
    Img.putN m (o + 0x280 + 8 * t) 8 (bitsAt (Tab.read 0 tr.xpc t).toNat 0 48 + 2 ^ 48 * xstate tr t)) m
  let m := tr.k.foldl (fun m e => Img.putN m (o + 0x480 + 8 * (e.1 - 1)) 8 e.2.toNat) m
  let m := tr.xk.foldl (fun m e => Img.putN m (o + 0x4C0 + 8 * (e.1 - 1)) 8 e.2.toNat) m
  let m := Img.putN m (o + 0x4F8) 8 tr.xg.toNat
  let m := (List.range tr.tq.length).foldl (fun m r => (List.range 8).foldl (fun m i =>
    Img.putN m (o + 0x500 + 64 * r + 8 * i) 8 ((tr.tq.getD r {}).dword i).toNat) m) m
  Img.putWords (Img.putDwords (Img.putWords m (o + 0x800) tr.o) (o + 0x1800) tr.s) (o + 0x1800 + 64 * uniGrans g.sgran) tr.v

/-- The section of a train that has ended: every thread EXITED. -/
def putEnded (o : Nat) (m : Img) : Img := tids.foldl (fun m t => Img.putN m (o + 0x80 + 8 * t) 8 (2 ^ 50)) m

/-- The image of a workgroup with its trains: `agen` is the generation of its ASID at the save. -/
def imageOf (acc : Tab F48) (g : Wg) (trains : List Train) (hdrVA : Dword) (agen clk : Nat) (hwimg : Bool) : Img :=
  let m := putHeader g hdrVA agen clk hwimg []
  let m := (List.range g.ntrains).foldl (fun m i => match trains.find? (·.trn = i) with
    | some tr => putSection g (0x800 + i * trainSize g) tr m
    | none => putEnded (0x800 + i * trainSize g) m) m
  let m := putBanks acc (bankSection g) g.used m
  g.sp.foldl (fun m e => Tab.write 0 m (padSection g + e.1) e.2) m

/-! ## Where an image lies -/

/-- Pages of 64 KiB or more: the pieces of an image that no page boundary cuts. -/
def imageChunks (va : Dword) (size : Nat) : List (Nat × Nat) :=
  let first := 65536 - va.toNat % 65536
  if size ≤ first then [(0, size)]
  else (0, first) :: (List.range ((size - first + 65535) / 65536)).map fun i =>
    (first + 65536 * i, if size - first - 65536 * i < 65536 then size - first - 65536 * i else 65536)

/-- The pieces of an image at a virtual address with their physical addresses; none unless all are reached. -/
def imagePlaces (s : State) (part asid : Nat) (acc : Access) (va : Dword) (size : Nat) : Option (List (Nat × Nat × Nat)) :=
  (imageChunks va size).foldr (fun c rest => match rest, unitAccess s part asid true acc (va + BitVec.ofNat 64 c.1) 1 with
    | some l, .mem pa => some ((c.1, c.2, pa) :: l)
    | _, _ => none) (some [])

/-- Put a piece of an image into memory. -/
def putImagePiece (s : State) (m : Img) (p : Nat × Nat × Nat) : State :=
  let mem := s.mem.filter fun e => !(p.2.2 ≤ e.1 && e.1 < p.2.2 + p.2.1)
  let bytes := m.filter fun e => p.1 ≤ e.1 && e.1 < p.1 + p.2.1
  { s with mem := bytes.foldl (fun mem e => Tab.write unwritten mem (p.2.2 + (e.1 - p.1)) e.2) mem }

/-- A piece of an image from memory. -/
def getImagePiece (s : State) (m : Img) (p : Nat × Nat × Nat) : Img :=
  (s.mem.filter fun e => p.2.2 ≤ e.1 && e.1 < p.2.2 + p.2.1).foldl (fun m e => Tab.write 0 m (p.1 + (e.1 - p.2.2)) e.2) m

/-- The pieces of a saved workgroup's image. -/
def Saved.pieces (s : State) (sv : Saved) : List (Nat × Nat × Nat) :=
  match sv.place with
  | none => [(0, sv.size, sv.image)]
  | some (asid, va) => (imagePlaces s sv.wg.part asid .store va sv.size).getD []

/-- Write `n` bytes of a number into a saved workgroup's image. -/
def Saved.poke (s : State) (sv : Saved) (off n v : Nat) : State :=
  match sv.pieces s |>.find? fun p => p.1 ≤ off && off < p.1 + p.2.1 with
  | some p => writeMem s (p.2.2 + (off - p.1)) n v
  | none => s

/-! ## A reply to a saved train (R386) -/

/-- SVCDONE and SVCVAL of its image receive the reply. -/
def replySaved (s : State) (uid : Nat) (value : Dword) : State :=
  match s.saved.find? fun e => e.2.trains.any (·.uid = uid) with
  | none => s
  | some (i, sv) => match sv.trains.find? (·.uid = uid) with
    | none => s
    | some tr =>
      let o := 0x800 + tr.trn * trainSize sv.wg
      let s := sv.poke (sv.poke s (o + 0x70) 8 value.toNat) (o + 0x6C) 1 3
      let trains := sv.trains.map fun t => if t.uid = uid then { t with block := none } else t
      { s with saved := Tab.put s.saved i { sv with trains := trains } }

/-! ## Reading -/

/-- The marks of an image: bit `n` of FMARK marks `s`n, which holds the handle (R261). -/
def readMarks (m : Img) (o : Nat) (tr : Train) : Tab Mark :=
  (List.range 64).foldl (fun t n =>
    if bitsAt (Img.getN m (o + 8) 8) n 1 = 1 then Tab.put t n (.pending (BitVec.ofNat 64 (Img.getN m (o + 0x1800 + 8 * n) 8)))
    else t) (tr.marks.filter fun e => e.2 = .told)

/-- A table of dwords from an offset, by index. -/
def readDwords (m : Img) (o first n : Nat) : Tab Dword :=
  (List.range n).foldl (fun t i => Tab.write 0 t (first + i) (BitVec.ofNat 64 (Img.getN m (o + 8 * i) 8))) []

/-- The threads of an image in a state. -/
def readState (m : Img) (o code : Nat) : Mask := maskOf fun t => bitsAt (Img.getN m (o + 0x80 + 8 * t) 8) 48 3 = code

/-- The place of a train's next DISP = 1 grant: the one that GIDX gives, which holds its low 5 bits (R392). -/
def readGidx (g : Wg) (tr : Train) (gidx : Nat) : Nat := if (tr.gidx - g.taken) % 32 = gidx then tr.gidx else g.taken + gidx

/-- The train of a section (R392); what the image does not hold is as it was at the save. -/
def readTrain (m : Img) (g : Wg) (tr : Train) : Train :=
  let o := 0x800 + tr.trn * trainSize g
  let w := fun off => Img.getN m (o + off) 8
  let dl := w 0x28
  { tr with
    priv := bitsAt (w 0) 0 1 = 1, intrap := bitsAt (w 0) 1 1 = 1, ppriv := bitsAt (w 0) 2 1 = 1, stage := bitsAt (w 0) 8 2
    tq := (List.range (bitsAt (w 0) 4 4)).map fun r => TrapRec.ofDwords fun i => w (0x500 + 64 * r + 8 * i)
    marks := readMarks m o tr
    flags := BitVec.ofNat 7 (w 0x10), g := BitVec.ofNat 8 (1 + 2 * bitsAt (w 0x18) 1 7)
    rowprog := { pc := BitVec.ofNat 64 (bitsAt (w 0x20) 0 48), rows := bitsAt (w 0x20) 48 11, valid := bitsAt (w 0x20) 63 1 = 1 }
    deadline := if dl = 2 ^ 64 - 1 then none else some dl
    gidx := readGidx g tr (bitsAt (w 0x30) 0 5), wkid := BitVec.ofNat 64 (w 0x38)
    task := if w 0x40 = 0 then none else some (BitVec.ofNat 64 (w 0x40))
    xs := readDwords m (o + 0x48) 0 4
    xbar := if bitsAt (w 0) 1 1 = 1 then tr.xbar else 0, xgbar := if bitsAt (w 0) 1 1 = 1 then tr.xgbar else 0
    exited := readState m o 4, heldBar := readState m o 2, heldGbar := readState m o 3, selected := 0
    pcs := pcTable allThreads fun t => BitVec.ofNat 64 (bitsAt (w (0x80 + 8 * t)) 0 48)
    xpc := tids.foldl (fun tb t => Tab.write 0 tb t (BitVec.ofNat 64 (bitsAt (w (0x280 + 8 * t)) 0 48))) []
    xstate := tids.foldl (fun tb t => Tab.write 0 tb t (BitVec.ofNat 3 (bitsAt (w (0x280 + 8 * t)) 48 3))) []
    k := readDwords m (o + 0x480) 1 7, xk := readDwords m (o + 0x4C0) 1 7, xg := BitVec.ofNat 15 (2 * bitsAt (w 0x4F8) 1 14)
    o := Img.words m (o + 0x800) 1024, s := readDwords m (o + 0x1800) 0 (8 * uniGrans g.sgran)
    v := Img.words m (o + 0x1800 + 64 * uniGrans g.sgran) (512 * g.vgran)
    svctok := tr.svctok, chain := { tr.chain with len := 0, reads := [], selfWrite := false } }

/-- A queue descriptor of an image. -/
def readQueue (m : Img) (q : Nat) (old : QDesc) : QDesc :=
  let a := Img.getN m (0x100 + 16 * q) 8
  { bound := bitsAt a 0 1 = 1, base := bitsAt a 1 14, size := bitsAt a 16 15, count := bitsAt a 32 21
    head := bitsAt (Img.getN m (0x108 + 16 * q) 8) 0 20, epoch := old.epoch }

/-- A tile descriptor of an image. -/
def readTile (m : Img) (t : Nat) : Tile :=
  let a := Img.getN m (0x200 + 8 * t) 8
  { base := bitsAt a 0 22, state := bitsAt a 22 2, size := bitsAt a 24 23 }

/-- The binding of a name, in the banks that the restore took. -/
def readBind (m : Img) (banks : List Nat) (red : Bool) (n : Nat) : Option AccBind :=
  let a := Img.getN m (0x400 + 2 * n) 2
  if a % 2 = 0 then none
  else some { bank := banks.getD (bitsAt a 1 7) 0, check := if red then some (banks.getD (bitsAt a 9 7) 0) else none }

/-- The weight latch of an image. -/
def readLatch (m : Img) : Option WLatch :=
  let a := Img.getN m 0x480 8
  match bitsAt a 4 1, Ty.ofCode (bitsAt a 0 4) with
  | 1, some t => some { ty := t, tile := bitsAt a 5 6, scales := Tab.readList 0 m 0x4C0 64 }
  | _, _ => none

/-- TPROG of an image (R145). -/
def readTprog (m : Img) : TileProg :=
  let a := Img.getN m 0x490 8
  { step := bitsAt a 0 32, r := bitsAt a 32 8, k := bitsAt a 40 8, n := bitsAt a 48 8, active := bitsAt a 63 1 = 1 }

/-- The record of activation sources of the banks that the image holds (R148). -/
def ownSources (g : Wg) : Wg := { g with srcOf := g.srcOf.filter fun e => g.used.contains e.1 }

/-- The bank of a restored workgroup that holds what a bank held at the save; a bank still to be obtained keeps its number. -/
def movedBank (old new : List Nat) (b : Nat) : Nat := if isPending b then b else new.getD ((old.idxOf? b).getD 0) 0

/-- Whether entry `i` of an image is valid and still the instruction that was saved there. -/
def entryStands (m : Img) (i : Nat) (e : MqEntry) : Bool :=
  let bs := encodeBytes e.instr
  Tab.readList 0 m (0x500 + 32 * i) bs.length = bs && Img.getN m (0x510 + 32 * i) 8 = e.pc.toNat
    && Img.getN m (0x518 + 32 * i) 1 = 128 + e.trn

/-- The workgroup of an image, in these banks, with the matrix queue as it was at the save: the names of a blocked `aalloc` are those that
it will obtain, every other name is bound as the image says. GRANTS holds 16 grants: of a workgroup with more, its record keeps the later
ones (log 50). -/
def readWg (m : Img) (g : Wg) (banks : List Nat) : Wg :=
  let tab := (List.range 8).map fun i => (BitVec.ofNat 64 (Img.getN m (0x40 + 8 * i) 8) : Dword)
  let red : Bool := bitsAt (Img.getN m 0 8) 9 1 = 1
  let moved := renameBanks (movedBank g.used banks) (ownSources g)
  { moved with
    red := red
    stageTab := if tab.all (· = 0) then none else some tab
    queues := (List.range 16).foldl (fun t q => Tab.write {} t q (readQueue m q (qdesc g q))) []
    tiles := (List.range 64).foldl (fun t i => Tab.write {} t i (readTile m i)) []
    accs := (List.range 64).filterMap fun n => match (Tab.get? moved.accs n).filter fun b => isPending b.bank with
      | some b => some (n, b)
      | none => (readBind m banks red n).map fun b => (n, b)
    grants := (List.range g.grants.length).map fun i =>
      if i < 16 then BitVec.ofNat 64 (Img.getN m (0x80 + 8 * i) 8) else g.grants.getD i 0
    used := banks, resv := bitsAt (Img.getN m 0x488 8) 0 7, wlatch := readLatch m, tprog := readTprog m
    sp := Img.section m (padSection g) (256 * g.pad) }

/-- The elements of the banks of an image, in the banks that the restore took. -/
def readBanks (m : Img) (off : Nat) : List Nat → Tab F48 → Tab F48
  | [], acc => acc
  | b :: bs, acc =>
    let acc := acc.filter fun e => e.1 / 1024 ≠ b
    let sec := m.filter fun e => off ≤ e.1 && e.1 < off + 6144
    let acc := sec.foldl (fun acc e =>
      let r := e.1 - off
      let key := accKey b (r / 384) (r % 384 / 6)
      Tab.write 0 acc key (Tab.read (0 : F48) acc key ||| ((e.2.zeroExtend 48 : F48) <<< (8 * (r % 6))))) acc
    readBanks m (off + 6144) bs acc

end Sys2Proof.Machine
end

