-- ==== Sys2Proof/Machine/System.lean ====
section
/-! DEFINITION. The system class (R384 to R387, R399 to R402) and the system registers (R406, R407). -/

namespace Sys2Proof.Machine

/-! ## The fault buffer (R159, R160) -/

/-- The dwords of a fault buffer entry. -/
def FaultEnt.dword (f : FaultEnt) (i : Nat) : Dword :=
  match i with
  | 0 => f.va
  | 1 => BitVec.ofNat 64 (f.asid + 2 ^ 12 * f.part + 2 ^ 18 * f.kind + 2 ^ 20 * f.core + 2 ^ 22 * f.slot)
  | 2 => BitVec.ofNat 64 (f.pc.toNat % 2 ^ 48 + 2 ^ 48 * (f.links % 2 ^ 16))
  | _ => BitVec.ofNat 64 f.status

/-- The trains that are linked to an entry. -/
def linkedTo (s : State) (i : Nat) : List Nat :=
  trainsWhere s fun _ t => match t.block with | some (.fault j _ _ _ _) => j = i | _ => false

/-- The lanes that wait on an entry, each with its address (R418). -/
def lanesOn (s : State) (i : Nat) : List (Nat × Dword) :=
  s.parts.filterMap fun e => match e.2.lane.hold with
    | some (.fault c j va) => if c * 1024 + j = i then some (e.1, va) else none
    | _ => none

/-- The lanes that wait on an entry go on (R418). -/
def laneResolved (s : State) (i : Nat) : State :=
  (lanesOn s i).foldl (fun s e => modPart s e.1 fun q => { q with lane := { q.lane with hold := none } }) s

/-- REPLAY of an entry: its trains execute again from their chain heads, its operation resumes, its lanes go on. -/
def replayFault (s : State) (i : Nat) : State :=
  match Tab.get? s.faults i with
  | none => s
  | some f =>
    let s := laneResolved (freeFault ((linkedTo s i).foldl unblock s) i 1) i
    match f.op, f.op.bind (Tab.get? s.ops) with
    | some o, some { state := .owing st _, .. } => endOp s o true st
    | some o, some _ => modOp s o fun o => { o with state := .running }
    | _, _ => s

/-- UNRESOLVED at a parked train: the trap of a failed fault, which for a memory-form matrix instruction resumes behind it. -/
def failTrain (s : State) (k : Nat) : State :=
  match train? s k with
  | some { block := some (.fault _ va pc skip mask), rowprog := rp, pc := head, .. } =>
    let rows : Word := if skip ≠ 0 ∧ rp.valid then BitVec.ofNat 32 rp.rows else 0
    let s := modTrain (returnHeld s k) k fun tr => { tr with rowprog := if skip ≠ 0 then {} else tr.rowprog }
    raiseAt s k (if skip = 0 then head else pc + BitVec.ofNat 64 skip)
      { kind := Trap.access, cause := causeUnresolved, pc := pc, addr := va, mask := mask, detail := rows }
  | _ => s

/-- The packet of a lane is done with: QHEAD advances by NUNITS, and the lane is free (R417). -/
def acceptPacket (s : State) (p : Nat) : State :=
  modPart s p fun q => match q.lane.packet with
    | none => { q with lane := {} }
    | some pk =>
      let n : Word := BitVec.ofNat 32 (bitsAt (pk.words.getD 0 0).toNat 8 2 + 1)
      if pk.sup then { q with lane := {}, superQ := { q.superQ with head := q.superQ.head + n } }
      else { q with lane := {}, userQ := { q.userQ with head := q.userQ.head + n } }

/-- FAIL of an entry. -/
def failFault (s : State) (i : Nat) : State :=
  match Tab.get? s.faults i with
  | none => s
  | some f =>
    let ks := linkedTo s i
    let lanes := lanesOn s i
    let s := freeFault s i 2
    let s := ks.foldl failTrain s
    let s := match f.op with
      | some o => match Tab.get? s.ops o with
        | some op => match op.state with
          | .owing st _ => dropOp (logViolation s op.part op.statVA 0 causeUnresolved 0xFF op.asid 0 0) o op st
          | _ => endOp s o false (statusWord Code.faulted causeUnresolved op.flags.toNat op.pieces.length)
        | none => s
      | none => s
    lanes.foldl (fun s e => logViolation (acceptPacket s e.1) e.1 e.2 0 causeUnresolved 0xFF f.asid 0 0) s

/-- The entry that FBSEL selects, where it is one of the partition. -/
def selectedFault (s : State) (p : Nat) : Option (Nat × FaultEnt) :=
  let sel := (partAt s p).fbsel.toNat
  let i := bitsAt sel 0 6 * 1024 + bitsAt sel 6 10
  match Tab.get? s.faults i with
  | some f => if f.part = p then some (i, f) else none
  | none => none

/-- What FBDATA shows of the selected entry: one of the partition, or a free one that it had last (R8, R160). -/
def shownFault (s : State) (p : Nat) : Option FaultEnt :=
  let sel := (partAt s p).fbsel.toNat
  let i := bitsAt sel 0 6 * 1024 + bitsAt sel 6 10
  ((Tab.get? s.faults i).or (Tab.get? s.freed i)).filter (·.part = p)

/-- STATUS of the selected entry is written: 1 REPLAY, 2 FAIL; other codes change nothing, and neither does a write to a free entry, whose
fields FBDATA goes on showing (R7; log 38). -/
def writeStatus (s : State) (p st : Nat) : State :=
  match selectedFault s p with
  | some (i, _) => if st = 1 then replayFault s i else if st = 2 then failFault s i else s
  | none => s

/-- The oldest PENDING entry of a partition that was not reported (R407). -/
def oldestFault (s : State) (p : Nat) : Option (Nat × FaultEnt) :=
  (s.faults.filter fun e => e.2.part = p && e.2.status = 0 && !e.2.reported).foldl (fun best e =>
    match best with
    | none => some e
    | some b => if e.2.order < b.2.order then some e else some b) none

/-- A read of FBPEND: the entry is reported. -/
def readFbpend (s : State) (p : Nat) : State × Dword :=
  match oldestFault s p with
  | none => (s, 0)
  | some (i, f) =>
    ({ s with faults := Tab.put s.faults i { f with reported := true } },
     BitVec.ofNat 64 (i / 1024 + 2 ^ 6 * (i % 1024) + 2 ^ 63))

/-! ## Translations and generations (R393, R401) -/

/-- An ASID whose table entry names another partition. -/
def foreignAsid (s : State) (p a : Nat) : Bool :=
  let e := (Tab.read 0 s.asidTab a).toNat
  bitsAt e 6 1 = 1 && e % 64 ≠ p

/-- Remove one page's translations of an ASID from every cache. -/
def tlbiPage (s : State) (a : Nat) (va : Dword) : State :=
  renewWaits (dropTranslations (settleAsids s (· = a)) a va.toNat 1) (· = a)

/-- Remove every translation of an ASID. -/
def tlbiAsid (s : State) (a : Nat) : State :=
  renewWaits (dropTranslations (settleAsids s (· = a)) a 0 (2 ^ 64)) (· = a)

/-- Remove every translation of a partition's ASIDs. -/
def tlbiPart (s : State) (p : Nat) : State :=
  let s := settleAsids s (asidOwned s p)
  let s := { s with cores := s.cores.map fun e => (e.1, { e.2 with utlb := e.2.utlb.filter fun t => !asidOwned s p t.asid }) }
  let s := renewWaits s (asidOwned s p)
  endOpsWhere s (fun o => asidOwned s p o.asid && o.unfinished && !o.pages.isEmpty) Code.remapped

/-- The generation of an ASID advances: its operations complete TERMINATED (R360), and its translations leave every cache. -/
def advanceGen (s : State) (a : Nat) : State :=
  let s := { s with agens := Tab.write 0 s.agens a (Tab.read 0 s.agens a + 1) }
  tlbiAsid (endOpsWhere s (fun o => o.asid = a && o.unfinished) Code.terminated) a

/-! ## The register map -/

inductive RegScope where
  | lane | train | part | module
  deriving DecidableEq, Repr

inductive RegMode where
  | none | user | priv
  deriving DecidableEq, Repr

/-- A register of the map: what it is held per, who reads it and who writes it. -/
structure RegInfo where
  scope : RegScope
  read  : RegMode
  write : RegMode

def regInfo (n : Nat) : Option RegInfo :=
  if n = 0x00 then some ⟨.module, .user, .none⟩
  else if n = 0x01 then some ⟨.train, .user, .none⟩
  else if n = 0x02 ∨ n = 0x03 then some ⟨.lane, .priv, .priv⟩
  else if 0x04 ≤ n ∧ n ≤ 0x09 then some ⟨.train, .priv, .priv⟩
  else if n = 0x0A ∨ n = 0x0B then some ⟨.train, .none, .priv⟩
  else if n = 0x51 ∨ n = 0x53 ∨ n = 0x5E then some ⟨.part, .priv, .none⟩
  else if 0x40 ≤ n ∧ n ≤ 0x5E then some ⟨.part, .priv, .priv⟩
  else none

def RegMode.permits (m : RegMode) (priv : Bool) : Bool :=
  match m with
  | .none => false
  | .user => true
  | .priv => priv

/-- IDENT (R407). -/
def identWord (s : State) : Dword :=
  BitVec.ofNat 64 (1 + 2 ^ 8 * Config.siliconStep.toNat + 2 ^ 16 * 0x0192 + 2 ^ 32 * s.moduleNo.toNat)

/-- TMODE. -/
def tmodeWord (tr : Train) : Dword :=
  BitVec.ofNat 64 ((if tr.priv then 1 else 0) + (if tr.intrap then 2 else 0) + (if tr.ppriv then 4 else 0)
    + 2 ^ 4 * tr.tq.length + 2 ^ 8 * tr.asid + 2 ^ 20 * tr.part)

/-- The selected ASID of a partition, and whether the partition owns it. -/
def selectedAsid (s : State) (p : Nat) : Nat := (partAt s p).asidsel.toNat % 4096

/-- The value of a partition register that a read does not change. -/
def partReg (s : State) (p n : Nat) : Dword :=
  let q := partAt s p
  let a := selectedAsid s p
  let own := asidOwned s p a
  match n with
  | 0x40 => q.tvec | 0x41 => q.svcring | 0x42 => q.swthr | 0x43 => q.qstall | 0x44 => q.bstall | 0x45 => q.tslice
  | 0x46 => q.drainmax | 0x47 => q.depot | 0x48 => q.depotsz | 0x49 => q.wpool | 0x4A => q.wpoolsz | 0x4B => q.wpoolva
  | 0x4C => q.stage | 0x4D => q.stagesz | 0x4E => q.spill | 0x4F => q.spillsz | 0x50 => q.vlogbase | 0x51 => q.vloghead
  | 0x52 => q.vlogsz | 0x54 => q.fbsel
  | 0x55 => (shownFault s p).elim 0 (·.dword 0)
  | 0x56 => (shownFault s p).elim 0 (·.dword 1)
  | 0x57 => (shownFault s p).elim 0 (·.dword 2)
  | 0x58 => (shownFault s p).elim 0 (·.dword 3)
  | 0x59 => BitVec.ofNat 64 (a + (if own then 2 ^ 63 else 0))
  | 0x5A => if own then Tab.read 0 s.roots a else 0
  | 0x5B => if own then (Tab.read 0 s.agens a).zeroExtend 64 else 0
  | 0x5C => q.irq | 0x5D => q.irqen
  | 0x5E => BitVec.ofNat 64 (q.slots.toNat + 2 ^ 8 * q.tokens.toNat)
  | _ => 0

/-- A read of a partition register; a read of FBPEND clears it. -/
def readPartReg (s : State) (p n : Nat) : State × Dword := if n = 0x53 then readFbpend s p else (s, partReg s p n)

/-- IRQEN: a bit set while its IRQ bit is 1 sends the message (R394). -/
def writeIrqen (s : State) (p : Nat) (v : Dword) : State :=
  let q := partAt s p
  let now := [0, 1, 2, 3, 4].filter fun b => v.getLsbD b && !q.irqen.getLsbD b && q.irq.getLsbD b
  { modPart s p fun q => { q with irqen := v &&& 0x1F } with outbox := s.outbox ++ now.map fun b => .msix (8 * p + b) }


/-- A write of a partition register, field by field (R5, R7, R406). Bits of DEPOT, DEPOTSZ, WPOOL, WPOOLSZ and VLOGBASE below the alignment
that R406 states are kept as reserved bits are, as 0; STAGE and SPILL, of which it states none, keep every bit (log 30). -/
def writePartReg (s : State) (p n : Nat) (v : Dword) : State :=
  let set := fun (f : Part → Part) => modPart s p f
  let a := selectedAsid s p
  match n with
  | 0x40 => set fun q => { q with tvec := keepBits v 2 62 }
  | 0x41 => set fun q => { q with svcring := v }
  | 0x42 => set fun q => { q with swthr := keepBits v 0 9 }
  | 0x43 => set fun q => { q with qstall := keepBits v 0 32 }
  | 0x44 => set fun q => { q with bstall := keepBits v 0 32 }
  | 0x45 => set fun q => { q with tslice := keepBits v 0 32 }
  | 0x46 => set fun q => { q with drainmax := keepBits v 0 32 }
  | 0x47 => set fun q => { q with depot := keepBits v 16 48 }
  | 0x48 => set fun q => { q with depotsz := keepBits v 16 48 }
  | 0x49 => set fun q => { q with wpool := keepBits v 21 43 }
  | 0x4A => set fun q => { q with wpoolsz := keepBits v 21 43 }
  | 0x4B => set fun q => { q with wpoolva := v }
  | 0x4C => set fun q => { q with stage := v }
  | 0x4D => set fun q => { q with stagesz := v }
  | 0x4E => set fun q => { q with spill := v }
  | 0x4F => set fun q => { q with spillsz := v }
  | 0x50 => set fun q => { q with vlogbase := keepBits v 12 52 }
  | 0x52 => set fun q => { q with vlogsz := keepBits v 0 4 }
  | 0x54 => set fun q => { q with fbsel := keepBits v 0 16 }
  | 0x58 => writeStatus s p (v.toNat % 4)
  | 0x59 => set fun q => { q with asidsel := keepBits v 0 12 }
  | 0x5A => if asidOwned s p a then { s with roots := Tab.write 0 s.roots a (keepBits v 0 1 ||| keepBits v 16 29) } else s
  | 0x5B => if asidOwned s p a && v.getLsbD 63 then advanceGen s a else s
  | 0x5C => set fun q => { q with irq := q.irq &&& ~~~v }
  | 0x5D => writeIrqen s p v
  | _ => s

/-! ## mfsr and mtsr (R400) -/

/-- The register number of an `mfsr` or `mtsr`. -/
def sysNumber (c : Ctx) : Nat := (src c .a .n64 uniTid).toNat % 4096

/-- The checks of R400: the number, the mode, then what the register is held per. -/
def regCheck (c : Ctx) (n : Nat) (mode : RegInfo → RegMode) : Except TrapRec RegInfo :=
  match regInfo n with
  | none => .error (trapOf Trap.operand 9)
  | some r =>
    if !(mode r).permits c.tr.priv then .error (trapOf Trap.privilege 3)
    else if (r.scope = .lane) == c.x.u then .error (trapOf Trap.operand 9)
    else .ok r

/-- The value of a register of a train or a lane. -/
def trainReg (s : State) (tr : Train) (n t : Nat) : Dword :=
  match n with
  | 0x00 => identWord s
  | 0x01 => tmodeWord tr
  | 0x02 => Tab.read 0 tr.xpc t
  | 0x03 => xstWord tr t
  | 0x04 => tr.xg.zeroExtend 64
  | 0x09 => tr.svctok
  | n => Tab.read 0 tr.xs (n - 5)

def execMfsr (x : Args) (s : State) : Host.Outcome State Fault Refusal :=
  issue (.mfsr x) x true s fun c s =>
    if !c.on then .done s {}
    else
      let n := sysNumber c
      match regCheck c n (·.read) with
      | .error r => .trap s r
      | .ok r =>
        if r.scope = .part then
          let (s, d) := readPartReg s c.tr.part n
          uniResult s d
        else .done s { vals := c.lanes.map fun t => (t, trainReg s c.tr n t) }

/-- Write XST of a lane: LSTATE codes 5 to 7 stand for 1. -/
def wrXst (tr : Train) (t : Nat) (v : Dword) : Train :=
  let code := bitsAt v.toNat 0 3
  let bit : Mask := 1#64 <<< t
  { tr with
    xstate := Tab.write 0 tr.xstate t (BitVec.ofNat 3 (if code > 4 then 1 else code))
    xk := (List.range 8).foldl (fun m i =>
      if i = 0 then m
      else Tab.write 0 m i (if v.getLsbD (3 + i) then Tab.read 0 m i ||| bit else Tab.read 0 m i &&& ~~~bit)) tr.xk }

/-- Write a register of a train or a lane. -/
def wrTrainReg (tr : Train) (n t : Nat) (v : Dword) : Train :=
  match n with
  | 0x02 => { tr with xpc := Tab.write 0 tr.xpc t (keepBits v 0 48) }
  | 0x03 => wrXst tr t v
  | 0x04 => { tr with xg := BitVec.ofNat 15 (2 * bitsAt v.toNat 1 14) }
  | 0x09 => { tr with svctok := v }
  | n => if 5 ≤ n ∧ n ≤ 8 then { tr with xs := Tab.write 0 tr.xs (n - 5) v } else tr

/-- A train that awaits replies goes on once the last of them is there: with its instruction again, or past one that only waited. -/
def settleRemote (s : State) (k : Nat) : State :=
  match train? s k with
  | some { block := some (.remote ids), atWait := w, .. } =>
    if ids.any (fun i => (Tab.get? s.remote i).isSome) then s
    else if (w.bind waitArgs).isSome then finishWait s k 0 else unblock s k
  | _ => s

/-! ## Service requests (R384 to R387) -/

/-- The trains of a launch, resident and saved. -/
def launchTrains (s : State) (l : Nat) : List Train :=
  (s.trains.filter fun e => e.2.launch = some l).map (·.2)
    ++ s.saved.flatMap fun e => e.2.trains.filter fun t => t.launch = some l

/-- The SWTHR rule (R387): a launch of which too many trains wait in `svc` is pre-empted by Save, and admitted again later. -/
def judgeLaunch (s : State) (l : Option Nat) : State :=
  match l, l.bind (launch? s) with
  | some l, some x =>
    let ts := launchTrains s l
    let w := (ts.filter fun t => match t.block with | some (.svcReply _) => true | some (.svcRoom _) => true | _ => false).length
    modLaunch s l fun y => { y with halted := 256 * w > (partAt s x.part).swthr.toNat * ts.length }
  | _, _ => s

/-- The request record of R385. -/
def requestRecord (token code arg : Nat) (tr : Train) (hdr : Dword) : List Byte :=
  bytesOf (token % 2 ^ 32 + 2 ^ 32 * (code % 2 ^ 16)) 8 ++ bytesOf arg 8 ++ bytesOf (tr.pc.toNat % 2 ^ 48) 8
    ++ bytesOf (tr.asid + 2 ^ 12 * tr.part + 2 ^ 18 * tr.core + 2 ^ 26 * tr.slot) 8 ++ bytesOf hdr.toNat 8 ++ bytesOf 0 24

/-- The user as whom the service ring is reached: the requester's space, privileged. -/
def svcUser (tr : Train) : RingUser := { part := tr.part, asid := tr.asid, priv := true }

/-- A token for a train's `svc` (R384 step 2): the one that it holds, or the first free entry of the table. -/
def takeToken (s : State) (tr : Train) : Option (Nat × State) :=
  match heldToken s tr.uid with
  | some idx => some (idx, s)
  | none => (Tab.firstFree s.services 4096 0).map fun idx =>
      (idx, { s with services := Tab.put s.services idx { part := tr.part, uid := tr.uid } })

/-- An `svc` that makes no request: its token is returned (R384 step 3). -/
def noRequest (c : Ctx) (s : State) : Res := uniResult (returnToken s c.tr.uid) Rc.invalid

/-- Write the request into its slot and commit it (R384 steps 4 and 5). -/
def postRequest (i : Instr) (c : Ctx) (s : State) (r : RingReg) (ring ticket : Dword) (idx code arg : Nat) : Res :=
  let u := svcUser c.tr
  let token := idx + 2 ^ 12 * (Tab.read 0 s.svcGen idx).toNat
  let hdr := ((launchOf s c.tr).bind (launch? s)).elim 0 (·.hdrVA)
  match unitWrite s u (r.slotVa ticket.toNat) (requestRecord token code arg c.tr hdr) with
  | none => noRequest c (ringUnit s u ring (.com true ticket.toNat 1)).1
  | some s =>
    let s := setIrq (ringUnit s u ring (.com false ticket.toNat 1)).1 c.tr.part 3
    let s := { s with services := Tab.put s.services idx { part := c.tr.part, uid := c.tr.uid, posted := true } }
    match waitHere i c s (.svcReply token) with
    | .left s => .left (judgeLaunch s c.tr.launch)
    | r => r

/-- An `svc` waits for a token, or with its token for a slot of the ring; W of R387 counts it. -/
def waitForRoom (c : Ctx) (s : State) : Res := .left (judgeLaunch (blockAt s c.k c.head (.svcRoom s.clk)) c.tr.launch)

/-- `svc` (R384). The token is held while the ring is full or busy; it is returned where no request is made, and while the train is
parked on the ring's page, since it then executes `svc` anew (R54, log 30). -/
def svcBody (i : Instr) (c : Ctx) (s : State) : Res :=
  if !c.on then .done s {}
  else
    let s := performEarlier s c.k
    let ring := (partAt s c.tr.part).svcring
    let u := svcUser c.tr
    let code := (src c .b .n64 uniTid).toNat % 2 ^ 16
    let arg := (rdOpnd c c.x.a .n64 uniTid).toNat
    match takeToken s c.tr with
    | none => waitForRoom c s
    | some (idx, s) =>
      if ring = 0 then noRequest c s
      else match unitXl s u.part u.asid u.priv .load ring 64 with
        | .fault pte => .left (park (returnToken s c.tr.uid) c.k c.head ring 0 pte c.tr.pc 0)
        | .mem pa =>
          match ringReg? s pa with
          | none => waitForRoom c s
          | some r =>
            if r.ssize < 64 then noRequest c s
            else
              let (s, d) := ringAt s u pa (.acq 1)
              if d = Rc.full || d = Rc.busy then waitForRoom c s
              else if d.getLsbD 63 then noRequest c s
              else postRequest i c s r ring d idx code arg
        | _ => noRequest c s

def execSvc (x : Args) (s : State) : Host.Outcome State Fault Refusal := issue (.svc x) x true s (svcBody (.svc x))

/-- SVC_RETRY: a blocked `svc` tries again. -/
def execSvcRetry (tr : Nat) (s : State) : Host.Outcome State Fault Refusal :=
  unitStep (match train? s tr with
    | some t => match t.block with
      | some (.svcRoom _) => unblock s tr
      | _ => s
    | none => s)

/-- The reply of a service: the requester takes the value, or its saved image does (R386). -/
def replyService (s : State) (part : Nat) (token value : Dword) : State :=
  let idx := bitsAt token.toNat 0 12
  match Tab.get? s.services idx with
  | none => s
  | some sv =>
    if !sv.posted || sv.part ≠ part || token.toNat ≠ idx + 2 ^ 12 * (Tab.read 0 s.svcGen idx).toNat then s
    else
      let s := { s with services := Tab.del s.services idx, svcGen := Tab.write 0 s.svcGen idx (Tab.read 0 s.svcGen idx + 1) }
      let b := Block.svcReply token.toNat
      match trainByUid s sv.uid with
      | some (_, tr) => judgeLaunch (finishWaits s b value) tr.launch
      | none =>
        let l := (s.saved.flatMap (·.2.trains)).find? fun t => t.uid = sv.uid
        judgeLaunch (answerAsides (if l.any (·.block = some b) then replySaved s sv.uid value else s) (· = b) value) (l.bind (·.launch))

/-- An `mtsr` with a number and a value: an effect of SVCRET or TEXIT, or the plain write. -/
def mtsrBody (c : Ctx) (s : State) : Res :=
  if !c.on then .done s {}
  else
    let n := sysNumber c
    let val := fun t => src c .b .n64 t
    match regCheck c n (·.write) with
    | .error r => .trap s r
    | .ok r =>
      if n = 0x0A then .done (replyService (performEarlier s c.k) c.tr.part c.tr.svctok (val uniTid)) {}
      else if n = 0x0B then
        let v := (val uniTid).toNat
        if v = 1 ∨ v = 2 then .left (workExit s c.k v c.tr.pc) else .done s {}
      else if r.scope = .part then .done (writePartReg s c.tr.part n (val uniTid)) {}
      else .done (modTrain s c.k fun tr => c.lanes.foldl (fun tr t => wrTrainReg tr n t (val t)) tr) {}

def execMtsr (x : Args) (s : State) : Host.Outcome State Fault Refusal := issue (.mtsr x) x false s mtsrBody
def execSvcret (x : Args) (s : State) : Host.Outcome State Fault Refusal := issue (.svcret x) x false s mtsrBody
def execTexitFault (x : Args) (s : State) : Host.Outcome State Fault Refusal := issue (.texitFault x) x false s mtsrBody
def execTexitTerminate (x : Args) (s : State) : Host.Outcome State Fault Refusal :=
  issue (.texitTerminate x) x false s mtsrBody

/-! ## eret, tlbi, trapq -/

/-- The wait that a train takes up where it stands, after its handler (R54, R379). -/
def dueAside (tr : Train) : Option Aside := if tr.intrap then none else tr.asides.find? (·.pc = tr.pc)

/-- A train is back at a wait that a handler interrupted: it goes on waiting, with what came meanwhile, or the wait ends. -/
def resumeAside (s : State) (k : Nat) (a : Aside) : State :=
  let s := modTrain (touchStall s k) k fun tr =>
    { tr with asides := tr.asides.erase a, block := a.block, atWait := a.wait, replies := a.replies, access := a.access }
  let s := match a.result with
    | some v => finishWait s k v
    | none => settleRemote s k
  judgeLaunch s ((train? s k).bind (·.launch))

def execEret (x : Args) (s : State) : Host.Outcome State Fault Refusal :=
  issue (.eret x) x false s fun c s =>
    if !c.on then .done s {}
    else if !c.tr.intrap then .trap s (trapOf Trap.illegal 11)
    else .left (returnTrap (modTrain s c.k ageLoads) c.k)

/-- The ASID that a `tlbi` names. -/
def tlbiTarget (c : Ctx) : Nat := if c.x.b = .zero then c.tr.asid else (rdOpnd c c.x.b .n64 uniTid).toNat % 4096

/-- The translations leave every cache; the train waits for the requests to other modules that were made with them (R401). -/
def tlbiBody (i : Instr) (gone : Ctx → State → Nat → Bool) (act : Ctx → State → State) (c : Ctx) (s : State) : Res :=
  if !c.on then .done s {}
  else if foreignAsid s c.tr.part (tlbiTarget c) then .trap s (trapOf Trap.privilege 2)
  else match requestsOf s (gone c s) with
    | [] => .done (act c s) {}
    | ids => waitHere i c (act c s) (.remote ids)

def execTlbiPage (x : Args) (s : State) : Host.Outcome State Fault Refusal :=
  issue (.tlbiPage x) x false s (tlbiBody (.tlbiPage x) (fun c _ a => a = tlbiTarget c)
    fun c s => tlbiPage s (tlbiTarget c) (rdOpnd c x.a .n64 uniTid))
def execTlbiAsid (x : Args) (s : State) : Host.Outcome State Fault Refusal :=
  issue (.tlbiAsid x) x false s (tlbiBody (.tlbiAsid x) (fun c _ a => a = tlbiTarget c) fun c s => tlbiAsid s (tlbiTarget c))
def execTlbiPart (x : Args) (s : State) : Host.Outcome State Fault Refusal :=
  issue (.tlbiPart x) x false s (tlbiBody (.tlbiPart x) (fun c s => asidOwned s c.tr.part) fun c s => tlbiPart s c.tr.part)

def execTrapq (x : Args) (s : State) : Host.Outcome State Fault Refusal :=
  issue (.trapq x) x true s fun c s =>
    if !c.on then .done s {}
    else
      let i := (rdOpnd c x.a .n64 uniTid).toNat
      uniResult s (match c.tr.intrap, c.tr.tq with
        | true, r :: _ => r.dword i
        | _, _ => 0)

/-! ## Host accesses to the partition page -/

/-- ASIDGEN_ADV: host software writes ASIDGEN.ADV. -/
def execAsidgenAdv (p : Nat) (s : State) : Host.Outcome State Fault Refusal := unitStep (writePartReg s p 0x5B (1#64 <<< 63))
/-- FAULT_REPLAY: host software writes REPLAY to the selected entry. -/
def execFaultReplay (p : Nat) (s : State) : Host.Outcome State Fault Refusal := unitStep (writePartReg s p 0x58 1)
/-- FAULT_FAIL: host software writes FAIL to the selected entry. -/
def execFaultFail (p : Nat) (s : State) : Host.Outcome State Fault Refusal := unitStep (writePartReg s p 0x58 2)
/-- IRQEN_WRITE (R394). -/
def execIrqenWrite (p : Nat) (value : Dword) (s : State) : Host.Outcome State Fault Refusal :=
  unitStep (writePartReg s p 0x5D value)
/-- FBPEND_READ: host software reads FBPEND. -/
def execFbpendRead (p : Nat) (s : State) : Host.Outcome State Fault Refusal :=
  let (s, d) := readPartReg s p 0x53
  unitStep { s with outbox := s.outbox ++ [.hostReg p d] }

/-- TRAP_DELIVERY: the head record of a train that handles no trap is delivered at a chain boundary (R379, R380). -/
def execTrapDelivery (tr : Nat) (s : State) : Host.Outcome State Fault Refusal := unitStep (deliverDue s tr)

end Sys2Proof.Machine
end

