-- ==== Sys2Proof/Machine/Preempt.lean ====
section
/-! DEFINITION. Pre-emption (R312 to R314, R387 to R392, R396): what begins it, its three methods, restoration and migration, `ctxs`
and `ctxl` (R403, R404). -/

namespace Sys2Proof.Machine

/-! ## What is pre-empted, and why (R388) -/

/-- The workgroups that are pre-empted together: those of a class 0 launch, a gang, or one alone (R312, R313). -/
def together (s : State) (w : Nat) : List Nat :=
  match wg? s w with
  | none => []
  | some g => if g.cls = 0 then (s.wgs.filter fun e => e.2.launch = g.launch).map (·.1) else gangOf s w

/-- A valid launch that still has a workgroup to place on a core, where it does not fit now; its partition admits it (R395). -/
def wantsCore (s : State) (id : Nat) (l : Launch) (core : Nat) : Bool :=
  l.state ≠ .complete && !l.doomed && !l.halted && !l.hdr.isEmpty && l.left.contains core && !(partAt s l.part).closed
    && !(available s (some id) core).fits l.need

/-- A class 1 launch of the partition needs the core: of higher PRIO, or of equal PRIO once the time slice is over (R312). -/
def roomWanted (s : State) (g : Wg) : Bool :=
  s.launches.any fun e => e.1 ≠ g.launch && e.2.part = g.part && e.2.cls = 1 && wantsCore s e.1 e.2 g.core
    && (g.prio < e.2.prio || (g.prio = e.2.prio && g.sliceOver))

/-- The slot share of a partition; a partition that is reset gives its share up (R395, R396). -/
def slotShare (s : State) (p : Nat) : Nat := if (partAt s p).closed then 0 else (partAt s p).slots.toNat
def shareSum (s : State) : Nat := (List.range 64).foldl (fun n p => n + slotShare s p) 0
/-- The train slots that a partition holds. -/
def slotsHeld (s : State) (p : Nat) : Nat := (s.trains.filter fun e => e.2.part = p).length
/-- The train slots of a module (R11, R14). -/
def moduleSlots : Nat := 192 * 32

/-- What a saved workgroup needs of a core. -/
def Saved.need (s : State) (sv : Saved) : WgNeed :=
  let g := sv.wg
  { deep := (launch? s g.launch).any (·.depth ≥ 1), trains := g.ntrains, grans := g.ntrains * g.vgran, pad := g.pad
    banks := g.used.length + g.resv }

/-- A saved workgroup waits for the core, where it does not fit now: its own core for one that keeps it, else any (R390). -/
def waitsForCore (s : State) (sv : Saved) (core : Nat) : Bool :=
  sv.hwimg && !(launch? s sv.wg.launch).any (·.halted) && !(partAt s sv.wg.part).closed
    && ((sv.wg.cls ≠ 0 && sv.wg.gang = 0) || sv.wg.core = core) && !(available s none core).fits (Saved.need s sv)

/-- The cluster in which a train runs activations: that of its line. -/
def actCluster (tr : Train) : Option Nat := tr.act.map fun a => a.line / 256

/-- The partitions whose activation trains wait for a slot of a core: no core of its cluster admits the batches and the pre-empted
trains there (R21). -/
def actsWaiting (s : State) (core : Nat) : List Nat :=
  if (activationCore s (core / 4)).isSome then []
  else (s.pendActs.filter fun a => a.line / 256 = core / 4).filterMap (fun a => (Tab.get? s.lines a.line).map (·.part))
    ++ (s.savedActs.filter fun e => actCluster e.2 = some (core / 4)).map (·.2.part)

/-- The partitions that wait for a core, each with the trains that it would place or restore there: of a workgroup, or the one train of
some activations, which draws its slot like any other (R21). -/
def slotsAsked (s : State) (core : Nat) : List (Nat × Nat) :=
  ((s.launches.filter fun e => wantsCore s e.1 e.2 core).map fun e => (e.2.part, e.2.need.trains))
    ++ ((s.saved.filter fun e => waitsForCore s e.2 core).map fun e => (e.2.wg.part, e.2.wg.ntrains))
    ++ (actsWaiting s core).map fun p => (p, 1)

/-- The train slots are contended, and a partition below its share needs those of one above (R396). -/
def shareWanted (s : State) (g : Wg) : Bool :=
  let sum := shareSum s
  g.sliceOver && slotsHeld s g.part * sum > slotShare s g.part * moduleSlots && (slotsAsked s g.core).any fun e =>
    e.1 ≠ g.part && (coreFree s g.core).trains < e.2 && slotsHeld s e.1 * sum < slotShare s e.1 * moduleSlots

/-- A gang that waits for the core (R313). -/
def gangWants (s : State) (g : Wg) : Bool :=
  s.launches.any fun e => e.1 ≠ g.launch && e.2.gang ≠ 0 && wantsCore s e.1 e.2 g.core

/-- Why a workgroup is pre-empted: by Save alone for the SWTHR rule and for `ctxs`, else by any method; none when it is not. -/
inductive Reason where
  | saveOnly | any
  deriving DecidableEq, Repr

def reasonFor (s : State) (g : Wg) : Option Reason :=
  if (launch? s g.launch).any (·.halted) || !(saveWaiters s g.uid).isEmpty then some .saveOnly
  else if roomWanted s g || shareWanted s g then some .any
  else none

/-- The reason for which workgroups go together. -/
def reasonOf (s : State) (ws : List Nat) : Option Reason :=
  let rs := ws.filterMap fun w => (wg? s w).bind (reasonFor s)
  if rs.contains .saveOnly then some .saveOnly else rs.head?

/-- TIME_SLICE_EXPIRY: a workgroup has held its slot for TSLICE cycles (R312, R396). -/
def execTimeSliceExpiry (wg : Nat) (s : State) : Host.Outcome State Fault Refusal :=
  unitStep (match wg? s wg with
    | none => s
    | some g => if s.clk - g.since ≥ (partAt s g.part).tslice.toNat then putWg s wg { g with sliceOver := true } else s)

/-! ## The choice of the method (R389) -/

/-- Every train of a workgroup has exited or received END. -/
def canDrain (s : State) (ws : List Nat) : Bool :=
  ws.all fun w => (trainsOfWg s w).all fun k => (train? s k).all fun t => t.gotEnd || t.exited = allThreads

/-- A drain that began DRAINMAX cycles ago is over. -/
def drainOver (s : State) (ws : List Nat) : Bool :=
  ws.any fun w => (wg? s w).any fun g => g.drain.any fun c => s.clk - c > (partAt s g.part).drainmax.toNat

/-- PREEMPT_DRAIN: a workgroup that is to be pre-empted, and whose trains are at their end, runs on. -/
def execPreemptDrain (wg : Nat) (s : State) : Host.Outcome State Fault Refusal :=
  let ws := together s wg
  let set := fun (d : Option Nat) => ws.foldl (fun s w => modWg s w fun g => { g with drain := d }) s
  unitStep (match reasonOf s ws with
    | some .any => if canDrain s ws && ws.all (fun w => (wg? s w).all (·.drain.isNone)) then set (some s.clk) else s
    | _ => if ws.any (fun w => (wg? s w).any (·.drain.isSome)) then set none else s)

/-- The methods other than Drain, in order. -/
inductive Method where
  | drain | flush | save
  deriving DecidableEq, Repr

def methodFor (s : State) (ws : List Nat) (r : Reason) : Method :=
  if r = .saveOnly then .save
  else if canDrain s ws && !drainOver s ws then .drain
  else if ws.all fun w => (wg? s w).all (·.idem) then .flush
  else .save

/-! ## Stopping (R390 step 1) -/

/-- What must end before a workgroup can leave its core: engine operations on its tiles, arrivals on their way to another module, and
the requests of its trains that await their replies: none is sent twice (R189, R207). -/
def mustFinish (s : State) (w : Nat) : Bool :=
  (wg? s w).any (fun g => tilesInUse s g.uid) || (trainsOfWg s w).any fun k => (train? s k).any fun t =>
    midAccess t || !t.homes.isEmpty || s.remote.any fun r => r.2.uid = t.uid

/-- Whether every train of workgroups stands at a chain boundary. -/
def atBoundary (s : State) (ws : List Nat) : Bool :=
  ws.all fun w => (trainsOfWg s w).all fun k => (train? s k).all fun t => !insideChain s t

/-- No train of the workgroups starts a new chain. -/
def stopIssue (s : State) (ws : List Nat) (b : Bool) : State :=
  ws.foldl (fun s w => modWg s w fun g => { g with stopping := b }) s

/-! ## Flush and restart (R314, R354) -/

/-- Insert into a rising list. -/
def insertGrant (g : Dword) : List Dword → List Dword
  | [] => [g]
  | x :: xs => if g < x then g :: x :: xs else if g = x then x :: xs else x :: insertGrant g xs

/-- A flushed train: a pending result is written (R99), its stores stay, its task goes back to its queue, its joins do not count it as a
casualty. -/
def flushTrain (s : State) (k : Nat) : State :=
  let s := returnHeld (unlinkFault (performAll (finishLong s k) k) k) k
  match train? s k with
  | none => s
  | some tr =>
    let s := match tr.task with
      | some va => requeue s tr.part tr.asid va
      | none => s
    let s := endContribs s tr.uid false none
    dropTrain (freeServices s fun e => e.uid = tr.uid) k

/-- The current grants of the trains of a workgroup, END apart, in their original order. -/
def currentGrants (s : State) (w : Nat) : List Dword :=
  (trainsOfWg s w).foldl (fun l k => match (train? s k).bind (·.grant) with
    | some g => if g = endGrant then l else insertGrant g l
    | none => l) []

/-- The core of a launch's set that a `wgid` counts to: where a workgroup that has migrated is admitted again, as the workgroup that it
is for life (R306, log 34). -/
def homeCore (l : Launch) (g : Wg) : Nat := l.cores.getD g.wgid g.core

/-- A workgroup is flushed; it is admitted anew. -/
def flushWg (s : State) (w : Nat) : State :=
  match wg? s w with
  | none => s
  | some g =>
    let grants := currentGrants s w
    let s := (trainsOfWg s w).foldl flushTrain s
    let s := { s with wgs := Tab.del s.wgs w }
    let again := fun (l : Launch) => (Tab.read [] l.reissue g.wgid).foldl (fun gs x => insertGrant x gs) grants
    modLaunch s g.launch fun l => { l with left := l.left ++ [homeCore l g], reissue := Tab.write [] l.reissue g.wgid (again l) }

/-! ## Save (R390) -/

/-- The waiting matrix instruction of a train reaches the points of R146: a memory form stops at a row boundary, recorded in the
row-progress register. Its entry keeps its place in the queue, so that no pass changes its order. -/
def stopMatrix (s : State) (w k : Nat) : State :=
  match train? s k with
  | some { block := some (.matrixOp id), .. } =>
    match (wg? s w).bind fun g => g.mq.find? (·.id = id) with
    | some e =>
      if e.done = 0 then s
      else modTrain s k fun tr => { tr with rowprog := { pc := e.pc, rows := e.done, valid := true } }
    | none => s
  | _ => s

/-- The wait of a restored train: a reply, an `lclose` and an instruction in the matrix queue are still awaited; anything else is
executed again. -/
def savedBlock : Option Block → Option Block
  | some (.svcReply t) => some (.svcReply t)
  | some (.matrixOp e) => some (.matrixOp e)
  | some (.aalloc n e t) => some (.aalloc n e t)
  | some (.svcRoom n) => some (.svcRoom n)
  | some (.lclose l g) => some (.lclose l g)
  | _ => none

/-- A train comes to rest: pending results are written, loads return, stores are performed, faults and held records go back. -/
def restTrain (s : State) (w k : Nat) : State :=
  let s := performAll (returnLoads (finishLong s k) k fun _ => true) k
  let s := stopMatrix (returnHeld (unlinkFault s k) k) w k
  match train? s k with
  | none => s
  | some tr =>
    putTrain s k (match tr.block with | none => rewindTo tr tr.pc | some _ => tr)

/-- Where the images of a partition lie in its Depot area. -/
def depotUsed (s : State) (p : Nat) : List (Nat × Nat) :=
  (s.saved.filter fun e => e.2.wg.part = p && e.2.place.isNone).map fun e => (e.2.image, e.2.size)

/-- The first place in a partition's Depot area for an image (R389, R391). -/
def depotRoom (s : State) (p size : Nat) : Option Nat :=
  let q := partAt s p
  let base := q.depot.toNat
  let top := base + q.depotsz.toNat
  let used := depotUsed s p
  (base :: used.map fun u => (u.1 + u.2 + 63) / 64 * 64).find? fun a =>
    a % 64 = 0 && base ≤ a && a + size ≤ top && !used.any (fun u => overlaps a size u.1 u.2)
      && ((List.range ((size + 2 ^ 21 - 1) / 2 ^ 21 + 1)).all fun i =>
        let x := if i * 2 ^ 21 < size then a + i * 2 ^ 21 else a + size - 1
        ownedBy s p x && reachable s x)

/-- Write the image of a workgroup at rest and free what it held: the state and the image's record. -/
def writeSaved (s : State) (w image : Nat) (place : Option (Nat × Dword)) (hwimg : Bool) : State :=
  match wg? s w with
  | none => s
  | some g =>
    let ks := trainsOfWg s w
    let trains := ks.filterMap (train? s)
    let hdr := (launch? s g.launch).elim 0 (·.hdrVA)
    let sv : Saved := { wg := g, trains := trains, image := image, place := place, size := imageSize g
                        clk := BitVec.ofNat 64 s.clk, hwimg := hwimg }
    let m := imageOf (coreAt s g.core).acc g trains hdr (Tab.read 0 s.agens g.asid).toNat s.clk hwimg
    let s := (sv.pieces s).foldl (fun s p => putImagePiece s m p) s
    let (id, s) := freshId s
    let s := { ks.foldl dropTrain s with wgs := Tab.del s.wgs w, saved := Tab.put s.saved id sv }
    clearBanks s g.core g.used

/-- A workgroup comes to rest (R390 step 1). -/
def restWg (s : State) (w : Nat) : State := (trainsOfWg s w).foldl (fun s k => restTrain s w k) s

/-- Save a workgroup into the Depot area; it runs on when there is no room. -/
def saveToDepot (s : State) (w : Nat) : State :=
  match wg? s w with
  | none => s
  | some g => match depotRoom s g.part (imageSize g) with
    | some a => writeSaved (restWg s w) w a none true
    | none => stopIssue s [w] false

/-- Whether the Depot area has room for the images of workgroups. -/
def roomForAll (s : State) (ws : List Nat) : Bool :=
  (ws.foldl (fun (acc : Option State) w => match acc, (acc.bind fun s => wg? s w) with
    | some s, some g => (depotRoom s g.part (imageSize g)).map fun a =>
        let sv : Saved := { wg := g, trains := [], image := a, size := imageSize g }
        { s with saved := Tab.put s.saved (s.nextId + w) sv }
    | r, _ => r) (some s)).isSome

/-- Save for a `ctxs`: where it asked, or in the Depot area; every waiter completes. -/
def saveForCtxs (s : State) (w : Nat) (g : Wg) (k : Nat) (asid : Nat) (addr : Dword) : State :=
  let size := imageSize g
  let fin := fun (s : State) => finishSaves (finishSave s k g.uid (BitVec.ofNat 64 size)) g.uid Rc.invalid
  if addr = 0 then
    match depotRoom s g.part size with
    | some a => fin (writeSaved (restWg s w) w a none false)
    | none => finishSaves (stopIssue s [w] false) g.uid Rc.full
  else match imagePlaces s g.part asid .store addr size with
    | some ((_, _, pa) :: _) => fin (writeSaved (restWg s w) w pa (some (asid, addr)) false)
    | _ => finishSaves (stopIssue s [w] false) g.uid Rc.invalid

/-- The save of workgroups that go together, once their trains have stopped. -/
def saveAll (s : State) (ws : List Nat) : State :=
  match ws, ws.head?.bind (wg? s) with
  | [w], some g => match saveWaiters s g.uid with
    | k :: _ => match train? s k with
      | some tr => (asksSave g.uid tr).elim s (saveForCtxs s w g k tr.asid)
      | none => s
    | [] => saveToDepot s w
  | ws, _ => if roomForAll s ws then ws.foldl saveToDepot s else stopIssue s ws false

/-- One step of a pre-emption other than a drain: issue stops, and once every train has stopped the method is applied. -/
def preemptNow (s : State) (ws : List Nat) (m : Method) : State :=
  if ws.any (mustFinish s) || !atBoundary s ws then stopIssue s ws true
  else match m with
    | .flush => ws.foldl flushWg s
    | .save => saveAll s ws
    | .drain => s

/-- PREEMPT_FLUSH_RESTART and PREEMPT_SAVE: the method that R389 chooses is applied. -/
def preemptBy (m : Method) (wg : Nat) (s : State) : State :=
  let ws := together s wg
  match reasonOf s ws with
  | none => if ws.any fun w => (wg? s w).any (·.stopping) then stopIssue s ws false else s
  | some r => if methodFor s ws r = m then preemptNow s ws m else s

def execPreemptFlushRestart (wg : Nat) (s : State) : Host.Outcome State Fault Refusal := unitStep (preemptBy .flush wg s)
def execPreemptSave (wg : Nat) (s : State) : Host.Outcome State Fault Refusal := unitStep (preemptBy .save wg s)

/-- DRAINMAX_EXPIRY: a drain is over, and the choice is made again without it. -/
def execDrainmaxExpiry (wg : Nat) (s : State) : Host.Outcome State Fault Refusal :=
  let ws := together s wg
  unitStep (match reasonOf s ws with
    | some r => if drainOver s ws then preemptNow s ws (methodFor s ws r) else s
    | none => s)

/-! ## Activation trains (R285) -/

/-- Whether an activation train can be saved now: at a chain boundary, with no request to another module and no arrival out. -/
def canSuspend (s : State) (tr : Train) : Bool :=
  tr.act.isSome && tr.exited ≠ allThreads && !insideChain s tr && tr.homes.isEmpty && !s.remote.any fun r => r.2.uid = tr.uid

/-- An activation train is pre-empted: it comes to rest and leaves its core, and its windows stay RUNNING. R391 gives the image of a
workgroup only, so its record holds it (log 65). -/
def suspendAct (s : State) (k : Nat) : State :=
  match train? s k with
  | none => s
  | some tr =>
    if !canSuspend s tr then s
    else
      let s := restTrain (modTrain s k setAside) 0 k
      let (id, s) := freshId s
      match train? s k with
      | none => s
      | some tr => { dropTrain s k with savedActs := Tab.put s.savedActs id { tr with replies := [], access := none } }

/-! ## Restoration (R390) -/

/-- The marks of a restored train whose operations completed meanwhile receive their status, the others name theirs (R261, R262). -/
def settleMarks (s : State) (tr : Train) : Train :=
  tr.marks.foldl (fun tr e => match e.2 with
    | .told => tr
    | .pending h => match futureOf s tr.asid h with
      | some (j, f) => match f.status with
        | some st => deliverMarks tr h st
        | none => { tr with marks := Tab.put tr.marks e.1 (.pending (futureHandle s j f)) }
      | none => deliverMarks tr h (statusWord Code.invalid 0 0 0)) tr

/-- Whether the section of a train at an offset holds the reply to its `svc`: SVCWAIT and SVCDONE (R386, R392). -/
def replyCame (m : Img) (o : Nat) : Bool := bitsAt (Img.getN m (o + 0x68) 8) 32 2 = 3

/-- The wait of a restored train ends when what it waited for has come (R386, R293). -/
def settleWaits (s : State) (k : Nat) (m : Img) (o : Nat) : State :=
  match train? s k with
  | none => s
  | some tr =>
    if replyCame m o then finishWait s k (BitVec.ofNat 64 (Img.getN m (o + 0x70) 8))
    else match tr.block with
      | some (.lclose l gen) => if (Tab.get? s.lines l).any (·.gen = gen) then s else finishWait s k 0
      | some (.svcRoom _) => unblock s k
      | _ => s

/-- Whether a saved train was marked for kill while it waits at a kill point: it is killed as soon as it is resident (R357). -/
def killedSaved (tr : Train) : Bool := tr.kpc.isSome && atKillPoint tr

/-- The `svc` at which a train of an image waits. -/
def svcAt (s : State) (m : Img) (g : Wg) (t : Train) : Option Instr :=
  let o := 0x800 + t.trn * trainSize g
  let pcs := (List.range 64).filterMap fun l =>
    let x := Img.getN m (o + 0x80 + 8 * l) 8
    if bitsAt x 48 3 < 2 then some (BitVec.ofNat 64 (bitsAt x 0 48) : Dword) else none
  (minPc pcs).bind fun pc => match unitAccess s g.part g.asid true .fetch pc 4 with
    | .mem pa => match decode (readBytes s pa 16) with
      | .ok (i, _) => some i
      | .error _ => none
    | _ => none

/-- The `svc` that a restored train completes with its reply: the one that its record knows, else the one at its PC. -/
def restoredSvc (s : State) (m : Img) (g : Wg) (tr : Train) : Option Instr :=
  match tr.atWait with
  | some (.svc x) => some (.svc x)
  | _ => svcAt s m g tr

/-- A train of an image, where it comes to stand. Whether it waits in `svc`, and with which token, is what SVCWAIT and SVCTOKEN say
(R392); any other wait is the one of its record. -/
def restoredTrain (s : State) (m : Img) (g : Wg) (w core slot : Nat) (tr : Train) : Train :=
  let tr := selectWith' (readTrain m g { tr with core := core, slot := slot, wg := some w })
  let svc := Img.getN m (0x800 + tr.trn * trainSize g + 0x68) 8
  if bitsAt svc 32 1 = 1 then { tr with block := some (.svcReply (bitsAt svc 0 32)), atWait := restoredSvc s m g tr }
  else match savedBlock tr.block with
    | none | some (.svcReply _) => { tr with block := none, atWait := none }
    | some (.aalloc n e _) => { tr with block := some (.aalloc n e s.clk) }
    | b => { tr with block := b }
where
  /-- The selection of R252 from the saved PCs. -/
  selectWith' (tr : Train) : Train := selectWith tr fun t => Tab.read 0 tr.pcs t

/-- A restored train that waits in `svc` is the one that its token's entry in the service table waits for (R386). -/
def claimService (s : State) (tr : Train) : State :=
  match svcWait tr with
  | none => s
  | some token =>
    let idx := token % 4096
    match Tab.get? s.services idx with
    | none => s
    | some e =>
      if e.posted && e.part = tr.part && token / 4096 = (Tab.read 0 s.svcGen idx).toNat then
        { s with services := Tab.put s.services idx { e with uid := tr.uid } }
      else s

/-- Place the trains of a restored workgroup: their latches are lost (R50), the stall of a blocked `aalloc` is timed anew. A train that is
to be killed waits for nothing more. -/
def restoreTrains (m : Img) (g : Wg) (w core : Nat) : List (Train × Nat) → State → State
  | [], s => s
  | (tr, slot) :: rest, s =>
    let k := trainKey core slot
    let tr' := restoredTrain s m g w core slot tr
    let s' := loseLatches (putTrain (claimService s tr') k (settleMarks s tr')) k
    restoreTrains m g w core rest (if killedSaved tr then s' else settleWaits s' k m (0x800 + tr.trn * trainSize g))

/-! ### The matrix queue of an image (R146, R390, R391) -/

/-- The row at which a memory form of a restored train goes on. -/
def restoredRow (tr : Train) (pc : Dword) : Nat := startRow { tr with pc := pc }

/-- The step at which an `mmt` goes on: the one that the tile-progress register records, where it is one of its steps (log 50). -/
def restoredStep (p : TileProg) (x : Args) : Nat :=
  let (m, ks, nb) := mmtShape x
  let rbk := ceilDiv m 16
  let same : Bool := p.r = p.step % rbk && p.k = p.step / rbk % ks && p.n = p.step / (rbk * ks)
  if p.active && p.step < nb * ks * rbk && same then p.step else 0

/-- What an entry that the save knew has done: the registers of the image tell. -/
def restoredDone (g : Wg) (tr : Train) (e : MqEntry) : Nat :=
  match e.instr with
  | .mmt x _ _ => if e.done = 0 then 0 else restoredStep g.tprog x
  | i => if recordsRows i then restoredRow tr e.pc else e.done

/-- The names that an instruction uses: the first, and how many. -/
def namesOf (c : Ctx) (g : Wg) : Instr → Nat × Nat
  | .aalloc x | .afree x | .azero x => (accNum x.d, (rdOpnd c x.a .n64 uniTid).toNat)
  | .mmaTile x _ => (accNum x.d, ceilDiv (mmaRows x.b (rdOpnd c x.b .n64 uniTid) (tileSize g x.a) (rowBytes g)).1 16)
  | .mmaMemory x _ => (accNum x.d, ceilDiv (bitsAt (extWord x) 32 11) 16)
  | .mmt x _ _ => (accNum x.d, (mmtShape x).2.2 * ceilDiv (mmtShape x).1 16)
  | .adrainReg x _ _ | .adrainSp x _ _ | .adrainGm x _ _ => (accNum x.a, 1)
  | _ => (0, 0)

/-- The entry of an instruction that only an image holds, its banks apart: its operands are read from the train's section (log 50).
`first` says that no `mmt` stands before it. -/
def imageEntry (c : Ctx) (g : Wg) (i : Instr) (first : Bool) : Option MqEntry :=
  let e : MqEntry := { entryOf c i with pc := c.head }
  let val := fun (o : Opnd) => rdOpnd c o .n64 uniTid
  match i with
  | .aalloc _ | .afree _ | .azero _ | .wldZero _ => some e
  | .wld x _ => some { e with val := val x.b, tiles := tilesOf [x.a, x.b] }
  | .mmaTile x _ =>
    some { e with val := val x.b, rows := (mmaRows x.b (val x.b) (tileSize g x.a) (rowBytes g)).1, tiles := tilesOf [x.a, x.c] }
  | .mmaMemory x _ =>
    some { e with val := val x.b, addr := val x.a, rows := bitsAt (extWord x) 32 11, done := restoredRow c.tr c.head
                  tiles := tilesOf [x.c] }
  | .mmt x _ _ =>
    some { e with val := val x.c, rows := (mmtShape x).1, done := if first then restoredStep g.tprog x else 0
                  tiles := tilesOf [x.a, x.b] }
  | .adrainReg _ _ _ => some { e with rows := 16 }
  | .adrainSp x _ _ => some { e with rows := 16, addr := BitVec.ofNat 64 (rdOpnd c x.b .b32 uniTid).toNat }
  | .adrainGm x _ _ => some { e with rows := 16, addr := val x.b, done := restoredRow c.tr c.head }
  | _ => none

/-- Whether the train of a matrix instruction waits for it (R132, R142, R147). -/
def waitedFor : Instr → Bool
  | .mmaMemory _ _ | .adrainReg _ _ _ | .adrainSp _ _ _ | .adrainGm _ _ _ => true
  | _ => false

/-- The names of an `afree` are unbound for what comes behind it (R132, R137). -/
def isAfree : Instr → Bool
  | .afree _ => true
  | _ => false

/-- The names that an entry of the save frees: the image has them bound still, and an `aalloc` behind it may have named them anew. -/
def unbindFreed (e : MqEntry) (g : Wg) : Wg :=
  match e.instr with
  | .afree x => unbindNames g (accNum x.d) e.banks.length fun b => isPending b.bank
  | _ => g

/-- An entry of an image enters the queue: a name that is unbound ends it UNBOUND at its turn (R135); the train waits where it stands
at an instruction that it waits for. An `aalloc` whose train stands elsewhere, or whose names are bound, is none. -/
def enterEntry (s : State) (w : Nat) (c : Ctx) (g : Wg) (e : MqEntry) : State :=
  let (first, n) := namesOf c g e.instr
  let here : Bool := c.tr.pc = e.pc && c.tr.selected ≠ 0 && c.tr.block.isNone
  match e.instr with
  | .aalloc x =>
    if here && (List.range n).all fun j => (Tab.get? g.accs (first + j)).isNone then
      let (id, s) := enqueue s w e
      let s := modWg s w fun g => { g with accs := (pendingNames g id first n).foldl (fun t b => Tab.put t b.1 b.2) g.accs }
      modTrain (blockAt s c.k e.pc (.aalloc (banksNeeded g n) id s.clk)) c.k fun tr => { tr with atWait := some (.aalloc x) }
    else s
  | i =>
    let none' : Bool := unboundIn g first n
    let banks := if none' then [⟨pendingBank s.nextId 0, none⟩] else bindsOf g first n
    let (id, s) := enqueue s w { e with banks := banks }
    let s := if isAfree i && !none' then modWg s w fun g => unbindNames g first n else s
    if here && waitedFor i then blockAt s c.k e.pc (.matrixOp id) else s

/-- Entry `i` of an image enters the queue: the one that the save knew, where the image still holds it, with the operands that it read at
its issue; else what the image holds there. -/
def enterImage (m : Img) (w : Nat) (old : List MqEntry) (s : State) (i : Nat) : State :=
  match wg? s w, old[i]?.filter (entryStands m i) with
  | none, _ => s
  | some _, some e =>
    let tr := (trainByUid s e.uid).elim {} (·.2)
    modWg s w fun g => { unbindFreed e g with mq := g.mq ++ [{ e with done := restoredDone g tr e }] }
  | some g, none =>
    let at' := 0x500 + 32 * i
    let who := Img.getN m (at' + 24) 1
    let train := (trainsOfWg s w).filterMap fun k => (train? s k).map fun t => (k, t)
    match decode (Tab.readList 0 m at' 16), train.find? fun e => e.2.trn = who % 128 with
    | .ok (instr, _), some (k, tr) =>
      let pc : Dword := BitVec.ofNat 64 (bitsAt (Img.getN m (at' + 16) 8) 0 48)
      let c : Ctx := { instr := instr, k := k, tr := tr, x := (matrixArgs instr).getD (peekArgs (Tab.readList 0 m at' 8)), head := pc, mask := tr.selected
                       clk := s.clk, wgid := g.wgid, imm := (rules instr).imm }
      match imageEntry c g instr (!mmtQueued g) with
      | some e => if who ≥ 128 then enterEntry s w c g e else s
      | none => s
    | _, _ => s

/-- A wait for an entry that is in the queue no more is over, and its names are unbound; its train executes the instruction again. -/
def settleQueue (s : State) (w : Nat) : State :=
  let gone := fun (g : Wg) (id : Nat) => !g.mq.any (·.id = id)
  match wg? s w with
  | none => s
  | some g =>
    let s := (trainsOfWg s w).foldl (fun s k => match (train? s k).bind (·.block) with
      | some (.matrixOp id) | some (.aalloc _ id _) => if gone g id then unblock s k else s
      | _ => s) s
    modWg s w fun g => settleActive { g with accs := g.accs.filter fun e => !isPending e.2.bank || !gone g ((e.2.bank - 64) / 128) }

/-- The matrix queue of a restored workgroup. -/
def restoreQueue (m : Img) (w : Nat) (s : State) : State :=
  let old := (wg? s w).elim [] (·.mq)
  settleQueue ((List.range 8).foldl (enterImage m w old) (modWg s w fun g => { g with mq := [] })) w

/-- The image of a saved workgroup as memory holds it. -/
def Saved.img (s : State) (pieces : List (Nat × Nat × Nat)) : Img := pieces.foldl (getImagePiece s) []

/-- Load an image on a core: slots (the lowest free ones, log 29), granules, scratchpad and banks are taken, VALID is cleared, every train
selects. -/
def loadImage (s : State) (id core : Nat) (sv : Saved) (pieces : List (Nat × Nat × Nat)) : State :=
  match pickSlot s (Saved.need s sv).deep core with
  | none => s
  | some slot =>
    let m := Saved.img s pieces
    let g0 := sv.wg
    let banks := (freeBanks s core).take g0.used.length
    let g := readWg m { g0 with core := core, slot := slot, since := s.clk, sliceOver := false, stopping := false, drain := none
                                qSince := s.clk, bSince := s.clk, gSince := s.clk } banks
    let w := wgKey core slot
    let s := modCore s core fun co => { co with acc := readBanks m (bankSection g0) banks co.acc }
    let s := match pieces with
      | p :: _ => writeMem s (p.2.2 + 1) 1 (bitsAt (Img.getN m 0 8) 8 8 / 2 * 2)
      | [] => s
    let s := putWg { s with saved := Tab.del s.saved id } w g
    restoreQueue m w (restoreTrains m g0 w core (sv.trains.zip (freeTrainSlots s core)) s)

/-- The barriers and the ends of a workgroup that has been loaded: a gang's once all its members are there (R258). -/
def settleLoaded (s : State) (sv : Saved) : State :=
  let s := match wgByUid s sv.wg.uid with | some w => settleBarriers s w | none => s
  sv.trains.foldl (fun s t => match trainByUid s t.uid with | some (k, _) => settleTrain s k | none => s) s

/-- The trains of a saved workgroup that are killed once it has been loaded. -/
def killedLoaded (s : State) (sv : Saved) : List Nat :=
  sv.trains.filterMap fun t => if killedSaved t then (trainByUid s t.uid).map (·.1) else none

/-- Load the images of workgroups that are restored together: each with its record's number, its core and its pieces. What was marked for
kill at a kill point leaves its wait before anything can end it (R357). -/
def loadImages (s : State) (l : List (Nat × Saved × Nat × List (Nat × Nat × Nat))) : State :=
  let s := l.foldl (fun s e => loadImage s e.1 e.2.2.1 e.2.1 e.2.2.2) s
  let dead := l.flatMap fun e => killedLoaded s e.2.1
  l.foldl (fun s e => settleLoaded s e.2.1) (dead.foldl goToKpc (dead.foldl abandonWait s))

/-- The saved workgroups that are restored together. -/
def togetherSaved (s : State) (sv : Saved) : List (Nat × Saved) :=
  let size := if sv.wg.gang = 1 then 2 else 4
  s.saved.filter fun e => e.2.wg.launch = sv.wg.launch && e.2.hwimg &&
    (sv.wg.cls = 0 || (e.2.wg.core / size = sv.wg.core / size && sv.wg.gang ≠ 0) || e.2.wg.uid = sv.wg.uid)

/-- A waiting class 0 or class 1 launch of the partition comes before a saved workgroup on a core (R311, R312). -/
def firstServed (s : State) (sv : Saved) (core : Nat) : Bool :=
  s.launches.any fun e => e.1 ≠ sv.wg.launch && e.2.part = sv.wg.part && e.2.state ≠ .complete && !e.2.doomed && !e.2.hdr.isEmpty
    && e.2.cls ≤ 1 && e.2.left.contains core && e.2.prio ≥ sv.wg.prio

/-- Whether a core takes a saved workgroup now. -/
def coreTakes (s : State) (sv : Saved) (core : Nat) : Bool := (available s none core).fits (Saved.need s sv)

/-- A pre-empted activation train comes back on a core of its cluster that has room, as its first admission had it (R285, R390). -/
def restoreAct (s : State) (id core : Nat) : State :=
  match Tab.get? s.savedActs id, (freeTrainSlots s core).head? with
  | some tr, some slot =>
    let r := available s none core
    if actCluster tr ≠ some (core / 4) || r.trains < 1 || r.grans < 4 then s
    else
      let k := trainKey core slot
      let tr' := { tr with core := core, slot := slot, block := none, atWait := none }
      let s := { s with savedActs := Tab.del s.savedActs id }
      let s := loseLatches (putTrain s k (settleMarks s (reselect (rewindTo tr' tr'.pc)))) k
      if killedSaved tr then killNow s k else settleTrain s k
  | _, _ => s

/-- RESTORE: a workgroup that the distributor saved comes back, a class 0 launch and a gang together and on their own cores; so does a
pre-empted activation train. -/
def execRestore (saved core : Nat) (s : State) : Host.Outcome State Fault Refusal :=
  unitStep (match Tab.get? s.saved saved with
    | none => restoreAct s saved core
    | some sv =>
      let all := togetherSaved s sv
      let fixed : Bool := sv.wg.cls = 0 || sv.wg.gang ≠ 0
      if !sv.hwimg || (launch? s sv.wg.launch).any (·.halted) then s
      else if fixed then
        if all.all fun e => coreTakes s e.2 e.2.wg.core && !firstServed s e.2 e.2.wg.core then
          loadImages s (all.map fun e => (e.1, e.2, e.2.wg.core, e.2.pieces s))
        else s
      else if core < 192 && coreTakes s sv core && !firstServed s sv core then loadImages s [(saved, sv, core, sv.pieces s)]
      else s)

/-! ## Migration (R313) -/

/-- MIGRATE: a workgroup of class 1 or 2 leaves the core of a waiting gang for another with room, through the Depot. -/
def execMigrate (wg core : Nat) (s : State) : Host.Outcome State Fault Refusal :=
  unitStep (match wg? s wg with
    | none => s
    | some g =>
      let need : WgNeed := { deep := (launch? s g.launch).any (·.depth ≥ 1), trains := g.ntrains, grans := g.ntrains * g.vgran
                             pad := g.pad, banks := g.used.length + g.resv }
      if g.cls = 0 || g.gang ≠ 0 || core = g.core || core ≥ 192 || !gangWants s g || !(available s none core).fits need
        || (depotRoom s g.part (imageSize g)).isNone then s
      else if mustFinish s wg || !atBoundary s [wg] then stopIssue s [wg] true
      else
        let s := saveToDepot s wg
        match s.saved.find? fun e => e.2.wg.uid = g.uid with
        | some (id, sv) => loadImages s [(id, sv, core, sv.pieces s)]
        | none => s)

/-! ## ctxs and ctxl (R403, R404) -/

/-- The pages of an image are reached (R163): a train that cannot reach one parks or traps. -/
def withImage (c : Ctx) (acc : Access) (va : Dword) (go : State → Res) : List (Nat × Nat) → State → Res
  | [], s => go s
  | (off, _) :: rest, s =>
    let at' := va + BitVec.ofNat 64 off
    match access s c.tr acc at' 1 with
    | (s, .fault pte) => .left (park s c.k c.head at' (if acc = .load then 0 else 1) pte c.tr.pc 0)
    | (s, x) => match reachXl s x with
      | .bad cause => .done s { trap := violationTrap c [(uniTid, at', cause)] }
      | _ => withImage c acc va go rest s

/-- `ctxs` (R403): the train's earlier accesses are performed before the image is written (R189). -/
def execCtxs (x : Args) (s : State) : Host.Outcome State Fault Refusal :=
  issue (.ctxs x) x true s fun c s =>
    if !c.on then .done s {}
    else
      let s := performEarlier s c.k
      let a := (rdOpnd c x.a .n64 uniTid).toNat
      let addr := rdOpnd c x.b .n64 uniTid
      match wg? s (wgKey (bitsAt a 0 8) (bitsAt a 8 3)) with
      | none => uniResult s Rc.invalid
      | some g =>
        if g.part ≠ c.tr.part then .trap s (trapOf Trap.privilege 2)
        else if c.tr.wg = some (wgKey (bitsAt a 0 8) (bitsAt a 8 3)) || g.cls = 0 || g.gang ≠ 0 || addr.toNat % 64 ≠ 0 then
          uniResult s Rc.invalid
        else if addr = 0 then
          if (depotRoom s g.part (imageSize g)).isNone then uniResult s Rc.full
          else waitHere (.ctxs x) c s (.ctxs g.uid addr)
        else withImage c .store addr (fun s => waitHere (.ctxs x) c s (.ctxs g.uid addr)) (imageChunks addr (imageSize g)) s

/-- The saved workgroup that an image describes: the same launch header, `wgid`, ASID and CLK. -/
def savedOfImage (s : State) (m : Img) : Option (Nat × Saved) :=
  s.saved.find? fun e => !e.2.hwimg && Img.getN m 0x18 8 = e.2.clk.toNat && bitsAt (Img.getN m 0x10 8) 0 8 = e.2.wg.wgid
    && bitsAt (Img.getN m 0x10 8) 16 12 = e.2.wg.asid && Img.getN m 8 8 = (launch? s e.2.wg.launch).elim 0 (·.hdrVA.toNat)

/-- The launch that an image names, with its number: one of the module, or a header that is no launch's, under a number of its
own. -/
def imageLaunch (s : State) (part asid : Nat) (hdrVA : Dword) : Nat × Launch :=
  match s.launches.find? fun e => e.2.part = part && e.2.asid = asid && e.2.hdrVA = hdrVA with
  | some e => e
  | none =>
    let l : Launch := { part := part, asid := asid, priv := true, hdrVA := hdrVA }
    (s.nextId, (readHeader s l).getD l)

/-- The pending grants that an image holds: as many as its trains have taken, and those beyond that are not 0. -/
def imageGrants (m : Img) (taken : Nat) : List Dword :=
  let all := (List.range 16).map fun i => (BitVec.ofNat 64 (Img.getN m (0x80 + 8 * i) 8) : Dword)
  let last := (List.range 16).foldl (fun n i => if all.getD i 0 ≠ 0 then i + 1 else n) 0
  all.take (if last < taken then taken else last)

/-- The workgroup of an image that is no saved one's: what its header and sections hold (R391, R392), and for the rest what its launch
header gives (log 50). -/
def foreignWg (s : State) (m : Img) : Nat × Launch × Wg :=
  let w := fun off => Img.getN m off 8
  let part := bitsAt (w 0x10) 28 6
  let asid := bitsAt (w 0x10) 16 12
  let (id, l) := imageLaunch s part asid (BitVec.ofNat 64 (w 8))
  let ntrains := bitsAt (w 0) 16 5
  let g : Wg :=
    { uid := s.nextId + 1, launch := id, wgid := bitsAt (w 0x10) 0 8, core := bitsAt (w 0x10) 8 8, part := part, asid := asid
      ntrains := ntrains, vgran := bitsAt (w 0) 21 6, sgran := bitsAt (w 0) 27 4
      pad := bitsAt (w 0) 32 15, qbytes := l.qbytes, tbytes := l.tbytes, ntiles := l.ntiles, cls := l.cls, prio := l.prio
      idem := l.idem, disp := l.disp, used := List.range (bitsAt (w 0) 47 8), resv := bitsAt (w 0x488) 0 7
      qstall := (partAt s part).qstall.toNat, bstall := (partAt s part).bstall.toNat
      banks := bitsAt (w 0) 47 8 + bitsAt (w 0x488) 0 7 }
  let taken := (List.range ntrains).foldl (fun n i =>
    let x := bitsAt (w (0x800 + i * trainSize g + 0x30)) 0 5
    if n < x then x else n) 0
  (id, l, { g with grants := imageGrants m taken })

/-- The record under which the image of no saved workgroup is loaded. Of a train in its handler, the lanes whose XST is held count as
arrived (R380, log 50). -/
def foreignSaved (s : State) (m : Img) : State × Saved :=
  let (id, l, g) := foreignWg s m
  let trains := (List.range g.ntrains).map fun i => newTrain l id 0 g.core 0 i (s.nextId + 2 + i)
  let arrived := fun (t : Train) => { t with xbar := heldAtTrap m g t 2, xgbar := heldAtTrap m g t 3 }
  ({ s with nextId := s.nextId + 2 + g.ntrains }, { wg := g, trains := trains.map arrived, image := 0, size := imageSize g })
where
  /-- The lanes of a train of an image that its handler finds with a state in XST. -/
  heldAtTrap (m : Img) (g : Wg) (t : Train) (code : Nat) : Mask :=
    maskOf fun l => bitsAt (Img.getN m (0x800 + t.trn * trainSize g + 0x280 + 8 * l) 8) 48 3 = code

/-- A workgroup that a core can hold has 1 to 16 trains (R18). -/
def hasTrains (g : Wg) : Bool := 1 ≤ g.ntrains && g.ntrains ≤ 16

/-- The core that takes an image: the one named, or with 0xFF the lowest with room; none while the partition admits nothing. No core suits
an image of more trains than R18 gives a workgroup, or of none: R404's INVALID list does not name it, so it gives FULL (log 50). -/
def imageCore (s : State) (sv : Saved) (n : Nat) : Option Nat :=
  if (partAt s sv.wg.part).closed || !hasTrains sv.wg then none
  else if n = 0xFF then (List.range 192).find? (coreTakes s sv) else if coreTakes s sv n then some n else none

/-- Admit an image that is reached. -/
def admitImage (c : Ctx) (s : State) (m : Img) (va : Dword) (n : Nat) : Res :=
  let known := savedOfImage s m
  let (s', sv) := match known with
    | some (_, sv) => (s, sv)
    | none => foreignSaved s m
  match imageCore s' sv n, imagePlaces s' c.tr.part c.tr.asid .load va sv.size with
  | some core, some pieces =>
    uniResult (loadImages s' [((known.map (·.1)).getD s.nextId, sv, core, pieces)]) (BitVec.ofNat 64 core)
  | _, _ => uniResult s Rc.full

/-- `ctxl` (R404): the image is read behind the train's earlier accesses (R189, R195). -/
def execCtxl (x : Args) (s : State) : Host.Outcome State Fault Refusal :=
  issue (.ctxl x) x true s fun c s =>
    if !c.on then .done s {}
    else
      let s := performEarlier s c.k
      let va := rdOpnd c x.a .n64 uniTid
      let n := (rdOpnd c x.b .n64 uniTid).toNat % 256
      let image := fun (s : State) (size : Nat) => Saved.img s ((imagePlaces s c.tr.part c.tr.asid .load va size).getD [])
      if va.toNat % 64 ≠ 0 then uniResult s Rc.invalid
      else withImage c .store va (fun s => withImage c .load va (fun s =>
        let head := image s 64
        let h0 := Img.getN head 0 8
        let h2 := Img.getN head 0x10 8
        if bitsAt h0 8 1 = 0 || bitsAt h0 0 8 ≠ 1 || bitsAt h0 10 1 = 1 || bitsAt h2 28 6 ≠ c.tr.part || (n > 191 && n ≠ 0xFF) then
          uniResult s Rc.invalid
        else if bitsAt h2 34 16 ≠ (Tab.read 0 s.agens (bitsAt h2 16 12)).toNat then uniResult s Rc.stale
        else
          let size := imageSize (foreignWg s head).2.2
          withImage c .load va (fun s => admitImage c s (image s size) va n) (imageChunks va size) s)
        [(0, 64)] s) [(0, 64)] s

end Sys2Proof.Machine
end

