-- ==== Sys2Proof/Machine/Partition.lean ====
section
/-! DEFINITION. Partition reset, shares and attestation (R393 to R398). -/

namespace Sys2Proof.Machine

/-! ## What a reset ends (R395 step 3) -/

/-- The launches of a partition complete TERMINATED, and leave the pool. -/
def endLaunches (s : State) (p : Nat) : State :=
  let mine := s.launches.filter fun e => e.2.part = p
  let live := mine.filter fun e => e.2.state ≠ .complete
  let s := live.foldl (fun s e => terminateLaunch s e.1) s
  let s := live.foldl (fun s e => match launch? s e.1 with
    | none => s
    | some l =>
      let l := if l.hdr.isEmpty then (readHeader s l).getD l else l
      let s := if l.comp ≠ 0 ∧ l.comp.toNat % 64 = 0 then writeCompletion s l 3 else s
      completeLaunch s e.1 (BitVec.ofNat 64 (compWord l 3))) s
  let s := mine.foldl (fun s e => freePool s e.1) s
  { s with launches := s.launches.filter fun e => e.2.part ≠ p }

/-- The lines of a partition end at once (R273). -/
def endLines (s : State) (p : Nat) : State :=
  let mine := (s.lines.filter fun e => e.2.part = p).map (·.1)
  let s := { s with pendActs := s.pendActs.filter fun a => !mine.contains a.line }
  mine.foldl (fun s l => { s with lines := Tab.del s.lines l, lineGen := Tab.write 0 s.lineGen l (Tab.read 0 s.lineGen l + 1) }) s

/-- The service tokens of a partition are free again. -/
def endServices (s : State) (p : Nat) : State := freeServices s fun e => e.part = p

/-- The trains of a partition that belong to no launch are killed. -/
def endTrains (s : State) (p : Nat) : State := (trainsWhere s fun _ t => t.part = p).foldl killTrain s

/-- What a partition has saved is killed where it lies: the trains end in every join in which they are enrolled (R342, R347). -/
def endSaved (s : State) (p : Nat) : State :=
  let acts := s.savedActs.filter fun e => e.2.part = p
  let wgs := s.saved.filter fun e => e.2.wg.part = p
  let s := (acts.map (·.2) ++ wgs.flatMap (·.2.trains)).foldl (fun s t => endContribs s t.uid true none) s
  { s with saved := s.saved.filter (fun e => e.2.wg.part ≠ p), savedActs := s.savedActs.filter fun e => e.2.part ≠ p }

/-- The banks that a partition's workgroups hold are written to zero; a scratchpad goes with its workgroup. -/
def zeroBanks (s : State) (p : Nat) : State :=
  (s.wgs.filter fun e => e.2.part = p).foldl (fun s e => clearBanks s e.2.core e.2.used) s

/-- Step 3: all work of a partition is killed. -/
def killPartition (s : State) (p : Nat) : State :=
  let s := zeroBanks s p
  let s := endOpsWhere s (fun o => o.part = p) Code.terminated
  let s := endSaved (endTrains (endLaunches s p) p) p
  let s := { s with wgs := s.wgs.filter fun e => e.2.part ≠ p }
  let s := (s.joins.filter fun e => e.2.part = p).foldl (fun s e => cancelJoin s e.1) (endLines s p)
  let s := endServices (repairRings s p) p
  let s := (s.faults.filter fun e => e.2.part = p).foldl (fun s e => freeFault s e.1 e.2.status) s
  { s with ops := s.ops.filter fun e => e.2.part ≠ p }

/-! ## What a reset leaves (R395 steps 4 to 6) -/

/-- Every granule that a partition owns is written to zero. -/
def zeroMemory (s : State) (p : Nat) : State := { s with mem := s.mem.filter fun e => !ownedBy s p e.1 }

/-- Every ASID of a partition advances its generation. -/
def advanceAll (s : State) (p : Nat) : State :=
  (s.asidTab.filter fun e => asidOwned s p e.1).foldl (fun s e => advanceGen s e.1) s

/-- The translation roots of a partition's ASIDs take their reset value (R406). -/
def resetRoots (s : State) (p : Nat) : State := { s with roots := s.roots.filter fun e => !asidOwned s p e.1 }

/-- Steps 3 to 6: the partition is reset, and IRQ.RESET is set. -/
def resetPartition (s : State) (p : Nat) : State :=
  let s := resetRoots (advanceAll (zeroMemory (killPartition s p) p) p) p
  let s := { s with parts := Tab.del s.parts p, super := { s.super with resets := s.super.resets.filter (·.1 ≠ p) } }
  setIrq s p 4

/-- Whether a reset of partition `p` is asked for and not yet begun, with its mode: KILL when true. -/
def resetAsked (s : State) (p : Nat) (kill : Bool) : Bool := s.super.resets.contains (p, kill)

/-- PARTITION_RESET_DRAIN (R395 steps 1 and 2): admission stops, and running launches get DRAINMAX cycles. -/
def execPartitionResetDrain (p : Nat) (s : State) : Host.Outcome State Fault Refusal :=
  unitStep (if resetAsked s p false && (partAt s p).resetDrain.isNone then
      modPart s p fun q => { q with closed := true, resetDrain := some s.clk }
    else s)

/-- PARTITION_RESET_KILL: at once in mode KILL; in mode DRAIN when every launch of the partition has completed. -/
def execPartitionResetKill (p : Nat) (s : State) : Host.Outcome State Fault Refusal :=
  let idle := s.launches.all fun e => e.2.part ≠ p || e.2.state = .complete
  unitStep (if resetAsked s p true || ((partAt s p).resetDrain.isSome && idle) then resetPartition s p else s)

/-- PARTITION_DRAIN_EXPIRY: DRAINMAX cycles have passed; what remains is killed. -/
def execPartitionDrainExpiry (p : Nat) (s : State) : Host.Outcome State Fault Refusal :=
  unitStep (match (partAt s p).resetDrain with
    | some c => if s.clk - c ≥ (partAt s p).drainmax.toNat then resetPartition s p else s
    | none => s)

/-! ## Shares (R396) -/

/-- QOS_SET: the shares of one partition. -/
def setShares (s : State) (p : Nat) (slots tokens : Byte) : State :=
  modPart { s with super := { s.super with qpart := BitVec.ofNat 6 p, qslots := slots, qtokens := tokens } } p
    fun q => { q with slots := slots, tokens := tokens }

def execQosSet (p : Nat) (slots tokens : Byte) (s : State) : Host.Outcome State Fault Refusal :=
  unitStep (setShares s p slots tokens)

/-! ## Attestation (R397, R398) -/

/-- The bytes of the ASID table and of the partition map (R412). -/
def asidBytes (s : State) : List Byte := (List.range 4096).flatMap fun a => bytesOf (Tab.read 0 s.asidTab a).toNat 8
def pmapBytes (s : State) : List Byte := Tab.readList 0 s.pmap 0 0x64000

/-- The bytes of a number, most significant first. -/
def bigEndian (v n : Nat) : List Byte := (bytesOf v n).reverse

/-- What the boot ROM finds of one firmware image, in the codes of BOOT: 0 OK, 1 the key or the signature is refused, 2 the
version. -/
def bootCheck (f : Config.Firmware) : Nat :=
  if sha256 (bigEndian f.key.toNat 64) ≠ Config.fusedKeyDigest || !Config.verifyP256 f.key (sha256 f.image) f.signature then 1
  else if f.version < Config.fusedVersion then 2
  else 0

/-- BOOT: the self-test's failure, or the first refusal in boot order (R397, R420). -/
def bootStatus : Byte :=
  if !Config.selfTest then 3
  else if bootCheck Config.stationmaster ≠ 0 then BitVec.ofNat 8 (bootCheck Config.stationmaster)
  else BitVec.ofNat 8 (bootCheck Config.management)

/-- The digest of the firmware images in boot order. -/
def firmwareDigest : BitVec 256 := sha256 (Config.stationmaster.image ++ Config.management.image)

/-- Bytes 0x00 to 0x7F of a report (R398), least significant byte first like every multi-byte value of the module (R3); R398 excepts SIG
alone. -/
def reportBody (s : State) (nonce : List Byte) : List Byte :=
  bytesOf 1 8 ++ bytesOf (identWord s).toNat 8 ++ nonce ++ bytesOf firmwareDigest.toNat 32
    ++ bytesOf (sha256 (asidBytes s ++ pmapBytes s)).toNat 32 ++ bytesOf s.attest.toNat 8 ++ bytesOf 0 8

/-- ATTESTATION_REPORT: the nonce at ATTADDR, the signed report at offset 64; COUNTER advances. -/
def writeReport (s : State) : State :=
  let a := s.super.attAddr.toNat
  if a + 256 ≤ nearEnd then
    let body := reportBody s (readBytes s a 32)
    let sig := bigEndian (Config.signP256 (sha256 body)).toNat 64
    { writeBytes s (a + 64) (body ++ sig) with attest := s.attest + 1 }
  else s

def execAttestationReport (s : State) : Host.Outcome State Fault Refusal := unitStep (writeReport s)

end Sys2Proof.Machine
end

