-- ==== Sys2Proof/Machine/Stationmaster.lean ====
section
/-! DEFINITION. Host command queues and the Stationmaster (R414 to R419), host memory accesses (R412, R413, R434), and the
supervisor window (R420). -/

namespace Sys2Proof.Machine

/-! ## Queue registers (R414, R415) -/

def queueOf (q : Part) (sup : Bool) : CmdQueue := if sup then q.superQ else q.userQ
def setQueue (s : State) (p : Nat) (sup : Bool) (x : CmdQueue) : State :=
  modPart s p fun q => if sup then { q with superQ := x } else { q with userQ := x }

/-- A QTAIL write, the doorbell: while STOPPED it also sets QHEAD; a value too far ahead puts the queue into ERROR. -/
def writeTail (s : State) (p : Nat) (sup : Bool) (v : Word) : State :=
  let x := queueOf (partAt s p) sup
  if x.state = 0 then setQueue s p sup { x with tail := v, head := v }
  else if (v - x.head).toNat > x.size then setQueue s p sup { x with tail := v, state := 2, err := x.base }
  else setQueue s p sup { x with tail := v }

def execQtail (p : Nat) (sup : Bool) (value : Word) (s : State) : Host.Outcome State Fault Refusal :=
  unitStep (writeTail s p sup value)

/-- The granules of a ring: all owned by the partition and host-visible. -/
def ringGranules (s : State) (p base size : Nat) : Bool :=
  (List.range (size / 2 ^ 21 + 2)).all fun i =>
    let a := if i * 2 ^ 21 < size then base + i * 2 ^ 21 else base + size - 1
    ownedBy s p a && hostVisible s a

/-- The rules of QBASE, QSIZE and QASID. -/
def queueValid (s : State) (p : Nat) (x : CmdQueue) : Bool :=
  let b := x.base.toNat
  b % 64 = 0 && bulkBase ≤ b && b + 64 * x.size ≤ bulkEnd && 4 ≤ x.size && x.size ≤ 65536
    && (List.range 17).any (fun i => x.size = 2 ^ i) && ringGranules s p b (64 * x.size) && asidOwned s p x.asid

/-- A QSTATE write: 0 stops, 1 starts a valid queue; 2 and 3 are ignored. -/
def writeState (s : State) (p : Nat) (sup : Bool) (v : Dword) : State :=
  let x := queueOf (partAt s p) sup
  match bitsAt v.toNat 0 2 with
  | 0 => setQueue s p sup { x with state := 0 }
  | 1 => if queueValid s p x then setQueue s p sup { x with state := 1 } else s
  | _ => s

def execQstate (p : Nat) (sup : Bool) (value : Dword) (s : State) : Host.Outcome State Fault Refusal :=
  unitStep (writeState s p sup value)

/-! ## Packets (R416, R419) -/

def Packet.word (pk : Packet) (i : Nat) : Nat := (pk.words.getD i 0).toNat
def Packet.type (pk : Packet) : Nat := bitsAt (pk.word 0) 0 8
def Packet.units (w : Nat) : Nat := bitsAt w 8 2 + 1

/-- The bits that a packet of a type may set, by dword; `none` for a type or a length outside the table. -/
def packetMask (type units : Nat) : Option (Nat → Nat) :=
  let all := 2 ^ 64 - 1
  match type, units with
  | 1, 1 => some fun i => if i = 1 || i = 2 then all else 0
  | 2, 1 => some fun i => if i = 1 || i = 2 then all else if i = 3 then 1 else 0
  | 3, 1 => some fun _ => 0
  | 4, 2 => some fun i => if i = 13 then all - 3 - 2 ^ 14 else if i = 1 || 8 ≤ i then all else 0
  | 5, 1 => some fun i => if i = 1 then 1 else if i = 3 then 255 else if i = 2 || i = 4 then all else 0
  | 6, 1 => some fun i => if i = 1 then all else 0
  | 7, n => if 1 ≤ n ∧ n ≤ 4 then some fun _ => 0 else none
  | _, _ => none

/-- Whether a packet's header puts its queue into ERROR. -/
def headerBad (x : CmdQueue) (h : Nat) : Bool :=
  let n := Packet.units h
  (packetMask (bitsAt h 0 8) n).isNone || bitsAt h 10 54 ≠ 0 || n > x.size || x.head.toNat % x.size + n > x.size

/-- Whether a packet's header or reserved bits put its queue into ERROR. -/
def packetBad (x : CmdQueue) (words : List Dword) : Bool :=
  let h := (words.getD 0 0).toNat
  headerBad x h || match packetMask (bitsAt h 0 8) (Packet.units h) with
    | none => true
    | some mask => (List.range (8 * Packet.units h)).any fun i =>
        i ≠ 0 && (words.getD i 0).toNat &&& (2 ^ 64 - 1 - mask i) ≠ 0

/-- Where the next unit of a queue lies. -/
def unitAddr (x : CmdQueue) : Nat := x.base.toNat + 64 * (x.head.toNat % x.size)

/-- A queue enters ERROR (R419). -/
def queueError (s : State) (p : Nat) (sup : Bool) (x : CmdQueue) (addr : Nat) : State :=
  let s := setQueue s p sup { x with state := 2, err := BitVec.ofNat 64 addr }
  logViolation s p (BitVec.ofNat 64 addr) 0 15 0xFF x.asid 0 (if sup then 1 else 0)

/-- A queue with a unit to read. -/
def CmdQueue.waiting (x : CmdQueue) : Bool := x.state = 1 && x.head ≠ x.tail

/-- A queue with a packet: all its units lie before QTAIL, so that none is read before its QTAIL write, or its header, the first of them,
is an error by itself (R415, R417). -/
def hasPacket (s : State) (x : CmdQueue) : Bool :=
  let h := readMem s (unitAddr x) 8
  x.waiting && (headerBad x h || Packet.units h ≤ (x.tail - x.head).toNat)

/-- A lane selects a queue and reads its packet (R417). A Stationmaster whose image the boot ROM refused is not executed (R397). -/
def selectPacket (s : State) (p : Nat) : State :=
  let q := partAt s p
  if q.closed || s.super.smRefused || s.super.limp || q.lane.packet.isSome || q.lane.hold.isSome then s
  else if !(hasPacket s q.superQ || hasPacket s q.userQ) then s
  else
    let sup := hasPacket s q.superQ
    let x := queueOf q sup
    let addr := unitAddr x
    let n := if headerBad x (readMem s addr 8) then 1 else Packet.units (readMem s addr 8)
    let words := (List.range (8 * n)).map fun i => (BitVec.ofNat 64 (readMem s (addr + 8 * i) 8) : Dword)
    if packetBad x words then queueError s p sup x addr
    else modPart s p fun q => { q with lane := { packet := some { sup := sup, addr := addr, words := words } } }

/-- A lane whose packet is still to be executed in this step. -/
def pendingType (q : Part) : Option Nat :=
  match q.lane.packet, q.lane.hold with
  | some pk, none => some pk.type
  | _, _ => none

/-- STATIONMASTER_STEP: a new step, once the packets of the last one are executed. -/
def execStationmasterStep (s : State) : Host.Outcome State Fault Refusal :=
  unitStep (if s.parts.any fun e => (pendingType e.2).isSome then s
    else (s.parts.map (·.1)).foldl selectPacket s)

/-! ## The execution of packets (R418) -/

/-- The packet of a lane when its type has its turn: types execute in ascending order. -/
def turnOf (s : State) (p type : Nat) : Option Packet :=
  let q := partAt s p
  match q.lane.packet with
  | none => none
  | some pk =>
    let held : Bool := match q.lane.hold with | none => false | some .room => false | some _ => true
    let before := s.parts.any fun e => e.1 ≠ p && (match pendingType e.2 with | some t => t < type | none => false)
    if pk.type = type && !held && !before then some pk else none

def holdLane (s : State) (p : Nat) (h : Option LaneHold) : State :=
  modPart s p fun q => { q with lane := { q.lane with hold := h } }

def laneAsid (s : State) (p : Nat) (pk : Packet) : Nat := (queueOf (partAt s p) pk.sup).asid

/-- A lane parks on a translation fault as a train does (R159, R418), in the fault buffer of the cluster of its copies (log 36). -/
def parkLane (s : State) (p asid : Nat) (va : Dword) (kind pte : Nat) : State :=
  match takeEntry s (p % 48) { va := va, asid := asid, part := p, kind := kind, core := 0, slot := 0, pc := 0, links := 1, pte := pte } with
  | (none, s) => holdLane s p (some .room)
  | (some i, s) => holdLane s p (some (.fault (i / 1024) (i % 1024) va))

/-- A violation ends the packet with no further effect, and is logged (R418). -/
def endPacket (s : State) (p asid : Nat) (va : Dword) (cause : Nat) : State :=
  acceptPacket (logViolation s p va 0 cause 0xFF asid 0 0) p

/-- An access of a packet: `go` continues with the place, here or in another module. -/
def laneAccess (s : State) (p : Nat) (pk : Packet) (acc : Access) (va : Dword) (align : Nat) (go : Nat → State) : State :=
  let asid := laneAsid s p pk
  match unitAccess s p asid pk.sup acc va align with
  | .fault pte => parkLane s p asid va (if acc = .load then 0 else 1) pte
  | .bad c => endPacket s p asid va c
  | .remote _ _ => endPacket s p asid va causeRemote
  | .mem pa => go pa

/-- Run the packet of a lane when its type has its turn. -/
def packetStep (s : State) (p type : Nat) (body : Packet → State) : Host.Outcome State Fault Refusal :=
  unitStep (match turnOf s p type with
    | some pk => body pk
    | none => s)

/-- SETV. -/
def execSetv (p : Nat) (s : State) : Host.Outcome State Fault Refusal :=
  packetStep s p 1 fun pk =>
    laneAccess s p pk .store (pk.words.getD 1 0) 8 fun pa => acceptPacket (writeMem s pa 8 (pk.word 2)) p

/-- The condition of a WAITV is read: the packet is accepted when it holds, and holds its lane until then. -/
def readWaitv (s : State) (p : Nat) (pk : Packet) : State :=
  let va := pk.words.getD 1 0
  let val := pk.words.getD 2 0
  let eq : Bool := pk.word 3 = 1
  laneAccess s p pk .load va 8 fun pa =>
    if (readMem s pa 8 = val.toNat) == eq then acceptPacket s p else holdLane s p (some (.waitv s.clk))

def execWaitv (p : Nat) (s : State) : Host.Outcome State Fault Refusal := packetStep s p 2 (readWaitv s p)

/-- WAITV_REREAD: the dword that a lane waits for is read again. -/
def execWaitvReread (p : Nat) (s : State) : Host.Outcome State Fault Refusal :=
  let q := partAt s p
  unitStep (match q.lane.hold, q.lane.packet with
    | some (.waitv _), some pk => readWaitv s p pk
    | _, _ => s)

/-- Whether a LAUNCH of a queue runs, or a COPY of it has no status yet. -/
def queueBusy (s : State) (p : Nat) (sup : Bool) : Bool :=
  s.launches.any (fun e => e.2.fromQueue = some (p, sup) && e.2.state ≠ .complete)
    || s.ops.any fun e => e.2.packet = some (p, sup)

/-- FENCE, when it has its turn and while it holds its lane. -/
def execFencePacket (p : Nat) (s : State) : Host.Outcome State Fault Refusal :=
  let q := partAt s p
  unitStep (match q.lane.hold, q.lane.packet with
    | some (.fence sup), some _ => if queueBusy s p sup then s else acceptPacket s p
    | _, _ => match turnOf s p 3 with
      | some pk => if queueBusy s p pk.sup then holdLane s p (some (.fence pk.sup)) else acceptPacket s p
      | none => s)

/-- The operation of a COPY packet. -/
def copyOp (s : State) (p : Nat) (pk : Packet) : EngOp :=
  let asid := laneAsid s p pk
  { kind := .copy, desc := (pk.words.drop 8).take 8, part := p, asid := asid, priv := pk.sup
    agen := (Tab.read 0 s.agens asid).toNat, launch := none, cluster := p % 48, core := p % 48 * 4, slot := 0, pc := 0, uid := 0
    wg := none, future := none, statVA := pk.words.getD 1 0, packet := some (p, pk.sup) }

/-- COPY: the operation is queued; a full queue holds the lane. -/
def execCopyPacket (p : Nat) (s : State) : Host.Outcome State Fault Refusal :=
  packetStep s p 4 fun pk =>
    laneAccess s p pk .store (pk.words.getD 1 0) 8 fun _ =>
      let o := copyOp s p pk
      if engineFull s o.engine then holdLane s p (some .room) else acceptPacket (addOp s o) p

/-- The cluster of a line: the one named, or for 0xFF the lowest with a free slot. -/
def anyCluster (s : State) (n : Nat) : Nat :=
  if n = 0xFF then ((List.range 48).find? fun c => (Tab.firstFree s.lines 256 (c * 256)).isSome).getD 0 else n

/-- LINE, OP 0: `lopen`; the result goes to RESULT. -/
def execLineOpenPacket (p : Nat) (s : State) : Host.Outcome State Fault Refusal :=
  packetStep s p 5 fun pk =>
    if pk.word 1 = 1 then s
    else
      let va := pk.words.getD 2 0
      laneAccess s p pk .store (pk.words.getD 4 0) 8 fun result =>
        laneAccess s p pk .load va 64 fun pa =>
          let desc := (List.range 8).map fun i => (BitVec.ofNat 64 (readMem s (pa + 8 * i) 8) : Dword)
          let (s, d) := openLine s (anyCluster s (pk.word 3))
            { desc := desc, descVA := va, asid := laneAsid s p pk, part := p, priv := pk.sup }
          acceptPacket (writeMem s result 8 d.toNat) p

/-- The end of a close: its result goes to RESULT. It stands in the lane while RESULT does not translate. -/
def finishClose (s : State) (p : Nat) (pk : Packet) (result : Dword) : State :=
  let s := modPart s p fun q => { q with lane := { q.lane with hold := none, result := some result } }
  laneAccess s p pk .store (pk.words.getD 4 0) 8 fun pa => acceptPacket (writeMem s pa 8 result.toNat) p

/-- LINE, OP 1: `lclose`; the lane is held until the line's flush ends. A stale handle gives STALE. -/
def execLineClosePacket (p : Nat) (s : State) : Host.Outcome State Fault Refusal :=
  let q := partAt s p
  unitStep (match q.lane.hold, q.lane.packet with
    | some (.lclose l gen), some pk => if (Tab.get? s.lines l).any (·.gen = gen) then s else finishClose s p pk 0
    | _, _ => match turnOf s p 5, q.lane.result with
      | some pk, some d => finishClose s p pk d
      | some pk, none =>
        if pk.word 1 = 0 then s
        else
          laneAccess s p pk .store (pk.words.getD 4 0) 8 fun _ =>
            match lineOf s { part := p, asid := laneAsid s p pk } (pk.words.getD 2 0) with
            | some (l, ln) => holdLane (closeLine s l) p (some (.lclose l ln.gen))
            | none => finishClose s p pk Rc.stale
      | none, _ => s)

/-- LAUNCH: a launch of depth 0, privileged from the supervisor queue (R307, R376). -/
def execLaunchPacket (p : Nat) (s : State) : Host.Outcome State Fault Refusal :=
  packetStep s p 6 fun pk =>
    let va := pk.words.getD 1 0
    let asid := laneAsid s p pk
    if va.toNat % 128 ≠ 0 then endPacket s p asid va causeAlign
    else
      let (id, s) := freshId s
      let l : Launch := { part := p, asid := asid, priv := pk.sup, hdrVA := va, fromQueue := some (p, pk.sup) }
      acceptPacket { s with launches := Tab.put s.launches id l } p

/-- PAD. -/
def execPadPacket (p : Nat) (s : State) : Host.Outcome State Fault Refusal := packetStep s p 7 fun _ => acceptPacket s p

/-! ## Host-managed device memory (R412, R413, R432, R434) -/

/-- Whether the host reaches a bulk byte. -/
def hostReaches (s : State) (q : Nat) : Bool := bulkBase + q < bulkEnd && !s.super.limp && hostVisible s (bulkBase + q)

/-- HOST_MEM_READ: what the host does not reach reads as ones. -/
def execHostMemRead (q n : Nat) (s : State) : Host.Outcome State Fault Refusal :=
  let bytes : List Byte := (List.range n).map fun i => if hostReaches s (q + i) then readByte s (bulkBase + q + i) else 0xFF
  unitStep { s with outbox := s.outbox ++ [.hostData q bytes] }

/-- The bytes of a host write that are reached. -/
def hostWrite (s : State) : Nat → List Byte → State
  | _, [] => s
  | q, b :: bs => hostWrite (if hostReaches s q then writeBytes s (bulkBase + q) [b] else s) (q + 1) bs

def execHostMemWrite (q : Nat) (bytes : List Byte) (s : State) : Host.Outcome State Fault Refusal :=
  unitStep (hostWrite s q bytes)

/-! ## Routing (R427) -/

/-- The table at an address: its 7 168 bytes, or none when it is bad. -/
def newRoutes (s : State) (addr : Nat) : Option (Tab Byte) :=
  let bytes := readBytes s addr 7168
  if addr % 64 ≠ 0 || !reachable s addr || !reachable s (addr + 7167) || bytes.any (fun b => b.toNat ≥ 4) then none
  else some (Tab.writeList 0 [] 0 bytes)

/-- ROUTING_TABLE_SWAP: RTGO with a new table; RTSTAT tells whether it was swapped. -/
def swapRoutes (s : State) (addr : Dword) : State :=
  let s := { s with super := { s.super with rtAddr := BitVec.ofNat 56 addr.toNat } }
  match newRoutes s (bitsAt addr.toNat 0 56) with
  | some t => { s with routes := t, super := { s.super with rtStat := 1 } }
  | none => { s with super := { s.super with rtStat := 2 } }

def execRoutingTableSwap (addr : Dword) (s : State) : Host.Outcome State Fault Refusal := unitStep (swapRoutes s addr)

/-! ## The supervisor window (R412, R413, R420) -/

/-- A write of a supervisor register. -/
def writeSuper (s : State) (off : Nat) (v : Dword) : State :=
  let set := fun (f : Super → Super) => { s with super := f s.super }
  let n := v.toNat
  match off with
  | 0x000 => if bitsAt n 4 1 = 1 then set fun x => { x with short := false } else s
  | 0x010 => set fun x => { x with pwrRise := BitVec.ofNat 16 n }
  | 0x018 => set fun x => { x with pwrFall := BitVec.ofNat 16 n }
  | 0x030 => set fun x =>
    let job := (bitsAt n 0 6, decide (bitsAt n 8 1 = 1))
    { x with rpart := BitVec.ofNat 6 n, rmode := job.2
             resets := if bitsAt n 63 1 = 1 && !x.resets.contains job then x.resets ++ [job] else x.resets }
  | 0x038 =>
    if bitsAt n 63 1 = 1 then setShares s (bitsAt n 0 6) (BitVec.ofNat 8 (bitsAt n 8 8)) (BitVec.ofNat 8 (bitsAt n 16 8))
    else set fun x => { x with qpart := BitVec.ofNat 6 n, qslots := BitVec.ofNat 8 (bitsAt n 8 8), qtokens := BitVec.ofNat 8 (bitsAt n 16 8) }
  | 0x040 =>
    let s := set fun x => { x with attAddr := BitVec.ofNat 56 n }
    if bitsAt n 63 1 = 1 then writeReport s else s
  | 0x048 => if bitsAt n 63 1 = 1 then swapRoutes s v else set fun x => { x with rtAddr := BitVec.ofNat 56 n }
  | _ => s

/-- A write of a queue register of a partition page (R414). -/
def writeQueueReg (s : State) (p : Nat) (sup : Bool) (off : Nat) (v : Dword) : State :=
  let x := queueOf (partAt s p) sup
  match off with
  | 0x00 => setQueue s p sup { x with base := v }
  | 0x08 => setQueue s p sup { x with size := bitsAt v.toNat 0 17 }
  | 0x10 => setQueue s p sup { x with asid := bitsAt v.toNat 0 12 }
  | 0x18 => writeTail s p sup (lowWord v)
  | 0x28 => writeState s p sup v
  | _ => s

/-- A write in a partition page. -/
def writePage (s : State) (p off : Nat) (v : Dword) : State :=
  if off < 0x40 then writeQueueReg s p false off v
  else if off < 0x80 then writeQueueReg s p true (off - 0x40) v
  else if 0x8000 ≤ off then writePartReg s p (0x40 + (off - 0x8000) / 8) v
  else s

/-- The eight partition map bytes of a dword. -/
def writeMap (s : State) (i : Nat) (v : Dword) : State := { s with pmap := Tab.writeList 0 s.pmap i (bytesOf v.toNat 8) }

/-- SUPERVISOR_REGISTER_WRITE: one dword of BAR0. -/
def execSupervisorRegisterWrite (offset : Nat) (value : Dword) (s : State) : Host.Outcome State Fault Refusal :=
  unitStep (
    if offset < 0x1000 then writeSuper s offset value
    else if 0x10000 ≤ offset ∧ offset < 0x18000 then
      { s with asidTab := Tab.write 0 s.asidTab ((offset - 0x10000) / 8) (BitVec.ofNat 64 (bitsAt value.toNat 0 7)) }
    else if 0x20000 ≤ offset ∧ offset < 0x84000 then writeMap s (offset - 0x20000) value
    else if 0x100000 ≤ offset ∧ offset < 0x500000 then writePage s ((offset - 0x100000) / 0x10000) (offset % 0x10000) value
    else s)

/-! ## What the host reads in BAR0 (R412, R414, R420) -/

/-- A dword of the supervisor registers. An action ends in the step that starts it, but for a partition reset, so the other
GO bits read 0. -/
def superWord (x : Super) (off : Nat) : Nat :=
  let bit := fun (b : Bool) (n : Nat) => if b then 2 ^ n else 0
  match off with
  | 0x000 => bit x.limp 0 + bit x.optReady 1 + bit x.bulkReady 2 + bit x.fabReady 3 + bit x.short 4 + 2 ^ 8 * x.boot.toNat
  | 0x008 => x.ftime.toNat
  | 0x010 => x.pwrRise.toNat
  | 0x018 => x.pwrFall.toNat
  | 0x020 => x.pwrNow.toNat
  | 0x028 => x.fillerE.toNat
  | 0x030 => x.rpart.toNat + bit x.rmode 8 + bit (!x.resets.isEmpty) 63
  | 0x038 => x.qpart.toNat + 2 ^ 8 * x.qslots.toNat + 2 ^ 16 * x.qtokens.toNat
  | 0x040 => x.attAddr.toNat
  | 0x048 => x.rtAddr.toNat + 2 ^ 60 * x.rtStat.toNat
  | 0x050 => x.resume.toNat
  | _ => 0

/-- A dword of a command queue's registers. -/
def queueWord (x : CmdQueue) (off : Nat) : Nat :=
  match off with
  | 0x00 => x.base.toNat
  | 0x08 => x.size
  | 0x10 => x.asid
  | 0x18 => x.tail.toNat
  | 0x20 => x.head.toNat
  | 0x28 => x.state
  | 0x30 => x.err.toNat
  | _ => 0

/-- A dword of a partition page; FBPEND, whose read reports an entry, is read by FBPEND_READ. -/
def pageWord (s : State) (p off : Nat) : Nat :=
  if off < 0x40 then queueWord (partAt s p).userQ off
  else if off < 0x80 then queueWord (partAt s p).superQ (off - 0x40)
  else if 0x8000 ≤ off then (partReg s p (0x40 + (off - 0x8000) / 8)).toNat
  else 0

/-- The dword that a host read of an aligned BAR0 offset returns; every byte outside the windows reads as zero. -/
def readBar0 (s : State) (offset : Nat) : Nat :=
  if offset < 0x1000 then superWord s.super offset
  else if 0x10000 ≤ offset ∧ offset < 0x18000 then (Tab.read 0 s.asidTab ((offset - 0x10000) / 8)).toNat
  else if 0x20000 ≤ offset ∧ offset < 0x84000 then ofBytes (Tab.readList 0 s.pmap (offset - 0x20000) 8)
  else if 0x100000 ≤ offset ∧ offset < 0x500000 then pageWord s ((offset - 0x100000) / 0x10000) (offset % 0x10000)
  else 0

end Sys2Proof.Machine
end

