-- ==== Sys2Proof/Machine/Fabric.lean ====
section
/-! DEFINITION. Other modules, the photonic crossbar, power and bring-up (R207, R422 to R433). -/

namespace Sys2Proof.Machine

/-! ## Answers of other modules (R207, R426) -/

/-- The bytes that an access of another module touches. -/
def remoteSize : RemoteOp → Nat
  | .read n => n
  | .write bs => bs.length
  | .atom _ t _ => tyBytes t
  | .compareSwap n _ _ => n
  | .cellAdd _ | .cellTake => 16

/-- Perform an access at the owning slice: the reply and the memory after it. -/
def performRemote (s : State) (pa : Nat) : RemoteOp → RemoteReply × State
  | .read n => (.data (readBytes s pa n), s)
  | .write bs => (.data [], writeBytes s pa bs)
  | .atom op t v =>
    let n := tyBytes t
    let old := readMem s pa n
    (.data (bytesOf old n), writeMem s pa n (atomNew op t old (v.toNat % 2 ^ t.width)))
  | .compareSwap n old new =>
    let was := readMem s pa n
    (.data (bytesOf was n), if was = old.toNat % 2 ^ (8 * n) then writeMem s pa n new.toNat else s)
  | .cellAdd d =>
    let old := readMem s pa 16
    (.data (bytesOf old 16), writeMem s pa 16 (old + d.toNat))
  | .cellTake => (.data (readBytes s pa 16), writeMem s pa 16 0)

/-- The trains that wait for a reply to a request, their own or another train's (R401). -/
def waitersOf (s : State) (id : Nat) : List Nat :=
  trainsWhere s fun _ t => match t.block with | some (.remote ids) => ids.contains id | _ => false

/-- Whether a train still waits for the reply to its request where it stands; a wait that a handler interrupted comes first. -/
def awaits (tr : Train) (id : Nat) : Bool :=
  !tr.asides.any (asideAwaits id) && match tr.block with
  | some (.remote ids) => ids.contains id
  | some (.waita _ _ _ _ _ _ _) | some (.matrixOp _) => true
  | _ => false

/-- The reply to a request of a train: to the access that it waits in, or to the one that a handler interrupted. -/
def takeReply (tr : Train) (id tid : Nat) (r : RemoteReply) : Train :=
  if awaits tr id then { tr with replies := Tab.put tr.replies tid r }
  else { tr with asides := tr.asides.map fun a =>
      if asideAwaits id a then { a with replies := Tab.put a.replies tid r } else a }

/-- What an answered request left in the other module's memory, as this module's units meet it from then on (R207, log 39). -/
def mirror (s : State) (q : RemoteReq) (r : RemoteReply) : State :=
  match q.op, r with
  | _, .error | .read _, _ => s
  | .write bs, .data _ => writeBytes s (farPa s q.module q.pa) bs
  | op, .data bs =>
    let pa := farPa s q.module q.pa
    (performRemote (writeBytes s pa (bs.take (remoteSize op))) pa op).2

/-- A reply reaches the thread whose request it answers. -/
def answer (s : State) (id : Nat) (r : RemoteReply) : State :=
  match Tab.get? s.remote id with
  | none => s
  | some q =>
    let s := { s with remote := Tab.del s.remote id }
    let s := if q.module = s.moduleNo.toNat || !physOk q.pa then s else mirror s q r
    let s := match trainByUid s q.uid with
      | some (k, _) => modTrain s k fun tr => takeReply tr id q.tid r
      | none => s
    (waitersOf s id).foldl settleRemote s

/-- REMOTE_RESPONSE. -/
def execRemoteResponse (request : Nat) (reply : RemoteReply) (s : State) : Host.Outcome State Fault Refusal :=
  unitStep (answer s request reply)

/-- MESSAGE_DISCARD: a REQ met an entry marked DOWN on its way, in this router or another's, and gets an error RSP. -/
def execMessageDiscard (request : Nat) (s : State) : Host.Outcome State Fault Refusal := unitStep (answer s request .error)

/-! ## Accesses from other modules (R207) -/

/-- REMOTE_ACCESS_REQUEST: performed where the memory of this module answers, else refused; an RSP goes back. The
spec does not say by which partition's table: by that of the memory's owner (log 63). -/
def execRemoteAccessRequest (module pa : Nat) (op : RemoteOp) (s : State) : Host.Outcome State Fault Refusal :=
  let ok : Bool := reachable s pa && (remoteSize op = 0 || reachable s (pa + remoteSize op - 1))
  let (r, s) := if ok then performRemote s pa op else (.error, s)
  unitStep (sendFabric s (pmapByte s pa % 64) module (.rsp r))

/-! ## Messages on their way to other modules (R425, R426) -/

/-- A message of other modules passes this router: it leaves by its next way, with that way in its header. One that the router discards, by a
DOWN entry or at a port without a partner, is gone, and a REQ gets an error RSP (R420, R426). One for this module does not pass it. -/
def passOn (s : State) (h : FabHeader) (tag : Nat) : State :=
  match nextHop s h.part h.dest h.hop with
  | none => s
  | some hop =>
    if discards s h.part h.dest h.hop then
      if h.cls = .req then sendFabric s h.part h.source (.rsp .error) else s
    else { s with outbox := s.outbox ++ [.passed { h with hop := some hop } tag] }

/-! ## Multicasts (R428) -/

/-- Insert a port in ascending order, each once. -/
def insertPort (p : Nat) : List Nat → List Nat
  | [] => [p]
  | x :: xs => if p < x then p :: x :: xs else if p = x then x :: xs else x :: insertPort p xs

/-- COLL_MULTICAST: every branch is allocated, and the message leaves by each of its ports once; a port without a partner carries no
message (R420). -/
def execCollMulticast (index : Nat) (s : State) : Host.Outcome State Fault Refusal :=
  unitStep (match s.casts[index]? with
    | none => s
    | some m =>
      let ports := (m.ports.foldl (fun l p => insertPort p l) []).filter fun p => !s.lone.getLsbD p
      { s with casts := s.casts.eraseIdx index, outbox := s.outbox ++ ports.map fun p => Out.forwarded p m.tag })

/-! ## Staggered resumption (R429) -/

/-- STAGGER: a message with T0, DT and NSLOTS sets RESUME; one older than the last received is ignored. -/
def execStagger (t0 : Dword) (dt : Word) (nslots : Half) (s : State) : Host.Outcome State Fault Refusal :=
  unitStep (if (s.staggered && t0 < s.stagT0) || nslots = 0 then s
    else
      let resume := t0 + BitVec.ofNat 64 (s.moduleNo.toNat % nslots.toNat * dt.toNat)
      { s with stagT0 := t0, staggered := true, super := { s.super with resume := resume } })

/-- STAGGER_RESUME: FTIME has reached RESUME, and the waiters of REMOTE and PROXY joins wake. -/
def execStaggerResume (s : State) : Host.Outcome State Fault Refusal :=
  let x := s.super
  let s := { s with super := { x with ftime := if x.ftime < x.resume then x.resume else x.ftime } }
  let s := wakeFreed s
  unitStep (s.joins.foldl (fun s e => wakeJoin s e.1) s)

/-! ## The photonic crossbar (R422) -/

/-- A wavelength of an endpoint's home channel. -/
def waveAt (s : State) (e w : Nat) : Wave := Tab.read {} s.waves (16 * e + w)
def modWave (s : State) (e w : Nat) (f : Wave → Wave) : State :=
  { s with waves := Tab.write {} s.waves (16 * e + w) (f (waveAt s e w)) }

/-- FLIT_RETRANSMIT: an uncorrectable flit is counted, and its sender sends it again. -/
def execFlitRetransmit (endpoint wavelength : Nat) (s : State) : Host.Outcome State Fault Refusal :=
  unitStep (modWave { s with outbox := s.outbox ++ [.flit endpoint wavelength] } endpoint wavelength fun x =>
    { x with resent := x.resent + 1 })

/-- The wavelengths of a home channel that retrain. -/
def retraining (s : State) (e : Nat) : Nat := (s.waves.filter fun w => w.1 / 16 = e && w.2.retraining).length

/-- WAVELENGTH_WITHDRAW: a wavelength in use is withdrawn and retrains, at most 4 of a channel at once. -/
def execWavelengthWithdraw (endpoint wavelength : Nat) (s : State) : Host.Outcome State Fault Refusal :=
  unitStep (if retraining s endpoint < 4 && !(waveAt s endpoint wavelength).retraining then
      modWave s endpoint wavelength fun x => { x with retraining := true, retrainings := x.retrainings + 1 }
    else s)

/-- WAVELENGTH_RETURN. -/
def execWavelengthReturn (endpoint wavelength : Nat) (s : State) : Host.Outcome State Fault Refusal :=
  unitStep (modWave s endpoint wavelength fun x => { x with retraining := false })

/-! ## Power (R420, R429 to R431) -/

/-- PWRRISE in force: at most 1 W/ms until FTIME reaches RESUME. -/
def riseLimit (x : Super) : Nat :=
  let r := x.pwrRise.toNat
  if x.ftime < x.resume then (if r = 0 ∨ r > 1 then 1 else r) else r

/-- The most the module draws, in watts (R30). -/
def powerBudget : Nat := 1100

/-- The power of the work in an interval: what it asks for, within the budget, held by the rise limit; 0 disables a limit. -/
def heldPower (x : Super) (demand : Nat) : Nat :=
  let most := x.pwrNow.toNat + riseLimit x / 100
  let asked := if demand > powerBudget then powerBudget else demand
  if riseLimit x ≠ 0 ∧ asked > most then most else asked

/-- The least power that the fall limit allows. -/
def floorPower (x : Super) : Nat := if x.pwrFall = 0 then 0 else x.pwrNow.toNat - x.pwrFall.toNat / 100

/-- What the filler adds: up to the floor, as much as it can, and never above the budget. -/
def fillerPower (x : Super) (work filler : Nat) : Nat :=
  let want := floorPower x - work
  let top := powerBudget - work
  let can := if filler < top then filler else top
  if want < can then want else can

/-- The governor's registers after an interval of 10 µs. -/
def govern (x : Super) (demand filler : Nat) : Super :=
  let work := heldPower x demand
  let fill := fillerPower x work filler
  let rest := x.fillerRest + fill
  { x with pwrNow := BitVec.ofNat 16 (work + fill), short := x.short || decide (work + fill < floorPower x)
           fillerE := x.fillerE + BitVec.ofNat 64 (rest / 100), fillerRest := rest % 100, ftime := x.ftime + 10000 }

/-- POWER_INTERVAL. -/
def execPowerInterval (demand filler : Nat) (s : State) : Host.Outcome State Fault Refusal :=
  unitStep { s with super := govern s.super demand filler }

/-! ## Bring-up (R397, R420, R432, R433) -/

/-- What the fields of fault buffer entries hold after a module reset: what they were last written with, but for STATUS (R8, R160). -/
def restEntries (s : State) : Tab FaultEnt :=
  let rest := fun (f : FaultEnt) => { f with status := 0, op := none }
  s.faults.foldl (fun t e => Tab.put t e.1 (rest e.2)) (s.freed.map fun e => (e.1, rest e.2))

/-- MODULE_RESET: limp service, and the boot ROM's checks of the firmware (R397, R432). What has no reset value stays: memory, with the
records in it, the fields of the fault buffer (R8), and the report counter, which never decreases (R398); so do what is outside and the model's own counters. -/
def execModuleReset (s : State) : Host.Outcome State Fault Refusal :=
  unitStep { State.reset with
    mem := s.mem, freed := restEntries s, attest := s.attest, mute := s.mute, agenda := s.agenda, outbox := s.outbox, freeCount := s.freeCount, nextId := s.nextId
    super := { ({} : Super) with boot := bootStatus, smRefused := bootCheck Config.stationmaster ≠ 0 } }

/-- The module leaves limp service once the optical layer and the LPDDR-6 channels are trained. -/
def leaveLimp (x : Super) : Super := if x.optReady && x.bulkReady then { x with limp := false } else x

def execOpticalTrainingDone (s : State) : Host.Outcome State Fault Refusal :=
  unitStep { s with super := leaveLimp { s.super with optReady := true } }
def execBulkTrainingDone (s : State) : Host.Outcome State Fault Refusal :=
  unitStep { s with super := leaveLimp { s.super with bulkReady := true } }
/-- FABRIC_TRAINING_DONE: the ports have ended their training, and MODULE is set (R407, R420). -/
def execFabricTrainingDone (s : State) : Host.Outcome State Fault Refusal :=
  unitStep { s with moduleNo := Config.moduleNumber, super := { s.super with fabReady := true } }

end Sys2Proof.Machine
end

