-- ==== Sys2Proof/Machine/Dispatch.lean ====
section
/-! DEFINITION. The meaning of every instruction and of every step of a unit, of the host and of the fabric: one call for each. -/

namespace Sys2Proof.Machine

def exec (i : Instr) (s : State) : Host.Outcome State Fault Refusal :=
  match i with
  | .add x t sat => Sys2Proof.Machine.execAdd x t sat s
  | .sub x t sat => Sys2Proof.Machine.execSub x t sat s
  | .mul x t sat => Sys2Proof.Machine.execMul x t sat s
  | .mulhi x t => Sys2Proof.Machine.execMulhi x t s
  | .mad x t sat => Sys2Proof.Machine.execMad x t sat s
  | .madhi x t => Sys2Proof.Machine.execMadhi x t s
  | .div x t sat => Sys2Proof.Machine.execDiv x t sat s
  | .rem x t => Sys2Proof.Machine.execRem x t s
  | .min x t => Sys2Proof.Machine.execMin x t s
  | .max x t => Sys2Proof.Machine.execMax x t s
  | .abs x t sat => Sys2Proof.Machine.execAbs x t sat s
  | .and x t => Sys2Proof.Machine.execAnd x t s
  | .or x t => Sys2Proof.Machine.execOr x t s
  | .xor x t => Sys2Proof.Machine.execXor x t s
  | .andn x t => Sys2Proof.Machine.execAndn x t s
  | .shl x t => Sys2Proof.Machine.execShl x t s
  | .shr x t => Sys2Proof.Machine.execShr x t s
  | .sra x t => Sys2Proof.Machine.execSra x t s
  | .rol x t => Sys2Proof.Machine.execRol x t s
  | .clz x t => Sys2Proof.Machine.execClz x t s
  | .ctz x t => Sys2Proof.Machine.execCtz x t s
  | .popc x t => Sys2Proof.Machine.execPopc x t s
  | .bfx x t => Sys2Proof.Machine.execBfx x t s
  | .bfi x t => Sys2Proof.Machine.execBfi x t s
  | .prm x => Sys2Proof.Machine.execPrm x s
  | .sel x t => Sys2Proof.Machine.execSel x t s
  | .cmp x t c => Sys2Proof.Machine.execCmp x t c s
  | .mov x t => Sys2Proof.Machine.execMov x t s
  | .lea x t k => Sys2Proof.Machine.execLea x t k s
  | .sext x t => Sys2Proof.Machine.execSext x t s
  | .zext x t => Sys2Proof.Machine.execZext x t s
  | .fadd x t r m => Sys2Proof.Machine.execFadd x t r m s
  | .fsub x t r m => Sys2Proof.Machine.execFsub x t r m s
  | .fmul x t r m => Sys2Proof.Machine.execFmul x t r m s
  | .fma x t r m => Sys2Proof.Machine.execFma x t r m s
  | .fnma x t r m => Sys2Proof.Machine.execFnma x t r m s
  | .fmin x t m => Sys2Proof.Machine.execFmin x t m s
  | .fmax x t m => Sys2Proof.Machine.execFmax x t m s
  | .fcmp x t c => Sys2Proof.Machine.execFcmp x t c s
  | .fclass x t => Sys2Proof.Machine.execFclass x t s
  | .fsel x t => Sys2Proof.Machine.execFsel x t s
  | .frcp x t m => Sys2Proof.Machine.execFrcp x t m s
  | .frsq x t m => Sys2Proof.Machine.execFrsq x t m s
  | .fsqrt x t r m => Sys2Proof.Machine.execFsqrt x t r m s
  | .fdiv x t r m => Sys2Proof.Machine.execFdiv x t r m s
  | .fex2 x t m => Sys2Proof.Machine.execFex2 x t m s
  | .flg2 x t m => Sys2Proof.Machine.execFlg2 x t m s
  | .fsin x t m => Sys2Proof.Machine.execFsin x t m s
  | .fcos x t m => Sys2Proof.Machine.execFcos x t m s
  | .ftanh x t m => Sys2Proof.Machine.execFtanh x t m s
  | .longOpResult tr => Sys2Proof.Machine.execLongOpResult tr s
  | .cvt x dst src => Sys2Proof.Machine.execCvt x dst src s
  | .rnd x t r => Sys2Proof.Machine.execRnd x t r s
  | .qnt x t r => Sys2Proof.Machine.execQnt x t r s
  | .dqt x t => Sys2Proof.Machine.execDqt x t s
  | .pack x t r p => Sys2Proof.Machine.execPack x t r p s
  | .unpk x t n => Sys2Proof.Machine.execUnpk x t n s
  | .scl x t r => Sys2Proof.Machine.execScl x t r s
  | .red x t op => Sys2Proof.Machine.execRed x t op s
  | .scan x t op excl => Sys2Proof.Machine.execScan x t op excl s
  | .shfl x wide m => Sys2Proof.Machine.execShfl x wide m s
  | .bcst x wide => Sys2Proof.Machine.execBcst x wide s
  | .vote x m => Sys2Proof.Machine.execVote x m s
  | .first x => Sys2Proof.Machine.execFirst x s
  | .kand x => Sys2Proof.Machine.execKand x s
  | .kor x => Sys2Proof.Machine.execKor x s
  | .kxor x => Sys2Proof.Machine.execKxor x s
  | .knot x => Sys2Proof.Machine.execKnot x s
  | .kmov x => Sys2Proof.Machine.execKmov x s
  | .ld x t k => Sys2Proof.Machine.execLd x t k s
  | .st x t k => Sys2Proof.Machine.execSt x t k s
  | .ldp x t k => Sys2Proof.Machine.execLdp x t k s
  | .stp x t k => Sys2Proof.Machine.execStp x t k s
  | .ldt x t k => Sys2Proof.Machine.execLdt x t k s
  | .stt x t k => Sys2Proof.Machine.execStt x t k s
  | .look x => Sys2Proof.Machine.execLook x s
  | .tagw x => Sys2Proof.Machine.execTagw x s
  | .tagi x => Sys2Proof.Machine.execTagi x s
  | .tagiAll x => Sys2Proof.Machine.execTagiAll x s
  | .tagiCfg x => Sys2Proof.Machine.execTagiCfg x s
  | .tst x => Sys2Proof.Machine.execTst x s
  | .tstDef x => Sys2Proof.Machine.execTstDef x s
  | .pref x k => Sys2Proof.Machine.execPref x k s
  | .fence x sc o => Sys2Proof.Machine.execFence x sc o s
  | .flushWc x => Sys2Proof.Machine.execFlushWc x s
  | .flushIb x => Sys2Proof.Machine.execFlushIb x s
  | .loadDataReturn tr n => Sys2Proof.Machine.execLoadDataReturn tr n s
  | .storePerformed tr n => Sys2Proof.Machine.execStorePerformed tr n s
  | .wcBufferDrainTimeout tr n => Sys2Proof.Machine.execWcBufferDrainTimeout tr n s
  | .instructionFetchFill tr => Sys2Proof.Machine.execInstructionFetchFill tr s
  | .faultEntryFreed tr => Sys2Proof.Machine.execFaultEntryFreed tr s
  | .atom x t op => Sys2Proof.Machine.execAtom x t op s
  | .cas x t => Sys2Proof.Machine.execCas x t s
  | .facc x => Sys2Proof.Machine.execFacc x s
  | .faccTagged x => Sys2Proof.Machine.execFaccTagged x s
  | .faccr x t r z => Sys2Proof.Machine.execFaccr x t r z s
  | .waita x t eq => Sys2Proof.Machine.execWaita x t eq s
  | .waitaReread tr => Sys2Proof.Machine.execWaitaReread tr s
  | .waitaDeadline tr => Sys2Proof.Machine.execWaitaDeadline tr s
  | .qbind x => Sys2Proof.Machine.execQbind x s
  | .qstat x => Sys2Proof.Machine.execQstat x s
  | .qdrain x => Sys2Proof.Machine.execQdrain x s
  | .queueOpIssue tr => Sys2Proof.Machine.execQueueOpIssue tr s
  | .queueStall wg => Sys2Proof.Machine.execQueueStall wg s
  | .racq x sc => Sys2Proof.Machine.execRacq x sc s
  | .rcom x sc => Sys2Proof.Machine.execRcom x sc s
  | .rcomSkip x sc => Sys2Proof.Machine.execRcomSkip x sc s
  | .rpeek x sc => Sys2Proof.Machine.execRpeek x sc s
  | .rpeekTake x sc => Sys2Proof.Machine.execRpeekTake x sc s
  | .rrel x sc => Sys2Proof.Machine.execRrel x sc s
  | .stage x => Sys2Proof.Machine.execStage x s
  | .stageCfg x => Sys2Proof.Machine.execStageCfg x s
  | .bra x => Sys2Proof.Machine.execBra x s
  | .brx x => Sys2Proof.Machine.execBrx x s
  | .call x => Sys2Proof.Machine.execCall x s
  | .ret x => Sys2Proof.Machine.execRet x s
  | .exit x => Sys2Proof.Machine.execExit x s
  | .bar x => Sys2Proof.Machine.execBar x s
  | .gbar x => Sys2Proof.Machine.execGbar x s
  | .bstall wg gang => Sys2Proof.Machine.execBstall wg gang s
  | .yield x => Sys2Proof.Machine.execYield x s
  | .nop x => Sys2Proof.Machine.execNop x s
  | .joinPointNop x => Sys2Proof.Machine.execJoinPointNop x s
  | .fwait x => Sys2Proof.Machine.execFwait x s
  | .ftest x => Sys2Proof.Machine.execFtest x s
  | .ftestH x => Sys2Proof.Machine.execFtestH x s
  | .fcancel x => Sys2Proof.Machine.execFcancel x s
  | .trapf x => Sys2Proof.Machine.execTrapf x s
  | .trapfClr x => Sys2Proof.Machine.execTrapfClr x s
  | .trap x => Sys2Proof.Machine.execTrap x s
  | .aalloc x => Sys2Proof.Machine.execAalloc x s
  | .aallocBanksFree tr => Sys2Proof.Machine.execAallocBanksFree tr s
  | .afree x => Sys2Proof.Machine.execAfree x s
  | .azero x => Sys2Proof.Machine.execAzero x s
  | .wld x t => Sys2Proof.Machine.execWld x t s
  | .wldZero x => Sys2Proof.Machine.execWldZero x s
  | .mmaTile x t => Sys2Proof.Machine.execMmaTile x t s
  | .mmaMemory x t => Sys2Proof.Machine.execMmaMemory x t s
  | .mmt x ta tw => Sys2Proof.Machine.execMmt x ta tw s
  | .adrainReg x t z => Sys2Proof.Machine.execAdrainReg x t z s
  | .adrainSp x t z => Sys2Proof.Machine.execAdrainSp x t z s
  | .adrainGm x t z => Sys2Proof.Machine.execAdrainGm x t z s
  | .mred x => Sys2Proof.Machine.execMred x s
  | .mprog x => Sys2Proof.Machine.execMprog x s
  | .matrixQueueRoom tr => Sys2Proof.Machine.execMatrixQueueRoom tr s
  | .arrayStep core => Sys2Proof.Machine.execArrayStep core s
  | .followOnMma op => Sys2Proof.Machine.execFollowOnMma op s
  | .tileGateRelease tr => Sys2Proof.Machine.execTileGateRelease tr s
  | .lopen x => Sys2Proof.Machine.execLopen x s
  | .lclose x => Sys2Proof.Machine.execLclose x s
  | .feed x => Sys2Proof.Machine.execFeed x s
  | .feedIntakeRoom tr => Sys2Proof.Machine.execFeedIntakeRoom tr s
  | .wmark x => Sys2Proof.Machine.execWmark x s
  | .wrec x => Sys2Proof.Machine.execWrec x s
  | .wemit x => Sys2Proof.Machine.execWemit x s
  | .wemitRetry tr => Sys2Proof.Machine.execWemitRetry tr s
  | .wyield x => Sys2Proof.Machine.execWyield x s
  | .wend x => Sys2Proof.Machine.execWend x s
  | .wpane x => Sys2Proof.Machine.execWpane x s
  | .wkey x => Sys2Proof.Machine.execWkey x s
  | .lstat x => Sys2Proof.Machine.execLstat x s
  | .resolveRecord line => Sys2Proof.Machine.execResolveRecord line s
  | .watermarkResolve line => Sys2Proof.Machine.execWatermarkResolve line s
  | .paneComplete line => Sys2Proof.Machine.execPaneComplete line s
  | .lineFlush line => Sys2Proof.Machine.execLineFlush line s
  | .lineFree line => Sys2Proof.Machine.execLineFree line s
  | .activationBatchIssue line => Sys2Proof.Machine.execActivationBatchIssue line s
  | .activationTrainAdmit cluster => Sys2Proof.Machine.execActivationTrainAdmit cluster s
  | .windowPoolSlotFree line => Sys2Proof.Machine.execWindowPoolSlotFree line s
  | .tfetch x => Sys2Proof.Machine.execTfetch x s
  | .tfetchTask x => Sys2Proof.Machine.execTfetchTask x s
  | .tfetchTaskWake tr => Sys2Proof.Machine.execTfetchTaskWake tr s
  | .tfetchTaskDeadline tr => Sys2Proof.Machine.execTfetchTaskDeadline tr s
  | .tsub x => Sys2Proof.Machine.execTsub x s
  | .tdone x => Sys2Proof.Machine.execTdone x s
  | .launch x => Sys2Proof.Machine.execLaunch x s
  | .lwait x => Sys2Proof.Machine.execLwait x s
  | .trig x => Sys2Proof.Machine.execTrig x s
  | .tsel x => Sys2Proof.Machine.execTsel x s
  | .jopen x => Sys2Proof.Machine.execJopen x s
  | .jarr x => Sys2Proof.Machine.execJarr x s
  | .jwait x => Sys2Proof.Machine.execJwait x s
  | .jkp x => Sys2Proof.Machine.execJkp x s
  | .jstat x => Sys2Proof.Machine.execJstat x s
  | .joinCasualty slot uid => Sys2Proof.Machine.execJoinCasualty slot uid s
  | .kill tr => Sys2Proof.Machine.execKill tr s
  | .stagingRoom tr => Sys2Proof.Machine.execStagingRoom tr s
  | .launchAdmit part => Sys2Proof.Machine.execLaunchAdmit part s
  | .launchInvalid launch => Sys2Proof.Machine.execLaunchInvalid launch s
  | .launchComplete launch => Sys2Proof.Machine.execLaunchComplete launch s
  | .dependantsStart launch => Sys2Proof.Machine.execDependantsStart launch s
  | .copy x => Sys2Proof.Machine.execCopy x s
  | .xst x wide => Sys2Proof.Machine.execXst x wide s
  | .publ x sc => Sys2Proof.Machine.execPubl x sc s
  | .dec x => Sys2Proof.Machine.execDec x s
  | .pyr x => Sys2Proof.Machine.execPyr x s
  | .engineQueueRoom tr => Sys2Proof.Machine.execEngineQueueRoom tr s
  | .engineOperationStart op => Sys2Proof.Machine.execEngineOperationStart op s
  | .copyComplete op => Sys2Proof.Machine.execCopyComplete op s
  | .decComplete op => Sys2Proof.Machine.execDecComplete op s
  | .pyrComplete op => Sys2Proof.Machine.execPyrComplete op s
  | .engineFaultPause op => Sys2Proof.Machine.execEngineFaultPause op s
  | .futureEntryFree index => Sys2Proof.Machine.execFutureEntryFree index s
  | .svc x => Sys2Proof.Machine.execSvc x s
  | .svcRetry tr => Sys2Proof.Machine.execSvcRetry tr s
  | .eret x => Sys2Proof.Machine.execEret x s
  | .mfsr x => Sys2Proof.Machine.execMfsr x s
  | .mtsr x => Sys2Proof.Machine.execMtsr x s
  | .tlbiPage x => Sys2Proof.Machine.execTlbiPage x s
  | .tlbiAsid x => Sys2Proof.Machine.execTlbiAsid x s
  | .tlbiPart x => Sys2Proof.Machine.execTlbiPart x s
  | .trapq x => Sys2Proof.Machine.execTrapq x s
  | .ctxs x => Sys2Proof.Machine.execCtxs x s
  | .ctxl x => Sys2Proof.Machine.execCtxl x s
  | .svcret x => Sys2Proof.Machine.execSvcret x s
  | .texitFault x => Sys2Proof.Machine.execTexitFault x s
  | .texitTerminate x => Sys2Proof.Machine.execTexitTerminate x s
  | .faultReplay p => Sys2Proof.Machine.execFaultReplay p s
  | .faultFail p => Sys2Proof.Machine.execFaultFail p s
  | .trapDelivery tr => Sys2Proof.Machine.execTrapDelivery tr s
  | .timeSliceExpiry wg => Sys2Proof.Machine.execTimeSliceExpiry wg s
  | .preemptDrain wg => Sys2Proof.Machine.execPreemptDrain wg s
  | .drainmaxExpiry wg => Sys2Proof.Machine.execDrainmaxExpiry wg s
  | .preemptSave wg => Sys2Proof.Machine.execPreemptSave wg s
  | .restore saved core => Sys2Proof.Machine.execRestore saved core s
  | .partitionResetDrain p => Sys2Proof.Machine.execPartitionResetDrain p s
  | .partitionResetKill p => Sys2Proof.Machine.execPartitionResetKill p s
  | .supervisorRegisterWrite offset value => Sys2Proof.Machine.execSupervisorRegisterWrite offset value s
  | .qtail p sup value => Sys2Proof.Machine.execQtail p sup value s
  | .qstate p sup value => Sys2Proof.Machine.execQstate p sup value s
  | .setv p => Sys2Proof.Machine.execSetv p s
  | .waitv p => Sys2Proof.Machine.execWaitv p s
  | .fencePacket p => Sys2Proof.Machine.execFencePacket p s
  | .copyPacket p => Sys2Proof.Machine.execCopyPacket p s
  | .lineOpenPacket p => Sys2Proof.Machine.execLineOpenPacket p s
  | .lineClosePacket p => Sys2Proof.Machine.execLineClosePacket p s
  | .launchPacket p => Sys2Proof.Machine.execLaunchPacket p s
  | .padPacket p => Sys2Proof.Machine.execPadPacket p s
  | .hostMemRead q n => Sys2Proof.Machine.execHostMemRead q n s
  | .hostMemWrite q bytes => Sys2Proof.Machine.execHostMemWrite q bytes s
  | .remoteResponse request reply => Sys2Proof.Machine.execRemoteResponse request reply s
  | .collMulticast index => Sys2Proof.Machine.execCollMulticast index s
  | .partitionDrainExpiry p => Sys2Proof.Machine.execPartitionDrainExpiry p s
  | .waitvReread p => Sys2Proof.Machine.execWaitvReread p s
  | .remoteAccessRequest module pa op => Sys2Proof.Machine.execRemoteAccessRequest module pa op s
  | .proxyReply tr result => Sys2Proof.Machine.execProxyReply tr result s
  | .homeRemoteArrival handle source weight deltas => Sys2Proof.Machine.execHomeRemoteArrival handle source weight deltas s
  | .proxyKill slot status => Sys2Proof.Machine.execProxyKill slot status s
  | .asidgenAdv p => Sys2Proof.Machine.execAsidgenAdv p s
  | .fbpendRead p => Sys2Proof.Machine.execFbpendRead p s
  | .irqenWrite p value => Sys2Proof.Machine.execIrqenWrite p value s
  | .preemptFlushRestart wg => Sys2Proof.Machine.execPreemptFlushRestart wg s
  | .migrate wg core => Sys2Proof.Machine.execMigrate wg core s
  | .qosSet p slots tokens => Sys2Proof.Machine.execQosSet p slots tokens s
  | .routingTableSwap addr => Sys2Proof.Machine.execRoutingTableSwap addr s
  | .messageDiscard request => Sys2Proof.Machine.execMessageDiscard request s
  | .stagger t0 dt nslots => Sys2Proof.Machine.execStagger t0 dt nslots s
  | .flitRetransmit endpoint wavelength => Sys2Proof.Machine.execFlitRetransmit endpoint wavelength s
  | .wavelengthWithdraw endpoint wavelength => Sys2Proof.Machine.execWavelengthWithdraw endpoint wavelength s
  | .wavelengthReturn endpoint wavelength => Sys2Proof.Machine.execWavelengthReturn endpoint wavelength s
  | .powerInterval demand filler => Sys2Proof.Machine.execPowerInterval demand filler s
  | .attestationReport => Sys2Proof.Machine.execAttestationReport s
  | .stationmasterStep => Sys2Proof.Machine.execStationmasterStep s
  | .moduleReset => Sys2Proof.Machine.execModuleReset s
  | .opticalTrainingDone => Sys2Proof.Machine.execOpticalTrainingDone s
  | .bulkTrainingDone => Sys2Proof.Machine.execBulkTrainingDone s
  | .fabricTrainingDone => Sys2Proof.Machine.execFabricTrainingDone s
  | .staggerResume => Sys2Proof.Machine.execStaggerResume s

end Sys2Proof.Machine
end

