-- ==== Sys2Proof/Machine/Schedule.lean ====
section
/-! DEFINITION. What the machine does next (R20, R54, R252): a turn of the agenda (log 3), or the default schedule (log 4); and the
issue of one train. -/

namespace Sys2Proof.Machine

/-! ## The issue of one train -/

/-- A train that consumes issue slots (R20). -/
def isReady (tr : Train) : Bool := tr.block.isNone && tr.long.isNone && tr.selected ≠ 0

/-- The train that its pipe issues for, while it is resident: another train in its slot is another one (R14). -/
def pipeOwner (s : State) (p : Nat) : Option Nat :=
  (Tab.get? s.pipes p).bind fun t => if (train? s t.key).any (·.uid = t.uid) then some t.key else none

/-- A train that stands inside a latch chain keeps its pipe (R20, R54): that train, if there is one. -/
def chainOwner (s : State) (p : Nat) : Option Nat :=
  match pipeOwner s p with
  | some k => match train? s k with
    | some tr => if insideChain s tr then some k else none
    | none => none
  | none => none

/-- The scheduler may issue for this train: it is ready, no trap record is due in it, and no other train of its pipe stands inside a
latch chain. -/
def mayIssue (s : State) (k : Nat) (tr : Train) : Bool :=
  isReady tr && !recordDue s tr && (wgOf s tr).all (fun g => !g.stopping || insideChain s tr || midAccess tr)
    && (match chainOwner s (pipeOfKey k) with | some o => o = k | none => true)

/-- The train that a pipe issues for: the one inside a chain, or the ready one of highest priority, in round-robin order of
train slot after the train that the pipe issued last, of whatever priority (log 4); one that yielded waits until another of its priority has
issued (R20, R260). -/
def pipeChoice (s : State) (p : Nat) : Option Nat :=
  let ready := s.trains.filter fun e => pipeOfKey e.1 = p && mayIssue s e.1 e.2
  let top := ready.foldl (fun n e => if n < e.2.prio then e.2.prio else n) 0
  let l := (ready.filter fun e => e.2.prio = top)
  let l := if l.all (·.2.yielded) then l else l.filter (!·.2.yielded)
  let last := (Tab.get? s.pipes p).elim 0 (·.key)
  match l.find? (fun e => last < e.1) with
  | some e => some e.1
  | none => l.head?.map (·.1)

/-- The pipe takes a train: the latches are lost when it was another's turn (R14, R50), the trains of its priority that yielded have
their turn again (R260), and a train selects before its first issue (R252). -/
def takePipe (s : State) (k : Nat) (tr : Train) : State :=
  let s := if pipeOwner s (pipeOfKey k) = some k then s
           else loseLatches { s with pipes := Tab.put s.pipes (pipeOfKey k) { key := k, uid := tr.uid } } k
  let s := (trainsWhere s fun j t => pipeOfKey j = pipeOfKey k && t.prio = tr.prio && t.yielded).foldl
    (fun s j => modTrain s j fun t => { t with yielded := false }) s
  modTrain s k fun t => if tr.fresh then { reselect t with fresh := false } else t

/-- The state in which a train's next instruction is fetched. -/
def issueState (s : State) (k : Nat) (tr : Train) : State :=
  { pruneStale (takePipe s k tr) tr.core with current := some k }

/-- A train stands again at the instruction whose requests to other modules are answered. -/
def resumeAccess (s : State) (k : Nat) (a : PendAccess) : State :=
  modTrain s k fun tr => { tr with pc := a.pc, latches := a.latches, chain := a.chain }

/-- The issue of one train, when it is the one that its pipe issues for: its instruction is fetched and executed. A train that is back at
a wait goes on with it; one whose requests to other modules are answered goes on with the instruction that made them, and neither
fetches nor executes its chain again (R54, R189). -/
def issueTrain (s : State) (k : Nat) : Host.Outcome State Fault Refusal :=
  match train? s k with
  | none => .next s
  | some tr =>
    if pipeChoice s (pipeOfKey k) = some k then
      let s := issueState s k tr
      match (train? s k).bind dueAside with
      | some a => .next (resumeAside s k a)
      | none => match (train? s k).bind (·.access) with
        | some a => exec a.instr (resumeAccess s k a)
        | none => match fetch s k with
          | .run i s => exec i s
          | .stop s => .next s
    else .next s

/-- A turn of the agenda. -/
def takeTurn (s : State) : Turn → Host.Outcome State Fault Refusal
  | .event i => exec i s
  | .issue k => issueTrain s k
  | .piece op n => .next (pieceStep s op n)
  | .suspend k => .next (suspendAct s k)
  | .elapse n => .next { s with clk := s.clk + n }
  | .far m pa bs => .next (if m = s.moduleNo.toNat || !physOk pa || !physOk (pa + bs.length) then s
                           else writeBytes s (farPa s m pa) bs)
  | .reach m ok => .next { s with mute := if ok then s.mute.filter (· ≠ m) else if s.mute.contains m then s.mute else m :: s.mute }
  | .cast ports tag => .next { s with casts := s.casts ++ [{ ports := ports, tag := tag }] }
  | .transit h tag => .next (passOn s h tag)
  | .links lone => .next (if s.super.fabReady then s else { s with lone := lone })
  | .corrected e w n => .next (modWave s e w fun x => { x with corrected := x.corrected + n })

/-- Every step takes one cycle (log 2), and no train is being issued between steps. -/
def tick : Host.Outcome State Fault Refusal → Host.Outcome State Fault Refusal
  | .next s => .next { s with clk := s.clk + 1, current := none }
  | .fault f => .fault f
  | .refused r => .refused r

/-! ## The default schedule (log 4) -/

/-- The steps of a train's units that may be due. -/
def trainTurns (e : Nat × Train) : List Turn :=
  let k := e.1
  let waits : List Instr := match e.2.block with
    | none => []
    | some b => match b with
      | .queue _ _ => [.queueOpIssue k]
      | .tile _ _ _ => [.tileGateRelease k]
      | .waita _ _ _ _ _ _ _ => [.waitaReread k, .waitaDeadline k]
      | .aalloc _ _ _ => [.aallocBanksFree k]
      | .matrixQueue => [.matrixQueueRoom k]
      | .tfetch _ => [.tfetchTaskWake k, .tfetchTaskDeadline k]
      | .feed _ _ => [.feedIntakeRoom k]
      | .wemit _ => [.wemitRetry k]
      | .svcRoom _ => [.svcRetry k]
      | .staging => [.stagingRoom k]
      | .faultNoEntry _ _ => [.faultEntryFreed k]
      | .engineQueue _ => [.engineQueueRoom k]
      | .futureTable => [.engineQueueRoom k]
      | .fetchLine => [.instructionFetchFill k]
      | .ctxs _ _ => []
      | .mark _ | .future _ | .matrixOp _ | .draining | .lwait _ _ | .jwait _ _ | .lclose _ _ | .svcReply _
      | .fault _ _ _ _ _ | .remote _ | .proxy => []
  let own : List Instr := [.kill k, .longOpResult k, .trapDelivery k]
  let drains : List Instr := (List.range e.2.stores.length).map fun i => .wcBufferDrainTimeout k i
  (own ++ waits ++ drains).map Turn.event
    ++ (if e.2.loads.isEmpty then [] else [.event (.loadDataReturn k 0)])
    ++ (if e.2.stores.isEmpty then [] else [.event (.storePerformed k 0)])

def wgTurns (e : Nat × Wg) : List Turn :=
  [.event (.queueStall e.1), .event (.bstall e.1 false), .event (.bstall e.1 true), .event (.timeSliceExpiry e.1),
   .event (.preemptDrain e.1), .event (.drainmaxExpiry e.1), .event (.preemptSave e.1)]

def opTurns (e : Nat × EngOp) : List Turn :=
  (match e.2.state, e.2.kind, nextPiece e.2 with
   | .running, .copy, some n => [.event (.engineFaultPause e.1), .piece e.1 n]
   | .running, .dec, _ | .running, .pyr, _ => [.piece e.1 0]
   | _, _, _ => [])
  ++ [.event (.engineOperationStart e.1), .event (.copyComplete e.1), .event (.decComplete e.1), .event (.pyrComplete e.1),
      .event (.followOnMma e.1)]

def lineTurns (l : Nat) : List Turn :=
  [.event (.resolveRecord l), .event (.watermarkResolve l), .event (.paneComplete l), .event (.lineFlush l),
   .event (.lineFree l), .event (.activationBatchIssue l), .event (.windowPoolSlotFree l)]

def launchTurns (l : Nat) : List Turn :=
  [.event (.launchInvalid l), .event (.launchComplete l), .event (.dependantsStart l)]

def partTurns (p : Nat) : List Turn :=
  [.event (.launchAdmit p), .event (.setv p), .event (.waitv p), .event (.waitvReread p), .event (.fencePacket p),
   .event (.copyPacket p), .event (.lineOpenPacket p), .event (.lineClosePacket p), .event (.launchPacket p),
   .event (.padPacket p), .event (.partitionResetDrain p), .event (.partitionResetKill p), .event (.partitionDrainExpiry p)]

def joinTurns (e : Nat × Join) : List Turn :=
  (e.2.contribs.filter (·.state = .fallen)).map fun c => .event (.joinCasualty e.1 c.uid)

/-- The partitions that have registers, launches or a reset to serve. -/
def partsAtWork (s : State) : List Nat :=
  (s.parts.map (·.1) ++ s.launches.map (·.2.part) ++ s.super.resets.map (·.1)).eraseDups

/-- The array steps that may be due. -/
def arrayTurns (s : State) : List Turn :=
  (s.wgs.filter fun e => !e.2.mq.isEmpty).map fun e => .event (.arrayStep (coreOfKey (e.1 * 4)))

/-- The steps of the other units that may be due, in a fixed order. -/
def unitTurns (s : State) : List Turn :=
  s.trains.flatMap trainTurns ++ s.wgs.flatMap wgTurns ++ s.ops.flatMap opTurns ++ s.joins.flatMap joinTurns
    ++ s.lines.flatMap (fun e => lineTurns e.1)
    ++ s.pendActs.map (fun a => .event (.activationTrainAdmit (a.line / 256)))
    ++ s.launches.flatMap (fun e => launchTurns e.1)
    ++ (partsAtWork s).flatMap partTurns
    ++ s.futures.map (fun e => .event (.futureEntryFree e.1))
    ++ s.saved.map (fun e => .event (.restore e.1 e.2.wg.core))
    ++ s.savedActs.flatMap (fun e => (List.range 4).map fun i => .event (.restore e.1 (4 * (actCluster e.2).getD 0 + i)))
    ++ (List.range s.casts.length).map (fun i => .event (.collMulticast i))
    ++ [.event .stationmasterStep, .event .staggerResume]

/-- The steps of `l` from place `n` on, then the others. -/
def rotate {α : Type} (l : List α) (n : Nat) : List α := l.drop (n % l.length) ++ l.take (n % l.length)

/-- The first turn of a list that changes the state. -/
def firstDue (s : State) : List Turn → Option State
  | [] => none
  | t :: ts => match takeTurn s t with
    | .next s' => if s' = s then firstDue s ts else some s'
    | _ => firstDue s ts

/-- The trains that the pipes would issue for now. -/
def choices (s : State) : List Nat :=
  ((s.trains.map fun e => pipeOfKey e.1).eraseDups).filterMap (pipeChoice s)

/-- The default turn: on even cycles a due step of a unit, in rotation, else a train; on odd cycles a train, else a due step. -/
def defaultTurn (s : State) : Host.Outcome State Fault Refusal :=
  let unit := firstDue s (rotate (arrayTurns s ++ unitTurns s) (s.clk / 2))
  match s.clk % 2 == 0, unit, rotate (choices s) (s.clk / 2) with
  | true, some t, _ => .next t
  | _, _, k :: _ => issueTrain s k
  | _, some t, [] => .next t
  | _, none, [] => .next s

/-! ## What may wait no longer -/

/-- The steps that may wait no longer: a kill at a kill point and the delivery of a record happen at once (R343, R357, R379), and a
bound in cycles that has passed has its effect: a read of a `waita` within 1 024 cycles of the last,
the ends of bounded waits, the stall timers, the issue of a batch 32 cycles after its first wake-up, DRAINMAX and the drain of a
partition reset (R196, R228, R229, R236, R259, R281, R312, R329, R395; log 2). -/
def boundTurns (s : State) : List Turn :=
  s.trains.flatMap (fun e => (if e.2.kpc.isSome then [Turn.event (.kill e.1)] else [])
      ++ (if e.2.tq.isEmpty then [] else [Turn.event (.trapDelivery e.1)]))
  ++ s.trains.flatMap (fun e => match e.2.block with
    | some (.waita _ _ _ _ _ _ last) =>
      (if s.clk ≥ last + 1024 then [Turn.event (.waitaReread e.1)] else []) ++ [Turn.event (.waitaDeadline e.1)]
    | some (.tfetch _) => [Turn.event (.tfetchTaskDeadline e.1)]
    | some (.wemit since) => if s.clk ≥ since + 1024 then [Turn.event (.wemitRetry e.1)] else []
    | some (.svcRoom since) => if s.clk ≥ since + 1024 then [Turn.event (.svcRetry e.1)] else []
    | _ => [])
  ++ s.wgs.flatMap (fun e => [Turn.event (.queueStall e.1), .event (.bstall e.1 false), .event (.bstall e.1 true),
      .event (.timeSliceExpiry e.1), .event (.drainmaxExpiry e.1)])
  ++ s.lines.flatMap (fun e => if !e.2.batch.isEmpty && s.clk ≥ e.2.batchAt + 32 then [Turn.event (.activationBatchIssue e.1)] else [])
  ++ s.parts.flatMap fun e => (if e.2.resetDrain.isSome then [Turn.event (.partitionDrainExpiry e.1)] else [])
      ++ (match e.2.lane.hold with
        | some (.waitv last) => if s.clk ≥ last + 1024 then [Turn.event (.waitvReread e.1)] else []
        | _ => [])

/-- A state in which nothing is overdue: write-combining buffers written 4 096 cycles ago are drained, stores issued 4 096 cycles ago are
performed, and the bounds that have passed have had their effect. -/
def overdue (s : State) : State :=
  (boundTurns s).foldl (fun s t => match takeTurn s t with | .next s' => s' | _ => s) (drainOld s)

/-- One turn of the machine. -/
def turn (s : State) : Host.Outcome State Fault Refusal :=
  match s.agenda with
  | t :: rest => takeTurn { s with agenda := rest } t
  | [] => defaultTurn s

end Sys2Proof.Machine
end

