-- ==== Sys2Proof/Machine/Place.lean ====
section
/-! DEFINITION. How a program is placed by hand for the next step (log 10): page tables, the partition map, a launch with one
workgroup of one train, and the instruction's bytes. -/

namespace Sys2Proof.Machine

/-- Where the placed instruction stands: a virtual address equal to its physical one. -/
def placePc : Nat := 0x4000
def placeRoot : Nat := 0x10000
def placeTable : Nat := 0x20000
/-- A leaf page-table entry of 1 GiB at address 0: V, LEAF, R, W, X (R157). -/
def placeLeaf : Nat := 0x1F
/-- The ASID and the partition of the placed train. -/
def placeAsid : Nat := 1

/-- A train of one workgroup of a launch, resident in slot 0 of core 0, privileged, with all its registers. -/
def placeTrain : Train :=
  { uid := 1, wg := some 0, launch := some 0, asid := placeAsid, vgran := 32, sgran := 8, pc := BitVec.ofNat 64 placePc
    selected := allThreads, priv := true, fresh := false }

def placeWorkgroup : Wg := { uid := 2, launch := 0, asid := placeAsid, ntrains := 1, vgran := 32, sgran := 8, pad := 128 }

/-- The state in which the next step fetches and runs the instruction with these bits. -/
def placeFetch (s : State) (w : Nat) : State :=
  let s := writeBytes s placePc (bytesOf w 16)
  let s := writeMem (writeMem s placeRoot 8 (placeTable + 1)) placeTable 8 placeLeaf
  { s with
    roots := Tab.put s.roots placeAsid (BitVec.ofNat 64 (placeRoot + 1))
    asidTab := Tab.put s.asidTab placeAsid 0x40
    pmap := Tab.put s.pmap 0 0x40
    launches := Tab.put s.launches 0 { asid := placeAsid, priv := true, state := .running, started := true }
    wgs := Tab.put s.wgs 0 placeWorkgroup
    trains := Tab.put s.trains 0 placeTrain
    pipes := Tab.put s.pipes 0 { uid := 1 }
    nextId := if s.nextId < 3 then 3 else s.nextId
    agenda := [.issue 0] }

end Sys2Proof.Machine
end

