-- ==== Sys2Proof/Machine/Step.lean ====
section
/-! DEFINITION. One step of the machine. -/

namespace Sys2Proof.Machine

/-- One step: what a bound makes due, and a turn, which takes one cycle. -/
def step (s : State) : Host.Outcome State Fault Refusal := tick (turn (overdue s))

/-- `s` with the instruction whose bits are `w` stored where the next step fetches. -/
def State.withFetchWord (s : State) (_nbits w : Nat) : State := placeFetch s w

end Sys2Proof.Machine
end

