-- ==== Sys2Proof/Safety.lean ====
section
/-! DEFINITION. The terms in which claims speak of a run: what the registers of a train read, when an instruction may run, what its
completion leaves and what it leaves alone, and the invariant of the machine between steps. -/

namespace Sys2Proof.Machine

/-! ## Memory -/

/-- The canonical form of memory: addresses strictly rising, and no entry equal to what an unlisted address reads as. -/
def Memory.wf (m : List Host.Cell) : Bool := Tab.canonical unwritten m

/-- Every byte of memory reads as it did. -/
def SameMemory (s t : State) : Prop := ∀ a, readByte t a = readByte s a

/-- Every byte of memory outside the `n` bytes from `pa` reads as it did. -/
def SameMemoryBut (pa n : Nat) (s t : State) : Prop := ∀ a, ¬(pa ≤ a ∧ a < pa + n) → readByte t a = readByte s a

/-- Every train but the one in slot `k` is as it was. -/
def OtherTrains (k : Nat) (s t : State) : Prop := ∀ j, j ≠ k → train? t j = train? s j

/-- Only what the cores hold differs. -/
def SameButCores (s t : State) : Prop := t = { s with cores := t.cores }

/-! ## Registers -/

/-- What a register reads as for a thread; `s` and `g` registers read alike for every thread. -/
def regAt (tr : Train) (r : Reg) (l : Nat) : Dword :=
  match r with
  | .v n => (rdV tr n l).zeroExtend 64
  | .o n => (rdO tr n l).zeroExtend 64
  | .s n => rdS tr n
  | .k n => if (rdK tr n).getLsbD l then 1 else 0
  | .g n => if rdG tr n then 1 else 0

/-- The word of a result that register `m` of a thread takes when the destination is register `n`, or the pair from `n` on. -/
def pairPart (wide : Bool) (n m : Nat) (d : Dword) : Option Dword :=
  if m = n then some ((lowWord d).zeroExtend 64)
  else if wide && m = n + 1 then some ((highWord d).zeroExtend 64)
  else none

/-- What register `r` of thread `l` takes when `val t` is written to the destination `d` for each `t` of `lanes`; `none` where
the register is not written. `k0` and `g0` take nothing (R22). -/
def writtenTo (d : Opnd) (wide : Bool) (lanes : List Nat) (val : Nat → Dword) (r : Reg) (l : Nat) : Option Dword :=
  match d, r with
  | .v n, .v m => if l ∈ lanes then pairPart wide n.toNat m (val l) else none
  | .o n, .o m => if l ∈ lanes then pairPart wide n.toNat m (val l) else none
  | .s n, .s m =>
    if m = n.toNat then lanes.getLast?.map fun t => if wide then val t else (lowWord (val t)).zeroExtend 64 else none
  | .k n, .k m => if l ∈ lanes ∧ m = n.toNat ∧ n ≠ 0 then some (if (val l).getLsbD 0 then 1 else 0) else none
  | .g n, .g m =>
    if m = n.toNat ∧ n ≠ 0 then lanes.getLast?.map fun t => if (val t).getLsbD 0 then 1 else 0 else none
  | _, _ => none

/-- What register `r` of thread `l` takes when an instruction writes its results to D; with NWB nothing (R55). -/
def written (x : Args) (wide : Bool) (lanes : List Nat) (val : Nat → Dword) (r : Reg) (l : Nat) : Option Dword :=
  if x.nwb then none else writtenTo x.d wide lanes val r l

/-- A destination that a thread list fits: a `v` or `o` register is written for threads only. -/
def DstFits (o : Opnd) (lanes : List Nat) : Prop :=
  match o with
  | .v _ | .o _ => ∀ l ∈ lanes, l < 64
  | _ => True

/-! ## Issue -/

/-- The train in slot `k` is being issued, and nothing that precedes the meaning of `i` holds it back: its checks pass, no
source is marked, no queue lacks room or entries. The meaning sees `c` and `s'`. -/
def Ready (i : Instr) (x : Args) (s : State) (k : Nat) (c : Ctx) (s' : State) : Prop :=
  s.current = some k ∧ ∃ tr, train? s k = some tr ∧ gates i x s k tr = .go c s'

/-- What the completion of an instruction with results `val t` for the threads `lanes`, flags `fl` and no jump leaves of the
train: D, the flags, the PC, the latches and the chain change; a completed write of an `s` register ends its mark; the
outstanding loads, and the results that a home owes, grow older by one instruction, and `load` joins the loads. -/
structure TrainAfter (i : Instr) (x : Args) (wide : Bool) (lanes : List Nat) (val : Nat → Dword) (fl : FlagSet)
    (load : List PendLoad) (tr tr' : Train) : Prop where
  regs  : ∀ r l, l < 64 → regAt tr' r l = (written x wide lanes val r l).getD (regAt tr r l)
  flags : tr'.flags = tr.flags ||| fl
  pc    : tr'.pc = tr.pc + BitVec.ofNat 64 x.len
  b0    : ∀ l, l < 64 → latchAt tr'.latches.b0 l = if x.u then (lanes.head?.map fun t => lowWord (val t)).getD 0
            else if l ∈ lanes then lowWord (val l) else 0
  b123  : tr'.latches.b1 = tr.latches.b0 ∧ tr'.latches.b2 = tr.latches.b1 ∧ tr'.latches.b3 = tr.latches.b2
  marks : ∀ n, Tab.get? tr'.marks n =
            if x.d = .s (BitVec.ofNat 6 n) ∧ n < 64 ∧ x.nwb = false ∧ lanes ≠ [] then none else Tab.get? tr.marks n
  chain : tr'.chain = nextChain tr.chain i x tr.pc
  loads : tr'.loads = (tr.loads.map fun l => { l with age := l.age + 1 }) ++ load
  homes : tr'.homes = tr.homes.map fun h => { h with age := h.age + 1 }
  frame : tr' = { tr with v := tr'.v, o := tr'.o, s := tr'.s, k := tr'.k, g := tr'.g, marks := tr'.marks
                          flags := tr'.flags, pc := tr'.pc, latches := tr'.latches, chain := tr'.chain
                          loads := tr'.loads, homes := tr'.homes }

/-- The instruction completes in `t`: a push performs every earlier access of its train first, which leaves the train as `tr` (R198;
without a push it is as it was), its train is then as `TrainAfter` says, results for a queue are pushed to it (R233), and nothing else
of the machine changes. -/
def Completes (i : Instr) (x : Args) (wide : Bool) (lanes : List Nat) (val : Nat → Dword) (fl : FlagSet) (c : Ctx)
    (s t : State) : Prop :=
  let vals := lanes.map fun l => (l, val l)
  let s' := pushRelease s c.k x vals
  ∃ tr tr', train? s' c.k = some tr ∧ TrainAfter i x wide lanes val fl [] tr tr'
    ∧ t = putTrain (pushResults s' tr x wide vals) c.k tr'

/-- Whether an instruction pushes results of these threads to a queue. -/
def pushes (x : Args) (lanes : List Nat) : Bool := (match x.d with | .q _ => true | _ => false) && !x.nwb && !lanes.isEmpty

/-- No byte of memory changes, but that a push performs the stores that its train still has (R198). -/
def MemoryAfter (x : Args) (lanes : List Nat) (tr : Train) (s t : State) : Prop :=
  ∀ a, readByte t a = if pushes x lanes then overlay tr.stores s a else readByte s a

/-- The instruction `i` writes `f` of each executing thread: whenever it is ready it completes, with the first component of `f`
as each thread's result and the second components as the flags that it sets; no byte of memory changes but by what a push performs,
and no other train. -/
def Yields (i : Instr) (x : Args) (wide : Bool) (f : Ctx → Nat → Dword × FlagSet) : Prop :=
  WellFormed i → ∀ s k c s', Ready i x s k c s' →
    ∃ t, exec i s = .next t
      ∧ Completes i x wide c.lanes (fun l => (f c l).1) (joinFlags (c.lanes.map fun l => (f c l).2)) c s' t
      ∧ MemoryAfter x c.lanes c.tr s t ∧ OtherTrains k s t

/-- The long operation of `i` with results `f` of the executing threads, pending in its train. -/
def longOf (i : Instr) (x : Args) (wide : Bool) (f : Ctx → Nat → Dword × FlagSet) (c : Ctx) (slots : List PushSlot) : LongOp where
  instr := i
  x := x
  wide := wide
  vals := c.lanes.map fun l => (l, (f c l).1)
  flags := joinFlags (c.lanes.map fun l => (f c l).2)
  slots := slots

/-- The long operation `i` starts: its result, `f` of each executing thread, is pending in the train, which otherwise stands
as before, its places in a queue that D names are reserved, behind the earlier accesses of the train, and no byte of memory and no other
train changes beside that (R99, R198, R234). The train's workgroup is resident. -/
def Pends (i : Instr) (x : Args) (wide : Bool) (f : Ctx → Nat → Dword × FlagSet) : Prop :=
  ∀ s k c s', Ready i x s k c s' → (∀ w, c.tr.wg = some w → (wg? s' w).isSome) →
    ∃ t slots tr, exec i s = .next t
      ∧ train? (pushRelease s' k x (c.lanes.map fun l => (l, (f c l).1))) k = some tr
      ∧ train? t k = some { tr with long := some (longOf i x wide f c slots) }
      ∧ ((∀ n, x.d ≠ .q n) → slots = [] ∧ tr = c.tr ∧ t = putTrain s' k { c.tr with long := some (longOf i x wide f c []) })
      ∧ MemoryAfter x c.lanes c.tr s t ∧ OtherTrains k s t

/-- `exec` of the instruction `i` answers the next state in which it has completed, from the state `s'` that its effect leaves,
with results, flags and latch contents `d`. What a completion changes, `TrainAfter` says. -/
def EndsWith (i : Instr) (x : Args) (wide : Bool) (s : State) (c : Ctx) (s' : State) (d : Done) : Prop :=
  exec i s = .next (complete i x wide c.k c.tr.pc s' d)

/-- The train is in the middle of no access, and every executing thread's access to `addr` reaches a byte of this module's memory, `pa`, in
the state `s'` that the translations leave. -/
def Translates (c : Ctx) (s : State) (acc : Access) (n : Nat) (addr : Nat → Dword) (pa : Nat → Nat) (s' : State) : Prop :=
  c.tr.access = none ∧ translateAll s c.tr acc n (c.lanes.map fun l => (l, addr l))
    = (s', .ok (c.lanes.map fun l => (l, addr l, .mem (pa l))))

/-- The train in slot `k` stops waiting: it executes again from where it stands, and nothing but the stall timer of its
workgroup changes beside it. -/
def Unblocked (k : Nat) (s t : State) : Prop :=
  ∃ tr, train? s k = some tr ∧ train? t k = some { tr with block := none, atWait := none }
    ∧ OtherTrains k s t ∧ SameMemory s t

/-! ## Conditions of classes -/

/-- A matrix instruction executes in a train of workgroup `w`, the tiles that it names are READY and the matrix queue has room (R132, R139). -/
def MatrixReady (c : Ctx) (s : State) (w : Nat) (g : Wg) (tiles : List Opnd) : Prop :=
  c.on ∧ c.tr.wg = some w ∧ wg? s w = some g ∧ (∀ n, .t n ∈ tiles → (tileOf g n.toNat).state = 2) ∧ g.mq.length < 8

/-- The names from `first` on are all bound to banks (R131). -/
def NamesBound (g : Wg) (first n : Nat) : Prop :=
  0 < n ∧ first + n ≤ 64 ∧ ∀ j, j < n → (Tab.get? g.accs (first + j)).isSome

/-- The weights that the queue will have latched fit activations of type `t` (R135, R141, R432). -/
def LatchFits (s : State) (g : Wg) (t : Ty) : Prop :=
  (t = .f32 → s.super.limp = false) ∧ ∃ tw, issuedLatch g = some tw ∧ tw.width = t.width

/-- An instruction of the window class executes in an activation train of the line `ln` (R290). -/
def RunsLine (c : Ctx) (s : State) (a : Act) (ln : Line) : Prop := c.on ∧ c.tr.act = some a ∧ Tab.get? s.lines a.line = some ln

/-! ## The machine between steps -/

/-- What holds of the machine between steps: memory lists its bytes in the canonical form, and no train is being issued. -/
def Between (s : State) : Prop := Memory.wf s.mem = true ∧ s.current = none

end Sys2Proof.Machine
end

