-- ==== Sys2Proof/Certificates/Slice0/Obligations.lean ====
section
/-! DEFINITION. The statements for the provers. Each one's docstring names the rules of the spec that it is about; where a clause rests on a
reading or a choice of this model, the docstring names the log entry. -/

open Sys2Proof
open Sys2Proof.Machine

/-- R104, R113: the arithmetic of the integer class yields the exact integer of its Op column, wrapped to the type or, with
`.sat`, saturated with IOV. -/
def Obligations.IntegerArithmeticYieldsItsExactResult : Prop :=
  (∀ x t sat, Yields (.add x t sat) x t.wide fun c l => intResult t sat (numOf c .a t l + numOf c .b t l)) ∧
  (∀ x t sat, Yields (.sub x t sat) x t.wide fun c l => intResult t sat (numOf c .a t l - numOf c .b t l)) ∧
  (∀ x t sat, Yields (.mul x t sat) x t.wide fun c l => intResult t sat (numOf c .a t l * numOf c .b t l)) ∧
  (∀ x t sat, Yields (.mad x t sat) x t.wide fun c l =>
    intResult t sat (numOf c .a t l * numOf c .b t l + numOf c .c t l)) ∧
  (∀ x t, Yields (.mulhi x t) x t.wide fun c l =>
    intResult t false (numOf c .a t l * numOf c .b t l / (2 ^ t.width : Nat))) ∧
  (∀ x t, Yields (.madhi x t) x t.wide fun c l =>
    intResult t false (numOf c .a t l * numOf c .b t l / (2 ^ t.width : Nat) + numOf c .c t l)) ∧
  (∀ x t, Yields (.min x t) x t.wide fun c l =>
    intResult t false (if numOf c .a t l ≤ numOf c .b t l then numOf c .a t l else numOf c .b t l)) ∧
  (∀ x t, Yields (.max x t) x t.wide fun c l =>
    intResult t false (if numOf c .a t l ≥ numOf c .b t l then numOf c .a t l else numOf c .b t l)) ∧
  (∀ x t sat, Yields (.abs x t sat) x t.wide fun c l => intResult t sat (numOf c .a t l).natAbs) ∧
  (∀ x t k, Yields (.lea x t k) x t.wide fun c l =>
    intResult t false (numOf c .a t l + numOf c .b t l * (2 ^ k.val : Nat) + numOf c .c t l))

/-- R104, R106 to R112: the instructions on bits yield the bits that their rules give, and set no flag. -/
def Obligations.BitInstructionsYieldTheirBits : Prop :=
  (∀ x t, Yields (.and x t) x t.wide fun c l => bitResult t (bitsOf c .a t l &&& bitsOf c .b t l)) ∧
  (∀ x t, Yields (.or x t) x t.wide fun c l => bitResult t (bitsOf c .a t l ||| bitsOf c .b t l)) ∧
  (∀ x t, Yields (.xor x t) x t.wide fun c l => bitResult t (bitsOf c .a t l ^^^ bitsOf c .b t l)) ∧
  (∀ x t, Yields (.andn x t) x t.wide fun c l =>
    bitResult t (bitsOf c .a t l &&& (2 ^ t.width - 1 - bitsOf c .b t l))) ∧
  (∀ x t, Yields (.shl x t) x t.wide fun c l =>
    let n := bitsOf c .b t l % 256
    bitResult t (if n ≥ t.width then 0 else bitsOf c .a t l * 2 ^ n % 2 ^ t.width)) ∧
  (∀ x t, Yields (.shr x t) x t.wide fun c l => bitResult t (bitsOf c .a t l / 2 ^ (bitsOf c .b t l % 256))) ∧
  (∀ x t, Yields (.sra x t) x t.wide fun c l =>
    let n := bitsOf c .b t l % 256
    bitResult t (wrap (signExt (bitsOf c .a t l) t.width / (2 ^ (if n < t.width then n else t.width) : Nat)) t.width)) ∧
  (∀ x t, Yields (.rol x t) x t.wide fun c l =>
    let n := bitsOf c .b t l % 256 % t.width
    bitResult t ((bitsOf c .a t l * 2 ^ n + bitsOf c .a t l / 2 ^ (t.width - n)) % 2 ^ t.width)) ∧
  (∀ x t, Yields (.clz x t) x t.wide fun c l => bitResult t (clzBits t.width (bitsOf c .a t l))) ∧
  (∀ x t, Yields (.ctz x t) x t.wide fun c l => bitResult t (ctzBits t.width (bitsOf c .a t l))) ∧
  (∀ x t, Yields (.popc x t) x t.wide fun c l => bitResult t (popBits t.width (bitsOf c .a t l))) ∧
  (∀ x t, Yields (.bfx x t) x t.wide fun c l =>
    intResult t false (bfxResult t (bitsOf c .a t l) (src c .b t l).toNat)) ∧
  (∀ x t, Yields (.bfi x t) x t.wide fun c l =>
    bitResult t (bfiResult t.width (bitsOf c .a t l) (src c .b t l).toNat (bitsOf c .c t l))) ∧
  (∀ x, Yields (.prm x) x false fun c l =>
    bitResult .b32 (prmResult (bitsOf c .a .b32 l) (bitsOf c .b .b32 l) (bitsOf c .c .b32 l))) ∧
  (∀ x t, Yields (.sel x t) x t.wide fun c l =>
    bitResult t (if condOf c x.c l then bitsOf c .a t l else bitsOf c .b t l)) ∧
  (∀ x t cond, Yields (.cmp x t cond) x false fun c l =>
    (truth (condHolds cond (numOf c .a t l) (numOf c .b t l)), 0)) ∧
  (∀ x t, Yields (.mov x t) x t.wide fun c l => bitResult t (bitsOf c .a t l)) ∧
  (∀ x t, Yields (.sext x t) x t.wide fun c l =>
    let n := (src c .b t l).toNat % 256
    intResult t false (if 0 < n ∧ n < t.width then signExt (bitsOf c .a t l % 2 ^ n) n else bitsOf c .a t l)) ∧
  (∀ x t, Yields (.zext x t) x t.wide fun c l =>
    let n := (src c .b t l).toNat % 256
    intResult t false (if 0 < n ∧ n < t.width then (bitsOf c .a t l % 2 ^ n : Nat) else bitsOf c .a t l))

/-- R107, R108: what the counting formulas of the integer class count, and which bits its bit-field formulas take and replace: with the
position and the length that the control word gives, cut at the width, `bfx` takes a field of the operand, with its sign for a signed type,
and `bfi` puts the low bits of the operand into the field. -/
def Obligations.CountingInstructionsCount : Prop :=
  (∀ w a, a < 2 ^ w → clzBits w a ≤ w ∧ a < 2 ^ (w - clzBits w a) ∧ (a ≠ 0 → 2 ^ (w - clzBits w a) ≤ 2 * a)) ∧
  (∀ w a, 0 < a → a < 2 ^ w → ctzBits w a < w ∧ a % 2 ^ ctzBits w a = 0 ∧ a / 2 ^ ctzBits w a % 2 = 1) ∧
  (∀ w, ctzBits w 0 = w ∧ clzBits w 0 = w) ∧
  (∀ w a, a < 2 ^ (w + 1) → popBits (w + 1) a = popBits w (a % 2 ^ w) + a / 2 ^ w) ∧ (∀ a, popBits 0 a = 0) ∧
  (∀ w ctl, let pos := ctl % 256
    (fieldOf w ctl).1 = pos ∧ (w ≤ pos → (fieldOf w ctl).2 = 0) ∧
    (pos < w → (fieldOf w ctl).2 = Min.min (ctl / 256 % 256) (w - pos))) ∧
  (∀ t a ctl, let f := fieldOf t.width ctl
    (f.2 = 0 → bfxResult t a ctl = 0) ∧
    (t.signed = false → bfxResult t a ctl = (a / 2 ^ f.1 % 2 ^ f.2 : Nat)) ∧
    (t.signed → 0 < f.2 → (bfxResult t a ctl - (a / 2 ^ f.1 % 2 ^ f.2 : Nat)) % (2 ^ f.2 : Nat) = 0 ∧
      -(2 ^ (f.2 - 1) : Nat) ≤ bfxResult t a ctl ∧ bfxResult t a ctl < (2 ^ (f.2 - 1) : Nat))) ∧
  (∀ w a ctl u i, let f := fieldOf w ctl
    (bfiResult w a ctl u).testBit i = if f.1 ≤ i ∧ i < f.1 + f.2 then a.testBit (i - f.1) else u.testBit i)

/-- R104: the wrap and the saturation of an exact integer. -/
def Obligations.ExactIntegersWrapOrSaturate : Prop :=
  ∀ t sat x, t.isInt = true →
    let r := intResult t sat x
    let v : Int := if t.signed then signExt r.1.toNat t.width else (r.1.toNat % 2 ^ t.width : Nat)
    (minOf t ≤ x ∧ x ≤ maxOf t → v = x ∧ r.2 = 0) ∧
    (sat = true → x < minOf t → v = minOf t ∧ r.2 = Fl.iov) ∧
    (sat = true → maxOf t < x → v = maxOf t ∧ r.2 = Fl.iov) ∧
    (sat = false → r.2 = 0 ∧ (v - x) % (2 ^ t.width : Nat) = 0 ∧ minOf t ≤ v ∧ v ≤ maxOf t)

/-- R105: `div` and `rem` start with the quotient and the remainder of `divide` pending (R99), which truncates toward zero and gives the remainder the
sign of the dividend, with DZ for a zero divisor and IOV for the minimum by −1. -/
def Obligations.DivisionTruncatesTowardZero : Prop :=
  (∀ x t sat, Pends (.div x t sat) x t.wide fun c l =>
    let r := divide t sat (numOf c .a t l) (numOf c .b t l)
    (placed t (wrap r.1 t.width), r.2.2)) ∧
  (∀ x t, Pends (.rem x t) x t.wide fun c l =>
    let r := divide t false (numOf c .a t l) (numOf c .b t l)
    (placed t (wrap r.2.1 t.width), r.2.2)) ∧
  (∀ t sat (a b : Int), minOf t ≤ a → a ≤ maxOf t → minOf t ≤ b → b ≤ maxOf t → t.isInt = true →
    let r := divide t sat a b
    (b = 0 → r = (if 0 ≤ a then maxOf t else minOf t, a, Fl.dz)) ∧
    (b ≠ 0 → ¬(t.signed ∧ a = minOf t ∧ b = -1) →
      a = b * r.1 + r.2.1 ∧ r.2.1.natAbs < b.natAbs ∧ (r.2.1 = 0 ∨ (r.2.1 < 0 ↔ a < 0)) ∧ r.2.2 = 0
        ∧ minOf t ≤ r.1 ∧ r.1 ≤ maxOf t) ∧
    (t.signed → a = minOf t → b = -1 → r = (if sat then maxOf t else minOf t, 0, Fl.iov)))

/-- R115 to R118: the instructions of the floating-point class that the pipe completes at once. -/
def Obligations.FloatInstructionsYieldTheirRoundedResult : Prop :=
  (∀ x t r m, Yields (.fadd x t r m) x false fun c l => fltResult t r (numAdd r (fltA c t m l) (fltB c t l)) 0) ∧
  (∀ x t r m, Yields (.fsub x t r m) x false fun c l =>
    fltResult t r (numAdd r (fltA c t m l) (numNeg (fltB c t l))) 0) ∧
  (∀ x t r m, Yields (.fmul x t r m) x false fun c l => fltResult t r (mulScaled (fltA c t m l) (fltB c t l) 0) 0) ∧
  (∀ x t r m, Yields (.fma x t r m) x false fun c l =>
    fltResult t r (numAdd r (mulScaled (fltA c t m l) (fltB c t l) 0) (fltC c t l)) 0) ∧
  (∀ x t r m, Yields (.fnma x t r m) x false fun c l =>
    fltResult t r (numAdd r (numNeg (mulScaled (fltA c t m l) (fltB c t l) 0)) (fltC c t l)) 0) ∧
  (∀ x t m, Yields (.fmin x t m) x false fun c l =>
    let q := minMaxNum t false (modified t m (src c .a t l).toNat) ((src c .b t l).toNat % 2 ^ t.width)
    (placed t q.1, q.2)) ∧
  (∀ x t m, Yields (.fmax x t m) x false fun c l =>
    let q := minMaxNum t true (modified t m (src c .a t l).toNat) ((src c .b t l).toNat % 2 ^ t.width)
    (placed t q.1, q.2)) ∧
  (∀ x t cnd, Yields (.fcmp x t cnd) x false fun c l =>
    let q := fcondHolds cnd (valueOf t (src c .a t l).toNat) (fltB c t l)
    (truth q.1, q.2)) ∧
  (∀ x t, Yields (.fclass x t) x false fun c l => (BitVec.ofNat 64 (2 ^ classBit t (src c .a t l).toNat), 0)) ∧
  (∀ x t, Yields (.fsel x t) x false fun c l =>
    bitResult t (if condOf c x.c l then bitsOf c .a t l else bitsOf c .b t l))

/-- R87 to R96: the conversions. -/
def Obligations.ConversionsYieldTheirResult : Prop :=
  (∀ x dst from_, Yields (.cvt x dst from_) x dst.wide fun c l =>
    convert dst from_ (cvtControl x).1 (cvtControl x).2 (src c .a from_ l).toNat) ∧
  (∀ x t r, Yields (.rnd x t r) x false fun c l =>
    match valueOf t (src c .a t l).toNat with
    | .nan sg => (placed t (fmtOf t).nanCode, flagIf sg Fl.inv)
    | .inf n => (placed t ((fmtOf t).infCode n), 0)
    | .fin e =>
      (placed t (roundEx (fmtOf t) .rn false
        (if e.exp ≥ 0 then e else ⟨e.neg, (roundInt r e).1.natAbs, 0, false⟩)).code, 0)) ∧
  (∀ x t r, Yields (.qnt x t r) x false fun c l =>
    let q := roundTo t r false (scaleNum (valueOf .f32 (src c .a .f32 l).toNat) (-signExt (src c .b .b32 l).toNat 8))
    (placed t q.code, q.flags)) ∧
  (∀ x t, Yields (.dqt x t) x false fun c l =>
    fltResult .f32 .rn (scaleNum (valueOf t (src c .a t l).toNat) (signExt (src c .b .b32 l).toNat 8)) 0) ∧
  (∀ x t r p, Yields (.pack x t r p) x false fun c l =>
    let lo := packOne t r (src c .a .f32 l).toNat
    let hi := packOne t r (src c .b .f32 l).toNat
    (BitVec.ofNat 64 (packInto t.width p.val (src c .c .b32 l).toNat (hi.code * 2 ^ t.width + lo.code)),
      lo.flags ||| hi.flags)) ∧
  (∀ x t n, Yields (.unpk x t n) x false fun c l =>
    fltResult .f32 .rn (valueOf t (bitsAt (src c .a .b32 l).toNat (t.width * n.val) t.width)) 0) ∧
  (∀ x t r, Yields (.scl x t r) x false fun c l =>
    fltResult t r (scaleNum (valueOf t (src c .a t l).toNat) (signExt (src c .b .s32 l).toNat 32)) 0)

/-- R123 to R129: the cross-lane and predicate class. `red` gives every participant the root of the tree over the participants' values, `scan` the
combination of the values before each one, its own included unless `.excl`; with no value to combine, the identity. A scan sets the flags
of every combination that the tree makes, also of one that no participant takes (log 56). -/
def Obligations.CrossLaneInstructionsYieldTheirResult : Prop :=
  (∀ x wide m, Yields (.shfl x wide m) x wide fun c l =>
    (laneA c (wordTy wide) (shflSource m l ((rdOpnd c x.b .b32 l).toNat % 2 ^ 32)), 0)) ∧
  (∀ x wide, Yields (.bcst x wide) x wide fun c _ =>
    (laneA c (wordTy wide) ((rdOpnd c x.b .b32 0).toNat % 64), 0)) ∧
  (∀ x m, Yields (.vote x m) x (m = .ballot) fun c _ => (voteResult m c.mask (voters c), 0)) ∧
  (∀ x, Yields (.first x) x false fun c _ => (BitVec.ofNat 64 ((Mask.threads (voters c)).headD 64), 0)) ∧
  (∀ x, Yields (.kand x) x false fun c l => (truth (condOf c x.a l && condOf c x.b l), 0)) ∧
  (∀ x, Yields (.kor x) x false fun c l => (truth (condOf c x.a l || condOf c x.b l), 0)) ∧
  (∀ x, Yields (.kxor x) x false fun c l => (truth (condOf c x.a l != condOf c x.b l), 0)) ∧
  (∀ x, Yields (.knot x) x false fun c l => (truth (!condOf c x.a l), 0)) ∧
  (∀ x, Yields (.kmov x) x false fun c l =>
    match x.a with
    | .k _ | .g _ => (truth (condOf c x.a l), 0)
    | .s n => (truth (rdS c.tr n.toNat ≠ 0), 0)
    | a => (truth (rdOpnd c a .b32 l ≠ 0), 0)) ∧
  (∀ x t op s k c s', WellFormed (.red x t op) → Ready (.red x t op) x s k c s' →
    let tree := treeFrom op t 6 (leaves c.mask (laneLeaf c t))
    ∃ t', exec (.red x t op) s = .next t'
      ∧ Completes (.red x t op) x t.wide c.lanes (fun _ => placed t ((nodeAt tree.1 6 0).getD (identOf op t)))
          (tree.2 ||| leafFlags c t) c s' t'
      ∧ MemoryAfter x c.lanes c.tr s t' ∧ OtherTrains k s t') ∧
  (∀ x t op excl s k c s', WellFormed (.scan x t op excl) → Ready (.scan x t op excl) x s k c s' →
    let tree := treeFrom op t 6 (leaves c.mask (laneLeaf c t))
    let before := fun l => prefixFrom op t tree.1 (if excl then l else l + 1) 6 0 none 0
    ∃ t', exec (.scan x t op excl) s = .next t'
      ∧ Completes (.scan x t op excl) x t.wide c.lanes (fun l => placed t ((before l).1.getD (identOf op t)))
          (tree.2 ||| leafFlags c t ||| joinFlags (c.lanes.map fun l => (before l).2)) c s' t'
      ∧ MemoryAfter x c.lanes c.tr s t' ∧ OtherTrains k s t')

/-- R99, R115, R119, R234: the long floating-point operations start with their result pending; the approximations take the value of
`approxResult` (log 7), whose rounded result for a finite operand lies within the bound of its operation. The pending result of any long operation is written at once for all its threads, as the completion of the
instruction, and its places in a queue are filled. -/
def Obligations.LongOperationsPendAndTheirResultCompletes : Prop :=
  (∀ x t r m, Pends (.fsqrt x t r m) x false fun c l => fltResult t r (numSqrt (fltA c t m l)) 0) ∧
  (∀ x t r m, Pends (.fdiv x t r m) x false fun c l =>
    let q := numDiv (fltA c t m l) (fltB c t l)
    fltResult t r q.1 q.2) ∧
  (∀ x t m, Pends (.frcp x t m) x false (approxResult .rcp t m)) ∧
  (∀ x t m, Pends (.frsq x t m) x false (approxResult .rsq t m)) ∧
  (∀ x t m, Pends (.fex2 x t m) x false (approxResult .ex2 t m)) ∧
  (∀ x t m, Pends (.flg2 x t m) x false (approxResult .lg2 t m)) ∧
  (∀ x t m, Pends (.fsin x t m) x false (approxResult .sin t m)) ∧
  (∀ x t m, Pends (.fcos x t m) x false (approxResult .cos t m)) ∧
  (∀ x t m, Pends (.ftanh x t m) x false (approxResult .tanh t m)) ∧
  (∀ op t bits y c, (t = .f32 ∨ t = .f16 ∨ t = .bf16) → y.mant ≠ 0 →
    decodeFmt (fmtOf t) (approxRound (fmtOf t) op t.code bits y).code = .fin c →
    withinUlps (fmtOf t) op.ulps (approxRound (fmtOf t) op t.code bits y).code y = true) ∧
  (∀ s k tr (l : LongOp) (lanes : List Nat) (val : Nat → Dword), train? s k = some tr → tr.long = some l →
    l.vals = lanes.map (fun t => (t, val t)) → DstFits l.x.d lanes →
    ∃ tr', TrainAfter l.instr l.x l.wide lanes val l.flags [] { tr with long := none } tr' ∧
      exec (.longOpResult k) s = .next (putTrain (match tr.wg with
        | some w => modWg s w (fillVals l.x l.wide l.vals l.slots)
        | none => s) k tr'))

/-- R173 to R178, R186: `ld` and `st` of the global space: an outstanding load of the places, or with ACQ the bytes at once;
outstanding stores of the operand's bytes in ascending tid, behind the performed earlier accesses of the train with REL. That the seventeenth
load has the oldest return in the same step, and that a load with ACQ returns in its own, is the model's choice (log 11). R189, R207: an
instruction of which some places lie in other modules sends its requests after every translation and makes its other accesses in that step
(log 39); answered, it goes on with the places that it had, and does not translate again. -/
def Obligations.GlobalAccessesReachTheirPlaces : Prop :=
  (∀ x t sc s k c s' pa s2, Ready (.ld x t sc) x s k c s' →
    Translates c s' .load (tyBytes t) (globalAddr c sc.val true) pa s2 →
    let s3 := clearReplies s2 k
    let room := if c.tr.loads.length ≥ 16 then returnLoad s3 k 0 else s3
    (extOrder x ≠ 1 → EndsWith (.ld x t sc) x t.wide s c room
      { load := if c.lanes.isEmpty then none
                else some { u := x.u, dst := x.d, ty := t, parts := c.lanes.map fun l => (l, pa l) } }) ∧
    (extOrder x = 1 →
      let s4 := settleLoads s3 k (c.lanes.map fun l => (l, pa l)) (tyBytes t)
      ∃ tr, train? s4 k = some tr ∧ EndsWith (.ld x t sc) x t.wide s c s4
        { vals := c.lanes.map fun l => (l, placed t (trainMem s4 tr (pa l) (tyBytes t))) })) ∧
  (∀ x t sc s k c s' pa s2, Ready (.st x t sc) x s k c s' →
    Translates c (if extOrder x = 2 then performEarlier s' k else s') .store (tyBytes t) (globalAddr c sc.val false) pa s2 →
    EndsWith (.st x t sc) x false s c
      (issueStores (clearReplies s2 k) k (tyBytes t) (extHint x = 2) (fun l => (rdOpnd c x.c t l).toNat)
        (c.lanes.map fun l => (l, pa l))) {}) ∧
  (∀ c s acc n addrs op go near s1 l s2 ids, c.tr.access = none → translateAll s c.tr acc n addrs = (s1, .ok l) →
    askRemote s1 c.k op (remotePlaces l) = some (s2, ids) →
    withPlaces c s acc n addrs op go (some near) = .blocked (keepAccess c s2 near l) (.remote ids)) ∧
  (∀ s k near l, (near s (localPlaces l)).2.map (·.1) = (localPlaces l).map (·.1) → localPlaces (makeNear s k near l).2 = []) ∧
  (∀ x t sc s k c s' a, Ready (.st x t sc) x s k c s' → c.tr.access = some a →
    EndsWith (.st x t sc) x false s c
      (issueStores (clearReplies (if extOrder x = 2 then performEarlier s' k else s') k) k (tyBytes t) (extHint x = 2)
        (fun l => (rdOpnd c x.c t l).toNat) (localPlaces a.places)) { trap := violationTrap c (violations c.tr.replies a.places) })

/-- R165 to R168, R179: loads and stores of the scratchpad, whole or within a tile. -/
def Obligations.ScratchpadAccessesReachTheirPlaces : Prop :=
  (∀ x t sc s k c s' g, Ready (.ldp x t sc) x s k c s' → wgOf s' c.tr = some g →
    (∀ l ∈ c.lanes, spFate g false (spAddr c sc.val true l) (tyBytes t) = .ok) →
    EndsWith (.ldp x t sc) x t.wide s c s'
      { vals := c.lanes.map fun l => (l, placed t (spRead g (spAddr c sc.val true l) (tyBytes t))) }) ∧
  (∀ x t sc s k c s' w g, Ready (.stp x t sc) x s k c s' → c.tr.wg = some w → wg? s' w = some g →
    (∀ l ∈ c.lanes, spFate g true (spAddr c sc.val false l) (tyBytes t) = .ok) →
    EndsWith (.stp x t sc) x false s c
      (modWg s' w fun g => c.lanes.foldl (fun g l =>
        spWrite g (spAddr c sc.val false l) (tyBytes t) (rdOpnd c x.c t l).toNat) g) {}) ∧
  (∀ x t sc s k c s' g n, Ready (.ldt x t sc) x s k c s' → wgOf s' c.tr = some g → x.a = .t n →
    (tileOf g n.toNat).state = 2 →
    (∀ l ∈ c.lanes, tileOffset c sc.val true l % tyBytes t = 0 ∧
      tileOffset c sc.val true l + tyBytes t ≤ (tileOf g n.toNat).size) →
    EndsWith (.ldt x t sc) x t.wide s c s' { vals := c.lanes.map fun l =>
      (l, placed t (spRead g ((tileOf g n.toNat).base + tileOffset c sc.val true l) (tyBytes t))) }) ∧
  (∀ x t sc s k c s' w g n, Ready (.stt x t sc) x s k c s' → c.tr.wg = some w → wg? s' w = some g → x.a = .t n →
    ((tileOf g n.toNat).state = 0 ∨ (tileOf g n.toNat).state = 2) →
    latchedTile g n.toNat = false → referenced g n.toNat = false →
    (∀ l ∈ c.lanes, tileOffset c sc.val false l % tyBytes t = 0 ∧
      tileOffset c sc.val false l + tyBytes t ≤ (tileOf g n.toNat).size) →
    (∀ j ∈ tilesHit g (tyBytes t) (c.lanes.map fun l => (l, (tileOf g n.toNat).base + tileOffset c sc.val false l)),
      latchedTile g j = false ∧ referenced g j = false) →
    EndsWith (.stt x t sc) x false s c
      (modWg s' w fun g' => c.lanes.foldl (fun g' l =>
        spWrite g' ((tileOf g n.toNat).base + tileOffset c sc.val false l) (tyBytes t) (rdOpnd c x.c t l).toNat) g') {})

/-- R169, R170, R180 to R182: `look`, `tagw` and `tagi` on the tag table; `tst` on a tile's state and `tst.def` on its descriptor. -/
def Obligations.TagAndTileInstructionsUseTheirTables : Prop :=
  (∀ x s k c s' g v, Ready (.look x) x s k c s' → wgOf s' c.tr = some g → g.tagCfg = some v →
    EndsWith (.look x) x false s c s'
      { vals := c.lanes.map fun l => (l, lookResult g (tagCfgOf v) (rdOpnd c x.a .n64 l).toNat) }) ∧
  (∀ x s k c s' w g v, Ready (.tagw x) x s k c s' → c.tr.wg = some w → wg? s' w = some g → g.tagCfg = some v →
    (∀ l ∈ c.lanes, (rdOpnd c x.a .b32 l).toNat < 2 ^ (tagCfgOf v).eshift ∧
      (rdOpnd c x.a .b32 l).toNat / 8 = (tagCfgOf v).set (rdOpnd c x.b .n64 l).toNat) → c.on →
    EndsWith (.tagw x) x false s c
      (modWg s' w fun g => c.lanes.foldl (fun g l =>
        tagWrite g (tagCfgOf v) (rdOpnd c x.a .b32 l).toNat (rdOpnd c x.b .n64 l).toNat) g) {}) ∧
  (∀ x s k c s' w g v, Ready (.tagi x) x s k c s' → c.tr.wg = some w → wg? s' w = some g → g.tagCfg = some v →
    (∀ l ∈ c.lanes, (rdOpnd c x.a .b32 l).toNat < 2 ^ (tagCfgOf v).eshift) → c.on →
    EndsWith (.tagi x) x false s c
      (modWg s' w fun g => c.lanes.foldl (fun g l => clearTag g (tagCfgOf v) (rdOpnd c x.a .b32 l).toNat) g) {}) ∧
  (∀ x s k c s' w g v, Ready (.tagiAll x) x s k c s' → c.tr.wg = some w → wg? s' w = some g → g.tagCfg = some v → c.on →
    EndsWith (.tagiAll x) x false s c
      (modWg s' w fun g => (List.range (2 ^ (tagCfgOf v).eshift)).foldl (fun g e => clearTag g (tagCfgOf v) e) g) {}) ∧
  (∀ x s k c s' w g, Ready (.tagiCfg x) x s k c s' → c.tr.wg = some w → wg? s' w = some g → c.on →
    let v := rdOpnd c x.a .n64 uniTid
    (bitsAt v.toNat 0 8 = 0 ∧ bitsAt v.toNat 32 22 = 0 → EndsWith (.tagiCfg x) x false s c (modWg s' w fun g => { g with tagCfg := none }) {}) ∧
    (¬(bitsAt v.toNat 0 8 = 0 ∧ bitsAt v.toNat 32 22 = 0) → tagCfgOk g v.toNat → EndsWith (.tagiCfg x) x false s c
      (modWg s' w fun g => clearTags { g with tagCfg := some v } (tagCfgOf v)) {})) ∧
  (∀ x s k c s' w g n, Ready (.tst x) x s k c s' → c.tr.wg = some w → wg? s' w = some g → x.a = .t n → c.on →
    let tl := tileOf g n.toNat
    let st := (rdOpnd c x.b .n64 uniTid).toNat % 4
    tl.engine = false → (tl.state ≠ 2 ∨ st = 2 ∨ (latchedTile g n.toNat = false ∧ referenced g n.toNat = false)) →
    EndsWith (.tst x) x false s c (modWg s' w fun g => setTile g n.toNat { tl with state := st }) {}) ∧
  (∀ x s k c s' w g n, Ready (.tst x) x s k c s' → c.tr.wg = some w → wg? s' w = some g → x.a = .t n → c.on →
    (tileOf g n.toNat).engine → exec (.tst x) s = .next (blockAt s' k c.head (.tile n.toNat [0, 2] false))) ∧
  (∀ x s k c s' w g n, Ready (.tstDef x) x s k c s' → c.tr.wg = some w → wg? s' w = some g → x.a = .t n → c.on →
    let tl := tileOf g n.toNat
    let v := (rdOpnd c x.b .n64 uniTid).toNat
    let base := v % 2 ^ 32
    let size := v / 2 ^ 32
    tl.state = 0 → base % 256 = 0 → size % 256 = 0 → size ≠ 0 → g.qbytes * 256 ≤ base →
    base + size ≤ (g.qbytes + g.tbytes) * 256 →
    EndsWith (.tstDef x) x false s c
      (modWg s' w fun g => setTile g n.toNat { tl with base := base, size := size }) {})

/-- R183 to R185: prefetch, fences and flushes. That a fence and a flush of the write-combining buffers end within their own step is the
model's choice (log 11, 31), as are the ranges and the stale lines of `flush.ib` (log 40). -/
def Obligations.FencesAndFlushesOrderEarlierAccesses : Prop :=
  (∀ x sc s k c s', Ready (.pref x sc) x s k c s' → ∃ s2, SameButCores s' s2 ∧ EndsWith (.pref x sc) x false s c s2 {}) ∧
  (∀ x sc o s k c s', Ready (.fence x sc o) x s k c s' →
    (c.on = false ∨ o = .none → EndsWith (.fence x sc o) x false s c s' {}) ∧
    (c.on → o = .acq → EndsWith (.fence x sc o) x false s c (returnLoads s' k fun _ => true) {}) ∧
    (c.on → o = .rel ∨ o = .ar → EndsWith (.fence x sc o) x false s c (performEarlier s' k) {})) ∧
  (∀ x s k c s', Ready (.flushWc x) x s k c s' → c.on →
    EndsWith (.flushWc x) x false s c (performWc s' k) {}) ∧
  (∀ x s k c s', Ready (.flushIb x) x s k c s' → c.on → ∃ s2, SameButCores s' s2 ∧
    EndsWith (.flushIb x) x false s c s2 {} ∧
    ∀ ln ∈ (coreAt s2 c.tr.core).ibuf, ln.stale = false →
      ∀ r ∈ physRanges s' c.tr.asid (rdOpnd c x.a .n64 uniTid).toNat
          (Min.min ((rdOpnd c x.a .n64 uniTid).toNat + (rdOpnd c x.b .n64 uniTid).toNat) (2 ^ 64)), r.2 ≠ 0 →
        overlaps (ln.tag * 256) 256 r.1 r.2 = false)

/-- R172, R177, R178, R186, R195, R196: a load returns the bytes that its train sees, a store writes its bytes, a write-combining buffer drains with
every store of its block, and the line that a fetch misses is filled. When a step happens within its bound is the model's choice (log 2, 4, 11). -/
def Obligations.MemoryStepsPerformWhatWasIssued : Prop :=
  (∀ s k tr i ld, train? s k = some tr → tr.loads[i]? = some ld →
    (∀ e ∈ tr.loads.take i, ∀ q ∈ ld.parts, loadTouches e q.2 (tyBytes ld.ty) = false) →
    ∃ tr', exec (.loadDataReturn k i) s = .next (putTrain s k tr') ∧ tr'.loads = tr.loads.eraseIdx i ∧
      (∀ (lanes : List Nat) (pa : Nat → Nat), ld.parts = lanes.map (fun l => (l, pa l)) → (∀ l ∈ lanes, l < 64) → ld.dst ≠ .zero →
        ∀ r l, l < 64 → regAt tr' r l =
          (writtenTo ld.dst ld.ty.wide lanes (fun l => placed ld.ty (trainMem s tr (pa l) (tyBytes ld.ty))) r l).getD
            (regAt tr r l))) ∧
  (∀ s k tr i st, train? s k = some tr → tr.stores[i]? = some st → st.wc = false →
    ∃ t, exec (.storePerformed k i) s = .next t ∧ OtherTrains k s t ∧
      (∀ a, st.pa ≤ a → a < st.pa + st.bytes.length → readByte t a = st.bytes.getD (a - st.pa) 0) ∧
      (∀ a, (∀ x ∈ tr.stores.take (i + 1), ¬(x.pa ≤ a ∧ a < x.pa + x.bytes.length)) → readByte t a = readByte s a) ∧
      ∃ tr', train? t k = some tr' ∧ tr'.stores.Sublist (tr.stores.eraseIdx i)) ∧
  (∀ s k tr i st, train? s k = some tr → tr.stores[i]? = some st → st.wc →
    exec (.wcBufferDrainTimeout k i) s = .next (drainBuffer s k (blockOf st.pa))) ∧
  (∀ s k tr pa s2, train? s k = some tr → tr.block = some .fetchLine → fetchPlace s tr tr.pc = .mem pa →
    fetchLine (coreAt s tr.core) tr.uid (pa / 256) = none → fillLine s tr.core (pa / 256) = some s2 →
    exec (.instructionFetchFill k) s = .next (unblock s2 k) ∧ Unblocked k s (unblock s2 k) ∧
      fetchLine (coreAt s2 tr.core) tr.uid (pa / 256) = some { tag := pa / 256, bytes := lineBytes s (pa / 256) })

/-- R54, R161, R168, R234, R294, R298, R339: a train that waits goes on when what it waits for holds: it executes again from its chain's head
(log 5). R136, R236: where the stall of a workgroup has lasted longer than its bound, each of its trains that waits at a queue or for banks
has STALL, cause 6, raised, asynchronous; a train whose own `aalloc` has waited longer than the bound, its banks not free, has it raised
exact; the stall timer counts anew. That the record of the exact one has ASYNC = 1 too is the model's reading (log 28). R136: blocked requests
of a core are served in order of issue. -/
def Obligations.WaitingTrainsGoOnWhenTheirConditionHolds : Prop :=
  (∀ s k tr va kind, train? s k = some tr → tr.block = some (.faultNoEntry va kind) →
    (Tab.firstFree s.faults 1024 (clusterOfKey k * 1024)).isSome →
    ∃ t, exec (.faultEntryFreed k) s = .next t ∧ Unblocked k s t) ∧
  (∀ s k tr i st free g, train? s k = some tr → tr.block = some (.tile i st free) → wgOf s tr = some g →
    (tileOf g i).state ∈ st → (free → referenced g i = false) →
    ∃ t, exec (.tileGateRelease k) s = .next t ∧ Unblocked k s t) ∧
  (∀ s k tr qs pc w g, train? s k = some tr → tr.block = some (.queue qs pc) → tr.wg = some w → wg? s w = some g →
    (∀ n ∈ qs, n.2.1 ≤ (qdesc g n.1).count ∧ (qdesc g n.1).count + n.2.2 ≤ (qdesc g n.1).cap + n.2.1 ∧
      ∀ r ∈ (qdesc g n.1).reserved, n.2.1 ≤ r) →
    ∃ t, exec (.queueOpIssue k) s = .next t ∧ Unblocked k s t) ∧
  (∀ s k tr l n, train? s k = some tr → tr.block = some (.feed l n) →
    (∀ ln, Tab.get? s.lines l = some ln → ln.records + n ≤ intakeSize) →
    ∃ t, exec (.feedIntakeRoom k) s = .next t ∧ Unblocked k s t) ∧
  (∀ s k tr n, train? s k = some tr → tr.block = some (.wemit n) → ∃ t, exec (.wemitRetry k) s = .next t ∧ Unblocked k s t) ∧
  (∀ s k tr, train? s k = some tr → tr.block = some .staging →
    16 * (stagedCells s tr.part + 1) ≤ (partAt s tr.part).stagesz.toNat →
    ∃ t, exec (.stagingRoom k) s = .next t ∧ Unblocked k s t) ∧
  (∀ s w g, wg? s w = some g → g.qstall ≠ 0 →
    let own := stalledAalloc s w g.qstall
    let all := if g.qstall < s.clk - g.qSince then stalled s w else []
    (∀ k pc, (k, pc) ∈ own ↔ k ∈ trainsOfWg s w ∧ ∃ tr banks entry since, train? s k = some tr ∧
      tr.block = some (.aalloc banks entry since) ∧ tr.pc = pc ∧ g.qstall < s.clk - since ∧
      banksFree s w banks entry = false) ∧
    let trap := fun (waits : Bool) (s : State) (e : Nat × Dword) => touchStall (raiseBlocked s e.1 6 e.2 true waits) e.1
    exec (.queueStall w) s = .next ((all.filter fun e => !own.contains e).foldl (trap true) (own.foldl (trap false) s))) ∧
  (∀ s w need order g, wg? s w = some g →
    (banksFree s w need order ↔ need ≤ g.resv + unreservedBanks s g.core ∧ ∀ j t banks id since, (j, t) ∈ s.trains →
      t.core = g.core → t.block = some (.aalloc banks id since) → order ≤ id))

/-- R219 to R227, R339: the atomics read and write the bytes of their threads' places in ascending tid, after what the order of EXT64 demands;
one that returns a value counts towards the outstanding loads (log 11); results and flags come from the old values. A tagged `facc` adds
its threads' addends to the contributor's staging copy, and where its handle names no open join, also a released one, it only sets flags (log 21). -/
def Obligations.AtomicsActOnTheirPlacesInTidOrder : Prop :=
  (let act := fun (i : Instr) (x : Args) (wide ret : Bool) (o : Ctx → AtomicOp) =>
    (∀ s k c s' pa s2, Ready i x s k c s' → x.sp = false →
      let s1 := if extOrder x ≥ 2 then performEarlier s' k else s'
      Translates c (if ret then loadRoom s1 k else s1) (o c).acc (o c).n (atomicGlobal c) pa s2 →
      let places := c.lanes.map fun l => (l, pa l)
      let r := atomicAll k (o c).n (o c).write (o c).new places (settleLoads (clearReplies s2 k) k places (o c).n)
      EndsWith i x wide s c r.2
        { vals := if ret then r.1.map fun e => (e.1, ((o c).res e.2).1) else []
          flags := joinFlags (r.1.map fun e => ((o c).res e.2).2 ||| (o c).flags e.1) }) ∧
    (∀ s k c s' w g, Ready i x s k c s' → x.sp → c.tr.wg = some w →
      let s1 := if extOrder x ≥ 2 then performEarlier s' k else s'
      wg? s1 w = some g → (∀ l ∈ c.lanes, spFate g true (atomicSp c l) (o c).n = .ok) →
      let r := atomicAllSp (o c).n (o c).write (o c).new (c.lanes.map fun l => (l, atomicSp c l)) g
      EndsWith i x wide s c (putWg s1 w r.2)
        { vals := if ret then r.1.map fun e => (e.1, ((o c).res e.2).1) else []
          flags := joinFlags (r.1.map fun e => ((o c).res e.2).2 ||| (o c).flags e.1) })
  (∀ x t op, act (.atom x t op) x t.wide true fun c => atomOp c t op) ∧
  (∀ x t, act (.cas x t) x t.wide true fun c => casOp c t) ∧
  (∀ x, act (.facc x) x false false faccOp) ∧
  (∀ x t r z, act (.faccr x t r z) x false true fun _ => faccrOp t r z)) ∧
  (∀ x s k c s' pa s2 j jn s3, Ready (.faccTagged x) x s k c s' → c.on →
    Translates c s' .store 16 (atomicGlobal c) pa s2 →
    joinSlot s2 c.tr.part (rdOpnd c x.c .b32 uniTid).toNat = some j → Tab.get? s2.joins j = some jn → jn.state = 1 →
    stageAll j c.tr.uid (fun t => (addend c t).1) (c.lanes.map fun l => (l, atomicGlobal c l, .mem (pa l)))
      (enrol s2 j c.tr.uid) = some (s3, []) →
    EndsWith (.faccTagged x) x false s c s3 { flags := joinFlags (c.lanes.map fun t => (addend c t).2) }) ∧
  (∀ x s k c s' s2 l, Ready (.faccTagged x) x s k c s' →
    translateAll s' c.tr .store 16 (c.lanes.map fun t => (t, atomicGlobal c t)) = (s2, .ok l) →
    (∀ j jn, joinSlot s2 c.tr.part (rdOpnd c x.c .b32 uniTid).toNat = some j → Tab.get? s2.joins j = some jn → jn.state ≠ 1) →
    EndsWith (.faccTagged x) x false s c s2 { flags := joinFlags (c.lanes.map fun t => (addend c t).2) })

/-- R222, R223: one atomic reads the bytes of its place as its train's earlier stores left them, writes its new value there
and changes no other byte that no earlier store of its train covers. -/
def Obligations.OneAtomicReadsThenWritesItsBytes : Prop :=
  ∀ s k tr pa n write f, train? s k = some tr →
    let r := atomicAt s k pa n write f
    (∀ a, pa ≤ a → a < pa + n →
      readByte r.2 a = if write then BitVec.ofNat 8 (f r.1 / 256 ^ (a - pa)) else overlay tr.stores s a) ∧
    r.1 = ofBytes ((List.range n).map fun i => overlay tr.stores s (pa + i)) ∧
    (∀ a, ¬(pa ≤ a ∧ a < pa + n) → (∀ x ∈ tr.stores, ¬(x.pa ≤ a ∧ a < x.pa + x.bytes.length)) →
      readByte r.2 a = readByte s a)

/-- R228, R229: `waita`, in either space, completes with the values of one read for every thread when the condition of every thread holds,
and also when its bound has passed at its first issue, as a bound of 0 has; while a condition does not hold and the bound has not passed,
the train waits, and goes on when a later read, or the deadline, ends the wait. At the deadline the waiting threads read once more, the
model's reading of the value last read (log 43). That the first read of a global `waita` counts among the 16 outstanding loads, so that
the oldest of 16 returns in the step of the `waita`, and that the earlier loads of its bytes return there, is the model's reading of
R186, which leaves the moment of a return open (log 11). -/
def Obligations.WaitaEndsWhenEveryConditionHolds : Prop :=
  (∀ x t eq s k c s' w g, Ready (.waita x t eq) x s k c s' → x.sp → c.tr.wg = some w → wg? s' w = some g →
    (∀ l ∈ c.lanes, spFate g true (atomicSp c l) (tyBytes t) = .ok) →
    ((∀ l ∈ c.lanes, spRead g (atomicSp c l) (tyBytes t) = atomData c x.b t l ↔ eq = true) ∨
      (x.c ≠ .zero ∧ c.tr.deadline.getD (s'.clk + (rdOpnd c x.c .b32 uniTid).toNat) ≤ s'.clk)) →
    EndsWith (.waita x t eq) x t.wide s c (clearDeadline s' k)
      { vals := c.lanes.map fun l => (l, BitVec.ofNat 64 (spRead g (atomicSp c l) (tyBytes t))) }) ∧
  (∀ x t eq s k c s' w g, Ready (.waita x t eq) x s k c s' → x.sp → c.tr.wg = some w → wg? s' w = some g →
    (∀ l ∈ c.lanes, spFate g true (atomicSp c l) (tyBytes t) = .ok) →
    ¬(∀ l ∈ c.lanes, spRead g (atomicSp c l) (tyBytes t) = atomData c x.b t l ↔ eq = true) →
    (x.c ≠ .zero → s'.clk < c.tr.deadline.getD (s'.clk + (rdOpnd c x.c .b32 uniTid).toNat)) →
    ∃ s2 tr' cells vals pc chain last, exec (.waita x t eq) s = .next s2 ∧ train? s2 k = some tr' ∧ OtherTrains k s s2 ∧
      SameMemory s s2 ∧ tr'.block = some (.waita true cells vals pc chain none last) ∧ cells ≠ [] ∧
      tr'.atWait = some (.waita x t eq) ∧
      tr'.deadline = if x.c = .zero then none else some (c.tr.deadline.getD (s'.clk + (rdOpnd c x.c .b32 uniTid).toNat))) ∧
  (∀ x t eq s k c s' pa s2, Ready (.waita x t eq) x s k c s' → x.sp = false →
    let dl := if x.c = .zero then none else some (c.tr.deadline.getD (s'.clk + (rdOpnd c x.c .b32 uniTid).toNat))
    Translates c (modTrain (loadRoom s' k) k fun tr => { tr with deadline := dl }) .load (tyBytes t) (atomicGlobal c) pa s2 →
    let s3 := settleLoads s2 k (c.lanes.map fun l => (l, pa l)) (tyBytes t)
    ∃ tr, train? s3 k = some tr ∧
      let holds := ∀ l ∈ c.lanes, trainMem s3 tr (pa l) (tyBytes t) = atomData c x.b t l ↔ eq = true
      (holds ∨ (∃ d, dl = some d ∧ d ≤ s'.clk) →
        EndsWith (.waita x t eq) x t.wide s c (clearDeadline s3 k)
          { vals := c.lanes.map fun l => (l, BitVec.ofNat 64 (trainMem s3 tr (pa l) (tyBytes t))) }) ∧
      (¬holds → (∀ d, dl = some d → s'.clk < d) →
        ∃ s4 tr' cells vals pc chain last, exec (.waita x t eq) s = .next s4 ∧ train? s4 k = some tr' ∧ OtherTrains k s s4 ∧
          SameMemory s s4 ∧ tr'.block = some (.waita false cells vals pc chain none last) ∧ cells ≠ [] ∧
          tr'.atWait = some (.waita x t eq) ∧ tr'.deadline = dl)) ∧
  (∀ s k tr x t eq sp cells vals pc chain trap last, train? s k = some tr →
    tr.block = some (.waita sp cells vals pc chain trap last) → tr.atWait = some (.waita x t eq) →
    let r := waitRound (waitRead s tr sp (tyBytes t)) eq cells vals
    (r.left = [] → exec (.waitaReread k) s = .next (finishWaita s k x t r.vals pc chain (addViolations x pc trap r.viol))) ∧
    (r.left ≠ [] → exec (.waitaReread k) s = .next (askAgain (modTrain s k fun me => { me with
      block := some (.waita sp r.left r.vals pc chain (addViolations x pc trap r.viol) s.clk), replies := [] })
      k (tyBytes t) r.left))) ∧
  (∀ s k tr x t eq sp cells vals pc chain trap last d, train? s k = some tr →
    tr.block = some (.waita sp cells vals pc chain trap last) → tr.atWait = some (.waita x t eq) → tr.deadline = some d →
    d ≤ s.clk → let r := waitRound (waitRead s tr sp (tyBytes t)) eq cells vals
    exec (.waitaDeadline k) s = .next (finishWaita s k x t r.vals pc chain (addViolations x pc trap r.viol))) ∧
  (∀ s k tr x t eq sp cells lanes (val : Nat → Nat) pc chain last, train? s k = some tr →
    tr.block = some (.waita sp cells (lanes.map fun l => (l, val l)) pc chain none last) → tr.atWait = some (.waita x t eq) →
    DstFits x.d lanes → (∀ n, x.d ≠ .q n) →
    ∃ tr', train? (finishWaita s k x t (lanes.map fun l => (l, val l)) pc chain none) k = some tr' ∧
      tr'.block = none ∧ tr'.deadline = none ∧ tr'.pc = pc + BitVec.ofNat 64 x.len ∧
      ∀ r l, l < 64 → regAt tr' r l =
        (written x t.wide lanes (fun l => BitVec.ofNat 64 (val l)) r l).getD (regAt tr r l))

/-- R235 to R238: `qbind` binds or unbinds a queue register, `qstat` reads it, `qdrain` empties it. -/
def Obligations.QueueRegistersAreBoundReadAndDrained : Prop :=
  (∀ x s k c s' w g n, Ready (.qbind x) x s k c s' → c.on → c.tr.wg = some w → wg? s' w = some g → x.d = .q n →
    let q := qdesc g n.toNat
    let base := (src c .a .n64 uniTid).toNat
    let size := (src c .b .n64 uniTid).toNat
    (size ≠ 0 → base % 256 = 0 → size % 256 = 0 → base + size ≤ g.qbytes * 256 →
      qbindOverlaps g n.toNat base size = false → (q.bound = false ∨ q.count = 0) →
      EndsWith (.qbind x) x true s c (putWg s' w (setQ g n.toNat
        { q with bound := true, base := base / 256, size := size / 256, count := 0, head := 0 })) {}) ∧
    (size = 0 → q.bound = false → EndsWith (.qbind x) x true s c s' {}) ∧
    (size = 0 → q.bound → q.count = 0 → blockedOn s' w n.toNat = [] →
      EndsWith (.qbind x) x true s c (putWg s' w (setQ g n.toNat { epoch := q.epoch })) {})) ∧
  (∀ x s k c s' w g n, Ready (.qstat x) x s k c s' → c.on → c.tr.wg = some w → wg? s' w = some g → x.a = .q n →
    let q := qdesc g n.toNat
    EndsWith (.qstat x) x true s c s'
      { vals := [(uniTid, if q.bound then BitVec.ofNat 64 (q.count + 2 ^ 32 * q.cap) else 0)] }) ∧
  (∀ x s k c s' w g n, Ready (.qdrain x) x s k c s' → c.on → c.tr.wg = some w → wg? s' w = some g → x.a = .q n →
    let q := qdesc g n.toNat
    EndsWith (.qdrain x) x true s c
      (putWg s' w (setQ g n.toNat { q with count := 0, head := 0, reserved := [], epoch := q.epoch + 1 }))
      { vals := [(uniTid, BitVec.ofNat 64 q.count)] })

/-- R232 to R234: a queue register is a ring of words in first-in, first-out order: a push adds a word behind the entries, and
the oldest entry is popped first. -/
def Obligations.QueuesAreFirstInFirstOut : Prop :=
  ∀ g q w, let d := qdesc g q
    0 < d.cap → d.count < d.cap → d.head < d.cap →
    let g' := push1 g q w
    (qdesc g' q).count = d.count + 1 ∧
    (d.count = 0 → (pop1 g' q).1 = w ∧ (qdesc (pop1 g' q).2 q).count = 0) ∧
    (0 < d.count → (pop1 g' q).1 = (pop1 g q).1 ∧ (qdesc (pop1 g' q).2 q).count = d.count) ∧
    (∀ i, i < d.count → spWord g' (entryOffset (qdesc g' q) i) = spWord g (entryOffset d i)) ∧
    spWord g' (entryOffset (qdesc g' q) d.count) = w

/-- R241 to R247: a ring instruction performs its operation on the block that its address names, and writes the result. That each of them,
`racq`, `rpeek` and `rpeek.take` too, performs its train's earlier accesses first is the model's reading (log 46): R247 makes only `rcom`
and `rrel` releases. -/
def Obligations.RingInstructionsPerformTheirOperation : Prop :=
  let act := fun (i : Instr) (x : Args) (op : Ctx → RingOp) =>
    ∀ s k c s' s2 pa, Ready i x s k c s' → c.on →
      access (performEarlier s' k) c.tr .load (rdOpnd c x.a .n64 uniTid) 64 = (s2, .mem pa) →
      let r := ringAt s2 { part := c.tr.part, asid := c.tr.asid, priv := c.tr.priv } pa (op c)
      EndsWith i x true s c r.1 { vals := [(uniTid, r.2)] }
  (∀ x sc, act (.racq x sc) x fun c => .acq (src c .b .n64 uniTid).toNat) ∧
  (∀ x sc, act (.rcom x sc) x fun c => .com false (src c .b .n64 uniTid).toNat (src c .c .n64 uniTid).toNat) ∧
  (∀ x sc, act (.rcomSkip x sc) x fun c => .com true (src c .b .n64 uniTid).toNat (src c .c .n64 uniTid).toNat) ∧
  (∀ x sc, act (.rpeek x sc) x fun _ => .peek false) ∧
  (∀ x sc, act (.rpeekTake x sc) x fun _ => .peek true) ∧
  (∀ x sc, act (.rrel x sc) x fun c => .rel (src c .b .n64 uniTid).toNat (src c .c .n64 uniTid).toNat)

/-- R242: a ring operation that fails changes no byte of memory. -/
def Obligations.FailedRingOperationsChangeNoMemory : Prop :=
  ∀ s u pa op, (ringAt s u pa op).2.getLsbD 63 → SameMemory s (ringAt s u pa op).1

/-- R239, R243 to R246: every ring operation keeps the order of the pointers, and the ring holds no more than its slots. -/
def Obligations.RingPointersStayOrdered : Prop :=
  ∀ s u (op : RingOp) (r : RingReg) s' r' res, op.apply u (s, r) = some ((s', r'), res) → r.block.length = 8 →
    r.hd ≤ r.rd → r.rd ≤ r.tl → r.tl ≤ r.hd + r.nslot → r.tl + 2 * r.nslot < 2 ^ 64 →
    r'.hd ≤ r'.rd ∧ r'.rd ≤ r'.tl ∧ r'.tl ≤ r'.hd + r'.nslot ∧ r.hd ≤ r'.hd ∧ r.rd ≤ r'.rd ∧ r.tl ≤ r'.tl ∧
      r'.nslot = r.nslot

/-- R249, R250: `stage.cfg` loads the stage table of a workgroup, `stage` chooses the stage that a train runs next. -/
def Obligations.StageInstructionsRunTheStageTable : Prop :=
  (∀ x s k c s' w g pa s2, Ready (.stageCfg x) x s k c s' → c.on → x.u → c.tr.wg = some w → wg? s' w = some g →
    Translates c s' .load 64 (fun _ => rdOpnd c x.a .n64 uniTid) (fun _ => pa) s2 →
    let val := trainMem s2 c.tr pa 64
    let t := (List.range 8).map fun i => BitVec.ofNat 64 (bitsAt val (64 * i) 64)
    (StageTab.invalid t → EndsWith (.stageCfg x) x true s c (clearReplies s2 k) { vals := [(uniTid, Rc.invalid)] }) ∧
    (StageTab.invalid t = false →
      let s4 := modWg (clearReplies s2 k) w fun g => { g with stageTab := some t }
      EndsWith (.stageCfg x) x true s c ((trainsOfWg s4 w).foldl (fun s j => modTrain s j fun tr => { tr with stage := 0 }) s4)
        { vals := [(uniTid, 0)] })) ∧
  (∀ x s k c s' w g, Ready (.stage x) x s k c s' → c.on → c.tr.wg = some w → wg? s' w = some g →
    (g.stageTab = none → EndsWith (.stage x) x true s c s' { vals := [(uniTid, 0)] }) ∧
    (∀ t, g.stageTab = some t →
      let n := nextStage s' w k g c.tr t
      EndsWith (.stage x) x true s c (modTrain s' k fun tr => { tr with stage := n })
        { vals := [(uniTid, BitVec.ofNat 64 n)] }))

/-- R254, R255: a branch, a call and a return give each selected thread its next PC: the target where the guard holds, the
next instruction elsewhere; `call` writes the address of the next instruction. That a call whose link is the register of its target goes to
the value which that register held before is the model's reading of R255, which writes the link first and does not say (log 44). -/
def Obligations.BranchesSetTheNextPcOfEachSelectedThread : Prop :=
  (∀ x s k c s', Ready (.bra x) x s k c s' → EndsWith (.bra x) x false s c s' { jump := some (branchPc c) }) ∧
  (∀ x s k c s', Ready (.brx x) x s k c s' → EndsWith (.brx x) x false s c s' { jump := some (branchPc c) }) ∧
  (∀ x s k c s', Ready (.ret x) x s k c s' → EndsWith (.ret x) x false s c s' { jump := some (branchPc c) }) ∧
  (∀ x s k c s', Ready (.call x) x s k c s' → EndsWith (.call x) x true s c s'
    { vals := c.lanes.map fun t => (t, c.tr.pc + BitVec.ofNat 64 x.len), jump := some (branchPc c) })

/-- R252: a selection takes the lowest PC of the eligible threads and selects the eligible threads that stand there; every
other thread keeps its own PC. -/
def Obligations.SelectionTakesTheLowestPc : Prop :=
  ∀ (tr : Train) (pcf : Nat → Dword),
    let t := selectWith tr pcf
    (∀ l, l < 64 → (t.selected.getLsbD l ↔ (eligible tr).getLsbD l ∧ pcf l = t.pc)) ∧
    (∀ l, l < 64 → (eligible tr).getLsbD l → t.pc.toNat ≤ (pcf l).toNat) ∧
    (∀ l, l < 64 → pcOf t l = pcf l) ∧
    (eligible tr ≠ 0 → t.selected ≠ 0)

/-- R256 to R259: `exit` ends its threads; `bar` and `gbar` hold the selected threads whose guard holds, and the others go past
the barrier; a stalled barrier is withdrawn with BSTALL. Two points are the model's readings of R259 and R379 (log 28): an arrival or an
exit restarts the stall counts of both barriers of the workgroup, and BSTALL is delivered in the step that raises it where its train
stands at a chain boundary. So is that the record counts the live threads that arrived, and none that has exited (log 28). Left out: an `exit` in an activation train, the stall of `gbar`, and a BSTALL of a workgroup of several
trains. -/
def Obligations.ExitsAndBarriersHoldAndRelease : Prop :=
  (∀ x s k c s', Ready (.exit x) x s k c s' → c.on → c.tr.act = none →
    let m := if x.u then live c.tr else c.mask
    exec (.exit x) s = .next (exitThreads (complete (.exit x) x false k c.tr.pc s' {}) k m fun t =>
      if c.tr.selected.getLsbD t && !m.getLsbD t then c.tr.pc + BitVec.ofNat 64 x.len else pcOf c.tr t)) ∧
  (∀ x s k c s' w g, Ready (.bar x) x s k c s' → c.on → c.tr.act = none → c.tr.wg = some w → wg? s' w = some g →
    let held := modTrain s' k fun tr => { tr with heldBar := tr.heldBar ||| c.mask }
    let gone := complete (.bar x) x false k c.tr.pc held
      { jump := some fun t => if c.mask.getLsbD t then c.tr.pc else c.tr.pc + BitVec.ofNat 64 x.len }
    exec (.bar x) s = .next (settleBarriers (touchBarriers gone w) w)) ∧
  (∀ x s k c s' w g, Ready (.gbar x) x s k c s' → c.on → c.tr.act = none → c.tr.wg = some w → wg? s' w = some g →
    g.gang ≠ 0 →
    let held := modTrain s' k fun tr => { tr with heldGbar := tr.heldGbar ||| c.mask }
    let gone := complete (.gbar x) x false k c.tr.pc held
      { jump := some fun t => if c.mask.getLsbD t then c.tr.pc else c.tr.pc + BitVec.ofNat 64 x.len }
    exec (.gbar x) s = .next (settleBarriers (touchBarriers gone w) w)) ∧
  (∀ s w g k tr, wg? s w = some g → trainsOfWg s w = [k] → train? s k = some tr → arrivedBar tr ≠ 0 →
    g.bstall ≠ 0 → g.bstall < s.clk - g.bSince →
    let s1 := deliverDue (takeTrap (putTrain s k (withdraw tr false)) k (bstallRec s tr false (countMask (arrivedBar tr)))) k
    exec (.bstall w false) s = .next (modWg s1 w fun x => { x with bSince := s1.clk }))

/-- R252, R260 to R269: hints, the reading and cancelling of futures, and traps on flags and by request. What counts as a status rather than
a handle, `holdsStatus` and `isStatusWord`, is the model's reading (log 26). -/
def Obligations.HintsFuturesAndTrapRequestsComplete : Prop :=
  (∀ x s k c s', Ready (.nop x) x s k c s' → EndsWith (.nop x) x false s c s' {}) ∧
  (∀ x s k c s', Ready (.yield x) x s k c s' → c.on →
    EndsWith (.yield x) x false s c (putTrain s' k { c.tr with yielded := true }) {}) ∧
  (∀ x s k c s', Ready (.joinPointNop x) x s k c s' →
    ((reselect c.tr).pc = c.tr.pc → EndsWith (.joinPointNop x) x false s c (putTrain s' k (reselect c.tr)) {}) ∧
    ((reselect c.tr).pc ≠ c.tr.pc → exec (.joinPointNop x) s = .next (putTrain s' k (reselect c.tr)))) ∧
  (∀ x s k c s', Ready (.fwait x) x s k c s' → c.on →
    let h := rdOpnd c x.a .n64 uniTid
    (holdsStatus c → EndsWith (.fwait x) x true s c s' { vals := [(uniTid, h)] }) ∧
    (holdsStatus c = false → futureOf s' c.tr.asid h = none →
      EndsWith (.fwait x) x true s c s' { vals := [(uniTid, statusWord Code.invalid 0 0 0)] }) ∧
    (∀ j f st, holdsStatus c = false → futureOf s' c.tr.asid h = some (j, f) → f.status = some st →
      EndsWith (.fwait x) x true s c s' { vals := [(uniTid, st)] }) ∧
    (∀ j f, holdsStatus c = false → futureOf s' c.tr.asid h = some (j, f) → f.status = none →
      exec (.fwait x) s = .next (modTrain (blockAt s' k c.head (.future (futureHandle s' j f))) k
        fun tr => { tr with atWait := some (.fwait x) }))) ∧
  (∀ x s k c s', Ready (.ftest x) x s k c s' → c.on →
    EndsWith (.ftest x) x false s c s' { vals := [(uniTid,
      if !holdsStatus c && (futureOf s' c.tr.asid (rdOpnd c x.a .n64 uniTid)).any fun f => f.2.status.isNone then 0 else 1)] }) ∧
  (∀ x s k c s', Ready (.ftestH x) x s k c s' → c.on →
    let h := rdOpnd c x.a .n64 uniTid
    EndsWith (.ftestH x) x true s c s' { vals := [(uniTid,
      if holdsStatus c || (futureOf s' c.tr.asid h).isSome || isStatusWord s' h then h else statusWord Code.invalid 0 0 0)] }) ∧
  (∀ x s k c s', Ready (.fcancel x) x s k c s' → c.on →
    let h := rdOpnd c x.a .n64 uniTid
    (holdsStatus c → EndsWith (.fcancel x) x true s c s' { vals := [(uniTid, 1)] }) ∧
    (holdsStatus c = false → futureOf s' c.tr.asid h = none → EndsWith (.fcancel x) x true s c s' { vals := [(uniTid, 2)] }) ∧
    (∀ j f st, holdsStatus c = false → futureOf s' c.tr.asid h = some (j, f) → f.status = some st →
      EndsWith (.fcancel x) x true s c s' { vals := [(uniTid, 1)] }) ∧
    (∀ j f, holdsStatus c = false → futureOf s' c.tr.asid h = some (j, f) → f.status = none →
      EndsWith (.fcancel x) x true s c (cancelOp s' f.op).1 { vals := [(uniTid, (cancelOp s' f.op).2)] })) ∧
  (∀ x s k c s', Ready (.trapf x) x s k c s' → c.on →
    let m := trapMask c
    (c.tr.flags &&& m = 0 →
      EndsWith (.trapf x) x true s c s' { vals := [(uniTid, BitVec.ofNat 64 c.tr.flags.toNat)] }) ∧
    (c.tr.flags &&& m ≠ 0 → EndsWith (.trapf x) x true s c (putTrain s' k { c.tr with flags := c.tr.flags &&& ~~~m })
      { vals := [(uniTid, BitVec.ofNat 64 c.tr.flags.toNat)]
        trap := some { kind := Trap.flag, flagw := c.tr.flags, pc := c.tr.pc } })) ∧
  (∀ x s k c s', Ready (.trapfClr x) x s k c s' → c.on →
    EndsWith (.trapfClr x) x true s c (putTrain s' k { c.tr with flags := c.tr.flags &&& ~~~trapMask c })
      { vals := [(uniTid, BitVec.ofNat 64 c.tr.flags.toNat)] }) ∧
  (∀ x s k c s', Ready (.trap x) x s k c s' → c.on → EndsWith (.trap x) x false s c s'
    { trap := some { kind := Trap.software, detail := BitVec.ofNat 32 (trapCode c), mask := c.mask, pc := c.tr.pc } })

/-- R130 to R149: a matrix instruction binds banks, or places its entry in the matrix queue of its workgroup; the forms that write memory or
registers, or read rows of memory, and an `aalloc` that finds an earlier entry in the queue or whose banks are not free, wait for their entry (the reading of log 20). That the loads
which a register drain has return do so in its own step is the model's choice (log 11). -/
def Obligations.MatrixInstructionsAreQueued : Prop :=
  (∀ x s k c s' w g, Ready (.aalloc x) x s k c s' → MatrixReady c s' w g [] →
    let first := accNum x.d
    let n := countOperand c
    0 < n → first + n ≤ 64 → (∀ j, j < n → Tab.get? g.accs (first + j) = none) →
    g.accs.foldl (fun m e => m + (AccBind.list e.2).length) 0 + banksNeeded g n
      + (wgsOnCore s' g.core).foldl (fun m e => if e.1 = w then m else m + e.2.banks) 0 ≤ 64 →
    (g.mq = [] → banksNeeded g n ≤ g.resv ∨ banksFree s' w (banksNeeded g n) s'.nextId → EndsWith (.aalloc x) x false s c (takeBanks s' w first n) {}) ∧
    (g.mq ≠ [] ∨ (g.resv < banksNeeded g n ∧ banksFree s' w (banksNeeded g n) s'.nextId = false) →
      let q := enqueue s' w (entryOf c (.aalloc x))
      let s2 := modWg q.2 w fun g =>
        { g with accs := (pendingNames g q.1 first n).foldl (fun t e => Tab.put t e.1 e.2) g.accs }
      exec (.aalloc x) s = .next (modTrain (blockAt s2 k c.head (.aalloc (banksNeeded g n) q.1 q.2.clk)) k
        fun tr => { tr with atWait := some (.aalloc x) }))) ∧
  (∀ x s k c s' w g, Ready (.afree x) x s k c s' → MatrixReady c s' w g [] →
    let first := accNum x.d
    let n := countOperand c
    NamesBound g first n → EndsWith (.afree x) x false s c
      (enqueue (modWg s' w fun g => { g with accs := g.accs.filter fun a => !(first ≤ a.1 && a.1 < first + n) }) w
        { entryOf c (.afree x) with banks := bindsOf g first n }).2 {}) ∧
  (∀ x s k c s' w g, Ready (.azero x) x s k c s' → MatrixReady c s' w g [] →
    NamesBound g (accNum x.d) (countOperand c) → EndsWith (.azero x) x false s c
      (enqueue s' w { entryOf c (.azero x) with banks := bindsOf g (accNum x.d) (countOperand c) }).2 {}) ∧
  (∀ x t s k c s' w g, Ready (.wld x t) x s k c s' → MatrixReady c s' w g [x.a, x.b] →
    (t = .f32 → s'.super.limp = false) → 64 * rowBytes g ≤ tileSize g x.a → (∀ n, x.b = .t n → 64 ≤ tileSize g x.b) →
    EndsWith (.wld x t) x false s c
      (enqueue s' w { entryOf c (.wld x t) with val := rdOpnd c x.b .n64 uniTid, tiles := tilesOf [x.a, x.b] }).2 {}) ∧
  (∀ x s k c s' w g, Ready (.wldZero x) x s k c s' → MatrixReady c s' w g [] →
    EndsWith (.wldZero x) x false s c (enqueue s' w (entryOf c (.wldZero x))).2 {}) ∧
  (∀ x t s k c s' w g m, Ready (.mmaTile x t) x s k c s' → MatrixReady c s' w g [x.a, x.c] → LatchFits s' g t →
    (mmaRows x.b (rdOpnd c x.b .n64 uniTid) (tileSize g x.a) (rowBytes g)).1 = m → 0 < m → m ≤ 1024 →
    ((mmaRows x.b (rdOpnd c x.b .n64 uniTid) (tileSize g x.a) (rowBytes g)).2 → tileSize g x.a % rowBytes g = 0) →
    m * rowBytes g ≤ tileSize g x.a → (∀ n, x.c = .t n → m ≤ tileSize g x.c) →
    NamesBound g (accNum x.d) (ceilDiv m 16) → EndsWith (.mmaTile x t) x false s c
      (enqueue s' w { entryOf c (.mmaTile x t) with
        banks := bindsOf g (accNum x.d) (ceilDiv m 16), val := rdOpnd c x.b .n64 uniTid, rows := m
        tiles := tilesOf [x.a, x.c] }).2 {}) ∧
  (∀ x t s k c s' w g, Ready (.mmaMemory x t) x s k c s' → MatrixReady c s' w g [x.c] → LatchFits s' g t →
    let m := bitsAt (extWord x) 32 11
    0 < m → m ≤ 1024 → NamesBound g (accNum x.d) (ceilDiv m 16) → (rdOpnd c x.a .n64 uniTid).toNat % 64 = 0 →
    bitsAt (extWord x) 0 32 % 64 = 0 → (∀ n, x.c = .t n → m ≤ tileSize g x.c) →
    let q := enqueue s' w { entryOf c (.mmaMemory x t) with
      banks := bindsOf g (accNum x.d) (ceilDiv m 16), val := rdOpnd c x.b .n64 uniTid, addr := rdOpnd c x.a .n64 uniTid
      rows := m, done := startRow c.tr, tiles := tilesOf [x.c] }
    exec (.mmaMemory x t) s = .next (blockAt q.2 k c.head (.matrixOp q.1))) ∧
  (∀ x ta tw s k c s' w g, Ready (.mmt x ta tw) x s k c s' → MatrixReady c s' w g [x.a, x.b] →
    (ta = .f32 ∨ tw = .f32 → s'.super.limp = false) → ta.width = tw.width →
    let m := (mmtShape x).1
    let ks := (mmtShape x).2.1
    let nb := (mmtShape x).2.2
    0 < m → m ≤ 1024 → 0 < ks → 0 < nb → nb ≤ 64 → NamesBound g (accNum x.d) (nb * ceilDiv m 16) →
    ks * m * rowBytes g ≤ tileSize g x.a → nb * ks * 64 * rowBytes g ≤ tileSize g x.b →
    EndsWith (.mmt x ta tw) x false s c
      (enqueue (modWg s' w fun g => { g with tprog := { g.tprog with active := true } }) w
        { entryOf c (.mmt x ta tw) with
          banks := bindsOf g (accNum x.d) (nb * ceilDiv m 16), val := rdOpnd c x.c .n64 uniTid, rows := m
          tiles := tilesOf [x.a, x.b] }).2 {}) ∧
  (∀ x t z s k c s' w g, Ready (.adrainReg x t z) x s k c s' → MatrixReady c s' w g [] → drainBeyond c = false →
    NamesBound g (accNum x.a) 1 →
    let q := enqueue (returnLoads s' k (drainTouches x)) w (drainEntry c (.adrainReg x t z) g 0 0)
    exec (.adrainReg x t z) s = .next (blockAt q.2 k c.head (.matrixOp q.1))) ∧
  (∀ x t z s k c s' w g, Ready (.adrainSp x t z) x s k c s' → MatrixReady c s' w g [] → NamesBound g (accNum x.a) 1 →
    let addr := (rdOpnd c x.b .b32 uniTid).toNat
    addr % 64 = 0 → (∀ p, p < 16 * tyBytes t → spFate g true (addr + 64 * p) 64 = .ok) →
    let q := enqueue s' w (drainEntry c (.adrainSp x t z) g (BitVec.ofNat 64 addr) 0)
    exec (.adrainSp x t z) s = .next (blockAt q.2 k c.head (.matrixOp q.1))) ∧
  (∀ x t z s k c s' w g, Ready (.adrainGm x t z) x s k c s' → MatrixReady c s' w g [] → NamesBound g (accNum x.a) 1 →
    (rdOpnd c x.b .n64 uniTid).toNat % 64 = 0 → bitsAt (extWord x) 0 32 % 64 = 0 →
    let q := enqueue s' w (drainEntry c (.adrainGm x t z) g (rdOpnd c x.b .n64 uniTid) (startRow c.tr))
    exec (.adrainGm x t z) s = .next (blockAt q.2 k c.head (.matrixOp q.1))) ∧
  (∀ x s k c s' w g, Ready (.mred x) x s k c s' → MatrixReady c s' w g [] → g.accs = [] → g.mq = [] →
    let m := (rdOpnd c x.a .n64 uniTid).toNat
    m ≤ 1 → EndsWith (.mred x) x false s c (modWg s' w fun g => { g with red := m = 1, wlatch := none }) {}) ∧
  (∀ x s k c s' g, Ready (.mprog x) x s k c s' → c.on → wgOf s' c.tr = some g →
    EndsWith (.mprog x) x true s c s' { vals := [(uniTid, tprogWord g.tprog)] })

/-- R133, R140: one row pass adds the products of the row with each weight column to the elements of its accumulator row, by
one array pass each, and leaves every other element of accumulator memory. -/
def Obligations.ARowPassAccumulatesIntoItsRow : Prop :=
  ∀ (s : State) core bank i row sc (cols : List (List Machine.Num × Int)), i < 16 → cols.length = 64 →
    let r := passRows s core [(⟨bank, none⟩, i, row, sc)] cols
    (∀ b' i' j, i' < 16 → j < 64 →
      Tab.read 0 (coreAt r.1 core).acc (accKey b' i' j) =
        if b' = bank ∧ i' = i then
          (f48Pass (Tab.read 0 (coreAt s core).acc (accKey bank i j))
            (products row (cols.getD j ([], 0)).1 (sc + (cols.getD j ([], 0)).2))).1
        else Tab.read 0 (coreAt s core).acc (accKey b' i' j)) ∧
    SameButCores s r.1

/-- R131, R133, R138 to R149: the array performs the entry at the head of the queue of the workgroup whose turn it is: `wld`
loads the latch, `azero` clears its banks, `afree` returns them, `mma` passes its rows into its banks, its memory form one row that is
reached in a step, `mmt` one of its steps; `adrain` writes the converted rows, or raises MISMATCH and writes nothing; a train that waits for
its entry completes with it. A follow-on is placed, a request for banks is served, and a train that found the queue full goes on. Which of the free banks a request takes is the model's choice (log 20), as is
the end of an entry whose banks were never obtained (log 34), which the clauses set aside, and what TPROG holds after the last step of an
`mmt` (log 20). -/
def Obligations.TheArrayPerformsTheEntryAtTheHead : Prop :=
  (∀ s core w g e rest, nextForArray s core = some w → wg? s w = some g → g.mq = e :: rest →
    exec (.arrayStep core) s = .next (stepEntry (modCore s core fun co => { co with array := w }) w g e)) ∧
  (∀ s w (g : Wg) (e : MqEntry), e.follow = none → orphaned e = false → wg? s w = some g →
    (∀ k tr, trainByUid s e.uid = some (k, tr) → tr.block ≠ some (.matrixOp e.id) ∧ tr.block ≠ some .draining) →
    (∀ x t, e.instr = .wld x t → stepEntry s w g e
      = dropEntry (putWg s w { g with wlatch := some ⟨t, tileNum x.a, wldScales g x.b e.val⟩ }) w e) ∧
    (∀ x, e.instr = .wldZero x → stepEntry s w g e = dropEntry (putWg s w { g with wlatch := none }) w e) ∧
    (∀ x, e.instr = .azero x → stepEntry s w g e = dropEntry (clearBanks s g.core (e.banks.flatMap AccBind.list)) w e) ∧
    (∀ x, e.instr = .afree x → stepEntry s w g e
      = dropEntry (putWg s w (returnBanks g (e.banks.flatMap AccBind.list))) w e) ∧
    (∀ x t, e.instr = .mmaTile x t →
      let rows := (List.range e.rows).map fun i =>
        (bankOfRow e i, i % 16, rowValues t (spBytes g ((tileOf g (tileNum x.a)).base + i * rowBytes g) (rowBytes g)),
          scaleExp e.val.toNat + rowScale g x.c i)
      let p := passRows s g.core rows (latchedCols g)
      stepEntry s w g e
        = dropEntry (modWg (flagTrain p.1 e p.2) w fun g => noteSource g e.banks false (BitVec.ofNat 64 (tileNum x.a))) w e) ∧
    (∀ x ta tw m ks nb, e.instr = .mmt x ta tw → mmtShape x = (m, ks, nb) →
      let rbk := ceilDiv m 16
      let r := e.done % rbk
      let k := e.done / rbk % ks
      let n := e.done / (rbk * ks)
      let rb := rowBytes g
      let sw : Int := match x.c with | .imm _ => 0 | _ => signExt (bitsAt e.val.toNat 8 8) 8
      let rows := (List.range 16).filterMap fun i =>
        if 16 * r + i < m then
          some (e.banks.getD (n * rbk + r) noBind, i,
            rowValues ta (spBytes g ((tileOf g (tileNum x.a)).base + (k * m + 16 * r + i) * rb) rb), scaleExp e.val.toNat)
        else none
      let p := passRows s g.core rows (weightCols g tw (tileNum x.b) ((n * ks + k) * 64 * rb) fun _ => sw)
      let d := e.done + 1
      let last : Bool := d ≥ e.banks.length * ks
      let more := (g.mq.filter fun o => o.id ≠ e.id).any fun o => isMmt o.instr
      let s' := modWg (flagTrain p.1 e p.2) w fun g =>
        { noteSource g [e.banks.getD (n * rbk + r) noBind] false (BitVec.ofNat 64 (tileNum x.a)) with
          mq := g.mq.map fun o => if o.id = e.id then { e with done := d } else o
          tprog := { step := d, r := d % rbk, k := d / rbk % ks, n := d / (rbk * ks), active := !last || more } }
      stepEntry s w g e = if last then dropEntry s' w e else s')) ∧
  (∀ s w (g : Wg) (e : MqEntry) k tr, trainByUid s e.uid = some (k, tr) → orphaned e = false → wg? s w = some g →
    (∀ x t s1 l, e.instr = .mmaMemory x t →
      rowPlaces s k e.row .load (e.addr + BitVec.ofNat 64 (e.done * bitsAt (extWord x) 0 32)) (rowBytes g) (fun _ => .read 64) (nearRow k)
        = (s1, .ok l) →
      let s2 := settleRow s1 k l
      let p := passRows s2 g.core [(bankOfRow e e.done, e.done % 16, rowValues t (rowData s2 k l),
        scaleExp e.val.toNat + rowScale g x.c e.done)] (latchedCols g)
      let e' := { e with done := e.done + 1, row := [] }
      let s3 := modTrain (modWg (flagTrain p.1 e p.2) w fun g =>
        { noteSource g [bankOfRow e e.done] true e.addr with mq := g.mq.map fun m => if m.id = e.id then e' else m }) k
        fun tr => { tr with replies := [] }
      stepEntry s w g e = if e.rows ≤ e.done + 1 then finishEntry s3 w e' {} else s3) ∧
    (∀ x t z, e.instr = .adrainReg x t z ∨ e.instr = .adrainSp x t z ∨ e.instr = .adrainGm x t z →
      let b := e.banks.getD 0 noBind
      let row := drainRow s g.core b t
      let fl := joinFlags ((List.range 16).map fun i => (row i).2)
      let zero := fun (s : State) => if z then clearBanks s g.core (AccBind.list b) else s
      (∀ d, mismatch s g.core b = some d →
        stepEntry s w g e = raiseAt (unblock (dropEntry s w e) k) k e.pc (mismatchRec g e (accNum x.a) b d)) ∧
      (mismatch s g.core b = none →
        (∀ d, e.instr = .adrainReg x t z → x.d = .v d →
          let first := (row 0).1
          stepEntry s w g e = finishEntry (zero (modTrain (flagTrain s e fl) k fun tr =>
            (List.range 16).foldl (fun tr i => drainToReg tr (d.toNat + i) (row i).1) tr)) w e
            { latch := some (tids.foldl (fun m t => Tab.write 0 m t (lowWord (first.getD t 0))) []) }) ∧
        (e.instr = .adrainSp x t z → (∀ p ∈ drainPieces t e.addr.toNat, spFate g true p.2 64 = .ok) →
          let bs := (List.range 16).flatMap fun i => drainBytes t (row i).1
          stepEntry s w g e = finishEntry (zero (modWg (flagTrain s e fl) w fun g =>
            (drainPieces t e.addr.toNat).foldl (fun g p => spPut g p.2 ((bs.drop (64 * p.1)).take 64)) g)) w e {}) ∧
        (e.instr = .adrainGm x t z → stepEntry s w g e = drainRows w k g b x t z (16 - e.done) e s)))) ∧
  (∀ s w k (g : Wg) b x t z (e : MqEntry),
    drainRows w k g b x t z 0 e s = finishEntry (if z then clearBanks s g.core (AccBind.list b) else s) w e {} ∧
    (∀ n s1 l, let row := drainRow s g.core b t e.done
      let bs := drainBytes t row.1
      let places := rowPlaces s k e.row .store (e.addr + BitVec.ofNat 64 (e.done * bitsAt (extWord x) 0 32)) bs.length
        (fun p => .write ((bs.drop (64 * p)).take 64)) fun s l => (storePieces s k bs l, l.map fun p => (p.1, .data []))
      (places = (s1, .ok l) → drainRows w k g b x t z (n + 1) e s = drainRows w k g b x t z n { e with done := e.done + 1, row := [] }
        (modTrain (flagTrain (storeRow s1 k bs l) e row.2) k fun tr => { tr with replies := [] })) ∧
      (places = (s1, .asked l) → drainRows w k g b x t z (n + 1) e s = putEntryIn s1 w { e with row := l }))) ∧
  (∀ s w (e : MqEntry) k tr x d, trainByUid s e.uid = some (k, tr) → tr.block = some (.matrixOp e.id) → e.follow = none →
    matrixArgs e.instr = some x → d.trap = none →
    finishEntry s w e d = complete e.instr x false k e.pc (modTrain (unblock (dropEntry s w e) k) k fun tr =>
      { tr with rowprog := rowsAfter tr e, replies := [] }) d) ∧
  (∀ s k tr w g e rest need id since x, train? s k = some tr → tr.block = some (.aalloc need id since) → tr.wg = some w →
    tr.atWait = some (.aalloc x) → wg? s w = some g → g.mq = e :: rest → e.id = id → banksFree s w need id →
    exec (.aallocBanksFree k) s = .next (complete (.aalloc x) x false k tr.pc (unblock (serveBanks s w id need) k) {})) ∧
  (∀ s k tr w g, train? s k = some tr → tr.block = some .matrixQueue → tr.wg = some w → wg? s w = some g → g.mq.length < 8 →
    ∃ t, exec (.matrixQueueRoom k) s = .next t ∧ Unblocked k s t) ∧
  (∀ s op o w g x t m, Tab.get? s.ops op = some o → o.state = .placed → o.wg.bind (wgByUid s) = some w → wg? s w = some g →
    followInstr o = .mmaTile x t → (∀ e ∈ g.mq, e.follow ≠ some op) → g.mq.length < 8 →
    (∀ n ∈ tilesOf [x.a, x.c], (tileOf g n).state = 2) →
    let val : Dword := immValue .n64 (match x.b with | .imm i => i | _ => 0)
    mmaRows x.b val (tileSize g x.a) (rowBytes g) = m →
    LatchFits s g t → 0 < m.1 → m.1 ≤ 1024 → (m.2 → tileSize g x.a % rowBytes g = 0) → m.1 * rowBytes g ≤ tileSize g x.a →
    (∀ n, x.c = .t n → m.1 ≤ tileSize g x.c) → NamesBound g (accNum x.d) (ceilDiv m.1 16) →
    exec (.followOnMma op) s = .next (enqueue s w
      { id := 0, instr := .mmaTile x t, pc := o.pc, uid := o.uid, trn := 0, banks := bindsOf g (accNum x.d) (ceilDiv m.1 16)
        val := val, rows := m.1, tiles := tilesOf [x.a, x.c], follow := some op }).2)

/-- R290 to R299: the window class. The order in which `wemit` checks its block and its slots is the model's reading (log 46), and that a line
takes the lowest free slot its choice (log 29). -/
def Obligations.WindowInstructionsActOnLinesAndActivations : Prop :=
  (∀ x s k c s' pa s2, Ready (.lopen x) x s k c s' → c.on → x.u →
    Translates c (performEarlier s' k) .load 64 (fun _ => rdOpnd c x.a .n64 uniTid) (fun _ => pa) s2 →
    let cluster := if x.b = .zero then c.tr.core / 4 else (rdOpnd c x.b .n64 uniTid).toNat
    let r := openLine (clearReplies s2 k) cluster
      { desc := (List.range 8).map fun i => BitVec.ofNat 64 (bitsAt (trainMem s2 c.tr pa 64) (64 * i) 64)
        descVA := rdOpnd c x.a .n64 uniTid, asid := c.tr.asid, part := c.tr.part, priv := c.tr.priv
        prio := c.tr.task.elim c.tr.prio fun va => recordPrio (clearReplies s2 k) c.tr.part c.tr.asid va
        launch := launchOf (clearReplies s2 k) c.tr, depth := c.tr.depth }
    EndsWith (.lopen x) x true s c r.1 { vals := [(uniTid, r.2)] }) ∧
  (∀ x s k c s' l ln, Ready (.lclose x) x s k c s' → c.on →
    lineOf s' c.tr (rdOpnd c x.a .n64 uniTid) = some (l, ln) → actOfLine c.tr l = false →
    exec (.lclose x) s = .next (modTrain (blockAt (closeLine s' l) k c.head (.lclose l ln.gen)) k
      fun tr => { tr with atWait := some (.lclose x) })) ∧
  (∀ x s k c s' l ln s2 places, Ready (.feed x) x s k c s' → c.on →
    lineOf s' c.tr (rdOpnd c x.a .n64 uniTid) = some (l, ln) → actOfLine c.tr l = false →
    translateAll s' c.tr .load 4 (feedPieces c ln.rsize) = (s2, .ok places) →
    let reached := places.map fun e => (e.1, e.2.1, reachXl s2 e.2.2)
    (∀ e ∈ reached, ∃ pa, e.2.2 = .mem pa) →
    (ln.records + c.lanes.length ≤ intakeSize →
      let s3 := performEarlier s2 k
      EndsWith (.feed x) x false s c (modLine s3 l fun ln =>
        { ln with intake := ln.intake ++ c.lanes.map fun t => Intake.record (feedBytes s3 c.tr reached t) }) {}) ∧
    (intakeSize < ln.records + c.lanes.length → exec (.feed x) s = .next (blockAt s2 k c.head (.feed l c.lanes.length)))) ∧
  (∀ x s k c s' l ln, Ready (.wmark x) x s k c s' → c.on → lineOf s' c.tr (rdOpnd c x.a .n64 uniTid) = some (l, ln) →
    EndsWith (.wmark x) x false s c
      (modLine (performEarlier s' k) l fun ln => { ln with intake := ln.intake ++ [.mark (src c .b .n64 uniTid)] }) {}) ∧
  (∀ x s k c s', Ready (.lstat x) x s k c s' → c.on →
    (lineOf s' c.tr (rdOpnd c x.a .n64 uniTid) = none →
      EndsWith (.lstat x) x true s c s' { vals := [(uniTid, Rc.invalid)] }) ∧
    (∀ l ln, lineOf s' c.tr (rdOpnd c x.a .n64 uniTid) = some (l, ln) → EndsWith (.lstat x) x true s c s'
      { vals := [(uniTid, BitVec.ofNat 64 (lstatItem ln (rdOpnd c x.b .n64 uniTid).toNat))] })) ∧
  (∀ x s k c s' a ln, Ready (.wrec x) x s k c s' → RunsLine c s' a ln →
    let off := fun t => (rdOpnd c x.a .b32 t).toNat
    (∀ t ∈ c.lanes, (∃ w, wakeOf a t = some w ∧ isRecordWake w) ∧ off t % 4 = 0 ∧ off t < ln.rsize) →
    EndsWith (.wrec x) x false s c s' { vals := c.lanes.map fun t =>
      (t, BitVec.ofNat 64 (ofBytes (((wakeOf a t).elim [] (·.bytes)).drop (off t) |>.take 4))) }) ∧
  (∀ x s k c s' a ln, Ready (.wpane x) x s k c s' → RunsLine c s' a ln →
    let idx := fun t => (rdOpnd c x.a .b32 t).toNat
    (∀ t ∈ c.lanes, (∃ w, wakeOf a t = some w ∧ isPaneWake w) ∧ idx t < ln.swords) →
    EndsWith (.wpane x) x false s c s' { vals := c.lanes.map fun t =>
      (t, (((wakeOf a t).elim [] (·.words)).getD (idx t) 0).zeroExtend 64) }) ∧
  (∀ x s k c s', Ready (.wkey x) x s k c s' → keyIsWide s → oddRegister x.d →
    exec (.wkey x) s = .next (raiseAt s' k c.head { trapOf Trap.operand 9 with pc := c.tr.pc })) ∧
  (∀ x s k c s' a ln, Ready (.wkey x) x s k c s' → RunsLine c s' a ln → (keyIsWide s → oddRegister x.d = false) →
    EndsWith (.wkey x) x (keyIsWide s) s c s' { vals := c.lanes.map fun t =>
      (t, BitVec.ofNat 64 (((Tab.get? a.wakes t).bind fun e => ln.win? e.1).elim 0 (·.key))) }) ∧
  (∀ x s k c s' a ln first count s2 pa r ticket s3 s4 places, Ready (.wemit x) x s k c s' → RunsLine c s' a ln →
    x.a = .v first → x.b = .imm count → ln.outring ≠ 0 →
    access (performEarlier s' k) c.tr .load ln.outring 64 = (s2, .mem pa) →
    ringReg? s2 pa = some r → 4 * count.toNat ≤ r.ssize →
    let u : RingUser := { part := c.tr.part, asid := c.tr.asid, priv := c.tr.priv }
    ringAt s2 u pa (.acq c.lanes.length) = (s3, ticket) → ticket.getLsbD 63 = false →
    translateAll s3 c.tr .store 8 (slotPieces r ticket.toNat c.lanes.length) = (s4, .ok places) →
    (∀ e ∈ places, ∃ pa, e.2.2 = .mem pa) →
    EndsWith (.wemit x) x false s c
      (ringAt (performEarlier (writeSlots c first.toNat count.toNat r.ssize places s4) k) u pa
        (.com false ticket.toNat c.lanes.length)).1 {}) ∧
  (∀ (i : Args → Instr) (how : List Word → Line.EndHow), (i = .wyield ∧ how = .yield) ∨ (i = .wend ∧ how = .finish) →
    ∀ x s k c s' a ln, Ready (i x) x s k c s' → RunsLine c s' a ln →
    let s1 := performEarlier s' k
    let s2 := complete (i x) x false k c.tr.pc s1 {}
    let s3 := modLine s2 a.line fun ln => ln.endActivations s2.clk (c.lanes.filterMap fun t =>
      (Tab.get? a.wakes t).map fun e => (e.1, how (stateWords ((train? s1 k).getD c.tr) ln.swords t)))
    let s4 := c.lanes.foldl (fun s t => (Tab.get? a.wakes t).elim s fun e => syncSlot s a.line e.1) s3
    let s5 := modTrain s4 k fun tr =>
      { tr with act := some { a with wakes := a.wakes.filter fun e => !c.lanes.contains e.1 } }
    exec (i x) s = .next (exitThreads s5 k c.mask fun t =>
      if c.tr.selected.getLsbD t && !c.mask.getLsbD t then c.tr.pc + BitVec.ofNat 64 x.len else pcOf c.tr t))

/-- R272 to R289: the Roundhouse resolves the intake of a line record by record, while it has room for the wake-ups, delivers them, flushes,
frees the line, and its activations run in trains of their own. What a
full Roundhouse stops is the model's reading (log 25), and the core and slot that an activation train takes are its choice (log 29), as is
the ascending order of keys in `ordered`, by which the points of an advance resolve, panes deliver and windows are flushed (log 66), and that
the incomplete panes of a flush hold back a batch (log 66). -/
def Obligations.TheRoundhouseResolvesTheIntake : Prop :=
  (∀ s l ln d rest id, Tab.get? s.lines l = some ln → ln.poolWait = false → roundhouseRoom s (l / 256) → ln.deliver = d :: rest →
    ln.find d.key d.index d.pane = some id →
    let n := if d.part.isSome then ln.panelen else 1
    let ln1 := { ln with deliver := rest }.deliverTo s.clk id n (d.part.getD { kind := .record, bytes := d.bytes })
    let t := { s with lines := Tab.put s.lines l ln1 }
    (ln1.isTime = false ∨ d.pane) → roundhouseLoad t (l / 256) ≤ roundhouseSize → exec (.resolveRecord l) s = .next t) ∧
  (∀ s l ln d rest, Tab.get? s.lines l = some ln → ln.poolWait = false → roundhouseRoom s (l / 256) → ln.deliver = d :: rest →
    ln.find d.key d.index d.pane = none → poolSlot s ln.part = none →
    let t := { s with lines := Tab.put s.lines l { ln with poolWait := true } }
    roundhouseLoad t (l / 256) ≤ roundhouseSize → exec (.resolveRecord l) s = .next t) ∧
  (∀ s l ln rec rest, Tab.get? s.lines l = some ln → ln.poolWait = false → roundhouseRoom s (l / 256) → ln.deliver = [] →
    ln.intake = .record rec :: rest → roundhouseLoad (takeRecord s l ln rec rest) (l / 256) ≤ roundhouseSize →
    exec (.resolveRecord l) s = .next (takeRecord s l ln rec rest)) ∧
  (∀ s l ln, Tab.get? s.lines l = some ln → ln.poolWait → (poolSlot s ln.part).isSome →
    exec (.windowPoolSlotFree l) s = .next (modLine s l fun ln => { ln with poolWait := false })) ∧
  (∀ s l ln v rest, Tab.get? s.lines l = some ln → ln.poolWait = false → roundhouseRoom s (l / 256) → ln.deliver = [] →
    ln.intake = .mark v :: rest →
    let r := if v.toNat ≥ ln.w then { ln with w := v.toNat }.resolvePoints s.clk (lineCap s l ln) else (ln, true)
    exec (.watermarkResolve l) s
      = .next { s with lines := Tab.put s.lines l { r.1 with intake := if r.2 then rest else ln.intake } }) ∧
  (∀ s l ln, Tab.get? s.lines l = some ln → ln.duePanes ≠ [] →
    exec (.paneComplete l) s = .next { s with lines := Tab.put s.lines l { ln with
      wins := ln.duePanes.foldl Tab.del ln.wins
      deliver := ln.deliver ++ ln.duePanes.flatMap fun id => (ln.win? id).elim [] fun w =>
        (ln.windowsOfPane w.index).map fun j =>
          { key := w.key, index := j, pane := false
            part := some { kind := .pane, partly := !ln.paneFull w, words := w.words } } } }) ∧
  (∀ s l ln rest, Tab.get? s.lines l = some ln → ln.flush = 0 → ln.deliver = [] → ln.intake = .close :: rest →
    (∀ e ∈ ln.wins, e.2.pane = false) →
    let ln1 := { ln with intake := rest, flush := 1 }
    let ln2 := ln1.ordered.foldl (fun ln3 id =>
      if (ln3.flushWin s.clk id).waitingCount ≤ lineCap s l ln1 then ln3.flushWin s.clk id else ln3) ln1
    let ln4 := { ln2 with flush := if ln2.wins.all fun e => flushed e.2 then 2 else 1 }
    exec (.lineFlush l) s = .next { s with lines := Tab.put s.lines l ln4 }) ∧
  (∀ s l ln, Tab.get? s.lines l = some ln → ln.flush = 2 → ln.wins = [] → ln.batch = [] →
    exec (.lineFree l) s = .next (finishWaits { s with lines := Tab.del s.lines l
                                                       lineGen := Tab.write 0 s.lineGen l (Tab.read 0 s.lineGen l + 1) }
      (.lclose l ln.gen) 0)) ∧
  (∀ s l ln, Tab.get? s.lines l = some ln → ln.batch ≠ [] →
    (64 ≤ ln.batch.length ∨ (ln.unresolved = false ∧ ln.duePanes = []) ∨ ln.batchAt + 32 ≤ s.clk) →
    exec (.activationBatchIssue l) s = .next { s with
      pendActs := s.pendActs ++ [{ line := l, wakes := ln.batch.take 64 }]
      lines := Tab.put s.lines l { ln with batch := ln.batch.drop 64, batchAt := s.clk } }) ∧
  (∀ s cluster core slot a rest ln, activationCore s cluster = some (core, slot) → s.pendActs = a :: rest →
    a.line / 256 = cluster → Tab.get? s.lines a.line = some ln →
    ∃ t tr, exec (.activationTrainAdmit cluster) s = .next t ∧ t.pendActs = rest ∧ train? t (trainKey core slot) = some tr ∧
      tr.pc = BitVec.ofNat 64 ln.handler ∧ tr.selected = ~~~(threadsFrom a.wakes.length) ∧ tr.asid = ln.asid ∧
      tr.part = ln.part ∧ tr.act = some { line := a.line, gen := ln.gen, wakes := (List.range a.wakes.length).zip a.wakes } ∧
      rdS tr 0 = ln.handleOf a.line ∧ rdS tr 1 = ln.descVA)

/-- R335 to R348: joins are opened, arrived at, waited for and read; a casualty is counted, a marked train is killed, and the
messages between a proxy and its home are answered: an arrival at a proxy goes on its way, and its result comes when the home answers.
A released join frees its slot once every contributor has arrived or ended; waiters that may not wake yet keep its word (R344, R345, R347).
Readings and choices of the model, not of R337, R340 and R345: an arrival at a proxy completes at once with 0 in D, and its result
reaches D later (log 5), the arrivals of a train at proxies are answered in their order (log 22), `jopen` performs its train's earlier
accesses, though R337 makes it no release (log 22), and the table by which a home answers, that of the partition whose train arrives
(log 63). Left out: `jopen` of a record whose
CLIST is not 0, and `jwait` of a stale handle. -/
def Obligations.JoinInstructionsAndEventsAct : Prop :=
  (∀ x s k c s' s2 pa, Ready (.jopen x) x s k c s' → c.on →
    let va := rdOpnd c x.a .n64 uniTid
    access (performEarlier s' k) c.tr .load va 64 = (s2, .mem pa) →
    let d := (List.range 8).map fun i => BitVec.ofNat 64 (trainMem s2 c.tr (pa + 8 * i) 8)
    let jn := joinOfRecord c va d
    (badRecord jn d → EndsWith (.jopen x) x true s c s2 { vals := [(uniTid, Rc.invalid)] }) ∧
    (badRecord jn d = false → jn.clist = 0 →
      let r := registerJoin s2 jn
      EndsWith (.jopen x) x true s c r.1 { vals := [(uniTid, r.2)] })) ∧
  (∀ x s k c s' t d, Ready (.jarr x) x s k c s' → c.on →
    arriveAt (performEarlier s' k) c.tr.part c.tr.uid c.tr.kpc.isSome (rdOpnd c x.a .b32 uniTid).toNat
      (lowWord (src c .b .f32 uniTid)) = .result t d →
    EndsWith (.jarr x) x true s c t
      { vals := [(uniTid, d)], flags := flagIf (decodeFmt .f32 (lowWord (src c .b .f32 uniTid)).toNat).isSnan Fl.inv }) ∧
  (∀ x s k c s' t j n, Ready (.jarr x) x s k c s' → c.on → x.d = .s n → x.nwb = false →
    arriveAt (performEarlier s' k) c.tr.part c.tr.uid c.tr.kpc.isSome (rdOpnd c x.a .b32 uniTid).toNat
      (lowWord (src c .b .f32 uniTid)) = .sent t j →
    let fl := flagIf (decodeFmt .f32 (lowWord (src c .b .f32 uniTid)).toNat).isSnan Fl.inv
    exec (.jarr x) s = .next (modTrain (complete (.jarr x) x true k c.tr.pc t { vals := [(uniTid, 0)], flags := fl }) k fun tr =>
      { tr with homes := tr.homes ++ [{ slot := j, reg := some n.toNat, rest := none, again := owesHome tr j }] })) ∧
  (∀ x s k c s' j jn, Ready (.jwait x) x s k c s' → c.on → c.tr.act = none →
    joinSlot s' c.tr.part (rdOpnd c x.a .b32 uniTid).toNat = some j → Tab.get? s'.joins j = some jn →
    (jn.state ≠ 1 → jn.awake → EndsWith (.jwait x) x true s c s' { vals := [(uniTid, joinStatus jn)] }) ∧
    (jn.state = 1 ∨ jn.awake = false → exec (.jwait x) s = .next (modTrain (blockAt s' k c.head (.jwait j (Tab.read 0 s'.joinGen j).toNat)) k
      fun tr => { tr with atWait := some (.jwait x) }))) ∧
  (∀ x s k c s', Ready (.jkp x) x s k c s' →
    (c.on = false ∨ c.tr.kpc = none → EndsWith (.jkp x) x false s c s' {}) ∧
    (c.on → c.tr.kpc ≠ none → exec (.jkp x) s = .next (killNow s' k))) ∧
  (∀ x s k c s', Ready (.jstat x) x s k c s' → c.on →
    let j := (joinSlot s' c.tr.part (rdOpnd c x.a .b32 uniTid).toNat).bind (Tab.get? s'.joins)
    EndsWith (.jstat x) x true s c s' { vals := [(uniTid, match j with | some jn => joinStatus jn | none => Rc.stale)] }) ∧
  (∀ s j jn uid, Tab.get? s.joins j = some jn → jn.state = 1 → jn.proxy = false →
    (∃ c ∈ jn.contribs, c.uid = uid ∧ c.state = .fallen) →
    ∃ s1, Tab.get? s1.joins j = some { jn with
        casual := jn.casual + 1
        contribs := jn.contribs.map fun c => if c.uid = uid then { c with state := .settled, stage := [] } else c } ∧
      SameMemory s s1 ∧
      exec (.joinCasualty j uid) s = .next (if jn.n - (jn.casual + 1) < jn.q then releaseJoin s1 j 3 else s1)) ∧
  (∀ s k tr, train? s k = some tr → tr.kpc.isSome → atKillPoint tr → exec (.kill k) s = .next (killNow s k)) ∧
  (∀ s k tr h rest result, train? s k = some tr → tr.homes = h :: rest →
    let s1 := modTrain (homeAnswered s h.slot tr.uid result) k fun t =>
      (homeResults h rest result).foldl (fun t e => writeHome t e.1 (homeValue e.1 e.2))
        { t with homes := rest.filter fun x => !(x.again && x.slot = h.slot) }
    exec (.proxyReply k result) s
      = .next (if (train? s1 k).any fun t => t.block = some .proxy then unblock s1 k else s1)) ∧
  (∀ s handle (source : Sender) w deltas,
    let j := bitsAt (BitVec.toNat handle) 0 12
    let stale := ∀ jn, Tab.get? s.joins j = some jn →
      bitsAt (BitVec.toNat handle) 12 16 ≠ (Tab.read 0 s.joinGen j).toNat ∨ jn.part ≠ source.part
    let answer := fun (s : State) (d : Dword) => sendFabric s source.part source.module (.arrivalReply d)
    (stale → exec (.homeRemoteArrival handle source w deltas) s = .next (answer s Rc.stale)) ∧
    (∀ jn, ¬stale → Tab.get? s.joins j = some jn → exec (.homeRemoteArrival handle source w deltas) s
      = .next (if jn.state = 1 then answer (commitArrival s j deltas w) 0 else answer s Rc.late))) ∧
  (∀ s j jn, Tab.get? s.joins j = some jn → jn.state ≠ 1 →
    ((∀ c ∈ jn.contribs, c.state = .arrived ∨ c.state = .settled) → freeJoin s j = { s with
      joins := Tab.del s.joins j, joinGen := Tab.write 0 s.joinGen j (Tab.read 0 s.joinGen j + 1)
      wakes := if jn.awake then s.wakes
        else s.wakes ++ [{ slot := j, gen := (Tab.read 0 s.joinGen j).toNat, status := joinStatus jn }] }) ∧
    ((∃ c ∈ jn.contribs, c.state ≠ .arrived ∧ c.state ≠ .settled) → freeJoin s j = s)) ∧
  (∀ s j jn status, Tab.get? s.joins j = some jn → jn.proxy → jn.state = 1 →
    let st := bitsAt (BitVec.toNat status) 0 8
    let s1 := modJoin (markStragglers s j 0) j fun jn => { jn with state := st, status := status }
    ∀ pa, unitAccess s1 jn.part jn.asid jn.priv .store (jn.recVA + 6) 2 = .mem pa →
      exec (.proxyKill j status) s = .next (wakeJoin (writeMem s1 pa 2 st) j))

/-- R326 to R334: tasks are submitted, fetched in order of priority, and completed; with no record ready a train waits, or has EMPTY once its
bound has passed, and a waiting train goes on when a record is ready or its bound passes. The train that takes a record becomes its task
train: the record is RUNNING on its core, and D is its address. Which records of a queue a train sees is the model's reading (log 23); that
`tfetch.task` performs its train's earlier accesses also where it takes nothing, answers EMPTY or waits is the model's choice, as R202 and
R329 make a dispatch an acquire only (log 23). Left out: the completion of a record whose JOIN is not 0, and the dispatch of one with COND
or with a JOIN. -/
def Obligations.TaskInstructionsRunTheReadyQueues : Prop :=
  (∀ x s k c s' s2 pa, Ready (.tsub x) x s k c s' → c.on →
    access (performEarlier s' k) c.tr .rmw (rdOpnd c x.a .n64 uniTid) 64 = (s2, .mem pa) →
    (taskState s2 pa ≠ 0 → EndsWith (.tsub x) x true s c s2 { vals := [(uniTid, Rc.badState)] }) ∧
    (taskState s2 pa = 0 → taskDeps s2 pa ≠ 0 → EndsWith (.tsub x) x true s c s2 { vals := [(uniTid, 1)] }) ∧
    (taskState s2 pa = 0 → taskDeps s2 pa = 0 → readyRoom s2 c.tr.part ≠ 0 →
      EndsWith (.tsub x) x true s c (makeReady s2 c.tr.part c.tr.asid (rdOpnd c x.a .n64 uniTid) pa)
        { vals := [(uniTid, 0)] })) ∧
  (∀ x s k c s' s2 s3 pa l, Ready (.tdone x) x s k c s' → c.on →
    access (performEarlier s' k) c.tr .rmw (rdOpnd c x.a .n64 uniTid) 64 = (s2, .mem pa) → taskState s2 pa = 2 →
    successors s2 c.tr pa = (s3, .ok l []) → (decrement s3 c.tr.part c.tr.asid l).2.1 ≤ readyRoom s3 c.tr.part →
    readMem s3 (pa + 0x30) 4 = 0 →
    EndsWith (.tdone x) x true s c (tdoneFin c s3 pa l).1 { vals := [(uniTid, BitVec.ofNat 64 (tdoneFin c s3 pa l).2)] }) ∧
  (∀ x s k c s', Ready (.tfetchTask x) x s k c s' → c.on → c.tr.act = none → c.tr.task = none → c.tr.held = none →
    let mask := (src c .a .n64 uniTid).toNat % 256
    let bound := if x.b = .zero then none else some (c.tr.deadline.getD (s'.clk + (rdOpnd c x.b .b32 uniTid).toNat))
    let s1 := modTrain (performEarlier s' k) k fun tr => { tr with deadline := bound }
    (∀ p r pa, findRecord s1 c.tr mask = some (p, r) →
      let s2 := setReadyQueue s1 c.tr.part p ((readyQueue s1 c.tr.part p).erase r)
      recordPa s2 c.tr.part c.tr.asid r.va = some pa → bitsAt (readMem s2 (pa + 0x28) 8) 35 1 = 0 →
      exec (.tfetchTask x) s = .next (settle (.tfetchTask x) x true c (takeTask c s2 r.va pa))) ∧
    (findRecord s1 c.tr mask = none → c.tr.predTrap = none → c.tr.noWait = false →
      (∀ d, bound = some d → d ≤ s'.clk →
        EndsWith (.tfetchTask x) x true s c (endDispatch s1 k) { vals := [(uniTid, Rc.empty)] }) ∧
      ((∀ d, bound = some d → s'.clk < d) →
        exec (.tfetchTask x) s = .next (blockAt (clearReplies s1 k) k c.head (.tfetch mask))))) ∧
  (∀ s k tr mask, train? s k = some tr → tr.block = some (.tfetch mask) → (findRecord s tr mask).isSome →
    ∃ t, exec (.tfetchTaskWake k) s = .next t ∧ Unblocked k s t) ∧
  (∀ s k tr mask d, train? s k = some tr → tr.block = some (.tfetch mask) → tr.deadline = some d → d ≤ s.clk →
    ∃ t, exec (.tfetchTaskDeadline k) s = .next t ∧ Unblocked k s t) ∧
  (∀ c s va pa tr, train? s c.k = some tr → readMem s (pa + 0x30) 4 = 0 →
    ∃ t, takeTask c s va pa = .done t { vals := [(uniTid, va)], trap := tr.predTrap } ∧
      (∃ tr', train? t c.k = some tr' ∧ tr'.task = some va ∧ tr'.killed = false ∧ tr'.deadline = none ∧
        tr'.pc = tr.pc ∧ tr'.selected = tr.selected) ∧
      OtherTrains c.k s t ∧ readByte t (pa + 0x38) = 2 ∧ readByte t (pa + 0x3A) = BitVec.ofNat 8 c.tr.core ∧
      (∀ a, a ≠ pa + 0x38 → a ≠ pa + 0x3A → readByte t a = readByte s a))

/-- R306 to R325: grants, device-side launches and the wait for them, triggers, the Timetable; the admission and the end of a launch. The order
among launches that the rules leave open is the model's choice (log 32), as is that a launch which finds the pool full performs no earlier
access, and what becomes of a header or a record that is not reached (log 24). -/
def Obligations.LaunchInstructionsAndEventsAct : Prop :=
  (∀ x s k c s' l ln w, Ready (.tfetch x) x s k c s' → c.on → c.tr.act = none → c.tr.launch = some l → launch? s' l = some ln →
    c.tr.wg = some w →
    let level := (rdOpnd c x.a .b32 uniTid).toNat
    level < ln.nf → (ln.level = none ∨ ln.level = some level) →
    let r := takeGrant (modLaunch s' l fun y => { y with level := some level }) w l level c.tr
    EndsWith (.tfetch x) x true s c (trimGrants (modTrain r.2 k fun tr => { tr with
      wkid := r.1, grant := some r.1, gotEnd := tr.gotEnd || r.1 = endGrant
      gidx := tr.gidx + (if (wgOf r.2 tr).any (·.disp) then 1 else 0) }) w)
      { vals := [(uniTid, r.1)] }) ∧
  (∀ x s k c s' l ln s2 pa, Ready (.launch x) x s k c s' → c.on → c.tr.act = none → c.tr.launch = some l →
    launch? s' l = some ln → access s' c.tr .load (rdOpnd c x.a .n64 uniTid) 128 = (s2, .mem pa) →
    (ln.depth = 8 → EndsWith (.launch x) x true s c s2 { vals := [(uniTid, Rc.depth)] }) ∧
    (ln.depth ≠ 8 →
      let new : Launch := { part := c.tr.part, asid := c.tr.asid, depth := ln.depth + 1, priv := c.tr.priv
                            hdrVA := rdOpnd c x.a .n64 uniTid, parent := some l }
      (poolLaunch (performEarlier s2 k) new = none →
        EndsWith (.launch x) x true s c s2 { vals := [(uniTid, Rc.full)] }) ∧
      (∀ s3 h, poolLaunch (performEarlier s2 k) new = some (s3, h) →
        EndsWith (.launch x) x true s c s3 { vals := [(uniTid, h)] }))) ∧
  (∀ x s k c s' l ln, Ready (.lwait x) x s k c s' → c.on → c.tr.act = none → c.tr.launch = some l → launch? s' l = some ln →
    (launchOfHandle s' c.tr.asid (rdOpnd c x.a .n64 uniTid) = none →
      EndsWith (.lwait x) x true s c s' { vals := [(uniTid, Rc.stale)] }) ∧
    (∀ i m y, launchOfHandle s' c.tr.asid (rdOpnd c x.a .n64 uniTid) = some (i, m) → launch? s' m = some y →
      (y.state = .complete → EndsWith (.lwait x) x true s c (freePool s' m) { vals := [(uniTid, y.record)] }) ∧
      (y.state ≠ .complete → exec (.lwait x) s = .next (modTrain
        (blockAt s' k c.head (.lwait i (Tab.read 0 s'.poolGen i).toNat)) k fun tr => { tr with atWait := some (.lwait x) })))) ∧
  (∀ x s k c s' l ln g, Ready (.trig x) x s k c s' → c.on → c.tr.act = none → c.tr.launch = some l → launch? s' l = some ln →
    wgOf (performEarlier s' k) c.tr = some g →
    EndsWith (.trig x) x false s c (if ln.ndeps = 0 || ln.trig.contains g.wgid then performEarlier s' k
      else modLaunch (performEarlier s' k) l fun y => { y with trig := y.trig ++ [g.wgid] }) {}) ∧
  (∀ x s k c s' l ln, Ready (.tsel x) x s k c s' → c.on → c.tr.act = none → c.tr.launch = some l → launch? s' l = some ln →
    let cls := (rdOpnd c x.a .b32 uniTid).toNat
    let n := (src c .b .n64 uniTid).toNat
    cls ≤ 15 →
    (ln.ttab = 0 → EndsWith (.tsel x) x true s c s' { vals := [(uniTid, Rc.noTable)] }) ∧
    (ln.ttab ≠ 0 → ∀ s2 places,
      translateAll s' c.tr .load 8 (pieceAddrs 8 (ln.ttab + BitVec.ofNat 64 (128 * cls)) 16) = (s2, .ok places) →
      let reached := places.map fun e => (e.1, e.2.1, reachXl s2 e.2.2)
      let s3 := settleLoads s2 k (localPlaces reached) 8
      let v := piecesAt s3 c.tr 8 reached
      (∀ e ∈ reached, ∃ pa, e.2.2 = .mem pa) →
      EndsWith (.tsel x) x true s c s3 { vals := [(uniTid, match bestEntry n v with
        | none => Rc.noFit
        | some i => BitVec.ofNat 64 (bitsAt (v.getD (2 * i + 1) 0) 0 48))] })) ∧
  (∀ s p id l, (partAt s p).closed = false →
    let s1 := readHeaders s p
    (launchOrder s1).find? (fun e => e.2.part = p && e.2.state ≠ .complete && !e.2.halted && !(admissible s1 e.1 e.2).isEmpty)
      = some (id, l) →
    exec (.launchAdmit p) s = .next ((admissible s1 id l).foldl (fun s c => placeWg s id c) s1)) ∧
  (∀ s id l, launch? s id = some l → l.unread → readHeader s l = none →
    exec (.launchInvalid id) s = .next (completeLaunch s id 4)) ∧
  (∀ s id l, launch? s id = some l → launchOver s id l → l.hdr ≠ [] →
    let code := if l.doomed then 3 else if l.nfault > 0 then 2 else 1
    exec (.launchComplete id) s = .next (completeLaunch
      (if l.comp ≠ 0 ∧ l.comp.toNat % 64 = 0 then writeCompletion s l code else s) id (BitVec.ofNat 64 (compWord l code)))) ∧
  (∀ s id l, launch? s id = some l → l.started = false → allTriggered l →
    let r := startDeps id l (readDeps s l) s
    exec (.dependantsStart id) s = .next (modLaunch r.1 id fun x => { x with started := true, depsLeft := r.2 }))

/-- R261, R358 to R365, R368, R370 to R373: engine instructions queue an operation and mark D; an operation starts, runs, pauses and completes;
`xst` writes the shadow windows of a gang, behind the earlier accesses of its train, for the next shadow what a thread sends after its arrival
(log 62); `publ` exchanges a pair of buffers once no request to another module is under way. When an entry of a
queue frees, that `dec` and `pyr` read and write as a whole, and what `publ` waits for are the model's readings (log 27, 48). -/
def Obligations.EngineInstructionsAndOperationsAct : Prop :=
  (∀ (i : Args → Instr) (kind : EngKind), (i = .copy ∧ kind = .copy) ∨ (i = .dec ∧ kind = .dec) ∨ (i = .pyr ∧ kind = .pyr) →
    ∀ x s k c s' pa s2 n f s4, Ready (i x) x s k c s' → c.on → x.u → x.d = .s n → x.nwb = false →
    let va := rdOpnd c x.a .n64 uniTid
    va.toNat % 64 = 0 → Translates c (performEarlier s' k) .load 64 (fun _ => va) (fun _ => pa) s2 →
    let s3 := clearReplies s2 k
    let o := opOf c s3 kind ((List.range 8).map fun j => BitVec.ofNat 64 (bitsAt (trainMem s2 c.tr pa 64) (64 * j) 64))
    engineFull s3 o.engine = false → 
    takeFuture s3 c.tr.asid c.tr.launch (c.tr.act.map fun a => (a.line, a.gen)) = some (f, s4) →
    let h := (Tab.get? s4.futures f).elim 0 (futureHandle s4 f)
    exec (i x) s = .next (modTrain (complete (i x) x true k c.tr.pc (addOp s4 { o with future := some f })
      { vals := [(uniTid, h)] }) k fun tr => { tr with marks := Tab.put tr.marks n.toNat (.pending h) })) ∧
  (∀ s k tr e, train? s k = some tr → tr.block = some (.engineQueue e) → engineFull s e = false →
    ∃ t, exec (.engineQueueRoom k) s = .next t ∧ Unblocked k s t) ∧
  (∀ s i f, Tab.get? s.futures i = some f → f.status.isSome → f.line = none →
    (∀ l y, f.launch = some l → launch? s l = some y → y.state = .complete) →
    exec (.futureEntryFree i) s = .next { s with
      futures := Tab.del s.futures i, futGen := Tab.write 0 s.futGen i (Tab.read 0 s.futGen i + 1) }) ∧
  (∀ s i f l, Tab.get? s.futures i = some f → f.status.isSome → f.line = some l →
    (∀ ln, Tab.get? s.lines l.1 = some ln → ln.gen ≠ l.2) →
    exec (.futureEntryFree i) s = .next { s with
      futures := Tab.del s.futures i, futGen := Tab.write 0 s.futGen i (Tab.read 0 s.futGen i + 1) }) ∧
  (∀ s op o, Tab.get? s.ops op = some o → o.state = .queued → nextOfEngine s o → outlived s o = false → o.bad = none →
    tilesAdmit s o → exec (.engineOperationStart op) s
      = .next (modOp (openStream (phaseTile (phaseTile s o.wg o.srcTile 3 true) o.wg o.dstTile 1 true) o) op
          fun o => { o with state := .running })) ∧
  (∀ s op o, Tab.get? s.ops op = some o → o.kind = .copy → o.state = .running → o.total ≤ o.pieces.length →
    exec (.copyComplete op) s = .next (if o.follows then placeFollowOn (modOp (endPhases s o true) op fun o => { o with state := .placed }) op
      else endOp s op true (statusWord Code.done 0 0 (o.total % 2 ^ 32)))) ∧
  (∀ s op o places, Tab.get? s.ops op = some o → o.kind = .dec → o.state = .running → outlived s o = false →
    spanOf s o .load (o.desc.getD 0 0) (bitsAt (o.word 1) 0 32) = .ok places →
    exec (.decComplete op) s = .next (decodeOp s op o (readPlaces s places))) ∧
  (∀ s op o, Tab.get? s.ops op = some o → o.kind = .pyr → o.state = .running → outlived s o = false →
    let len := o.pw * (if o.pten then 2 else 1)
    let base := ceilDivN o.ph 16 * 16
    exec (.pyrComplete op) s = .next (readRows s op o len ((List.range o.ph).map (o.pstride * ·)) fun luma =>
      readRows s op o len ((List.range (o.ph / 2)).map fun i => o.pstride * (base + i)) fun chroma =>
        writeRows s op o (o.desc.getD 2 0) (pyramid o luma chroma).1 fun s =>
          endOp s op true (statusWord Code.done 0 (pyramid o luma chroma).2.toNat 0))) ∧
  (∀ s op o n va pte, Tab.get? s.ops op = some o → o.kind = .copy → o.state = .running → nextPiece o = some n →
    srcSite s o n = .fault va pte → exec (.engineFaultPause op) s = .next (pauseOp s op o va pte)) ∧
  (∀ x wide s k c s' g, Ready (.xst x wide) x s k c s' → c.on → wgOf s' c.tr = some g → g.gang ≠ 0 →
    let n := if wide then 8 else 4
    (∀ t ∈ c.lanes, (rdOpnd c x.a .b32 t).toNat < gangCores g ∧ (rdOpnd c x.b .b32 t).toNat % n = 0 ∧
      (rdOpnd c x.b .b32 t).toNat + n ≤ 16384) →
    let late := fun t => if x.u then c.tr.selected &&& ~~~(arrivedGbar c.tr) = 0 else (arrivedGbar c.tr).getLsbD t
    EndsWith (.xst x wide) x false s c (c.lanes.foldl (fun s t =>
      sendTo s g (late t) (rdOpnd c x.a .b32 t).toNat (rdOpnd c x.b .b32 t).toNat n
        (rdOpnd c x.c (if wide then .n64 else .b32) t).toNat) (performEarlier s' k)) {}) ∧
  (∀ x sc s k c s' s2 pa l, Ready (.publ x sc) x s k c s' → c.on →
    access (performEarlier s' k) c.tr .rmw (rdOpnd c x.a .n64 uniTid) 64 = (s2, .mem pa) →
    let front := readMem s2 pa 8
    let shadow := readMem s2 (pa + 8) 8
    let n := readMem s2 (pa + 0x10) 4
    front % 65536 = 0 → shadow % 65536 = 0 → 0 < n → n ≤ 65536 → canonicalRange front (n * 65536) →
    canonicalRange shadow (n * 65536) → overlaps front (n * 65536) shadow (n * 65536) = false →
    pairLeaves s2 c.tr.asid n (BitVec.ofNat 64 front) (BitVec.ofNat 64 shadow) = .ok l →
    requestsOf s2 (· = c.tr.asid) = [] →
    EndsWith (.publ x sc) x false s c (publish s2 c.tr.asid pa front shadow n l) {})

/-- R384 to R387, R399 to R407: the system class. That three rows are forms of `mtsr`, that the ring of `svc` is reached through the requester's
ASID, how `ctxl` finds or reads an image, and that `ctxs`, `ctxl`, `svc` and SVCRET perform their train's earlier accesses first, are the
model's readings (log 11, 12, 30, 50). -/
def Obligations.SystemInstructionsAct : Prop :=
  (∀ x s k c s' r, Ready (.mfsr x) x s k c s' → c.on → regCheck c (sysNumber c) (·.read) = .ok r →
    (r.scope = .part → EndsWith (.mfsr x) x true s c (readPartReg s' c.tr.part (sysNumber c)).1
      { vals := [(uniTid, (readPartReg s' c.tr.part (sysNumber c)).2)] }) ∧
    (r.scope ≠ .part → EndsWith (.mfsr x) x true s c s'
      { vals := c.lanes.map fun t => (t, trainReg s' c.tr (sysNumber c) t) })) ∧
  (∀ (i : Args → Instr), i = .mtsr ∨ i = .svcret ∨ i = .texitFault ∨ i = .texitTerminate →
    ∀ x s k c s' r, Ready (i x) x s k c s' → c.on → regCheck c (sysNumber c) (·.write) = .ok r →
    let v := src c .b .n64 uniTid
    (sysNumber c = 0x0A → EndsWith (i x) x false s c (replyService (performEarlier s' k) c.tr.part c.tr.svctok v) {}) ∧
    (sysNumber c = 0x0B → v = 1 ∨ v = 2 → exec (i x) s = .next (workExit s' k v.toNat c.tr.pc)) ∧
    (r.scope = .part → EndsWith (i x) x false s c (writePartReg s' c.tr.part (sysNumber c) v) {}) ∧
    (sysNumber c ≠ 0x0A → sysNumber c ≠ 0x0B → r.scope ≠ .part → EndsWith (i x) x false s c
      (putTrain s' k (c.lanes.foldl (fun tr t => wrTrainReg tr (sysNumber c) t (src c .b .n64 t)) c.tr)) {})) ∧
  (∀ x s k c s', Ready (.eret x) x s k c s' → c.on → c.tr.intrap →
    exec (.eret x) s = .next (returnTrap (putTrain s' k (ageLoads c.tr)) k)) ∧
  (let drop := fun (i : Instr) (x : Args) (gone : Ctx → State → Nat → Bool) (act : Ctx → State → State) =>
    ∀ s k c s', Ready i x s k c s' → c.on → foreignAsid s' c.tr.part (tlbiTarget c) = false →
      let ids := requestsOf s' (gone c s')
      (ids = [] → EndsWith i x false s c (act c s') {}) ∧
      (ids ≠ [] → exec i s = .next (modTrain (blockAt (act c s') k c.head (.remote ids)) k fun tr => { tr with atWait := some i }))
  (∀ x, drop (.tlbiPage x) x (fun c _ a => a = tlbiTarget c) fun c s => tlbiPage s (tlbiTarget c) (rdOpnd c x.a .n64 uniTid)) ∧
  (∀ x, drop (.tlbiAsid x) x (fun c _ a => a = tlbiTarget c) fun c s => tlbiAsid s (tlbiTarget c)) ∧
  (∀ x, drop (.tlbiPart x) x (fun c s => asidOwned s c.tr.part) fun c s => tlbiPart s c.tr.part)) ∧
  (∀ x s k c s', Ready (.trapq x) x s k c s' → c.on →
    (∀ r q, c.tr.intrap → c.tr.tq = r :: q →
      EndsWith (.trapq x) x true s c s' { vals := [(uniTid, r.dword (rdOpnd c x.a .n64 uniTid).toNat)] }) ∧
    (c.tr.intrap = false → EndsWith (.trapq x) x true s c s' { vals := [(uniTid, 0)] })) ∧
  (∀ s tr, (∀ idx t, takeToken s tr = some (idx, t) → ∃ sv, Tab.get? t.services idx = some sv ∧ sv.uid = tr.uid ∧ sv.posted = false) ∧
    (heldToken s tr.uid = none → takeToken s tr = (Tab.firstFree s.services 4096 0).map fun idx =>
      (idx, { s with services := Tab.put s.services idx { part := tr.part, uid := tr.uid } }))) ∧
  (∀ x s k c s' idx s1, Ready (.svc x) x s k c s' → c.on → (partAt (performEarlier s' k) c.tr.part).svcring = 0 →
    takeToken (performEarlier s' k) c.tr = some (idx, s1) →
    EndsWith (.svc x) x true s c (returnToken s1 c.tr.uid) { vals := [(uniTid, Rc.invalid)] }) ∧
  (∀ x s k c s', Ready (.svc x) x s k c s' → c.on → takeToken (performEarlier s' k) c.tr = none →
    let s1 := performEarlier s' k
    exec (.svc x) s = .next (judgeLaunch (blockAt s1 k c.head (.svcRoom s1.clk)) c.tr.launch)) ∧
  (∀ x s k c s' idx pa r d s1 s2, Ready (.svc x) x s k c s' → c.on → takeToken (performEarlier s' k) c.tr = some (idx, s1) →
    let ring := (partAt (performEarlier s' k) c.tr.part).svcring
    let u := svcUser c.tr
    ring ≠ 0 → unitXl s1 u.part u.asid u.priv .load ring 64 = .mem pa → ringReg? s1 pa = some r → 64 ≤ r.ssize →
    ringAt s1 u pa (.acq 1) = (s2, d) → d = Rc.full ∨ d = Rc.busy →
    exec (.svc x) s = .next (judgeLaunch (blockAt s2 k c.head (.svcRoom s2.clk)) c.tr.launch)) ∧
  (∀ x s k c s' idx pa r d s1 s2 s3, Ready (.svc x) x s k c s' → c.on → takeToken (performEarlier s' k) c.tr = some (idx, s1) →
    let ring := (partAt (performEarlier s' k) c.tr.part).svcring
    let u := svcUser c.tr
    let code := (src c .b .n64 uniTid).toNat % 2 ^ 16
    let token := idx + 2 ^ 12 * (Tab.read 0 s1.svcGen idx).toNat
    ring ≠ 0 → unitXl s1 u.part u.asid u.priv .load ring 64 = .mem pa →
    ringReg? s1 pa = some r → 64 ≤ r.ssize → ringAt s1 u pa (.acq 1) = (s2, d) → d.getLsbD 63 = false → s2.svcGen = s1.svcGen →
    unitWrite s2 u (r.slotVa d.toNat) (requestRecord token code (rdOpnd c x.a .n64 uniTid).toNat c.tr
      (((launchOf s2 c.tr).bind (launch? s2)).elim 0 (·.hdrVA))) = some s3 →
    let s4 := setIrq (ringUnit s3 u ring (.com false d.toNat 1)).1 c.tr.part 3
    let s5 := { s4 with services := Tab.put s4.services idx { part := c.tr.part, uid := c.tr.uid, posted := true } }
    exec (.svc x) s = .next (judgeLaunch (modTrain (blockAt s5 k c.head (.svcReply token)) k
      fun tr => { tr with atWait := some (.svc x) }) c.tr.launch)) ∧
  (∀ x s k c s' g, Ready (.ctxs x) x s k c s' → c.on →
    let s1 := performEarlier s' k
    let a := (rdOpnd c x.a .n64 uniTid).toNat
    let w := wgKey (bitsAt a 0 8) (bitsAt a 8 3)
    (wg? s1 w = none → EndsWith (.ctxs x) x true s c s1 { vals := [(uniTid, Rc.invalid)] }) ∧
    (wg? s1 w = some g → g.part = c.tr.part → c.tr.wg ≠ some w → g.cls ≠ 0 → g.gang = 0 → rdOpnd c x.b .n64 uniTid = 0 →
      (depotRoom s1 g.part (imageSize g) = none → EndsWith (.ctxs x) x true s c s1 { vals := [(uniTid, Rc.full)] }) ∧
      ((depotRoom s1 g.part (imageSize g)).isSome → exec (.ctxs x) s
        = .next (modTrain (blockAt s1 k c.head (.ctxs g.uid 0)) k fun tr => { tr with atWait := some (.ctxs x) })))) ∧
  (∀ x s k c s' s1 s2 s3 p1 p2, Ready (.ctxl x) x s k c s' → c.on →
    let va := rdOpnd c x.a .n64 uniTid
    let n := (rdOpnd c x.b .n64 uniTid).toNat % 256
    let image := fun (s : State) (size : Nat) => Saved.img s ((imagePlaces s c.tr.part c.tr.asid .load va size).getD [])
    let head := image s2 64
    let size := imageSize (foreignWg s2 head).2.2
    let m := image s3 size
    va.toNat % 64 = 0 → access (performEarlier s' k) c.tr .store va 1 = (s1, .mem p1) → access s1 c.tr .load va 1 = (s2, .mem p2) →
    bitsAt (Img.getN head 0 8) 8 1 = 1 → bitsAt (Img.getN head 0 8) 0 8 = 1 → bitsAt (Img.getN head 0 8) 10 1 = 0 →
    bitsAt (Img.getN head 0x10 8) 28 6 = c.tr.part → (n ≤ 191 ∨ n = 0xFF) →
    bitsAt (Img.getN head 0x10 8) 34 16 = (Tab.read 0 s2.agens (bitsAt (Img.getN head 0x10 8) 16 12)).toNat →
    withImage c .load va (fun s => .done s {}) (imageChunks va size) s2 = .done s3 {} →
    (∀ id sv pieces core, savedOfImage s3 m = some (id, sv) → imageCore s3 sv n = some core →
      imagePlaces s3 c.tr.part c.tr.asid .load va sv.size = some pieces →
      EndsWith (.ctxl x) x true s c (loadImages s3 [(id, sv, core, pieces)]) { vals := [(uniTid, BitVec.ofNat 64 core)] }) ∧
    (∀ pieces core, savedOfImage s3 m = none →
      let f := foreignSaved s3 m
      imageCore f.1 f.2 n = some core → imagePlaces f.1 c.tr.part c.tr.asid .load va f.2.size = some pieces →
      EndsWith (.ctxl x) x true s c (loadImages f.1 [(s3.nextId, f.2, core, pieces)])
        { vals := [(uniTid, BitVec.ofNat 64 core)] }))

/-- R285, R312 to R314, R379, R380, R387 to R392, R401, R407: waiting trains that retry, the resolution of faults, delivery of a waiting
record, pre-emption and partition reset. When a record is delivered within a wait is the model's reading (log 28); what the rules leave open
of pre-emption and reset, what a freed fault entry keeps, and how an activation train is saved and where it is restored are its choice
(log 34, 35, 38, 65). So are what the log entry of a parked Stationmaster lane holds after FAIL (CORE 0xFF, slot 0, PC 0, MASK 0), and that the
lanes linked to the entry go on with it, of which R406 and R418 give no such values: they are the model's reading (log 36). -/
def Obligations.SystemEventsAct : Prop :=
  (∀ s k tr n, train? s k = some tr → tr.block = some (.svcRoom n) → ∃ t, exec (.svcRetry k) s = .next t ∧ Unblocked k s t) ∧
  (∀ s p i f, selectedFault s p = some (i, f) → f.op = none →
    exec (.faultReplay p) s = .next (laneResolved (freeFault ((linkedTo s i).foldl unblock s) i 1) i)) ∧
  (∀ s p i f, selectedFault s p = some (i, f) → f.op = none →
    exec (.faultFail p) s = .next ((lanesOn s i).foldl
      (fun t e => logViolation (acceptPacket t e.1) e.1 e.2 0 causeUnresolved 0xFF f.asid 0 0)
      ((linkedTo s i).foldl failTrain (freeFault s i 2)))) ∧
  (∀ s i st f, Tab.get? s.faults i = some f →
    Tab.get? (freeFault s i st).faults i = none ∧
    Tab.get? (freeFault s i st).freed i = some { f with links := 0, status := st, op := none }) ∧
  (∀ s k tr, train? s k = some tr → tr.intrap = false → tr.tq ≠ [] → chainBoundary s tr → interruptible s tr →
    exec (.trapDelivery k) s = .next (deliverHead (leaveWait s k) k)) ∧
  (∀ s w g, wg? s w = some g → (partAt s g.part).tslice.toNat ≤ s.clk - g.since →
    exec (.timeSliceExpiry w) s = .next (putWg s w { g with sliceOver := true })) ∧
  (∀ s w, reasonOf s (together s w) = some .any → canDrain s (together s w) →
    (∀ v ∈ together s w, ∀ g, wg? s v = some g → g.drain = none) →
    exec (.preemptDrain w) s = .next ((together s w).foldl (fun t v => modWg t v fun g => { g with drain := some s.clk }) s)) ∧
  (∀ s w r, reasonOf s (together s w) = some r → drainOver s (together s w) →
    exec (.drainmaxExpiry w) s = .next (preemptNow s (together s w) (methodFor s (together s w) r))) ∧
  (∀ s w r, reasonOf s (together s w) = some r → atBoundary s (together s w) →
    (∀ v ∈ together s w, mustFinish s v = false) →
    (methodFor s (together s w) r = .save → exec (.preemptSave w) s = .next (saveAll s (together s w))) ∧
    (methodFor s (together s w) r = .flush →
      exec (.preemptFlushRestart w) s = .next ((together s w).foldl flushWg s))) ∧
  (∀ s id core sv, Tab.get? s.saved id = some sv → sv.hwimg → (∀ l, launch? s sv.wg.launch = some l → l.halted = false) →
    sv.wg.cls ≠ 0 → sv.wg.gang = 0 → core < 192 → coreTakes s sv core →
    firstServed s sv core = false → exec (.restore id core) s = .next (loadImages s [(id, sv, core, sv.pieces s)])) ∧
  (∀ s k tr, train? s k = some tr → canSuspend s tr = false → suspendAct s k = s) ∧
  (∀ s id core tr slot rest, Tab.get? s.saved id = none → Tab.get? s.savedActs id = some tr → freeTrainSlots s core = slot :: rest →
    actCluster tr = some (core / 4) → 1 ≤ (available s none core).trains → 4 ≤ (available s none core).grans → killedSaved tr = false →
    let k := trainKey core slot
    let tr' := { tr with core := core, slot := slot, block := none, atWait := none }
    let s1 := { s with savedActs := Tab.del s.savedActs id }
    exec (.restore id core) s
      = .next (settleTrain (loseLatches (putTrain s1 k (settleMarks s1 (reselect (rewindTo tr' tr'.pc)))) k) k)) ∧
  (∀ s w core g id sv, wg? s w = some g → g.cls ≠ 0 → g.gang = 0 → core ≠ g.core → core < 192 → gangWants s g →
    let need : WgNeed := { deep := (launch? s g.launch).any (·.depth ≥ 1), trains := g.ntrains, grans := g.ntrains * g.vgran
                           pad := g.pad, banks := g.used.length + g.resv }
    (available s none core).fits need →
    (depotRoom s g.part (imageSize g)).isSome → mustFinish s w = false → atBoundary s [w] →
    (saveToDepot s w).saved.find? (fun e => e.2.wg.uid = g.uid) = some (id, sv) →
    exec (.migrate w core) s = .next (loadImages (saveToDepot s w) [(id, sv, core, sv.pieces (saveToDepot s w))])) ∧
  (∀ s p, resetAsked s p false → (partAt s p).resetDrain = none →
    exec (.partitionResetDrain p) s = .next (modPart s p fun q => { q with closed := true, resetDrain := some s.clk })) ∧
  (∀ s p, resetAsked s p true → exec (.partitionResetKill p) s = .next (resetPartition s p)) ∧
  (∀ s p n, (partAt s p).resetDrain = some n → (partAt s p).drainmax.toNat ≤ s.clk - n →
    exec (.partitionDrainExpiry p) s = .next (resetPartition s p))

/-- R412 to R420, R427: the writes of host software, the steps and packets of the Stationmaster, and host accesses to memory. What they leave open of the
Stationmaster is the model's choice (log 36), as is that the rows of a register page are steps, and that what the host receives stands in the
outbox (log 12, 52). -/
def Obligations.HostAccessesAndPacketsAct : Prop :=
  (∀ s i v, i < 4096 → exec (.supervisorRegisterWrite (0x10000 + 8 * i) v) s
    = .next { s with asidTab := Tab.write 0 s.asidTab i (BitVec.ofNat 64 (bitsAt (BitVec.toNat v) 0 7)) }) ∧
  (∀ s i v, i < 51200 → ∃ t, exec (.supervisorRegisterWrite (0x20000 + 8 * i) v) s = .next t ∧
    t = { s with pmap := t.pmap } ∧
    (∀ j, j < 8 → Tab.read 0 t.pmap (8 * i + j) = BitVec.ofNat 8 (bitsAt (BitVec.toNat v) (8 * j) 8)) ∧
    ∀ g, g / 8 ≠ i → Tab.read 0 t.pmap g = Tab.read 0 s.pmap g) ∧
  (∀ s p n v, p < 64 → n < 0x40 →
    exec (.supervisorRegisterWrite (0x108000 + 0x10000 * p + 8 * n) v) s = .next (writePartReg s p (0x40 + n) v)) ∧
  (∀ s v, let x := s.super
    let n := BitVec.toNat v
    let w := fun off => exec (.supervisorRegisterWrite off v) s
    let job := (bitsAt n 0 6, decide (bitsAt n 8 1 = 1))
    w 0x000 = .next { s with super := { x with short := x.short && bitsAt n 4 1 = 0 } } ∧
    w 0x010 = .next { s with super := { x with pwrRise := BitVec.ofNat 16 n } } ∧
    w 0x018 = .next { s with super := { x with pwrFall := BitVec.ofNat 16 n } } ∧
    (bitsAt n 63 1 = 0 →
      w 0x030 = .next { s with super := { x with rpart := BitVec.ofNat 6 n, rmode := job.2 } } ∧
      w 0x038 = .next { s with super := { x with
        qpart := BitVec.ofNat 6 n, qslots := BitVec.ofNat 8 (bitsAt n 8 8), qtokens := BitVec.ofNat 8 (bitsAt n 16 8) } } ∧
      w 0x040 = .next { s with super := { x with attAddr := BitVec.ofNat 56 n } } ∧
      w 0x048 = .next { s with super := { x with rtAddr := BitVec.ofNat 56 n } }) ∧
    (bitsAt n 63 1 = 1 →
      w 0x030 = .next { s with super := { x with
        rpart := BitVec.ofNat 6 n, rmode := job.2, resets := if job ∈ x.resets then x.resets else x.resets ++ [job] } } ∧
      w 0x038 = exec (.qosSet (bitsAt n 0 6) (BitVec.ofNat 8 (bitsAt n 8 8)) (BitVec.ofNat 8 (bitsAt n 16 8))) s ∧
      w 0x040 = exec .attestationReport { s with super := { x with attAddr := BitVec.ofNat 56 n } } ∧
      w 0x048 = exec (.routingTableSwap v) s)) ∧
  (∀ s p sup v, let x := queueOf (partAt s p) sup
    (x.state = 0 → exec (.qtail p sup v) s = .next (setQueue s p sup { x with tail := v, head := v })) ∧
    (x.state ≠ 0 → (v - x.head).toNat ≤ x.size → exec (.qtail p sup v) s = .next (setQueue s p sup { x with tail := v })) ∧
    (x.state ≠ 0 → x.size < (v - x.head).toNat →
      exec (.qtail p sup v) s = .next (setQueue s p sup { x with tail := v, state := 2, err := x.base }))) ∧
  (∀ s p sup v, let x := queueOf (partAt s p) sup
    (bitsAt (BitVec.toNat v) 0 2 = 0 → exec (.qstate p sup v) s = .next (setQueue s p sup { x with state := 0 })) ∧
    (bitsAt (BitVec.toNat v) 0 2 = 1 → exec (.qstate p sup v) s
      = .next (if queueValid s p x then setQueue s p sup { x with state := 1 } else s))) ∧
  (∀ s, (∀ e ∈ s.parts, pendingType e.2 = none) →
    exec .stationmasterStep s = .next ((s.parts.map (·.1)).foldl selectPacket s)) ∧
  (∀ s p pk pa, turnOf s p 1 = some pk →
    unitAccess s p (laneAsid s p pk) pk.sup .store (pk.words.getD 1 0) 8 = .mem pa →
    exec (.setv p) s = .next (acceptPacket (writeMem s pa 8 (pk.words.getD 2 0).toNat) p)) ∧
  (∀ s p pk pa, unitAccess s p (laneAsid s p pk) pk.sup .load (pk.words.getD 1 0) 8 = .mem pa →
    ((readMem s pa 8 = (pk.words.getD 2 0).toNat) ↔ pk.word 3 = 1) →
    (turnOf s p 2 = some pk → exec (.waitv p) s = .next (acceptPacket s p)) ∧
    (∀ last, (partAt s p).lane.hold = some (.waitv last) → (partAt s p).lane.packet = some pk →
      exec (.waitvReread p) s = .next (acceptPacket s p))) ∧
  (∀ s p pk, turnOf s p 3 = some pk → queueBusy s p pk.sup = false → (∀ sup, (partAt s p).lane.hold ≠ some (.fence sup)) →
    exec (.fencePacket p) s = .next (acceptPacket s p)) ∧
  (∀ s p pk pa, turnOf s p 4 = some pk →
    unitAccess s p (laneAsid s p pk) pk.sup .store (pk.words.getD 1 0) 8 = .mem pa →
    engineFull s (copyOp s p pk).engine = false →
    exec (.copyPacket p) s = .next (acceptPacket (addOp s (copyOp s p pk)) p)) ∧
  (∀ s p pk pa qa, turnOf s p 5 = some pk → pk.word 1 = 0 →
    unitAccess s p (laneAsid s p pk) pk.sup .store (pk.words.getD 4 0) 8 = .mem qa →
    unitAccess s p (laneAsid s p pk) pk.sup .load (pk.words.getD 2 0) 64 = .mem pa →
    let desc := (List.range 8).map fun i => (BitVec.ofNat 64 (readMem s (pa + 8 * i) 8) : Dword)
    let r := openLine s (anyCluster s (pk.word 3))
      { desc := desc, descVA := pk.words.getD 2 0, asid := laneAsid s p pk, part := p, priv := pk.sup }
    exec (.lineOpenPacket p) s = .next (acceptPacket (writeMem r.1 qa 8 r.2.toNat) p)) ∧
  (∀ s p pk pa l ln, turnOf s p 5 = some pk → pk.word 1 = 1 → (∀ l gen, (partAt s p).lane.hold ≠ some (.lclose l gen)) →
    (partAt s p).lane.result = none →
    unitAccess s p (laneAsid s p pk) pk.sup .store (pk.words.getD 4 0) 8 = .mem pa →
    lineOf s { part := p, asid := laneAsid s p pk } (pk.words.getD 2 0) = some (l, ln) →
    exec (.lineClosePacket p) s = .next (holdLane (closeLine s l) p (some (.lclose l ln.gen)))) ∧
  (∀ s p pk pa l gen, (partAt s p).lane.hold = some (.lclose l gen) → (partAt s p).lane.packet = some pk →
    (Tab.get? s.lines l).any (·.gen = gen) = false →
    let s1 := modPart s p fun q => { q with lane := { q.lane with hold := none, result := some 0 } }
    unitAccess s1 p (laneAsid s1 p pk) pk.sup .store (pk.words.getD 4 0) 8 = .mem pa →
    exec (.lineClosePacket p) s = .next (acceptPacket (writeMem s1 pa 8 0) p)) ∧
  (∀ s p pk, turnOf s p 6 = some pk → (pk.words.getD 1 0).toNat % 128 = 0 →
    let new : Launch := { part := p, asid := laneAsid s p pk, priv := pk.sup, hdrVA := pk.words.getD 1 0
                          fromQueue := some (p, pk.sup) }
    exec (.launchPacket p) s = .next (acceptPacket { (freshId s).2 with
      launches := Tab.put (freshId s).2.launches (freshId s).1 new } p)) ∧
  (∀ s p pk, turnOf s p 7 = some pk → exec (.padPacket p) s = .next (acceptPacket s p)) ∧
  (∀ s q n, exec (.hostMemRead q n) s = .next { s with outbox := s.outbox ++ [.hostData q ((List.range n).map fun i =>
    if hostReaches s (q + i) then readByte s (bulkBase + q + i) else 0xFF)] }) ∧
  (∀ s q bs, ∃ t, exec (.hostMemWrite q bs) s = .next t ∧ t = { s with mem := t.mem } ∧
    (∀ i, i < bs.length → hostReaches s (q + i) → readByte t (bulkBase + q + i) = bs.getD i 0) ∧
    ∀ a, (∀ i, i < bs.length → hostReaches s (q + i) → a ≠ bulkBase + q + i) → readByte t a = readByte s a) ∧
  (∀ s p, asidOwned s p (selectedAsid s p) → exec (.asidgenAdv p) s = .next (advanceGen s (selectedAsid s p))) ∧
  (∀ s p, exec (.fbpendRead p) s = .next { (readFbpend s p).1 with
    outbox := (readFbpend s p).1.outbox ++ [.hostReg p (readFbpend s p).2] }) ∧
  (∀ s p v, exec (.irqenWrite p v) s = .next { modPart s p (fun q => { q with irqen := v &&& 0x1F }) with
    outbox := s.outbox ++ ([0, 1, 2, 3, 4].filter fun b =>
      BitVec.getLsbD v b && !(partAt s p).irqen.getLsbD b && (partAt s p).irq.getLsbD b).map fun b => .msix (8 * p + b) }) ∧
  (∀ s p slots tokens, ∃ t, exec (.qosSet p slots tokens) s = .next t ∧
    (partAt t p).slots = slots ∧ (partAt t p).tokens = tokens ∧ SameMemory s t)

/-- R207, R397, R398, R420, R422 to R433: other modules, the photonic crossbar, power and bring-up. The
inputs of the power governor, what a module reset keeps, that this module's units meet another module's memory as its answers left it, where
multicasts and passing messages come from, that what leaves stands in the outbox, that a message meets the table's DOWN only where it enters
a dimension, by whose routing table an answer to another module leaves, and how the training's finding of a port without a partner comes in
are the model's choice (log 9, 37, 38, 39, 49, 52, 53, 63). -/
def Obligations.FabricAndPowerEventsAct : Prop :=
  (∀ s id q r, Tab.get? s.remote id = some q →
    let s1 := { s with remote := Tab.del s.remote id }
    let s2 := if q.module = s.moduleNo.toNat || !physOk q.pa then s1 else mirror s1 q r
    (∀ k tr, trainByUid s2 q.uid = some (k, tr) → awaits tr id →
      let s3 := modTrain s2 k fun t => { t with replies := Tab.put t.replies q.tid r }
      let t := (waitersOf s3 id).foldl settleRemote s3
      exec (.remoteResponse id r) s = .next t ∧ (r = .error → exec (.messageDiscard id) s = .next t)) ∧
    (trainByUid s2 q.uid = none → exec (.remoteResponse id r) s = .next ((waitersOf s2 id).foldl settleRemote s2)) ∧
    (∀ bs, mirror s1 { q with op := .write bs } (.data []) = writeBytes s1 (farPa s q.module q.pa) bs) ∧
    mirror s1 q .error = s1) ∧
  (∀ s m pa op, reachable s pa → reachable s (pa + remoteSize op - 1) →
    (discards (performRemote s pa op).2 (pmapByte (performRemote s pa op).2 pa % 64) m none = false →
      exec (.remoteAccessRequest m pa op) s = .next { (performRemote s pa op).2 with
        outbox := (performRemote s pa op).2.outbox ++
          [.fabric (headerTo (performRemote s pa op).2 (pmapByte (performRemote s pa op).2 pa % 64) m (.rsp (performRemote s pa op).1))
            (.rsp (performRemote s pa op).1)] }) ∧
    (discards (performRemote s pa op).2 (pmapByte (performRemote s pa op).2 pa % 64) m none = true →
      exec (.remoteAccessRequest m pa op) s = .next (performRemote s pa op).2)) ∧
  (∀ s p m d (came : Option Hop), let own := coordsOf s.moduleNo.toNat
    let c := (coordsOf m).getD d 0
    d < 4 → own.getD d 0 ≠ c → (∀ e, e < d → own.getD e 0 = (coordsOf m).getD e 0) →
    let b := Tab.read 0 s.routes (112 * p + [0, 32, 64, 96].getD d 0 + c)
    (routeDown s p m = b.getLsbD 1) ∧
    ((∀ h, came = some h → h.dim ≠ d) → nextHop s p m came = some { dim := d, minus := b.getLsbD 0, channel := 0 }) ∧
    (∀ h, came = some h → h.dim = d → nextHop s p m came = some { h with channel := if Hop.crossed s h then 1 else h.channel })) ∧
  (∀ s p m came, coordsOf s.moduleNo.toNat = coordsOf m → nextHop s p m came = none ∧ discards s p m came = false) ∧
  (∀ s p m came hop, nextHop s p m came = some hop →
    (discards s p m came ↔ (entersDim s m came ∧ routeDown s p m) ∨ s.lone.getLsbD hop.port)) ∧
  (∀ s lone, takeTurn s (.links lone) = .next (if s.super.fabReady then s else { s with lone := lone })) ∧
  (∀ d ch, Hop.port { dim := d, minus := false, channel := ch } = 2 * d ∧ Hop.port { dim := d, minus := true, channel := ch } = 2 * d + 1) ∧
  (∀ s (h : FabHeader) tag hop, nextHop s h.part h.dest h.hop = some hop →
    (discards s h.part h.dest h.hop = false →
      takeTurn s (.transit h tag) = .next { s with outbox := s.outbox ++ [.passed { h with hop := some hop } tag] }) ∧
    (discards s h.part h.dest h.hop → takeTurn s (.transit h tag) =
      .next (if h.cls = .req then sendFabric s h.part h.source (.rsp .error) else s))) ∧
  (∀ s i m, s.casts[i]? = some m → exec (.collMulticast i) s = .next { s with
    casts := s.casts.eraseIdx i
    outbox := s.outbox ++ ((m.ports.foldl (fun l p => insertPort p l) []).filter fun p => !s.lone.getLsbD p).map fun p =>
      Out.forwarded p m.tag }) ∧
  (∀ s t0 dt n, n ≠ 0 → (s.staggered → s.stagT0 ≤ t0) → exec (.stagger t0 dt n) s = .next { s with
    stagT0 := t0, staggered := true
    super := { s.super with resume := t0 + BitVec.ofNat 64 (s.moduleNo.toNat % BitVec.toNat n * BitVec.toNat dt) } }) ∧
  (∀ s, let late := { s with super := { s.super with ftime := s.super.resume } }
    let woken := wakeFreed (if s.super.ftime < s.super.resume then late else s)
    exec .staggerResume s = .next (woken.joins.foldl (fun t e => wakeJoin t e.1) woken)) ∧
  (∀ s w rest, s.wakes = w :: rest →
    wakeFreed s = rest.foldl (fun t v => finishWaits t (.jwait v.slot v.gen) v.status)
      (finishWaits { s with wakes := [] } (.jwait w.slot w.gen) w.status)) ∧
  (∀ s j jn, Tab.get? s.joins j = some jn →
    ((jn.remote ∨ jn.proxy) → s.super.ftime < s.super.resume → wakeJoin s j = freeJoin s j) ∧
    (jn.state ≠ 1 → jn.awake = false → s.super.resume ≤ s.super.ftime →
      wakeJoin s j = freeJoin (finishWaits (modJoin s j fun y => { y with awake := true })
        (.jwait j (Tab.read 0 s.joinGen j).toNat) (joinStatus jn)) j)) ∧
  (∀ s e w, exec (.flitRetransmit e w) s = .next (modWave { s with outbox := s.outbox ++ [.flit e w] } e w fun x =>
    { x with resent := x.resent + 1 })) ∧
  (∀ s e w, retraining s e < 4 → (waveAt s e w).retraining = false →
    exec (.wavelengthWithdraw e w) s = .next (modWave s e w fun x =>
      { x with retraining := true, retrainings := x.retrainings + 1 })) ∧
  (∀ s e w, exec (.wavelengthReturn e w) s = .next (modWave s e w fun x => { x with retraining := false })) ∧
  (∀ s d f, exec (.powerInterval d f) s = .next { s with super := govern s.super d f }) ∧
  (∀ s, s.super.attAddr.toNat + 256 ≤ nearEnd →
    let body := reportBody s (readBytes s s.super.attAddr.toNat 32)
    exec .attestationReport s = .next { writeBytes s (s.super.attAddr.toNat + 64)
      (body ++ bigEndian (Config.signP256 (sha256 body)).toNat 64) with attest := s.attest + 1 }) ∧
  (∀ s addr t, newRoutes { s with super := { s.super with rtAddr := BitVec.ofNat 56 (BitVec.toNat addr) } }
      (bitsAt (BitVec.toNat addr) 0 56) = some t →
    exec (.routingTableSwap addr) s = .next { s with
      routes := t, super := { s.super with rtAddr := BitVec.ofNat 56 (BitVec.toNat addr), rtStat := 1 } }) ∧
  (∀ s, exec .opticalTrainingDone s = .next { s with super := leaveLimp { s.super with optReady := true } }) ∧
  (∀ s, exec .bulkTrainingDone s = .next { s with super := leaveLimp { s.super with bulkReady := true } }) ∧
  (∀ s, exec .fabricTrainingDone s = .next { s with moduleNo := Config.moduleNumber, super := { s.super with fabReady := true } }) ∧
  (∀ s, ∃ t, exec .moduleReset s = .next t ∧ t.trains = [] ∧ t.wgs = [] ∧ t.parts = [] ∧ t.super.limp = true ∧
    t.super.boot = bootStatus ∧ t.moduleNo = 0 ∧ t.mem = s.mem ∧ t.attest = s.attest)

/-- R47, R49, R51, R186, R252: what a completion leaves. Its results stand in D, its flags are set, the latches shift, the chain goes on
and the PC advances; with a jump the threads take the PCs it gives and a selection follows; with a trap the trap follows. R198: a push performs
the earlier accesses of its train first, so its state is that after them. -/
def Obligations.ACompletionLeavesItsResults : Prop :=
  ∀ (i : Instr) x wide k s tr (lanes : List Nat) (val : Nat → Dword) (d : Done), train? s k = some tr → DstFits x.d lanes →
    d.vals = lanes.map (fun l => (l, val l)) → d.latch = none →
    let s0 := pushRelease s k x d.vals
    ∃ tr0 tr', train? s0 k = some tr0 ∧ ((∀ n, x.d ≠ .q n) → s0 = s) ∧
      TrainAfter i x wide lanes val d.flags d.load.toList tr0 tr' ∧
      let after := match d.jump with
        | none => tr'
        | some f => selectWith { tr' with pc := tr0.pc } fun l => if tr0.selected.getLsbD l then f l else pcOf tr0 l
      let t := putTrain (pushResults s0 tr0 x wide d.vals) k after
      complete i x wide k tr.pc s d = match d.trap with
        | none => t
        | some r => raiseAfter t k r

/-- R36, R48, R69, R186, R234, R261, R352: an instruction whose checks pass, whose sources carry no mark and await no answer to a join arrival,
which touches no outstanding load and names no queue goes on to its meaning at once, for the selected threads whose guard holds. A mark or
an owed answer holds back no U = 1 instruction whose guard fails. -/
def Obligations.NothingElseHoldsAnInstructionBack : Prop :=
  ∀ (i : Instr) x s k tr, s.current = some k → train? s k = some tr → issueCheck tr i x = none →
    (x.u → execMask tr x = 0 → markedSource tr i x = none ∧ owedResult tr i x = false) ∧
    (markedSource tr i x = none → owedResult tr i x = false → (∀ ld ∈ tr.loads, mustReturn i x ld = false) →
    (∀ n, x.d ≠ .q n ∧ x.a ≠ .q n ∧ x.b ≠ .q n ∧ x.c ≠ .q n) →
    ∃ c, Ready i x s k c s ∧ c.tr = tr ∧ c.k = k ∧ c.x = x ∧
      ∀ l, c.mask.getLsbD l = (tr.selected.getLsbD l && (guardMask tr x).getLsbD l))

/-- R48, R52, R54, R69: the checks of an issue come in the order of the table; the first that fails raises its trap, and the
instruction has no effect. -/
def Obligations.FailingChecksTrapInTheirOrder : Prop :=
  ∀ (i : Instr) x wide s k tr (body : Ctx → State → Res), s.current = some k → train? s k = some tr →
    let stop := fun (r : TrapRec) => issue i x wide s body = .next (raiseAt s k (chainHead tr x) { r with pc := tr.pc })
    (isPrivileged i → tr.priv = false → stop (trapOf 3 1)) ∧
    (isPrivileged i = false ∨ tr.priv → beyondDeclared tr x → stop (trapOf 2 9)) ∧
    (isPrivileged i = false ∨ tr.priv → beyondDeclared tr x = false → breaksChain tr i x → stop (trapOf 2 10))

/-- R69, R376: `eret`, `mtsr`, `tlbi`, `trapq`, `ctxs` and `ctxl` are privileged, `svc` and `mfsr` are not; in a user train each
privileged instruction takes the privilege trap, at its fetch and at its issue, and `mfsr` takes it for a register whose Read
entry is not User. -/
def Obligations.PrivilegedInstructionsTrapInUserTrains : Prop :=
  (∀ (i : Instr) opc m x, i.form = some (opc, m, x) →
    (isPrivileged i = true ↔ opc ∈ [0xF9, 0xFB, 0xFC, 0xFD, 0xFE, 0xFF])) ∧
  (∀ x, isPrivileged (.svc x) = false ∧ isPrivileged (.mfsr x) = false ∧
    (∀ opc ∈ [0xF9, 0xFB, 0xFC, 0xFD, 0xFE, 0xFF], ∀ i m, build opc m x = some (some i) → i = .eret x ∨ i = .mtsr x ∨ i = .svcret x ∨
      i = .texitFault x ∨ i = .texitTerminate x ∨ i = .tlbiPage x ∨ i = .tlbiAsid x ∨ i = .tlbiPart x ∨ i = .trapq x ∨ i = .ctxs x ∨
      i = .ctxl x)) ∧
  (∀ (i : Instr) opc m x, i.form = some (opc, m, x) → isPrivileged i = true →
    (∀ s k tr, s.current = some k → train? s k = some tr → tr.priv = false →
      exec i s = .next (raiseAt s k (chainHead tr x) { kind := 3, cause := 1, pc := tr.pc })) ∧
    (∀ (pc : Dword) bs rest n, decode bs = .ok (i, rest) → lenBytes ((bs.headD 0).toNat % 4) = some n →
      pc.toNat % 32 + n ≤ 32 →
      fetchChecks false pc bs = .error 5 ∧ fetchChecks true pc bs = .ok i)) ∧
  (∀ (c : Ctx) n (r : RegInfo), regInfo n = some r → r.read ≠ .user → c.tr.priv = false →
    regCheck c n (·.read) = .error { kind := 3, cause := 3 }) ∧
  (∀ x s k c s' r, Ready (.mfsr x) x s k c s' → c.on → regCheck c (sysNumber c) (·.read) = .error r →
    exec (.mfsr x) s = .next (raiseAt s' k c.head { r with pc := c.tr.pc }))

/-- R51, with R52 and R53: an instruction that names a latch is a member of the chain of the instruction before it, any other heads a chain of
its own; instructions of classes 0x70 to 0xFF, and those that name a `q` or `t` operand, are terminal, and nothing may follow one in its
chain. That an instruction which names a latch behind no member (after a delivery, an `eret` or a restoration) heads a chain of its own, as
the last clause has it and the first leaves out, is the model's reading (log 18). -/
def Obligations.ChainsFollowTheLatches : Prop :=
  ∀ (i : Instr) opc m x, i.form = some (opc, m, x) →
    let names := ∃ n, x.a = .b n ∨ x.b = .b n ∨ x.c = .b n
    let last := 0x70 ≤ opc ∨ ∃ n n', x.d = .q n ∨ x.a = .q n ∨ x.b = .q n ∨ x.c = .q n ∨ x.d = .t n' ∨ x.a = .t n' ∨ x.b = .t n' ∨ x.c = .t n'
    (∀ ch pc, ch.len ≠ 0 → names → (nextChain ch i x pc).head = ch.head ∧ (nextChain ch i x pc).len = ch.len + 1) ∧
    (∀ ch pc, ¬names → (nextChain ch i x pc).head = pc ∧ (nextChain ch i x pc).len = 1) ∧
    (∀ ch pc, (nextChain ch i x pc).terminal = true ↔ last) ∧
    (∀ tr : Train, tr.chain.terminal = true → names → breaksChain tr i x = true) ∧
    (∀ tr : Train, chainHead tr x = if namesLatch x ∧ tr.chain.len ≠ 0 then tr.chain.head else tr.pc)

/-- R380: the delivery of an exact trap saves what the threads stood at, makes the train privileged and sends every thread that
has not exited to the handler; a held thread stays counted as arrived. R382: an exact trap in a handler ends the train's workgroup as
faulted with FKIND 13 and FCAUSE the kind of that trap, and sets IRQ.DOUBLE. -/
def Obligations.AnExactTrapEntersTheHandler : Prop :=
  (∀ s k r, takeTrap s k r = takeTrapAs s k r r.async) ∧
  (∀ s k tr (r : TrapRec), train? s k = some tr → tr.intrap = false → tr.tq = [] →
    ∃ tr', train? (takeTrapAs s k r false) k = some tr' ∧ tr'.tq = [r] ∧
      tr'.ppriv = tr.priv ∧ tr'.priv = true ∧ tr'.intrap = true ∧ tr'.xg = xgOf tr ∧ tr'.flags = 0 ∧
      tr'.pc = (partAt s tr.part).tvec &&& ~~~(3 : Dword) ∧ tr'.selected = ~~~tr.exited ∧ tr'.exited = tr.exited ∧
      tr'.heldBar = 0 ∧ tr'.heldGbar = 0 ∧ tr'.block = none ∧
      (∀ l, l < 64 → tr.exited.getLsbD l = false →
        tr'.xbar.getLsbD l = decide (laneState tr l = 2) ∧ tr'.xgbar.getLsbD l = decide (laneState tr l = 3) ∧
        Tab.read 0 tr'.xpc l = BitVec.ofNat 64 ((pcOf tr l).toNat % 2 ^ 48) ∧
        Tab.read 0 tr'.xstate l = laneState tr l ∧
        ∀ n, 0 < n → n < 8 → (Tab.read 0 tr'.xk n).getLsbD l = (rdK tr n).getLsbD l) ∧
      (∀ r l, regAt tr' r l = regAt tr r l) ∧
      OtherTrains k s (takeTrapAs s k r false) ∧ SameMemory s (takeTrapAs s k r false)) ∧
  (∀ s k tr (r : TrapRec), train? s k = some tr → tr.intrap →
    takeTrapAs s k r false = endFaulted (setIrq s tr.part 2) k 13 r.kind r.pc ∧
    (partAt (setIrq s tr.part 2) tr.part).irq.getLsbD 2 ∧
    ∀ l y (f : FaultInfo), launch? s l = some y → y.ffault = none → ∃ y', launch? (recordFault s l f) l = some y' ∧ y'.ffault = some f)

/-- R163, R378: a trap without effect stands at its chain head and names the selected threads; one after its instruction stands
at the next instruction. A violation is logged. R379: a further record enters behind those held; while eight are held
it is discarded, and the last held one counts it. -/
def Obligations.TrapRecordsNameTheirThreadsAndResumePoint : Prop :=
  (∀ s k head (r : TrapRec) tr waits, train? s k = some tr → loggedCause r = false →
    raiseAt s k head r = raiseAtAs s k head r r.async ∧
    raiseAtAs s k head r waits = takeTrapAs (putTrain s k (clearRows (rewindTo tr head) r)) k
      { r with rpc := head, mask := if r.mask = 0 then tr.selected else r.mask } waits) ∧
  (∀ s k (r : TrapRec) tr, train? s k = some tr → loggedCause r = false →
    raiseAfter s k r = takeTrap s k { r with rpc := tr.pc, mask := if r.mask = 0 then tr.selected else r.mask }) ∧
  (∀ s k (r : TrapRec) tr, train? s k = some tr → loggedCause r →
    (partAt (logTrap s k r) tr.part).irq.getLsbD 1 ∧
    (partAt (logTrap s k r) tr.part).vloghead = (partAt s tr.part).vloghead + 1 ∧
    let q := partAt s tr.part
    let a := q.vlogbase.toNat + 32 * (q.vloghead.toNat % 2 ^ q.vlogsz.toNat)
    (q.vlogbase ≠ 0 → ownedBy s tr.part a → readMem (logTrap s k r) a 8 = r.addr.toNat)) ∧
  (∀ s k tr (r : TrapRec), train? s k = some tr → r.async →
    takeTrap s k r = putTrain s k { tr with tq := enqueueTrap tr.tq r }) ∧
  (∀ q r, q.length < 8 → enqueueTrap q r = q ++ [r]) ∧
  (∀ (q : List TrapRec) l r, q.length = 7 →
    enqueueTrap (q ++ [l]) r = q ++ [{ l with overrun := if l.overrun < 15 then l.overrun + 1 else 15 }])

/-- R381: `eret` removes the record, gives each thread its saved PC, state and predicates back and the train its flags, its `g`
flags and its mode; a further record is delivered at once from that state. R257, R258: the threads that the handler made HELD arrive by it,
so that it can complete a barrier of their workgroup; that they arrive then, and not as the handler writes XST, is the model's reading
(log 28). Left out: threads that the handler made EXITED (log 16), and a train without a workgroup whose handler made threads HELD. -/
def Obligations.EretRestoresWhatWasSaved : Prop :=
  ∀ x s k c s', Ready (.eret x) x s k c s' →
    let live := fun l => l < 64 ∧ c.tr.exited.getLsbD l = false
    let code := fun l => Tab.read 0 c.tr.xstate l
    let newlyHeld := ∃ l, live l ∧ (code l = 2 ∧ c.tr.xbar.getLsbD l = false ∨ code l = 3 ∧ c.tr.xgbar.getLsbD l = false)
    (c.on = false → EndsWith (.eret x) x false s c s' {}) ∧
    (c.on → c.tr.intrap = false → exec (.eret x) s = .next (raiseAt s' k c.head { kind := 1, cause := 11, pc := c.tr.pc })) ∧
    (c.on → c.tr.intrap → c.tr.tq ≠ [] → (∀ l, live l → code l ≠ 4) →
      ∃ t tr', train? t k = some tr' ∧
        tr'.tq = c.tr.tq.drop 1 ∧ tr'.intrap = false ∧ tr'.priv = c.tr.ppriv ∧ tr'.exited = c.tr.exited ∧
        (∀ b, b < 7 → tr'.flags.getLsbD b = c.tr.xg.getLsbD (b + 8)) ∧
        (∀ n, 0 < n → n < 8 → rdG tr' n = c.tr.xg.getLsbD n) ∧
        (∀ l, live l →
          pcOf tr' l = Tab.read 0 c.tr.xpc l ∧
          tr'.heldBar.getLsbD l = decide (code l = 2) ∧ tr'.heldGbar.getLsbD l = decide (code l = 3) ∧
          ∀ n, 0 < n → n < 8 → (rdK tr' n).getLsbD l = (Tab.read 0 c.tr.xk n).getLsbD l) ∧
        (∀ r l, (∀ n, r ≠ .k n) → (∀ n, r ≠ .g n) → regAt tr' r l = regAt c.tr r l) ∧
        OtherTrains k s t ∧ SameMemory s t ∧
        (¬newlyHeld → c.tr.tq.length = 1 → exec (.eret x) s = .next t) ∧
        (¬newlyHeld → 2 ≤ c.tr.tq.length → exec (.eret x) s = .next (deliverFrom t k code) ∧
          ∃ tr2, train? (deliverFrom t k code) k = some tr2 ∧ tr2.tq = c.tr.tq.drop 1 ∧ tr2.intrap = true ∧
            tr2.priv = true ∧ tr2.ppriv = c.tr.ppriv ∧ tr2.pc = tvecOf s c.tr.part ∧ tr2.selected = ~~~c.tr.exited) ∧
        (∀ w tr2, newlyHeld → c.tr.wg = some w →
          let u := settleBarriers (touchBarriers t w) w
          train? u k = some tr2 →
            (c.tr.tq.length = 1 → exec (.eret x) s = .next u) ∧
            (2 ≤ c.tr.tq.length → exec (.eret x) s = .next (deliverFrom u k code))))

/-- R153, R154, R155, R157, R163, R164: an access reaches a byte of this module exactly where every check passes, and a misaligned
one that passes the others is refused. The order of the causes is a reading (log 15). R413: the owner that is checked is the one that the
partition map gave when the translation was made, and a translation made now has the one that it gives now (log 19).
R154, R164: a permitted access to a page of another module goes there, but for one that cannot be reached (log 39); one that names this
module is PART where the granule is another partition's (R393). R153, R156, R157: a walk goes from the root by the fields of the address; an entry with V = 0 stops it with a translation fault at that
entry, and a leaf of the second level maps a page of 1 GiB. R155: the slice and the offset within it tell the bytes of a region apart, and a
slice has 512 MiB of near and 12 GiB of bulk memory. -/
def Obligations.AccessesReachMemoryWhereEveryCheckPasses : Prop :=
  (∀ s p (priv : Bool) acc (va : Dword) align (t : Trans) pa,
    let e := t.leaf.toNat
    let kind := bitsAt e 6 2
    let base := entryAddr e
    let passes := (∀ b ∈ (match acc with | .load => [2] | .store => [3] | .fetch => [4] | .rmw => [2, 3]), bitsAt e b 1 = 1) ∧
      (bitsAt e 5 1 = 1 → priv = true) ∧ kind ≠ 3 ∧ (kind = 0 → base + t.size ≤ nearEnd) ∧
      (kind ≠ 0 → bulkBase ≤ base ∧ base + t.size ≤ bulkEnd) ∧ reachable s (base + va.toNat % t.size) ∧
      bitsAt t.owner 6 1 = 1 ∧ t.owner % 64 = p
    let aligned := align = 0 ∨ va.toNat % align = 0
    let m := bitsAt e 45 19
    (kind = 3 → (∀ b ∈ (match acc with | .load => [2] | .store => [3] | .fetch => [4] | .rmw => [2, 3]), bitsAt e b 1 = 1) →
      (bitsAt e 5 1 = 1 → priv = true) → s.super.limp = false →
      let home := m = s.moduleNo.toNat ∧ reachable s (base + va.toNat % t.size)
      let owned := bitsAt t.owner 6 1 = 1 ∧ t.owner % 64 = p
      (s.super.fabReady → m ∉ s.mute → discards s p m none = false → (home → owned) → aligned →
        checkLeaf s p priv acc va align t = .remote m (base + va.toNat % t.size)) ∧
      (s.super.fabReady → m ∉ s.mute → discards s p m none = false → home → ¬owned → checkLeaf s p priv acc va align t = .bad 2) ∧
      (s.super.fabReady = false ∨ m ∈ s.mute ∨ discards s p m none → checkLeaf s p priv acc va align t = .bad 6)) ∧
    (checkLeaf s p priv acc va align t = .mem pa ↔ passes ∧ aligned ∧ pa = base + va.toNat % t.size) ∧
    (passes → ¬aligned → checkLeaf s p priv acc va align t = .bad 4)) ∧
  (∀ s tr acc va align, canonicalVa va = false → access s tr acc va align = (s, .bad 3)) ∧
  (∀ s tr acc va align pa, (access s tr acc va align).2 = .mem pa → ∃ t : Trans,
    (t ∈ (coreAt s tr.core).utlb ∧ t.covers tr.asid va.toNat ∨ walk s tr.asid va = .leaf t) ∧
    checkLeaf s tr.part tr.priv acc va align t = .mem pa) ∧
  (∀ s tr acc va align, SameButCores s (access s tr acc va align).1) ∧
  (∀ pa, sliceOf pa = sliceAt (regionRel pa) ∧ sliceOffset pa = offsetAt (regionRel pa) ∧ sliceOf pa < 64 ∧
    (pa < nearEnd → regionRel pa = pa ∧ sliceOffset pa < 2 ^ 29) ∧
    (bulkBase ≤ pa → pa < bulkEnd → regionRel pa + bulkBase = pa ∧ sliceOffset pa < 12 * 2 ^ 30)) ∧
  (∀ p q, physOk p → physOk q → (p < nearEnd ↔ q < nearEnd) → sliceOf p = sliceOf q → sliceOffset p = sliceOffset q → p = q) ∧
  (∀ s asid (va : Dword), (Tab.read 0 s.roots asid).getLsbD 0 →
    let root := bitsAt (Tab.read 0 s.roots asid).toNat 16 29 * 2 ^ 16
    let a1 := root + 8 * bitsAt va.toNat 43 13
    let e1 := readMem s a1 8
    let a2 := entryAddr e1 + 8 * bitsAt va.toNat 30 13
    let e2 := readMem s a2 8
    let table := fun e => e % 2 = 1 ∧ bitsAt e 1 1 = 0 ∧ bitsAt e 45 19 = 0
    (reachable s a1 → e1 % 2 = 0 → walk s asid va = .fault a1) ∧
    (reachable s a1 → e1 % 2 = 1 → bitsAt e1 1 1 = 1 → walk s asid va = .bad 5) ∧
    (reachable s a1 → table e1 → entryAddr e1 % 2 ^ 16 = 0 → reachable s a2 →
      (e2 % 2 = 0 → walk s asid va = .fault a2) ∧
      (e2 % 2 = 1 → bitsAt e2 1 1 = 1 → entryAddr e2 % 2 ^ 30 = 0 → bitsAt e2 45 19 = 0 ∨ bitsAt e2 6 2 = 3 →
        walk s asid va = .leaf { asid := asid, page := va.toNat / 2 ^ 30 * 2 ^ 30, size := 2 ^ 30, leaf := BitVec.ofNat 64 e2
                                 granule := va.toNat % 2 ^ 30 / 2 ^ 21, owner := pmapByte s (entryAddr e2 + va.toNat % 2 ^ 30) })))

/-- R159, R161: a translation fault parks the train in the Siding with an entry of its cluster's fault buffer, and the partition's
interrupt bit for it is set. -/
def Obligations.TranslationFaultsPark : Prop :=
  ∀ s k tr head va kind pte pc skip mask i, train? s k = some tr →
    (∀ e ∈ s.faults, e.2.pte ≠ pte) → Tab.firstFree s.faults 1024 (tr.core / 4 * 1024) = some i →
    ∃ f, Tab.get? (park s k head va kind pte pc skip mask).faults i = some f ∧ f.va = va ∧ f.asid = tr.asid ∧ f.kind = kind ∧
      f.part = tr.part ∧ f.core = tr.core % 4 ∧ f.slot = tr.slot ∧ f.status = 0 ∧ f.links = 1 ∧
      train? (park s k head va kind pte pc skip mask) k = some { rewindTo tr head with block := some (.fault i va pc skip mask) } ∧
      (partAt (park s k head va kind pte pc skip mask) tr.part).irq.getLsbD 0 ∧
      SameMemory s (park s k head va kind pte pc skip mask)

/-- R163: a load that meets violations gives the violating threads zero, a store drops theirs; the other threads perform their
accesses, and the access-violation trap follows the instruction. -/
def Obligations.ViolatingThreadsLoadZeroAndTrapAfterwards : Prop :=
  (∀ x t sc s k c s' l s2, Ready (.ld x t sc) x s k c s' → extOrder x ≠ 1 → c.tr.access = none →
    translateAll s' c.tr .load (tyBytes t) (c.lanes.map fun l => (l, globalAddr c sc.val true l)) = (s2, .ok l) →
    (∀ e ∈ l, (∃ pa, e.2.2 = .mem pa) ∨ ∃ cause, e.2.2 = .bad cause) → c.tr.loads.length < 16 →
    EndsWith (.ld x t sc) x t.wide s c (clearReplies s2 k)
      { vals := l.filterMap fun e => match e.2.2 with | .bad _ => some (e.1, 0) | _ => none
        load := if localPlaces l = [] then none else some { u := x.u, dst := x.d, ty := t, parts := localPlaces l }
        trap := violationTrap c (violations c.tr.replies l) }) ∧
  (∀ x t sc s k c s' l s2, Ready (.st x t sc) x s k c s' → extOrder x ≠ 2 → c.tr.access = none →
    translateAll s' c.tr .store (tyBytes t) (c.lanes.map fun l => (l, globalAddr c sc.val false l)) = (s2, .ok l) →
    (∀ e ∈ l, (∃ pa, e.2.2 = .mem pa) ∨ ∃ cause, e.2.2 = .bad cause) →
    EndsWith (.st x t sc) x false s c
      (issueStores (clearReplies s2 k) k (tyBytes t) (extHint x = 2) (fun l => (rdOpnd c x.c t l).toNat) (localPlaces l))
      { trap := violationTrap c (violations c.tr.replies l) }) ∧
  (∀ (c : Ctx) tid va cause rest, violationTrap c ((tid, va, cause) :: rest) = some
    { kind := 4, cause := cause, pc := c.tr.pc, addr := va
      mask := if c.x.u then 0 else maskOf fun t => decide (tid = t) || rest.any fun e => e.1 = t })

/-- R178, R184, R191, R195: a release performs every earlier access of its train: nothing of it stays outstanding, and memory holds
what the train itself read before. That it does so within its own step
is the model's choice (log 11). -/
def Obligations.AReleasePerformsEveryEarlierAccess : Prop :=
  ∀ s k tr, train? s k = some tr →
    (∃ tr', train? (performEarlier s k) k = some tr' ∧ tr'.loads = [] ∧ tr'.stores = []) ∧
    (∀ a, readByte (performEarlier s k) a = overlay tr.stores s a) ∧
    OtherTrains k s (performEarlier s k)

/-- R8, R406, R407, R414, R420, R432: what module reset leaves, for every register of a partition page, of the supervisor window, of
every ASID and for IDENT, whose reset value the spec states; FBPEND reads 0. -/
def Obligations.ResetLeavesTheStatedValues : Prop :=
  let s := Machine.State.reset
  (∀ p, let q := partAt s p
    q.tvec = 0 ∧ q.svcring = 0 ∧ q.swthr = 256 ∧ q.qstall = 0 ∧ q.bstall = 0 ∧ q.tslice = 0x100000 ∧ q.drainmax = 0x10000 ∧
    q.depot = 0 ∧ q.depotsz = 0 ∧ q.wpool = 0 ∧ q.wpoolsz = 0 ∧ q.wpoolva = 0 ∧ q.stage = 0 ∧ q.stagesz = 0 ∧ q.spill = 0 ∧
    q.spillsz = 0 ∧ q.vlogbase = 0 ∧ q.vloghead = 0 ∧ q.vlogsz = 0 ∧ q.fbsel = 0 ∧ q.asidsel = 0 ∧ q.irq = 0 ∧ q.irqen = 0 ∧
    q.slots = 1 ∧ q.tokens = 1 ∧ readPartReg s p 0x53 = (s, 0) ∧
    ∀ sup, let x := queueOf q sup
      x.base = 0 ∧ x.size = 0 ∧ x.asid = 0 ∧ x.tail = 0 ∧ x.head = 0 ∧ x.state = 0 ∧ x.err = 0) ∧
  (∀ asid, Tab.read 0 s.roots asid = 0 ∧ Tab.read 0 s.agens asid = 0) ∧
  (let ident := (identWord s).toNat
   bitsAt ident 0 8 = 1 ∧ bitsAt ident 16 16 = 0x0192 ∧ bitsAt ident 32 19 = 0 ∧ bitsAt ident 51 13 = 0) ∧ s.moduleNo = 0 ∧
  s.super.limp = true ∧ s.super.optReady = false ∧ s.super.bulkReady = false ∧ s.super.fabReady = false ∧
  s.super.short = false ∧ s.super.boot = 0 ∧ s.super.ftime = 0 ∧ s.super.pwrRise = 0 ∧ s.super.pwrFall = 0 ∧
  s.super.pwrNow = 0 ∧ s.super.fillerE = 0 ∧ s.super.rpart = 0 ∧ s.super.rmode = false ∧ s.super.resets = [] ∧ s.super.qpart = 0 ∧
  s.super.qslots = 1 ∧ s.super.qtokens = 1 ∧ s.super.attAddr = 0 ∧ s.super.rtAddr = 0 ∧ s.super.rtStat = 0 ∧ s.super.resume = 0

/-- R20, R48, R172, R189, R252: when the agenda names a train that its pipe issues for, and the bytes at its PC reach its core's fetch, pass the
checks and decode to `i`, the step is `i` at the state of the fetch, with the train marked as the one issued; what a bound makes due
comes before. A train that a handler's return brought back to a wait that stands goes on with that wait, and one whose requests to other modules are
answered with the instruction that made them. That the agenda says whose turn it
is, that a step takes one cycle, and how these go on are the model's choice (log 2, 3, 28, 39). -/
def Obligations.AStepRunsTheDecodedInstruction : Prop :=
  ∀ (s : State) k rest tr tr' pa ln s3 i,
    (overdue s).agenda = .issue k :: rest →
    let s0 := { overdue s with agenda := rest }
    train? s0 k = some tr → pipeChoice s0 (pipeOfKey k) = some k →
    let s1 := issueState s0 k tr
    train? s1 k = some tr' → (∀ a, dueAside tr' = some a → step s = tick (.next (resumeAside s1 k a))) ∧
    (∀ a, dueAside tr' = none → tr'.access = some a → step s = tick (exec a.instr (resumeAccess s1 k a))) ∧
    (dueAside tr' = none → tr'.access = none → tr'.pc.toNat % 4 = 0 →
    let s2 := (access s1 tr' .fetch tr'.pc 0).1
    fetchPlace s2 tr' tr'.pc = .mem pa → lineAt s2 tr' (pa / 256) = some (ln, s3) →
    fetchChecks tr'.priv tr'.pc (lineWindow ln pa) = .ok i →
    step s = tick (exec i s3) ∧ s1.current = some k ∧
    (∀ t, exec i s3 = .next t → step s = .next { t with clk := t.clk + 1, current := none }) ∧
    ∃ left, decode (lineWindow ln pa) = .ok (i, left))

/-- R35 to R48: words written out from the encoding tables decode to the instructions that they stand for, one of each family. -/
def Obligations.WordsOfTheSpecDecode : Prop :=
  let lane : Args :=
    { u := false, nwb := false, kg := 0, kn := false, d := .zero, a := .zero, b := .zero, c := .zero, ext := .short }
  let train : Args := { lane with u := true }
  decodeTableWord 64 0x1200C02004040014 = some (.mad { lane with d := .v 4, a := .v 1, b := .v 2, c := .v 3 } .s32 true) ∧
  decodeTableWord 64 0x095C00751170A888 = some
    (.fmul { lane with nwb := true, kg := 2, kn := true, a := .o 4, b := .v 7 } .f32 .rn ⟨false, false⟩) ∧
  decodeTableWord 64 0x9C5C201008040100 = some (.cvt { lane with d := .v 4, a := .v 2, b := .imm 1 } .d8 .f32) ∧
  decodeTableWord 64 0x095C17000D040540 = some (.red { train with d := .s 4, a := .v 3 } .f32 .add) ∧
  decodeTableWord 64 0x22840064080401C0 = some (.ld { lane with d := .v 4, a := .s 2, b := .v 6, c := .imm 16 } .s32 2) ∧
  decodeTableWord 64 0x065C003408050240 = some (.atom { lane with d := .v 5, a := .s 2, b := .v 3 } .n32 .add) ∧
  decodeTableWord 96 0x00000400005C170801610681 = some (.qbind { train with d := .q 1, a := .imm 0, ext := .imm 0x400 }) ∧
  decodeTableWord 64 0x005C1708197092C0 = some (.bra { lane with kg := 1, kn := true, a := .imm 6 }) ∧
  decodeTableWord 64 0x0C61D06615C40710 = some (.mmaTile { train with d := .a 4, a := .t 5, b := .s 6, c := .t 7 } .d8) ∧
  decodeTableWord 64 0x005C202011700354 = some (.wemit { lane with a := .v 4, b := .imm 2 }) ∧
  decodeTableWord 96 0x000000FF015C2645C1040781 = some (.tfetchTask { train with d := .s 4, b := .imm 100, ext := .imm 0xFF }) ∧
  decodeTableWord 64 0x0801C0640D7003C4 = some (.xst { lane with a := .s 3, b := .v 6, c := .v 7 } false) ∧
  decodeTableWord 64 0x005C0048097003EC = some (.mtsr { lane with a := .imm 2, b := .v 4 })

/-- R35 to R48: decoding the encoding of a well-formed instruction gives it back, with nothing left over, and the rest of the
bytes after it. -/
def Obligations.DecodingAnEncodingGivesTheInstruction : Prop :=
  ∀ (i : Instr) rest, WellFormed i → i.form.isSome → decode (encodeBytes i ++ rest) = .ok (i, rest) ∧
    encodeBytes i = (encode i).flatMap fun w => bytesOf w.toNat 4

/-- R48: what decoding accepts is well formed, and its length is the one that the LEN field gives. -/
def Obligations.DecodedInstructionsAreWellFormed : Prop :=
  ∀ bs (i : Instr) rest, decode bs = .ok (i, rest) → WellFormed i ∧ i.form.isSome ∧
    ∃ b n, bs.head? = some b ∧ lenBytes (b.toNat % 4) = some n ∧ bs = encodeBytes i ++ rest ∧ (encodeBytes i).length = n

/-- The invariant of the model between steps: every step keeps memory in its canonical form and leaves no train being issued. -/
def Obligations.EveryStepKeepsTheMachineInForm : Prop :=
  ∀ s t : State, Between s → step s = .next t → Between t

/-- Right after reset memory is in its canonical form and no train is being issued. -/
def Obligations.ResetIsInForm : Prop :=
 Between Machine.State.reset
end

