-- ==== Sys2Proof/Laws/Tables.lean ====
section
/-! SUPPORT. Laws of the sparse tables: reading after writing, and that every operation keeps the canonical form. -/

namespace Sys2Proof.Tab
variable {α : Type}

@[simp] theorem get?_nil (k : Nat) : get? ([] : Tab α) k = none := rfl

@[simp] theorem get?_put_self (m : Tab α) (k : Nat) (v : α) : get? (put m k v) k = some v := by
  induction m with
  | nil => simp [put, get?]
  | cons e r ih =>
    obtain ⟨k', v'⟩ := e
    simp only [put]
    split
    · simp [get?]
    · split
      · simp [get?]
      · simp only [get?]; rw [if_neg (by assumption), ih]

theorem get?_put_ne (m : Tab α) {k j : Nat} (v : α) (h : j ≠ k) : get? (put m k v) j = get? m j := by
  induction m with
  | nil => simp [put, get?, h]
  | cons e r ih =>
    obtain ⟨k', v'⟩ := e
    simp only [put]
    split
    · simp [get?, h]
    · split
      · subst_vars; simp [get?, h]
      · simp only [get?, ih]

theorem get?_put (m : Tab α) (k j : Nat) (v : α) : get? (put m k v) j = if j = k then some v else get? m j := by
  by_cases h : j = k
  · subst h; simp
  · simp [get?_put_ne m v h, h]

@[simp] theorem get?_del_self (m : Tab α) (k : Nat) : get? (del m k) k = none := by
  induction m with
  | nil => rfl
  | cons e r ih =>
    obtain ⟨k', v'⟩ := e
    simp only [del]
    split
    · exact ih
    · simp only [get?]; rw [if_neg (by assumption), ih]

theorem get?_del_ne (m : Tab α) {k j : Nat} (h : j ≠ k) : get? (del m k) j = get? m j := by
  induction m with
  | nil => rfl
  | cons e r ih =>
    obtain ⟨k', v'⟩ := e
    simp only [del]
    split
    · subst_vars; simp [get?, h, ih]
    · simp only [get?, ih]

theorem get?_adjust (m : Tab α) (k j : Nat) (f : α → α) :
    get? (adjust m k f) j = if j = k then (get? m k).map f else get? m j := by
  unfold adjust
  cases h : get? m k with
  | none => by_cases hj : j = k <;> simp [hj, h]
  | some v => simp [get?_put]

/-! ## The canonical form -/

theorem risingFrom_mono {m : Tab α} : ∀ {a b : Nat}, a ≤ b → risingFrom b m = true → risingFrom a m = true := by
  cases m with
  | nil => intro a b _ _; rfl
  | cons e r =>
    intro a b hab h
    simp only [risingFrom, Bool.and_eq_true, decide_eq_true_eq] at h ⊢
    exact ⟨by omega, h.2⟩

theorem risingFrom_put {m : Tab α} {lo k : Nat} (v : α) (hk : lo ≤ k) (h : risingFrom lo m = true) :
    risingFrom lo (put m k v) = true := by
  induction m generalizing lo with
  | nil => simp [put, risingFrom, hk]
  | cons e r ih =>
    obtain ⟨k', v'⟩ := e
    simp only [risingFrom, Bool.and_eq_true, decide_eq_true_eq] at h
    simp only [put]
    split
    · simp only [risingFrom, Bool.and_eq_true, decide_eq_true_eq]; exact ⟨hk, by omega, h.2⟩
    · split
      · subst_vars; simp only [risingFrom, Bool.and_eq_true, decide_eq_true_eq]; exact ⟨hk, h.2⟩
      · simp only [risingFrom, Bool.and_eq_true, decide_eq_true_eq]
        exact ⟨h.1, ih (by omega) h.2⟩

theorem risingFrom_del {m : Tab α} {lo k : Nat} (h : risingFrom lo m = true) : risingFrom lo (del m k) = true := by
  induction m generalizing lo with
  | nil => rfl
  | cons e r ih =>
    obtain ⟨k', v'⟩ := e
    simp only [risingFrom, Bool.and_eq_true, decide_eq_true_eq] at h
    simp only [del]
    split
    · exact risingFrom_mono (by omega) (ih h.2)
    · simp only [risingFrom, Bool.and_eq_true, decide_eq_true_eq]; exact ⟨h.1, ih h.2⟩

theorem rising_put {m : Tab α} (k : Nat) (v : α) (h : rising m = true) : rising (put m k v) = true :=
  risingFrom_put v (Nat.zero_le k) h
theorem rising_del {m : Tab α} (k : Nat) (h : rising m = true) : rising (del m k) = true := risingFrom_del h

theorem mem_put {m : Tab α} {k : Nat} {v : α} {e : Nat × α} (h : e ∈ put m k v) : e ∈ m ∨ e = (k, v) := by
  induction m with
  | nil => simp [put] at h; exact .inr h
  | cons a r ih =>
    obtain ⟨k', v'⟩ := a
    simp only [put] at h
    split at h
    · simp at h; rcases h with h | h | h <;> simp_all
    · split at h
      · simp at h; rcases h with h | h <;> simp_all
      · simp at h
        rcases h with h | h
        · simp_all
        · rcases ih h with h | h <;> simp_all

theorem mem_del {m : Tab α} {k : Nat} {e : Nat × α} (h : e ∈ del m k) : e ∈ m := by
  induction m with
  | nil => exact h
  | cons a r ih =>
    obtain ⟨k', v'⟩ := a
    simp only [del] at h
    split at h
    · exact List.mem_cons_of_mem _ (ih h)
    · rcases List.mem_cons.1 h with h | h
      · simp [h]
      · exact List.mem_cons_of_mem _ (ih h)

theorem risingFrom_filter {m : Tab α} (p : Nat × α → Bool) : ∀ {lo : Nat}, risingFrom lo m = true →
    risingFrom lo (m.filter p) = true := by
  induction m with
  | nil => intro lo _; rfl
  | cons e r ih =>
    intro lo h
    simp only [risingFrom, Bool.and_eq_true, decide_eq_true_eq] at h
    rw [List.filter_cons]
    split
    · simp only [risingFrom, Bool.and_eq_true, decide_eq_true_eq]; exact ⟨h.1, ih h.2⟩
    · exact risingFrom_mono (by omega) (ih h.2)

section Defaults
variable [DecidableEq α]

/-- Reading what was written. -/
@[simp] theorem read_write_self (d : α) (m : Tab α) (k : Nat) (v : α) : read d (write d m k v) k = v := by
  unfold write read
  split <;> simp_all

/-- Writing leaves every other key alone. -/
theorem read_write_ne (d : α) (m : Tab α) {k j : Nat} (v : α) (h : j ≠ k) : read d (write d m k v) j = read d m j := by
  unfold write read
  split
  · rw [get?_del_ne m h]
  · rw [get?_put_ne m v h]

theorem read_write (d : α) (m : Tab α) (k j : Nat) (v : α) :
    read d (write d m k v) j = if j = k then v else read d m j := by
  by_cases h : j = k
  · subst h; simp
  · simp [read_write_ne d m v h, h]

/-- Reading after writing consecutive values. -/
theorem read_writeList (d : α) (vs : List α) : ∀ (m : Tab α) (k j : Nat),
    read d (writeList d m k vs) j = if k ≤ j ∧ j < k + vs.length then vs.getD (j - k) d else read d m j := by
  induction vs with
  | nil => intro m k j; simp [writeList]
  | cons v vs ih =>
    intro m k j
    rw [writeList, ih, read_write]
    by_cases h1 : j = k
    · subst h1; simp
    · by_cases h2 : k + 1 ≤ j ∧ j < k + 1 + vs.length
      · have h3 : k ≤ j ∧ j < k + (v :: vs).length := by simp; omega
        rw [if_pos h2, if_pos h3]
        have h4 : j - k = (j - (k + 1)) + 1 := by omega
        rw [h4]; simp
      · have h3 : ¬(k ≤ j ∧ j < k + (v :: vs).length) := by simp; omega
        rw [if_neg h2, if_neg h3, if_neg h1]

/-- A write keeps the canonical form. -/
theorem canonical_write (d : α) {m : Tab α} (k : Nat) (v : α) (h : canonical d m = true) :
    canonical d (write d m k v) = true := by
  simp only [canonical, Bool.and_eq_true, List.all_eq_true, decide_eq_true_eq] at h ⊢
  unfold write
  split
  · exact ⟨rising_del k h.1, fun e he => h.2 e (mem_del he)⟩
  · refine ⟨rising_put k v h.1, fun e he => ?_⟩
    rcases mem_put he with he | rfl
    · exact h.2 e he
    · assumption

/-- Consecutive writes keep the canonical form. -/
theorem canonical_writeList (d : α) (vs : List α) : ∀ {m : Tab α} (k : Nat), canonical d m = true →
    canonical d (writeList d m k vs) = true := by
  induction vs with
  | nil => intro m k h; exact h
  | cons v vs ih => intro m k h; exact ih (k + 1) (canonical_write d k v h)

/-- Dropping entries keeps the canonical form. -/
theorem canonical_filter (d : α) {m : Tab α} (p : Nat × α → Bool) (h : canonical d m = true) :
    canonical d (m.filter p) = true := by
  simp only [canonical, Bool.and_eq_true, List.all_eq_true, decide_eq_true_eq] at h ⊢
  exact ⟨risingFrom_filter p h.1, fun e he => h.2 e (List.mem_filter.1 he).1⟩

end Defaults
end Sys2Proof.Tab
end

