-- ==== Sys2Proof/Laws/State.lean ====
section
/-! SUPPORT. What each update of the state leaves as it was, one lemma for each field, and what it leaves in the field that it
changes. -/

namespace Sys2Proof.Machine

/-! ### `putTrain` -/

@[simp] theorem putTrain_clk (s : State) (k : Nat) (tr : Train) : (putTrain s k tr).clk = s.clk := rfl
@[simp] theorem putTrain_mem (s : State) (k : Nat) (tr : Train) : (putTrain s k tr).mem = s.mem := rfl
@[simp] theorem putTrain_moduleNo (s : State) (k : Nat) (tr : Train) : (putTrain s k tr).moduleNo = s.moduleNo := rfl
@[simp] theorem putTrain_super (s : State) (k : Nat) (tr : Train) : (putTrain s k tr).super = s.super := rfl
@[simp] theorem putTrain_asidTab (s : State) (k : Nat) (tr : Train) : (putTrain s k tr).asidTab = s.asidTab := rfl
@[simp] theorem putTrain_pmap (s : State) (k : Nat) (tr : Train) : (putTrain s k tr).pmap = s.pmap := rfl
@[simp] theorem putTrain_roots (s : State) (k : Nat) (tr : Train) : (putTrain s k tr).roots = s.roots := rfl
@[simp] theorem putTrain_agens (s : State) (k : Nat) (tr : Train) : (putTrain s k tr).agens = s.agens := rfl
@[simp] theorem putTrain_parts (s : State) (k : Nat) (tr : Train) : (putTrain s k tr).parts = s.parts := rfl
@[simp] theorem putTrain_wgs (s : State) (k : Nat) (tr : Train) : (putTrain s k tr).wgs = s.wgs := rfl
@[simp] theorem putTrain_saved (s : State) (k : Nat) (tr : Train) : (putTrain s k tr).saved = s.saved := rfl
@[simp] theorem putTrain_savedActs (s : State) (k : Nat) (tr : Train) : (putTrain s k tr).savedActs = s.savedActs := rfl
@[simp] theorem putTrain_cores (s : State) (k : Nat) (tr : Train) : (putTrain s k tr).cores = s.cores := rfl
@[simp] theorem putTrain_faults (s : State) (k : Nat) (tr : Train) : (putTrain s k tr).faults = s.faults := rfl
@[simp] theorem putTrain_launches (s : State) (k : Nat) (tr : Train) : (putTrain s k tr).launches = s.launches := rfl
@[simp] theorem putTrain_pool (s : State) (k : Nat) (tr : Train) : (putTrain s k tr).pool = s.pool := rfl
@[simp] theorem putTrain_poolGen (s : State) (k : Nat) (tr : Train) : (putTrain s k tr).poolGen = s.poolGen := rfl
@[simp] theorem putTrain_lines (s : State) (k : Nat) (tr : Train) : (putTrain s k tr).lines = s.lines := rfl
@[simp] theorem putTrain_lineGen (s : State) (k : Nat) (tr : Train) : (putTrain s k tr).lineGen = s.lineGen := rfl
@[simp] theorem putTrain_pendActs (s : State) (k : Nat) (tr : Train) : (putTrain s k tr).pendActs = s.pendActs := rfl
@[simp] theorem putTrain_rings (s : State) (k : Nat) (tr : Train) : (putTrain s k tr).rings = s.rings := rfl
@[simp] theorem putTrain_joins (s : State) (k : Nat) (tr : Train) : (putTrain s k tr).joins = s.joins := rfl
@[simp] theorem putTrain_joinGen (s : State) (k : Nat) (tr : Train) : (putTrain s k tr).joinGen = s.joinGen := rfl
@[simp] theorem putTrain_wakes (s : State) (k : Nat) (tr : Train) : (putTrain s k tr).wakes = s.wakes := rfl
@[simp] theorem putTrain_futures (s : State) (k : Nat) (tr : Train) : (putTrain s k tr).futures = s.futures := rfl
@[simp] theorem putTrain_futGen (s : State) (k : Nat) (tr : Train) : (putTrain s k tr).futGen = s.futGen := rfl
@[simp] theorem putTrain_ops (s : State) (k : Nat) (tr : Train) : (putTrain s k tr).ops = s.ops := rfl
@[simp] theorem putTrain_streams (s : State) (k : Nat) (tr : Train) : (putTrain s k tr).streams = s.streams := rfl
@[simp] theorem putTrain_services (s : State) (k : Nat) (tr : Train) : (putTrain s k tr).services = s.services := rfl
@[simp] theorem putTrain_svcGen (s : State) (k : Nat) (tr : Train) : (putTrain s k tr).svcGen = s.svcGen := rfl
@[simp] theorem putTrain_attest (s : State) (k : Nat) (tr : Train) : (putTrain s k tr).attest = s.attest := rfl
@[simp] theorem putTrain_routes (s : State) (k : Nat) (tr : Train) : (putTrain s k tr).routes = s.routes := rfl
@[simp] theorem putTrain_lone (s : State) (k : Nat) (tr : Train) : (putTrain s k tr).lone = s.lone := rfl
@[simp] theorem putTrain_stagT0 (s : State) (k : Nat) (tr : Train) : (putTrain s k tr).stagT0 = s.stagT0 := rfl
@[simp] theorem putTrain_staggered (s : State) (k : Nat) (tr : Train) : (putTrain s k tr).staggered = s.staggered := rfl
@[simp] theorem putTrain_waves (s : State) (k : Nat) (tr : Train) : (putTrain s k tr).waves = s.waves := rfl
@[simp] theorem putTrain_remote (s : State) (k : Nat) (tr : Train) : (putTrain s k tr).remote = s.remote := rfl
@[simp] theorem putTrain_freed (s : State) (k : Nat) (tr : Train) : (putTrain s k tr).freed = s.freed := rfl
@[simp] theorem putTrain_mute (s : State) (k : Nat) (tr : Train) : (putTrain s k tr).mute = s.mute := rfl
@[simp] theorem putTrain_casts (s : State) (k : Nat) (tr : Train) : (putTrain s k tr).casts = s.casts := rfl
@[simp] theorem putTrain_outbox (s : State) (k : Nat) (tr : Train) : (putTrain s k tr).outbox = s.outbox := rfl
@[simp] theorem putTrain_pipes (s : State) (k : Nat) (tr : Train) : (putTrain s k tr).pipes = s.pipes := rfl
@[simp] theorem putTrain_agenda (s : State) (k : Nat) (tr : Train) : (putTrain s k tr).agenda = s.agenda := rfl
@[simp] theorem putTrain_current (s : State) (k : Nat) (tr : Train) : (putTrain s k tr).current = s.current := rfl
@[simp] theorem putTrain_freeCount (s : State) (k : Nat) (tr : Train) : (putTrain s k tr).freeCount = s.freeCount := rfl
@[simp] theorem putTrain_nextId (s : State) (k : Nat) (tr : Train) : (putTrain s k tr).nextId = s.nextId := rfl

/-! ### `modTrain` -/

@[simp] theorem modTrain_clk (s : State) (k : Nat) (f : Train → Train) : (modTrain s k f).clk = s.clk := rfl
@[simp] theorem modTrain_mem (s : State) (k : Nat) (f : Train → Train) : (modTrain s k f).mem = s.mem := rfl
@[simp] theorem modTrain_moduleNo (s : State) (k : Nat) (f : Train → Train) : (modTrain s k f).moduleNo = s.moduleNo := rfl
@[simp] theorem modTrain_super (s : State) (k : Nat) (f : Train → Train) : (modTrain s k f).super = s.super := rfl
@[simp] theorem modTrain_asidTab (s : State) (k : Nat) (f : Train → Train) : (modTrain s k f).asidTab = s.asidTab := rfl
@[simp] theorem modTrain_pmap (s : State) (k : Nat) (f : Train → Train) : (modTrain s k f).pmap = s.pmap := rfl
@[simp] theorem modTrain_roots (s : State) (k : Nat) (f : Train → Train) : (modTrain s k f).roots = s.roots := rfl
@[simp] theorem modTrain_agens (s : State) (k : Nat) (f : Train → Train) : (modTrain s k f).agens = s.agens := rfl
@[simp] theorem modTrain_parts (s : State) (k : Nat) (f : Train → Train) : (modTrain s k f).parts = s.parts := rfl
@[simp] theorem modTrain_wgs (s : State) (k : Nat) (f : Train → Train) : (modTrain s k f).wgs = s.wgs := rfl
@[simp] theorem modTrain_saved (s : State) (k : Nat) (f : Train → Train) : (modTrain s k f).saved = s.saved := rfl
@[simp] theorem modTrain_savedActs (s : State) (k : Nat) (f : Train → Train) : (modTrain s k f).savedActs = s.savedActs := rfl
@[simp] theorem modTrain_cores (s : State) (k : Nat) (f : Train → Train) : (modTrain s k f).cores = s.cores := rfl
@[simp] theorem modTrain_faults (s : State) (k : Nat) (f : Train → Train) : (modTrain s k f).faults = s.faults := rfl
@[simp] theorem modTrain_launches (s : State) (k : Nat) (f : Train → Train) : (modTrain s k f).launches = s.launches := rfl
@[simp] theorem modTrain_pool (s : State) (k : Nat) (f : Train → Train) : (modTrain s k f).pool = s.pool := rfl
@[simp] theorem modTrain_poolGen (s : State) (k : Nat) (f : Train → Train) : (modTrain s k f).poolGen = s.poolGen := rfl
@[simp] theorem modTrain_lines (s : State) (k : Nat) (f : Train → Train) : (modTrain s k f).lines = s.lines := rfl
@[simp] theorem modTrain_lineGen (s : State) (k : Nat) (f : Train → Train) : (modTrain s k f).lineGen = s.lineGen := rfl
@[simp] theorem modTrain_pendActs (s : State) (k : Nat) (f : Train → Train) : (modTrain s k f).pendActs = s.pendActs := rfl
@[simp] theorem modTrain_rings (s : State) (k : Nat) (f : Train → Train) : (modTrain s k f).rings = s.rings := rfl
@[simp] theorem modTrain_joins (s : State) (k : Nat) (f : Train → Train) : (modTrain s k f).joins = s.joins := rfl
@[simp] theorem modTrain_joinGen (s : State) (k : Nat) (f : Train → Train) : (modTrain s k f).joinGen = s.joinGen := rfl
@[simp] theorem modTrain_wakes (s : State) (k : Nat) (f : Train → Train) : (modTrain s k f).wakes = s.wakes := rfl
@[simp] theorem modTrain_futures (s : State) (k : Nat) (f : Train → Train) : (modTrain s k f).futures = s.futures := rfl
@[simp] theorem modTrain_futGen (s : State) (k : Nat) (f : Train → Train) : (modTrain s k f).futGen = s.futGen := rfl
@[simp] theorem modTrain_ops (s : State) (k : Nat) (f : Train → Train) : (modTrain s k f).ops = s.ops := rfl
@[simp] theorem modTrain_streams (s : State) (k : Nat) (f : Train → Train) : (modTrain s k f).streams = s.streams := rfl
@[simp] theorem modTrain_services (s : State) (k : Nat) (f : Train → Train) : (modTrain s k f).services = s.services := rfl
@[simp] theorem modTrain_svcGen (s : State) (k : Nat) (f : Train → Train) : (modTrain s k f).svcGen = s.svcGen := rfl
@[simp] theorem modTrain_attest (s : State) (k : Nat) (f : Train → Train) : (modTrain s k f).attest = s.attest := rfl
@[simp] theorem modTrain_routes (s : State) (k : Nat) (f : Train → Train) : (modTrain s k f).routes = s.routes := rfl
@[simp] theorem modTrain_lone (s : State) (k : Nat) (f : Train → Train) : (modTrain s k f).lone = s.lone := rfl
@[simp] theorem modTrain_stagT0 (s : State) (k : Nat) (f : Train → Train) : (modTrain s k f).stagT0 = s.stagT0 := rfl
@[simp] theorem modTrain_staggered (s : State) (k : Nat) (f : Train → Train) : (modTrain s k f).staggered = s.staggered := rfl
@[simp] theorem modTrain_waves (s : State) (k : Nat) (f : Train → Train) : (modTrain s k f).waves = s.waves := rfl
@[simp] theorem modTrain_remote (s : State) (k : Nat) (f : Train → Train) : (modTrain s k f).remote = s.remote := rfl
@[simp] theorem modTrain_freed (s : State) (k : Nat) (f : Train → Train) : (modTrain s k f).freed = s.freed := rfl
@[simp] theorem modTrain_mute (s : State) (k : Nat) (f : Train → Train) : (modTrain s k f).mute = s.mute := rfl
@[simp] theorem modTrain_casts (s : State) (k : Nat) (f : Train → Train) : (modTrain s k f).casts = s.casts := rfl
@[simp] theorem modTrain_outbox (s : State) (k : Nat) (f : Train → Train) : (modTrain s k f).outbox = s.outbox := rfl
@[simp] theorem modTrain_pipes (s : State) (k : Nat) (f : Train → Train) : (modTrain s k f).pipes = s.pipes := rfl
@[simp] theorem modTrain_agenda (s : State) (k : Nat) (f : Train → Train) : (modTrain s k f).agenda = s.agenda := rfl
@[simp] theorem modTrain_current (s : State) (k : Nat) (f : Train → Train) : (modTrain s k f).current = s.current := rfl
@[simp] theorem modTrain_freeCount (s : State) (k : Nat) (f : Train → Train) : (modTrain s k f).freeCount = s.freeCount := rfl
@[simp] theorem modTrain_nextId (s : State) (k : Nat) (f : Train → Train) : (modTrain s k f).nextId = s.nextId := rfl

/-! ### `dropTrain` -/

@[simp] theorem dropTrain_clk (s : State) (k : Nat) : (dropTrain s k).clk = s.clk := rfl
@[simp] theorem dropTrain_mem (s : State) (k : Nat) : (dropTrain s k).mem = s.mem := rfl
@[simp] theorem dropTrain_moduleNo (s : State) (k : Nat) : (dropTrain s k).moduleNo = s.moduleNo := rfl
@[simp] theorem dropTrain_super (s : State) (k : Nat) : (dropTrain s k).super = s.super := rfl
@[simp] theorem dropTrain_asidTab (s : State) (k : Nat) : (dropTrain s k).asidTab = s.asidTab := rfl
@[simp] theorem dropTrain_pmap (s : State) (k : Nat) : (dropTrain s k).pmap = s.pmap := rfl
@[simp] theorem dropTrain_roots (s : State) (k : Nat) : (dropTrain s k).roots = s.roots := rfl
@[simp] theorem dropTrain_agens (s : State) (k : Nat) : (dropTrain s k).agens = s.agens := rfl
@[simp] theorem dropTrain_parts (s : State) (k : Nat) : (dropTrain s k).parts = s.parts := rfl
@[simp] theorem dropTrain_wgs (s : State) (k : Nat) : (dropTrain s k).wgs = s.wgs := rfl
@[simp] theorem dropTrain_saved (s : State) (k : Nat) : (dropTrain s k).saved = s.saved := rfl
@[simp] theorem dropTrain_savedActs (s : State) (k : Nat) : (dropTrain s k).savedActs = s.savedActs := rfl
@[simp] theorem dropTrain_cores (s : State) (k : Nat) : (dropTrain s k).cores = s.cores := rfl
@[simp] theorem dropTrain_faults (s : State) (k : Nat) : (dropTrain s k).faults = s.faults := rfl
@[simp] theorem dropTrain_launches (s : State) (k : Nat) : (dropTrain s k).launches = s.launches := rfl
@[simp] theorem dropTrain_pool (s : State) (k : Nat) : (dropTrain s k).pool = s.pool := rfl
@[simp] theorem dropTrain_poolGen (s : State) (k : Nat) : (dropTrain s k).poolGen = s.poolGen := rfl
@[simp] theorem dropTrain_lines (s : State) (k : Nat) : (dropTrain s k).lines = s.lines := rfl
@[simp] theorem dropTrain_lineGen (s : State) (k : Nat) : (dropTrain s k).lineGen = s.lineGen := rfl
@[simp] theorem dropTrain_pendActs (s : State) (k : Nat) : (dropTrain s k).pendActs = s.pendActs := rfl
@[simp] theorem dropTrain_rings (s : State) (k : Nat) : (dropTrain s k).rings = s.rings := rfl
@[simp] theorem dropTrain_joins (s : State) (k : Nat) : (dropTrain s k).joins = s.joins := rfl
@[simp] theorem dropTrain_joinGen (s : State) (k : Nat) : (dropTrain s k).joinGen = s.joinGen := rfl
@[simp] theorem dropTrain_wakes (s : State) (k : Nat) : (dropTrain s k).wakes = s.wakes := rfl
@[simp] theorem dropTrain_futures (s : State) (k : Nat) : (dropTrain s k).futures = s.futures := rfl
@[simp] theorem dropTrain_futGen (s : State) (k : Nat) : (dropTrain s k).futGen = s.futGen := rfl
@[simp] theorem dropTrain_ops (s : State) (k : Nat) : (dropTrain s k).ops = s.ops := rfl
@[simp] theorem dropTrain_streams (s : State) (k : Nat) : (dropTrain s k).streams = s.streams := rfl
@[simp] theorem dropTrain_services (s : State) (k : Nat) : (dropTrain s k).services = s.services := rfl
@[simp] theorem dropTrain_svcGen (s : State) (k : Nat) : (dropTrain s k).svcGen = s.svcGen := rfl
@[simp] theorem dropTrain_attest (s : State) (k : Nat) : (dropTrain s k).attest = s.attest := rfl
@[simp] theorem dropTrain_routes (s : State) (k : Nat) : (dropTrain s k).routes = s.routes := rfl
@[simp] theorem dropTrain_lone (s : State) (k : Nat) : (dropTrain s k).lone = s.lone := rfl
@[simp] theorem dropTrain_stagT0 (s : State) (k : Nat) : (dropTrain s k).stagT0 = s.stagT0 := rfl
@[simp] theorem dropTrain_staggered (s : State) (k : Nat) : (dropTrain s k).staggered = s.staggered := rfl
@[simp] theorem dropTrain_waves (s : State) (k : Nat) : (dropTrain s k).waves = s.waves := rfl
@[simp] theorem dropTrain_remote (s : State) (k : Nat) : (dropTrain s k).remote = s.remote := rfl
@[simp] theorem dropTrain_freed (s : State) (k : Nat) : (dropTrain s k).freed = s.freed := rfl
@[simp] theorem dropTrain_mute (s : State) (k : Nat) : (dropTrain s k).mute = s.mute := rfl
@[simp] theorem dropTrain_casts (s : State) (k : Nat) : (dropTrain s k).casts = s.casts := rfl
@[simp] theorem dropTrain_outbox (s : State) (k : Nat) : (dropTrain s k).outbox = s.outbox := rfl
@[simp] theorem dropTrain_pipes (s : State) (k : Nat) : (dropTrain s k).pipes = s.pipes := rfl
@[simp] theorem dropTrain_agenda (s : State) (k : Nat) : (dropTrain s k).agenda = s.agenda := rfl
@[simp] theorem dropTrain_current (s : State) (k : Nat) : (dropTrain s k).current = s.current := rfl
@[simp] theorem dropTrain_freeCount (s : State) (k : Nat) : (dropTrain s k).freeCount = s.freeCount := rfl
@[simp] theorem dropTrain_nextId (s : State) (k : Nat) : (dropTrain s k).nextId = s.nextId := rfl

/-! ### `putWg` -/

@[simp] theorem putWg_clk (s : State) (w : Nat) (g : Wg) : (putWg s w g).clk = s.clk := rfl
@[simp] theorem putWg_mem (s : State) (w : Nat) (g : Wg) : (putWg s w g).mem = s.mem := rfl
@[simp] theorem putWg_moduleNo (s : State) (w : Nat) (g : Wg) : (putWg s w g).moduleNo = s.moduleNo := rfl
@[simp] theorem putWg_super (s : State) (w : Nat) (g : Wg) : (putWg s w g).super = s.super := rfl
@[simp] theorem putWg_asidTab (s : State) (w : Nat) (g : Wg) : (putWg s w g).asidTab = s.asidTab := rfl
@[simp] theorem putWg_pmap (s : State) (w : Nat) (g : Wg) : (putWg s w g).pmap = s.pmap := rfl
@[simp] theorem putWg_roots (s : State) (w : Nat) (g : Wg) : (putWg s w g).roots = s.roots := rfl
@[simp] theorem putWg_agens (s : State) (w : Nat) (g : Wg) : (putWg s w g).agens = s.agens := rfl
@[simp] theorem putWg_parts (s : State) (w : Nat) (g : Wg) : (putWg s w g).parts = s.parts := rfl
@[simp] theorem putWg_trains (s : State) (w : Nat) (g : Wg) : (putWg s w g).trains = s.trains := rfl
@[simp] theorem putWg_saved (s : State) (w : Nat) (g : Wg) : (putWg s w g).saved = s.saved := rfl
@[simp] theorem putWg_savedActs (s : State) (w : Nat) (g : Wg) : (putWg s w g).savedActs = s.savedActs := rfl
@[simp] theorem putWg_cores (s : State) (w : Nat) (g : Wg) : (putWg s w g).cores = s.cores := rfl
@[simp] theorem putWg_faults (s : State) (w : Nat) (g : Wg) : (putWg s w g).faults = s.faults := rfl
@[simp] theorem putWg_launches (s : State) (w : Nat) (g : Wg) : (putWg s w g).launches = s.launches := rfl
@[simp] theorem putWg_pool (s : State) (w : Nat) (g : Wg) : (putWg s w g).pool = s.pool := rfl
@[simp] theorem putWg_poolGen (s : State) (w : Nat) (g : Wg) : (putWg s w g).poolGen = s.poolGen := rfl
@[simp] theorem putWg_lines (s : State) (w : Nat) (g : Wg) : (putWg s w g).lines = s.lines := rfl
@[simp] theorem putWg_lineGen (s : State) (w : Nat) (g : Wg) : (putWg s w g).lineGen = s.lineGen := rfl
@[simp] theorem putWg_pendActs (s : State) (w : Nat) (g : Wg) : (putWg s w g).pendActs = s.pendActs := rfl
@[simp] theorem putWg_rings (s : State) (w : Nat) (g : Wg) : (putWg s w g).rings = s.rings := rfl
@[simp] theorem putWg_joins (s : State) (w : Nat) (g : Wg) : (putWg s w g).joins = s.joins := rfl
@[simp] theorem putWg_joinGen (s : State) (w : Nat) (g : Wg) : (putWg s w g).joinGen = s.joinGen := rfl
@[simp] theorem putWg_wakes (s : State) (w : Nat) (g : Wg) : (putWg s w g).wakes = s.wakes := rfl
@[simp] theorem putWg_futures (s : State) (w : Nat) (g : Wg) : (putWg s w g).futures = s.futures := rfl
@[simp] theorem putWg_futGen (s : State) (w : Nat) (g : Wg) : (putWg s w g).futGen = s.futGen := rfl
@[simp] theorem putWg_ops (s : State) (w : Nat) (g : Wg) : (putWg s w g).ops = s.ops := rfl
@[simp] theorem putWg_streams (s : State) (w : Nat) (g : Wg) : (putWg s w g).streams = s.streams := rfl
@[simp] theorem putWg_services (s : State) (w : Nat) (g : Wg) : (putWg s w g).services = s.services := rfl
@[simp] theorem putWg_svcGen (s : State) (w : Nat) (g : Wg) : (putWg s w g).svcGen = s.svcGen := rfl
@[simp] theorem putWg_attest (s : State) (w : Nat) (g : Wg) : (putWg s w g).attest = s.attest := rfl
@[simp] theorem putWg_routes (s : State) (w : Nat) (g : Wg) : (putWg s w g).routes = s.routes := rfl
@[simp] theorem putWg_lone (s : State) (w : Nat) (g : Wg) : (putWg s w g).lone = s.lone := rfl
@[simp] theorem putWg_stagT0 (s : State) (w : Nat) (g : Wg) : (putWg s w g).stagT0 = s.stagT0 := rfl
@[simp] theorem putWg_staggered (s : State) (w : Nat) (g : Wg) : (putWg s w g).staggered = s.staggered := rfl
@[simp] theorem putWg_waves (s : State) (w : Nat) (g : Wg) : (putWg s w g).waves = s.waves := rfl
@[simp] theorem putWg_remote (s : State) (w : Nat) (g : Wg) : (putWg s w g).remote = s.remote := rfl
@[simp] theorem putWg_freed (s : State) (w : Nat) (g : Wg) : (putWg s w g).freed = s.freed := rfl
@[simp] theorem putWg_mute (s : State) (w : Nat) (g : Wg) : (putWg s w g).mute = s.mute := rfl
@[simp] theorem putWg_casts (s : State) (w : Nat) (g : Wg) : (putWg s w g).casts = s.casts := rfl
@[simp] theorem putWg_outbox (s : State) (w : Nat) (g : Wg) : (putWg s w g).outbox = s.outbox := rfl
@[simp] theorem putWg_pipes (s : State) (w : Nat) (g : Wg) : (putWg s w g).pipes = s.pipes := rfl
@[simp] theorem putWg_agenda (s : State) (w : Nat) (g : Wg) : (putWg s w g).agenda = s.agenda := rfl
@[simp] theorem putWg_current (s : State) (w : Nat) (g : Wg) : (putWg s w g).current = s.current := rfl
@[simp] theorem putWg_freeCount (s : State) (w : Nat) (g : Wg) : (putWg s w g).freeCount = s.freeCount := rfl
@[simp] theorem putWg_nextId (s : State) (w : Nat) (g : Wg) : (putWg s w g).nextId = s.nextId := rfl

/-! ### `modWg` -/

@[simp] theorem modWg_clk (s : State) (w : Nat) (f : Wg → Wg) : (modWg s w f).clk = s.clk := rfl
@[simp] theorem modWg_mem (s : State) (w : Nat) (f : Wg → Wg) : (modWg s w f).mem = s.mem := rfl
@[simp] theorem modWg_moduleNo (s : State) (w : Nat) (f : Wg → Wg) : (modWg s w f).moduleNo = s.moduleNo := rfl
@[simp] theorem modWg_super (s : State) (w : Nat) (f : Wg → Wg) : (modWg s w f).super = s.super := rfl
@[simp] theorem modWg_asidTab (s : State) (w : Nat) (f : Wg → Wg) : (modWg s w f).asidTab = s.asidTab := rfl
@[simp] theorem modWg_pmap (s : State) (w : Nat) (f : Wg → Wg) : (modWg s w f).pmap = s.pmap := rfl
@[simp] theorem modWg_roots (s : State) (w : Nat) (f : Wg → Wg) : (modWg s w f).roots = s.roots := rfl
@[simp] theorem modWg_agens (s : State) (w : Nat) (f : Wg → Wg) : (modWg s w f).agens = s.agens := rfl
@[simp] theorem modWg_parts (s : State) (w : Nat) (f : Wg → Wg) : (modWg s w f).parts = s.parts := rfl
@[simp] theorem modWg_trains (s : State) (w : Nat) (f : Wg → Wg) : (modWg s w f).trains = s.trains := rfl
@[simp] theorem modWg_saved (s : State) (w : Nat) (f : Wg → Wg) : (modWg s w f).saved = s.saved := rfl
@[simp] theorem modWg_savedActs (s : State) (w : Nat) (f : Wg → Wg) : (modWg s w f).savedActs = s.savedActs := rfl
@[simp] theorem modWg_cores (s : State) (w : Nat) (f : Wg → Wg) : (modWg s w f).cores = s.cores := rfl
@[simp] theorem modWg_faults (s : State) (w : Nat) (f : Wg → Wg) : (modWg s w f).faults = s.faults := rfl
@[simp] theorem modWg_launches (s : State) (w : Nat) (f : Wg → Wg) : (modWg s w f).launches = s.launches := rfl
@[simp] theorem modWg_pool (s : State) (w : Nat) (f : Wg → Wg) : (modWg s w f).pool = s.pool := rfl
@[simp] theorem modWg_poolGen (s : State) (w : Nat) (f : Wg → Wg) : (modWg s w f).poolGen = s.poolGen := rfl
@[simp] theorem modWg_lines (s : State) (w : Nat) (f : Wg → Wg) : (modWg s w f).lines = s.lines := rfl
@[simp] theorem modWg_lineGen (s : State) (w : Nat) (f : Wg → Wg) : (modWg s w f).lineGen = s.lineGen := rfl
@[simp] theorem modWg_pendActs (s : State) (w : Nat) (f : Wg → Wg) : (modWg s w f).pendActs = s.pendActs := rfl
@[simp] theorem modWg_rings (s : State) (w : Nat) (f : Wg → Wg) : (modWg s w f).rings = s.rings := rfl
@[simp] theorem modWg_joins (s : State) (w : Nat) (f : Wg → Wg) : (modWg s w f).joins = s.joins := rfl
@[simp] theorem modWg_joinGen (s : State) (w : Nat) (f : Wg → Wg) : (modWg s w f).joinGen = s.joinGen := rfl
@[simp] theorem modWg_wakes (s : State) (w : Nat) (f : Wg → Wg) : (modWg s w f).wakes = s.wakes := rfl
@[simp] theorem modWg_futures (s : State) (w : Nat) (f : Wg → Wg) : (modWg s w f).futures = s.futures := rfl
@[simp] theorem modWg_futGen (s : State) (w : Nat) (f : Wg → Wg) : (modWg s w f).futGen = s.futGen := rfl
@[simp] theorem modWg_ops (s : State) (w : Nat) (f : Wg → Wg) : (modWg s w f).ops = s.ops := rfl
@[simp] theorem modWg_streams (s : State) (w : Nat) (f : Wg → Wg) : (modWg s w f).streams = s.streams := rfl
@[simp] theorem modWg_services (s : State) (w : Nat) (f : Wg → Wg) : (modWg s w f).services = s.services := rfl
@[simp] theorem modWg_svcGen (s : State) (w : Nat) (f : Wg → Wg) : (modWg s w f).svcGen = s.svcGen := rfl
@[simp] theorem modWg_attest (s : State) (w : Nat) (f : Wg → Wg) : (modWg s w f).attest = s.attest := rfl
@[simp] theorem modWg_routes (s : State) (w : Nat) (f : Wg → Wg) : (modWg s w f).routes = s.routes := rfl
@[simp] theorem modWg_lone (s : State) (w : Nat) (f : Wg → Wg) : (modWg s w f).lone = s.lone := rfl
@[simp] theorem modWg_stagT0 (s : State) (w : Nat) (f : Wg → Wg) : (modWg s w f).stagT0 = s.stagT0 := rfl
@[simp] theorem modWg_staggered (s : State) (w : Nat) (f : Wg → Wg) : (modWg s w f).staggered = s.staggered := rfl
@[simp] theorem modWg_waves (s : State) (w : Nat) (f : Wg → Wg) : (modWg s w f).waves = s.waves := rfl
@[simp] theorem modWg_remote (s : State) (w : Nat) (f : Wg → Wg) : (modWg s w f).remote = s.remote := rfl
@[simp] theorem modWg_freed (s : State) (w : Nat) (f : Wg → Wg) : (modWg s w f).freed = s.freed := rfl
@[simp] theorem modWg_mute (s : State) (w : Nat) (f : Wg → Wg) : (modWg s w f).mute = s.mute := rfl
@[simp] theorem modWg_casts (s : State) (w : Nat) (f : Wg → Wg) : (modWg s w f).casts = s.casts := rfl
@[simp] theorem modWg_outbox (s : State) (w : Nat) (f : Wg → Wg) : (modWg s w f).outbox = s.outbox := rfl
@[simp] theorem modWg_pipes (s : State) (w : Nat) (f : Wg → Wg) : (modWg s w f).pipes = s.pipes := rfl
@[simp] theorem modWg_agenda (s : State) (w : Nat) (f : Wg → Wg) : (modWg s w f).agenda = s.agenda := rfl
@[simp] theorem modWg_current (s : State) (w : Nat) (f : Wg → Wg) : (modWg s w f).current = s.current := rfl
@[simp] theorem modWg_freeCount (s : State) (w : Nat) (f : Wg → Wg) : (modWg s w f).freeCount = s.freeCount := rfl
@[simp] theorem modWg_nextId (s : State) (w : Nat) (f : Wg → Wg) : (modWg s w f).nextId = s.nextId := rfl

/-! ### `modCore` -/

@[simp] theorem modCore_clk (s : State) (c : Nat) (f : Core → Core) : (modCore s c f).clk = s.clk := rfl
@[simp] theorem modCore_mem (s : State) (c : Nat) (f : Core → Core) : (modCore s c f).mem = s.mem := rfl
@[simp] theorem modCore_moduleNo (s : State) (c : Nat) (f : Core → Core) : (modCore s c f).moduleNo = s.moduleNo := rfl
@[simp] theorem modCore_super (s : State) (c : Nat) (f : Core → Core) : (modCore s c f).super = s.super := rfl
@[simp] theorem modCore_asidTab (s : State) (c : Nat) (f : Core → Core) : (modCore s c f).asidTab = s.asidTab := rfl
@[simp] theorem modCore_pmap (s : State) (c : Nat) (f : Core → Core) : (modCore s c f).pmap = s.pmap := rfl
@[simp] theorem modCore_roots (s : State) (c : Nat) (f : Core → Core) : (modCore s c f).roots = s.roots := rfl
@[simp] theorem modCore_agens (s : State) (c : Nat) (f : Core → Core) : (modCore s c f).agens = s.agens := rfl
@[simp] theorem modCore_parts (s : State) (c : Nat) (f : Core → Core) : (modCore s c f).parts = s.parts := rfl
@[simp] theorem modCore_trains (s : State) (c : Nat) (f : Core → Core) : (modCore s c f).trains = s.trains := rfl
@[simp] theorem modCore_wgs (s : State) (c : Nat) (f : Core → Core) : (modCore s c f).wgs = s.wgs := rfl
@[simp] theorem modCore_saved (s : State) (c : Nat) (f : Core → Core) : (modCore s c f).saved = s.saved := rfl
@[simp] theorem modCore_savedActs (s : State) (c : Nat) (f : Core → Core) : (modCore s c f).savedActs = s.savedActs := rfl
@[simp] theorem modCore_faults (s : State) (c : Nat) (f : Core → Core) : (modCore s c f).faults = s.faults := rfl
@[simp] theorem modCore_launches (s : State) (c : Nat) (f : Core → Core) : (modCore s c f).launches = s.launches := rfl
@[simp] theorem modCore_pool (s : State) (c : Nat) (f : Core → Core) : (modCore s c f).pool = s.pool := rfl
@[simp] theorem modCore_poolGen (s : State) (c : Nat) (f : Core → Core) : (modCore s c f).poolGen = s.poolGen := rfl
@[simp] theorem modCore_lines (s : State) (c : Nat) (f : Core → Core) : (modCore s c f).lines = s.lines := rfl
@[simp] theorem modCore_lineGen (s : State) (c : Nat) (f : Core → Core) : (modCore s c f).lineGen = s.lineGen := rfl
@[simp] theorem modCore_pendActs (s : State) (c : Nat) (f : Core → Core) : (modCore s c f).pendActs = s.pendActs := rfl
@[simp] theorem modCore_rings (s : State) (c : Nat) (f : Core → Core) : (modCore s c f).rings = s.rings := rfl
@[simp] theorem modCore_joins (s : State) (c : Nat) (f : Core → Core) : (modCore s c f).joins = s.joins := rfl
@[simp] theorem modCore_joinGen (s : State) (c : Nat) (f : Core → Core) : (modCore s c f).joinGen = s.joinGen := rfl
@[simp] theorem modCore_wakes (s : State) (c : Nat) (f : Core → Core) : (modCore s c f).wakes = s.wakes := rfl
@[simp] theorem modCore_futures (s : State) (c : Nat) (f : Core → Core) : (modCore s c f).futures = s.futures := rfl
@[simp] theorem modCore_futGen (s : State) (c : Nat) (f : Core → Core) : (modCore s c f).futGen = s.futGen := rfl
@[simp] theorem modCore_ops (s : State) (c : Nat) (f : Core → Core) : (modCore s c f).ops = s.ops := rfl
@[simp] theorem modCore_streams (s : State) (c : Nat) (f : Core → Core) : (modCore s c f).streams = s.streams := rfl
@[simp] theorem modCore_services (s : State) (c : Nat) (f : Core → Core) : (modCore s c f).services = s.services := rfl
@[simp] theorem modCore_svcGen (s : State) (c : Nat) (f : Core → Core) : (modCore s c f).svcGen = s.svcGen := rfl
@[simp] theorem modCore_attest (s : State) (c : Nat) (f : Core → Core) : (modCore s c f).attest = s.attest := rfl
@[simp] theorem modCore_routes (s : State) (c : Nat) (f : Core → Core) : (modCore s c f).routes = s.routes := rfl
@[simp] theorem modCore_lone (s : State) (c : Nat) (f : Core → Core) : (modCore s c f).lone = s.lone := rfl
@[simp] theorem modCore_stagT0 (s : State) (c : Nat) (f : Core → Core) : (modCore s c f).stagT0 = s.stagT0 := rfl
@[simp] theorem modCore_staggered (s : State) (c : Nat) (f : Core → Core) : (modCore s c f).staggered = s.staggered := rfl
@[simp] theorem modCore_waves (s : State) (c : Nat) (f : Core → Core) : (modCore s c f).waves = s.waves := rfl
@[simp] theorem modCore_remote (s : State) (c : Nat) (f : Core → Core) : (modCore s c f).remote = s.remote := rfl
@[simp] theorem modCore_freed (s : State) (c : Nat) (f : Core → Core) : (modCore s c f).freed = s.freed := rfl
@[simp] theorem modCore_mute (s : State) (c : Nat) (f : Core → Core) : (modCore s c f).mute = s.mute := rfl
@[simp] theorem modCore_casts (s : State) (c : Nat) (f : Core → Core) : (modCore s c f).casts = s.casts := rfl
@[simp] theorem modCore_outbox (s : State) (c : Nat) (f : Core → Core) : (modCore s c f).outbox = s.outbox := rfl
@[simp] theorem modCore_pipes (s : State) (c : Nat) (f : Core → Core) : (modCore s c f).pipes = s.pipes := rfl
@[simp] theorem modCore_agenda (s : State) (c : Nat) (f : Core → Core) : (modCore s c f).agenda = s.agenda := rfl
@[simp] theorem modCore_current (s : State) (c : Nat) (f : Core → Core) : (modCore s c f).current = s.current := rfl
@[simp] theorem modCore_freeCount (s : State) (c : Nat) (f : Core → Core) : (modCore s c f).freeCount = s.freeCount := rfl
@[simp] theorem modCore_nextId (s : State) (c : Nat) (f : Core → Core) : (modCore s c f).nextId = s.nextId := rfl

/-! ### `modPart` -/

@[simp] theorem modPart_clk (s : State) (p : Nat) (f : Part → Part) : (modPart s p f).clk = s.clk := rfl
@[simp] theorem modPart_mem (s : State) (p : Nat) (f : Part → Part) : (modPart s p f).mem = s.mem := rfl
@[simp] theorem modPart_moduleNo (s : State) (p : Nat) (f : Part → Part) : (modPart s p f).moduleNo = s.moduleNo := rfl
@[simp] theorem modPart_super (s : State) (p : Nat) (f : Part → Part) : (modPart s p f).super = s.super := rfl
@[simp] theorem modPart_asidTab (s : State) (p : Nat) (f : Part → Part) : (modPart s p f).asidTab = s.asidTab := rfl
@[simp] theorem modPart_pmap (s : State) (p : Nat) (f : Part → Part) : (modPart s p f).pmap = s.pmap := rfl
@[simp] theorem modPart_roots (s : State) (p : Nat) (f : Part → Part) : (modPart s p f).roots = s.roots := rfl
@[simp] theorem modPart_agens (s : State) (p : Nat) (f : Part → Part) : (modPart s p f).agens = s.agens := rfl
@[simp] theorem modPart_trains (s : State) (p : Nat) (f : Part → Part) : (modPart s p f).trains = s.trains := rfl
@[simp] theorem modPart_wgs (s : State) (p : Nat) (f : Part → Part) : (modPart s p f).wgs = s.wgs := rfl
@[simp] theorem modPart_saved (s : State) (p : Nat) (f : Part → Part) : (modPart s p f).saved = s.saved := rfl
@[simp] theorem modPart_savedActs (s : State) (p : Nat) (f : Part → Part) : (modPart s p f).savedActs = s.savedActs := rfl
@[simp] theorem modPart_cores (s : State) (p : Nat) (f : Part → Part) : (modPart s p f).cores = s.cores := rfl
@[simp] theorem modPart_faults (s : State) (p : Nat) (f : Part → Part) : (modPart s p f).faults = s.faults := rfl
@[simp] theorem modPart_launches (s : State) (p : Nat) (f : Part → Part) : (modPart s p f).launches = s.launches := rfl
@[simp] theorem modPart_pool (s : State) (p : Nat) (f : Part → Part) : (modPart s p f).pool = s.pool := rfl
@[simp] theorem modPart_poolGen (s : State) (p : Nat) (f : Part → Part) : (modPart s p f).poolGen = s.poolGen := rfl
@[simp] theorem modPart_lines (s : State) (p : Nat) (f : Part → Part) : (modPart s p f).lines = s.lines := rfl
@[simp] theorem modPart_lineGen (s : State) (p : Nat) (f : Part → Part) : (modPart s p f).lineGen = s.lineGen := rfl
@[simp] theorem modPart_pendActs (s : State) (p : Nat) (f : Part → Part) : (modPart s p f).pendActs = s.pendActs := rfl
@[simp] theorem modPart_rings (s : State) (p : Nat) (f : Part → Part) : (modPart s p f).rings = s.rings := rfl
@[simp] theorem modPart_joins (s : State) (p : Nat) (f : Part → Part) : (modPart s p f).joins = s.joins := rfl
@[simp] theorem modPart_joinGen (s : State) (p : Nat) (f : Part → Part) : (modPart s p f).joinGen = s.joinGen := rfl
@[simp] theorem modPart_wakes (s : State) (p : Nat) (f : Part → Part) : (modPart s p f).wakes = s.wakes := rfl
@[simp] theorem modPart_futures (s : State) (p : Nat) (f : Part → Part) : (modPart s p f).futures = s.futures := rfl
@[simp] theorem modPart_futGen (s : State) (p : Nat) (f : Part → Part) : (modPart s p f).futGen = s.futGen := rfl
@[simp] theorem modPart_ops (s : State) (p : Nat) (f : Part → Part) : (modPart s p f).ops = s.ops := rfl
@[simp] theorem modPart_streams (s : State) (p : Nat) (f : Part → Part) : (modPart s p f).streams = s.streams := rfl
@[simp] theorem modPart_services (s : State) (p : Nat) (f : Part → Part) : (modPart s p f).services = s.services := rfl
@[simp] theorem modPart_svcGen (s : State) (p : Nat) (f : Part → Part) : (modPart s p f).svcGen = s.svcGen := rfl
@[simp] theorem modPart_attest (s : State) (p : Nat) (f : Part → Part) : (modPart s p f).attest = s.attest := rfl
@[simp] theorem modPart_routes (s : State) (p : Nat) (f : Part → Part) : (modPart s p f).routes = s.routes := rfl
@[simp] theorem modPart_lone (s : State) (p : Nat) (f : Part → Part) : (modPart s p f).lone = s.lone := rfl
@[simp] theorem modPart_stagT0 (s : State) (p : Nat) (f : Part → Part) : (modPart s p f).stagT0 = s.stagT0 := rfl
@[simp] theorem modPart_staggered (s : State) (p : Nat) (f : Part → Part) : (modPart s p f).staggered = s.staggered := rfl
@[simp] theorem modPart_waves (s : State) (p : Nat) (f : Part → Part) : (modPart s p f).waves = s.waves := rfl
@[simp] theorem modPart_remote (s : State) (p : Nat) (f : Part → Part) : (modPart s p f).remote = s.remote := rfl
@[simp] theorem modPart_freed (s : State) (p : Nat) (f : Part → Part) : (modPart s p f).freed = s.freed := rfl
@[simp] theorem modPart_mute (s : State) (p : Nat) (f : Part → Part) : (modPart s p f).mute = s.mute := rfl
@[simp] theorem modPart_casts (s : State) (p : Nat) (f : Part → Part) : (modPart s p f).casts = s.casts := rfl
@[simp] theorem modPart_outbox (s : State) (p : Nat) (f : Part → Part) : (modPart s p f).outbox = s.outbox := rfl
@[simp] theorem modPart_pipes (s : State) (p : Nat) (f : Part → Part) : (modPart s p f).pipes = s.pipes := rfl
@[simp] theorem modPart_agenda (s : State) (p : Nat) (f : Part → Part) : (modPart s p f).agenda = s.agenda := rfl
@[simp] theorem modPart_current (s : State) (p : Nat) (f : Part → Part) : (modPart s p f).current = s.current := rfl
@[simp] theorem modPart_freeCount (s : State) (p : Nat) (f : Part → Part) : (modPart s p f).freeCount = s.freeCount := rfl
@[simp] theorem modPart_nextId (s : State) (p : Nat) (f : Part → Part) : (modPart s p f).nextId = s.nextId := rfl

/-! ### `modLaunch` -/

@[simp] theorem modLaunch_clk (s : State) (l : Nat) (f : Launch → Launch) : (modLaunch s l f).clk = s.clk := rfl
@[simp] theorem modLaunch_mem (s : State) (l : Nat) (f : Launch → Launch) : (modLaunch s l f).mem = s.mem := rfl
@[simp] theorem modLaunch_moduleNo (s : State) (l : Nat) (f : Launch → Launch) : (modLaunch s l f).moduleNo = s.moduleNo := rfl
@[simp] theorem modLaunch_super (s : State) (l : Nat) (f : Launch → Launch) : (modLaunch s l f).super = s.super := rfl
@[simp] theorem modLaunch_asidTab (s : State) (l : Nat) (f : Launch → Launch) : (modLaunch s l f).asidTab = s.asidTab := rfl
@[simp] theorem modLaunch_pmap (s : State) (l : Nat) (f : Launch → Launch) : (modLaunch s l f).pmap = s.pmap := rfl
@[simp] theorem modLaunch_roots (s : State) (l : Nat) (f : Launch → Launch) : (modLaunch s l f).roots = s.roots := rfl
@[simp] theorem modLaunch_agens (s : State) (l : Nat) (f : Launch → Launch) : (modLaunch s l f).agens = s.agens := rfl
@[simp] theorem modLaunch_parts (s : State) (l : Nat) (f : Launch → Launch) : (modLaunch s l f).parts = s.parts := rfl
@[simp] theorem modLaunch_trains (s : State) (l : Nat) (f : Launch → Launch) : (modLaunch s l f).trains = s.trains := rfl
@[simp] theorem modLaunch_wgs (s : State) (l : Nat) (f : Launch → Launch) : (modLaunch s l f).wgs = s.wgs := rfl
@[simp] theorem modLaunch_saved (s : State) (l : Nat) (f : Launch → Launch) : (modLaunch s l f).saved = s.saved := rfl
@[simp] theorem modLaunch_savedActs (s : State) (l : Nat) (f : Launch → Launch) : (modLaunch s l f).savedActs = s.savedActs := rfl
@[simp] theorem modLaunch_cores (s : State) (l : Nat) (f : Launch → Launch) : (modLaunch s l f).cores = s.cores := rfl
@[simp] theorem modLaunch_faults (s : State) (l : Nat) (f : Launch → Launch) : (modLaunch s l f).faults = s.faults := rfl
@[simp] theorem modLaunch_pool (s : State) (l : Nat) (f : Launch → Launch) : (modLaunch s l f).pool = s.pool := rfl
@[simp] theorem modLaunch_poolGen (s : State) (l : Nat) (f : Launch → Launch) : (modLaunch s l f).poolGen = s.poolGen := rfl
@[simp] theorem modLaunch_lines (s : State) (l : Nat) (f : Launch → Launch) : (modLaunch s l f).lines = s.lines := rfl
@[simp] theorem modLaunch_lineGen (s : State) (l : Nat) (f : Launch → Launch) : (modLaunch s l f).lineGen = s.lineGen := rfl
@[simp] theorem modLaunch_pendActs (s : State) (l : Nat) (f : Launch → Launch) : (modLaunch s l f).pendActs = s.pendActs := rfl
@[simp] theorem modLaunch_rings (s : State) (l : Nat) (f : Launch → Launch) : (modLaunch s l f).rings = s.rings := rfl
@[simp] theorem modLaunch_joins (s : State) (l : Nat) (f : Launch → Launch) : (modLaunch s l f).joins = s.joins := rfl
@[simp] theorem modLaunch_joinGen (s : State) (l : Nat) (f : Launch → Launch) : (modLaunch s l f).joinGen = s.joinGen := rfl
@[simp] theorem modLaunch_wakes (s : State) (l : Nat) (f : Launch → Launch) : (modLaunch s l f).wakes = s.wakes := rfl
@[simp] theorem modLaunch_futures (s : State) (l : Nat) (f : Launch → Launch) : (modLaunch s l f).futures = s.futures := rfl
@[simp] theorem modLaunch_futGen (s : State) (l : Nat) (f : Launch → Launch) : (modLaunch s l f).futGen = s.futGen := rfl
@[simp] theorem modLaunch_ops (s : State) (l : Nat) (f : Launch → Launch) : (modLaunch s l f).ops = s.ops := rfl
@[simp] theorem modLaunch_streams (s : State) (l : Nat) (f : Launch → Launch) : (modLaunch s l f).streams = s.streams := rfl
@[simp] theorem modLaunch_services (s : State) (l : Nat) (f : Launch → Launch) : (modLaunch s l f).services = s.services := rfl
@[simp] theorem modLaunch_svcGen (s : State) (l : Nat) (f : Launch → Launch) : (modLaunch s l f).svcGen = s.svcGen := rfl
@[simp] theorem modLaunch_attest (s : State) (l : Nat) (f : Launch → Launch) : (modLaunch s l f).attest = s.attest := rfl
@[simp] theorem modLaunch_routes (s : State) (l : Nat) (f : Launch → Launch) : (modLaunch s l f).routes = s.routes := rfl
@[simp] theorem modLaunch_lone (s : State) (l : Nat) (f : Launch → Launch) : (modLaunch s l f).lone = s.lone := rfl
@[simp] theorem modLaunch_stagT0 (s : State) (l : Nat) (f : Launch → Launch) : (modLaunch s l f).stagT0 = s.stagT0 := rfl
@[simp] theorem modLaunch_staggered (s : State) (l : Nat) (f : Launch → Launch) : (modLaunch s l f).staggered = s.staggered := rfl
@[simp] theorem modLaunch_waves (s : State) (l : Nat) (f : Launch → Launch) : (modLaunch s l f).waves = s.waves := rfl
@[simp] theorem modLaunch_remote (s : State) (l : Nat) (f : Launch → Launch) : (modLaunch s l f).remote = s.remote := rfl
@[simp] theorem modLaunch_freed (s : State) (l : Nat) (f : Launch → Launch) : (modLaunch s l f).freed = s.freed := rfl
@[simp] theorem modLaunch_mute (s : State) (l : Nat) (f : Launch → Launch) : (modLaunch s l f).mute = s.mute := rfl
@[simp] theorem modLaunch_casts (s : State) (l : Nat) (f : Launch → Launch) : (modLaunch s l f).casts = s.casts := rfl
@[simp] theorem modLaunch_outbox (s : State) (l : Nat) (f : Launch → Launch) : (modLaunch s l f).outbox = s.outbox := rfl
@[simp] theorem modLaunch_pipes (s : State) (l : Nat) (f : Launch → Launch) : (modLaunch s l f).pipes = s.pipes := rfl
@[simp] theorem modLaunch_agenda (s : State) (l : Nat) (f : Launch → Launch) : (modLaunch s l f).agenda = s.agenda := rfl
@[simp] theorem modLaunch_current (s : State) (l : Nat) (f : Launch → Launch) : (modLaunch s l f).current = s.current := rfl
@[simp] theorem modLaunch_freeCount (s : State) (l : Nat) (f : Launch → Launch) : (modLaunch s l f).freeCount = s.freeCount := rfl
@[simp] theorem modLaunch_nextId (s : State) (l : Nat) (f : Launch → Launch) : (modLaunch s l f).nextId = s.nextId := rfl

/-! ### `modLine` -/

@[simp] theorem modLine_clk (s : State) (l : Nat) (f : Line → Line) : (modLine s l f).clk = s.clk := rfl
@[simp] theorem modLine_mem (s : State) (l : Nat) (f : Line → Line) : (modLine s l f).mem = s.mem := rfl
@[simp] theorem modLine_moduleNo (s : State) (l : Nat) (f : Line → Line) : (modLine s l f).moduleNo = s.moduleNo := rfl
@[simp] theorem modLine_super (s : State) (l : Nat) (f : Line → Line) : (modLine s l f).super = s.super := rfl
@[simp] theorem modLine_asidTab (s : State) (l : Nat) (f : Line → Line) : (modLine s l f).asidTab = s.asidTab := rfl
@[simp] theorem modLine_pmap (s : State) (l : Nat) (f : Line → Line) : (modLine s l f).pmap = s.pmap := rfl
@[simp] theorem modLine_roots (s : State) (l : Nat) (f : Line → Line) : (modLine s l f).roots = s.roots := rfl
@[simp] theorem modLine_agens (s : State) (l : Nat) (f : Line → Line) : (modLine s l f).agens = s.agens := rfl
@[simp] theorem modLine_parts (s : State) (l : Nat) (f : Line → Line) : (modLine s l f).parts = s.parts := rfl
@[simp] theorem modLine_trains (s : State) (l : Nat) (f : Line → Line) : (modLine s l f).trains = s.trains := rfl
@[simp] theorem modLine_wgs (s : State) (l : Nat) (f : Line → Line) : (modLine s l f).wgs = s.wgs := rfl
@[simp] theorem modLine_saved (s : State) (l : Nat) (f : Line → Line) : (modLine s l f).saved = s.saved := rfl
@[simp] theorem modLine_savedActs (s : State) (l : Nat) (f : Line → Line) : (modLine s l f).savedActs = s.savedActs := rfl
@[simp] theorem modLine_cores (s : State) (l : Nat) (f : Line → Line) : (modLine s l f).cores = s.cores := rfl
@[simp] theorem modLine_faults (s : State) (l : Nat) (f : Line → Line) : (modLine s l f).faults = s.faults := rfl
@[simp] theorem modLine_launches (s : State) (l : Nat) (f : Line → Line) : (modLine s l f).launches = s.launches := rfl
@[simp] theorem modLine_pool (s : State) (l : Nat) (f : Line → Line) : (modLine s l f).pool = s.pool := rfl
@[simp] theorem modLine_poolGen (s : State) (l : Nat) (f : Line → Line) : (modLine s l f).poolGen = s.poolGen := rfl
@[simp] theorem modLine_lineGen (s : State) (l : Nat) (f : Line → Line) : (modLine s l f).lineGen = s.lineGen := rfl
@[simp] theorem modLine_pendActs (s : State) (l : Nat) (f : Line → Line) : (modLine s l f).pendActs = s.pendActs := rfl
@[simp] theorem modLine_rings (s : State) (l : Nat) (f : Line → Line) : (modLine s l f).rings = s.rings := rfl
@[simp] theorem modLine_joins (s : State) (l : Nat) (f : Line → Line) : (modLine s l f).joins = s.joins := rfl
@[simp] theorem modLine_joinGen (s : State) (l : Nat) (f : Line → Line) : (modLine s l f).joinGen = s.joinGen := rfl
@[simp] theorem modLine_wakes (s : State) (l : Nat) (f : Line → Line) : (modLine s l f).wakes = s.wakes := rfl
@[simp] theorem modLine_futures (s : State) (l : Nat) (f : Line → Line) : (modLine s l f).futures = s.futures := rfl
@[simp] theorem modLine_futGen (s : State) (l : Nat) (f : Line → Line) : (modLine s l f).futGen = s.futGen := rfl
@[simp] theorem modLine_ops (s : State) (l : Nat) (f : Line → Line) : (modLine s l f).ops = s.ops := rfl
@[simp] theorem modLine_streams (s : State) (l : Nat) (f : Line → Line) : (modLine s l f).streams = s.streams := rfl
@[simp] theorem modLine_services (s : State) (l : Nat) (f : Line → Line) : (modLine s l f).services = s.services := rfl
@[simp] theorem modLine_svcGen (s : State) (l : Nat) (f : Line → Line) : (modLine s l f).svcGen = s.svcGen := rfl
@[simp] theorem modLine_attest (s : State) (l : Nat) (f : Line → Line) : (modLine s l f).attest = s.attest := rfl
@[simp] theorem modLine_routes (s : State) (l : Nat) (f : Line → Line) : (modLine s l f).routes = s.routes := rfl
@[simp] theorem modLine_lone (s : State) (l : Nat) (f : Line → Line) : (modLine s l f).lone = s.lone := rfl
@[simp] theorem modLine_stagT0 (s : State) (l : Nat) (f : Line → Line) : (modLine s l f).stagT0 = s.stagT0 := rfl
@[simp] theorem modLine_staggered (s : State) (l : Nat) (f : Line → Line) : (modLine s l f).staggered = s.staggered := rfl
@[simp] theorem modLine_waves (s : State) (l : Nat) (f : Line → Line) : (modLine s l f).waves = s.waves := rfl
@[simp] theorem modLine_remote (s : State) (l : Nat) (f : Line → Line) : (modLine s l f).remote = s.remote := rfl
@[simp] theorem modLine_freed (s : State) (l : Nat) (f : Line → Line) : (modLine s l f).freed = s.freed := rfl
@[simp] theorem modLine_mute (s : State) (l : Nat) (f : Line → Line) : (modLine s l f).mute = s.mute := rfl
@[simp] theorem modLine_casts (s : State) (l : Nat) (f : Line → Line) : (modLine s l f).casts = s.casts := rfl
@[simp] theorem modLine_outbox (s : State) (l : Nat) (f : Line → Line) : (modLine s l f).outbox = s.outbox := rfl
@[simp] theorem modLine_pipes (s : State) (l : Nat) (f : Line → Line) : (modLine s l f).pipes = s.pipes := rfl
@[simp] theorem modLine_agenda (s : State) (l : Nat) (f : Line → Line) : (modLine s l f).agenda = s.agenda := rfl
@[simp] theorem modLine_current (s : State) (l : Nat) (f : Line → Line) : (modLine s l f).current = s.current := rfl
@[simp] theorem modLine_freeCount (s : State) (l : Nat) (f : Line → Line) : (modLine s l f).freeCount = s.freeCount := rfl
@[simp] theorem modLine_nextId (s : State) (l : Nat) (f : Line → Line) : (modLine s l f).nextId = s.nextId := rfl

/-! ### `modJoin` -/

@[simp] theorem modJoin_clk (s : State) (j : Nat) (f : Join → Join) : (modJoin s j f).clk = s.clk := rfl
@[simp] theorem modJoin_mem (s : State) (j : Nat) (f : Join → Join) : (modJoin s j f).mem = s.mem := rfl
@[simp] theorem modJoin_moduleNo (s : State) (j : Nat) (f : Join → Join) : (modJoin s j f).moduleNo = s.moduleNo := rfl
@[simp] theorem modJoin_super (s : State) (j : Nat) (f : Join → Join) : (modJoin s j f).super = s.super := rfl
@[simp] theorem modJoin_asidTab (s : State) (j : Nat) (f : Join → Join) : (modJoin s j f).asidTab = s.asidTab := rfl
@[simp] theorem modJoin_pmap (s : State) (j : Nat) (f : Join → Join) : (modJoin s j f).pmap = s.pmap := rfl
@[simp] theorem modJoin_roots (s : State) (j : Nat) (f : Join → Join) : (modJoin s j f).roots = s.roots := rfl
@[simp] theorem modJoin_agens (s : State) (j : Nat) (f : Join → Join) : (modJoin s j f).agens = s.agens := rfl
@[simp] theorem modJoin_parts (s : State) (j : Nat) (f : Join → Join) : (modJoin s j f).parts = s.parts := rfl
@[simp] theorem modJoin_trains (s : State) (j : Nat) (f : Join → Join) : (modJoin s j f).trains = s.trains := rfl
@[simp] theorem modJoin_wgs (s : State) (j : Nat) (f : Join → Join) : (modJoin s j f).wgs = s.wgs := rfl
@[simp] theorem modJoin_saved (s : State) (j : Nat) (f : Join → Join) : (modJoin s j f).saved = s.saved := rfl
@[simp] theorem modJoin_savedActs (s : State) (j : Nat) (f : Join → Join) : (modJoin s j f).savedActs = s.savedActs := rfl
@[simp] theorem modJoin_cores (s : State) (j : Nat) (f : Join → Join) : (modJoin s j f).cores = s.cores := rfl
@[simp] theorem modJoin_faults (s : State) (j : Nat) (f : Join → Join) : (modJoin s j f).faults = s.faults := rfl
@[simp] theorem modJoin_launches (s : State) (j : Nat) (f : Join → Join) : (modJoin s j f).launches = s.launches := rfl
@[simp] theorem modJoin_pool (s : State) (j : Nat) (f : Join → Join) : (modJoin s j f).pool = s.pool := rfl
@[simp] theorem modJoin_poolGen (s : State) (j : Nat) (f : Join → Join) : (modJoin s j f).poolGen = s.poolGen := rfl
@[simp] theorem modJoin_lines (s : State) (j : Nat) (f : Join → Join) : (modJoin s j f).lines = s.lines := rfl
@[simp] theorem modJoin_lineGen (s : State) (j : Nat) (f : Join → Join) : (modJoin s j f).lineGen = s.lineGen := rfl
@[simp] theorem modJoin_pendActs (s : State) (j : Nat) (f : Join → Join) : (modJoin s j f).pendActs = s.pendActs := rfl
@[simp] theorem modJoin_rings (s : State) (j : Nat) (f : Join → Join) : (modJoin s j f).rings = s.rings := rfl
@[simp] theorem modJoin_joinGen (s : State) (j : Nat) (f : Join → Join) : (modJoin s j f).joinGen = s.joinGen := rfl
@[simp] theorem modJoin_wakes (s : State) (j : Nat) (f : Join → Join) : (modJoin s j f).wakes = s.wakes := rfl
@[simp] theorem modJoin_futures (s : State) (j : Nat) (f : Join → Join) : (modJoin s j f).futures = s.futures := rfl
@[simp] theorem modJoin_futGen (s : State) (j : Nat) (f : Join → Join) : (modJoin s j f).futGen = s.futGen := rfl
@[simp] theorem modJoin_ops (s : State) (j : Nat) (f : Join → Join) : (modJoin s j f).ops = s.ops := rfl
@[simp] theorem modJoin_streams (s : State) (j : Nat) (f : Join → Join) : (modJoin s j f).streams = s.streams := rfl
@[simp] theorem modJoin_services (s : State) (j : Nat) (f : Join → Join) : (modJoin s j f).services = s.services := rfl
@[simp] theorem modJoin_svcGen (s : State) (j : Nat) (f : Join → Join) : (modJoin s j f).svcGen = s.svcGen := rfl
@[simp] theorem modJoin_attest (s : State) (j : Nat) (f : Join → Join) : (modJoin s j f).attest = s.attest := rfl
@[simp] theorem modJoin_routes (s : State) (j : Nat) (f : Join → Join) : (modJoin s j f).routes = s.routes := rfl
@[simp] theorem modJoin_lone (s : State) (j : Nat) (f : Join → Join) : (modJoin s j f).lone = s.lone := rfl
@[simp] theorem modJoin_stagT0 (s : State) (j : Nat) (f : Join → Join) : (modJoin s j f).stagT0 = s.stagT0 := rfl
@[simp] theorem modJoin_staggered (s : State) (j : Nat) (f : Join → Join) : (modJoin s j f).staggered = s.staggered := rfl
@[simp] theorem modJoin_waves (s : State) (j : Nat) (f : Join → Join) : (modJoin s j f).waves = s.waves := rfl
@[simp] theorem modJoin_remote (s : State) (j : Nat) (f : Join → Join) : (modJoin s j f).remote = s.remote := rfl
@[simp] theorem modJoin_freed (s : State) (j : Nat) (f : Join → Join) : (modJoin s j f).freed = s.freed := rfl
@[simp] theorem modJoin_mute (s : State) (j : Nat) (f : Join → Join) : (modJoin s j f).mute = s.mute := rfl
@[simp] theorem modJoin_casts (s : State) (j : Nat) (f : Join → Join) : (modJoin s j f).casts = s.casts := rfl
@[simp] theorem modJoin_outbox (s : State) (j : Nat) (f : Join → Join) : (modJoin s j f).outbox = s.outbox := rfl
@[simp] theorem modJoin_pipes (s : State) (j : Nat) (f : Join → Join) : (modJoin s j f).pipes = s.pipes := rfl
@[simp] theorem modJoin_agenda (s : State) (j : Nat) (f : Join → Join) : (modJoin s j f).agenda = s.agenda := rfl
@[simp] theorem modJoin_current (s : State) (j : Nat) (f : Join → Join) : (modJoin s j f).current = s.current := rfl
@[simp] theorem modJoin_freeCount (s : State) (j : Nat) (f : Join → Join) : (modJoin s j f).freeCount = s.freeCount := rfl
@[simp] theorem modJoin_nextId (s : State) (j : Nat) (f : Join → Join) : (modJoin s j f).nextId = s.nextId := rfl

/-! ### `modOp` -/

@[simp] theorem modOp_clk (s : State) (o : Nat) (f : EngOp → EngOp) : (modOp s o f).clk = s.clk := rfl
@[simp] theorem modOp_mem (s : State) (o : Nat) (f : EngOp → EngOp) : (modOp s o f).mem = s.mem := rfl
@[simp] theorem modOp_moduleNo (s : State) (o : Nat) (f : EngOp → EngOp) : (modOp s o f).moduleNo = s.moduleNo := rfl
@[simp] theorem modOp_super (s : State) (o : Nat) (f : EngOp → EngOp) : (modOp s o f).super = s.super := rfl
@[simp] theorem modOp_asidTab (s : State) (o : Nat) (f : EngOp → EngOp) : (modOp s o f).asidTab = s.asidTab := rfl
@[simp] theorem modOp_pmap (s : State) (o : Nat) (f : EngOp → EngOp) : (modOp s o f).pmap = s.pmap := rfl
@[simp] theorem modOp_roots (s : State) (o : Nat) (f : EngOp → EngOp) : (modOp s o f).roots = s.roots := rfl
@[simp] theorem modOp_agens (s : State) (o : Nat) (f : EngOp → EngOp) : (modOp s o f).agens = s.agens := rfl
@[simp] theorem modOp_parts (s : State) (o : Nat) (f : EngOp → EngOp) : (modOp s o f).parts = s.parts := rfl
@[simp] theorem modOp_trains (s : State) (o : Nat) (f : EngOp → EngOp) : (modOp s o f).trains = s.trains := rfl
@[simp] theorem modOp_wgs (s : State) (o : Nat) (f : EngOp → EngOp) : (modOp s o f).wgs = s.wgs := rfl
@[simp] theorem modOp_saved (s : State) (o : Nat) (f : EngOp → EngOp) : (modOp s o f).saved = s.saved := rfl
@[simp] theorem modOp_savedActs (s : State) (o : Nat) (f : EngOp → EngOp) : (modOp s o f).savedActs = s.savedActs := rfl
@[simp] theorem modOp_cores (s : State) (o : Nat) (f : EngOp → EngOp) : (modOp s o f).cores = s.cores := rfl
@[simp] theorem modOp_faults (s : State) (o : Nat) (f : EngOp → EngOp) : (modOp s o f).faults = s.faults := rfl
@[simp] theorem modOp_launches (s : State) (o : Nat) (f : EngOp → EngOp) : (modOp s o f).launches = s.launches := rfl
@[simp] theorem modOp_pool (s : State) (o : Nat) (f : EngOp → EngOp) : (modOp s o f).pool = s.pool := rfl
@[simp] theorem modOp_poolGen (s : State) (o : Nat) (f : EngOp → EngOp) : (modOp s o f).poolGen = s.poolGen := rfl
@[simp] theorem modOp_lines (s : State) (o : Nat) (f : EngOp → EngOp) : (modOp s o f).lines = s.lines := rfl
@[simp] theorem modOp_lineGen (s : State) (o : Nat) (f : EngOp → EngOp) : (modOp s o f).lineGen = s.lineGen := rfl
@[simp] theorem modOp_pendActs (s : State) (o : Nat) (f : EngOp → EngOp) : (modOp s o f).pendActs = s.pendActs := rfl
@[simp] theorem modOp_rings (s : State) (o : Nat) (f : EngOp → EngOp) : (modOp s o f).rings = s.rings := rfl
@[simp] theorem modOp_joins (s : State) (o : Nat) (f : EngOp → EngOp) : (modOp s o f).joins = s.joins := rfl
@[simp] theorem modOp_joinGen (s : State) (o : Nat) (f : EngOp → EngOp) : (modOp s o f).joinGen = s.joinGen := rfl
@[simp] theorem modOp_wakes (s : State) (o : Nat) (f : EngOp → EngOp) : (modOp s o f).wakes = s.wakes := rfl
@[simp] theorem modOp_futures (s : State) (o : Nat) (f : EngOp → EngOp) : (modOp s o f).futures = s.futures := rfl
@[simp] theorem modOp_futGen (s : State) (o : Nat) (f : EngOp → EngOp) : (modOp s o f).futGen = s.futGen := rfl
@[simp] theorem modOp_streams (s : State) (o : Nat) (f : EngOp → EngOp) : (modOp s o f).streams = s.streams := rfl
@[simp] theorem modOp_services (s : State) (o : Nat) (f : EngOp → EngOp) : (modOp s o f).services = s.services := rfl
@[simp] theorem modOp_svcGen (s : State) (o : Nat) (f : EngOp → EngOp) : (modOp s o f).svcGen = s.svcGen := rfl
@[simp] theorem modOp_attest (s : State) (o : Nat) (f : EngOp → EngOp) : (modOp s o f).attest = s.attest := rfl
@[simp] theorem modOp_routes (s : State) (o : Nat) (f : EngOp → EngOp) : (modOp s o f).routes = s.routes := rfl
@[simp] theorem modOp_lone (s : State) (o : Nat) (f : EngOp → EngOp) : (modOp s o f).lone = s.lone := rfl
@[simp] theorem modOp_stagT0 (s : State) (o : Nat) (f : EngOp → EngOp) : (modOp s o f).stagT0 = s.stagT0 := rfl
@[simp] theorem modOp_staggered (s : State) (o : Nat) (f : EngOp → EngOp) : (modOp s o f).staggered = s.staggered := rfl
@[simp] theorem modOp_waves (s : State) (o : Nat) (f : EngOp → EngOp) : (modOp s o f).waves = s.waves := rfl
@[simp] theorem modOp_remote (s : State) (o : Nat) (f : EngOp → EngOp) : (modOp s o f).remote = s.remote := rfl
@[simp] theorem modOp_freed (s : State) (o : Nat) (f : EngOp → EngOp) : (modOp s o f).freed = s.freed := rfl
@[simp] theorem modOp_mute (s : State) (o : Nat) (f : EngOp → EngOp) : (modOp s o f).mute = s.mute := rfl
@[simp] theorem modOp_casts (s : State) (o : Nat) (f : EngOp → EngOp) : (modOp s o f).casts = s.casts := rfl
@[simp] theorem modOp_outbox (s : State) (o : Nat) (f : EngOp → EngOp) : (modOp s o f).outbox = s.outbox := rfl
@[simp] theorem modOp_pipes (s : State) (o : Nat) (f : EngOp → EngOp) : (modOp s o f).pipes = s.pipes := rfl
@[simp] theorem modOp_agenda (s : State) (o : Nat) (f : EngOp → EngOp) : (modOp s o f).agenda = s.agenda := rfl
@[simp] theorem modOp_current (s : State) (o : Nat) (f : EngOp → EngOp) : (modOp s o f).current = s.current := rfl
@[simp] theorem modOp_freeCount (s : State) (o : Nat) (f : EngOp → EngOp) : (modOp s o f).freeCount = s.freeCount := rfl
@[simp] theorem modOp_nextId (s : State) (o : Nat) (f : EngOp → EngOp) : (modOp s o f).nextId = s.nextId := rfl

/-! ### `writeBytes` -/

@[simp] theorem writeBytes_clk (s : State) (pa : Nat) (bs : List Byte) : (writeBytes s pa bs).clk = s.clk := rfl
@[simp] theorem writeBytes_moduleNo (s : State) (pa : Nat) (bs : List Byte) : (writeBytes s pa bs).moduleNo = s.moduleNo := rfl
@[simp] theorem writeBytes_super (s : State) (pa : Nat) (bs : List Byte) : (writeBytes s pa bs).super = s.super := rfl
@[simp] theorem writeBytes_asidTab (s : State) (pa : Nat) (bs : List Byte) : (writeBytes s pa bs).asidTab = s.asidTab := rfl
@[simp] theorem writeBytes_pmap (s : State) (pa : Nat) (bs : List Byte) : (writeBytes s pa bs).pmap = s.pmap := rfl
@[simp] theorem writeBytes_roots (s : State) (pa : Nat) (bs : List Byte) : (writeBytes s pa bs).roots = s.roots := rfl
@[simp] theorem writeBytes_agens (s : State) (pa : Nat) (bs : List Byte) : (writeBytes s pa bs).agens = s.agens := rfl
@[simp] theorem writeBytes_parts (s : State) (pa : Nat) (bs : List Byte) : (writeBytes s pa bs).parts = s.parts := rfl
@[simp] theorem writeBytes_trains (s : State) (pa : Nat) (bs : List Byte) : (writeBytes s pa bs).trains = s.trains := rfl
@[simp] theorem writeBytes_wgs (s : State) (pa : Nat) (bs : List Byte) : (writeBytes s pa bs).wgs = s.wgs := rfl
@[simp] theorem writeBytes_saved (s : State) (pa : Nat) (bs : List Byte) : (writeBytes s pa bs).saved = s.saved := rfl
@[simp] theorem writeBytes_savedActs (s : State) (pa : Nat) (bs : List Byte) : (writeBytes s pa bs).savedActs = s.savedActs := rfl
@[simp] theorem writeBytes_cores (s : State) (pa : Nat) (bs : List Byte) : (writeBytes s pa bs).cores = s.cores := rfl
@[simp] theorem writeBytes_faults (s : State) (pa : Nat) (bs : List Byte) : (writeBytes s pa bs).faults = s.faults := rfl
@[simp] theorem writeBytes_launches (s : State) (pa : Nat) (bs : List Byte) : (writeBytes s pa bs).launches = s.launches := rfl
@[simp] theorem writeBytes_pool (s : State) (pa : Nat) (bs : List Byte) : (writeBytes s pa bs).pool = s.pool := rfl
@[simp] theorem writeBytes_poolGen (s : State) (pa : Nat) (bs : List Byte) : (writeBytes s pa bs).poolGen = s.poolGen := rfl
@[simp] theorem writeBytes_lines (s : State) (pa : Nat) (bs : List Byte) : (writeBytes s pa bs).lines = s.lines := rfl
@[simp] theorem writeBytes_lineGen (s : State) (pa : Nat) (bs : List Byte) : (writeBytes s pa bs).lineGen = s.lineGen := rfl
@[simp] theorem writeBytes_pendActs (s : State) (pa : Nat) (bs : List Byte) : (writeBytes s pa bs).pendActs = s.pendActs := rfl
@[simp] theorem writeBytes_rings (s : State) (pa : Nat) (bs : List Byte) : (writeBytes s pa bs).rings = s.rings := rfl
@[simp] theorem writeBytes_joins (s : State) (pa : Nat) (bs : List Byte) : (writeBytes s pa bs).joins = s.joins := rfl
@[simp] theorem writeBytes_joinGen (s : State) (pa : Nat) (bs : List Byte) : (writeBytes s pa bs).joinGen = s.joinGen := rfl
@[simp] theorem writeBytes_wakes (s : State) (pa : Nat) (bs : List Byte) : (writeBytes s pa bs).wakes = s.wakes := rfl
@[simp] theorem writeBytes_futures (s : State) (pa : Nat) (bs : List Byte) : (writeBytes s pa bs).futures = s.futures := rfl
@[simp] theorem writeBytes_futGen (s : State) (pa : Nat) (bs : List Byte) : (writeBytes s pa bs).futGen = s.futGen := rfl
@[simp] theorem writeBytes_ops (s : State) (pa : Nat) (bs : List Byte) : (writeBytes s pa bs).ops = s.ops := rfl
@[simp] theorem writeBytes_streams (s : State) (pa : Nat) (bs : List Byte) : (writeBytes s pa bs).streams = s.streams := rfl
@[simp] theorem writeBytes_services (s : State) (pa : Nat) (bs : List Byte) : (writeBytes s pa bs).services = s.services := rfl
@[simp] theorem writeBytes_svcGen (s : State) (pa : Nat) (bs : List Byte) : (writeBytes s pa bs).svcGen = s.svcGen := rfl
@[simp] theorem writeBytes_attest (s : State) (pa : Nat) (bs : List Byte) : (writeBytes s pa bs).attest = s.attest := rfl
@[simp] theorem writeBytes_routes (s : State) (pa : Nat) (bs : List Byte) : (writeBytes s pa bs).routes = s.routes := rfl
@[simp] theorem writeBytes_lone (s : State) (pa : Nat) (bs : List Byte) : (writeBytes s pa bs).lone = s.lone := rfl
@[simp] theorem writeBytes_stagT0 (s : State) (pa : Nat) (bs : List Byte) : (writeBytes s pa bs).stagT0 = s.stagT0 := rfl
@[simp] theorem writeBytes_staggered (s : State) (pa : Nat) (bs : List Byte) : (writeBytes s pa bs).staggered = s.staggered := rfl
@[simp] theorem writeBytes_waves (s : State) (pa : Nat) (bs : List Byte) : (writeBytes s pa bs).waves = s.waves := rfl
@[simp] theorem writeBytes_remote (s : State) (pa : Nat) (bs : List Byte) : (writeBytes s pa bs).remote = s.remote := rfl
@[simp] theorem writeBytes_freed (s : State) (pa : Nat) (bs : List Byte) : (writeBytes s pa bs).freed = s.freed := rfl
@[simp] theorem writeBytes_mute (s : State) (pa : Nat) (bs : List Byte) : (writeBytes s pa bs).mute = s.mute := rfl
@[simp] theorem writeBytes_casts (s : State) (pa : Nat) (bs : List Byte) : (writeBytes s pa bs).casts = s.casts := rfl
@[simp] theorem writeBytes_outbox (s : State) (pa : Nat) (bs : List Byte) : (writeBytes s pa bs).outbox = s.outbox := rfl
@[simp] theorem writeBytes_pipes (s : State) (pa : Nat) (bs : List Byte) : (writeBytes s pa bs).pipes = s.pipes := rfl
@[simp] theorem writeBytes_agenda (s : State) (pa : Nat) (bs : List Byte) : (writeBytes s pa bs).agenda = s.agenda := rfl
@[simp] theorem writeBytes_current (s : State) (pa : Nat) (bs : List Byte) : (writeBytes s pa bs).current = s.current := rfl
@[simp] theorem writeBytes_freeCount (s : State) (pa : Nat) (bs : List Byte) : (writeBytes s pa bs).freeCount = s.freeCount := rfl
@[simp] theorem writeBytes_nextId (s : State) (pa : Nat) (bs : List Byte) : (writeBytes s pa bs).nextId = s.nextId := rfl

/-! ### `writeMem` -/

@[simp] theorem writeMem_clk (s : State) (pa n v : Nat) : (writeMem s pa n v).clk = s.clk := rfl
@[simp] theorem writeMem_moduleNo (s : State) (pa n v : Nat) : (writeMem s pa n v).moduleNo = s.moduleNo := rfl
@[simp] theorem writeMem_super (s : State) (pa n v : Nat) : (writeMem s pa n v).super = s.super := rfl
@[simp] theorem writeMem_asidTab (s : State) (pa n v : Nat) : (writeMem s pa n v).asidTab = s.asidTab := rfl
@[simp] theorem writeMem_pmap (s : State) (pa n v : Nat) : (writeMem s pa n v).pmap = s.pmap := rfl
@[simp] theorem writeMem_roots (s : State) (pa n v : Nat) : (writeMem s pa n v).roots = s.roots := rfl
@[simp] theorem writeMem_agens (s : State) (pa n v : Nat) : (writeMem s pa n v).agens = s.agens := rfl
@[simp] theorem writeMem_parts (s : State) (pa n v : Nat) : (writeMem s pa n v).parts = s.parts := rfl
@[simp] theorem writeMem_trains (s : State) (pa n v : Nat) : (writeMem s pa n v).trains = s.trains := rfl
@[simp] theorem writeMem_wgs (s : State) (pa n v : Nat) : (writeMem s pa n v).wgs = s.wgs := rfl
@[simp] theorem writeMem_saved (s : State) (pa n v : Nat) : (writeMem s pa n v).saved = s.saved := rfl
@[simp] theorem writeMem_savedActs (s : State) (pa n v : Nat) : (writeMem s pa n v).savedActs = s.savedActs := rfl
@[simp] theorem writeMem_cores (s : State) (pa n v : Nat) : (writeMem s pa n v).cores = s.cores := rfl
@[simp] theorem writeMem_faults (s : State) (pa n v : Nat) : (writeMem s pa n v).faults = s.faults := rfl
@[simp] theorem writeMem_launches (s : State) (pa n v : Nat) : (writeMem s pa n v).launches = s.launches := rfl
@[simp] theorem writeMem_pool (s : State) (pa n v : Nat) : (writeMem s pa n v).pool = s.pool := rfl
@[simp] theorem writeMem_poolGen (s : State) (pa n v : Nat) : (writeMem s pa n v).poolGen = s.poolGen := rfl
@[simp] theorem writeMem_lines (s : State) (pa n v : Nat) : (writeMem s pa n v).lines = s.lines := rfl
@[simp] theorem writeMem_lineGen (s : State) (pa n v : Nat) : (writeMem s pa n v).lineGen = s.lineGen := rfl
@[simp] theorem writeMem_pendActs (s : State) (pa n v : Nat) : (writeMem s pa n v).pendActs = s.pendActs := rfl
@[simp] theorem writeMem_rings (s : State) (pa n v : Nat) : (writeMem s pa n v).rings = s.rings := rfl
@[simp] theorem writeMem_joins (s : State) (pa n v : Nat) : (writeMem s pa n v).joins = s.joins := rfl
@[simp] theorem writeMem_joinGen (s : State) (pa n v : Nat) : (writeMem s pa n v).joinGen = s.joinGen := rfl
@[simp] theorem writeMem_wakes (s : State) (pa n v : Nat) : (writeMem s pa n v).wakes = s.wakes := rfl
@[simp] theorem writeMem_futures (s : State) (pa n v : Nat) : (writeMem s pa n v).futures = s.futures := rfl
@[simp] theorem writeMem_futGen (s : State) (pa n v : Nat) : (writeMem s pa n v).futGen = s.futGen := rfl
@[simp] theorem writeMem_ops (s : State) (pa n v : Nat) : (writeMem s pa n v).ops = s.ops := rfl
@[simp] theorem writeMem_streams (s : State) (pa n v : Nat) : (writeMem s pa n v).streams = s.streams := rfl
@[simp] theorem writeMem_services (s : State) (pa n v : Nat) : (writeMem s pa n v).services = s.services := rfl
@[simp] theorem writeMem_svcGen (s : State) (pa n v : Nat) : (writeMem s pa n v).svcGen = s.svcGen := rfl
@[simp] theorem writeMem_attest (s : State) (pa n v : Nat) : (writeMem s pa n v).attest = s.attest := rfl
@[simp] theorem writeMem_routes (s : State) (pa n v : Nat) : (writeMem s pa n v).routes = s.routes := rfl
@[simp] theorem writeMem_lone (s : State) (pa n v : Nat) : (writeMem s pa n v).lone = s.lone := rfl
@[simp] theorem writeMem_stagT0 (s : State) (pa n v : Nat) : (writeMem s pa n v).stagT0 = s.stagT0 := rfl
@[simp] theorem writeMem_staggered (s : State) (pa n v : Nat) : (writeMem s pa n v).staggered = s.staggered := rfl
@[simp] theorem writeMem_waves (s : State) (pa n v : Nat) : (writeMem s pa n v).waves = s.waves := rfl
@[simp] theorem writeMem_remote (s : State) (pa n v : Nat) : (writeMem s pa n v).remote = s.remote := rfl
@[simp] theorem writeMem_freed (s : State) (pa n v : Nat) : (writeMem s pa n v).freed = s.freed := rfl
@[simp] theorem writeMem_mute (s : State) (pa n v : Nat) : (writeMem s pa n v).mute = s.mute := rfl
@[simp] theorem writeMem_casts (s : State) (pa n v : Nat) : (writeMem s pa n v).casts = s.casts := rfl
@[simp] theorem writeMem_outbox (s : State) (pa n v : Nat) : (writeMem s pa n v).outbox = s.outbox := rfl
@[simp] theorem writeMem_pipes (s : State) (pa n v : Nat) : (writeMem s pa n v).pipes = s.pipes := rfl
@[simp] theorem writeMem_agenda (s : State) (pa n v : Nat) : (writeMem s pa n v).agenda = s.agenda := rfl
@[simp] theorem writeMem_current (s : State) (pa n v : Nat) : (writeMem s pa n v).current = s.current := rfl
@[simp] theorem writeMem_freeCount (s : State) (pa n v : Nat) : (writeMem s pa n v).freeCount = s.freeCount := rfl
@[simp] theorem writeMem_nextId (s : State) (pa n v : Nat) : (writeMem s pa n v).nextId = s.nextId := rfl

/-! ### `wrV` -/

@[simp] theorem wrV_uid (tr : Train) (n t : Nat) (w : Word) : (wrV tr n t w).uid = tr.uid := rfl
@[simp] theorem wrV_core (tr : Train) (n t : Nat) (w : Word) : (wrV tr n t w).core = tr.core := rfl
@[simp] theorem wrV_slot (tr : Train) (n t : Nat) (w : Word) : (wrV tr n t w).slot = tr.slot := rfl
@[simp] theorem wrV_wg (tr : Train) (n t : Nat) (w : Word) : (wrV tr n t w).wg = tr.wg := rfl
@[simp] theorem wrV_launch (tr : Train) (n t : Nat) (w : Word) : (wrV tr n t w).launch = tr.launch := rfl
@[simp] theorem wrV_trn (tr : Train) (n t : Nat) (w : Word) : (wrV tr n t w).trn = tr.trn := rfl
@[simp] theorem wrV_part (tr : Train) (n t : Nat) (w : Word) : (wrV tr n t w).part = tr.part := rfl
@[simp] theorem wrV_asid (tr : Train) (n t : Nat) (w : Word) : (wrV tr n t w).asid = tr.asid := rfl
@[simp] theorem wrV_prio (tr : Train) (n t : Nat) (w : Word) : (wrV tr n t w).prio = tr.prio := rfl
@[simp] theorem wrV_depth (tr : Train) (n t : Nat) (w : Word) : (wrV tr n t w).depth = tr.depth := rfl
@[simp] theorem wrV_vgran (tr : Train) (n t : Nat) (w : Word) : (wrV tr n t w).vgran = tr.vgran := rfl
@[simp] theorem wrV_sgran (tr : Train) (n t : Nat) (w : Word) : (wrV tr n t w).sgran = tr.sgran := rfl
@[simp] theorem wrV_o (tr : Train) (n t : Nat) (w : Word) : (wrV tr n t w).o = tr.o := rfl
@[simp] theorem wrV_s (tr : Train) (n t : Nat) (w : Word) : (wrV tr n t w).s = tr.s := rfl
@[simp] theorem wrV_k (tr : Train) (n t : Nat) (w : Word) : (wrV tr n t w).k = tr.k := rfl
@[simp] theorem wrV_g (tr : Train) (n t : Nat) (w : Word) : (wrV tr n t w).g = tr.g := rfl
@[simp] theorem wrV_flags (tr : Train) (n t : Nat) (w : Word) : (wrV tr n t w).flags = tr.flags := rfl
@[simp] theorem wrV_pc (tr : Train) (n t : Nat) (w : Word) : (wrV tr n t w).pc = tr.pc := rfl
@[simp] theorem wrV_pcs (tr : Train) (n t : Nat) (w : Word) : (wrV tr n t w).pcs = tr.pcs := rfl
@[simp] theorem wrV_selected (tr : Train) (n t : Nat) (w : Word) : (wrV tr n t w).selected = tr.selected := rfl
@[simp] theorem wrV_heldBar (tr : Train) (n t : Nat) (w : Word) : (wrV tr n t w).heldBar = tr.heldBar := rfl
@[simp] theorem wrV_heldGbar (tr : Train) (n t : Nat) (w : Word) : (wrV tr n t w).heldGbar = tr.heldGbar := rfl
@[simp] theorem wrV_exited (tr : Train) (n t : Nat) (w : Word) : (wrV tr n t w).exited = tr.exited := rfl
@[simp] theorem wrV_fresh (tr : Train) (n t : Nat) (w : Word) : (wrV tr n t w).fresh = tr.fresh := rfl
@[simp] theorem wrV_marks (tr : Train) (n t : Nat) (w : Word) : (wrV tr n t w).marks = tr.marks := rfl
@[simp] theorem wrV_latches (tr : Train) (n t : Nat) (w : Word) : (wrV tr n t w).latches = tr.latches := rfl
@[simp] theorem wrV_chain (tr : Train) (n t : Nat) (w : Word) : (wrV tr n t w).chain = tr.chain := rfl
@[simp] theorem wrV_block (tr : Train) (n t : Nat) (w : Word) : (wrV tr n t w).block = tr.block := rfl
@[simp] theorem wrV_priv (tr : Train) (n t : Nat) (w : Word) : (wrV tr n t w).priv = tr.priv := rfl
@[simp] theorem wrV_intrap (tr : Train) (n t : Nat) (w : Word) : (wrV tr n t w).intrap = tr.intrap := rfl
@[simp] theorem wrV_ppriv (tr : Train) (n t : Nat) (w : Word) : (wrV tr n t w).ppriv = tr.ppriv := rfl
@[simp] theorem wrV_tq (tr : Train) (n t : Nat) (w : Word) : (wrV tr n t w).tq = tr.tq := rfl
@[simp] theorem wrV_xpc (tr : Train) (n t : Nat) (w : Word) : (wrV tr n t w).xpc = tr.xpc := rfl
@[simp] theorem wrV_xstate (tr : Train) (n t : Nat) (w : Word) : (wrV tr n t w).xstate = tr.xstate := rfl
@[simp] theorem wrV_xbar (tr : Train) (n t : Nat) (w : Word) : (wrV tr n t w).xbar = tr.xbar := rfl
@[simp] theorem wrV_xgbar (tr : Train) (n t : Nat) (w : Word) : (wrV tr n t w).xgbar = tr.xgbar := rfl
@[simp] theorem wrV_xk (tr : Train) (n t : Nat) (w : Word) : (wrV tr n t w).xk = tr.xk := rfl
@[simp] theorem wrV_xg (tr : Train) (n t : Nat) (w : Word) : (wrV tr n t w).xg = tr.xg := rfl
@[simp] theorem wrV_xs (tr : Train) (n t : Nat) (w : Word) : (wrV tr n t w).xs = tr.xs := rfl
@[simp] theorem wrV_svctok (tr : Train) (n t : Nat) (w : Word) : (wrV tr n t w).svctok = tr.svctok := rfl
@[simp] theorem wrV_rowprog (tr : Train) (n t : Nat) (w : Word) : (wrV tr n t w).rowprog = tr.rowprog := rfl
@[simp] theorem wrV_deadline (tr : Train) (n t : Nat) (w : Word) : (wrV tr n t w).deadline = tr.deadline := rfl
@[simp] theorem wrV_wkid (tr : Train) (n t : Nat) (w : Word) : (wrV tr n t w).wkid = tr.wkid := rfl
@[simp] theorem wrV_stage (tr : Train) (n t : Nat) (w : Word) : (wrV tr n t w).stage = tr.stage := rfl
@[simp] theorem wrV_gidx (tr : Train) (n t : Nat) (w : Word) : (wrV tr n t w).gidx = tr.gidx := rfl
@[simp] theorem wrV_gotEnd (tr : Train) (n t : Nat) (w : Word) : (wrV tr n t w).gotEnd = tr.gotEnd := rfl
@[simp] theorem wrV_grant (tr : Train) (n t : Nat) (w : Word) : (wrV tr n t w).grant = tr.grant := rfl
@[simp] theorem wrV_task (tr : Train) (n t : Nat) (w : Word) : (wrV tr n t w).task = tr.task := rfl
@[simp] theorem wrV_held (tr : Train) (n t : Nat) (w : Word) : (wrV tr n t w).held = tr.held := rfl
@[simp] theorem wrV_predTrap (tr : Train) (n t : Nat) (w : Word) : (wrV tr n t w).predTrap = tr.predTrap := rfl
@[simp] theorem wrV_noWait (tr : Train) (n t : Nat) (w : Word) : (wrV tr n t w).noWait = tr.noWait := rfl
@[simp] theorem wrV_killed (tr : Train) (n t : Nat) (w : Word) : (wrV tr n t w).killed = tr.killed := rfl
@[simp] theorem wrV_kpc (tr : Train) (n t : Nat) (w : Word) : (wrV tr n t w).kpc = tr.kpc := rfl
@[simp] theorem wrV_loads (tr : Train) (n t : Nat) (w : Word) : (wrV tr n t w).loads = tr.loads := rfl
@[simp] theorem wrV_homes (tr : Train) (n t : Nat) (w : Word) : (wrV tr n t w).homes = tr.homes := rfl
@[simp] theorem wrV_stores (tr : Train) (n t : Nat) (w : Word) : (wrV tr n t w).stores = tr.stores := rfl
@[simp] theorem wrV_long (tr : Train) (n t : Nat) (w : Word) : (wrV tr n t w).long = tr.long := rfl
@[simp] theorem wrV_replies (tr : Train) (n t : Nat) (w : Word) : (wrV tr n t w).replies = tr.replies := rfl
@[simp] theorem wrV_asides (tr : Train) (n t : Nat) (w : Word) : (wrV tr n t w).asides = tr.asides := rfl
@[simp] theorem wrV_atWait (tr : Train) (n t : Nat) (w : Word) : (wrV tr n t w).atWait = tr.atWait := rfl
@[simp] theorem wrV_access (tr : Train) (n t : Nat) (w : Word) : (wrV tr n t w).access = tr.access := rfl
@[simp] theorem wrV_act (tr : Train) (n t : Nat) (w : Word) : (wrV tr n t w).act = tr.act := rfl
@[simp] theorem wrV_yielded (tr : Train) (n t : Nat) (w : Word) : (wrV tr n t w).yielded = tr.yielded := rfl

/-! ### `wrO` -/

@[simp] theorem wrO_uid (tr : Train) (n t : Nat) (w : Word) : (wrO tr n t w).uid = tr.uid := rfl
@[simp] theorem wrO_core (tr : Train) (n t : Nat) (w : Word) : (wrO tr n t w).core = tr.core := rfl
@[simp] theorem wrO_slot (tr : Train) (n t : Nat) (w : Word) : (wrO tr n t w).slot = tr.slot := rfl
@[simp] theorem wrO_wg (tr : Train) (n t : Nat) (w : Word) : (wrO tr n t w).wg = tr.wg := rfl
@[simp] theorem wrO_launch (tr : Train) (n t : Nat) (w : Word) : (wrO tr n t w).launch = tr.launch := rfl
@[simp] theorem wrO_trn (tr : Train) (n t : Nat) (w : Word) : (wrO tr n t w).trn = tr.trn := rfl
@[simp] theorem wrO_part (tr : Train) (n t : Nat) (w : Word) : (wrO tr n t w).part = tr.part := rfl
@[simp] theorem wrO_asid (tr : Train) (n t : Nat) (w : Word) : (wrO tr n t w).asid = tr.asid := rfl
@[simp] theorem wrO_prio (tr : Train) (n t : Nat) (w : Word) : (wrO tr n t w).prio = tr.prio := rfl
@[simp] theorem wrO_depth (tr : Train) (n t : Nat) (w : Word) : (wrO tr n t w).depth = tr.depth := rfl
@[simp] theorem wrO_vgran (tr : Train) (n t : Nat) (w : Word) : (wrO tr n t w).vgran = tr.vgran := rfl
@[simp] theorem wrO_sgran (tr : Train) (n t : Nat) (w : Word) : (wrO tr n t w).sgran = tr.sgran := rfl
@[simp] theorem wrO_v (tr : Train) (n t : Nat) (w : Word) : (wrO tr n t w).v = tr.v := rfl
@[simp] theorem wrO_s (tr : Train) (n t : Nat) (w : Word) : (wrO tr n t w).s = tr.s := rfl
@[simp] theorem wrO_k (tr : Train) (n t : Nat) (w : Word) : (wrO tr n t w).k = tr.k := rfl
@[simp] theorem wrO_g (tr : Train) (n t : Nat) (w : Word) : (wrO tr n t w).g = tr.g := rfl
@[simp] theorem wrO_flags (tr : Train) (n t : Nat) (w : Word) : (wrO tr n t w).flags = tr.flags := rfl
@[simp] theorem wrO_pc (tr : Train) (n t : Nat) (w : Word) : (wrO tr n t w).pc = tr.pc := rfl
@[simp] theorem wrO_pcs (tr : Train) (n t : Nat) (w : Word) : (wrO tr n t w).pcs = tr.pcs := rfl
@[simp] theorem wrO_selected (tr : Train) (n t : Nat) (w : Word) : (wrO tr n t w).selected = tr.selected := rfl
@[simp] theorem wrO_heldBar (tr : Train) (n t : Nat) (w : Word) : (wrO tr n t w).heldBar = tr.heldBar := rfl
@[simp] theorem wrO_heldGbar (tr : Train) (n t : Nat) (w : Word) : (wrO tr n t w).heldGbar = tr.heldGbar := rfl
@[simp] theorem wrO_exited (tr : Train) (n t : Nat) (w : Word) : (wrO tr n t w).exited = tr.exited := rfl
@[simp] theorem wrO_fresh (tr : Train) (n t : Nat) (w : Word) : (wrO tr n t w).fresh = tr.fresh := rfl
@[simp] theorem wrO_marks (tr : Train) (n t : Nat) (w : Word) : (wrO tr n t w).marks = tr.marks := rfl
@[simp] theorem wrO_latches (tr : Train) (n t : Nat) (w : Word) : (wrO tr n t w).latches = tr.latches := rfl
@[simp] theorem wrO_chain (tr : Train) (n t : Nat) (w : Word) : (wrO tr n t w).chain = tr.chain := rfl
@[simp] theorem wrO_block (tr : Train) (n t : Nat) (w : Word) : (wrO tr n t w).block = tr.block := rfl
@[simp] theorem wrO_priv (tr : Train) (n t : Nat) (w : Word) : (wrO tr n t w).priv = tr.priv := rfl
@[simp] theorem wrO_intrap (tr : Train) (n t : Nat) (w : Word) : (wrO tr n t w).intrap = tr.intrap := rfl
@[simp] theorem wrO_ppriv (tr : Train) (n t : Nat) (w : Word) : (wrO tr n t w).ppriv = tr.ppriv := rfl
@[simp] theorem wrO_tq (tr : Train) (n t : Nat) (w : Word) : (wrO tr n t w).tq = tr.tq := rfl
@[simp] theorem wrO_xpc (tr : Train) (n t : Nat) (w : Word) : (wrO tr n t w).xpc = tr.xpc := rfl
@[simp] theorem wrO_xstate (tr : Train) (n t : Nat) (w : Word) : (wrO tr n t w).xstate = tr.xstate := rfl
@[simp] theorem wrO_xbar (tr : Train) (n t : Nat) (w : Word) : (wrO tr n t w).xbar = tr.xbar := rfl
@[simp] theorem wrO_xgbar (tr : Train) (n t : Nat) (w : Word) : (wrO tr n t w).xgbar = tr.xgbar := rfl
@[simp] theorem wrO_xk (tr : Train) (n t : Nat) (w : Word) : (wrO tr n t w).xk = tr.xk := rfl
@[simp] theorem wrO_xg (tr : Train) (n t : Nat) (w : Word) : (wrO tr n t w).xg = tr.xg := rfl
@[simp] theorem wrO_xs (tr : Train) (n t : Nat) (w : Word) : (wrO tr n t w).xs = tr.xs := rfl
@[simp] theorem wrO_svctok (tr : Train) (n t : Nat) (w : Word) : (wrO tr n t w).svctok = tr.svctok := rfl
@[simp] theorem wrO_rowprog (tr : Train) (n t : Nat) (w : Word) : (wrO tr n t w).rowprog = tr.rowprog := rfl
@[simp] theorem wrO_deadline (tr : Train) (n t : Nat) (w : Word) : (wrO tr n t w).deadline = tr.deadline := rfl
@[simp] theorem wrO_wkid (tr : Train) (n t : Nat) (w : Word) : (wrO tr n t w).wkid = tr.wkid := rfl
@[simp] theorem wrO_stage (tr : Train) (n t : Nat) (w : Word) : (wrO tr n t w).stage = tr.stage := rfl
@[simp] theorem wrO_gidx (tr : Train) (n t : Nat) (w : Word) : (wrO tr n t w).gidx = tr.gidx := rfl
@[simp] theorem wrO_gotEnd (tr : Train) (n t : Nat) (w : Word) : (wrO tr n t w).gotEnd = tr.gotEnd := rfl
@[simp] theorem wrO_grant (tr : Train) (n t : Nat) (w : Word) : (wrO tr n t w).grant = tr.grant := rfl
@[simp] theorem wrO_task (tr : Train) (n t : Nat) (w : Word) : (wrO tr n t w).task = tr.task := rfl
@[simp] theorem wrO_held (tr : Train) (n t : Nat) (w : Word) : (wrO tr n t w).held = tr.held := rfl
@[simp] theorem wrO_predTrap (tr : Train) (n t : Nat) (w : Word) : (wrO tr n t w).predTrap = tr.predTrap := rfl
@[simp] theorem wrO_noWait (tr : Train) (n t : Nat) (w : Word) : (wrO tr n t w).noWait = tr.noWait := rfl
@[simp] theorem wrO_killed (tr : Train) (n t : Nat) (w : Word) : (wrO tr n t w).killed = tr.killed := rfl
@[simp] theorem wrO_kpc (tr : Train) (n t : Nat) (w : Word) : (wrO tr n t w).kpc = tr.kpc := rfl
@[simp] theorem wrO_loads (tr : Train) (n t : Nat) (w : Word) : (wrO tr n t w).loads = tr.loads := rfl
@[simp] theorem wrO_homes (tr : Train) (n t : Nat) (w : Word) : (wrO tr n t w).homes = tr.homes := rfl
@[simp] theorem wrO_stores (tr : Train) (n t : Nat) (w : Word) : (wrO tr n t w).stores = tr.stores := rfl
@[simp] theorem wrO_long (tr : Train) (n t : Nat) (w : Word) : (wrO tr n t w).long = tr.long := rfl
@[simp] theorem wrO_replies (tr : Train) (n t : Nat) (w : Word) : (wrO tr n t w).replies = tr.replies := rfl
@[simp] theorem wrO_asides (tr : Train) (n t : Nat) (w : Word) : (wrO tr n t w).asides = tr.asides := rfl
@[simp] theorem wrO_atWait (tr : Train) (n t : Nat) (w : Word) : (wrO tr n t w).atWait = tr.atWait := rfl
@[simp] theorem wrO_access (tr : Train) (n t : Nat) (w : Word) : (wrO tr n t w).access = tr.access := rfl
@[simp] theorem wrO_act (tr : Train) (n t : Nat) (w : Word) : (wrO tr n t w).act = tr.act := rfl
@[simp] theorem wrO_yielded (tr : Train) (n t : Nat) (w : Word) : (wrO tr n t w).yielded = tr.yielded := rfl

/-! ### `wrS` -/

@[simp] theorem wrS_uid (tr : Train) (n : Nat) (d : Dword) : (wrS tr n d).uid = tr.uid := rfl
@[simp] theorem wrS_core (tr : Train) (n : Nat) (d : Dword) : (wrS tr n d).core = tr.core := rfl
@[simp] theorem wrS_slot (tr : Train) (n : Nat) (d : Dword) : (wrS tr n d).slot = tr.slot := rfl
@[simp] theorem wrS_wg (tr : Train) (n : Nat) (d : Dword) : (wrS tr n d).wg = tr.wg := rfl
@[simp] theorem wrS_launch (tr : Train) (n : Nat) (d : Dword) : (wrS tr n d).launch = tr.launch := rfl
@[simp] theorem wrS_trn (tr : Train) (n : Nat) (d : Dword) : (wrS tr n d).trn = tr.trn := rfl
@[simp] theorem wrS_part (tr : Train) (n : Nat) (d : Dword) : (wrS tr n d).part = tr.part := rfl
@[simp] theorem wrS_asid (tr : Train) (n : Nat) (d : Dword) : (wrS tr n d).asid = tr.asid := rfl
@[simp] theorem wrS_prio (tr : Train) (n : Nat) (d : Dword) : (wrS tr n d).prio = tr.prio := rfl
@[simp] theorem wrS_depth (tr : Train) (n : Nat) (d : Dword) : (wrS tr n d).depth = tr.depth := rfl
@[simp] theorem wrS_vgran (tr : Train) (n : Nat) (d : Dword) : (wrS tr n d).vgran = tr.vgran := rfl
@[simp] theorem wrS_sgran (tr : Train) (n : Nat) (d : Dword) : (wrS tr n d).sgran = tr.sgran := rfl
@[simp] theorem wrS_v (tr : Train) (n : Nat) (d : Dword) : (wrS tr n d).v = tr.v := rfl
@[simp] theorem wrS_o (tr : Train) (n : Nat) (d : Dword) : (wrS tr n d).o = tr.o := rfl
@[simp] theorem wrS_k (tr : Train) (n : Nat) (d : Dword) : (wrS tr n d).k = tr.k := rfl
@[simp] theorem wrS_g (tr : Train) (n : Nat) (d : Dword) : (wrS tr n d).g = tr.g := rfl
@[simp] theorem wrS_flags (tr : Train) (n : Nat) (d : Dword) : (wrS tr n d).flags = tr.flags := rfl
@[simp] theorem wrS_pc (tr : Train) (n : Nat) (d : Dword) : (wrS tr n d).pc = tr.pc := rfl
@[simp] theorem wrS_pcs (tr : Train) (n : Nat) (d : Dword) : (wrS tr n d).pcs = tr.pcs := rfl
@[simp] theorem wrS_selected (tr : Train) (n : Nat) (d : Dword) : (wrS tr n d).selected = tr.selected := rfl
@[simp] theorem wrS_heldBar (tr : Train) (n : Nat) (d : Dword) : (wrS tr n d).heldBar = tr.heldBar := rfl
@[simp] theorem wrS_heldGbar (tr : Train) (n : Nat) (d : Dword) : (wrS tr n d).heldGbar = tr.heldGbar := rfl
@[simp] theorem wrS_exited (tr : Train) (n : Nat) (d : Dword) : (wrS tr n d).exited = tr.exited := rfl
@[simp] theorem wrS_fresh (tr : Train) (n : Nat) (d : Dword) : (wrS tr n d).fresh = tr.fresh := rfl
@[simp] theorem wrS_latches (tr : Train) (n : Nat) (d : Dword) : (wrS tr n d).latches = tr.latches := rfl
@[simp] theorem wrS_chain (tr : Train) (n : Nat) (d : Dword) : (wrS tr n d).chain = tr.chain := rfl
@[simp] theorem wrS_block (tr : Train) (n : Nat) (d : Dword) : (wrS tr n d).block = tr.block := rfl
@[simp] theorem wrS_priv (tr : Train) (n : Nat) (d : Dword) : (wrS tr n d).priv = tr.priv := rfl
@[simp] theorem wrS_intrap (tr : Train) (n : Nat) (d : Dword) : (wrS tr n d).intrap = tr.intrap := rfl
@[simp] theorem wrS_ppriv (tr : Train) (n : Nat) (d : Dword) : (wrS tr n d).ppriv = tr.ppriv := rfl
@[simp] theorem wrS_tq (tr : Train) (n : Nat) (d : Dword) : (wrS tr n d).tq = tr.tq := rfl
@[simp] theorem wrS_xpc (tr : Train) (n : Nat) (d : Dword) : (wrS tr n d).xpc = tr.xpc := rfl
@[simp] theorem wrS_xstate (tr : Train) (n : Nat) (d : Dword) : (wrS tr n d).xstate = tr.xstate := rfl
@[simp] theorem wrS_xbar (tr : Train) (n : Nat) (d : Dword) : (wrS tr n d).xbar = tr.xbar := rfl
@[simp] theorem wrS_xgbar (tr : Train) (n : Nat) (d : Dword) : (wrS tr n d).xgbar = tr.xgbar := rfl
@[simp] theorem wrS_xk (tr : Train) (n : Nat) (d : Dword) : (wrS tr n d).xk = tr.xk := rfl
@[simp] theorem wrS_xg (tr : Train) (n : Nat) (d : Dword) : (wrS tr n d).xg = tr.xg := rfl
@[simp] theorem wrS_xs (tr : Train) (n : Nat) (d : Dword) : (wrS tr n d).xs = tr.xs := rfl
@[simp] theorem wrS_svctok (tr : Train) (n : Nat) (d : Dword) : (wrS tr n d).svctok = tr.svctok := rfl
@[simp] theorem wrS_rowprog (tr : Train) (n : Nat) (d : Dword) : (wrS tr n d).rowprog = tr.rowprog := rfl
@[simp] theorem wrS_deadline (tr : Train) (n : Nat) (d : Dword) : (wrS tr n d).deadline = tr.deadline := rfl
@[simp] theorem wrS_wkid (tr : Train) (n : Nat) (d : Dword) : (wrS tr n d).wkid = tr.wkid := rfl
@[simp] theorem wrS_stage (tr : Train) (n : Nat) (d : Dword) : (wrS tr n d).stage = tr.stage := rfl
@[simp] theorem wrS_gidx (tr : Train) (n : Nat) (d : Dword) : (wrS tr n d).gidx = tr.gidx := rfl
@[simp] theorem wrS_gotEnd (tr : Train) (n : Nat) (d : Dword) : (wrS tr n d).gotEnd = tr.gotEnd := rfl
@[simp] theorem wrS_grant (tr : Train) (n : Nat) (d : Dword) : (wrS tr n d).grant = tr.grant := rfl
@[simp] theorem wrS_task (tr : Train) (n : Nat) (d : Dword) : (wrS tr n d).task = tr.task := rfl
@[simp] theorem wrS_held (tr : Train) (n : Nat) (d : Dword) : (wrS tr n d).held = tr.held := rfl
@[simp] theorem wrS_predTrap (tr : Train) (n : Nat) (d : Dword) : (wrS tr n d).predTrap = tr.predTrap := rfl
@[simp] theorem wrS_noWait (tr : Train) (n : Nat) (d : Dword) : (wrS tr n d).noWait = tr.noWait := rfl
@[simp] theorem wrS_killed (tr : Train) (n : Nat) (d : Dword) : (wrS tr n d).killed = tr.killed := rfl
@[simp] theorem wrS_kpc (tr : Train) (n : Nat) (d : Dword) : (wrS tr n d).kpc = tr.kpc := rfl
@[simp] theorem wrS_loads (tr : Train) (n : Nat) (d : Dword) : (wrS tr n d).loads = tr.loads := rfl
@[simp] theorem wrS_homes (tr : Train) (n : Nat) (d : Dword) : (wrS tr n d).homes = tr.homes := rfl
@[simp] theorem wrS_stores (tr : Train) (n : Nat) (d : Dword) : (wrS tr n d).stores = tr.stores := rfl
@[simp] theorem wrS_long (tr : Train) (n : Nat) (d : Dword) : (wrS tr n d).long = tr.long := rfl
@[simp] theorem wrS_replies (tr : Train) (n : Nat) (d : Dword) : (wrS tr n d).replies = tr.replies := rfl
@[simp] theorem wrS_asides (tr : Train) (n : Nat) (d : Dword) : (wrS tr n d).asides = tr.asides := rfl
@[simp] theorem wrS_atWait (tr : Train) (n : Nat) (d : Dword) : (wrS tr n d).atWait = tr.atWait := rfl
@[simp] theorem wrS_access (tr : Train) (n : Nat) (d : Dword) : (wrS tr n d).access = tr.access := rfl
@[simp] theorem wrS_act (tr : Train) (n : Nat) (d : Dword) : (wrS tr n d).act = tr.act := rfl
@[simp] theorem wrS_yielded (tr : Train) (n : Nat) (d : Dword) : (wrS tr n d).yielded = tr.yielded := rfl

/-! ### `wrK` -/

@[simp] theorem wrK_uid (tr : Train) (n t : Nat) (b : Bool) : (wrK tr n t b).uid = tr.uid := by unfold wrK; split <;> rfl
@[simp] theorem wrK_core (tr : Train) (n t : Nat) (b : Bool) : (wrK tr n t b).core = tr.core := by unfold wrK; split <;> rfl
@[simp] theorem wrK_slot (tr : Train) (n t : Nat) (b : Bool) : (wrK tr n t b).slot = tr.slot := by unfold wrK; split <;> rfl
@[simp] theorem wrK_wg (tr : Train) (n t : Nat) (b : Bool) : (wrK tr n t b).wg = tr.wg := by unfold wrK; split <;> rfl
@[simp] theorem wrK_launch (tr : Train) (n t : Nat) (b : Bool) : (wrK tr n t b).launch = tr.launch := by unfold wrK; split <;> rfl
@[simp] theorem wrK_trn (tr : Train) (n t : Nat) (b : Bool) : (wrK tr n t b).trn = tr.trn := by unfold wrK; split <;> rfl
@[simp] theorem wrK_part (tr : Train) (n t : Nat) (b : Bool) : (wrK tr n t b).part = tr.part := by unfold wrK; split <;> rfl
@[simp] theorem wrK_asid (tr : Train) (n t : Nat) (b : Bool) : (wrK tr n t b).asid = tr.asid := by unfold wrK; split <;> rfl
@[simp] theorem wrK_prio (tr : Train) (n t : Nat) (b : Bool) : (wrK tr n t b).prio = tr.prio := by unfold wrK; split <;> rfl
@[simp] theorem wrK_depth (tr : Train) (n t : Nat) (b : Bool) : (wrK tr n t b).depth = tr.depth := by unfold wrK; split <;> rfl
@[simp] theorem wrK_vgran (tr : Train) (n t : Nat) (b : Bool) : (wrK tr n t b).vgran = tr.vgran := by unfold wrK; split <;> rfl
@[simp] theorem wrK_sgran (tr : Train) (n t : Nat) (b : Bool) : (wrK tr n t b).sgran = tr.sgran := by unfold wrK; split <;> rfl
@[simp] theorem wrK_v (tr : Train) (n t : Nat) (b : Bool) : (wrK tr n t b).v = tr.v := by unfold wrK; split <;> rfl
@[simp] theorem wrK_o (tr : Train) (n t : Nat) (b : Bool) : (wrK tr n t b).o = tr.o := by unfold wrK; split <;> rfl
@[simp] theorem wrK_s (tr : Train) (n t : Nat) (b : Bool) : (wrK tr n t b).s = tr.s := by unfold wrK; split <;> rfl
@[simp] theorem wrK_g (tr : Train) (n t : Nat) (b : Bool) : (wrK tr n t b).g = tr.g := by unfold wrK; split <;> rfl
@[simp] theorem wrK_flags (tr : Train) (n t : Nat) (b : Bool) : (wrK tr n t b).flags = tr.flags := by unfold wrK; split <;> rfl
@[simp] theorem wrK_pc (tr : Train) (n t : Nat) (b : Bool) : (wrK tr n t b).pc = tr.pc := by unfold wrK; split <;> rfl
@[simp] theorem wrK_pcs (tr : Train) (n t : Nat) (b : Bool) : (wrK tr n t b).pcs = tr.pcs := by unfold wrK; split <;> rfl
@[simp] theorem wrK_selected (tr : Train) (n t : Nat) (b : Bool) : (wrK tr n t b).selected = tr.selected := by unfold wrK; split <;> rfl
@[simp] theorem wrK_heldBar (tr : Train) (n t : Nat) (b : Bool) : (wrK tr n t b).heldBar = tr.heldBar := by unfold wrK; split <;> rfl
@[simp] theorem wrK_heldGbar (tr : Train) (n t : Nat) (b : Bool) : (wrK tr n t b).heldGbar = tr.heldGbar := by unfold wrK; split <;> rfl
@[simp] theorem wrK_exited (tr : Train) (n t : Nat) (b : Bool) : (wrK tr n t b).exited = tr.exited := by unfold wrK; split <;> rfl
@[simp] theorem wrK_fresh (tr : Train) (n t : Nat) (b : Bool) : (wrK tr n t b).fresh = tr.fresh := by unfold wrK; split <;> rfl
@[simp] theorem wrK_marks (tr : Train) (n t : Nat) (b : Bool) : (wrK tr n t b).marks = tr.marks := by unfold wrK; split <;> rfl
@[simp] theorem wrK_latches (tr : Train) (n t : Nat) (b : Bool) : (wrK tr n t b).latches = tr.latches := by unfold wrK; split <;> rfl
@[simp] theorem wrK_chain (tr : Train) (n t : Nat) (b : Bool) : (wrK tr n t b).chain = tr.chain := by unfold wrK; split <;> rfl
@[simp] theorem wrK_block (tr : Train) (n t : Nat) (b : Bool) : (wrK tr n t b).block = tr.block := by unfold wrK; split <;> rfl
@[simp] theorem wrK_priv (tr : Train) (n t : Nat) (b : Bool) : (wrK tr n t b).priv = tr.priv := by unfold wrK; split <;> rfl
@[simp] theorem wrK_intrap (tr : Train) (n t : Nat) (b : Bool) : (wrK tr n t b).intrap = tr.intrap := by unfold wrK; split <;> rfl
@[simp] theorem wrK_ppriv (tr : Train) (n t : Nat) (b : Bool) : (wrK tr n t b).ppriv = tr.ppriv := by unfold wrK; split <;> rfl
@[simp] theorem wrK_tq (tr : Train) (n t : Nat) (b : Bool) : (wrK tr n t b).tq = tr.tq := by unfold wrK; split <;> rfl
@[simp] theorem wrK_xpc (tr : Train) (n t : Nat) (b : Bool) : (wrK tr n t b).xpc = tr.xpc := by unfold wrK; split <;> rfl
@[simp] theorem wrK_xstate (tr : Train) (n t : Nat) (b : Bool) : (wrK tr n t b).xstate = tr.xstate := by unfold wrK; split <;> rfl
@[simp] theorem wrK_xbar (tr : Train) (n t : Nat) (b : Bool) : (wrK tr n t b).xbar = tr.xbar := by unfold wrK; split <;> rfl
@[simp] theorem wrK_xgbar (tr : Train) (n t : Nat) (b : Bool) : (wrK tr n t b).xgbar = tr.xgbar := by unfold wrK; split <;> rfl
@[simp] theorem wrK_xk (tr : Train) (n t : Nat) (b : Bool) : (wrK tr n t b).xk = tr.xk := by unfold wrK; split <;> rfl
@[simp] theorem wrK_xg (tr : Train) (n t : Nat) (b : Bool) : (wrK tr n t b).xg = tr.xg := by unfold wrK; split <;> rfl
@[simp] theorem wrK_xs (tr : Train) (n t : Nat) (b : Bool) : (wrK tr n t b).xs = tr.xs := by unfold wrK; split <;> rfl
@[simp] theorem wrK_svctok (tr : Train) (n t : Nat) (b : Bool) : (wrK tr n t b).svctok = tr.svctok := by unfold wrK; split <;> rfl
@[simp] theorem wrK_rowprog (tr : Train) (n t : Nat) (b : Bool) : (wrK tr n t b).rowprog = tr.rowprog := by unfold wrK; split <;> rfl
@[simp] theorem wrK_deadline (tr : Train) (n t : Nat) (b : Bool) : (wrK tr n t b).deadline = tr.deadline := by unfold wrK; split <;> rfl
@[simp] theorem wrK_wkid (tr : Train) (n t : Nat) (b : Bool) : (wrK tr n t b).wkid = tr.wkid := by unfold wrK; split <;> rfl
@[simp] theorem wrK_stage (tr : Train) (n t : Nat) (b : Bool) : (wrK tr n t b).stage = tr.stage := by unfold wrK; split <;> rfl
@[simp] theorem wrK_gidx (tr : Train) (n t : Nat) (b : Bool) : (wrK tr n t b).gidx = tr.gidx := by unfold wrK; split <;> rfl
@[simp] theorem wrK_gotEnd (tr : Train) (n t : Nat) (b : Bool) : (wrK tr n t b).gotEnd = tr.gotEnd := by unfold wrK; split <;> rfl
@[simp] theorem wrK_grant (tr : Train) (n t : Nat) (b : Bool) : (wrK tr n t b).grant = tr.grant := by unfold wrK; split <;> rfl
@[simp] theorem wrK_task (tr : Train) (n t : Nat) (b : Bool) : (wrK tr n t b).task = tr.task := by unfold wrK; split <;> rfl
@[simp] theorem wrK_held (tr : Train) (n t : Nat) (b : Bool) : (wrK tr n t b).held = tr.held := by unfold wrK; split <;> rfl
@[simp] theorem wrK_predTrap (tr : Train) (n t : Nat) (b : Bool) : (wrK tr n t b).predTrap = tr.predTrap := by unfold wrK; split <;> rfl
@[simp] theorem wrK_noWait (tr : Train) (n t : Nat) (b : Bool) : (wrK tr n t b).noWait = tr.noWait := by unfold wrK; split <;> rfl
@[simp] theorem wrK_killed (tr : Train) (n t : Nat) (b : Bool) : (wrK tr n t b).killed = tr.killed := by unfold wrK; split <;> rfl
@[simp] theorem wrK_kpc (tr : Train) (n t : Nat) (b : Bool) : (wrK tr n t b).kpc = tr.kpc := by unfold wrK; split <;> rfl
@[simp] theorem wrK_loads (tr : Train) (n t : Nat) (b : Bool) : (wrK tr n t b).loads = tr.loads := by unfold wrK; split <;> rfl
@[simp] theorem wrK_homes (tr : Train) (n t : Nat) (b : Bool) : (wrK tr n t b).homes = tr.homes := by unfold wrK; split <;> rfl
@[simp] theorem wrK_stores (tr : Train) (n t : Nat) (b : Bool) : (wrK tr n t b).stores = tr.stores := by unfold wrK; split <;> rfl
@[simp] theorem wrK_long (tr : Train) (n t : Nat) (b : Bool) : (wrK tr n t b).long = tr.long := by unfold wrK; split <;> rfl
@[simp] theorem wrK_replies (tr : Train) (n t : Nat) (b : Bool) : (wrK tr n t b).replies = tr.replies := by unfold wrK; split <;> rfl
@[simp] theorem wrK_asides (tr : Train) (n t : Nat) (b : Bool) : (wrK tr n t b).asides = tr.asides := by unfold wrK; split <;> rfl
@[simp] theorem wrK_atWait (tr : Train) (n t : Nat) (b : Bool) : (wrK tr n t b).atWait = tr.atWait := by unfold wrK; split <;> rfl
@[simp] theorem wrK_access (tr : Train) (n t : Nat) (b : Bool) : (wrK tr n t b).access = tr.access := by unfold wrK; split <;> rfl
@[simp] theorem wrK_act (tr : Train) (n t : Nat) (b : Bool) : (wrK tr n t b).act = tr.act := by unfold wrK; split <;> rfl
@[simp] theorem wrK_yielded (tr : Train) (n t : Nat) (b : Bool) : (wrK tr n t b).yielded = tr.yielded := by unfold wrK; split <;> rfl

/-! ### `wrG` -/

@[simp] theorem wrG_uid (tr : Train) (n : Nat) (b : Bool) : (wrG tr n b).uid = tr.uid := by unfold wrG; split <;> rfl
@[simp] theorem wrG_core (tr : Train) (n : Nat) (b : Bool) : (wrG tr n b).core = tr.core := by unfold wrG; split <;> rfl
@[simp] theorem wrG_slot (tr : Train) (n : Nat) (b : Bool) : (wrG tr n b).slot = tr.slot := by unfold wrG; split <;> rfl
@[simp] theorem wrG_wg (tr : Train) (n : Nat) (b : Bool) : (wrG tr n b).wg = tr.wg := by unfold wrG; split <;> rfl
@[simp] theorem wrG_launch (tr : Train) (n : Nat) (b : Bool) : (wrG tr n b).launch = tr.launch := by unfold wrG; split <;> rfl
@[simp] theorem wrG_trn (tr : Train) (n : Nat) (b : Bool) : (wrG tr n b).trn = tr.trn := by unfold wrG; split <;> rfl
@[simp] theorem wrG_part (tr : Train) (n : Nat) (b : Bool) : (wrG tr n b).part = tr.part := by unfold wrG; split <;> rfl
@[simp] theorem wrG_asid (tr : Train) (n : Nat) (b : Bool) : (wrG tr n b).asid = tr.asid := by unfold wrG; split <;> rfl
@[simp] theorem wrG_prio (tr : Train) (n : Nat) (b : Bool) : (wrG tr n b).prio = tr.prio := by unfold wrG; split <;> rfl
@[simp] theorem wrG_depth (tr : Train) (n : Nat) (b : Bool) : (wrG tr n b).depth = tr.depth := by unfold wrG; split <;> rfl
@[simp] theorem wrG_vgran (tr : Train) (n : Nat) (b : Bool) : (wrG tr n b).vgran = tr.vgran := by unfold wrG; split <;> rfl
@[simp] theorem wrG_sgran (tr : Train) (n : Nat) (b : Bool) : (wrG tr n b).sgran = tr.sgran := by unfold wrG; split <;> rfl
@[simp] theorem wrG_v (tr : Train) (n : Nat) (b : Bool) : (wrG tr n b).v = tr.v := by unfold wrG; split <;> rfl
@[simp] theorem wrG_o (tr : Train) (n : Nat) (b : Bool) : (wrG tr n b).o = tr.o := by unfold wrG; split <;> rfl
@[simp] theorem wrG_s (tr : Train) (n : Nat) (b : Bool) : (wrG tr n b).s = tr.s := by unfold wrG; split <;> rfl
@[simp] theorem wrG_k (tr : Train) (n : Nat) (b : Bool) : (wrG tr n b).k = tr.k := by unfold wrG; split <;> rfl
@[simp] theorem wrG_flags (tr : Train) (n : Nat) (b : Bool) : (wrG tr n b).flags = tr.flags := by unfold wrG; split <;> rfl
@[simp] theorem wrG_pc (tr : Train) (n : Nat) (b : Bool) : (wrG tr n b).pc = tr.pc := by unfold wrG; split <;> rfl
@[simp] theorem wrG_pcs (tr : Train) (n : Nat) (b : Bool) : (wrG tr n b).pcs = tr.pcs := by unfold wrG; split <;> rfl
@[simp] theorem wrG_selected (tr : Train) (n : Nat) (b : Bool) : (wrG tr n b).selected = tr.selected := by unfold wrG; split <;> rfl
@[simp] theorem wrG_heldBar (tr : Train) (n : Nat) (b : Bool) : (wrG tr n b).heldBar = tr.heldBar := by unfold wrG; split <;> rfl
@[simp] theorem wrG_heldGbar (tr : Train) (n : Nat) (b : Bool) : (wrG tr n b).heldGbar = tr.heldGbar := by unfold wrG; split <;> rfl
@[simp] theorem wrG_exited (tr : Train) (n : Nat) (b : Bool) : (wrG tr n b).exited = tr.exited := by unfold wrG; split <;> rfl
@[simp] theorem wrG_fresh (tr : Train) (n : Nat) (b : Bool) : (wrG tr n b).fresh = tr.fresh := by unfold wrG; split <;> rfl
@[simp] theorem wrG_marks (tr : Train) (n : Nat) (b : Bool) : (wrG tr n b).marks = tr.marks := by unfold wrG; split <;> rfl
@[simp] theorem wrG_latches (tr : Train) (n : Nat) (b : Bool) : (wrG tr n b).latches = tr.latches := by unfold wrG; split <;> rfl
@[simp] theorem wrG_chain (tr : Train) (n : Nat) (b : Bool) : (wrG tr n b).chain = tr.chain := by unfold wrG; split <;> rfl
@[simp] theorem wrG_block (tr : Train) (n : Nat) (b : Bool) : (wrG tr n b).block = tr.block := by unfold wrG; split <;> rfl
@[simp] theorem wrG_priv (tr : Train) (n : Nat) (b : Bool) : (wrG tr n b).priv = tr.priv := by unfold wrG; split <;> rfl
@[simp] theorem wrG_intrap (tr : Train) (n : Nat) (b : Bool) : (wrG tr n b).intrap = tr.intrap := by unfold wrG; split <;> rfl
@[simp] theorem wrG_ppriv (tr : Train) (n : Nat) (b : Bool) : (wrG tr n b).ppriv = tr.ppriv := by unfold wrG; split <;> rfl
@[simp] theorem wrG_tq (tr : Train) (n : Nat) (b : Bool) : (wrG tr n b).tq = tr.tq := by unfold wrG; split <;> rfl
@[simp] theorem wrG_xpc (tr : Train) (n : Nat) (b : Bool) : (wrG tr n b).xpc = tr.xpc := by unfold wrG; split <;> rfl
@[simp] theorem wrG_xstate (tr : Train) (n : Nat) (b : Bool) : (wrG tr n b).xstate = tr.xstate := by unfold wrG; split <;> rfl
@[simp] theorem wrG_xbar (tr : Train) (n : Nat) (b : Bool) : (wrG tr n b).xbar = tr.xbar := by unfold wrG; split <;> rfl
@[simp] theorem wrG_xgbar (tr : Train) (n : Nat) (b : Bool) : (wrG tr n b).xgbar = tr.xgbar := by unfold wrG; split <;> rfl
@[simp] theorem wrG_xk (tr : Train) (n : Nat) (b : Bool) : (wrG tr n b).xk = tr.xk := by unfold wrG; split <;> rfl
@[simp] theorem wrG_xg (tr : Train) (n : Nat) (b : Bool) : (wrG tr n b).xg = tr.xg := by unfold wrG; split <;> rfl
@[simp] theorem wrG_xs (tr : Train) (n : Nat) (b : Bool) : (wrG tr n b).xs = tr.xs := by unfold wrG; split <;> rfl
@[simp] theorem wrG_svctok (tr : Train) (n : Nat) (b : Bool) : (wrG tr n b).svctok = tr.svctok := by unfold wrG; split <;> rfl
@[simp] theorem wrG_rowprog (tr : Train) (n : Nat) (b : Bool) : (wrG tr n b).rowprog = tr.rowprog := by unfold wrG; split <;> rfl
@[simp] theorem wrG_deadline (tr : Train) (n : Nat) (b : Bool) : (wrG tr n b).deadline = tr.deadline := by unfold wrG; split <;> rfl
@[simp] theorem wrG_wkid (tr : Train) (n : Nat) (b : Bool) : (wrG tr n b).wkid = tr.wkid := by unfold wrG; split <;> rfl
@[simp] theorem wrG_stage (tr : Train) (n : Nat) (b : Bool) : (wrG tr n b).stage = tr.stage := by unfold wrG; split <;> rfl
@[simp] theorem wrG_gidx (tr : Train) (n : Nat) (b : Bool) : (wrG tr n b).gidx = tr.gidx := by unfold wrG; split <;> rfl
@[simp] theorem wrG_gotEnd (tr : Train) (n : Nat) (b : Bool) : (wrG tr n b).gotEnd = tr.gotEnd := by unfold wrG; split <;> rfl
@[simp] theorem wrG_grant (tr : Train) (n : Nat) (b : Bool) : (wrG tr n b).grant = tr.grant := by unfold wrG; split <;> rfl
@[simp] theorem wrG_task (tr : Train) (n : Nat) (b : Bool) : (wrG tr n b).task = tr.task := by unfold wrG; split <;> rfl
@[simp] theorem wrG_held (tr : Train) (n : Nat) (b : Bool) : (wrG tr n b).held = tr.held := by unfold wrG; split <;> rfl
@[simp] theorem wrG_predTrap (tr : Train) (n : Nat) (b : Bool) : (wrG tr n b).predTrap = tr.predTrap := by unfold wrG; split <;> rfl
@[simp] theorem wrG_noWait (tr : Train) (n : Nat) (b : Bool) : (wrG tr n b).noWait = tr.noWait := by unfold wrG; split <;> rfl
@[simp] theorem wrG_killed (tr : Train) (n : Nat) (b : Bool) : (wrG tr n b).killed = tr.killed := by unfold wrG; split <;> rfl
@[simp] theorem wrG_kpc (tr : Train) (n : Nat) (b : Bool) : (wrG tr n b).kpc = tr.kpc := by unfold wrG; split <;> rfl
@[simp] theorem wrG_loads (tr : Train) (n : Nat) (b : Bool) : (wrG tr n b).loads = tr.loads := by unfold wrG; split <;> rfl
@[simp] theorem wrG_homes (tr : Train) (n : Nat) (b : Bool) : (wrG tr n b).homes = tr.homes := by unfold wrG; split <;> rfl
@[simp] theorem wrG_stores (tr : Train) (n : Nat) (b : Bool) : (wrG tr n b).stores = tr.stores := by unfold wrG; split <;> rfl
@[simp] theorem wrG_long (tr : Train) (n : Nat) (b : Bool) : (wrG tr n b).long = tr.long := by unfold wrG; split <;> rfl
@[simp] theorem wrG_replies (tr : Train) (n : Nat) (b : Bool) : (wrG tr n b).replies = tr.replies := by unfold wrG; split <;> rfl
@[simp] theorem wrG_asides (tr : Train) (n : Nat) (b : Bool) : (wrG tr n b).asides = tr.asides := by unfold wrG; split <;> rfl
@[simp] theorem wrG_atWait (tr : Train) (n : Nat) (b : Bool) : (wrG tr n b).atWait = tr.atWait := by unfold wrG; split <;> rfl
@[simp] theorem wrG_access (tr : Train) (n : Nat) (b : Bool) : (wrG tr n b).access = tr.access := by unfold wrG; split <;> rfl
@[simp] theorem wrG_act (tr : Train) (n : Nat) (b : Bool) : (wrG tr n b).act = tr.act := by unfold wrG; split <;> rfl
@[simp] theorem wrG_yielded (tr : Train) (n : Nat) (b : Bool) : (wrG tr n b).yielded = tr.yielded := by unfold wrG; split <;> rfl

/-! ### `setFlags` -/

@[simp] theorem setFlags_uid (tr : Train) (f : FlagSet) : (setFlags tr f).uid = tr.uid := rfl
@[simp] theorem setFlags_core (tr : Train) (f : FlagSet) : (setFlags tr f).core = tr.core := rfl
@[simp] theorem setFlags_slot (tr : Train) (f : FlagSet) : (setFlags tr f).slot = tr.slot := rfl
@[simp] theorem setFlags_wg (tr : Train) (f : FlagSet) : (setFlags tr f).wg = tr.wg := rfl
@[simp] theorem setFlags_launch (tr : Train) (f : FlagSet) : (setFlags tr f).launch = tr.launch := rfl
@[simp] theorem setFlags_trn (tr : Train) (f : FlagSet) : (setFlags tr f).trn = tr.trn := rfl
@[simp] theorem setFlags_part (tr : Train) (f : FlagSet) : (setFlags tr f).part = tr.part := rfl
@[simp] theorem setFlags_asid (tr : Train) (f : FlagSet) : (setFlags tr f).asid = tr.asid := rfl
@[simp] theorem setFlags_prio (tr : Train) (f : FlagSet) : (setFlags tr f).prio = tr.prio := rfl
@[simp] theorem setFlags_depth (tr : Train) (f : FlagSet) : (setFlags tr f).depth = tr.depth := rfl
@[simp] theorem setFlags_vgran (tr : Train) (f : FlagSet) : (setFlags tr f).vgran = tr.vgran := rfl
@[simp] theorem setFlags_sgran (tr : Train) (f : FlagSet) : (setFlags tr f).sgran = tr.sgran := rfl
@[simp] theorem setFlags_v (tr : Train) (f : FlagSet) : (setFlags tr f).v = tr.v := rfl
@[simp] theorem setFlags_o (tr : Train) (f : FlagSet) : (setFlags tr f).o = tr.o := rfl
@[simp] theorem setFlags_s (tr : Train) (f : FlagSet) : (setFlags tr f).s = tr.s := rfl
@[simp] theorem setFlags_k (tr : Train) (f : FlagSet) : (setFlags tr f).k = tr.k := rfl
@[simp] theorem setFlags_g (tr : Train) (f : FlagSet) : (setFlags tr f).g = tr.g := rfl
@[simp] theorem setFlags_pc (tr : Train) (f : FlagSet) : (setFlags tr f).pc = tr.pc := rfl
@[simp] theorem setFlags_pcs (tr : Train) (f : FlagSet) : (setFlags tr f).pcs = tr.pcs := rfl
@[simp] theorem setFlags_selected (tr : Train) (f : FlagSet) : (setFlags tr f).selected = tr.selected := rfl
@[simp] theorem setFlags_heldBar (tr : Train) (f : FlagSet) : (setFlags tr f).heldBar = tr.heldBar := rfl
@[simp] theorem setFlags_heldGbar (tr : Train) (f : FlagSet) : (setFlags tr f).heldGbar = tr.heldGbar := rfl
@[simp] theorem setFlags_exited (tr : Train) (f : FlagSet) : (setFlags tr f).exited = tr.exited := rfl
@[simp] theorem setFlags_fresh (tr : Train) (f : FlagSet) : (setFlags tr f).fresh = tr.fresh := rfl
@[simp] theorem setFlags_marks (tr : Train) (f : FlagSet) : (setFlags tr f).marks = tr.marks := rfl
@[simp] theorem setFlags_latches (tr : Train) (f : FlagSet) : (setFlags tr f).latches = tr.latches := rfl
@[simp] theorem setFlags_chain (tr : Train) (f : FlagSet) : (setFlags tr f).chain = tr.chain := rfl
@[simp] theorem setFlags_block (tr : Train) (f : FlagSet) : (setFlags tr f).block = tr.block := rfl
@[simp] theorem setFlags_priv (tr : Train) (f : FlagSet) : (setFlags tr f).priv = tr.priv := rfl
@[simp] theorem setFlags_intrap (tr : Train) (f : FlagSet) : (setFlags tr f).intrap = tr.intrap := rfl
@[simp] theorem setFlags_ppriv (tr : Train) (f : FlagSet) : (setFlags tr f).ppriv = tr.ppriv := rfl
@[simp] theorem setFlags_tq (tr : Train) (f : FlagSet) : (setFlags tr f).tq = tr.tq := rfl
@[simp] theorem setFlags_xpc (tr : Train) (f : FlagSet) : (setFlags tr f).xpc = tr.xpc := rfl
@[simp] theorem setFlags_xstate (tr : Train) (f : FlagSet) : (setFlags tr f).xstate = tr.xstate := rfl
@[simp] theorem setFlags_xbar (tr : Train) (f : FlagSet) : (setFlags tr f).xbar = tr.xbar := rfl
@[simp] theorem setFlags_xgbar (tr : Train) (f : FlagSet) : (setFlags tr f).xgbar = tr.xgbar := rfl
@[simp] theorem setFlags_xk (tr : Train) (f : FlagSet) : (setFlags tr f).xk = tr.xk := rfl
@[simp] theorem setFlags_xg (tr : Train) (f : FlagSet) : (setFlags tr f).xg = tr.xg := rfl
@[simp] theorem setFlags_xs (tr : Train) (f : FlagSet) : (setFlags tr f).xs = tr.xs := rfl
@[simp] theorem setFlags_svctok (tr : Train) (f : FlagSet) : (setFlags tr f).svctok = tr.svctok := rfl
@[simp] theorem setFlags_rowprog (tr : Train) (f : FlagSet) : (setFlags tr f).rowprog = tr.rowprog := rfl
@[simp] theorem setFlags_deadline (tr : Train) (f : FlagSet) : (setFlags tr f).deadline = tr.deadline := rfl
@[simp] theorem setFlags_wkid (tr : Train) (f : FlagSet) : (setFlags tr f).wkid = tr.wkid := rfl
@[simp] theorem setFlags_stage (tr : Train) (f : FlagSet) : (setFlags tr f).stage = tr.stage := rfl
@[simp] theorem setFlags_gidx (tr : Train) (f : FlagSet) : (setFlags tr f).gidx = tr.gidx := rfl
@[simp] theorem setFlags_gotEnd (tr : Train) (f : FlagSet) : (setFlags tr f).gotEnd = tr.gotEnd := rfl
@[simp] theorem setFlags_grant (tr : Train) (f : FlagSet) : (setFlags tr f).grant = tr.grant := rfl
@[simp] theorem setFlags_task (tr : Train) (f : FlagSet) : (setFlags tr f).task = tr.task := rfl
@[simp] theorem setFlags_held (tr : Train) (f : FlagSet) : (setFlags tr f).held = tr.held := rfl
@[simp] theorem setFlags_predTrap (tr : Train) (f : FlagSet) : (setFlags tr f).predTrap = tr.predTrap := rfl
@[simp] theorem setFlags_noWait (tr : Train) (f : FlagSet) : (setFlags tr f).noWait = tr.noWait := rfl
@[simp] theorem setFlags_killed (tr : Train) (f : FlagSet) : (setFlags tr f).killed = tr.killed := rfl
@[simp] theorem setFlags_kpc (tr : Train) (f : FlagSet) : (setFlags tr f).kpc = tr.kpc := rfl
@[simp] theorem setFlags_loads (tr : Train) (f : FlagSet) : (setFlags tr f).loads = tr.loads := rfl
@[simp] theorem setFlags_homes (tr : Train) (f : FlagSet) : (setFlags tr f).homes = tr.homes := rfl
@[simp] theorem setFlags_stores (tr : Train) (f : FlagSet) : (setFlags tr f).stores = tr.stores := rfl
@[simp] theorem setFlags_long (tr : Train) (f : FlagSet) : (setFlags tr f).long = tr.long := rfl
@[simp] theorem setFlags_replies (tr : Train) (f : FlagSet) : (setFlags tr f).replies = tr.replies := rfl
@[simp] theorem setFlags_asides (tr : Train) (f : FlagSet) : (setFlags tr f).asides = tr.asides := rfl
@[simp] theorem setFlags_atWait (tr : Train) (f : FlagSet) : (setFlags tr f).atWait = tr.atWait := rfl
@[simp] theorem setFlags_access (tr : Train) (f : FlagSet) : (setFlags tr f).access = tr.access := rfl
@[simp] theorem setFlags_act (tr : Train) (f : FlagSet) : (setFlags tr f).act = tr.act := rfl
@[simp] theorem setFlags_yielded (tr : Train) (f : FlagSet) : (setFlags tr f).yielded = tr.yielded := rfl

/-! ### `pushLatch` -/

@[simp] theorem pushLatch_uid (tr : Train) (m : Tab Word) : (pushLatch tr m).uid = tr.uid := rfl
@[simp] theorem pushLatch_core (tr : Train) (m : Tab Word) : (pushLatch tr m).core = tr.core := rfl
@[simp] theorem pushLatch_slot (tr : Train) (m : Tab Word) : (pushLatch tr m).slot = tr.slot := rfl
@[simp] theorem pushLatch_wg (tr : Train) (m : Tab Word) : (pushLatch tr m).wg = tr.wg := rfl
@[simp] theorem pushLatch_launch (tr : Train) (m : Tab Word) : (pushLatch tr m).launch = tr.launch := rfl
@[simp] theorem pushLatch_trn (tr : Train) (m : Tab Word) : (pushLatch tr m).trn = tr.trn := rfl
@[simp] theorem pushLatch_part (tr : Train) (m : Tab Word) : (pushLatch tr m).part = tr.part := rfl
@[simp] theorem pushLatch_asid (tr : Train) (m : Tab Word) : (pushLatch tr m).asid = tr.asid := rfl
@[simp] theorem pushLatch_prio (tr : Train) (m : Tab Word) : (pushLatch tr m).prio = tr.prio := rfl
@[simp] theorem pushLatch_depth (tr : Train) (m : Tab Word) : (pushLatch tr m).depth = tr.depth := rfl
@[simp] theorem pushLatch_vgran (tr : Train) (m : Tab Word) : (pushLatch tr m).vgran = tr.vgran := rfl
@[simp] theorem pushLatch_sgran (tr : Train) (m : Tab Word) : (pushLatch tr m).sgran = tr.sgran := rfl
@[simp] theorem pushLatch_v (tr : Train) (m : Tab Word) : (pushLatch tr m).v = tr.v := rfl
@[simp] theorem pushLatch_o (tr : Train) (m : Tab Word) : (pushLatch tr m).o = tr.o := rfl
@[simp] theorem pushLatch_s (tr : Train) (m : Tab Word) : (pushLatch tr m).s = tr.s := rfl
@[simp] theorem pushLatch_k (tr : Train) (m : Tab Word) : (pushLatch tr m).k = tr.k := rfl
@[simp] theorem pushLatch_g (tr : Train) (m : Tab Word) : (pushLatch tr m).g = tr.g := rfl
@[simp] theorem pushLatch_flags (tr : Train) (m : Tab Word) : (pushLatch tr m).flags = tr.flags := rfl
@[simp] theorem pushLatch_pc (tr : Train) (m : Tab Word) : (pushLatch tr m).pc = tr.pc := rfl
@[simp] theorem pushLatch_pcs (tr : Train) (m : Tab Word) : (pushLatch tr m).pcs = tr.pcs := rfl
@[simp] theorem pushLatch_selected (tr : Train) (m : Tab Word) : (pushLatch tr m).selected = tr.selected := rfl
@[simp] theorem pushLatch_heldBar (tr : Train) (m : Tab Word) : (pushLatch tr m).heldBar = tr.heldBar := rfl
@[simp] theorem pushLatch_heldGbar (tr : Train) (m : Tab Word) : (pushLatch tr m).heldGbar = tr.heldGbar := rfl
@[simp] theorem pushLatch_exited (tr : Train) (m : Tab Word) : (pushLatch tr m).exited = tr.exited := rfl
@[simp] theorem pushLatch_fresh (tr : Train) (m : Tab Word) : (pushLatch tr m).fresh = tr.fresh := rfl
@[simp] theorem pushLatch_marks (tr : Train) (m : Tab Word) : (pushLatch tr m).marks = tr.marks := rfl
@[simp] theorem pushLatch_chain (tr : Train) (m : Tab Word) : (pushLatch tr m).chain = tr.chain := rfl
@[simp] theorem pushLatch_block (tr : Train) (m : Tab Word) : (pushLatch tr m).block = tr.block := rfl
@[simp] theorem pushLatch_priv (tr : Train) (m : Tab Word) : (pushLatch tr m).priv = tr.priv := rfl
@[simp] theorem pushLatch_intrap (tr : Train) (m : Tab Word) : (pushLatch tr m).intrap = tr.intrap := rfl
@[simp] theorem pushLatch_ppriv (tr : Train) (m : Tab Word) : (pushLatch tr m).ppriv = tr.ppriv := rfl
@[simp] theorem pushLatch_tq (tr : Train) (m : Tab Word) : (pushLatch tr m).tq = tr.tq := rfl
@[simp] theorem pushLatch_xpc (tr : Train) (m : Tab Word) : (pushLatch tr m).xpc = tr.xpc := rfl
@[simp] theorem pushLatch_xstate (tr : Train) (m : Tab Word) : (pushLatch tr m).xstate = tr.xstate := rfl
@[simp] theorem pushLatch_xbar (tr : Train) (m : Tab Word) : (pushLatch tr m).xbar = tr.xbar := rfl
@[simp] theorem pushLatch_xgbar (tr : Train) (m : Tab Word) : (pushLatch tr m).xgbar = tr.xgbar := rfl
@[simp] theorem pushLatch_xk (tr : Train) (m : Tab Word) : (pushLatch tr m).xk = tr.xk := rfl
@[simp] theorem pushLatch_xg (tr : Train) (m : Tab Word) : (pushLatch tr m).xg = tr.xg := rfl
@[simp] theorem pushLatch_xs (tr : Train) (m : Tab Word) : (pushLatch tr m).xs = tr.xs := rfl
@[simp] theorem pushLatch_svctok (tr : Train) (m : Tab Word) : (pushLatch tr m).svctok = tr.svctok := rfl
@[simp] theorem pushLatch_rowprog (tr : Train) (m : Tab Word) : (pushLatch tr m).rowprog = tr.rowprog := rfl
@[simp] theorem pushLatch_deadline (tr : Train) (m : Tab Word) : (pushLatch tr m).deadline = tr.deadline := rfl
@[simp] theorem pushLatch_wkid (tr : Train) (m : Tab Word) : (pushLatch tr m).wkid = tr.wkid := rfl
@[simp] theorem pushLatch_stage (tr : Train) (m : Tab Word) : (pushLatch tr m).stage = tr.stage := rfl
@[simp] theorem pushLatch_gidx (tr : Train) (m : Tab Word) : (pushLatch tr m).gidx = tr.gidx := rfl
@[simp] theorem pushLatch_gotEnd (tr : Train) (m : Tab Word) : (pushLatch tr m).gotEnd = tr.gotEnd := rfl
@[simp] theorem pushLatch_grant (tr : Train) (m : Tab Word) : (pushLatch tr m).grant = tr.grant := rfl
@[simp] theorem pushLatch_task (tr : Train) (m : Tab Word) : (pushLatch tr m).task = tr.task := rfl
@[simp] theorem pushLatch_held (tr : Train) (m : Tab Word) : (pushLatch tr m).held = tr.held := rfl
@[simp] theorem pushLatch_predTrap (tr : Train) (m : Tab Word) : (pushLatch tr m).predTrap = tr.predTrap := rfl
@[simp] theorem pushLatch_noWait (tr : Train) (m : Tab Word) : (pushLatch tr m).noWait = tr.noWait := rfl
@[simp] theorem pushLatch_killed (tr : Train) (m : Tab Word) : (pushLatch tr m).killed = tr.killed := rfl
@[simp] theorem pushLatch_kpc (tr : Train) (m : Tab Word) : (pushLatch tr m).kpc = tr.kpc := rfl
@[simp] theorem pushLatch_loads (tr : Train) (m : Tab Word) : (pushLatch tr m).loads = tr.loads := rfl
@[simp] theorem pushLatch_homes (tr : Train) (m : Tab Word) : (pushLatch tr m).homes = tr.homes := rfl
@[simp] theorem pushLatch_stores (tr : Train) (m : Tab Word) : (pushLatch tr m).stores = tr.stores := rfl
@[simp] theorem pushLatch_long (tr : Train) (m : Tab Word) : (pushLatch tr m).long = tr.long := rfl
@[simp] theorem pushLatch_replies (tr : Train) (m : Tab Word) : (pushLatch tr m).replies = tr.replies := rfl
@[simp] theorem pushLatch_asides (tr : Train) (m : Tab Word) : (pushLatch tr m).asides = tr.asides := rfl
@[simp] theorem pushLatch_atWait (tr : Train) (m : Tab Word) : (pushLatch tr m).atWait = tr.atWait := rfl
@[simp] theorem pushLatch_access (tr : Train) (m : Tab Word) : (pushLatch tr m).access = tr.access := rfl
@[simp] theorem pushLatch_act (tr : Train) (m : Tab Word) : (pushLatch tr m).act = tr.act := rfl
@[simp] theorem pushLatch_yielded (tr : Train) (m : Tab Word) : (pushLatch tr m).yielded = tr.yielded := rfl

/-! ### `ageLoads` -/

@[simp] theorem ageLoads_uid (tr : Train) : (ageLoads tr).uid = tr.uid := rfl
@[simp] theorem ageLoads_core (tr : Train) : (ageLoads tr).core = tr.core := rfl
@[simp] theorem ageLoads_slot (tr : Train) : (ageLoads tr).slot = tr.slot := rfl
@[simp] theorem ageLoads_wg (tr : Train) : (ageLoads tr).wg = tr.wg := rfl
@[simp] theorem ageLoads_launch (tr : Train) : (ageLoads tr).launch = tr.launch := rfl
@[simp] theorem ageLoads_trn (tr : Train) : (ageLoads tr).trn = tr.trn := rfl
@[simp] theorem ageLoads_part (tr : Train) : (ageLoads tr).part = tr.part := rfl
@[simp] theorem ageLoads_asid (tr : Train) : (ageLoads tr).asid = tr.asid := rfl
@[simp] theorem ageLoads_prio (tr : Train) : (ageLoads tr).prio = tr.prio := rfl
@[simp] theorem ageLoads_depth (tr : Train) : (ageLoads tr).depth = tr.depth := rfl
@[simp] theorem ageLoads_vgran (tr : Train) : (ageLoads tr).vgran = tr.vgran := rfl
@[simp] theorem ageLoads_sgran (tr : Train) : (ageLoads tr).sgran = tr.sgran := rfl
@[simp] theorem ageLoads_v (tr : Train) : (ageLoads tr).v = tr.v := rfl
@[simp] theorem ageLoads_o (tr : Train) : (ageLoads tr).o = tr.o := rfl
@[simp] theorem ageLoads_s (tr : Train) : (ageLoads tr).s = tr.s := rfl
@[simp] theorem ageLoads_k (tr : Train) : (ageLoads tr).k = tr.k := rfl
@[simp] theorem ageLoads_g (tr : Train) : (ageLoads tr).g = tr.g := rfl
@[simp] theorem ageLoads_flags (tr : Train) : (ageLoads tr).flags = tr.flags := rfl
@[simp] theorem ageLoads_pc (tr : Train) : (ageLoads tr).pc = tr.pc := rfl
@[simp] theorem ageLoads_pcs (tr : Train) : (ageLoads tr).pcs = tr.pcs := rfl
@[simp] theorem ageLoads_selected (tr : Train) : (ageLoads tr).selected = tr.selected := rfl
@[simp] theorem ageLoads_heldBar (tr : Train) : (ageLoads tr).heldBar = tr.heldBar := rfl
@[simp] theorem ageLoads_heldGbar (tr : Train) : (ageLoads tr).heldGbar = tr.heldGbar := rfl
@[simp] theorem ageLoads_exited (tr : Train) : (ageLoads tr).exited = tr.exited := rfl
@[simp] theorem ageLoads_fresh (tr : Train) : (ageLoads tr).fresh = tr.fresh := rfl
@[simp] theorem ageLoads_marks (tr : Train) : (ageLoads tr).marks = tr.marks := rfl
@[simp] theorem ageLoads_latches (tr : Train) : (ageLoads tr).latches = tr.latches := rfl
@[simp] theorem ageLoads_chain (tr : Train) : (ageLoads tr).chain = tr.chain := rfl
@[simp] theorem ageLoads_block (tr : Train) : (ageLoads tr).block = tr.block := rfl
@[simp] theorem ageLoads_priv (tr : Train) : (ageLoads tr).priv = tr.priv := rfl
@[simp] theorem ageLoads_intrap (tr : Train) : (ageLoads tr).intrap = tr.intrap := rfl
@[simp] theorem ageLoads_ppriv (tr : Train) : (ageLoads tr).ppriv = tr.ppriv := rfl
@[simp] theorem ageLoads_tq (tr : Train) : (ageLoads tr).tq = tr.tq := rfl
@[simp] theorem ageLoads_xpc (tr : Train) : (ageLoads tr).xpc = tr.xpc := rfl
@[simp] theorem ageLoads_xstate (tr : Train) : (ageLoads tr).xstate = tr.xstate := rfl
@[simp] theorem ageLoads_xbar (tr : Train) : (ageLoads tr).xbar = tr.xbar := rfl
@[simp] theorem ageLoads_xgbar (tr : Train) : (ageLoads tr).xgbar = tr.xgbar := rfl
@[simp] theorem ageLoads_xk (tr : Train) : (ageLoads tr).xk = tr.xk := rfl
@[simp] theorem ageLoads_xg (tr : Train) : (ageLoads tr).xg = tr.xg := rfl
@[simp] theorem ageLoads_xs (tr : Train) : (ageLoads tr).xs = tr.xs := rfl
@[simp] theorem ageLoads_svctok (tr : Train) : (ageLoads tr).svctok = tr.svctok := rfl
@[simp] theorem ageLoads_rowprog (tr : Train) : (ageLoads tr).rowprog = tr.rowprog := rfl
@[simp] theorem ageLoads_deadline (tr : Train) : (ageLoads tr).deadline = tr.deadline := rfl
@[simp] theorem ageLoads_wkid (tr : Train) : (ageLoads tr).wkid = tr.wkid := rfl
@[simp] theorem ageLoads_stage (tr : Train) : (ageLoads tr).stage = tr.stage := rfl
@[simp] theorem ageLoads_gidx (tr : Train) : (ageLoads tr).gidx = tr.gidx := rfl
@[simp] theorem ageLoads_gotEnd (tr : Train) : (ageLoads tr).gotEnd = tr.gotEnd := rfl
@[simp] theorem ageLoads_grant (tr : Train) : (ageLoads tr).grant = tr.grant := rfl
@[simp] theorem ageLoads_task (tr : Train) : (ageLoads tr).task = tr.task := rfl
@[simp] theorem ageLoads_held (tr : Train) : (ageLoads tr).held = tr.held := rfl
@[simp] theorem ageLoads_predTrap (tr : Train) : (ageLoads tr).predTrap = tr.predTrap := rfl
@[simp] theorem ageLoads_noWait (tr : Train) : (ageLoads tr).noWait = tr.noWait := rfl
@[simp] theorem ageLoads_killed (tr : Train) : (ageLoads tr).killed = tr.killed := rfl
@[simp] theorem ageLoads_kpc (tr : Train) : (ageLoads tr).kpc = tr.kpc := rfl
@[simp] theorem ageLoads_stores (tr : Train) : (ageLoads tr).stores = tr.stores := rfl
@[simp] theorem ageLoads_long (tr : Train) : (ageLoads tr).long = tr.long := rfl
@[simp] theorem ageLoads_replies (tr : Train) : (ageLoads tr).replies = tr.replies := rfl
@[simp] theorem ageLoads_asides (tr : Train) : (ageLoads tr).asides = tr.asides := rfl
@[simp] theorem ageLoads_atWait (tr : Train) : (ageLoads tr).atWait = tr.atWait := rfl
@[simp] theorem ageLoads_access (tr : Train) : (ageLoads tr).access = tr.access := rfl
@[simp] theorem ageLoads_act (tr : Train) : (ageLoads tr).act = tr.act := rfl
@[simp] theorem ageLoads_yielded (tr : Train) : (ageLoads tr).yielded = tr.yielded := rfl

/-! ### `advance` -/

@[simp] theorem advance_uid (tr : Train) (len : Nat) : (advance tr len).uid = tr.uid := rfl
@[simp] theorem advance_core (tr : Train) (len : Nat) : (advance tr len).core = tr.core := rfl
@[simp] theorem advance_slot (tr : Train) (len : Nat) : (advance tr len).slot = tr.slot := rfl
@[simp] theorem advance_wg (tr : Train) (len : Nat) : (advance tr len).wg = tr.wg := rfl
@[simp] theorem advance_launch (tr : Train) (len : Nat) : (advance tr len).launch = tr.launch := rfl
@[simp] theorem advance_trn (tr : Train) (len : Nat) : (advance tr len).trn = tr.trn := rfl
@[simp] theorem advance_part (tr : Train) (len : Nat) : (advance tr len).part = tr.part := rfl
@[simp] theorem advance_asid (tr : Train) (len : Nat) : (advance tr len).asid = tr.asid := rfl
@[simp] theorem advance_prio (tr : Train) (len : Nat) : (advance tr len).prio = tr.prio := rfl
@[simp] theorem advance_depth (tr : Train) (len : Nat) : (advance tr len).depth = tr.depth := rfl
@[simp] theorem advance_vgran (tr : Train) (len : Nat) : (advance tr len).vgran = tr.vgran := rfl
@[simp] theorem advance_sgran (tr : Train) (len : Nat) : (advance tr len).sgran = tr.sgran := rfl
@[simp] theorem advance_v (tr : Train) (len : Nat) : (advance tr len).v = tr.v := rfl
@[simp] theorem advance_o (tr : Train) (len : Nat) : (advance tr len).o = tr.o := rfl
@[simp] theorem advance_s (tr : Train) (len : Nat) : (advance tr len).s = tr.s := rfl
@[simp] theorem advance_k (tr : Train) (len : Nat) : (advance tr len).k = tr.k := rfl
@[simp] theorem advance_g (tr : Train) (len : Nat) : (advance tr len).g = tr.g := rfl
@[simp] theorem advance_flags (tr : Train) (len : Nat) : (advance tr len).flags = tr.flags := rfl
@[simp] theorem advance_pcs (tr : Train) (len : Nat) : (advance tr len).pcs = tr.pcs := rfl
@[simp] theorem advance_selected (tr : Train) (len : Nat) : (advance tr len).selected = tr.selected := rfl
@[simp] theorem advance_heldBar (tr : Train) (len : Nat) : (advance tr len).heldBar = tr.heldBar := rfl
@[simp] theorem advance_heldGbar (tr : Train) (len : Nat) : (advance tr len).heldGbar = tr.heldGbar := rfl
@[simp] theorem advance_exited (tr : Train) (len : Nat) : (advance tr len).exited = tr.exited := rfl
@[simp] theorem advance_fresh (tr : Train) (len : Nat) : (advance tr len).fresh = tr.fresh := rfl
@[simp] theorem advance_marks (tr : Train) (len : Nat) : (advance tr len).marks = tr.marks := rfl
@[simp] theorem advance_latches (tr : Train) (len : Nat) : (advance tr len).latches = tr.latches := rfl
@[simp] theorem advance_chain (tr : Train) (len : Nat) : (advance tr len).chain = tr.chain := rfl
@[simp] theorem advance_block (tr : Train) (len : Nat) : (advance tr len).block = tr.block := rfl
@[simp] theorem advance_priv (tr : Train) (len : Nat) : (advance tr len).priv = tr.priv := rfl
@[simp] theorem advance_intrap (tr : Train) (len : Nat) : (advance tr len).intrap = tr.intrap := rfl
@[simp] theorem advance_ppriv (tr : Train) (len : Nat) : (advance tr len).ppriv = tr.ppriv := rfl
@[simp] theorem advance_tq (tr : Train) (len : Nat) : (advance tr len).tq = tr.tq := rfl
@[simp] theorem advance_xpc (tr : Train) (len : Nat) : (advance tr len).xpc = tr.xpc := rfl
@[simp] theorem advance_xstate (tr : Train) (len : Nat) : (advance tr len).xstate = tr.xstate := rfl
@[simp] theorem advance_xbar (tr : Train) (len : Nat) : (advance tr len).xbar = tr.xbar := rfl
@[simp] theorem advance_xgbar (tr : Train) (len : Nat) : (advance tr len).xgbar = tr.xgbar := rfl
@[simp] theorem advance_xk (tr : Train) (len : Nat) : (advance tr len).xk = tr.xk := rfl
@[simp] theorem advance_xg (tr : Train) (len : Nat) : (advance tr len).xg = tr.xg := rfl
@[simp] theorem advance_xs (tr : Train) (len : Nat) : (advance tr len).xs = tr.xs := rfl
@[simp] theorem advance_svctok (tr : Train) (len : Nat) : (advance tr len).svctok = tr.svctok := rfl
@[simp] theorem advance_rowprog (tr : Train) (len : Nat) : (advance tr len).rowprog = tr.rowprog := rfl
@[simp] theorem advance_deadline (tr : Train) (len : Nat) : (advance tr len).deadline = tr.deadline := rfl
@[simp] theorem advance_wkid (tr : Train) (len : Nat) : (advance tr len).wkid = tr.wkid := rfl
@[simp] theorem advance_stage (tr : Train) (len : Nat) : (advance tr len).stage = tr.stage := rfl
@[simp] theorem advance_gidx (tr : Train) (len : Nat) : (advance tr len).gidx = tr.gidx := rfl
@[simp] theorem advance_gotEnd (tr : Train) (len : Nat) : (advance tr len).gotEnd = tr.gotEnd := rfl
@[simp] theorem advance_grant (tr : Train) (len : Nat) : (advance tr len).grant = tr.grant := rfl
@[simp] theorem advance_task (tr : Train) (len : Nat) : (advance tr len).task = tr.task := rfl
@[simp] theorem advance_held (tr : Train) (len : Nat) : (advance tr len).held = tr.held := rfl
@[simp] theorem advance_predTrap (tr : Train) (len : Nat) : (advance tr len).predTrap = tr.predTrap := rfl
@[simp] theorem advance_noWait (tr : Train) (len : Nat) : (advance tr len).noWait = tr.noWait := rfl
@[simp] theorem advance_killed (tr : Train) (len : Nat) : (advance tr len).killed = tr.killed := rfl
@[simp] theorem advance_kpc (tr : Train) (len : Nat) : (advance tr len).kpc = tr.kpc := rfl
@[simp] theorem advance_loads (tr : Train) (len : Nat) : (advance tr len).loads = tr.loads := rfl
@[simp] theorem advance_homes (tr : Train) (len : Nat) : (advance tr len).homes = tr.homes := rfl
@[simp] theorem advance_stores (tr : Train) (len : Nat) : (advance tr len).stores = tr.stores := rfl
@[simp] theorem advance_long (tr : Train) (len : Nat) : (advance tr len).long = tr.long := rfl
@[simp] theorem advance_replies (tr : Train) (len : Nat) : (advance tr len).replies = tr.replies := rfl
@[simp] theorem advance_asides (tr : Train) (len : Nat) : (advance tr len).asides = tr.asides := rfl
@[simp] theorem advance_atWait (tr : Train) (len : Nat) : (advance tr len).atWait = tr.atWait := rfl
@[simp] theorem advance_access (tr : Train) (len : Nat) : (advance tr len).access = tr.access := rfl
@[simp] theorem advance_act (tr : Train) (len : Nat) : (advance tr len).act = tr.act := rfl
@[simp] theorem advance_yielded (tr : Train) (len : Nat) : (advance tr len).yielded = tr.yielded := rfl

/-! ### The fields that change -/

@[simp] theorem train?_putTrain (s : State) (k j : Nat) (tr : Train) :
    train? (putTrain s k tr) j = if j = k then some tr else train? s j := Tab.get?_put ..
@[simp] theorem train?_modTrain (s : State) (k j : Nat) (f : Train → Train) :
    train? (modTrain s k f) j = if j = k then (train? s k).map f else train? s j := Tab.get?_adjust ..
@[simp] theorem wg?_putWg (s : State) (w j : Nat) (g : Wg) :
    wg? (putWg s w g) j = if j = w then some g else wg? s j := Tab.get?_put ..
@[simp] theorem wg?_modWg (s : State) (w j : Nat) (f : Wg → Wg) :
    wg? (modWg s w f) j = if j = w then (wg? s w).map f else wg? s j := Tab.get?_adjust ..
@[simp] theorem partAt_modPart (s : State) (p j : Nat) (f : Part → Part) :
    partAt (modPart s p f) j = if j = p then f (partAt s p) else partAt s j := Tab.read_write ..
@[simp] theorem coreAt_modCore (s : State) (c j : Nat) (f : Core → Core) :
    coreAt (modCore s c f) j = if j = c then f (coreAt s c) else coreAt s j := Tab.read_write ..
theorem readByte_writeBytes (s : State) (pa a : Nat) (bs : List Byte) :
    readByte (writeBytes s pa bs) a
      = if pa ≤ a ∧ a < pa + bs.length then bs.getD (a - pa) unwritten else readByte s a := Tab.read_writeList ..

/-- A register write of a thread, read back. -/
theorem rdV_wrV (tr : Train) (n t m u : Nat) (w : Word) (ht : t < 64) (hu : u < 64) :
    rdV (wrV tr n t w) m u = if m = n ∧ u = t then w else rdV tr m u := by
  unfold rdV wrV
  rw [Tab.read_write]
  by_cases h : m = n ∧ u = t
  · simp [h]
  · rw [if_neg h, if_neg (by omega)]
theorem rdO_wrO (tr : Train) (n t m u : Nat) (w : Word) (ht : t < 64) (hu : u < 64) :
    rdO (wrO tr n t w) m u = if m = n ∧ u = t then w else rdO tr m u := by
  unfold rdO wrO
  rw [Tab.read_write]
  by_cases h : m = n ∧ u = t
  · simp [h]
  · rw [if_neg h, if_neg (by omega)]
theorem rdS_wrS (tr : Train) (n m : Nat) (d : Dword) : rdS (wrS tr n d) m = if m = n then d else rdS tr m :=
  Tab.read_write ..

/-! ### A fabric message that leaves changes the outbox alone -/

theorem sendFabric_frame (s : State) (p m : Nat) (o : FabMsg) :
    sendFabric s p m o = { s with outbox := (sendFabric s p m o).outbox } := by
  unfold sendFabric; split <;> rfl
@[simp] theorem sendFabric_mem (s : State) (p m : Nat) (o : FabMsg) : (sendFabric s p m o).mem = s.mem := by
  rw [sendFabric_frame]
@[simp] theorem sendFabric_trains (s : State) (p m : Nat) (o : FabMsg) : (sendFabric s p m o).trains = s.trains := by
  rw [sendFabric_frame]
@[simp] theorem sendFabric_current (s : State) (p m : Nat) (o : FabMsg) : (sendFabric s p m o).current = s.current := by
  rw [sendFabric_frame]

end Sys2Proof.Machine
end

