-- ==== Sys2Proof/Laws/Issue.lean ====
section
/-! SUPPORT. What the shared parts of an issue do: a register write read back, the completion of an instruction, the gates that
let it go on, and the destinations that a well-formed instruction has. -/

namespace Sys2Proof.Machine

/-! ### Barriers and joins -/

@[simp] theorem deferSaved_xbar (tr : Train) (past : Bool) : (deferSaved tr false past).xbar = 0 := rfl
@[simp] theorem deferSaved_xgbar (tr : Train) (past : Bool) : (deferSaved tr true past).xgbar = 0 := rfl

/-- An open join keeps its slot. -/
theorem freeJoin_open {s : State} {j : Nat} {jn : Join} (h : Tab.get? s.joins j = some jn) (ho : jn.state = 1) : freeJoin s j = s := by
  simp [freeJoin, h, ho]

/-- An open join wakes nobody. -/
theorem wakeJoin_open {s : State} {j : Nat} {jn : Join} (h : Tab.get? s.joins j = some jn) (ho : jn.state = 1) : wakeJoin s j = s := by
  simp [wakeJoin, h, ho, freeJoin_open h ho]

/-! ### Register writes, read back -/

theorem rdK_wrK (tr : Train) (n t m u : Nat) (b : Bool) (hu : u < 64) :
    (rdK (wrK tr n t b) m).getLsbD u = if u = t ∧ m = n ∧ n ≠ 0 then b else (rdK tr m).getLsbD u := by
  unfold wrK
  by_cases hn : n = 0
  · simp [hn]
  by_cases hm : m = n
  · subst hm
    by_cases hut : u = t
    · subst hut; cases b <;> simp [rdK, hn, hu]
    · cases b <;> simp [rdK, hn, hut, hu] <;> omega
  · simp [rdK, hn, hm, Tab.read_write]

theorem rdG_wrG (tr : Train) (n m : Nat) (b : Bool) (hn : n < 8) :
    rdG (wrG tr n b) m = if m = n ∧ n ≠ 0 then b else rdG tr m := by
  unfold wrG
  by_cases h0 : n = 0
  · simp [h0]
  by_cases hm : m = n
  · subst hm; cases b <;> simp [rdG, h0, hn]
  · have h1 : (m < n ∨ ¬m - n = 0) := by omega
    by_cases hm8 : m < 8
    · cases b
      · simp only [rdG, h0, hm, ne_eq, not_false_eq_true, and_true, if_false]
        rw [if_neg (by simp), BitVec.getLsbD_and, BitVec.getLsbD_not, BitVec.getLsbD_shiftLeft]
        rcases h1 with h1 | h1 <;> simp [hm8, h1]
      · simp only [rdG, h0, hm, ne_eq, not_false_eq_true, and_true, if_false, if_true]
        rw [BitVec.getLsbD_or, BitVec.getLsbD_shiftLeft]
        rcases h1 with h1 | h1 <;> simp [hm8, h1]
    · have := BitVec.getLsbD_of_ge tr.g m (by omega)
      cases b <;> simp [rdG, h0, hm, hm8, this]

@[simp] theorem regAt_v (tr : Train) (n l : Nat) : regAt tr (.v n) l = (rdV tr n l).zeroExtend 64 := rfl
@[simp] theorem regAt_o (tr : Train) (n l : Nat) : regAt tr (.o n) l = (rdO tr n l).zeroExtend 64 := rfl
@[simp] theorem regAt_s (tr : Train) (n l : Nat) : regAt tr (.s n) l = rdS tr n := rfl
@[simp] theorem regAt_k (tr : Train) (n l : Nat) : regAt tr (.k n) l = if (rdK tr n).getLsbD l then 1 else 0 := rfl
@[simp] theorem regAt_g (tr : Train) (n l : Nat) : regAt tr (.g n) l = if rdG tr n then 1 else 0 := rfl

@[simp] theorem rdV_wrO (tr : Train) (n t m u : Nat) (w : Word) : rdV (wrO tr n t w) m u = rdV tr m u := rfl
@[simp] theorem rdV_wrS (tr : Train) (n m u : Nat) (d : Dword) : rdV (wrS tr n d) m u = rdV tr m u := rfl
@[simp] theorem rdV_wrK (tr : Train) (n t m u : Nat) (b : Bool) : rdV (wrK tr n t b) m u = rdV tr m u := by
  unfold wrK; split <;> rfl
@[simp] theorem rdV_wrG (tr : Train) (n m u : Nat) (b : Bool) : rdV (wrG tr n b) m u = rdV tr m u := by
  unfold wrG; split <;> rfl
@[simp] theorem rdO_wrV (tr : Train) (n t m u : Nat) (w : Word) : rdO (wrV tr n t w) m u = rdO tr m u := rfl
@[simp] theorem rdO_wrS (tr : Train) (n m u : Nat) (d : Dword) : rdO (wrS tr n d) m u = rdO tr m u := rfl
@[simp] theorem rdO_wrK (tr : Train) (n t m u : Nat) (b : Bool) : rdO (wrK tr n t b) m u = rdO tr m u := by
  unfold wrK; split <;> rfl
@[simp] theorem rdO_wrG (tr : Train) (n m u : Nat) (b : Bool) : rdO (wrG tr n b) m u = rdO tr m u := by
  unfold wrG; split <;> rfl
@[simp] theorem rdS_wrV (tr : Train) (n t m : Nat) (w : Word) : rdS (wrV tr n t w) m = rdS tr m := rfl
@[simp] theorem rdS_wrO (tr : Train) (n t m : Nat) (w : Word) : rdS (wrO tr n t w) m = rdS tr m := rfl
@[simp] theorem rdS_wrK (tr : Train) (n t m : Nat) (b : Bool) : rdS (wrK tr n t b) m = rdS tr m := by
  unfold wrK; split <;> rfl
@[simp] theorem rdS_wrG (tr : Train) (n m : Nat) (b : Bool) : rdS (wrG tr n b) m = rdS tr m := by
  unfold wrG; split <;> rfl
@[simp] theorem rdK_wrV (tr : Train) (n t m : Nat) (w : Word) : rdK (wrV tr n t w) m = rdK tr m := rfl
@[simp] theorem rdK_wrO (tr : Train) (n t m : Nat) (w : Word) : rdK (wrO tr n t w) m = rdK tr m := rfl
@[simp] theorem rdK_wrS (tr : Train) (n m : Nat) (d : Dword) : rdK (wrS tr n d) m = rdK tr m := rfl
@[simp] theorem rdK_wrG (tr : Train) (n m : Nat) (b : Bool) : rdK (wrG tr n b) m = rdK tr m := by
  unfold wrG; split <;> rfl
@[simp] theorem rdG_wrV (tr : Train) (n t m : Nat) (w : Word) : rdG (wrV tr n t w) m = rdG tr m := rfl
@[simp] theorem rdG_wrO (tr : Train) (n t m : Nat) (w : Word) : rdG (wrO tr n t w) m = rdG tr m := rfl
@[simp] theorem rdG_wrS (tr : Train) (n m : Nat) (d : Dword) : rdG (wrS tr n d) m = rdG tr m := rfl
@[simp] theorem rdG_wrK (tr : Train) (n t m : Nat) (b : Bool) : rdG (wrK tr n t b) m = rdG tr m := by
  unfold wrK; split <;> rfl

/-- The fields of a train that no register write touches. -/
structure SameButRegs (tr tr' : Train) : Prop where
  frame : tr' = { tr with v := tr'.v, o := tr'.o, s := tr'.s, k := tr'.k, g := tr'.g, marks := tr'.marks }

theorem SameButRegs.refl (tr : Train) : SameButRegs tr tr := ⟨rfl⟩
theorem SameButRegs.trans {a b c : Train} (h : SameButRegs a b) (h' : SameButRegs b c) : SameButRegs a c :=
  ⟨by rw [h'.frame, h.frame]⟩

theorem wrV_sameButRegs (tr : Train) (n t : Nat) (w : Word) : SameButRegs tr (wrV tr n t w) := ⟨rfl⟩
theorem wrO_sameButRegs (tr : Train) (n t : Nat) (w : Word) : SameButRegs tr (wrO tr n t w) := ⟨rfl⟩
theorem wrS_sameButRegs (tr : Train) (n : Nat) (d : Dword) : SameButRegs tr (wrS tr n d) := ⟨rfl⟩
theorem wrK_sameButRegs (tr : Train) (n t : Nat) (b : Bool) : SameButRegs tr (wrK tr n t b) := by
  unfold wrK; split <;> exact ⟨rfl⟩
theorem wrG_sameButRegs (tr : Train) (n : Nat) (b : Bool) : SameButRegs tr (wrG tr n b) := by
  unfold wrG; split <;> exact ⟨rfl⟩

theorem writeReg_sameButRegs (tr : Train) (o : Opnd) (wide : Bool) (t : Nat) (d : Dword) :
    SameButRegs tr (writeReg tr o wide t d) := by
  unfold writeReg
  cases o <;> simp only [] <;> first
    | exact SameButRegs.refl _
    | exact wrS_sameButRegs ..
    | exact wrK_sameButRegs ..
    | exact wrG_sameButRegs ..
    | (split
       · exact (by first | exact (wrV_sameButRegs ..).trans (wrV_sameButRegs ..) | exact (wrO_sameButRegs ..).trans (wrO_sameButRegs ..))
       · exact (by first | exact wrV_sameButRegs .. | exact wrO_sameButRegs ..))

/-- What one register write changes. -/
def stepWritten (o : Opnd) (wide : Bool) (t : Nat) (d : Dword) (r : Reg) (l : Nat) : Option Dword :=
  match o, r with
  | .v n, .v m => if l = t then pairPart wide n.toNat m d else none
  | .o n, .o m => if l = t then pairPart wide n.toNat m d else none
  | .s n, .s m => if m = n.toNat then some (if wide then d else (lowWord d).zeroExtend 64) else none
  | .k n, .k m => if l = t ∧ m = n.toNat ∧ n ≠ 0 then some (if d.getLsbD 0 then 1 else 0) else none
  | .g n, .g m => if m = n.toNat ∧ n ≠ 0 then some (if d.getLsbD 0 then 1 else 0) else none
  | _, _ => none

theorem ofNat_ne_zero_iff {n : BitVec 3} : n ≠ 0 ↔ n.toNat ≠ 0 := by
  constructor
  · intro h h'; exact h (BitVec.eq_of_toNat_eq (by simpa using h'))
  · intro h h'; subst h'; exact h rfl

/-- A register write, read back. -/
theorem regAt_writeReg (tr : Train) (o : Opnd) (wide : Bool) (t : Nat) (d : Dword) (r : Reg) (l : Nat) (hl : l < 64)
    (ht : DstFits o [t]) :
    regAt (writeReg tr o wide t d) r l = (stepWritten o wide t d r l).getD (regAt tr r l) := by
  cases o with
  | v n =>
    have ht : t < 64 := ht t (by simp)
    cases r with
    | v m =>
      cases wide <;> by_cases h : l = t <;> by_cases h1 : m = n.toNat <;> by_cases h2 : m = n.toNat + 1 <;>
        simp [writeReg, stepWritten, pairPart, rdV_wrV, ht, hl, h, h1, h2]
    | o m => cases wide <;> rfl
    | s m => cases wide <;> rfl
    | k m => cases wide <;> rfl
    | g m => cases wide <;> rfl
  | o n =>
    have ht : t < 64 := ht t (by simp)
    cases r with
    | o m =>
      cases wide <;> by_cases h : l = t <;> by_cases h1 : m = n.toNat <;> by_cases h2 : m = n.toNat + 1 <;>
        simp [writeReg, stepWritten, pairPart, rdO_wrO, ht, hl, h, h1, h2]
    | v m => cases wide <;> rfl
    | s m => cases wide <;> rfl
    | k m => cases wide <;> rfl
    | g m => cases wide <;> rfl
  | s n =>
    cases r with
    | s m => by_cases h : m = n.toNat <;> simp [writeReg, stepWritten, rdS_wrS, h]
    | v m => rfl
    | o m => rfl
    | k m => rfl
    | g m => rfl
  | k n =>
    cases r with
    | k m =>
      simp only [writeReg, stepWritten, regAt_k, rdK_wrK _ _ _ _ _ _ hl, ← ofNat_ne_zero_iff]
      by_cases h : l = t ∧ m = n.toNat ∧ n ≠ 0
      · simp only [if_pos h, Option.getD_some]
      · simp only [if_neg h, Option.getD_none]
    | v m => simp [writeReg, stepWritten]
    | o m => simp [writeReg, stepWritten]
    | s m => simp [writeReg, stepWritten]
    | g m => simp only [writeReg, stepWritten, regAt_g, rdG_wrK, Option.getD_none]
  | g n =>
    cases r with
    | g m =>
      simp only [writeReg, stepWritten, regAt_g, rdG_wrG _ _ _ _ n.isLt, ← ofNat_ne_zero_iff]
      by_cases h : m = n.toNat ∧ n ≠ 0
      · simp only [if_pos h, Option.getD_some]
      · simp only [if_neg h, Option.getD_none]
    | v m => simp [writeReg, stepWritten]
    | o m => simp [writeReg, stepWritten]
    | s m => simp [writeReg, stepWritten]
    | k m => simp only [writeReg, stepWritten, regAt_k, rdK_wrG, Option.getD_none]
  | b n => cases r <;> rfl
  | q n => cases r <;> rfl
  | zero => cases r <;> rfl
  | special n => cases r <;> rfl
  | t n => cases r <;> rfl
  | a n => cases r <;> rfl
  | imm n => cases r <;> rfl
  | resv n => cases r <;> rfl

/-! ### The results of an instruction -/

/-- What a list of register writes leaves: the last one that writes the register counts. -/
def listWritten (o : Opnd) (wide : Bool) (vals : List (Nat × Dword)) (r : Reg) (l : Nat) : Option Dword :=
  vals.foldl (fun acc e => (stepWritten o wide e.1 e.2 r l).or acc) none

theorem foldl_or {α β : Type} (f : β → Option α) (vals : List β) (a : Option α) :
    vals.foldl (fun acc e => (f e).or acc) a = (vals.foldl (fun acc e => (f e).or acc) none).or a := by
  induction vals generalizing a with
  | nil => simp
  | cons e vs ih =>
    simp only [List.foldl_cons, Option.or_none]
    rw [ih ((f e).or a), ih (f e), Option.or_assoc]

theorem regAt_writes (o : Opnd) (wide : Bool) (r : Reg) (l : Nat) (hl : l < 64) :
    ∀ (vals : List (Nat × Dword)) (tr : Train), (∀ e ∈ vals, DstFits o [e.1]) →
      regAt (vals.foldl (fun tr e => writeReg tr o wide e.1 e.2) tr) r l
        = (listWritten o wide vals r l).getD (regAt tr r l) := by
  intro vals
  induction vals with
  | nil => intro tr _; rfl
  | cons e vs ih =>
    intro tr h
    simp only [List.foldl_cons, listWritten]
    rw [ih _ fun e' he' => h e' (by simp [he']), foldl_or, regAt_writeReg _ _ _ _ _ _ _ hl (h e (by simp))]
    unfold listWritten
    rcases List.foldl (fun acc e => (stepWritten o wide e.1 e.2 r l).or acc) none vs with _ | v <;> simp

theorem foldl_or_const {β α : Type} (g : β → α) (vals : List β) :
    vals.foldl (fun acc e => (some (g e)).or acc) (none : Option α) = vals.getLast?.map g := by
  induction vals using List.reverseRecOn with
  | nil => rfl
  | append_singleton vs e _ => simp

theorem foldl_or_none {β α : Type} (vals : List β) (a : Option α) :
    vals.foldl (fun acc _ => (none : Option α).or acc) a = a := by
  induction vals generalizing a with
  | nil => rfl
  | cons e vs ih => simp

/-- Of writes to single threads only the own one counts, and each thread has at most one value. -/
theorem foldl_or_thread {α : Type} (val : Nat → Dword) (p : Dword → Option α) (l : Nat) (lanes : List Nat) :
    (lanes.map fun t => (t, val t)).foldl (fun acc e => (if l = e.1 then p e.2 else none).or acc) none
      = if l ∈ lanes then p (val l) else none := by
  induction lanes using List.reverseRecOn with
  | nil => rfl
  | append_singleton vs e ih =>
    simp only [List.map_append, List.map_cons, List.map_nil, List.foldl_append, List.foldl_cons, List.foldl_nil, ih,
      List.mem_append, List.mem_singleton]
    by_cases h : l = e
    · subst h
      by_cases h' : l ∈ vs <;> simp [h']
    · simp [h]

theorem listWritten_eq (d : Opnd) (wide : Bool) (lanes : List Nat) (val : Nat → Dword) (r : Reg) (l : Nat) :
    listWritten d wide (lanes.map fun t => (t, val t)) r l = writtenTo d wide lanes val r l := by
  unfold listWritten writtenTo
  cases d <;> cases r <;> simp only [stepWritten]
  case v.v n m => rw [foldl_or_thread val (pairPart wide n.toNat m)]
  case o.o n m => rw [foldl_or_thread val (pairPart wide n.toNat m)]
  case s.s n m =>
    by_cases hm : m = n.toNat
    · simp only [hm, if_true]
      rw [foldl_or_const (fun e : Nat × Dword => if wide then e.2 else (lowWord e.2).zeroExtend 64)]
      simp [List.getLast?_map, Option.map_map, Function.comp_def]
    · simp only [hm, if_false]; exact foldl_or_none _ _
  case k.k n m =>
    by_cases hm : m = n.toNat ∧ n ≠ 0
    · have := foldl_or_thread val (fun d => some (if d.getLsbD 0 then (1 : Dword) else 0)) l lanes
      simp only [hm, ne_eq, not_false_eq_true, and_true, and_self] at this ⊢
      exact this
    · rw [if_neg fun h => hm h.2]
      have : ∀ e : Nat × Dword, ¬ (l = e.1 ∧ m = n.toNat ∧ n ≠ 0) := fun e h => hm h.2
      simp only [this, if_false]; exact foldl_or_none _ _
  case g.g n m =>
    by_cases hm : m = n.toNat ∧ n ≠ 0
    · simp only [hm, ne_eq, not_false_eq_true, and_self, if_true]
      rw [foldl_or_const (fun e : Nat × Dword => if e.2.getLsbD 0 then (1 : Dword) else 0)]
      simp [List.getLast?_map, Option.map_map, Function.comp_def]
    · simp only [hm, if_false]; exact foldl_or_none _ _
  all_goals exact foldl_or_none _ _

/-! ### Latches -/

theorem read_writes_of_notMem (f : Nat → Word) (ts : List Nat) (m : Tab Word) (l : Nat) (h : l ∉ ts) :
    Tab.read 0 (ts.foldl (fun m t => Tab.write 0 m t (f t)) m) l = Tab.read 0 m l := by
  induction ts generalizing m with
  | nil => rfl
  | cons t ts ih =>
    simp only [List.foldl_cons, List.mem_cons, not_or] at h ⊢
    rw [ih _ h.2, Tab.read_write_ne _ _ _ h.1]

/-- Values written thread by thread, read back. -/
theorem read_writes (f : Nat → Word) (ts : List Nat) (m : Tab Word) (l : Nat) :
    Tab.read 0 (ts.foldl (fun m t => Tab.write 0 m t (f t)) m) l = if l ∈ ts then f l else Tab.read 0 m l := by
  induction ts generalizing m with
  | nil => rfl
  | cons t ts ih =>
    simp only [List.foldl_cons]
    rw [ih, Tab.read_write]
    by_cases h : l = t
    · subst h; simp
    · simp [h]

theorem mem_tids {l : Nat} : l ∈ tids ↔ l < 64 := by simp [tids]

theorem read_broadcast (w : Word) (l : Nat) (h : l < 64) : Tab.read 0 (broadcast w) l = w := by
  unfold broadcast
  rw [read_writes (fun _ => w), if_pos (mem_tids.2 h)]

theorem read_latchOf (x : Args) (lanes : List Nat) (val : Nat → Dword) (l : Nat) (h : l < 64) :
    Tab.read 0 (latchOf x (lanes.map fun t => (t, val t))) l
      = if x.u then (lanes.head?.map fun t => lowWord (val t)).getD 0 else if l ∈ lanes then lowWord (val l) else 0 := by
  unfold latchOf
  cases hu : x.u
  · simp only [Bool.false_eq_true, if_false, List.foldl_map]
    rw [read_writes (fun t => lowWord (val t))]; rfl
  · cases lanes with
    | nil => rfl
    | cons t ts => simpa using read_broadcast _ _ h

/-! ### Completion -/

theorem writes_sameButRegs (o : Opnd) (wide : Bool) (vals : List (Nat × Dword)) (tr : Train) :
    SameButRegs tr (vals.foldl (fun tr e => writeReg tr o wide e.1 e.2) tr) := by
  induction vals generalizing tr with
  | nil => exact SameButRegs.refl _
  | cons e vs ih => exact (writeReg_sameButRegs tr o wide e.1 e.2).trans (ih _)

theorem writeResults_sameButRegs (tr : Train) (x : Args) (wide : Bool) (vals : List (Nat × Dword)) :
    SameButRegs tr (writeResults tr x wide vals) := by
  unfold writeResults
  split
  · exact SameButRegs.refl _
  · exact writes_sameButRegs ..

theorem regAt_writeResults (tr : Train) (x : Args) (wide : Bool) (lanes : List Nat) (val : Nat → Dword) (r : Reg) (l : Nat)
    (hl : l < 64) (hd : DstFits x.d lanes) :
    regAt (writeResults tr x wide (lanes.map fun t => (t, val t))) r l
      = (written x wide lanes val r l).getD (regAt tr r l) := by
  unfold writeResults
  cases hn : x.nwb
  · simp only [Bool.false_eq_true, if_false]
    rw [regAt_writes _ _ _ _ hl, listWritten_eq]
    · simp [written, hn]
    intro e he
    obtain ⟨t, ht, rfl⟩ := List.mem_map.1 he
    unfold DstFits at hd ⊢
    split <;> simp_all
  · simp [written, hn]

/-- A register write and the pending marks: a write of an `s` register ends its mark (R261). -/
theorem marks_writeReg (tr : Train) (o : Opnd) (wide : Bool) (t : Nat) (d : Dword) (n : Nat) :
    Tab.get? (writeReg tr o wide t d).marks n
      = if o = .s (BitVec.ofNat 6 n) ∧ n < 64 then none else Tab.get? tr.marks n := by
  cases o <;> simp only [writeReg, reduceCtorEq, false_and, if_false]
  case v m => split <;> rfl
  case o m => split <;> rfl
  case k m => unfold wrK; split <;> rfl
  case g m => unfold wrG; split <;> rfl
  case s m =>
    simp only [wrS, Opnd.s.injEq]
    by_cases h : n = m.toNat
    · subst h; have := m.isLt; simp; omega
    · rw [Tab.get?_del_ne _ h, if_neg]
      rintro ⟨h1, h2⟩
      exact h (by rw [h1]; simp; omega)

theorem marks_writeResults (tr : Train) (x : Args) (wide : Bool) (vals : List (Nat × Dword)) (n : Nat) :
    Tab.get? (writeResults tr x wide vals).marks n
      = if x.d = .s (BitVec.ofNat 6 n) ∧ n < 64 ∧ x.nwb = false ∧ vals ≠ [] then none else Tab.get? tr.marks n := by
  unfold writeResults
  cases x.nwb
  · simp only [Bool.false_eq_true, if_false, true_and]
    induction vals generalizing tr with
    | nil => simp
    | cons e vs ih =>
      rw [List.foldl_cons, ih, marks_writeReg]
      by_cases h : x.d = .s (BitVec.ofNat 6 n) ∧ n < 64
      · simp [h]
      · rw [if_neg h, if_neg fun h' => h ⟨h'.1, h'.2.1⟩, if_neg fun h' => h ⟨h'.1, h'.2.1⟩]
  · simp

theorem ageLoads_regAt (tr : Train) (r : Reg) (l : Nat) : regAt (ageLoads tr) r l = regAt tr r l := by cases r <;> rfl

/-- A completion without a jump, as one update of the train that holds the results. -/
theorem completeTrain_eq (i : Instr) (x : Args) (wide : Bool) (vals : List (Nat × Dword)) (fl : FlagSet)
    (load : Option PendLoad) (trap : Option TrapRec) (pc : Dword) (tr : Train) :
    completeTrain i x wide { vals := vals, flags := fl, load := load, trap := trap } pc tr
      = { writeResults (ageLoads tr) x wide vals with
          flags := (writeResults (ageLoads tr) x wide vals).flags ||| fl
          latches :=
            { b0 := .vals (latchOf x vals)
              b1 := (writeResults (ageLoads tr) x wide vals).latches.b0
              b2 := (writeResults (ageLoads tr) x wide vals).latches.b1
              b3 := (writeResults (ageLoads tr) x wide vals).latches.b2 }
          chain := nextChain (writeResults (ageLoads tr) x wide vals).chain i x pc
          loads := (writeResults (ageLoads tr) x wide vals).loads ++ load.toList
          pc := (writeResults (ageLoads tr) x wide vals).pc + BitVec.ofNat 64 x.len } := rfl

/-- The completion of an instruction without a jump, whose latch contents are its results. -/
theorem completeTrain_after (i : Instr) (x : Args) (wide : Bool) (lanes : List Nat) (val : Nat → Dword) (fl : FlagSet)
    (load : Option PendLoad) (trap : Option TrapRec) (tr : Train) (hd : DstFits x.d lanes) :
    TrainAfter i x wide lanes val fl load.toList tr
      (completeTrain i x wide { vals := lanes.map (fun l => (l, val l)), flags := fl, load := load, trap := trap } tr.pc tr) := by
  have hf := (writeResults_sameButRegs (ageLoads tr) x wide (lanes.map fun l => (l, val l))).frame
  have hr := fun r l hl => regAt_writeResults (ageLoads tr) x wide lanes val r l hl hd
  have hm := marks_writeResults (ageLoads tr) x wide (lanes.map fun l => (l, val l))
  rw [completeTrain_eq]
  generalize writeResults (ageLoads tr) x wide (lanes.map fun l => (l, val l)) = w at hf hr hm ⊢
  constructor
  · intro r l hl
    rw [← ageLoads_regAt tr r l, ← hr r l hl]
    cases r <;> rfl
  · rw [hf]; rfl
  · rw [hf]; rfl
  · intro l hl; exact read_latchOf x lanes val l hl
  · rw [hf]; exact ⟨rfl, rfl, rfl⟩
  · intro n
    show Tab.get? w.marks n = _
    rw [hm]
    simp
  · rw [hf]; rfl
  · rw [hf]; rfl
  · rw [hf]; rfl
  · rw [hf]; rfl

end Sys2Proof.Machine
end

