-- ==== Sys2Proof/Laws/Loads.lean ====
section
/-! SUPPORT. What returning loads and performing stores do to a train and to memory, and what a push performs first. -/

namespace Sys2Proof.Machine

theorem modTrain_eq {s : State} {k : Nat} {tr : Train} (h : train? s k = some tr) (f : Train → Train) :
    modTrain s k f = putTrain s k (f tr) := by
  unfold train? at h
  simp only [modTrain, putTrain, Tab.adjust, h]

/-! ### Frames of returning loads -/

theorem returnLoad_frame (s : State) (k n : Nat) :
    ∃ ts, returnLoad s k n = { s with trains := ts } ∧ ∀ j, j ≠ k → Tab.get? ts j = train? s j := by
  unfold returnLoad
  split
  · exact ⟨s.trains, rfl, fun _ _ => rfl⟩
  · split
    · exact ⟨s.trains, rfl, fun _ _ => rfl⟩
    · refine ⟨_, rfl, fun j h => ?_⟩
      simp only [Tab.get?_adjust, if_neg h]; rfl

theorem returnWhere_frame (k : Nat) (p : PendLoad → Bool) (n : Nat) (s : State) :
    ∃ ts, returnWhere s k p n = { s with trains := ts } ∧ ∀ j, j ≠ k → Tab.get? ts j = train? s j := by
  induction n with
  | zero => exact ⟨s.trains, rfl, fun _ _ => rfl⟩
  | succ n ih =>
    obtain ⟨ts, h, ho⟩ := ih
    simp only [returnWhere, h]
    split
    · exact ⟨ts, rfl, ho⟩
    · split
      · obtain ⟨ts', h', ho'⟩ := returnLoad_frame { s with trains := ts } k 0
        exact ⟨ts', h', fun j hj => (ho' j hj).trans (ho j hj)⟩
      · exact ⟨ts, rfl, ho⟩

/-- The return of outstanding loads changes nothing but its train. -/
theorem returnLoads_frame (s : State) (k : Nat) (p : PendLoad → Bool) :
    ∃ ts, returnLoads s k p = { s with trains := ts } ∧ ∀ j, j ≠ k → Tab.get? ts j = train? s j := by
  unfold returnLoads
  split
  · exact ⟨s.trains, rfl, fun _ _ => rfl⟩
  · exact returnWhere_frame ..

/-! ### Outstanding loads -/

/-- The fields of a train that a returning load does not touch. -/
structure SameButResults (tr tr' : Train) : Prop where
  frame : tr' = { tr with v := tr'.v, o := tr'.o, s := tr'.s, k := tr'.k, g := tr'.g, marks := tr'.marks
                          latches := tr'.latches }

/-- The fields of a train that the performance of its accesses does not touch. -/
structure SameButAccesses (tr tr' : Train) : Prop where
  frame : tr' = { tr with v := tr'.v, o := tr'.o, s := tr'.s, k := tr'.k, g := tr'.g, marks := tr'.marks
                          latches := tr'.latches, loads := tr'.loads, stores := tr'.stores }

theorem SameButAccesses.refl (tr : Train) : SameButAccesses tr tr := ⟨rfl⟩
theorem SameButAccesses.trans {a b c : Train} (h : SameButAccesses a b) (h' : SameButAccesses b c) : SameButAccesses a c :=
  ⟨by rw [h'.frame, h.frame]⟩
theorem SameButAccesses.pc {a b : Train} (h : SameButAccesses a b) : b.pc = a.pc := by rw [h.frame]
theorem SameButAccesses.wg {a b : Train} (h : SameButAccesses a b) : b.wg = a.wg := by rw [h.frame]

theorem SameButResults.trans {a b c : Train} (h : SameButResults a b) (h' : SameButResults b c) : SameButResults a c :=
  ⟨by rw [h'.frame, h.frame]⟩

theorem fillLatch_sameButResults (tr : Train) (age : Nat) (u : Bool) (t : Nat) (w : Word) :
    SameButResults tr (fillLatch tr age u t w) := by
  unfold fillLatch
  rcases age with _ | _ | _ | _ | n <;> exact ⟨rfl⟩

theorem SameButRegs.results {tr tr' : Train} (h : SameButRegs tr tr') : SameButResults tr tr' :=
  ⟨by rw [h.frame]⟩

/-- A load that returns writes registers, marks and latches of its train. -/
theorem writeLoad_sameButResults (ld : PendLoad) (vals : List (Nat × Nat)) (tr : Train) :
    SameButResults tr (writeLoad tr ld vals) := by
  induction vals generalizing tr with
  | nil => exact ⟨rfl⟩
  | cons e vs ih =>
    exact ((writeReg_sameButRegs ..).results.trans (fillLatch_sameButResults ..)).trans (ih _)

theorem writeLoad_loads (tr : Train) (ld : PendLoad) (vals : List (Nat × Nat)) : (writeLoad tr ld vals).loads = tr.loads := by
  rw [(writeLoad_sameButResults ld vals tr).frame]
theorem writeLoad_stores (tr : Train) (ld : PendLoad) (vals : List (Nat × Nat)) : (writeLoad tr ld vals).stores = tr.stores := by
  rw [(writeLoad_sameButResults ld vals tr).frame]

theorem returnLoad_train {s : State} {k : Nat} {tr : Train} (h : train? s k = some tr) (i : Nat) :
    ∃ tr', train? (returnLoad s k i) k = some tr' ∧ tr'.loads = tr.loads.eraseIdx i ∧ tr'.stores = tr.stores
      ∧ SameButAccesses tr tr' := by
  unfold returnLoad
  simp only [h]
  cases hd : tr.loads.drop i with
  | nil =>
    have : tr.loads.length ≤ i := by simpa using hd
    exact ⟨tr, h, by rw [List.eraseIdx_of_length_le this], rfl, .refl tr⟩
  | cons ld rest =>
    have hr : rest = tr.loads.drop (i + 1) := by
      have := congrArg (List.drop 1) hd
      simpa [Nat.add_comm] using this.symm
    refine ⟨_, by simp [h]; rfl, ?_, ?_, ⟨?_⟩⟩
    · simp only [writeLoad_loads, hr, List.eraseIdx_eq_take_drop_succ]
    · simp only [writeLoad_stores]
    · rw [(writeLoad_sameButResults ..).frame]

/-- The oldest loads return until none that satisfies the test is outstanding. -/
theorem returnWhere_train {s : State} {k : Nat} (p : PendLoad → Bool) (n : Nat) {tr : Train} (h : train? s k = some tr) :
    ∃ tr' m, train? (returnWhere s k p n) k = some tr' ∧ tr'.stores = tr.stores ∧ SameButAccesses tr tr'
      ∧ tr'.loads = tr.loads.drop m ∧ (m = n ∨ tr'.loads.any p = false) := by
  induction n with
  | zero => exact ⟨tr, 0, h, rfl, .refl tr, rfl, .inl rfl⟩
  | succ n ih =>
    obtain ⟨tr1, m, h1, hs1, hf1, hl1, hm1⟩ := ih
    simp only [returnWhere, h1]
    split
    · rename_i hp
      obtain ⟨tr2, h2, hl2, hs2, hf2⟩ := returnLoad_train h1 0
      have : m = n := hm1.resolve_right (by simp [hp])
      exact ⟨tr2, n + 1, h2, hs2.trans hs1, hf1.trans hf2, by rw [hl2, hl1, this, List.eraseIdx_zero, List.tail_drop], .inl rfl⟩
    · rename_i hp
      exact ⟨tr1, m, h1, hs1, hf1, hl1, .inr (by simpa using hp)⟩

/-- After the loads that satisfy a test have returned, none that does is outstanding. -/
theorem returnLoads_train {s : State} {k : Nat} {tr : Train} (h : train? s k = some tr) (p : PendLoad → Bool) :
    ∃ tr', train? (returnLoads s k p) k = some tr' ∧ tr'.stores = tr.stores ∧ SameButAccesses tr tr'
      ∧ (∀ ld ∈ tr'.loads, ld ∈ tr.loads ∧ p ld = false) := by
  unfold returnLoads
  simp only [h]
  obtain ⟨tr', m, h', hs, hf, hl, hm⟩ := returnWhere_train p tr.loads.length h
  refine ⟨tr', h', hs, hf, fun ld hld => ⟨List.mem_of_mem_drop (hl ▸ hld), ?_⟩⟩
  rcases hm with rfl | hm
  · rw [hl, List.drop_length] at hld; cases hld
  · simpa using List.any_eq_false.1 hm ld hld

theorem performAll_train {s : State} {k : Nat} {tr : Train} (h : train? s k = some tr) :
    performAll s k = putTrain (tr.stores.foldl (fun s x => writeBytes s x.pa x.bytes) s) k { tr with stores := [] } := by
  have hf : ∀ (l : List PendStore) (s : State), train? (l.foldl (fun s x => writeBytes s x.pa x.bytes) s) k = train? s k := by
    intro l
    induction l with
    | nil => intro s; rfl
    | cons a r ih => intro s; rw [List.foldl_cons, ih]; rfl
  unfold performAll
  simp only [h]
  rw [modTrain_eq ((hf _ _).trans h)]

/-- Stores performed one after another, read back: the last one that covers a byte counts. -/
theorem readByte_stores (l : List PendStore) (s : State) (a : Nat) :
    readByte (l.foldl (fun s x => writeBytes s x.pa x.bytes) s) a = overlay l s a := by
  unfold overlay
  induction l using List.reverseRecOn with
  | nil => rfl
  | append_singleton l x ih =>
    rw [List.foldl_append, List.foldl_append, List.foldl_cons, List.foldl_nil, List.foldl_cons, List.foldl_nil,
      readByte_writeBytes, ih]
    by_cases h : x.pa ≤ a ∧ a < x.pa + x.bytes.length
    · rw [if_pos h, if_pos (by simpa using h)]; rfl
    · rw [if_neg h, if_neg (by simpa using h)]

/-- A release performs every earlier access of the train: its loads have returned, its stores stand in memory. -/
theorem performEarlier_train {s : State} {k : Nat} {tr : Train} (h : train? s k = some tr) :
    ∃ tr', train? (performEarlier s k) k = some tr' ∧ tr'.loads = [] ∧ tr'.stores = [] ∧ SameButAccesses tr tr'
      ∧ ∀ a, readByte (performEarlier s k) a = overlay tr.stores s a := by
  obtain ⟨tr1, h1, hs1, hf1, hl1⟩ := returnLoads_train h fun _ => true
  unfold performEarlier
  rw [performAll_train h1]
  refine ⟨{ tr1 with stores := [] }, by simp, ?_, rfl, ⟨by rw [hf1.frame]⟩, fun a => ?_⟩
  · cases hl : tr1.loads with
    | nil => rfl
    | cons ld r => exact absurd (hl1 ld (by simp [hl])).2 (by simp)
  · have : ∀ (s' : State) (tr : Train), readByte (putTrain s' k tr) a = readByte s' a := fun _ _ => rfl
    rw [this, readByte_stores, hs1]
    obtain ⟨ts, hf, _⟩ := returnLoads_frame s k fun _ => true
    rw [hf]; rfl

theorem fillLatch_regAt (tr : Train) (age : Nat) (u : Bool) (t : Nat) (w : Word) (r : Reg) (l : Nat) :
    regAt (fillLatch tr age u t w) r l = regAt tr r l := by
  unfold fillLatch
  rcases age with _ | _ | _ | _ | n <;> cases r <;> rfl

theorem regAt_congr {tr tr' : Train} (hv : tr'.v = tr.v) (ho : tr'.o = tr.o) (hs : tr'.s = tr.s) (hk : tr'.k = tr.k)
    (hg : tr'.g = tr.g) (r : Reg) (l : Nat) : regAt tr' r l = regAt tr r l := by
  cases r <;> simp [rdV, rdO, rdS, rdK, rdG, hv, ho, hs, hk, hg]

/-- The registers after a load has returned. -/
theorem regAt_writeLoad (ld : PendLoad) (r : Reg) (l : Nat) (hl : l < 64) :
    ∀ (vals : List (Nat × Nat)) (tr : Train), (∀ e ∈ vals, DstFits ld.dst [e.1]) →
      regAt (writeLoad tr ld vals) r l
        = (listWritten ld.dst ld.ty.wide (vals.map fun e => (e.1, placed ld.ty e.2)) r l).getD (regAt tr r l) := by
  intro vals
  induction vals with
  | nil => intro tr _; rfl
  | cons e vs ih =>
    intro tr h
    have step : writeLoad tr ld (e :: vs) = writeLoad (fillLatch (writeReg tr ld.dst ld.ty.wide e.1 (placed ld.ty e.2))
      ld.age ld.u e.1 (lowWord (placed ld.ty e.2))) ld vs := rfl
    rw [step, ih _ fun e' he' => h e' (by simp [he']), fillLatch_regAt,
      regAt_writeReg _ _ _ _ _ _ _ hl (h e (by simp))]
    simp only [listWritten, List.map_cons, List.foldl_cons, Option.or_none]
    rw [foldl_or _ _ (stepWritten ld.dst ld.ty.wide e.1 (placed ld.ty e.2) r l)]
    generalize List.foldl _ none _ = o
    cases o <;> simp

theorem returnLoad_eq {s : State} {k i : Nat} {tr : Train} {ld : PendLoad} (h : train? s k = some tr)
    (hi : tr.loads[i]? = some ld) :
    returnLoad s k i = putTrain s k (writeLoad { tr with loads := tr.loads.eraseIdx i } ld
      (ld.parts.map fun e => (e.1, trainMem s tr e.2 (tyBytes ld.ty)))) := by
  have hlt : i < tr.loads.length := (List.getElem?_eq_some_iff.1 hi).1
  have hd : tr.loads.drop i = ld :: tr.loads.drop (i + 1) := by
    rw [List.drop_eq_getElem_cons hlt, (List.getElem?_eq_some_iff.1 hi).2]
  unfold returnLoad
  simp only [h, hd]
  rw [modTrain_eq h, List.eraseIdx_eq_take_drop_succ]
  rfl

/-- The performance of the earlier accesses changes nothing but memory and its train. -/
theorem performEarlier_frame (s : State) (k : Nat) :
    ∃ ts ms, performEarlier s k = { s with trains := ts, mem := ms } ∧ ∀ j, j ≠ k → Tab.get? ts j = train? s j := by
  obtain ⟨ts, hf, ho⟩ := returnLoads_frame s k fun _ => true
  have hw : ∀ (l : List PendStore) (s : State), l.foldl (fun s x => writeBytes s x.pa x.bytes) s
      = { s with mem := (l.foldl (fun s x => writeBytes s x.pa x.bytes) s).mem } := by
    intro l
    induction l with
    | nil => intro s; rfl
    | cons a r ih => intro s; rw [List.foldl_cons, ih]; rfl
  unfold performEarlier performAll
  rw [hf]
  split
  · exact ⟨ts, s.mem, rfl, ho⟩
  · rw [hw]
    exact ⟨_, _, rfl, fun j h => by simp only [Tab.get?_adjust, if_neg h]; exact ho j h⟩

theorem overlay_congr {s s' : State} (h : SameMemory s s') (l : List PendStore) (a : Nat) : overlay l s' a = overlay l s a := by
  unfold overlay; rw [h a]

/-! ### What a push performs first -/

theorem pushRelease_eq (s : State) (k : Nat) (x : Args) (lanes : List Nat) (val : Nat → Dword) :
    pushRelease s k x (lanes.map fun l => (l, val l)) = if pushes x lanes then performEarlier s k else s := by
  unfold pushRelease pushes
  cases x.d <;> cases x.nwb <;> cases lanes <;> rfl

/-- A push performs every earlier access of its train: the train goes on, and memory holds its stores (R198). -/
theorem pushRelease_train {s : State} {k : Nat} {tr : Train} (h : train? s k = some tr) (x : Args) (lanes : List Nat)
    (val : Nat → Dword) :
    ∃ tr', train? (pushRelease s k x (lanes.map fun l => (l, val l))) k = some tr'
      ∧ SameButAccesses tr tr' ∧ (pushes x lanes = false → tr' = tr ∧ pushRelease s k x (lanes.map fun l => (l, val l)) = s)
      ∧ ∀ a, readByte (pushRelease s k x (lanes.map fun l => (l, val l))) a
          = if pushes x lanes then overlay tr.stores s a else readByte s a := by
  rw [pushRelease_eq]
  cases hp : pushes x lanes
  · exact ⟨tr, h, .refl tr, fun _ => ⟨rfl, rfl⟩, fun _ => rfl⟩
  · obtain ⟨tr', h', _, _, hf, hm⟩ := performEarlier_train h
    exact ⟨tr', h', hf, fun h => absurd h (by simp), hm⟩

/-- A push changes, before its results, nothing but memory and its train. -/
theorem pushRelease_frame (s : State) (k : Nat) (x : Args) (lanes : List Nat) (val : Nat → Dword) :
    ∃ ts ms, pushRelease s k x (lanes.map fun l => (l, val l)) = { s with trains := ts, mem := ms }
      ∧ ∀ j, j ≠ k → Tab.get? ts j = train? s j := by
  rw [pushRelease_eq]
  split
  · exact performEarlier_frame s k
  · exact ⟨s.trains, s.mem, rfl, fun _ _ => rfl⟩

end Sys2Proof.Machine
end

