-- ==== Sys2Proof/Laws/Complete.lean ====
section
/-! SUPPORT. What precedes and what ends the meaning of an instruction: the gates that let it go on, its completion, and the
destinations that a well-formed instruction has. -/

namespace Sys2Proof.Machine

/-! ### What precedes the meaning -/

/-- The pops of an issue change nothing but queues of the train's workgroup. -/
theorem popAll_frame (i : Instr) (c : Ctx) (s : State) :
    ∃ ws, (popAll i c s).2 = { s with wgs := ws } ∧ ∀ w, c.tr.wg ≠ some w → Tab.get? ws w = wg? s w := by
  unfold popAll
  split
  · exact ⟨s.wgs, rfl, fun _ _ => rfl⟩
  · rename_i w hw
    split
    · exact ⟨s.wgs, rfl, fun _ _ => rfl⟩
    · split
      · refine ⟨_, rfl, fun j h => ?_⟩
        have : j ≠ w := by rintro rfl; exact h hw
        simp only [Tab.get?_put_ne _ _ this]; rfl
      · exact ⟨s.wgs, rfl, fun _ _ => rfl⟩

theorem popAll_ctx (i : Instr) (c : Ctx) (s : State) :
    ∃ a b d, (popAll i c s).1 = { c with popA := a, popB := b, popC := d } := by
  unfold popAll
  split
  · exact ⟨_, _, _, rfl⟩
  · split
    · exact ⟨_, _, _, rfl⟩
    · split <;> exact ⟨_, _, _, rfl⟩

/-- What the meaning of a ready instruction sees. -/
structure Seen (i : Instr) (x : Args) (s : State) (k : Nat) (c : Ctx) (s' : State) : Prop where
  slot  : c.k = k
  args  : c.x = x
  imm   : c.imm = (rules i).imm
  clk   : c.clk = s.clk
  mask  : c.mask = execMask c.tr x
  head  : ∃ tr, train? s k = some tr ∧ c.head = chainHead tr x
  train : train? s' k = some c.tr
  frame : s' = { s with trains := s'.trains, wgs := s'.wgs }
  trains : OtherTrains k s s'
  wgs   : ∀ w, c.tr.wg ≠ some w → wg? s' w = wg? s w

theorem Ready.seen {i : Instr} {x : Args} {s : State} {k : Nat} {c : Ctx} {s' : State} (h : Ready i x s k c s') :
    Seen i x s k c s' := by
  obtain ⟨_, tr, htr, hg⟩ := h
  unfold gates at hg
  obtain ⟨ts, hl, ho⟩ := returnLoads_frame s k (mustReturn i x)
  simp only [hl] at hg
  split at hg
  · cases hg
  split at hg
  · cases hg
  · rename_i tr1 htr1
    split at hg
    · cases hg
    split at hg
    · cases hg
    split at hg
    · cases hg
    · cases hg
    · simp only [Gate.go.injEq] at hg
      obtain ⟨rfl, rfl⟩ := hg
      obtain ⟨a, b, d, hc⟩ := popAll_ctx i { instr := i, k := k, tr := tr1, x := x, head := chainHead tr x, mask := execMask tr1 x, clk := s.clk, wgid := (wgOf { s with trains := ts } tr1).elim 0 (·.wgid), imm := (rules i).imm } { s with trains := ts }
      obtain ⟨ws, hs, hw⟩ := popAll_frame i { instr := i, k := k, tr := tr1, x := x, head := chainHead tr x, mask := execMask tr1 x, clk := s.clk, wgid := (wgOf { s with trains := ts } tr1).elim 0 (·.wgid), imm := (rules i).imm } { s with trains := ts }
      refine ⟨?_, ?_, ?_, ?_, ?_, ⟨tr, htr, ?_⟩, ?_, ?_, ?_, ?_⟩
      all_goals first | rw [hc] | skip
      · rw [hs]; exact htr1
      · rw [hs]
      · rw [hs]; exact ho
      · rw [hs]; exact hw

theorem Ready.current {i : Instr} {x : Args} {s : State} {k : Nat} {c : Ctx} {s' : State} (h : Ready i x s k c s') :
    s.current = some k := h.1

/-- A ready instruction does what its meaning says. -/
theorem issue_ready {i : Instr} {x : Args} {s : State} {k : Nat} {c : Ctx} {s' : State} (h : Ready i x s k c s')
    (wide : Bool) (body : Ctx → State → Res) : issue i x wide s body = .next (settle i x wide c (body c s')) := by
  obtain ⟨hc, tr, htr, hg⟩ := h
  simp only [issue, hc, htr, hg]

theorem Seen.readByte {i : Instr} {x : Args} {s : State} {k : Nat} {c : Ctx} {s' : State} (h : Seen i x s k c s') :
    SameMemory s s' := by
  intro a; rw [h.frame]; rfl

@[simp] theorem pushResults_train? (s : State) (tr : Train) (x : Args) (wide : Bool) (vals : List (Nat × Dword)) (j : Nat) :
    train? (pushResults s tr x wide vals) j = train? s j := by
  unfold pushResults; split
  · split <;> rfl
  · rfl

@[simp] theorem pushResults_readByte (s : State) (tr : Train) (x : Args) (wide : Bool) (vals : List (Nat × Dword)) (a : Nat) :
    readByte (pushResults s tr x wide vals) a = readByte s a := by
  unfold pushResults; split
  · split <;> rfl
  · rfl

/-- A completion without a trap or a jump. -/
theorem complete_completes (i : Instr) (x : Args) (wide : Bool) (lanes : List Nat) (val : Nat → Dword) (fl : FlagSet)
    (c : Ctx) (s : State) (ht : train? s c.k = some c.tr) (hd : DstFits x.d lanes) :
    Completes i x wide lanes val fl c s
      (complete i x wide c.k c.tr.pc s { vals := lanes.map (fun l => (l, val l)), flags := fl }) := by
  obtain ⟨tr, h, hf, _⟩ := pushRelease_train ht x lanes val
  refine ⟨tr, _, h, completeTrain_after i x wide lanes val fl none none tr hd, ?_⟩
  simp only [complete, h, hf.pc]

theorem Completes.memoryAfter {i : Instr} {x : Args} {wide : Bool} {lanes : List Nat} {val : Nat → Dword} {fl : FlagSet}
    {c : Ctx} {s t : State} (h : Completes i x wide lanes val fl c s t) (ht : train? s c.k = some c.tr) :
    MemoryAfter x lanes c.tr s t := by
  obtain ⟨tr, tr', _, _, rfl⟩ := h
  obtain ⟨_, _, _, _, hm⟩ := pushRelease_train ht x lanes val
  intro a
  exact (pushResults_readByte ..).trans (hm a)

theorem Completes.otherTrains {i : Instr} {x : Args} {wide : Bool} {lanes : List Nat} {val : Nat → Dword} {fl : FlagSet}
    {c : Ctx} {s t : State} (h : Completes i x wide lanes val fl c s t) : OtherTrains c.k s t := by
  obtain ⟨tr, tr', _, _, rfl⟩ := h
  obtain ⟨ts, ms, hf, ho⟩ := pushRelease_frame s c.k x lanes val
  intro j hj
  rw [train?_putTrain, if_neg hj, pushResults_train?, hf]
  exact ho j hj

theorem MemoryAfter.of_same {x : Args} {lanes : List Nat} {tr : Train} {s s' t : State} (h : MemoryAfter x lanes tr s' t)
    (hs : SameMemory s s') : MemoryAfter x lanes tr s t := by
  intro a
  rw [h a, overlay_congr hs, hs a]

/-! ### Destinations of well-formed instructions -/

/-- No destination of a U = 1 instruction is a `v` or `o` register, but for the register form of `adrain`. -/
theorem rules_dst (i : Instr) (x : Args) (opc m : Nat) (hf : i.form = some (opc, m, x)) (hu : x.u = true)
    (ha : opc ≠ 0xC6) (hr : (rules i).u.isNone || (rules i).u = some x.u) (p : Kinds) (hp : (rules i).d = some p)
    (n : BitVec 8) (n' : BitVec 4) : p (.v n) = false ∧ p (.o n') = false := by
  cases i
  case vote y m => cases hf; cases hp; cases m <;> simp [valK, condDstK, Kinds.lane, Kinds.sreg, hu]
  case kmov y => cases hf; cases hp; cases x.a <;> simp [kmovK, hu]
  case adrainReg y t z => cases hf; simp at ha
  case scan y t o e => cases hf; exact absurd (show decide (some false = some x.u) = true from hr) (by simp [hu])
  case shfl y t o => cases hf; exact absurd (show decide (some false = some x.u) = true from hr) (by simp [hu])
  case wrec y => cases hf; exact absurd (show decide (some false = some x.u) = true from hr) (by simp [hu])
  case wpane y => cases hf; exact absurd (show decide (some false = some x.u) = true from hr) (by simp [hu])
  case wkey y => cases hf; exact absurd (show decide (some false = some x.u) = true from hr) (by simp [hu])
  all_goals first
    | (cases hf; done)
    | (cases hf; cases hp; done)
    | (cases hf; cases hp
       simp only [dstK, valK, condDstK, targetK, baseK, hu, Kinds.lane, Kinds.sreg, Kinds.flag, Kinds.queue, Kinds.acc, Bool.not_true,
         Bool.false_and, Bool.or_false, Bool.and_false, and_self, if_true])

/-- The destination of a well-formed instruction fits the threads that it executes for. -/
theorem wellFormed_dstFits {i : Instr} {x : Args} {opc m : Nat} (hw : WellFormed i) (hf : i.form = some (opc, m, x))
    (ha : opc ≠ 0xC6) (c : Ctx) (hc : c.x = x) : DstFits x.d c.lanes := by
  unfold DstFits Ctx.lanes
  rw [hc]
  cases hu : x.u
  · split
    · intro l hl; exact mem_tids.1 (List.mem_of_mem_filter hl)
    · intro l hl; exact mem_tids.1 (List.mem_of_mem_filter hl)
    · trivial
  · have hw : i.wfForm = true := by simpa [WellFormed, Instr.wellFormed, hf] using hw
    simp only [Instr.wfForm, hf, Bool.and_eq_true, beq_iff_eq, staticCheck] at hw
    have hs := hw.2
    have h7 : check7 (rules i) x = true := by
      by_contra h
      rw [if_pos (by simpa using h)] at hs; cases hs
    have h9 : check9 (rules i) x = true := by
      by_contra h
      rw [if_neg (by simp [h7])] at hs
      split at hs
      · cases hs
      · rw [if_pos (by simpa using h)] at hs; cases hs
    simp only [check7, check9, Bool.and_eq_true] at h7 h9
    have key : ∀ n n', x.d ≠ .v n ∧ x.d ≠ .o n' := by
      intro n n'
      cases hd : (rules i).d with
      | none =>
        have := h7.1.1.1.1.2
        simp only [unusedOk, hd, Option.isSome_none, Bool.false_or, decide_eq_true_eq] at this
        rw [this]; simp
      | some p =>
        have hk := rules_dst i x opc m hf hu ha h7.1.1.1.1.1.1 p hd n n'
        have h1 := h9.1.1.1
        simp only [hd, kindOk, Bool.false_or] at h1
        split at h1
        · rename_i hn
          have := h7.2; simp [hn] at this; rw [this.2]; simp
        · constructor <;> (intro h; rw [h] at h1; simp [hk] at h1)
    split
    · rename_i n h; exact absurd h (key n 0).1
    · rename_i n h; exact absurd h (key 0 n).2
    · trivial

theorem Seen.dstFits {i : Instr} {x : Args} {s : State} {k : Nat} {c : Ctx} {s' : State} (h : Seen i x s k c s')
    {opc m : Nat} (hw : WellFormed i) (hf : i.form = some (opc, m, x)) (ha : opc ≠ 0xC6) : DstFits x.d c.lanes :=
  wellFormed_dstFits hw hf ha c h.args

/-- An instruction whose meaning answers one value for each thread completes with those values. -/
theorem issue_completes {i : Instr} {x : Args} {s : State} {k : Nat} {c : Ctx} {s' : State} {opc m : Nat}
    (hw : WellFormed i) (hf : i.form = some (opc, m, x)) (ha : opc ≠ 0xC6) (h : Ready i x s k c s') (wide : Bool)
    (body : Ctx → State → Res) (val : Nat → Dword) (fl : FlagSet) (s'' : State)
    (hb : body c s' = .done s'' { vals := c.lanes.map (fun l => (l, val l)), flags := fl })
    (ht : train? s'' k = some c.tr) :
    ∃ t, issue i x wide s body = .next t ∧ Completes i x wide c.lanes val fl c s'' t := by
  refine ⟨_, issue_ready h wide body, ?_⟩
  rw [hb]
  have hk := h.seen.slot
  exact complete_completes i x wide c.lanes val fl c s'' (by rw [hk]; exact ht) (h.seen.dstFits hw hf ha)

/-- An instruction whose result is a pure function of its operands completes with it in every thread. -/
theorem issuePure_completes {i : Instr} {x : Args} {s : State} {k : Nat} {c : Ctx} {s' : State} {opc m : Nat}
    (hw : WellFormed i) (hf : i.form = some (opc, m, x)) (ha : opc ≠ 0xC6) (h : Ready i x s k c s') (wide : Bool)
    (f : Ctx → Nat → Dword × FlagSet) :
    ∃ t, issuePure i x wide s f = .next t
      ∧ Completes i x wide c.lanes (fun l => (f c l).1) (joinFlags (c.lanes.map fun l => (f c l).2)) c s' t := by
  refine issue_completes hw hf ha h wide _ _ _ s' ?_ h.seen.train
  simp [List.map_map, Function.comp_def]

/-- `Yields` of an instruction whose meaning is a pure function. -/
theorem yields_of_pure {i : Instr} {x : Args} {wide : Bool} {f : Ctx → Nat → Dword × FlagSet} {opc m : Nat}
    (he : ∀ s, exec i s = issuePure i x wide s f) (hf : i.form = some (opc, m, x)) (ha : opc ≠ 0xC6) :
    Yields i x wide f := by
  intro hw s k c s' h
  obtain ⟨t, ht, hc⟩ := issuePure_completes hw hf ha h wide f
  have hk : train? s' c.k = some c.tr := h.seen.slot ▸ h.seen.train
  refine ⟨t, (he s).trans ht, hc, (hc.memoryAfter hk).of_same h.seen.readByte, fun j hj => ?_⟩
  exact (hc.otherTrains j (by rw [h.seen.slot]; exact hj)).trans (h.seen.trains j hj)

/-- `Yields` of an instruction whose meaning leaves the state alone and answers one value for each executing thread. -/
theorem yields_of_done {i : Instr} {x : Args} {wide : Bool} {f : Ctx → Nat → Dword × FlagSet} {opc m : Nat}
    (body : Ctx → State → Res) (he : ∀ s, exec i s = issue i x wide s body)
    (hb : ∀ c s, body c s = .done s { vals := c.lanes.map (fun l => (l, (f c l).1))
                                      flags := joinFlags (c.lanes.map fun l => (f c l).2) })
    (hf : i.form = some (opc, m, x)) (ha : opc ≠ 0xC6) : Yields i x wide f := by
  intro hw s k c s' h
  obtain ⟨t, ht, hc⟩ := issue_completes hw hf ha h wide body _ _ s' (hb c s') h.seen.train
  have hk : train? s' c.k = some c.tr := h.seen.slot ▸ h.seen.train
  refine ⟨t, (he s).trans ht, hc, (hc.memoryAfter hk).of_same h.seen.readByte, fun j hj => ?_⟩
  exact (hc.otherTrains j (by rw [h.seen.slot]; exact hj)).trans (h.seen.trains j hj)

/-- `Pends` of an instruction of the long-operation unit. -/
theorem pends_of_long {i : Instr} {x : Args} {wide : Bool} {f : Ctx → Nat → Dword × FlagSet}
    (he : ∀ s, exec i s = issueLong i x wide s f) : Pends i x wide f := by
  intro s k c s' h hw
  have hs := h.seen
  have hi := issue_ready h wide fun c s =>
    let r := c.lanes.map fun t => (t, f c t)
    .long s (r.map fun e => (e.1, e.2.1)) (joinFlags (r.map fun e => e.2.2))
  rw [he]; unfold issueLong; rw [hi]
  obtain ⟨tr, ht, hf, he, hm⟩ := pushRelease_train hs.train x c.lanes fun l => (f c l).1
  obtain ⟨ts, ms, hp, ho⟩ := pushRelease_frame s' k x c.lanes fun l => (f c l).1
  have hm' : MemoryAfter x c.lanes c.tr s (pushRelease s' k x (c.lanes.map fun l => (l, (f c l).1))) :=
    MemoryAfter.of_same hm hs.readByte
  have ho' : OtherTrains k s (pushRelease s' k x (c.lanes.map fun l => (l, (f c l).1))) := fun j hj => by
    rw [hp]; exact (ho j hj).trans (hs.trains j hj)
  have hg : ∀ w, tr.wg = some w → (wg? (pushRelease s' k x (c.lanes.map fun l => (l, (f c l).1))) w).isSome := by
    intro w h; rw [hp]; exact hw w (hf.wg ▸ h)
  have hn : (∀ n, x.d ≠ .q n) → tr = c.tr ∧ pushRelease s' k x (c.lanes.map fun l => (l, (f c l).1)) = s' := fun h => by
    refine he ?_
    unfold pushes
    split
    · rename_i n hd; exact absurd hd (h n)
    · rfl
  simp only [settle, startLong, hs.slot, List.map_map, Function.comp_def]
  generalize pushRelease s' k x (c.lanes.map fun l => (l, (f c l).1)) = s1 at ht hm' ho' hg hn ⊢
  simp only [ht]
  split
  · rename_i n w hd hwg
    obtain ⟨g, hg⟩ := Option.isSome_iff_exists.1 (hg w hwg)
    simp only [hg]
    rw [modTrain_eq (s := putWg s1 w _) (tr := tr) ht]
    refine ⟨_, (reserveVals x wide n.toNat (c.lanes.map fun l => (l, (f c l).1)) g).1, tr, rfl, rfl, by simp [longOf],
      fun h' => absurd hd (h' n), fun a => hm' a, fun j hj => ?_⟩
    rw [train?_putTrain, if_neg hj]; exact ho' j hj
  · rw [modTrain_eq ht]
    refine ⟨_, [], tr, rfl, rfl, by simp [longOf], fun h' => ⟨rfl, (hn h').1, by rw [(hn h').1, (hn h').2]; rfl⟩,
      fun a => hm' a, fun j hj => ?_⟩
    rw [train?_putTrain, if_neg hj]; exact ho' j hj

@[simp] theorem joinFlags_replicate (n : Nat) : joinFlags (List.replicate n (0 : FlagSet)) = 0 := by
  unfold joinFlags
  induction n with
  | zero => rfl
  | succ n ih => simpa [List.replicate_succ] using ih

/-- A meaning that answers `.done` ends the instruction so. -/
theorem endsWith_of_done {i : Instr} {x : Args} {s : State} {k : Nat} {c : Ctx} {s' : State} {wide : Bool}
    {body : Ctx → State → Res} {s'' : State} {d : Done} (h : Ready i x s k c s') (he : exec i s = issue i x wide s body)
    (hb : body c s' = .done s'' d) : EndsWith i x wide s c s'' d := by
  unfold EndsWith
  rw [he, issue_ready h wide body, hb]; rfl

end Sys2Proof.Machine
end

