-- ==== Sys2Proof/Laws/Memory.lean ====
section
/-! SUPPORT. What the shared parts of the memory instructions do: translation of all threads, places,
outstanding stores. -/

namespace Sys2Proof.Machine

theorem SameButCores.refl (s : State) : SameButCores s s := rfl
theorem SameButCores.trans {a b c : State} (h : SameButCores a b) (h' : SameButCores b c) : SameButCores a c := by
  unfold SameButCores at *; rw [h', h]
theorem cacheTrans_sameButCores (s : State) (c : Nat) (t : Trans) : SameButCores s (cacheTrans s c t) := rfl

theorem access_sameButCores (s : State) (tr : Train) (acc : Access) (va : Dword) (n : Nat) :
    SameButCores s (access s tr acc va n).1 := by
  unfold access
  split
  · exact .refl s
  · split
    · exact .refl s
    · split
      · exact .refl s
      · exact .refl s
      · exact cacheTrans_sameButCores ..

/-- Translation changes only what the cores cache. -/
theorem translateAll_sameButCores (tr : Train) (acc : Access) (n : Nat) (l : List (Nat × Dword)) (s : State) :
    SameButCores s (translateAll s tr acc n l).1 := by
  induction l generalizing s with
  | nil => exact .refl s
  | cons e l ih =>
    have hc := access_sameButCores s tr acc e.2 n
    unfold translateAll
    cases hx : access s tr acc e.2 n with
    | mk s1 x =>
      rw [hx] at hc
      have hk := hc.trans (ih s1)
      cases hr : translateAll s1 tr acc n l with
      | mk s2 r =>
        rw [hr] at hk
        cases x with
        | fault _ => exact hc
        | bad _ => simp only [hr]; cases r <;> exact hk
        | mem _ => simp only [hr]; cases r <;> exact hk
        | remote _ _ => simp only [hr]; cases r <;> exact hk

/-- A prefetch changes only what a core caches. -/
theorem prefetch_sameButCores (s : State) (tr : Train) (va : Dword) : SameButCores s (prefetch s tr va) := by
  have h := access_sameButCores s tr .load va 0
  unfold prefetch
  split
  · rename_i e; rwa [e] at h
  · rename_i e; rwa [e] at h
  · exact .refl s
  · exact .refl s

@[simp] theorem homeXl_mem (s : State) (pa : Nat) : homeXl s (.mem pa) = .mem pa := rfl
@[simp] theorem homeXl_fault (s : State) (pte : Nat) : homeXl s (.fault pte) = .fault pte := rfl
@[simp] theorem homeXl_bad (s : State) (cause : Nat) : homeXl s (.bad cause) = .bad cause := rfl

/-- Forsaken requests: nothing but who waits for them changes. -/
theorem forsake_frame (s : State) (k : Nat) : ∃ rq, forsake s k = { s with remote := rq } := by
  unfold forsake
  split
  · exact ⟨s.remote, rfl⟩
  · exact ⟨_, rfl⟩
@[simp] theorem forsake_train? (s : State) (k j : Nat) : train? (forsake s k) j = train? s j := by
  obtain ⟨rq, h⟩ := forsake_frame s k; rw [h]; rfl
@[simp] theorem forsake_readByte (s : State) (k a : Nat) : readByte (forsake s k) a = readByte s a := by
  obtain ⟨rq, h⟩ := forsake_frame s k; rw [h]; rfl

theorem Translates.sameButCores {c : Ctx} {s : State} {acc : Access} {n : Nat} {addr : Nat → Dword} {pa : Nat → Nat}
    {s' : State} (h : Translates c s acc n addr pa s') : SameButCores s s' := by
  have hc := translateAll_sameButCores c.tr acc n (c.lanes.map fun l => (l, addr l)) s
  rw [h.2] at hc
  exact hc

theorem Translates.train? {c : Ctx} {s : State} {acc : Access} {n : Nat} {addr : Nat → Dword} {pa : Nat → Nat}
    {s' : State} (h : Translates c s acc n addr pa s') (j : Nat) : Machine.train? s' j = Machine.train? s j := by
  rw [h.sameButCores]; rfl

@[simp] theorem localPlaces_mem (lanes : List Nat) (addr : Nat → Dword) (pa : Nat → Nat) :
    localPlaces (lanes.map fun l => (l, addr l, Xl.mem (pa l))) = lanes.map fun l => (l, pa l) := by
  simp [localPlaces, List.filterMap_map]
@[simp] theorem remotePlaces_mem (lanes : List Nat) (addr : Nat → Dword) (pa : Nat → Nat) :
    remotePlaces (lanes.map fun l => (l, addr l, Xl.mem (pa l))) = [] := by
  simp [remotePlaces, List.filterMap_map]
@[simp] theorem violations_mem (r : Tab RemoteReply) (lanes : List Nat) (addr : Nat → Dword) (pa : Nat → Nat) :
    violations r (lanes.map fun l => (l, addr l, Xl.mem (pa l))) = [] := by
  simp [violations, List.filterMap_map]
@[simp] theorem violationTrap_nil (c : Ctx) : violationTrap c [] = none := rfl

@[simp] theorem askRemote_nil (s : State) (k : Nat) (op : Nat → RemoteOp) : askRemote s k op [] = none := by
  unfold askRemote; split <;> rfl

/-- An instruction whose accesses all reach this module's memory goes on with their places. -/
theorem withPlaces_ok {c : Ctx} {s : State} {acc : Access} {n : Nat} {addr : Nat → Dword} {pa : Nat → Nat} {s' : State}
    (h : Translates c s acc n addr pa s') (op : Nat → RemoteOp) (go : State → List (Nat × Dword × Xl) → Res)
    (near : Option Near) : withPlaces c s acc n (c.lanes.map fun l => (l, addr l)) op go near
      = go s' (c.lanes.map fun l => (l, addr l, Xl.mem (pa l))) := by
  simp only [withPlaces, h.1, h.2, remotePlaces_mem, askRemote_nil]

/-- An instruction whose requests are answered goes on with the places that it had. -/
theorem withPlaces_resumed {c : Ctx} {a : PendAccess} (h : c.tr.access = some a) (s : State) (acc : Access) (n : Nat)
    (addrs : List (Nat × Dword)) (op : Nat → RemoteOp) (go : State → List (Nat × Dword × Xl) → Res) (near : Option Near) :
    withPlaces c s acc n addrs op go near = go s a.places := by
  simp only [withPlaces, h]

/-! ### Scratchpad, tiles, tags -/

/-- A list of values by thread, looked up. -/
theorem find_map (lanes : List Nat) (f : Nat → Nat) (l : Nat) (h : l ∈ lanes) :
    (lanes.map fun l => (l, f l)).find? (fun e => decide (e.1 = l)) = some (l, f l) := by
  induction lanes with
  | nil => cases h
  | cons a r ih =>
    by_cases ha : a = l
    · subst ha; simp
    · simp [ha]; simpa using ih (by simpa [Ne.symm ha] using h)

/-- A scratchpad load whose threads all have a place. -/
theorem spLoad_eq {s : State} {tr : Train} {g : Wg} (hg : wgOf s tr = some g) (t : Ty) (n : Nat) (lanes : List Nat) (f : Nat → Nat) :
    spLoad s tr t n lanes (lanes.map fun l => (l, f l)) = lanes.map fun l => (l, placed t (spRead g (f l) n)) := by
  simp only [spLoad, hg]
  refine List.map_congr_left fun l hl => ?_
  rw [find_map lanes f l hl]

/-- An access that the regions allow is aligned. -/
theorem spFate_aligned {g : Wg} {st : Bool} {a n : Nat} (h : spFate g st a n = .ok) : a % n = 0 := by
  by_contra hn
  simp only [spFate, hn, ne_eq, not_false_eq_true, decide_true, Bool.true_or, if_true] at h
  cases h

/-- Every access is allowed. -/
theorem spFates_ok {g : Wg} {st : Bool} {n al : Nat} {lanes : List Nat} {f : Nat → Nat} (h : ∀ l ∈ lanes, spFate g st (f l) n = .ok) :
    spFates (some g) st n (lanes.map fun l => (l, f l)) al = lanes.map fun l => (l, f l, SpFate.ok) := by
  simp only [spFates, List.map_map]
  exact List.map_congr_left fun l hl => by simp [h l hl, spFate_aligned (h l hl)]

/-- A scratchpad instruction whose accesses are all allowed goes on with their places. -/
theorem withSp_ok {c : Ctx} {s : State} {g : Wg} {st : Bool} {n al : Nat} {lanes : List Nat} {f : Nat → Nat}
    (hg : wgOf s c.tr = some g) (h : ∀ l ∈ lanes, spFate g st (f l) n = .ok) (go : List (Nat × Nat) → Option TrapRec → Res) :
    withSp c s st n (lanes.map fun l => (l, f l)) go al = go (lanes.map fun l => (l, f l)) none := by
  simp only [withSp, hg, spFates_ok h]
  rw [if_neg (by simp)]
  split
  · rename_i heq
    exfalso
    simp only [List.findSome?_map, Function.comp_def] at heq
    obtain ⟨_, _, h⟩ := List.exists_of_findSome?_eq_some heq
    cases h
  · simp [spViolations, List.filterMap_map]

/-- Every offset lies in the tile. -/
theorem tilePlaces_ok {tl : Tile} {n : Nat} {lanes : List Nat} {f : Nat → Nat} (h : ∀ l ∈ lanes, f l % n = 0 ∧ f l + n ≤ tl.size) :
    tilePlaces tl n (lanes.map fun l => (l, f l)) = (lanes.map fun l => (l, tl.base + f l), []) := by
  simp only [tilePlaces, List.filterMap_map, Prod.mk.injEq]
  constructor
  · rw [← List.filterMap_eq_map]
    refine List.filterMap_congr fun l hl => ?_
    simp [h l hl]
  · rw [List.filterMap_eq_nil_iff]
    intro l hl
    simp [h l hl]

/-- A tag instruction with a configured table goes on. -/
theorem withTags_ok {c : Ctx} {s : State} {w : Nat} {g : Wg} {v : Dword} (hw : c.tr.wg = some w) (hg : wg? s w = some g)
    (hv : g.tagCfg = some v) (hon : c.on = true) (addr : Nat → Dword) (go : Nat → Wg → TagCfg → Res) :
    withTags c s addr go = go w g (tagCfgOf v) := by
  have hg' : wgOf s c.tr = some g := by simp [wgOf, hw, hg]
  simp only [withTags, hon, hw, hg', hv]

/-- Nothing executes where no guard holds. -/
theorem lanes_off {c : Ctx} (h : c.on = false) : c.lanes = [] := by
  unfold Ctx.lanes
  simp only [h]
  unfold Ctx.on at h
  split
  · rfl
  · have : c.mask = 0 := by simpa using h
    rw [this]; decide

/-! ### Outstanding stores -/

theorem splitOverlap_sublist (last : PendStore) (before : List PendStore) :
    (splitOverlap last before).1.Sublist before ∧ (splitOverlap last before).2.Sublist before := by
  unfold splitOverlap
  induction before with
  | nil => exact ⟨List.Sublist.refl _, List.Sublist.refl _⟩
  | cons st r ih =>
    simp only [List.foldr_cons]
    split
    · exact ⟨ih.1.cons_cons st, ih.2.cons st⟩
    · exact ⟨ih.1.cons st, ih.2.cons_cons st⟩

theorem overlay_of_uncovered (l : List PendStore) (s : State) (a : Nat)
    (h : ∀ x ∈ l, ¬(x.pa ≤ a ∧ a < x.pa + x.bytes.length)) : overlay l s a = readByte s a := by
  unfold overlay
  generalize readByte s a = b
  induction l generalizing b with
  | nil => rfl
  | cons x r ih =>
    rw [List.foldl_cons, if_neg (by simpa using h x (by simp))]
    exact ih (fun y hy => h y (by simp [hy])) b

theorem overlay_last (l : List PendStore) (x : PendStore) (s : State) (a : Nat) (h : x.pa ≤ a ∧ a < x.pa + x.bytes.length) :
    overlay (l ++ [x]) s a = x.bytes.getD (a - x.pa) 0 := by
  unfold overlay
  rw [List.foldl_append, List.foldl_cons, List.foldl_nil, if_pos (by simpa using h)]

theorem foldl_writeBytes_train? (l : List PendStore) (s : State) (j : Nat) :
    train? (l.foldl (fun s x => writeBytes s x.pa x.bytes) s) j = train? s j := by
  induction l generalizing s with
  | nil => rfl
  | cons a r ih => rw [List.foldl_cons, ih]; rfl

/-- One store is performed, with the earlier ones that it must follow. -/
theorem performStore_eq {s : State} {k i : Nat} {tr : Train} {st : PendStore} (h : train? s k = some tr)
    (hi : tr.stores[i]? = some st) :
    performStore s k i = putTrain
      (((splitOverlap st (tr.stores.take i)).1 ++ [st]).foldl (fun s x => writeBytes s x.pa x.bytes) s) k
      { tr with stores := (splitOverlap st (tr.stores.take i)).2 ++ tr.stores.drop (i + 1) } := by
  have hlt : i < tr.stores.length := (List.getElem?_eq_some_iff.1 hi).1
  have hd : tr.stores.drop i = st :: tr.stores.drop (i + 1) := by
    rw [List.drop_eq_getElem_cons hlt, (List.getElem?_eq_some_iff.1 hi).2]
  unfold performStore
  simp only [h, hd]
  rw [modTrain_eq ((foldl_writeBytes_train? _ _ _).trans h)]

/-! ### Waiting trains -/

/-- What `unblock` does. -/
theorem unblock_unblocked {s : State} {k : Nat} {tr : Train} (h : train? s k = some tr) : Unblocked k s (unblock s k) := by
  have ht : ∀ j, train? (touchStall s k) j = train? s j := by
    intro j; unfold touchStall; split <;> rfl
  have hm : ∀ a, readByte (touchStall s k) a = readByte s a := by
    intro a; unfold touchStall; split <;> rfl
  refine ⟨tr, h, ?_, fun j hj => ?_, fun a => ?_⟩
  · simp [unblock, h]
  · simp [unblock, h, hj, ht]
  · simp only [unblock, h]; exact hm a

end Sys2Proof.Machine
end

