-- ==== Sys2Proof/Laws/Bytes.lean ====
section
/-! SUPPORT. Bytes of numbers, and what reads of memory and of the scratchpad give after writes and stores. -/

namespace Sys2Proof.Machine

/-- The bytes of a number, one by one. -/
theorem bytesOf_getD (v : Nat) : ∀ (n i : Nat), i < n → (bytesOf v n).getD i 0 = BitVec.ofNat 8 (v / 256 ^ i) := by
  intro n
  induction n generalizing v with
  | zero => intro i h; omega
  | succ n ih =>
    intro i h
    cases i with
    | zero => simp [bytesOf]
    | succ i =>
      simp only [bytesOf, List.getD_cons_succ]
      rw [ih _ _ (by omega), Nat.div_div_eq_div_mul, Nat.pow_succ, Nat.mul_comm]

/-- How many bytes there are. -/
theorem bytesOf_length (v n : Nat) : (bytesOf v n).length = n := by
  induction n generalizing v with
  | zero => rfl
  | succ n ih => simp [bytesOf, ih]

/-- A number from its bytes. -/
theorem ofBytes_bytesOf (n : Nat) : ∀ v, ofBytes (bytesOf v n) = v % 256 ^ n := by
  induction n with
  | zero => intro v; simp [bytesOf, ofBytes, Nat.mod_one]
  | succ n ih =>
    intro v
    simp only [bytesOf, ofBytes, ih, BitVec.toNat_ofNat]
    rw [show 256 ^ (n + 1) = 256 * 256 ^ n from by rw [Nat.pow_succ, Nat.mul_comm], Nat.mod_mul]

/-- A number in memory is the number of its bytes. -/
theorem readMem_eq (s : State) (pa n : Nat) : readMem s pa n = ofBytes ((List.range n).map fun i => readByte s (pa + i)) := by
  unfold readMem readByte
  congr 1
  induction n generalizing pa with
  | zero => rfl
  | succ n ih =>
    rw [List.range_succ_eq_map]
    simp only [Tab.readList, List.map_cons, List.map_map, Nat.add_zero, List.cons.injEq, true_and]
    rw [ih]
    refine List.map_congr_left fun i _ => ?_
    simp [Nat.add_assoc, Nat.add_comm 1]

/-- A list read outside the places written is as before. -/
theorem readList_writeList {α : Type} [DecidableEq α] (d : α) (m : Tab α) (a b n : Nat) (vs : List α)
    (h : b + n ≤ a ∨ a + vs.length ≤ b) : Tab.readList d (Tab.writeList d m a vs) b n = Tab.readList d m b n := by
  induction n generalizing b with
  | zero => rfl
  | succ n ih =>
    simp only [Tab.readList]
    rw [ih (b + 1) (by omega), Tab.read_writeList, if_neg (by omega)]

/-- A list read where it was written. -/
theorem readList_writeList_self {α : Type} [DecidableEq α] (d : α) (vs : List α) : ∀ (m : Tab α) (a : Nat),
    Tab.readList d (Tab.writeList d m a vs) a vs.length = vs := by
  induction vs with
  | nil => intro m a; rfl
  | cons v vs ih =>
    intro m a
    simp only [List.length_cons, Tab.readList, Tab.writeList]
    rw [ih, Tab.read_writeList, if_neg (by omega), Tab.read_write_self]

/-- The performance of the stores of a train that touch a range. -/
theorem performOverlapping_eq {s : State} {k pa n : Nat} {tr : Train} (h : train? s k = some tr) :
    performOverlapping s k pa n = putTrain
      ((splitOverlap { pa := pa, bytes := List.replicate n 0 } tr.stores).1.foldl (fun s x => writeBytes s x.pa x.bytes) s) k
      { tr with stores := (splitOverlap { pa := pa, bytes := List.replicate n 0 } tr.stores).2 } := by
  unfold performOverlapping
  simp only [h]
  rw [modTrain_eq ((foldl_writeBytes_train? _ _ _).trans h)]

/-- Stores that do not cover a byte do not change how it reads. -/
theorem overlay_filter (l : List PendStore) (s : State) (a : Nat) :
    overlay l s a = overlay (l.filter fun x => decide (x.pa ≤ a) && decide (a < x.pa + x.bytes.length)) s a := by
  unfold overlay
  generalize readByte s a = b
  induction l generalizing b with
  | nil => rfl
  | cons x r ih =>
    rw [List.foldl_cons, List.filter_cons]
    split
    · rename_i h; rw [List.foldl_cons, if_pos h, ih]
    · rename_i h; rw [ih]

/-- The stores that a range needs are among the first part. -/
theorem splitOverlap_covers (q : PendStore) (a : Nat) (ha : q.pa ≤ a ∧ a < q.pa + q.bytes.length) (l : List PendStore) :
    (splitOverlap q l).1.filter (fun x => decide (x.pa ≤ a) && decide (a < x.pa + x.bytes.length))
      = l.filter fun x => decide (x.pa ≤ a) && decide (a < x.pa + x.bytes.length) := by
  induction l with
  | nil => rfl
  | cons st r ih =>
    have step : (splitOverlap q (st :: r)).1 = if ((splitOverlap q r).1 ++ [q]).any (fun x => overlaps st.pa st.bytes.length x.pa x.bytes.length) then st :: (splitOverlap q r).1 else (splitOverlap q r).1 := by
      unfold splitOverlap; simp only [List.foldr_cons]; split <;> rfl
    rw [step]
    split
    · rw [List.filter_cons, List.filter_cons, ih]
    · rename_i hno
      rw [ih, List.filter_cons, if_neg]
      intro hc
      apply hno
      rw [List.any_eq_true]; refine ⟨q, by simp, ?_⟩
      simp [overlaps] at hc ⊢; omega

/-- A byte of a range reads alike after the first part. -/
theorem overlay_split (q : PendStore) (l : List PendStore) (s : State) (a : Nat) (ha : q.pa ≤ a ∧ a < q.pa + q.bytes.length) :
    overlay (splitOverlap q l).1 s a = overlay l s a := by
  rw [overlay_filter, splitOverlap_covers q a ha, ← overlay_filter]

/-- A word of the scratchpad where it was written. -/
theorem spWord_setSpWord (g : Wg) (a : Nat) (w : Word) : spWord (setSpWord g a w) a = w := by
  simp only [spWord, setSpWord]
  have := readList_writeList_self (0 : Byte) (bytesOf w.toNat 4) g.sp a
  rw [bytesOf_length] at this
  rw [this, ofBytes_bytesOf]
  have hw := w.isLt
  rw [Nat.mod_eq_of_lt (by omega)]
  simp

/-- A word beside the one written. -/
theorem spWord_setSpWord_ne (g : Wg) (a b : Nat) (w : Word) (h : b + 4 ≤ a ∨ a + 4 ≤ b) :
    spWord (setSpWord g a w) b = spWord g b := by
  simp only [spWord, setSpWord]
  rw [readList_writeList _ _ _ _ _ _ (by rw [bytesOf_length]; exact h)]

/-- A queue descriptor, read back. -/
theorem qdesc_setQ (g : Wg) (q : Nat) (d : QDesc) : qdesc (setQ g q d) q = d := by
  simp [qdesc, setQ]

/-- A descriptor is no part of the scratchpad. -/
theorem spWord_setQ (g : Wg) (q a : Nat) (d : QDesc) : spWord (setQ g q d) a = spWord g a := rfl

end Sys2Proof.Machine
end

