-- ==== Sys2Proof/Laws/Classes.lean ====
section
/-! SUPPORT. What the shared beginnings of the meanings of each class answer when their conditions hold. -/

namespace Sys2Proof.Machine

/-- A meaning that has left the train ends in its state. -/
theorem exec_of_left {i : Instr} {x : Args} {s : State} {k : Nat} {c : Ctx} {s' : State} {wide : Bool} {body : Ctx → State → Res} {s'' : State}
    (h : Ready i x s k c s') (he : exec i s = issue i x wide s body) (hb : body c s' = .left s'') : exec i s = .next s'' := by
  rw [he, issue_ready h, hb]; rfl

/-- How a ready instruction ends. -/
theorem exec_of_res {i : Instr} {x : Args} {s : State} {k : Nat} {c : Ctx} {s' : State} {wide : Bool} {body : Ctx → State → Res} {r : Res}
    (h : Ready i x s k c s') (he : exec i s = issue i x wide s body) (hb : body c s' = r) : exec i s = .next (settle i x wide c r) := by
  rw [he, issue_ready h, hb]

/-- No flags join to none. -/
theorem joinFlags_zeros (l : List Nat) : joinFlags (l.map fun _ => (0 : FlagSet)) = 0 := by
  unfold joinFlags
  induction l with
  | nil => rfl
  | cons a l ih => simpa using ih

/-- Executing threads are distinct. -/
theorem lanes_nodup (c : Ctx) : c.lanes.Nodup := by
  unfold Ctx.lanes
  split
  · split <;> simp
  · exact (List.nodup_range).filter _

/-- The train after loads of some places return. -/
theorem settle_train {s : State} {k : Nat} {tr : Train} (h : train? s k = some tr) (pl : List (Nat × Nat)) (n : Nat) :
    (train? (settleLoads s k pl n) k).isSome := by
  obtain ⟨t, h, _⟩ := returnLoads_train h fun ld => pl.any fun e => loadTouches ld e.2 n
  exact Option.isSome_iff_exists.2 ⟨t, h⟩

/-- Places all reached go on. -/
theorem withPlaces_all {c : Ctx} {s s2 : State} {acc : Access} {n : Nat} {l : List (Nat × Dword)} {places : List (Nat × Dword × Xl)}
    (ha : c.tr.access = none) (h : translateAll s c.tr acc n l = (s2, .ok places)) (hp : ∀ e ∈ places, ∃ pa, e.2.2 = .mem pa)
    (op : Nat → RemoteOp) (go : State → List (Nat × Dword × Xl) → Res) (near : Option Near) :
    withPlaces c s acc n l op go near = go s2 places := by
  have : remotePlaces places = [] := by
    unfold remotePlaces
    rw [List.filterMap_eq_nil_iff]; intro e he
    obtain ⟨pa, h⟩ := hp e he
    simp [h]
  simp only [withPlaces, ha, h, this, askRemote_nil]

/-- Places all reached raise no violation. -/
theorem violations_all {r : Tab RemoteReply} {places : List (Nat × Dword × Xl)} (hp : ∀ e ∈ places, ∃ pa, e.2.2 = .mem pa) :
    violations r places = [] := by
  unfold violations
  rw [List.filterMap_eq_nil_iff]; intro e he
  obtain ⟨pa, h⟩ := hp e he
  simp [h]

/-- The queue class in a resident workgroup. -/
theorem withQueues_ok {c : Ctx} {s : State} {w : Nat} {g : Wg} (hw : c.tr.wg = some w) (hg : wg? s w = some g) (hon : c.on = true)
    (go : Nat → Wg → Res) : withQueues c s go = go w g := by
  have hg' : wgOf s c.tr = some g := by simp [wgOf, hw, hg]
  simp only [withQueues, hon, hw, hg', Bool.not_true, Bool.false_eq_true, if_false]

/-- The matrix class with its conditions. -/
theorem withMatrix_ok {c : Ctx} {s : State} {w : Nat} {g : Wg} {tiles : List Opnd} (h : MatrixReady c s w g tiles) (go : Nat → Wg → Res) :
    withMatrix c s tiles go = go w g := by
  obtain ⟨h1, h2, h3, h4, h5⟩ := h
  have hg : wgOf s c.tr = some g := by simp [wgOf, h2, h3]
  simp only [withMatrix, h1, h2, hg, Bool.not_true, Bool.false_eq_true, if_false]
  split
  · rename_i n hn
    obtain ⟨o, ho, he⟩ := List.mem_filterMap.1 (List.mem_of_find?_eq_some hn)
    have hs := List.find?_some hn
    cases o <;> simp at he
    subst he; exact absurd (h4 _ ho) (by simpa using hs)
  · rw [if_neg (by omega)]

/-- No matrix trap. -/
theorem orMatrixTrap_ok {s : State} {l : List (Nat × Bool)} (h : ∀ e ∈ l, e.2 = false) (go : Res) : orMatrixTrap s l go = go := by
  have : firstFail l = none := by
    simp only [firstFail, Option.map_eq_none_iff, List.find?_eq_none]; intro e he; simp [h e he]
  simp only [orMatrixTrap, this]

/-- Bound names pass. -/
theorem unboundIn_ok {g : Wg} {f n : Nat} (h : NamesBound g f n) : unboundIn g f n = false := by
  simp only [unboundIn, List.any_eq_false, List.mem_range]
  intro j hj; have := h.2.2 j hj
  simpa [← Option.isSome_iff_ne_none] using this

/-- The checks of `mma` pass. -/
theorem mmaChecks_ok {s : State} {g : Wg} {t : Ty} {f m : Nat} {a b : Bool} (hl : LatchFits s g t) (h0 : 0 < m) (h1 : m ≤ 1024)
    (hn : NamesBound g f (ceilDiv m 16)) (ha : a = false) (hb : b = false) : ∀ e ∈ mmaChecks s g t f m a b, e.2 = false := by
  obtain ⟨hl1, tw, hl2, hl3⟩ := hl
  have := hn.2.1
  simp only [mmaChecks, List.forall_mem_cons, List.not_mem_nil, false_imp_iff, implies_true, and_true, unboundIn_ok hn, hl2, ha, hb, Option.isNone_some, Option.any_some, hl3]
  refine ⟨?_, ?_, by simp⟩
  · simp [limpF32]; exact hl1
  · simp; omega

/-- The window class in an activation train. -/
theorem withAct_ok {c : Ctx} {s : State} {a : Act} {ln : Line} (h : RunsLine c s a ln) (go : Act → Line → Res) : withAct c s go = go a ln := by
  simp [withAct, h.1, h.2.1, h.2.2]

/-- The checks of the input instructions pass. -/
theorem inputChecks_ok {c : Ctx} {a : Act} {kind : Wake → Bool} {range : Nat → Bool} (h : ∀ t ∈ c.lanes, (∃ w, wakeOf a t = some w ∧ kind w) ∧ range t) :
    inputChecks c a kind range = none := by
  unfold inputChecks
  rw [if_neg, if_neg]
  · simp; intro t ht; exact (h t ht).2
  · simp; intro t ht; obtain ⟨⟨w, h1, h2⟩, _⟩ := h t ht; simp [h1, h2]

/-- A record that is reached. -/
theorem withRecord_ok {c : Ctx} {s s2 : State} {acc : Access} {n : Nat} {va : Dword} {pa : Nat} (h : access s c.tr acc va n = (s2, .mem pa))
    (go : State → Nat → Res) : withRecord c s acc n va go = go s2 pa := by simp only [withRecord, withRecordOr, h, reachXl]

/-- A launch instruction in a train of a launch. -/
theorem withLaunch_ok {c : Ctx} {s : State} {l : Nat} {ln : Launch} (hon : c.on = true) (ha : c.tr.act = none) (hl : c.tr.launch = some l)
    (hn : launch? s l = some ln) (go : Nat → Launch → Res) : withLaunch c s go = go l ln := by
  simp [withLaunch, hon, ha, hl, hn]

/-- The next task of a train that holds none. -/
theorem takeNext_ok {s : State} {k mask p : Nat} {r : ReadyRec} {tr : Train} (h : train? s k = some tr) (h1 : tr.held = none)
    (h2 : findRecord s tr mask = some (p, r)) :
    takeNext s k mask = some ((r.va, p), setReadyQueue s tr.part p ((readyQueue s tr.part p).erase r)) := by
  simp only [takeNext, h, h1, h2, Option.map_some]

/-- Nothing to sort. -/
theorem sortTids_nil {α : Type} (lanes : List Nat) : sortTids lanes ([] : List (Nat × α)) = [] := by
  simp [sortTids]

/-- A round of `waita` in which every condition holds. -/
theorem waitRound_all (read : WaitCell → WaitGot) (eq : Bool) (lanes : List Nat) (mk : Nat → WaitCell) (val : Nat → Nat)
    (ht : ∀ l, (mk l).tid = l) (hr : ∀ l ∈ lanes, read (mk l) = .value (val l)) (hh : ∀ l ∈ lanes, waitHolds eq (mk l) (val l) = true) :
    ∀ vals, lanes.Nodup → (∀ l ∈ lanes, ∀ e ∈ vals, e.1 ≠ l) → waitRound read eq (lanes.map mk) vals = { vals := vals ++ lanes.map fun l => (l, val l) } := by
  induction lanes with
  | nil => intro vals _ _; simp [waitRound]
  | cons a r ih =>
    intro vals hnd hv
    have h1 : vals.filter (fun e => decide (e.1 ≠ a)) = vals := by
      rw [List.filter_eq_self]; intro e he; simpa using hv a (by simp) e he
    simp only [List.map_cons, waitRound, hr a (by simp), ht, h1]
    rw [ih (fun l hl => hr l (by simp [hl])) (fun l hl => hh l (by simp [hl])) _ (List.nodup_cons.1 hnd).2]
    · simp [hh a (by simp)]
    · intro l hl e he
      rcases List.mem_append.1 he with he | he
      · exact hv l (by simp [hl]) e he
      · simp at he; subst he; simp; rintro rfl; exact (List.nodup_cons.1 hnd).1 hl

end Sys2Proof.Machine
end

