-- ==== Sys2Proof/Laws/Form.lean ====
section
/-! SUPPORT. Every operation on memory keeps its canonical form. Memory changes by these operations alone. -/

namespace Sys2Proof.Machine

theorem writeBytes_wf {s : State} (pa : Nat) (bs : List Byte) (h : Memory.wf s.mem = true) :
    Memory.wf (writeBytes s pa bs).mem = true := Tab.canonical_writeList _ bs pa h

theorem writeMem_wf {s : State} (pa n v : Nat) (h : Memory.wf s.mem = true) : Memory.wf (writeMem s pa n v).mem = true :=
  writeBytes_wf pa _ h

theorem putImagePiece_wf {s : State} (m : Img) (p : Nat × Nat × Nat) (h : Memory.wf s.mem = true) :
    Memory.wf (putImagePiece s m p).mem = true := by
  unfold putImagePiece
  generalize m.filter _ = bytes
  have hf := Tab.canonical_filter unwritten (fun e : Nat × Byte => !(p.2.2 ≤ e.1 && e.1 < p.2.2 + p.2.1)) h
  revert hf
  generalize s.mem.filter _ = mem
  induction bytes generalizing mem with
  | nil => exact id
  | cons e r ih => intro hf; exact ih _ (Tab.canonical_write _ _ _ hf)

theorem zeroMemory_wf {s : State} (p : Nat) (h : Memory.wf s.mem = true) : Memory.wf (zeroMemory s p).mem = true :=
  Tab.canonical_filter _ _ h

theorem reset_mem_wf : Memory.wf State.reset.mem = true := rfl

/-- A message that passes the router changes the outbox alone, too. -/
theorem passOn_frame (s : State) (h : FabHeader) (tag : Nat) : passOn s h tag = { s with outbox := (passOn s h tag).outbox } := by
  unfold passOn
  split
  · rfl
  · split
    · split
      · exact sendFabric_frame s h.part h.source _
      · rfl
    · rfl

end Sys2Proof.Machine
end

