-- ==== Sys2Proof/Laws/PerInstr.lean ====
section
/-! SUPPORT. For each instruction: the opcode and the modifier byte of its form fit their fields of the base word (R35), and 0x00 is no
opcode (R48). A step of a unit has no form. -/

namespace Sys2Proof.Laws.Encodes

/-- The opcode and the modifier byte of an instruction are bytes, and its opcode is not zero. -/
def Statement (i : Instr) : Prop := ∀ opc m x, i.form = some (opc, m, x) → 0 < opc ∧ opc < 256 ∧ m < 256

theorem ty_lt (t : Ty) : t.code < 14 := by cases t <;> decide
theorem rmode_lt (r : RMode) : r.code < 4 := by cases r <;> decide
theorem mods_lt (m : SrcMods) : m.code < 4 := by obtain ⟨a, b⟩ := m; cases a <;> cases b <;> decide
theorem bool_lt (b : Bool) : b.toNat < 2 := by cases b <;> decide
theorem cond_lt (c : Cond) : c.code < 6 := by cases c <;> decide
theorem fcond_lt (c : FCond) : c.code < 8 := by cases c <;> decide
theorem lane_lt (c : LaneOp) : c.code < 6 := by cases c <;> decide
theorem shfl_lt (c : ShflMode) : c.code < 4 := by cases c <;> decide
theorem vote_lt (c : VoteMode) : c.code < 4 := by cases c <;> decide
theorem atom_lt (c : AtomOp) : c.code < 7 := by cases c <;> decide
theorem scope_lt (c : Scope) : c.code < 8 := by cases c <;> decide
theorem order_lt (c : Order) : c.code < 4 := by cases c <;> decide
theorem ite_lt (w : Bool) : (if w then 7 else 8 : Nat) < 9 := by cases w <;> decide
theorem fits {opc m : Nat} (h : 0 < opc ∧ opc < 256) (hm : m < 256) {x : Args} {o n : Nat} {y : Args} (he : some (opc, m, x) = some (o, n, y)) :
    0 < o ∧ o < 256 ∧ n < 256 := by cases he; exact ⟨h.1, h.2, hm⟩

theorem add (x : Args) (t : Ty) (sat : Bool) : Statement (.add x t sat) := by
  intro _ _ _ h; have := ty_lt t; have := bool_lt sat; exact fits (by decide) (by omega) h
theorem sub (x : Args) (t : Ty) (sat : Bool) : Statement (.sub x t sat) := by
  intro _ _ _ h; have := ty_lt t; have := bool_lt sat; exact fits (by decide) (by omega) h
theorem mul (x : Args) (t : Ty) (sat : Bool) : Statement (.mul x t sat) := by
  intro _ _ _ h; have := ty_lt t; have := bool_lt sat; exact fits (by decide) (by omega) h
theorem mulhi (x : Args) (t : Ty) : Statement (.mulhi x t) := by
  intro _ _ _ h; have := ty_lt t; exact fits (by decide) (by omega) h
theorem mad (x : Args) (t : Ty) (sat : Bool) : Statement (.mad x t sat) := by
  intro _ _ _ h; have := ty_lt t; have := bool_lt sat; exact fits (by decide) (by omega) h
theorem madhi (x : Args) (t : Ty) : Statement (.madhi x t) := by
  intro _ _ _ h; have := ty_lt t; exact fits (by decide) (by omega) h
theorem div (x : Args) (t : Ty) (sat : Bool) : Statement (.div x t sat) := by
  intro _ _ _ h; have := ty_lt t; have := bool_lt sat; exact fits (by decide) (by omega) h
theorem rem (x : Args) (t : Ty) : Statement (.rem x t) := by
  intro _ _ _ h; have := ty_lt t; exact fits (by decide) (by omega) h
theorem min (x : Args) (t : Ty) : Statement (.min x t) := by
  intro _ _ _ h; have := ty_lt t; exact fits (by decide) (by omega) h
theorem max (x : Args) (t : Ty) : Statement (.max x t) := by
  intro _ _ _ h; have := ty_lt t; exact fits (by decide) (by omega) h
theorem abs (x : Args) (t : Ty) (sat : Bool) : Statement (.abs x t sat) := by
  intro _ _ _ h; have := ty_lt t; have := bool_lt sat; exact fits (by decide) (by omega) h
theorem and (x : Args) (t : Ty) : Statement (.and x t) := by
  intro _ _ _ h; have := ty_lt t; exact fits (by decide) (by omega) h
theorem or (x : Args) (t : Ty) : Statement (.or x t) := by
  intro _ _ _ h; have := ty_lt t; exact fits (by decide) (by omega) h
theorem xor (x : Args) (t : Ty) : Statement (.xor x t) := by
  intro _ _ _ h; have := ty_lt t; exact fits (by decide) (by omega) h
theorem andn (x : Args) (t : Ty) : Statement (.andn x t) := by
  intro _ _ _ h; have := ty_lt t; exact fits (by decide) (by omega) h
theorem shl (x : Args) (t : Ty) : Statement (.shl x t) := by
  intro _ _ _ h; have := ty_lt t; exact fits (by decide) (by omega) h
theorem shr (x : Args) (t : Ty) : Statement (.shr x t) := by
  intro _ _ _ h; have := ty_lt t; exact fits (by decide) (by omega) h
theorem sra (x : Args) (t : Ty) : Statement (.sra x t) := by
  intro _ _ _ h; have := ty_lt t; exact fits (by decide) (by omega) h
theorem rol (x : Args) (t : Ty) : Statement (.rol x t) := by
  intro _ _ _ h; have := ty_lt t; exact fits (by decide) (by omega) h
theorem clz (x : Args) (t : Ty) : Statement (.clz x t) := by
  intro _ _ _ h; have := ty_lt t; exact fits (by decide) (by omega) h
theorem ctz (x : Args) (t : Ty) : Statement (.ctz x t) := by
  intro _ _ _ h; have := ty_lt t; exact fits (by decide) (by omega) h
theorem popc (x : Args) (t : Ty) : Statement (.popc x t) := by
  intro _ _ _ h; have := ty_lt t; exact fits (by decide) (by omega) h
theorem bfx (x : Args) (t : Ty) : Statement (.bfx x t) := by
  intro _ _ _ h; have := ty_lt t; exact fits (by decide) (by omega) h
theorem bfi (x : Args) (t : Ty) : Statement (.bfi x t) := by
  intro _ _ _ h; have := ty_lt t; exact fits (by decide) (by omega) h
theorem prm (x : Args) : Statement (.prm x) :=
  fun _ _ _ h => fits (by decide) (by decide) h
theorem sel (x : Args) (t : Ty) : Statement (.sel x t) := by
  intro _ _ _ h; have := ty_lt t; exact fits (by decide) (by omega) h
theorem cmp (x : Args) (t : Ty) (c : Cond) : Statement (.cmp x t c) := by
  intro _ _ _ h; have := ty_lt t; have := cond_lt c; exact fits (by decide) (by omega) h
theorem mov (x : Args) (t : Ty) : Statement (.mov x t) := by
  intro _ _ _ h; have := ty_lt t; exact fits (by decide) (by omega) h
theorem lea (x : Args) (t : Ty) (k : Fin 5) : Statement (.lea x t k) := by
  intro _ _ _ h; have := ty_lt t; have := k.isLt; exact fits (by decide) (by omega) h
theorem sext (x : Args) (t : Ty) : Statement (.sext x t) := by
  intro _ _ _ h; have := ty_lt t; exact fits (by decide) (by omega) h
theorem zext (x : Args) (t : Ty) : Statement (.zext x t) := by
  intro _ _ _ h; have := ty_lt t; exact fits (by decide) (by omega) h
theorem fadd (x : Args) (t : Ty) (r : RMode) (m : SrcMods) : Statement (.fadd x t r m) := by
  intro _ _ _ h; have := ty_lt t; have := rmode_lt r; have := mods_lt m; exact fits (by decide) (by omega) h
theorem fsub (x : Args) (t : Ty) (r : RMode) (m : SrcMods) : Statement (.fsub x t r m) := by
  intro _ _ _ h; have := ty_lt t; have := rmode_lt r; have := mods_lt m; exact fits (by decide) (by omega) h
theorem fmul (x : Args) (t : Ty) (r : RMode) (m : SrcMods) : Statement (.fmul x t r m) := by
  intro _ _ _ h; have := ty_lt t; have := rmode_lt r; have := mods_lt m; exact fits (by decide) (by omega) h
theorem fma (x : Args) (t : Ty) (r : RMode) (m : SrcMods) : Statement (.fma x t r m) := by
  intro _ _ _ h; have := ty_lt t; have := rmode_lt r; have := mods_lt m; exact fits (by decide) (by omega) h
theorem fnma (x : Args) (t : Ty) (r : RMode) (m : SrcMods) : Statement (.fnma x t r m) := by
  intro _ _ _ h; have := ty_lt t; have := rmode_lt r; have := mods_lt m; exact fits (by decide) (by omega) h
theorem fmin (x : Args) (t : Ty) (m : SrcMods) : Statement (.fmin x t m) := by
  intro _ _ _ h; have := ty_lt t; have := mods_lt m; exact fits (by decide) (by omega) h
theorem fmax (x : Args) (t : Ty) (m : SrcMods) : Statement (.fmax x t m) := by
  intro _ _ _ h; have := ty_lt t; have := mods_lt m; exact fits (by decide) (by omega) h
theorem fcmp (x : Args) (t : Ty) (c : FCond) : Statement (.fcmp x t c) := by
  intro _ _ _ h; have := ty_lt t; have := fcond_lt c; exact fits (by decide) (by omega) h
theorem fclass (x : Args) (t : Ty) : Statement (.fclass x t) := by
  intro _ _ _ h; have := ty_lt t; exact fits (by decide) (by omega) h
theorem fsel (x : Args) (t : Ty) : Statement (.fsel x t) := by
  intro _ _ _ h; have := ty_lt t; exact fits (by decide) (by omega) h
theorem frcp (x : Args) (t : Ty) (m : SrcMods) : Statement (.frcp x t m) := by
  intro _ _ _ h; have := ty_lt t; have := mods_lt m; exact fits (by decide) (by omega) h
theorem frsq (x : Args) (t : Ty) (m : SrcMods) : Statement (.frsq x t m) := by
  intro _ _ _ h; have := ty_lt t; have := mods_lt m; exact fits (by decide) (by omega) h
theorem fsqrt (x : Args) (t : Ty) (r : RMode) (m : SrcMods) : Statement (.fsqrt x t r m) := by
  intro _ _ _ h; have := ty_lt t; have := rmode_lt r; have := mods_lt m; exact fits (by decide) (by omega) h
theorem fdiv (x : Args) (t : Ty) (r : RMode) (m : SrcMods) : Statement (.fdiv x t r m) := by
  intro _ _ _ h; have := ty_lt t; have := rmode_lt r; have := mods_lt m; exact fits (by decide) (by omega) h
theorem fex2 (x : Args) (t : Ty) (m : SrcMods) : Statement (.fex2 x t m) := by
  intro _ _ _ h; have := ty_lt t; have := mods_lt m; exact fits (by decide) (by omega) h
theorem flg2 (x : Args) (t : Ty) (m : SrcMods) : Statement (.flg2 x t m) := by
  intro _ _ _ h; have := ty_lt t; have := mods_lt m; exact fits (by decide) (by omega) h
theorem fsin (x : Args) (t : Ty) (m : SrcMods) : Statement (.fsin x t m) := by
  intro _ _ _ h; have := ty_lt t; have := mods_lt m; exact fits (by decide) (by omega) h
theorem fcos (x : Args) (t : Ty) (m : SrcMods) : Statement (.fcos x t m) := by
  intro _ _ _ h; have := ty_lt t; have := mods_lt m; exact fits (by decide) (by omega) h
theorem ftanh (x : Args) (t : Ty) (m : SrcMods) : Statement (.ftanh x t m) := by
  intro _ _ _ h; have := ty_lt t; have := mods_lt m; exact fits (by decide) (by omega) h
theorem longOpResult (tr : Nat) : Statement (.longOpResult tr) := by
  intro _ _ _ h; cases h
theorem cvt (x : Args) (dst src : Ty) : Statement (.cvt x dst src) := by
  intro _ _ _ h; have := ty_lt dst; have := ty_lt src; exact fits (by decide) (by omega) h
theorem rnd (x : Args) (t : Ty) (r : RMode) : Statement (.rnd x t r) := by
  intro _ _ _ h; have := ty_lt t; have := rmode_lt r; exact fits (by decide) (by omega) h
theorem qnt (x : Args) (t : Ty) (r : RMode) : Statement (.qnt x t r) := by
  intro _ _ _ h; have := ty_lt t; have := rmode_lt r; exact fits (by decide) (by omega) h
theorem dqt (x : Args) (t : Ty) : Statement (.dqt x t) := by
  intro _ _ _ h; have := ty_lt t; exact fits (by decide) (by omega) h
theorem pack (x : Args) (t : Ty) (r : RMode) (p : Fin 4) : Statement (.pack x t r p) := by
  intro _ _ _ h; have := ty_lt t; have := rmode_lt r; have := p.isLt; exact fits (by decide) (by omega) h
theorem unpk (x : Args) (t : Ty) (n : Fin 8) : Statement (.unpk x t n) := by
  intro _ _ _ h; have := ty_lt t; have := n.isLt; exact fits (by decide) (by omega) h
theorem scl (x : Args) (t : Ty) (r : RMode) : Statement (.scl x t r) := by
  intro _ _ _ h; have := ty_lt t; have := rmode_lt r; exact fits (by decide) (by omega) h
theorem red (x : Args) (t : Ty) (op : LaneOp) : Statement (.red x t op) := by
  intro _ _ _ h; have := ty_lt t; have := lane_lt op; exact fits (by decide) (by omega) h
theorem scan (x : Args) (t : Ty) (op : LaneOp) (excl : Bool) : Statement (.scan x t op excl) := by
  intro _ _ _ h; have := ty_lt t; have := lane_lt op; have := bool_lt excl; exact fits (by decide) (by omega) h
theorem shfl (x : Args) (wide : Bool) (m : ShflMode) : Statement (.shfl x wide m) := by
  intro _ _ _ h; have := shfl_lt m; refine fits (by decide) ?_ h; cases wide <;> simp <;> omega
theorem bcst (x : Args) (wide : Bool) : Statement (.bcst x wide) := by
  intro _ _ _ h; cases wide <;> (refine fits (by decide) ?_ h; simp)
theorem vote (x : Args) (m : VoteMode) : Statement (.vote x m) := by
  intro _ _ _ h; cases m <;> exact fits (by decide) (by decide) h
theorem first (x : Args) : Statement (.first x) :=
  fun _ _ _ h => fits (by decide) (by decide) h
theorem kand (x : Args) : Statement (.kand x) :=
  fun _ _ _ h => fits (by decide) (by decide) h
theorem kor (x : Args) : Statement (.kor x) :=
  fun _ _ _ h => fits (by decide) (by decide) h
theorem kxor (x : Args) : Statement (.kxor x) :=
  fun _ _ _ h => fits (by decide) (by decide) h
theorem knot (x : Args) : Statement (.knot x) :=
  fun _ _ _ h => fits (by decide) (by decide) h
theorem kmov (x : Args) : Statement (.kmov x) :=
  fun _ _ _ h => fits (by decide) (by decide) h
theorem ld (x : Args) (t : Ty) (k : Fin 5) : Statement (.ld x t k) := by
  intro _ _ _ h; have := ty_lt t; have := k.isLt; exact fits (by decide) (by omega) h
theorem st (x : Args) (t : Ty) (k : Fin 5) : Statement (.st x t k) := by
  intro _ _ _ h; have := ty_lt t; have := k.isLt; exact fits (by decide) (by omega) h
theorem ldp (x : Args) (t : Ty) (k : Fin 5) : Statement (.ldp x t k) := by
  intro _ _ _ h; have := ty_lt t; have := k.isLt; exact fits (by decide) (by omega) h
theorem stp (x : Args) (t : Ty) (k : Fin 5) : Statement (.stp x t k) := by
  intro _ _ _ h; have := ty_lt t; have := k.isLt; exact fits (by decide) (by omega) h
theorem ldt (x : Args) (t : Ty) (k : Fin 5) : Statement (.ldt x t k) := by
  intro _ _ _ h; have := ty_lt t; have := k.isLt; exact fits (by decide) (by omega) h
theorem stt (x : Args) (t : Ty) (k : Fin 5) : Statement (.stt x t k) := by
  intro _ _ _ h; have := ty_lt t; have := k.isLt; exact fits (by decide) (by omega) h
theorem look (x : Args) : Statement (.look x) :=
  fun _ _ _ h => fits (by decide) (by decide) h
theorem tagw (x : Args) : Statement (.tagw x) :=
  fun _ _ _ h => fits (by decide) (by decide) h
theorem tagi (x : Args) : Statement (.tagi x) :=
  fun _ _ _ h => fits (by decide) (by decide) h
theorem tagiAll (x : Args) : Statement (.tagiAll x) :=
  fun _ _ _ h => fits (by decide) (by decide) h
theorem tagiCfg (x : Args) : Statement (.tagiCfg x) :=
  fun _ _ _ h => fits (by decide) (by decide) h
theorem tst (x : Args) : Statement (.tst x) :=
  fun _ _ _ h => fits (by decide) (by decide) h
theorem tstDef (x : Args) : Statement (.tstDef x) :=
  fun _ _ _ h => fits (by decide) (by decide) h
theorem pref (x : Args) (k : Fin 5) : Statement (.pref x k) := by
  intro _ _ _ h; have := k.isLt; exact fits (by decide) (by omega) h
theorem fence (x : Args) (sc : Scope) (o : Order) : Statement (.fence x sc o) := by
  intro _ _ _ h; have := scope_lt sc; have := order_lt o; exact fits (by decide) (by omega) h
theorem flushWc (x : Args) : Statement (.flushWc x) :=
  fun _ _ _ h => fits (by decide) (by decide) h
theorem flushIb (x : Args) : Statement (.flushIb x) :=
  fun _ _ _ h => fits (by decide) (by decide) h
theorem loadDataReturn (tr i : Nat) : Statement (.loadDataReturn tr i) := by
  intro _ _ _ h; cases h
theorem storePerformed (tr i : Nat) : Statement (.storePerformed tr i) := by
  intro _ _ _ h; cases h
theorem wcBufferDrainTimeout (tr i : Nat) : Statement (.wcBufferDrainTimeout tr i) := by
  intro _ _ _ h; cases h
theorem instructionFetchFill (tr : Nat) : Statement (.instructionFetchFill tr) := by
  intro _ _ _ h; cases h
theorem faultEntryFreed (tr : Nat) : Statement (.faultEntryFreed tr) := by
  intro _ _ _ h; cases h
theorem atom (x : Args) (t : Ty) (op : AtomOp) : Statement (.atom x t op) := by
  intro _ _ _ h; have := ty_lt t; have := atom_lt op; exact fits (by decide) (by omega) h
theorem cas (x : Args) (t : Ty) : Statement (.cas x t) := by
  intro _ _ _ h; have := ty_lt t; exact fits (by decide) (by omega) h
theorem facc (x : Args) : Statement (.facc x) :=
  fun _ _ _ h => fits (by decide) (by decide) h
theorem faccTagged (x : Args) : Statement (.faccTagged x) :=
  fun _ _ _ h => fits (by decide) (by decide) h
theorem faccr (x : Args) (t : Ty) (r : RMode) (z : Bool) : Statement (.faccr x t r z) := by
  intro _ _ _ h; have := ty_lt t; have := rmode_lt r; have := bool_lt z; exact fits (by decide) (by omega) h
theorem waita (x : Args) (t : Ty) (eq : Bool) : Statement (.waita x t eq) := by
  intro _ _ _ h; have := ty_lt t; have := bool_lt eq; exact fits (by decide) (by omega) h
theorem waitaReread (tr : Nat) : Statement (.waitaReread tr) := by
  intro _ _ _ h; cases h
theorem waitaDeadline (tr : Nat) : Statement (.waitaDeadline tr) := by
  intro _ _ _ h; cases h
theorem qbind (x : Args) : Statement (.qbind x) :=
  fun _ _ _ h => fits (by decide) (by decide) h
theorem qstat (x : Args) : Statement (.qstat x) :=
  fun _ _ _ h => fits (by decide) (by decide) h
theorem qdrain (x : Args) : Statement (.qdrain x) :=
  fun _ _ _ h => fits (by decide) (by decide) h
theorem queueOpIssue (tr : Nat) : Statement (.queueOpIssue tr) := by
  intro _ _ _ h; cases h
theorem queueStall (wg : Nat) : Statement (.queueStall wg) := by
  intro _ _ _ h; cases h
theorem racq (x : Args) (sc : Scope) : Statement (.racq x sc) := by
  intro _ _ _ h; have := scope_lt sc; exact fits (by decide) (by omega) h
theorem rcom (x : Args) (sc : Scope) : Statement (.rcom x sc) := by
  intro _ _ _ h; have := scope_lt sc; exact fits (by decide) (by omega) h
theorem rcomSkip (x : Args) (sc : Scope) : Statement (.rcomSkip x sc) := by
  intro _ _ _ h; have := scope_lt sc; exact fits (by decide) (by omega) h
theorem rpeek (x : Args) (sc : Scope) : Statement (.rpeek x sc) := by
  intro _ _ _ h; have := scope_lt sc; exact fits (by decide) (by omega) h
theorem rpeekTake (x : Args) (sc : Scope) : Statement (.rpeekTake x sc) := by
  intro _ _ _ h; have := scope_lt sc; exact fits (by decide) (by omega) h
theorem rrel (x : Args) (sc : Scope) : Statement (.rrel x sc) := by
  intro _ _ _ h; have := scope_lt sc; exact fits (by decide) (by omega) h
theorem stage (x : Args) : Statement (.stage x) :=
  fun _ _ _ h => fits (by decide) (by decide) h
theorem stageCfg (x : Args) : Statement (.stageCfg x) :=
  fun _ _ _ h => fits (by decide) (by decide) h
theorem bra (x : Args) : Statement (.bra x) :=
  fun _ _ _ h => fits (by decide) (by decide) h
theorem brx (x : Args) : Statement (.brx x) :=
  fun _ _ _ h => fits (by decide) (by decide) h
theorem call (x : Args) : Statement (.call x) :=
  fun _ _ _ h => fits (by decide) (by decide) h
theorem ret (x : Args) : Statement (.ret x) :=
  fun _ _ _ h => fits (by decide) (by decide) h
theorem exit (x : Args) : Statement (.exit x) :=
  fun _ _ _ h => fits (by decide) (by decide) h
theorem bar (x : Args) : Statement (.bar x) :=
  fun _ _ _ h => fits (by decide) (by decide) h
theorem gbar (x : Args) : Statement (.gbar x) :=
  fun _ _ _ h => fits (by decide) (by decide) h
theorem bstall (wg : Nat) (gang : Bool) : Statement (.bstall wg gang) := by
  intro _ _ _ h; cases h
theorem yield (x : Args) : Statement (.yield x) :=
  fun _ _ _ h => fits (by decide) (by decide) h
theorem nop (x : Args) : Statement (.nop x) :=
  fun _ _ _ h => fits (by decide) (by decide) h
theorem joinPointNop (x : Args) : Statement (.joinPointNop x) :=
  fun _ _ _ h => fits (by decide) (by decide) h
theorem fwait (x : Args) : Statement (.fwait x) :=
  fun _ _ _ h => fits (by decide) (by decide) h
theorem ftest (x : Args) : Statement (.ftest x) :=
  fun _ _ _ h => fits (by decide) (by decide) h
theorem ftestH (x : Args) : Statement (.ftestH x) :=
  fun _ _ _ h => fits (by decide) (by decide) h
theorem fcancel (x : Args) : Statement (.fcancel x) :=
  fun _ _ _ h => fits (by decide) (by decide) h
theorem trapf (x : Args) : Statement (.trapf x) :=
  fun _ _ _ h => fits (by decide) (by decide) h
theorem trapfClr (x : Args) : Statement (.trapfClr x) :=
  fun _ _ _ h => fits (by decide) (by decide) h
theorem trap (x : Args) : Statement (.trap x) :=
  fun _ _ _ h => fits (by decide) (by decide) h
theorem aalloc (x : Args) : Statement (.aalloc x) :=
  fun _ _ _ h => fits (by decide) (by decide) h
theorem aallocBanksFree (tr : Nat) : Statement (.aallocBanksFree tr) := by
  intro _ _ _ h; cases h
theorem afree (x : Args) : Statement (.afree x) :=
  fun _ _ _ h => fits (by decide) (by decide) h
theorem azero (x : Args) : Statement (.azero x) :=
  fun _ _ _ h => fits (by decide) (by decide) h
theorem wld (x : Args) (t : Ty) : Statement (.wld x t) := by
  intro _ _ _ h; have := ty_lt t; exact fits (by decide) (by omega) h
theorem wldZero (x : Args) : Statement (.wldZero x) :=
  fun _ _ _ h => fits (by decide) (by decide) h
theorem mmaTile (x : Args) (t : Ty) : Statement (.mmaTile x t) := by
  intro _ _ _ h; have := ty_lt t; exact fits (by decide) (by omega) h
theorem mmaMemory (x : Args) (t : Ty) : Statement (.mmaMemory x t) := by
  intro _ _ _ h; have := ty_lt t; exact fits (by decide) (by omega) h
theorem mmt (x : Args) (ta tw : Ty) : Statement (.mmt x ta tw) := by
  intro _ _ _ h; have := ty_lt ta; have := ty_lt tw; exact fits (by decide) (by omega) h
theorem adrainReg (x : Args) (t : Ty) (z : Bool) : Statement (.adrainReg x t z) := by
  intro _ _ _ h; have := ty_lt t; have := bool_lt z; exact fits (by decide) (by omega) h
theorem adrainSp (x : Args) (t : Ty) (z : Bool) : Statement (.adrainSp x t z) := by
  intro _ _ _ h; have := ty_lt t; have := bool_lt z; exact fits (by decide) (by omega) h
theorem adrainGm (x : Args) (t : Ty) (z : Bool) : Statement (.adrainGm x t z) := by
  intro _ _ _ h; have := ty_lt t; have := bool_lt z; exact fits (by decide) (by omega) h
theorem mred (x : Args) : Statement (.mred x) :=
  fun _ _ _ h => fits (by decide) (by decide) h
theorem mprog (x : Args) : Statement (.mprog x) :=
  fun _ _ _ h => fits (by decide) (by decide) h
theorem matrixQueueRoom (tr : Nat) : Statement (.matrixQueueRoom tr) := by
  intro _ _ _ h; cases h
theorem arrayStep (core : Nat) : Statement (.arrayStep core) := by
  intro _ _ _ h; cases h
theorem followOnMma (op : Nat) : Statement (.followOnMma op) := by
  intro _ _ _ h; cases h
theorem tileGateRelease (tr : Nat) : Statement (.tileGateRelease tr) := by
  intro _ _ _ h; cases h
theorem lopen (x : Args) : Statement (.lopen x) :=
  fun _ _ _ h => fits (by decide) (by decide) h
theorem lclose (x : Args) : Statement (.lclose x) :=
  fun _ _ _ h => fits (by decide) (by decide) h
theorem feed (x : Args) : Statement (.feed x) :=
  fun _ _ _ h => fits (by decide) (by decide) h
theorem feedIntakeRoom (tr : Nat) : Statement (.feedIntakeRoom tr) := by
  intro _ _ _ h; cases h
theorem wmark (x : Args) : Statement (.wmark x) :=
  fun _ _ _ h => fits (by decide) (by decide) h
theorem wrec (x : Args) : Statement (.wrec x) :=
  fun _ _ _ h => fits (by decide) (by decide) h
theorem wemit (x : Args) : Statement (.wemit x) :=
  fun _ _ _ h => fits (by decide) (by decide) h
theorem wemitRetry (tr : Nat) : Statement (.wemitRetry tr) := by
  intro _ _ _ h; cases h
theorem wyield (x : Args) : Statement (.wyield x) :=
  fun _ _ _ h => fits (by decide) (by decide) h
theorem wend (x : Args) : Statement (.wend x) :=
  fun _ _ _ h => fits (by decide) (by decide) h
theorem wpane (x : Args) : Statement (.wpane x) :=
  fun _ _ _ h => fits (by decide) (by decide) h
theorem wkey (x : Args) : Statement (.wkey x) :=
  fun _ _ _ h => fits (by decide) (by decide) h
theorem lstat (x : Args) : Statement (.lstat x) :=
  fun _ _ _ h => fits (by decide) (by decide) h
theorem resolveRecord (line : Nat) : Statement (.resolveRecord line) := by
  intro _ _ _ h; cases h
theorem watermarkResolve (line : Nat) : Statement (.watermarkResolve line) := by
  intro _ _ _ h; cases h
theorem paneComplete (line : Nat) : Statement (.paneComplete line) := by
  intro _ _ _ h; cases h
theorem lineFlush (line : Nat) : Statement (.lineFlush line) := by
  intro _ _ _ h; cases h
theorem lineFree (line : Nat) : Statement (.lineFree line) := by
  intro _ _ _ h; cases h
theorem activationBatchIssue (line : Nat) : Statement (.activationBatchIssue line) := by
  intro _ _ _ h; cases h
theorem activationTrainAdmit (cluster : Nat) : Statement (.activationTrainAdmit cluster) := by
  intro _ _ _ h; cases h
theorem windowPoolSlotFree (line : Nat) : Statement (.windowPoolSlotFree line) := by
  intro _ _ _ h; cases h
theorem tfetch (x : Args) : Statement (.tfetch x) :=
  fun _ _ _ h => fits (by decide) (by decide) h
theorem tfetchTask (x : Args) : Statement (.tfetchTask x) :=
  fun _ _ _ h => fits (by decide) (by decide) h
theorem tfetchTaskWake (tr : Nat) : Statement (.tfetchTaskWake tr) := by
  intro _ _ _ h; cases h
theorem tfetchTaskDeadline (tr : Nat) : Statement (.tfetchTaskDeadline tr) := by
  intro _ _ _ h; cases h
theorem tsub (x : Args) : Statement (.tsub x) :=
  fun _ _ _ h => fits (by decide) (by decide) h
theorem tdone (x : Args) : Statement (.tdone x) :=
  fun _ _ _ h => fits (by decide) (by decide) h
theorem launch (x : Args) : Statement (.launch x) :=
  fun _ _ _ h => fits (by decide) (by decide) h
theorem lwait (x : Args) : Statement (.lwait x) :=
  fun _ _ _ h => fits (by decide) (by decide) h
theorem trig (x : Args) : Statement (.trig x) :=
  fun _ _ _ h => fits (by decide) (by decide) h
theorem tsel (x : Args) : Statement (.tsel x) :=
  fun _ _ _ h => fits (by decide) (by decide) h
theorem jopen (x : Args) : Statement (.jopen x) :=
  fun _ _ _ h => fits (by decide) (by decide) h
theorem jarr (x : Args) : Statement (.jarr x) :=
  fun _ _ _ h => fits (by decide) (by decide) h
theorem jwait (x : Args) : Statement (.jwait x) :=
  fun _ _ _ h => fits (by decide) (by decide) h
theorem jkp (x : Args) : Statement (.jkp x) :=
  fun _ _ _ h => fits (by decide) (by decide) h
theorem jstat (x : Args) : Statement (.jstat x) :=
  fun _ _ _ h => fits (by decide) (by decide) h
theorem joinCasualty (slot uid : Nat) : Statement (.joinCasualty slot uid) := by
  intro _ _ _ h; cases h
theorem kill (tr : Nat) : Statement (.kill tr) := by
  intro _ _ _ h; cases h
theorem stagingRoom (tr : Nat) : Statement (.stagingRoom tr) := by
  intro _ _ _ h; cases h
theorem launchAdmit (part : Nat) : Statement (.launchAdmit part) := by
  intro _ _ _ h; cases h
theorem launchInvalid (launch : Nat) : Statement (.launchInvalid launch) := by
  intro _ _ _ h; cases h
theorem launchComplete (launch : Nat) : Statement (.launchComplete launch) := by
  intro _ _ _ h; cases h
theorem dependantsStart (launch : Nat) : Statement (.dependantsStart launch) := by
  intro _ _ _ h; cases h
theorem copy (x : Args) : Statement (.copy x) :=
  fun _ _ _ h => fits (by decide) (by decide) h
theorem xst (x : Args) (wide : Bool) : Statement (.xst x wide) := by
  intro _ _ _ h; cases wide <;> (refine fits (by decide) ?_ h; simp)
theorem publ (x : Args) (sc : Scope) : Statement (.publ x sc) := by
  intro _ _ _ h; have := scope_lt sc; exact fits (by decide) (by omega) h
theorem dec (x : Args) : Statement (.dec x) :=
  fun _ _ _ h => fits (by decide) (by decide) h
theorem pyr (x : Args) : Statement (.pyr x) :=
  fun _ _ _ h => fits (by decide) (by decide) h
theorem engineQueueRoom (tr : Nat) : Statement (.engineQueueRoom tr) := by
  intro _ _ _ h; cases h
theorem engineOperationStart (op : Nat) : Statement (.engineOperationStart op) := by
  intro _ _ _ h; cases h
theorem copyComplete (op : Nat) : Statement (.copyComplete op) := by
  intro _ _ _ h; cases h
theorem decComplete (op : Nat) : Statement (.decComplete op) := by
  intro _ _ _ h; cases h
theorem pyrComplete (op : Nat) : Statement (.pyrComplete op) := by
  intro _ _ _ h; cases h
theorem engineFaultPause (op : Nat) : Statement (.engineFaultPause op) := by
  intro _ _ _ h; cases h
theorem futureEntryFree (index : Nat) : Statement (.futureEntryFree index) := by
  intro _ _ _ h; cases h
theorem svc (x : Args) : Statement (.svc x) :=
  fun _ _ _ h => fits (by decide) (by decide) h
theorem svcRetry (tr : Nat) : Statement (.svcRetry tr) := by
  intro _ _ _ h; cases h
theorem eret (x : Args) : Statement (.eret x) :=
  fun _ _ _ h => fits (by decide) (by decide) h
theorem mfsr (x : Args) : Statement (.mfsr x) :=
  fun _ _ _ h => fits (by decide) (by decide) h
theorem mtsr (x : Args) : Statement (.mtsr x) :=
  fun _ _ _ h => fits (by decide) (by decide) h
theorem tlbiPage (x : Args) : Statement (.tlbiPage x) :=
  fun _ _ _ h => fits (by decide) (by decide) h
theorem tlbiAsid (x : Args) : Statement (.tlbiAsid x) :=
  fun _ _ _ h => fits (by decide) (by decide) h
theorem tlbiPart (x : Args) : Statement (.tlbiPart x) :=
  fun _ _ _ h => fits (by decide) (by decide) h
theorem trapq (x : Args) : Statement (.trapq x) :=
  fun _ _ _ h => fits (by decide) (by decide) h
theorem ctxs (x : Args) : Statement (.ctxs x) :=
  fun _ _ _ h => fits (by decide) (by decide) h
theorem ctxl (x : Args) : Statement (.ctxl x) :=
  fun _ _ _ h => fits (by decide) (by decide) h
theorem svcret (x : Args) : Statement (.svcret x) :=
  fun _ _ _ h => fits (by decide) (by decide) h
theorem texitFault (x : Args) : Statement (.texitFault x) :=
  fun _ _ _ h => fits (by decide) (by decide) h
theorem texitTerminate (x : Args) : Statement (.texitTerminate x) :=
  fun _ _ _ h => fits (by decide) (by decide) h
theorem faultReplay (p : Nat) : Statement (.faultReplay p) := by
  intro _ _ _ h; cases h
theorem faultFail (p : Nat) : Statement (.faultFail p) := by
  intro _ _ _ h; cases h
theorem trapDelivery (tr : Nat) : Statement (.trapDelivery tr) := by
  intro _ _ _ h; cases h
theorem timeSliceExpiry (wg : Nat) : Statement (.timeSliceExpiry wg) := by
  intro _ _ _ h; cases h
theorem preemptDrain (wg : Nat) : Statement (.preemptDrain wg) := by
  intro _ _ _ h; cases h
theorem drainmaxExpiry (wg : Nat) : Statement (.drainmaxExpiry wg) := by
  intro _ _ _ h; cases h
theorem preemptSave (wg : Nat) : Statement (.preemptSave wg) := by
  intro _ _ _ h; cases h
theorem restore (saved core : Nat) : Statement (.restore saved core) := by
  intro _ _ _ h; cases h
theorem partitionResetDrain (p : Nat) : Statement (.partitionResetDrain p) := by
  intro _ _ _ h; cases h
theorem partitionResetKill (p : Nat) : Statement (.partitionResetKill p) := by
  intro _ _ _ h; cases h
theorem supervisorRegisterWrite (offset : Nat) (value : Dword) : Statement (.supervisorRegisterWrite offset value) := by
  intro _ _ _ h; cases h
theorem qtail (p : Nat) (sup : Bool) (value : Word) : Statement (.qtail p sup value) := by
  intro _ _ _ h; cases h
theorem qstate (p : Nat) (sup : Bool) (value : Dword) : Statement (.qstate p sup value) := by
  intro _ _ _ h; cases h
theorem setv (p : Nat) : Statement (.setv p) := by
  intro _ _ _ h; cases h
theorem waitv (p : Nat) : Statement (.waitv p) := by
  intro _ _ _ h; cases h
theorem fencePacket (p : Nat) : Statement (.fencePacket p) := by
  intro _ _ _ h; cases h
theorem copyPacket (p : Nat) : Statement (.copyPacket p) := by
  intro _ _ _ h; cases h
theorem lineOpenPacket (p : Nat) : Statement (.lineOpenPacket p) := by
  intro _ _ _ h; cases h
theorem lineClosePacket (p : Nat) : Statement (.lineClosePacket p) := by
  intro _ _ _ h; cases h
theorem launchPacket (p : Nat) : Statement (.launchPacket p) := by
  intro _ _ _ h; cases h
theorem padPacket (p : Nat) : Statement (.padPacket p) := by
  intro _ _ _ h; cases h
theorem hostMemRead (q n : Nat) : Statement (.hostMemRead q n) := by
  intro _ _ _ h; cases h
theorem hostMemWrite (q : Nat) (bytes : List Byte) : Statement (.hostMemWrite q bytes) := by
  intro _ _ _ h; cases h
theorem remoteResponse (request : Nat) (reply : RemoteReply) : Statement (.remoteResponse request reply) := by
  intro _ _ _ h; cases h
theorem collMulticast (index : Nat) : Statement (.collMulticast index) := by
  intro _ _ _ h; cases h
theorem partitionDrainExpiry (p : Nat) : Statement (.partitionDrainExpiry p) := by
  intro _ _ _ h; cases h
theorem waitvReread (p : Nat) : Statement (.waitvReread p) := by
  intro _ _ _ h; cases h
theorem remoteAccessRequest (module pa : Nat) (op : RemoteOp) : Statement (.remoteAccessRequest module pa op) := by
  intro _ _ _ h; cases h
theorem proxyReply (tr : Nat) (result : Dword) : Statement (.proxyReply tr result) := by
  intro _ _ _ h; cases h
theorem homeRemoteArrival (handle : Word) (source : Sender) (weight : Word) (deltas : List (Nat × WideCell)) : Statement (.homeRemoteArrival handle source weight deltas) := by
  intro _ _ _ h; cases h
theorem proxyKill (slot : Nat) (status : Dword) : Statement (.proxyKill slot status) := by
  intro _ _ _ h; cases h
theorem asidgenAdv (p : Nat) : Statement (.asidgenAdv p) := by
  intro _ _ _ h; cases h
theorem fbpendRead (p : Nat) : Statement (.fbpendRead p) := by
  intro _ _ _ h; cases h
theorem irqenWrite (p : Nat) (value : Dword) : Statement (.irqenWrite p value) := by
  intro _ _ _ h; cases h
theorem preemptFlushRestart (wg : Nat) : Statement (.preemptFlushRestart wg) := by
  intro _ _ _ h; cases h
theorem migrate (wg core : Nat) : Statement (.migrate wg core) := by
  intro _ _ _ h; cases h
theorem qosSet (p : Nat) (slots tokens : Byte) : Statement (.qosSet p slots tokens) := by
  intro _ _ _ h; cases h
theorem routingTableSwap (addr : Dword) : Statement (.routingTableSwap addr) := by
  intro _ _ _ h; cases h
theorem messageDiscard (request : Nat) : Statement (.messageDiscard request) := by
  intro _ _ _ h; cases h
theorem stagger (t0 : Dword) (dt : Word) (nslots : Half) : Statement (.stagger t0 dt nslots) := by
  intro _ _ _ h; cases h
theorem flitRetransmit (endpoint wavelength : Nat) : Statement (.flitRetransmit endpoint wavelength) := by
  intro _ _ _ h; cases h
theorem wavelengthWithdraw (endpoint wavelength : Nat) : Statement (.wavelengthWithdraw endpoint wavelength) := by
  intro _ _ _ h; cases h
theorem wavelengthReturn (endpoint wavelength : Nat) : Statement (.wavelengthReturn endpoint wavelength) := by
  intro _ _ _ h; cases h
theorem powerInterval (demand filler : Nat) : Statement (.powerInterval demand filler) := by
  intro _ _ _ h; cases h
theorem attestationReport : Statement (.attestationReport) := by
  intro _ _ _ h; cases h
theorem stationmasterStep : Statement (.stationmasterStep) := by
  intro _ _ _ h; cases h
theorem moduleReset : Statement (.moduleReset) := by
  intro _ _ _ h; cases h
theorem opticalTrainingDone : Statement (.opticalTrainingDone) := by
  intro _ _ _ h; cases h
theorem bulkTrainingDone : Statement (.bulkTrainingDone) := by
  intro _ _ _ h; cases h
theorem fabricTrainingDone : Statement (.fabricTrainingDone) := by
  intro _ _ _ h; cases h
theorem staggerResume : Statement (.staggerResume) := by
  intro _ _ _ h; cases h

end Sys2Proof.Laws.Encodes
end

