-- ==== Sys2Proof/Laws/Ring.lean ====
section
/-! SUPPORT. Ring operations: what the parts of one leave of the block and its pointers. -/

namespace Sys2Proof.Machine

/-- Keeping a ring changes no memory. -/
theorem keepRing_mem (s : State) (r : RingReg) (a : Nat) : readByte (keepRing s r) a = readByte s a := rfl

/-- Writing an entry leaves the block. -/
theorem writeEntry_block {u : RingUser} {j : Nat} {e : Half} {x y : State × RingReg} (h : writeEntry u j e x = some y) :
    y.2.block = x.2.block := by
  unfold writeEntry at h; split at h
  · cases h
  · cases h; rfl

/-- Writing entries leaves the block. -/
theorem writeEntries_block {u : RingUser} {st p : Nat} : ∀ {n j : Nat} {x y : State × RingReg}, writeEntries u st p j n x = some y → y.2.block = x.2.block := by
  intro n
  induction n with
  | zero => intro j x y h; cases h; rfl
  | succ n ih =>
    intro j x y h
    unfold writeEntries at h; split at h
    · cases h
    · rename_i hw; exact (ih h).trans (writeEntry_block hw)

/-- Changing entries leaves the block. -/
theorem changeEntries_block {u : RingUser} {st : Nat} : ∀ {n j : Nat} {x y : State × RingReg}, changeEntries u st j n x = some y → y.2.block = x.2.block := by
  intro n
  induction n with
  | zero => intro j x y h; cases h; rfl
  | succ n ih =>
    intro j x y h
    unfold changeEntries at h; split at h
    · cases h
    · split at h
      · cases h
      · rename_i hw; exact (ih h).trans (writeEntry_block hw)

/-- A word of the block after one is set. -/
theorem set_word (r : RingReg) (i j v : Nat) (h : r.block.length = 8) (hv : v < 2 ^ 64) (hi : i < 8) :
    (r.set i v).word j = if j = i then v else r.word j := by
  unfold RingReg.word RingReg.set
  by_cases hj : j = i
  · subst hj; simp [List.getD, h, hi]; omega
  · simp [List.getD, hj, Ne.symm hj]

/-- The block keeps its length. -/
theorem set_len (r : RingReg) (i v : Nat) : (r.set i v).block.length = r.block.length := by simp [RingReg.set]

/-- What advancing HEAD does to the pointers. -/
theorem advanceHead_ptr {u : RingUser} : ∀ {n : Nat} {x y : State × RingReg}, advanceHead u n x = some y → x.2.block.length = 8 →
    x.2.hd ≤ x.2.rd → x.2.rd < 2 ^ 64 →
    y.2.block.length = 8 ∧ x.2.hd ≤ y.2.hd ∧ y.2.hd ≤ y.2.rd ∧ y.2.rd = x.2.rd ∧ y.2.tl = x.2.tl ∧ y.2.nslot = x.2.nslot := by
  intro n
  induction n with
  | zero => intro x y h hl h1 h2; cases h; exact ⟨hl, le_refl _, h1, rfl, rfl, rfl⟩
  | succ n ih =>
    intro x y h hl h1 h2
    unfold advanceHead at h
    split at h
    · rename_i hlt
      split at h
      · cases h
      · split at h
        · split at h
          · cases h
          · rename_i s r hw
            have hb : r.block = x.2.block := writeEntry_block hw
            have hbl : r.block.length = 8 := by rw [hb]; exact hl
            have hhd : r.hd = x.2.hd := by simp [RingReg.hd, RingReg.word, hb]
            have hrd : r.rd = x.2.rd := by simp [RingReg.rd, RingReg.word, hb]
            have htl : r.tl = x.2.tl := by simp [RingReg.tl, RingReg.word, hb]
            have hns : r.nslot = x.2.nslot := by simp [RingReg.nslot, RingReg.word, hb]
            have hw2 := fun j => set_word r 2 j (r.hd + 1) hbl (by omega) (by omega)
            have e1 : (r.set 2 (r.hd + 1)).hd = r.hd + 1 := by simpa [RingReg.hd] using hw2 2
            have e2 : (r.set 2 (r.hd + 1)).rd = r.rd := by simpa [RingReg.rd] using hw2 6
            have e3 : (r.set 2 (r.hd + 1)).tl = r.tl := by simpa [RingReg.tl] using hw2 3
            have e4 : (r.set 2 (r.hd + 1)).nslot = r.nslot := by simp only [RingReg.nslot, hw2]; rfl
            obtain ⟨a1, a2, a3, a4, a5, a6⟩ := ih h (by rw [set_len]; exact hbl) (by first | omega | (simp only; omega)) (by first | omega | (simp only; omega))
            dsimp only at a2 a3 a4 a5 a6
            exact ⟨a1, by omega, a3, by omega, by omega, by omega⟩
        · cases h; exact ⟨hl, le_refl _, h1, rfl, rfl, rfl⟩
    · cases h; exact ⟨hl, le_refl _, h1, rfl, rfl, rfl⟩

/-- A run of SKIP slots ends at TAIL. -/
theorem skipRun_le {s : State} {u : RingUser} {r : RingReg} : ∀ {f j n : Nat}, skipRun s u r f j = some n → j ≤ r.tl → j + n ≤ r.tl := by
  intro f
  induction f with
  | zero => intro j n h hj; cases h; omega
  | succ f ih =>
    intro j n h hj
    unfold skipRun at h
    split at h
    · rename_i hlt
      split at h
      · cases h
      · split at h
        · split at h
          · cases h; omega
          · obtain ⟨m, hm, rfl⟩ := Option.map_eq_some_iff.1 h
            have := ih hm (by omega); omega
        · cases h; omega
    · cases h; omega

end Sys2Proof.Machine
end

