-- ==== Sys2Proof/Tests/Slice0.lean ====
section
/-! SUPPORT. Tests of single steps and of single words. The words and their terms are the worked encodings of the spec. -/

namespace Sys2Proof.Tests
set_option Elab.async false

/-- The fields of an unguarded instruction that names nothing, for the threads and for the train. -/
def lane : Args :=
  { u := false, nwb := false, kg := 0, kn := false, d := .zero, a := .zero, b := .zero, c := .zero, ext := .short }
def train : Args := { lane with u := true }

/-- The number of an instruction from its 32-bit words, first word first. -/
def bits : List Nat → Nat
  | [] => 0
  | w :: r => w + 2 ^ 32 * bits r

/-- Every encoding decodes to its instruction, and the instruction encodes so. -/
def agree (l : List (List Nat × Instr)) : Bool :=
  l.all fun e => decodeTableWord 128 (bits e.1) == some e.2 && (encode e.2).map (·.toNat) == e.1

/-! ## The worked encodings of the spec -/

theorem test_decode_integer : agree [
    ([0x04040014, 0x1200C020], .mad { lane with d := .v 4, a := .v 1, b := .v 2, c := .v 3 } .s32 true),
    ([0x15050404, 0x075C2404], .add { train with d := .s 5, a := .s 5, b := .imm 64 } .n64 false),
    ([0x84040004, 0x025C1615], .add { lane with d := .v 4, a := .q 1, b := .q 1 } .s32 false),
    ([0x0702006C, 0x425C0020], .cmp { lane with d := .k 2, a := .v 1, b := .v 2 } .s32 .lt),
    ([0xDF01006C, 0x465C2045], .cmp { lane with d := .k 1, a := .special .reason, b := .imm 4 } .n32 .lt),
    ([0xC0090071, 0x085C1705, 0x3F800000], .mov { lane with d := .v 9, ext := .imm 0x3F800000 } .b32),
    ([0x08040074, 0x67840064], .lea { lane with d := .v 4, a := .s 2, b := .v 6, c := .imm 16 } .n64 3),
    ([0x05620068, 0x08C09500], .sel { lane with d := .q 2, a := .v 1, b := .b 0, c := .k 2 } .b32),
    ([0x2108047C, 0x065C2104], .zext { train with d := .s 8, a := .s 8, b := .imm 16 } .n32)] = true := by decide

theorem test_decode_float_and_conversion : agree [
    ([0x1170A888, 0x095C0075],
      .fmul { lane with nwb := true, kg := 2, kn := true, a := .o 4, b := .v 7 } .f32 .rn ⟨false, false⟩),
    ([0x0408008C, 0xD950C020], .fma { lane with d := .v 8, a := .v 1, b := .v 2, c := .o 3 } .f32 .rz ⟨true, true⟩),
    ([0x10060090, 0x09018050], .fnma { lane with d := .v 6, a := .v 4, b := .v 5, c := .v 6 } .f32 .rn ⟨false, false⟩),
    ([0x08040100, 0x9C5C2010], .cvt { lane with d := .v 4, a := .v 2, b := .imm 1 } .d8 .f32),
    ([0x04090110, 0x8D024020], .pack { lane with d := .v 9, a := .v 1, b := .v 2, c := .v 9 } .h4 .rn 2),
    ([0x0C070114, 0x5D5C1700], .unpk { lane with d := .v 7, a := .v 3 } .h4 5)] = true := by decide

theorem test_decode_cross_lane : agree [
    ([0x0D040540, 0x095C1700], .red { train with d := .s 4, a := .v 3 } .f32 .add),
    ([0x0402014C, 0x085C2000], .bcst { lane with d := .v 2, a := .v 1, b := .imm 0 } false),
    ([0x0D060550, 0x275C170C], .vote { train with d := .s 6, a := .k 3 } .ballot)] = true := by decide

theorem test_decode_memory_and_atomics : agree [
    ([0x080401C0, 0x22840064], .ld { lane with d := .v 4, a := .s 2, b := .v 6, c := .imm 16 } .s32 2),
    ([0x217001C6, 0x0800D704, 0x00000008, 0x00000016],
      .st { lane with a := .s 8, c := .v 3, ext := .ext 0x1600000008 } .b32 0),
    ([0x057001D4, 0x090100D6], .stt { lane with a := .t 1, b := .v 13, c := .v 4 } .f32 0),
    ([0x100201D8, 0x075C1700], .look { lane with d := .v 2, a := .v 4 }),
    ([0xC17005EC, 0x165C1705], .fence train .sy .rel),
    ([0x08050240, 0x065C0034], .atom { lane with d := .v 5, a := .s 2, b := .v 3 } .n32 .add),
    ([0x09060646, 0x07415044, 0x00000008, 0x0000001D],
      .cas { train with d := .s 6, a := .s 2, b := .s 4, c := .s 5, ext := .ext 0x1D00000008 } .n64),
    ([0x09702248, 0x09418060], .faccTagged { lane with kg := 2, a := .v 2, b := .v 6, c := .s 6 }),
    ([0x0806024C, 0x095C1700], .faccr { lane with d := .v 6, a := .v 2 } .f32 .rn false),
    ([0x09070652, 0x06411034, 0x00000000, 0x0000000E],
      .waita { train with d := .s 7, a := .s 2, b := .s 3, c := .s 4, ext := .ext 0xE00000000 } .n32 false)]
      = true := by decide

theorem test_decode_queues_and_control : agree [
    ([0x01610681, 0x005C1708, 0x00000400], .qbind { train with d := .q 1, a := .imm 0, ext := .imm 0x400 }),
    ([0x0904068C, 0x065C2034], .racq { train with d := .s 4, a := .s 2, b := .imm 3 } .sy),
    ([0x09050694, 0x0D5C1704], .rpeekTake { train with d := .s 5, a := .s 2 } .dv),
    ([0xC108069C, 0x005C1705], .stage { train with d := .s 8 }),
    ([0x1506069C, 0x015C1704], .stageCfg { train with d := .s 6, a := .s 5 }),
    ([0x197092C0, 0x005C1708], .bra { lane with kg := 1, kn := true, a := .imm 6 }),
    ([0xC00A02C9, 0x005C1705, 0x00000240], .call { lane with d := .v 10, ext := .imm 0x240 }),
    ([0xC17046D0, 0x005C1705], .exit { train with kg := 4 }),
    ([0xC17002F4, 0x015C1705], .joinPointNop lane),
    ([0x190706E0, 0x005C1704], .fwait { train with d := .s 7, a := .s 6 }),
    ([0xFD0406EC, 0x015C1709], .trapfClr { train with d := .s 4, a := .imm 127 })] = true := by decide

theorem test_decode_matrix_and_windows : agree [
    ([0x05C40700, 0x005C1708], .aalloc { train with d := .a 4, a := .imm 1 }),
    ([0x0970070C, 0x0C5C2036], .wld { train with a := .t 2, b := .imm 3 } .d8),
    ([0xC170070C, 0x005C1705], .wldZero train),
    ([0x15C40710, 0x0C61D066], .mmaTile { train with d := .a 4, a := .t 5, b := .s 6, c := .t 7 } .d8),
    ([0x09C80712, 0x0B5C2004, 0x00000400, 0x00000040],
      .mmaMemory { train with d := .a 8, a := .s 2, b := .imm 0, ext := .ext 0x4000000400 } .bf16),
    ([0x11C00716, 0xCC415886, 0x02030028, 0x00000000],
      .mmt { train with d := .a 0, a := .t 4, b := .t 8, c := .s 5, ext := .ext 0x02030028 } .d8 .d8),
    ([0x10080718, 0x095C1707], .adrainReg { train with d := .v 8, a := .a 4 } .f32 false),
    ([0x0170071A, 0x295C1117, 0x00000100, 0x00000000],
      .adrainGm { train with a := .a 0, b := .s 17, ext := .ext 0x100 } .f32 false),
    ([0x09040740, 0x005C2054], .lopen { train with d := .s 4, a := .s 2, b := .imm 5 }),
    ([0x19701348, 0x005C0024], .feed { lane with kg := 1, a := .s 6, b := .v 2 }),
    ([0x1970074D, 0x005C1704, 0x00010000], .wmark { train with a := .s 6, ext := .imm 0x10000 }),
    ([0x80180350, 0x005C1708], .wrec { lane with d := .v 24, a := .imm 32 }),
    ([0x11700354, 0x005C2020], .wemit { lane with a := .v 4, b := .imm 2 })] = true := by decide

theorem test_decode_tasks_engines_and_system : agree [
    ([0xC1040781, 0x015C2645, 0x000000FF], .tfetchTask { train with d := .s 4, b := .imm 100, ext := .imm 0xFF }),
    ([0x0D060788, 0x005C1704], .tdone { train with d := .s 6, a := .s 3 }),
    ([0x0908078C, 0x005C1704], .launch { train with d := .s 8, a := .s 2 }),
    ([0x250707A1, 0x005C1704, 0x3F400000], .jarr { train with d := .s 7, a := .s 9, ext := .imm 0x3F400000 }),
    ([0xC17007A8, 0x005C1705], .jkp train),
    ([0x090407C0, 0x005C1704], .copy { train with d := .s 4, a := .s 2 }),
    ([0x0D7003C4, 0x0801C064], .xst { lane with a := .s 3, b := .v 6, c := .v 7 } false),
    ([0x217007C8, 0x055C1704], .publ { train with a := .s 8 } .dv),
    ([0x0D0507CC, 0x005C1704], .dec { train with d := .s 5, a := .s 3 }),
    ([0x0D0507E0, 0x005C20C4], .svc { train with d := .s 5, a := .s 3, b := .imm 12 }),
    ([0xC17007E4, 0x005C1705], .eret train),
    ([0x010607E8, 0x005C1709], .mfsr { train with d := .s 6, a := .imm 0x40 }),
    ([0x097003EC, 0x005C0048], .mtsr { lane with a := .imm 2, b := .v 4 }),
    ([0x1D7007F0, 0x005C1034], .tlbiPage { train with a := .s 7, b := .s 3 }),
    ([0x050807F4, 0x005C1708], .trapq { train with d := .s 8, a := .imm 1 }),
    ([0x090907F8, 0x005C1034], .ctxs { train with d := .s 9, a := .s 2, b := .s 3 })] = true := by decide

/-! ## What the statements assume can be met -/

open Machine

def base : State := { placeFetch State.reset 0 with current := some 0, agenda := [] }
def sees (s : State) (i : Instr) (p : Ctx → State → Bool) : Bool :=
  i.wellFormed && match i.form, train? s 0 with
    | some (_, _, x), some tr => (match gates i x s 0 tr with
      | .go c t => c.tr.access.isNone && p c t
      | .stop _ => false)
    | _, _ => false
def opens (s : State) (l : List Instr) : Bool := l.all fun i => sees s i fun _ _ => true

def vvv : Args := { lane with d := .v 4, a := .v 1, b := .v 2, c := .v 3 }
def vv : Args := { lane with d := .v 4, a := .v 1, b := .v 2 }
def v : Args := { lane with d := .v 4, a := .v 1 }
def kk : Args := { lane with d := .k 3, a := .k 1, b := .k 2 }
def plain : SrcMods := ⟨false, false⟩

theorem witness_IntegerArithmeticYieldsItsExactResult : opens base [.add vv .s32 false, .sub vv .s8 true, .mul vv .n16 false, .mad vvv .s32 true,
    .mulhi vv .s32, .madhi vvv .n32, .min vv .s32, .max vv .n8, .abs v .s16 true,
    .lea { lane with d := .v 4, a := .s 2, b := .v 6, c := .imm 16 } .n64 3] = true := by decide

theorem witness_BitInstructionsYieldTheirBits : opens base [.and vv .b32, .or vv .n32, .xor vv .s8, .andn vv .b32, .shl vv .n32, .shr vv .n32,
    .sra vv .s32, .rol vv .b32, .clz v .n32, .ctz v .n32, .popc v .b32, .bfx vv .n32, .bfi vvv .n32, .prm vvv,
    .sel { vv with c := .k 1 } .b32, .cmp { vv with d := .k 1 } .s32 .lt, .mov v .b32, .sext { v with b := .imm 8 } .s32,
    .zext { v with b := .imm 31 } .n32] = true := by decide

theorem witness_FloatInstructionsYieldTheirRoundedResult : opens base [.fadd vv .f32 .rn plain, .fsub vv .f16 .rz plain, .fmul vv .bf16 .rp plain,
    .fma vvv .f32 .rm ⟨true, true⟩, .fnma vvv .f32 .rn plain, .fmin vv .f32 plain, .fmax vv .f16 plain,
    .fcmp { vv with d := .k 1 } .f32 .lt, .fclass v .f32, .fsel { vv with c := .k 1 } .f32] = true := by decide

theorem witness_ConversionsYieldTheirResult : opens base [.cvt { v with b := .imm 5 } .d8 .f32, .rnd v .f32 .rz, .qnt vv .d8 .rn, .dqt vv .h4,
    .pack vvv .h4 .rn 3, .unpk v .h4 7, .scl vv .f32 .rn] = true := by decide

theorem witness_CrossLaneInstructionsYieldTheirResult : opens base [.shfl vv false .idx, .bcst { v with b := .imm 63 } false, .vote { v with d := .k 1, a := .k 2 } .any,
    .vote { train with d := .s 6, a := .k 3 } .ballot, .first { v with a := .k 2 }, .kand kk, .kor kk, .kxor kk,
    .knot { kk with b := .zero }, .kmov { kk with b := .zero }, .red v .f32 .add, .scan v .n32 .max true] = true := by decide

theorem witness_LongOperationsPendAndTheirResultCompletes : opens base [.div vv .s32 true, .rem vv .n8, .fsqrt v .f32 .rn plain, .fdiv vv .f32 .rn plain, .frcp v .f32 plain,
    .frsq v .f16 plain, .fex2 v .f32 plain, .flg2 v .f32 plain, .fsin v .f32 plain, .fcos v .f32 plain, .ftanh v .bf16 plain] = true := by decide

/-! ### Memory -/

/-- Every place of a list lies in this module's memory. -/
def near (r : State × Places) : Bool := match r.2 with
  | .ok l => l.all fun e => match e.2.2 with | .mem _ => true | _ => false
  | .fault _ _ => false
def inMem (x : Xl) : Bool := match x with | .mem _ => true | _ => false

def withTrain (f : Train → Train) : State := modTrain base 0 f
def withGroup (f : Wg → Wg) : State := modWg base 0 f

theorem witness_GlobalAccessesReachTheirPlaces :
    sees base (.ld { lane with d := .v 4, a := .s 2, b := .v 6, c := .imm 16 } .s32 2) (fun c t =>
      near (translateAll t c.tr .load 4 (c.lanes.map fun l => (l, globalAddr c 2 true l)))) = true ∧
    sees base (.ld { lane with d := .v 4, a := .s 2, ext := .ext 0x0D00000010 } .n64 0) (fun c t =>
      near (translateAll t c.tr .load 8 (c.lanes.map fun l => (l, globalAddr c 0 true l))) && extOrder c.x = 1) = true ∧
    sees base (.st { lane with a := .s 8, c := .v 3, ext := .ext 0x1600000008 } .b32 0) (fun c t =>
      near (translateAll t c.tr .store 4 (c.lanes.map fun l => (l, globalAddr c 0 false l)))) = true := by decide

def tiled : State := withGroup fun g => { g with tbytes := 4, ntiles := 2, tiles := [(1, { base := 256, size := 256, state := 2 })] }
def empty : State := withGroup fun g => { g with tbytes := 4, ntiles := 2, tiles := [(1, { base := 256, size := 256 })] }
/-- 8 slots of 64-byte lines at the scratchpad's address 0. -/
def tagged : State := withGroup fun g => { g with tagCfg := some 0x36 }

theorem witness_ScratchpadAccessesReachTheirPlaces :
    sees base (.ldp { lane with d := .v 4, a := .v 1, c := .imm 124 } .s32 0) (fun c t =>
      (wgOf t c.tr).any fun g => c.lanes.all fun l => spFate g false (spAddr c 0 true l) 4 = .ok) = true ∧
    sees base (.stp { lane with a := .v 1, b := .imm 120, c := .v 2 } .n64 0) (fun c t =>
      (wgOf t c.tr).any fun g => c.lanes.all fun l => spFate g true (spAddr c 0 false l) 8 = .ok) = true ∧
    sees tiled (.ldt { lane with d := .v 4, a := .t 1, b := .imm 126 } .s32 1) (fun c t =>
      (wgOf t c.tr).any fun g => (tileOf g 1).state = 2 && c.lanes.all fun l =>
        tileOffset c 1 true l % 4 = 0 && tileOffset c 1 true l + 4 ≤ (tileOf g 1).size) = true ∧
    sees empty (.stt { lane with a := .t 1, b := .imm 126, c := .v 4 } .f32 1) (fun c t =>
      (wgOf t c.tr).any fun g => (tileOf g 1).state = 0 && !latchedTile g 1 && !referenced g 1 && c.lanes.all fun l =>
        tileOffset c 1 false l % 4 = 0 && tileOffset c 1 false l + 4 ≤ (tileOf g 1).size) = true := by decide

theorem witness_TagAndTileInstructionsUseTheirTables :
    sees tagged (.look { lane with d := .v 2, a := .v 4 }) (fun c t => (wgOf t c.tr).any (·.tagCfg.isSome)) = true ∧
    sees tagged (.tagw { lane with a := .imm 7, b := .v 4 }) (fun c t => c.on && (wgOf t c.tr).any fun g => g.tagCfg.any fun v =>
      c.lanes.all fun l => (rdOpnd c c.x.a .b32 l).toNat < 2 ^ (tagCfgOf v).eshift
        && (rdOpnd c c.x.a .b32 l).toNat / 8 = (tagCfgOf v).set (rdOpnd c c.x.b .n64 l).toNat) = true ∧
    sees tagged (.tagi { lane with a := .imm 7 }) (fun c t => c.on && (wgOf t c.tr).any fun g => g.tagCfg.any fun v =>
      c.lanes.all fun l => (rdOpnd c c.x.a .b32 l).toNat < 2 ^ (tagCfgOf v).eshift) = true ∧
    sees tagged (.tagiAll train) (fun c _ => c.on) = true ∧
    sees base (.tagiCfg { train with a := .s 2 }) (fun c _ => c.on && rdOpnd c c.x.a .n64 uniTid = 0) = true ∧
    sees (withTrain fun t => { t with s := [(2, 0x36)] }) (.tagiCfg { train with a := .s 2 }) (fun c t =>
      c.on && (wgOf t c.tr).any fun g => tagCfgOk g (rdOpnd c c.x.a .n64 uniTid).toNat) = true ∧
    sees tiled (.tst { train with a := .t 1, b := .imm 3 }) (fun c t => c.on && (wgOf t c.tr).any fun g =>
      !(tileOf g 1).engine && !latchedTile g 1 && !referenced g 1) = true ∧
    sees (modTrain empty 0 fun t => { t with s := [(2, 0x40000000000)] }) (.tstDef { train with a := .t 1, b := .s 2 }) (fun c t =>
      c.on && (wgOf t c.tr).any fun g => let v := (rdOpnd c c.x.b .n64 uniTid).toNat
        (tileOf g 1).state = 0 && v % 2 ^ 32 % 256 = 0 && v / 2 ^ 32 % 256 = 0 && v / 2 ^ 32 ≠ 0
          && v % 2 ^ 32 + v / 2 ^ 32 ≤ (g.qbytes + g.tbytes) * 256) = true := by decide

theorem witness_FencesAndFlushesOrderEarlierAccesses : opens base [.pref { lane with a := .s 2 } 0, .fence train .dv .acq, .fence train .dv .rel, .fence train .sy .ar,
    .flushWc train, .flushIb { train with a := .s 2, b := .s 3 }] = true := by decide

/-- A train with an outstanding load and two stores. -/
def busy : Train := { placeTrain with
  loads := [{ u := false, dst := .v 4, ty := .s32, parts := [(0, 64), (63, 68)] }]
  stores := [{ pa := 64, bytes := [1, 2, 3, 4] }, { pa := 128, bytes := [5], wc := true, cycle := 0 }] }
def busyState : State := { base with trains := [(0, busy)], clk := 4096 }
/-- A state in which the train of slot 0 waits so. -/
def waiting (b : Block) : State := withTrain fun t => { t with block := some b }

theorem witness_MemoryStepsPerformWhatWasIssued : train? busyState 0 = some busy ∧ busy.loads[0]?.isSome = true ∧
    (busy.stores[0]?.any fun st => !st.wc) = true ∧ (busy.stores[1]?.any fun st => st.wc && st.cycle + 4096 ≤ busyState.clk) = true ∧
    (inMem (access (waiting .fetchLine) { placeTrain with block := some .fetchLine } .fetch 0x4000 0).2
      && (fetchLine (coreAt base 0) 1 0x40).isNone && (fillLine base 0 0x40).isSome) = true := by decide

def queued (d : QDesc) : Wg → Wg := fun g => { g with qbytes := 4, queues := [(1, d)] }

theorem witness_WaitingTrainsGoOnWhenTheirConditionHolds :
    (Tab.firstFree (waiting (.faultNoEntry 8 0)).faults 1024 0).isSome = true ∧
    (tileOf ((tiled.wgs.map (·.2)).headD {}) 1).state = 2 ∧
    queueAllows (queued { bound := true, size := 1, count := 64 } placeWorkgroup) (1, 64, 64) = true ∧
    16 * (stagedCells (modPart base 0 fun p => { p with stagesz := 16 }) 0 + 1) ≤ 16 ∧
    (Tab.get? base.lines 0).isNone = true ∧
    (wg? { withGroup (fun g => { g with qstall := 5 }) with clk := 6 } 0).any (fun g => 5 < 6 - g.qSince && g.qstall ≠ 0) = true := by decide

theorem witness_AtomicsActOnTheirPlacesInTidOrder :
    sees base (.atom { lane with d := .v 5, a := .s 2, b := .v 3 } .n32 .add) (fun c t =>
      near (translateAll t c.tr .rmw 4 (c.lanes.map fun l => (l, atomicGlobal c l)))) = true ∧
    sees base (.cas { train with d := .s 6, a := .s 2, b := .s 4, c := .s 5, ext := .ext 0x1D00000008 } .n64) (fun c t =>
      near (translateAll (performEarlier t 0) c.tr .rmw 8 (c.lanes.map fun l => (l, atomicGlobal c l)))) = true ∧
    sees base (.facc { lane with a := .s 2, b := .v 6 }) (fun c t =>
      near (translateAll t c.tr .rmw 16 (c.lanes.map fun l => (l, atomicGlobal c l)))) = true ∧
    sees base (.faccr { lane with d := .v 6, a := .s 2 } .f32 .rn true) (fun c t =>
      near (translateAll t c.tr .rmw 16 (c.lanes.map fun l => (l, atomicGlobal c l)))) = true ∧
    sees base (.faccTagged { lane with a := .s 2, b := .v 6, c := .s 6 }) (fun c t => c.on &&
      near (translateAll t c.tr .store 16 (c.lanes.map fun l => (l, atomicGlobal c l)))
        && (joinSlot t c.tr.part (rdOpnd c c.x.c .b32 uniTid).toNat).isNone) = true := by decide

theorem witness_AtomicsActOnTheirPlacesInTidOrder_scratchpad :
    sees base (.atom { lane with d := .v 5, a := .v 1, b := .v 3, ext := .ext 0x2000000000 } .n32 .xchg) (fun c t => c.x.sp &&
      (wgOf t c.tr).any fun g => c.lanes.all fun l => spFate g true (atomicSp c l) 4 = .ok) = true := by decide

theorem witness_OneAtomicReadsThenWritesItsBytes : (train? base 0).isSome = true := by decide

theorem witness_WaitaEndsWhenEveryConditionHolds :
    sees base (.waita { lane with d := .v 5, a := .v 1, b := .v 3, ext := .ext 0x2000000000 } .n32 true) (fun c t => c.x.sp &&
      (wgOf t c.tr).any fun g => c.lanes.all fun l => spFate g true (atomicSp c l) 4 = .ok
        && (spRead g (atomicSp c l) 4 = atomData c c.x.b .n32 l)) = true ∧
    sees base (.waita { lane with d := .v 5, a := .v 1, b := .imm 1, ext := .ext 0x2000000000 } .n32 true) (fun c t => c.x.sp &&
      (wgOf t c.tr).any fun g => c.lanes.all fun l => spFate g true (atomicSp c l) 4 = .ok
        && (spRead g (atomicSp c l) 4 ≠ atomData c c.x.b .n32 l)) = true ∧
    sees base (.waita { lane with d := .v 5, a := .s 2, b := .v 3 } .n32 true) (fun c t => !c.x.sp && c.x.c = .zero &&
      (let t1 := modTrain (loadRoom t 0) 0 fun tr => { tr with deadline := none }
       let places := c.lanes.map fun l => (l, atomicGlobal c l)
       near (translateAll t1 c.tr .load 4 places) && places.all fun e => readMem t1 e.2.toNat 4 = atomData c c.x.b .n32 e.1)) = true ∧
    sees base (.waita { lane with d := .v 5, a := .s 2, b := .imm 1 } .n32 true) (fun c t => !c.x.sp && c.x.c = .zero &&
      (let t1 := modTrain (loadRoom t 0) 0 fun tr => { tr with deadline := none }
       let places := c.lanes.map fun l => (l, atomicGlobal c l)
       near (translateAll t1 c.tr .load 4 places) && places.any fun e => readMem t1 e.2.toNat 4 ≠ atomData c c.x.b .n32 e.1)) = true ∧
    ([false, true].all fun sp => sees base (.waita { lane with
        d := .v 5, a := if sp then .v 1 else .s 2, b := .imm 1, c := .imm 0, ext := .ext (if sp then 0x2000000000 else 0) } .n32 true) fun c t =>
      c.x.sp == sp && c.x.c ≠ .zero && c.tr.deadline.getD (t.clk + (rdOpnd c c.x.c .b32 uniTid).toNat) ≤ t.clk) = true ∧
    (let s := waiting (.waita true [{ tid := 0, addr := 0, operand := 0 }] [(0, 0)] 0x4000 {} none 0)
     waitRound (waitRead s placeTrain true 4) true [{ tid := 0, addr := 0, operand := 0 }] [(0, 0)]).1 = [] := by decide

/-! ### Queues, rings, stages -/

/-- A state whose train's `s` registers hold these, and whose memory holds these dwords. -/
def holding (s : State) (l : Tab Dword) : State := modTrain s 0 fun t => { t with s := l }
def filled (s : State) (pa : Nat) : List Nat → State
  | [] => s
  | d :: r => filled (writeMem s pa 8 d) (pa + 8) r
def reaches (r : State × Xl) : Bool := inMem r.2

def withQueue (d : QDesc) : State := withGroup (queued d)

theorem witness_QueueRegistersAreBoundReadAndDrained :
    sees (withQueue {}) (.qbind { train with d := .q 1, a := .imm 0, ext := .imm 0x400 }) (fun c t =>
      c.on && (wgOf t c.tr).any fun g => let q := qdesc g 1
        let base := (src c .a .n64 uniTid).toNat
        let size := (src c .b .n64 uniTid).toNat
        size ≠ 0 && base % 256 = 0 && size % 256 = 0 && base + size ≤ g.qbytes * 256 && !qbindOverlaps g 1 base size
          && (!q.bound || q.count = 0)) = true ∧
    sees (withQueue {}) (.qbind { train with d := .q 1, a := .imm 0, b := .imm 0 }) (fun c t =>
      c.on && (src c .b .n64 uniTid).toNat = 0 && (wgOf t c.tr).any fun g => !(qdesc g 1).bound) = true ∧
    sees (withQueue { bound := true, size := 4 }) (.qbind { train with d := .q 1, a := .imm 0, b := .imm 0 }) (fun c t =>
      c.on && (src c .b .n64 uniTid).toNat = 0 && (blockedOn t 0 1).isEmpty
        && (wgOf t c.tr).any fun g => (qdesc g 1).bound && (qdesc g 1).count = 0) = true ∧
    sees (withQueue { bound := true, size := 4, count := 64 }) (.qstat { train with d := .s 4, a := .q 1 }) (fun c _ => c.on) = true ∧
    sees (withQueue {}) (.qdrain { train with d := .s 4, a := .q 1 }) (fun c _ => c.on) = true := by decide +kernel

theorem witness_QueuesAreFirstInFirstOut :
    (let d := qdesc (queued { bound := true, size := 1, count := 63, head := 63 } placeWorkgroup) 1
     0 < d.cap ∧ 0 < d.count ∧ d.count < d.cap ∧ d.head < d.cap) ∧
    (let d := qdesc (queued { bound := true, size := 1 } placeWorkgroup) 1
     0 < d.cap ∧ d.count = 0 ∧ d.count < d.cap ∧ d.head < d.cap) := by decide +kernel

/-- A ring of eight slots of 64 bytes at 0x8000, with its slots at 0x9000 and its bitmap at 0xA000. -/
def ring (hd tl rd : Nat) : State := filled (holding base [(2, 0x8000)]) 0x8000 [0x9000, 64 + 8 * 2 ^ 32, hd, tl, 0, 0xA000, rd, 0]
def ringUser : RingUser := { part := 0, asid := 1 }

theorem witness_RingInstructionsPerformTheirOperation :
    ([.racq { train with d := .s 4, a := .s 2, b := .imm 1 } .dv, .rcom { train with d := .s 4, a := .s 2, b := .s 4, c := .imm 1 } .sy,
      .rcomSkip { train with d := .s 4, a := .s 2, b := .s 4, c := .imm 1 } .sy, .rpeek { train with d := .s 4, a := .s 2 } .dv,
      .rpeekTake { train with d := .s 4, a := .s 2 } .dv,
      .rrel { train with d := .s 4, a := .s 2, b := .s 4, c := .imm 1 } .dv].all fun i => sees (ring 0 0 0) i fun c t =>
        c.on && reaches (access t c.tr .load (rdOpnd c c.x.a .n64 uniTid) 64)
          && reaches (access (performEarlier t 0) c.tr .load (rdOpnd c c.x.a .n64 uniTid) 64)) = true := by decide +kernel

theorem witness_FailedRingOperationsChangeNoMemory :
    (ringAt (ring 0 0 0) ringUser 0x8000 (.peek true)).2.getLsbD 63 = true ∧
    (ringAt (ring 0 8 0) ringUser 0x8000 (.acq 1)).2.getLsbD 63 = true := by decide +kernel

theorem witness_RingPointersStayOrdered :
    ((ringReg? (ring 3 7 5) 0x8000).any fun r => r.block.length = 8 && r.hd ≤ r.rd && r.rd ≤ r.tl && r.tl ≤ r.hd + r.nslot
      && r.tl + 2 * r.nslot < 2 ^ 64 && ((RingOp.acq 1).apply ringUser (ring 3 7 5, r)).isSome) = true := by decide +kernel

def stages (l : List Nat) : State := filled (holding base [(2, 0x8000)]) 0x8000 l

theorem witness_StageInstructionsRunTheStageTable :
    sees (stages [2, 0, 2 ^ 63 + 1, 5 + 4 * 2 ^ 32]) (.stageCfg { train with d := .s 4, a := .s 2 }) (fun c t =>
      c.on && match translateAll t c.tr .load 64 (c.lanes.map fun l => (l, rdOpnd c c.x.a .n64 uniTid)) with
        | (s2, .ok [(_, _, .mem pa)]) =>
          !StageTab.invalid ((List.range 8).map fun i => BitVec.ofNat 64 (bitsAt (trainMem s2 c.tr pa 64) (64 * i) 64))
        | _ => false) = true ∧
    sees (stages [0]) (.stageCfg { train with d := .s 4, a := .s 2 }) (fun c t =>
      c.on && match translateAll t c.tr .load 64 (c.lanes.map fun l => (l, rdOpnd c c.x.a .n64 uniTid)) with
        | (s2, .ok [(_, _, .mem pa)]) =>
          StageTab.invalid ((List.range 8).map fun i => BitVec.ofNat 64 (bitsAt (trainMem s2 c.tr pa 64) (64 * i) 64))
        | _ => false) = true ∧
    sees base (.stage { train with d := .s 4 }) (fun c t => c.on && (wgOf t c.tr).any fun g => g.stageTab = none) = true ∧
    sees (withGroup fun g => { g with stageTab := some [2, 0, 2 ^ 63 + 1, 5 + 4 * 2 ^ 32, 0, 0, 0, 0] }) (.stage { train with d := .s 4 })
      (fun c t => c.on && (wgOf t c.tr).any fun g => g.stageTab.isSome) = true := by decide +kernel

/-! ### Control -/

theorem witness_BranchesSetTheNextPcOfEachSelectedThread : opens base [.bra { lane with a := .imm 6 }, .bra { lane with ext := .imm 0x8000 }, .brx { lane with a := .v 4 },
    .ret { train with a := .s 30 }, .call { train with d := .s 30, a := .imm 2 }] = true := by decide +kernel

def ganged : State := withGroup fun g => { g with gang := 1 }

theorem witness_ExitsAndBarriersHoldAndRelease :
    sees base (.exit lane) (fun c _ => c.on && c.tr.act = none) = true ∧
    sees base (.exit train) (fun c _ => c.on && c.tr.act = none) = true ∧
    sees base (.bar { lane with kg := 1, kn := true }) (fun c t => c.on && c.tr.act = none && (wgOf t c.tr).isSome) = true ∧
    sees ganged (.gbar lane) (fun c t => c.on && c.tr.act = none && (wgOf t c.tr).any (·.gang ≠ 0)) = true ∧
    (let s := { modTrain (withGroup fun g => { g with bstall := 4 }) 0 fun t => { t with heldBar := 1, selected := 2 } with clk := 5 }
     trainsOfWg s 0 = [0] ∧ (train? s 0).any (fun t => arrivedBar t ≠ 0) = true ∧
       (wg? s 0).any (fun g => g.bstall ≠ 0 && g.bstall < s.clk - g.bSince) = true) := by decide +kernel

def future (st : Option Dword) : State :=
  { holding base [(2, futureHandle base 5 { asid := 1, status := st, op := 7 })] with
    futures := [(5, { asid := 1, status := st, op := 7 })] }
/-- What `fwait`, `ftest` and `fcancel` find under their handle. -/
def found (c : Ctx) (t : State) : Option Future := (futureOf t c.tr.asid (rdOpnd c c.x.a .n64 uniTid)).map (·.2)
def told : State := withTrain fun t => { t with marks := [(2, .told)] }

theorem witness_HintsFuturesAndTrapRequestsComplete :
    opens base [.nop lane] = true ∧
    ([.yield train, .ftest { train with d := .g 2, a := .s 2 }, .ftestH { train with d := .s 4, a := .s 2 },
      .trapfClr { train with d := .s 4, a := .imm 127 }, .trap { train with a := .imm 5 }].all fun i => sees base i fun c _ => c.on) = true ∧
    sees base (.joinPointNop lane) (fun c _ => (reselect c.tr).pc = c.tr.pc) = true ∧
    sees (withTrain fun t => { t with selected := 1, pcs := (List.range 63).map fun i => (i + 1, 0x3000) }) (.joinPointNop lane)
      (fun c _ => (reselect c.tr).pc ≠ c.tr.pc) = true ∧
    ([.fwait { train with d := .s 4, a := .s 2 }, .fcancel { train with d := .s 4, a := .s 2 }].all fun i =>
      sees told i (fun c _ => c.on && holdsStatus c) && sees base i (fun c t => c.on && !holdsStatus c && found c t = none)
        && sees (future (some 9)) i (fun c t => c.on && !holdsStatus c && (found c t).any (·.status.isSome))) = true ∧
    ([.fcancel { train with d := .s 4, a := .s 2 }, .fwait { train with d := .s 4, a := .s 2 }].all fun i => sees (future none) i fun c t =>
      c.on && !holdsStatus c && (found c t).any (·.status = none)) = true ∧
    sees base (.trapf { train with d := .s 4, a := .imm 127 }) (fun c _ => c.on && c.tr.flags &&& trapMask c = 0) = true ∧
    sees (withTrain fun t => { t with flags := 2 }) (.trapf { train with d := .s 4, a := .imm 3 }) (fun c _ =>
      c.on && c.tr.flags &&& trapMask c ≠ 0) = true := by decide +kernel

/-! ### The matrix unit -/

def matrixReady (c : Ctx) (t : State) (tiles : List Opnd) (p : Wg → Bool) : Bool :=
  c.on && (wgOf t c.tr).any fun g => ((tilesOf tiles).all fun n => (tileOf g n).state = 2) && g.mq.length < 8 && p g
def namesBound (g : Wg) (first n : Nat) : Bool :=
  0 < n && first + n ≤ 64 && (List.range n).all fun j => (Tab.get? g.accs (first + j)).isSome
def latchFits (g : Wg) (t : Ty) : Bool := t ≠ .f32 && (issuedLatch g).any fun tw => tw.width = t.width

/-- Tile 1 holds 64 rows of 512 bytes, tile 2 holds 64 bytes, the names a4 to a7 are bound, weights are latched. -/
def matrix : State := withGroup fun g => { g with
  tbytes := 256, ntiles := 3, tiles := [(1, { base := 0, size := 32768, state := 2 }), (2, { base := 32768, size := 256, state := 2 })]
  accs := [(4, ⟨0, none⟩), (5, ⟨1, none⟩), (6, ⟨2, none⟩), (7, ⟨3, none⟩)], used := [0, 1, 2, 3], banks := 8, resv := 4
  wlatch := some ⟨.d8, 1, List.replicate 64 0⟩ }

def entry (i : Instr) : MqEntry := { id := 9, instr := i, pc := 0, uid := 1, trn := 0, banks := [⟨0, none⟩] }
def arrayAt (e : MqEntry) : State := modWg matrix 0 fun g => { g with mq := [e] }

theorem witness_MatrixInstructionsAreQueued :
    sees matrix (.aalloc { train with d := .a 8, a := .imm 4 }) (fun c t => matrixReady c t [] fun g =>
      let n := countOperand c
      0 < n && accNum c.x.d + n ≤ 64 && ((List.range n).all fun j => (Tab.get? g.accs (accNum c.x.d + j)).isNone)
        && g.accs.foldl (fun m e => m + (AccBind.list e.2).length) 0 + banksNeeded g n
          + (wgsOnCore t g.core).foldl (fun m e => if e.1 = 0 then m else m + e.2.banks) 0 ≤ 64
        && g.mq.isEmpty && banksFree t 0 (banksNeeded g n) t.nextId) = true ∧
    sees (modWg matrix 0 fun g => { g with used := List.range 64, resv := 0 }) (.aalloc { train with d := .a 8, a := .imm 4 }) (fun c t =>
      matrixReady c t [] fun g => g.accs.length = 4 && !banksFree t 0 (banksNeeded g (countOperand c)) t.nextId) = true ∧
    sees (arrayAt (entry (.afree { train with d := .a 4, a := .imm 1 }))) (.aalloc { train with d := .a 8, a := .imm 4 }) (fun c t =>
      matrixReady c t [] fun g => !g.mq.isEmpty) = true ∧
    sees matrix (.afree { train with d := .a 4, a := .imm 4 }) (fun c t => matrixReady c t [] fun g =>
      namesBound g (accNum c.x.d) (countOperand c)) = true ∧
    sees matrix (.azero { train with d := .a 4, a := .imm 1 }) (fun c t => matrixReady c t [] fun g =>
      namesBound g (accNum c.x.d) (countOperand c)) = true ∧
    sees matrix (.wld { train with a := .t 1, b := .t 2 } .d8) (fun c t => matrixReady c t [c.x.a, c.x.b] fun g =>
      64 * rowBytes g ≤ tileSize g c.x.a && 64 ≤ tileSize g c.x.b) = true ∧
    sees matrix (.wldZero train) (fun c t => matrixReady c t [] fun _ => true) = true ∧
    sees matrix (.mmaTile { train with d := .a 4, a := .t 1, b := .imm 0, c := .t 2 } .d8) (fun c t =>
      matrixReady c t [c.x.a, c.x.c] fun g => let m := mmaRows c.x.b (rdOpnd c c.x.b .n64 uniTid) (tileSize g c.x.a) (rowBytes g)
        latchFits g .d8 && 0 < m.1 && m.1 ≤ 1024 && m.2 && tileSize g c.x.a % rowBytes g = 0
          && m.1 * rowBytes g ≤ tileSize g c.x.a && m.1 ≤ tileSize g c.x.c && namesBound g (accNum c.x.d) (ceilDiv m.1 16)) = true ∧
    sees matrix (.mmaMemory { train with d := .a 4, a := .s 2, b := .imm 0, ext := .ext 0x4000000200 } .d8) (fun c t =>
      matrixReady c t [c.x.c] fun g => let m := bitsAt (extWord c.x) 32 11
        latchFits g .d8 && 0 < m && m ≤ 1024 && namesBound g (accNum c.x.d) (ceilDiv m 16)
          && (rdOpnd c c.x.a .n64 uniTid).toNat % 64 = 0 && bitsAt (extWord c.x) 0 32 % 64 = 0) = true ∧
    sees matrix (.mmt { train with d := .a 4, a := .t 1, b := .t 1, c := .imm 0, ext := .ext 0x1010040 } .d8 .d8) (fun c t =>
      matrixReady c t [c.x.a, c.x.b] fun g => let m := mmtShape c.x
        0 < m.1 && m.1 ≤ 1024 && 0 < m.2.1 && 0 < m.2.2 && m.2.2 ≤ 64 && namesBound g (accNum c.x.d) (m.2.2 * ceilDiv m.1 16)
          && m.2.1 * m.1 * rowBytes g ≤ tileSize g c.x.a && m.2.2 * m.2.1 * 64 * rowBytes g ≤ tileSize g c.x.b) = true ∧
    sees matrix (.adrainReg { train with d := .v 240, a := .a 4 } .f32 true) (fun c t => matrixReady c t [] fun g =>
      !drainBeyond c && namesBound g (accNum c.x.a) 1) = true ∧
    sees (withGroup fun g => { g with accs := [(4, ⟨0, none⟩)] }) (.adrainSp { train with a := .a 4, b := .s 2 } .f32 false) (fun c t => matrixReady c t [] fun g =>
      let addr := (rdOpnd c c.x.b .b32 uniTid).toNat
      namesBound g (accNum c.x.a) 1 && addr % 64 = 0 && (List.range 64).all fun p => spFate g true (addr + 64 * p) 64 = .ok) = true ∧
    sees matrix (.adrainGm { train with a := .a 4, b := .s 2, ext := .ext 0x100 } .f32 false) (fun c t => matrixReady c t [] fun g =>
      namesBound g (accNum c.x.a) 1 && (rdOpnd c c.x.b .n64 uniTid).toNat % 64 = 0 && bitsAt (extWord c.x) 0 32 % 64 = 0) = true ∧
    sees base (.mred { train with a := .imm 1 }) (fun c t => matrixReady c t [] fun g =>
      g.accs.isEmpty && g.mq.isEmpty && (rdOpnd c c.x.a .n64 uniTid).toNat ≤ 1) = true ∧
    sees base (.mprog { train with d := .s 4 }) (fun c t => c.on && (wgOf t c.tr).isSome) = true := by decide +kernel

theorem witness_ARowPassAccumulatesIntoItsRow : (List.replicate 64 (([] : List Machine.Num), (0 : Int))).length = 64 := by decide +kernel

def drainMem : Instr := .adrainGm { train with a := .a 4, b := .s 2, ext := .ext 0x100 } .f32 false
/-- A copy into tile 1 whose follow-on is `mma.t a4, t1, 0, t2`. -/
def follows (t : Ty) : EngOp :=
  { kind := .copy, desc := [0, 0, 0, 0, 0, 0x4100, 4 + 64 * (if t = .d8 then 12 else 9) + 2 ^ 18 * 2 + 2 ^ 24] 
    part := 0, asid := 1, priv := true, agen := 0, launch := some 0, cluster := 0, core := 0, slot := 0, pc := 0
    uid := 1, wg := some 2, future := none, state := .placed }

theorem witness_TheArrayPerformsTheEntryAtTheHead :
    ([.wld { train with a := .t 1, b := .t 2 } .d8, .wldZero train, .azero { train with d := .a 4, a := .imm 1 },
      .afree { train with d := .a 4, a := .imm 1 }, .mmaTile { train with d := .a 4, a := .t 1, b := .imm 0, c := .t 2 } .d8,
      .mmt { train with d := .a 4, a := .t 1, b := .t 1, c := .imm 0, ext := .ext 0x1010040 } .d8 .d8, drainMem].all fun i =>
        nextForArray (arrayAt (entry i)) 0 = some 0 && !orphaned (entry i)) = true ∧
    (trainByUid (arrayAt (entry (.wldZero train))) 1).any (fun e => e.2.block = none) = true ∧
    (let s := modTrain (arrayAt (entry drainMem)) 0 fun t => { t with block := some (.matrixOp 9) }
     (trainByUid s 1).any fun e => e.1 = 0 && e.2.block = some (.matrixOp 9)) = true ∧
    ([Access.load, .store].all fun a => match rowPlaces (arrayAt (entry drainMem)) 0 [] a 0x8000 256 (fun _ => .read 64) (nearRow 0) with
      | (_, .ok l) => l.length = 4
      | _ => false) = true ∧
    mismatch (arrayAt (entry drainMem)) 0 ⟨0, none⟩ = none ∧
    (mismatch (modCore (arrayAt (entry drainMem)) 0 fun c => { c with acc := [(3, 1)] }) 0 ⟨0, some 1⟩).isSome = true ∧
    (wg? (withGroup fun g => { g with accs := [(4, ⟨0, none⟩)] }) 0).any (fun g => (drainPieces .f32 0).all fun p =>
      spFate g true p.2 64 = .ok) = true ∧
    (let s := modTrain (arrayAt (entry (.aalloc { train with d := .a 8, a := .imm 4 }))) 0 fun t =>
        { t with block := some (.aalloc 4 9 0), atWait := some (.aalloc { train with d := .a 8, a := .imm 4 }) }
     banksFree s 0 4 9 && (wg? s 0).any fun g => g.mq.head?.any (·.id = 9)) = true ∧
    (let o := follows (.d8)
     let s := { matrix with ops := [(9, o)] }
     o.wg.bind (wgByUid s) = some 0 ∧ (match followInstr o with
       | .mmaTile x t => (wg? s 0).any fun g =>
         let m := mmaRows x.b 0 (tileSize g x.a) (rowBytes g)
         g.ended.isNone && g.mq.length < 8 && ((tilesOf [x.a, x.c]).all fun n => (tileOf g n).state = 2) && latchFits g t && 0 < m.1
           && m.1 ≤ 1024 && tileSize g x.a % rowBytes g = 0 && m.1 * rowBytes g ≤ tileSize g x.a && m.1 ≤ tileSize g x.c
           && namesBound g (accNum x.d) (ceilDiv m.1 16)
       | _ => false) = true) := by decide +kernel

/-! ### Windows -/

/-- A count line of 16-byte records, windows of 4 records and 4 state words; with `pane`, panes. -/
def countLine (pane : Nat) : Line :=
  { desc := [4 * BitVec.ofNat 64 pane + 32 + 4096, 4, 4, 0, 0, 0x4000, 0x8000, 0], asid := 1 }
def withLine (ln : Line) : State := { ring 0 0 0 with lines := [(0, ln)] }
/-- The train of slot 0 holds the handle of line 0 in s3. -/
def onLine (ln : Line) : State := modTrain (withLine ln) 0 fun t => { t with s := [(2, 0x8000), (3, ln.handleOf 0)] }
/-- The train of slot 0 is an activation of line 0 with one thread and this wake-up. -/
def running (w : Wake) : State := modTrain (withLine { countLine 0 with wins := [(7, { key := 5, index := 0 })] }) 0 fun t =>
  { t with act := some { line := 0, gen := 0, wakes := [(0, 7, w)] }, selected := 1, exited := ~~~1 }
def theLine (c : Ctx) (t : State) (p : Line → Bool) : Bool :=
  c.on && (lineOf t c.tr (rdOpnd c c.x.a .n64 uniTid)).any fun l => !actOfLine c.tr l.1 && p l.2
def theAct (c : Ctx) (t : State) (p : Act → Line → Bool) : Bool :=
  c.on && c.tr.act.any fun a => (Tab.get? t.lines a.line).any fun ln => p a ln

theorem witness_WindowInstructionsActOnLinesAndActivations :
    sees (stages [32 + 4096, 4, 4, 0, 0, 0x4000, 0, 0]) (.lopen { train with d := .s 3, a := .s 2 }) (fun c t =>
      c.on && near (translateAll (performEarlier t 0) c.tr .load 64 (c.lanes.map fun l => (l, rdOpnd c c.x.a .n64 uniTid)))) = true ∧
    sees (onLine (countLine 0)) (.lclose { train with a := .s 3 }) (fun c t => theLine c t fun _ => true) = true ∧
    sees (onLine (countLine 0)) (.feed { lane with a := .s 3, b := .s 2 }) (fun c t => theLine c t fun ln =>
      near (translateAll t c.tr .load 4 (feedPieces c ln.rsize)) && ln.records + c.lanes.length ≤ intakeSize) = true ∧
    sees (onLine { countLine 0 with intake := List.replicate 1024 (.record []) }) (.feed { lane with a := .s 3, b := .s 2 })
      (fun c t => theLine c t fun ln =>
        near (translateAll t c.tr .load 4 (feedPieces c ln.rsize)) && intakeSize < ln.records + c.lanes.length) = true ∧
    sees (onLine (countLine 0)) (.wmark { train with a := .s 3, b := .s 2 }) (fun c t => theLine c t fun _ => true) = true ∧
    sees (onLine (countLine 0)) (.lstat { train with d := .s 4, a := .s 3, b := .imm 7 }) (fun c t => theLine c t fun _ => true) = true ∧
    sees base (.lstat { train with d := .s 4, a := .s 3, b := .imm 0 }) (fun c t =>
      c.on && (lineOf t c.tr (rdOpnd c c.x.a .n64 uniTid)).isNone) = true ∧
    sees (running { kind := .record }) (.wrec { lane with d := .v 1, a := .imm 12 }) (fun c t => theAct c t fun a ln =>
      c.lanes.all fun l => (wakeOf a l).any isRecordWake && (rdOpnd c c.x.a .b32 l).toNat % 4 = 0
        && (rdOpnd c c.x.a .b32 l).toNat < ln.rsize) = true ∧
    sees (running { kind := .pane }) (.wpane { lane with d := .v 1, a := .imm 3 }) (fun c t => theAct c t fun a ln =>
      c.lanes.all fun l => (wakeOf a l).any isPaneWake && (rdOpnd c c.x.a .b32 l).toNat < ln.swords) = true ∧
    sees (running { kind := .close }) (.wkey { lane with d := .v 1 }) (fun c t => theAct c t fun _ ln => !ln.kwide) = true ∧
    sees (running { kind := .close }) (.wemit { lane with a := .v 4, b := .imm 16 }) (fun c t => theAct c t fun _ ln =>
      match access (performEarlier t 0) c.tr .load ln.outring 64 with
      | (s2, .mem pa) => (ringReg? s2 pa).any fun r => 4 * 16 ≤ r.ssize &&
        (let u : RingUser := { part := c.tr.part, asid := c.tr.asid, priv := c.tr.priv }
         let d := ringAt s2 u pa (.acq c.lanes.length)
         !d.2.getLsbD 63 && near (translateAll d.1 c.tr .store 8 (slotPieces r d.2.toNat c.lanes.length)))
      | _ => false) = true ∧
    ([.wyield lane, .wend lane].all fun i => sees (running { kind := .close }) i fun c t => theAct c t fun _ _ => true) = true := by
  decide +kernel

def pooled (ln : Line) : State := modPart (withLine ln) 0 fun p => { p with wpoolsz := 0x1000 }

theorem witness_TheRoundhouseResolvesTheIntake :
    (let ln := { countLine 0 with deliver := [⟨5, 2, false, [], none⟩], wins := [(7, { key := 5, index := 2 })] }
     roundhouseRoom (withLine ln) 0 = true ∧ ln.find 5 2 false = some 7 ∧ ln.isTime = false) ∧
    (poolSlot (pooled { countLine 0 with poolWait := true }) 0).isSome = true ∧
    (let ln := { countLine 1 with wins := [(7, { key := 5, index := 2, pane := true, count := 4 })] }
     ln.duePanes = [7]) ∧
    (let ln := { countLine 0 with intake := [.record [1, 2, 3, 4]] }
     roundhouseRoom (withLine ln) 0 = true ∧ roundhouseLoad (takeRecord (withLine ln) 0 ln [1, 2, 3, 4] []) 0 ≤ roundhouseSize) ∧
    (let ln := { countLine 0 with intake := [.mark 9] }
     roundhouseRoom (withLine ln) 0 = true ∧ ln.deliver = []) ∧
    (let ln := { countLine 0 with deliver := [⟨5, 2, false, [], none⟩] }
     ln.find 5 2 false = none ∧ poolSlot (withLine ln) 0 = none) ∧
    (let ln := { countLine 0 with intake := [.close], wins := [(7, { key := 5, index := 2 })] }
     ln.duePanes = [] ∧ ln.wins.all (fun e => e.2.pane = false) = true) ∧
    (let ln : Line := { countLine 0 with batch := [(7, { kind := .opened })] }
     ln.unresolved = false ∧ ln.duePanes = []) ∧
    (activationCore base 0).isSome = true := by decide +kernel

/-! ### Joins, tasks, launches -/

/-- A record of 8 dwords at 0x8000, to which s2 points. -/
def record (l : List Nat) : State := filled (holding base [(2, 0x8000)]) 0x8000 l
/-- A join of 3 contributors with a quorum of 2, its record at 0x8000 and its cell at 0xB000. -/
def threeJoin : Join := { asid := 1, recVA := 0x8000, n := 3, q := 2, cells := 0xB000, ncells := 1 }
def joined (jn : Join) : State := { base with joins := [(0, jn)] }
/-- What the handle in A finds; s6 is 0, the handle of slot 0. -/
def theJoin (c : Ctx) (t : State) : Option Join := (joinSlot t c.tr.part (rdOpnd c c.x.a .b32 uniTid).toNat).bind (Tab.get? t.joins)

theorem witness_JoinInstructionsAndEventsAct :
    sees (record [3 + 2 ^ 17, 0, 0, 0xB000, 1, 0, 0, 0]) (.jopen { train with d := .s 4, a := .s 2 }) (fun c t =>
      c.on && match access t c.tr .load (rdOpnd c c.x.a .n64 uniTid) 64 with
        | (s2, .mem pa) =>
          let d := (List.range 8).map fun i => BitVec.ofNat 64 (trainMem s2 c.tr (pa + 8 * i) 8)
          let jn := joinOfRecord c (rdOpnd c c.x.a .n64 uniTid) d
          !badRecord jn d && jn.clist = 0
        | _ => false) = true ∧
    sees (record [3 + 2 ^ 18, 0, 0, 0xB000, 1, 0, 0, 0]) (.jopen { train with d := .s 4, a := .s 2 }) (fun c t =>
      c.on && match access t c.tr .load (rdOpnd c c.x.a .n64 uniTid) 64 with
        | (s2, .mem pa) =>
          let d := (List.range 8).map fun i => BitVec.ofNat 64 (trainMem s2 c.tr (pa + 8 * i) 8)
          badRecord (joinOfRecord c (rdOpnd c c.x.a .n64 uniTid) d) d
        | _ => false) = true ∧
    sees (joined threeJoin) (.jarr { train with d := .s 4, a := .s 6, b := .imm 1 }) (fun c t =>
      c.on && match arriveAt (performEarlier t 0) c.tr.part c.tr.uid c.tr.kpc.isSome (rdOpnd c c.x.a .b32 uniTid).toNat
          (lowWord (src c .b .f32 uniTid)) with
        | .result _ d => d = 0
        | _ => false) = true ∧
    sees (joined { threeJoin with state := 2, awake := true }) (.jwait { train with d := .s 4, a := .s 6 }) (fun c t =>
      c.on && c.tr.act = none && (theJoin c t).any fun jn => jn.state ≠ 1 && jn.awake) = true ∧
    sees (joined threeJoin) (.jwait { train with d := .s 4, a := .s 6 }) (fun c t =>
      c.on && c.tr.act = none && (theJoin c t).any fun jn => jn.state = 1) = true ∧
    sees base (.jkp train) (fun c _ => c.on && c.tr.kpc = none) = true ∧
    sees (withTrain fun t => { t with kpc := some 0x5000 }) (.jkp train) (fun c _ => c.on && c.tr.kpc ≠ none) = true ∧
    sees base (.jstat { train with d := .s 4, a := .s 6 }) (fun c t => c.on && (theJoin c t).isNone) = true ∧
    atKillPoint { placeTrain with block := some (.jwait 0 0), kpc := some 0 } = true ∧
    (unitAccess base 0 1 false .store (threeJoin.recVA + 6) 2 = .mem 0x8006) := by decide +kernel

def readied : State := modPart (record [0, 0, 7, 0, 0, 0, 0, 2]) 0 fun p => { p with ready := [(3, [{ va := 0x8000, asid := 1 }])] }

theorem witness_TaskInstructionsRunTheReadyQueues :
    ([(record [0, 0, 0, 0, 0, 0, 0, 2], 2, 0), (record [0, 0, 0, 0, 0, 1, 0, 0], 0, 1), (record [], 0, 0)].all fun e =>
      sees e.1 (.tsub { train with d := .s 4, a := .s 2 }) fun c t =>
        c.on && match access (performEarlier t 0) c.tr .rmw (rdOpnd c c.x.a .n64 uniTid) 64 with
          | (s2, .mem pa) => taskState s2 pa = e.2.1 && taskDeps s2 pa = e.2.2 && readyRoom s2 c.tr.part ≠ 0
          | _ => false) = true ∧
    sees (record [0, 0, 0, 0, 0, 0, 0, 2]) (.tdone { train with d := .s 4, a := .s 2 }) (fun c t =>
      c.on && match access (performEarlier t 0) c.tr .rmw (rdOpnd c c.x.a .n64 uniTid) 64 with
        | (s2, .mem pa) => taskState s2 pa = 2 && readMem s2 (pa + 0x30) 4 = 0 && (match successors s2 c.tr pa with
          | (s3, .ok l []) => (decrement s3 c.tr.part c.tr.asid l).2.1 ≤ readyRoom s3 c.tr.part
          | _ => false)
        | _ => false) = true ∧
    sees readied (.tfetchTask { train with d := .s 4, a := .s 6, ext := .short }) (fun c _ =>
      c.on && c.tr.act = none && c.tr.task = none && c.tr.held = none && c.x.b = .zero) = true ∧
    ([(.zero, false), (.imm 0, true), (.imm 1, false)].all fun e =>
      sees base (.tfetchTask { train with d := .s 4, a := .s 6, b := e.1, ext := .short }) fun c t =>
        c.on && c.tr.act = none && c.tr.task = none && c.tr.held = none && c.tr.predTrap = none && !c.tr.noWait &&
        (findRecord (modTrain (performEarlier t 0) 0 id) c.tr ((src c .a .n64 uniTid).toNat % 256)).isNone &&
        e.2 = (!(c.x.b = .zero) && (c.tr.deadline.getD (t.clk + (rdOpnd c c.x.b .b32 uniTid).toNat) ≤ t.clk))) = true ∧
    ((findRecord readied placeTrain 8).any fun e => recordPa (setReadyQueue readied 0 e.1 []) 0 1 e.2.va = some 0x8000) = true ∧
    readMem readied 0x8030 4 = 0 := by decide +kernel

/-- A launch of one workgroup on core 0, ten grants, its header at 0x8000. -/
def header : List Dword := [0x1000000004000, 0, 0x1000000000, 10, 1, 0, 0, 0x22, 0x401, 0, 0xB000, 0, 0, 0, 0, 0]
def launched (f : Launch → Launch) : State :=
  modLaunch (holding base [(2, 0x8000)]) 0 fun l => f { l with hdr := header, hdrVA := 0x8000 }
def theLaunch (c : Ctx) (t : State) (p : Launch → Bool) : Bool := c.on && c.tr.act = none && (c.tr.launch.bind (launch? t)).any p
/-- A launch with a pool entry, in this state; its handle is 2³². -/
def child (st : LState) : State :=
  { launched id with launches := (launched id).launches ++ [(9, { asid := 1, state := st, pool := some 0 })]
                     pool := [(0, { asid := 1, launch := 9 })] }

theorem witness_LaunchInstructionsAndEventsAct :
    sees (launched id) (.tfetch { train with d := .s 4, a := .imm 0 }) (fun c t => theLaunch c t fun l => 0 < l.nf && l.level = none) = true ∧
    ([8, 7].all fun n => sees (launched fun l => { l with depth := n }) (.launch { train with d := .s 4, a := .s 2 }) fun c t =>
      theLaunch c t fun l => l.depth = n && match access t c.tr .load (rdOpnd c c.x.a .n64 uniTid) 128 with
        | (s2, .mem _) => (poolLaunch (performEarlier s2 0) {}).isSome
        | _ => false) = true ∧
    sees (launched id) (.lwait { train with d := .s 4, a := .s 2 }) (fun c t => theLaunch c t fun _ =>
      (launchOfHandle t c.tr.asid (rdOpnd c c.x.a .n64 uniTid)).isNone) = true ∧
    ([LState.complete, .running].all fun st =>
      sees (modTrain (child st) 0 fun t => { t with s := [(2, 0x100000000)] }) (.lwait { train with d := .s 4, a := .s 2 }) fun c t =>
        theLaunch c t fun _ => (launchOfHandle t c.tr.asid (rdOpnd c c.x.a .n64 uniTid)).any fun e =>
          (launch? t e.2).any (·.state = st)) = true ∧
    sees (launched id) (.trig train) (fun c t => theLaunch c t fun _ => (wgOf (performEarlier t 0) c.tr).isSome) = true ∧
    ([0, 0xC000].all fun ttab => sees (launched fun l => { l with hdr := header.set 13 ttab }) (.tsel { train with d := .s 4, a := .imm 15, b := .imm 4 })
      fun c t => theLaunch c t fun l => l.ttab = ttab && near (translateAll t c.tr .load 8
        (pieceAddrs 8 (l.ttab + BitVec.ofNat 64 (128 * (rdOpnd c c.x.a .b32 uniTid).toNat)) 16))) = true ∧
    ({ hdr := header } : Launch).invalid = false ∧
    (let l : Launch := { asid := 1, hdrVA := 0x8000 }
     let s := { filled base 0x8000 (header.map (·.toNat)) with launches := [(9, l)], trains := [], wgs := [] }
     let s1 := readHeaders s 0
     ((launchOrder s1).find? fun e => e.2.part = 0 && e.2.state ≠ .complete && !e.2.halted && !(admissible s1 e.1 e.2).isEmpty).isSome
       && l.unread) = true ∧
    (let l : Launch := { asid := 1, hdrVA := 0x8040 }
     l.unread && (readHeader base l).isNone) = true ∧
    (let l : Launch := { asid := 1, hdr := header, state := .running }
     launchOver { base with launches := [(9, l)] } 9 l) = true ∧
    (let l : Launch := { asid := 1, hdr := header.set 12 1, state := .running, trig := [0] }
     allTriggered l) = true := by decide +kernel

/-! ### Engines and the system class -/

/-- An operation of the train of slot 0 with this descriptor. -/
def op (kind : EngKind) (st : OpState) (desc : List Dword) : EngOp :=
  { kind := kind, desc := desc, part := 0, asid := 1, priv := true, agen := 0, launch := some 0, cluster := 0, core := 0, slot := 0, pc := 0
    uid := 1, wg := some 2, future := none, state := st }
/-- A copy of 64 bytes from 0x8000 to 0x9000. -/
def copyDesc : List Dword := [0x8000, 0x9000, 0, 0, 0x0001000100000040, 0, 0, 0]
def withOp (o : EngOp) : State := { base with ops := [(9, o)] }

/-- Two pages of 64 KiB at 0x40000000: one readable, one writable only; s2 points to their pair. -/
def pair : State := filled (filled (filled (record [0x40000000, 0x40010000, 1]) 0x20008 [0x30001]) 0x30000 [0x31001]) 0x31000 [0x40007, 0x5000B]

theorem witness_EngineInstructionsAndOperationsAct :
    ([.copy { train with d := .s 4, a := .s 2 }, .dec { train with d := .s 4, a := .s 2 }, .pyr { train with d := .s 4, a := .s 2 }].all fun i =>
      sees (record (copyDesc.map (·.toNat))) i fun c t =>
        c.on && near (translateAll (performEarlier t 0) c.tr .load 64 (c.lanes.map fun l => (l, rdOpnd c c.x.a .n64 uniTid)))
          && !engineFull t 0 && (takeFuture t c.tr.asid c.tr.launch none).isSome) = true ∧
    nextOfEngine (withOp (op .copy .queued copyDesc)) (op .copy .queued copyDesc) = true ∧
    outlived base (op .copy .queued copyDesc) = false ∧ (op .copy .queued copyDesc).bad = none ∧
    tilesAdmit base (op .copy .queued copyDesc) = true ∧
    (op .copy .running copyDesc).total = 1 ∧
    (match spanOf base (op .dec .running [0x4000, 4]) .load 0x4000 4 with | .ok l => l.length = 4 | _ => false) = true ∧
    nextPiece (op .copy .running (copyDesc.set 0 0x40000000)) = some 0 ∧
    (match srcSite base (op .copy .running (copyDesc.set 0 0x40000000)) 0 with | .fault _ _ => true | _ => false) = true ∧
    sees ganged (.xst { lane with a := .imm 1, b := .imm 64, c := .v 8 } true) (fun c t => c.on && (wgOf t c.tr).any fun g =>
      c.lanes.all fun l => (rdOpnd c c.x.a .b32 l).toNat < gangCores g && (rdOpnd c c.x.b .b32 l).toNat % 8 = 0
        && (rdOpnd c c.x.b .b32 l).toNat + 8 ≤ 16384) = true ∧
    sees pair (.publ { train with a := .s 2 } .dv) (fun c t => c.on && match access (performEarlier t 0) c.tr .rmw (rdOpnd c c.x.a .n64 uniTid) 64 with
      | (s2, .mem pa) =>
        let front := readMem s2 pa 8
        let shadow := readMem s2 (pa + 8) 8
        let n := readMem s2 (pa + 0x10) 4
        front % 65536 = 0 && shadow % 65536 = 0 && 0 < n && n ≤ 65536 && canonicalVa (BitVec.ofNat 64 front)
          && canonicalVa (BitVec.ofNat 64 shadow) && !overlaps front (n * 65536) shadow (n * 65536)
          && (match pairLeaves s2 c.tr.asid n (BitVec.ofNat 64 front) (BitVec.ofNat 64 shadow) with | .ok _ => true | _ => false)
      | _ => false) = true := by decide +kernel

/-- A second workgroup of one small train, without scratchpad, in workgroup slot 1 of core 0. -/
def twoGroups : State := { withTrain id with
  wgs := [(0, placeWorkgroup), (1, { placeWorkgroup with uid := 4, slot := 1, vgran := 1, sgran := 1, pad := 0, cls := 2 })]
  trains := [(0, placeTrain), (1, { placeTrain with uid := 5, slot := 1, wg := some 1, vgran := 1, sgran := 1, gotEnd := true })] }
/-- The same with a Depot area of 64 KiB at 0x100000. -/
def depot : State := modPart twoGroups 0 fun p => { p with depot := 0x100000, depotsz := 0x10000 }
/-- An image header at 0x8000, to which s2 points, and its workgroup. -/
def imaged : State := { record [0x8210101, 0, 0x10000, 77] with
  saved := [(9, { wg := { placeWorkgroup with vgran := 1, sgran := 1, pad := 0, cls := 2 }, trains := [], image := 0x8000, size := 0x800, clk := 77
                  hwimg := false })] }
/-- The same with 1 in s3. -/
def loadable : State := modTrain imaged 0 fun t => { t with s := [(2, 0x8000), (3, 1)] }
def served : State := modPart (ring 0 0 0) 0 fun p => { p with svcring := 0x8000 }
/-- The same ring with all its 8 slots taken. -/
def crowded : State := modPart (ring 0 8 0) 0 fun p => { p with svcring := 0x8000 }

theorem witness_SystemInstructionsAct :
    sees base (.mfsr { train with d := .s 4, a := .imm 0x40 }) (fun c _ => c.on && match regCheck c (sysNumber c) (·.read) with
      | .ok r => r.scope = .part
      | _ => false) = true ∧
    sees base (.mfsr { lane with d := .v 4, a := .imm 2 }) (fun c _ => c.on && match regCheck c (sysNumber c) (·.read) with
      | .ok r => r.scope ≠ .part
      | _ => false) = true ∧
    ([.svcret { train with a := .imm 0x0A, b := .s 2 }, .texitFault { train with a := .imm 0x0B, b := .imm 1 },
      .texitTerminate { train with a := .imm 0x0B, b := .imm 2 }, .mtsr { train with a := .imm 0x40, b := .s 2 },
      .mtsr { train with a := .imm 0x04, b := .s 2 }].all fun i => sees base i fun c _ => c.on && (match regCheck c (sysNumber c) (·.write) with
        | .ok _ => true
        | _ => false)) = true ∧
    sees (withTrain fun t => { t with intrap := true }) (.eret train) (fun c _ => c.on && c.tr.intrap) = true ∧
    ([.tlbiPage { train with a := .s 2 }, .tlbiAsid train, .tlbiPart train].all fun i => sees base i fun c t =>
      c.on && !foreignAsid t c.tr.part (tlbiTarget c)) = true ∧
    sees base (.trapq { train with d := .s 4, a := .imm 7 }) (fun c _ => c.on && !c.tr.intrap) = true ∧
    sees (withTrain fun t => { t with intrap := true, tq := [{ kind := 1 }] }) (.trapq { train with d := .s 4, a := .imm 0 })
      (fun c _ => c.on && c.tr.intrap && !c.tr.tq.isEmpty) = true ∧
    sees base (.svc { train with d := .s 4, a := .s 2, b := .imm 3 }) (fun c t => c.on && (partAt (performEarlier t 0) 0).svcring = 0
      && (takeToken (performEarlier t 0) c.tr).isSome) = true ∧
    ([(served, false), (crowded, true)].all fun e => sees e.1 (.svc { train with d := .s 4, a := .s 2, b := .imm 3 }) fun c t => c.on &&
      (takeToken (performEarlier t 0) c.tr).any fun q =>
        let u := svcUser c.tr
        match unitXl q.2 u.part u.asid u.priv .load 0x8000 64 with
        | .mem pa => (ringReg? q.2 pa).any fun r => 64 ≤ r.ssize &&
          (let d := ringAt q.2 u pa (.acq 1)
           if e.2 then d.2 = Rc.full else !d.2.getLsbD 63 && d.1.svcGen = q.2.svcGen
             && (unitWrite d.1 u (r.slotVa d.2.toNat) (requestRecord q.1 3 0 c.tr 0)).isSome)
        | _ => false) = true ∧
    sees (holding base [(3, 1)]) (.ctxs { train with d := .s 4, a := .s 3, b := .s 2 }) (fun c t =>
      c.on && (wg? t (wgKey (bitsAt (rdOpnd c c.x.a .n64 uniTid).toNat 0 8) 0)).isNone) = true ∧
    ([(twoGroups, false), (depot, true)].all fun e =>
      sees (modTrain e.1 0 fun t => { t with s := [(3, 0x100)] }) (.ctxs { train with d := .s 4, a := .s 3, b := .s 2 }) fun c t => c.on &&
        (wg? t (wgKey (bitsAt (rdOpnd c c.x.a .n64 uniTid).toNat 0 8) (bitsAt (rdOpnd c c.x.a .n64 uniTid).toNat 8 3))).any fun g =>
          g.part = c.tr.part && g.cls ≠ 0 && g.gang = 0 && rdOpnd c c.x.b .n64 uniTid = 0 && (depotRoom t g.part (imageSize g)).isSome == e.2) = true ∧
    ([true, false].all fun known => sees (if known then loadable else { loadable with saved := [] }) (.ctxl { train with d := .s 4, a := .s 2, b := .s 3 }) fun c t =>
      let va := rdOpnd c c.x.a .n64 uniTid
      let image := fun (s : State) (size : Nat) => Saved.img s ((imagePlaces s c.tr.part c.tr.asid .load va size).getD [])
      c.on && match access t c.tr .store va 1 with
      | (s1, .mem _) => (match access s1 c.tr .load va 1 with
        | (s2, .mem _) =>
          let head := image s2 64
          let size := imageSize (foreignWg s2 head).2.2
          bitsAt (Img.getN head 0 8) 8 1 = 1 && bitsAt (Img.getN head 0 8) 0 8 = 1 && bitsAt (Img.getN head 0 8) 10 1 = 0
            && bitsAt (Img.getN head 0x10 8) 28 6 = c.tr.part && bitsAt (Img.getN head 0x10 8) 34 16 = (Tab.read 0 s2.agens 1).toNat
            && (match withImage c .load va (fun s => .done s {}) (imageChunks va size) s2 with
              | .done s3 _ => (match savedOfImage s3 (image s3 size) with
                | some e => known && imageCore s3 e.2 1 = some 1 && (imagePlaces s3 c.tr.part c.tr.asid .load va e.2.size).isSome
                | none =>
                  let f := foreignSaved s3 (image s3 size)
                  !known && imageCore f.1 f.2 1 = some 1 && (imagePlaces f.1 c.tr.part c.tr.asid .load va f.2.size).isSome)
              | _ => false)
        | _ => false)
      | _ => false) = true := by decide +kernel

/-- A launch of class 1 and PRIO 3 that wants the whole scratchpad of core 0. -/
def rival : Launch := { asid := 1, hdr := (header.set 7 0x321).set 8 0x4000000401, left := [0] }
/-- The small workgroup's partition has a rival launch. -/
def contested (f : Wg → Wg) : State := modWg { depot with launches := [(0, { asid := 1 }), (8, rival)] } 1 fun g => f { g with cls := 2 }
def smallFault : FaultEnt := { va := 0x40000000, asid := 1, part := 0, kind := 0, core := 0, slot := 0, pc := 0x4000, links := 1, pte := 0x20008 }

theorem witness_SystemEventsAct :
    (selectedFault { base with faults := [(0, smallFault)] } 0).any (fun e => e.2.op = none) = true ∧
    Tab.get? ({ base with faults := [(0, smallFault)] } : State).faults 0 = some smallFault ∧
    (let s := withTrain fun t => { t with tq := [{ kind := 5, async := true }], block := some (.tfetch 1) }
     (train? s 0).any fun t => !t.intrap && !t.tq.isEmpty && chainBoundary s t && interruptible s t) = true ∧
    (train? base 0).any (fun t => !canSuspend base t) = true ∧
    (let t : Train := { placeTrain with uid := 8, slot := 1, act := some { line := 0, gen := 0, wakes := [] } }
     let s := { base with savedActs := [(9, t)] }
     Tab.get? s.saved 9 = none ∧ freeTrainSlots s 0 ≠ [] ∧ actCluster t = some 0 ∧ 1 ≤ (available s none 0).trains ∧
       4 ≤ (available s none 0).grans ∧ killedSaved t = false) ∧
    (let s := contested id
     together s 1 = [1] ∧ reasonOf s [1] = some .any ∧ canDrain s [1] = true ∧ (wg? s 1).all (·.drain.isNone) = true) ∧
    (let s := { contested fun g => { g with drain := some 0 } with clk := 0x10001 }
     reasonOf s [1] = some .any ∧ drainOver s [1] = true) ∧
    (let s := modTrain (contested fun g => { g with idem := true }) 1 fun t => { t with gotEnd := false }
     reasonOf s [1] = some .any ∧ atBoundary s [1] = true ∧ mustFinish s 1 = false ∧ methodFor s [1] .any = .flush) ∧
    (let s := modLaunch depot 0 fun l => { l with halted := true }
     reasonOf s (together s 1) = some .saveOnly ∧ atBoundary s (together s 1) = true ∧ mustFinish s 1 = false ∧
       methodFor s (together s 1) .saveOnly = .save) ∧
    (let sv : Saved := { wg := { placeWorkgroup with vgran := 1, sgran := 1, pad := 0, cls := 2 }, trains := [], image := 0x100000, size := 0x800 }
     coreTakes base sv 1 = true ∧ firstServed base sv 1 = false) ∧
    (let s := { contested id with launches := [(0, { asid := 1 }), (8, { rival with hdr := rival.hdr.set 7 0x326 })] }
     (wg? s 1).any fun g => gangWants s g && (depotRoom s g.part (imageSize g)).isSome && !mustFinish s 1 && atBoundary s [1]
       && (available s none 4).fits { deep := false, trains := g.ntrains, grans := g.ntrains * g.vgran, pad := g.pad, banks := g.used.length + g.resv }
       && (saveToDepot s 1).saved.any fun e => e.2.wg.uid = g.uid) = true ∧
    ([false, true].all fun kill => resetAsked { base with super := { resets := [(0, kill)] } } 0 kill) = true := by decide +kernel

/-! ### Host and fabric -/

/-- A packet selected in the lane of partition 0, whose user queue has ASID 1. -/
def packet (words : List Dword) : State :=
  modPart base 0 fun p => { p with userQ := { asid := 1 }, lane := { packet := some { sup := false, addr := 0, words := words } } }
def pk (words : List Dword) : Packet := { sup := false, addr := 0, words := words }

theorem witness_HostAccessesAndPacketsAct :
    ([(1, [1, 0x8000, 7]), (2, [2, 0x8000, 0, 1]), (3, [3]), (4, [4, 0x8000]), (5, [5, 0, 0x8000, 0xFF, 0x9000]), (5, [5, 1, 0x100000000, 0, 0x9000]),
      (6, [6, 0x8000]), (7, [7])].all fun (e : Nat × List Dword) => turnOf (packet e.2) 0 e.1 = some (pk e.2)) = true ∧
    unitAccess (packet []) 0 1 false .store 0x8000 8 = .mem 0x8000 ∧ queueBusy (packet [3]) 0 false = false ∧
    engineFull (packet []) 0 = false ∧ laneAsid (packet []) 0 (pk []) = 1 ∧
    (lineOf { packet [] with lines := [(0, countLine 0)] } { part := 0, asid := 1 } 0x100000000).isSome = true ∧
    asidOwned base 0 (selectedAsid (modPart base 0 fun p => { p with asidsel := 1 }) 0) = true := by decide +kernel

theorem witness_FabricAndPowerEventsAct :
    (let s := { withTrain fun t => { t with block := some (.remote [6]) } with remote := [(6, { uid := 1, tid := 0, module := 1, pa := 0, op := .read 4 })] }
     (trainByUid s 1).any fun e => awaits e.2 6) = true ∧
    (let s := { joined { threeJoin with state := 2, remote := true } with super := { resume := 5 } }
     (Tab.get? s.joins 0).any fun jn => jn.remote && s.super.ftime < s.super.resume) = true ∧
    (let s := joined { threeJoin with state := 2, proxy := true }
     (Tab.get? s.joins 0).any fun jn => jn.state ≠ 1 && !jn.awake && s.super.resume ≤ s.super.ftime) = true ∧
    (reachable base 0x8000 && reachable base (0x8000 + remoteSize (.read 64) - 1)) = true ∧
    base.super.resume ≤ base.super.ftime ∧ base.staggered = false ∧ retraining base 0 < 4 ∧ (waveAt base 0 0).retraining = false ∧
    base.super.attAddr.toNat + 256 ≤ nearEnd := by decide +kernel

theorem witness_FabricAndPowerEventsAct_routes : (newRoutes State.reset 0).isSome = true := by decide +kernel

/-! ### Issue, traps, translation, steps -/

/-- What `sees` shows is an instruction that is well formed and ready. -/
theorem sees_ready (s : State) (i : Instr) (p : Ctx → State → Bool) (h : sees s i p = true) (hc : s.current = some 0) :
    ∃ opc m x c t, i.form = some (opc, m, x) ∧ WellFormed i ∧ Ready i x s 0 c t ∧ p c t = true := by
  unfold sees at h
  rw [Bool.and_eq_true] at h
  obtain ⟨hw, h⟩ := h
  split at h
  · rename_i opc m x tr hf ht
    split at h
    · rename_i c t hg
      rw [Bool.and_eq_true] at h
      exact ⟨opc, m, x, c, t, hf, hw, ⟨hc, tr, ht, hg⟩, h.2⟩
    · cases h
  · cases h

theorem witness_ACompletionLeavesItsResults : (train? base 0).isSome = true ∧ DstFits (.v 4) [0, 63] :=
  ⟨by decide +kernel, by simp [DstFits]⟩

theorem witness_NothingElseHoldsAnInstructionBack : base.current = some 0 ∧ (let i := Instr.add vv .s32 false
    issueCheck placeTrain i vv = none ∧ markedSource placeTrain i vv = none ∧ owedResult placeTrain i vv = false ∧ placeTrain.loads = [] ∧ train? base 0 = some placeTrain) := by
  decide +kernel

theorem witness_FailingChecksTrapInTheirOrder :
    isPrivileged (.eret train) = true ∧ beyondDeclared { placeTrain with vgran := 0 } vv = true ∧
    beyondDeclared { placeTrain with chain := { len := 1, terminal := true } } { vv with a := .b 0 } = false ∧
    breaksChain { placeTrain with chain := { len := 1, terminal := true } } (.add { vv with a := .b 0 } .s32 false) { vv with a := .b 0 } = true := by
  decide +kernel

theorem witness_PrivilegedInstructionsTrapInUserTrains :
    (Instr.eret train).form = some (0xF9, 0, train) ∧ isPrivileged (.eret train) = true ∧
    (match decode (encodeBytes (.eret train)) with | .ok (i, []) => i = .eret train | _ => false) = true ∧
    (regInfo 0x40).any (fun r => r.read ≠ .user) = true ∧
    sees (withTrain fun t => { t with priv := false }) (.mfsr { train with d := .s 4, a := .imm 0x40 }) (fun c _ =>
      c.on && match regCheck c (sysNumber c) (·.read) with | .error _ => true | _ => false) = true := by decide +kernel

theorem witness_ChainsFollowTheLatches : (Instr.add { vv with a := .b 0 } .s32 false).form.isSome = true ∧
    namesLatch { vv with a := .b 0 } = true ∧ namesLatch vv = false := by decide +kernel

theorem witness_AnExactTrapEntersTheHandler : placeTrain.intrap = false ∧ placeTrain.tq = [] ∧ ({ kind := 1 } : TrapRec).async = false ∧
    (launch? base 0).any (·.ffault.isNone) = true := by decide +kernel

theorem witness_TrapRecordsNameTheirThreadsAndResumePoint : loggedCause { kind := 1 } = false ∧ loggedCause { kind := 4, cause := 1 } = true ∧
    ownedBy base 0 (0x100000 + 32 * (0 % 2 ^ 4)) = true := by decide +kernel

theorem witness_EretRestoresWhatWasSaved :
    sees (withTrain fun t => { t with g := 1 }) (.eret { train with kg := 3 }) (fun c _ => !c.on) = true ∧
    sees base (.eret train) (fun c _ => c.on && !c.tr.intrap) = true ∧
    ([[{ kind := 1 }], [{ kind := 1 }, { kind := 8, async := true }]].all fun (q : List TrapRec) =>
      sees (withTrain fun t => { t with intrap := true, tq := q }) (.eret train) fun c _ =>
        c.on && c.tr.intrap && !c.tr.tq.isEmpty && tids.all fun l => Tab.read 0 c.tr.xstate l = 0) = true ∧
    ([[{ kind := 1 }], [{ kind := 1 }, { kind := 8, async := true }]].all fun (q : List TrapRec) =>
      let s := withTrain fun t => { t with intrap := true, tq := q, xstate := [(0, 2)] }
      sees s (.eret train) (fun c _ =>
        c.on && c.tr.intrap && !c.tr.tq.isEmpty && !c.tr.xbar.getLsbD 0 && c.tr.wg = some 0 && tids.all fun l => Tab.read 0 c.tr.xstate l ≠ 4)
      && (train? (settleBarriers (touchBarriers s 0) 0) 0).isSome) = true := by decide +kernel

theorem witness_AccessesReachMemoryWhereEveryCheckPasses :
    checkLeaf base 0 true .store 0x8000 8 { asid := 1, page := 0, size := 2 ^ 30, leaf := 0x1F, owner := 0x40 } = .mem 0x8000 ∧
    (let s := { base with super := { base.super with limp := false, fabReady := true } }
     checkLeaf s 0 true .store 0x8000 8 { asid := 1, page := 0, size := 2 ^ 30, leaf := 0x20000000001F ||| 0xC0 } = .remote 1 0x8000 ∧
     checkLeaf s 0 true .store 0x8000 8 { asid := 1, page := 0, size := 2 ^ 30, leaf := 0xDF, owner := 0x45 } = .bad 2 ∧
     checkLeaf { s with mute := [1] } 0 true .store 0x8000 8 { asid := 1, page := 0, size := 2 ^ 30, leaf := 0x20000000001F ||| 0xC0 } = .bad 6) ∧
    canonicalVa 0x0080000000000000 = false ∧ inMem (access base placeTrain .load 0x8000 4).2 = true ∧
    (let a1 := placeRoot + 8 * bitsAt 0x8000 43 13
     let e1 := readMem base a1 8
     let e2 := readMem base (entryAddr e1 + 8 * bitsAt 0x8000 30 13) 8
     (Tab.read 0 base.roots 1).getLsbD 0 = true ∧ reachable base a1 = true ∧ e1 % 2 = 1 ∧ bitsAt e1 1 1 = 0 ∧ bitsAt e1 45 19 = 0 ∧
       entryAddr e1 % 2 ^ 16 = 0 ∧ e2 % 2 = 1 ∧ bitsAt e2 1 1 = 1 ∧ entryAddr e2 % 2 ^ 30 = 0 ∧ bitsAt e2 45 19 = 0) ∧
    (readMem pair (placeTable + 16) 8 % 2 = 0 ∧ readMem pair (placeRoot + 8) 8 % 2 = 0 ∧
      (let e := readMem { pair with mem := Tab.writeList 0 pair.mem (placeRoot + 8) [3] } (placeRoot + 8) 8; e % 2 = 1 ∧ bitsAt e 1 1 = 1)) := by
  decide +kernel

theorem witness_TranslationFaultsPark : base.faults = [] ∧ Tab.firstFree base.faults 1024 0 = some 0 := by decide +kernel

theorem witness_ViolatingThreadsLoadZeroAndTrapAfterwards :
    sees base (.ld { lane with d := .v 4, a := .s 2, b := .v 6, c := .imm 1 } .s32 2) (fun c t => extOrder c.x ≠ 1 && c.tr.loads.length < 16 &&
      match translateAll t c.tr .load 4 (c.lanes.map fun l => (l, globalAddr c 2 true l)) with
      | (_, .ok l) => l.all fun e => match e.2.2 with | .bad _ => true | _ => false
      | _ => false) = true ∧
    sees base (.st { lane with a := .s 2, b := .imm 1, c := .v 4 } .s32 0) (fun c t => extOrder c.x ≠ 2 &&
      match translateAll t c.tr .store 4 (c.lanes.map fun l => (l, globalAddr c 0 false l)) with
      | (_, .ok l) => l.all fun e => match e.2.2 with | .bad _ => true | _ => false
      | _ => false) = true := by decide +kernel

theorem witness_AStepRunsTheDecodedInstruction :
    (let s := placeFetch State.reset ((encodeNat (.add vv .s32 false)).getD 0)
     let s0 := { overdue s with agenda := [] }
     (overdue s).agenda = [.issue 0] ∧ train? s0 0 = some placeTrain ∧ pipeChoice s0 (pipeOfKey 0) = some 0 ∧
     (let s1 := issueState s0 0 placeTrain
      (train? s1 0).any fun tr => dueAside tr = none && tr.pc.toNat % 4 = 0 &&
        (let s2 := (access s1 tr .fetch tr.pc 0).1
         match fetchPlace s2 tr tr.pc with
         | .mem pa => (lineAt s2 tr (pa / 256)).any fun r => match fetchChecks tr.priv tr.pc (lineWindow r.1 pa) with
           | .ok i => i = .add vv .s32 false
           | _ => false
         | _ => false)) = true) ∧
    (dueAside { placeTrain with asides := [{ pc := placeTrain.pc, block := some (.svcReply 0) }] }).isSome = true := by decide +kernel

theorem witness_DecodingAnEncodingGivesTheInstruction : WellFormed (.add vv .s32 false) ∧ (Instr.add vv .s32 false).form.isSome = true := by decide +kernel

theorem witness_EveryStepKeepsTheMachineInForm :
    Between { State.reset with agenda := [.elapse 3] } ∧
    (match step { State.reset with agenda := [.elapse 3] } with | .next t => t.clk = 4 | _ => false) = true :=
  ⟨⟨by decide, rfl⟩, by decide +kernel⟩

theorem witness_CountingInstructionsCount : (255 : Nat) < 2 ^ 8 ∧ (0 : Nat) < 2 ^ 8 ∧ (511 : Nat) < 2 ^ (8 + 1) := by decide

theorem witness_ExactIntegersWrapOrSaturate : Ty.s8.isInt = true ∧ (-129 : Int) < minOf .s8 ∧ maxOf .s8 < (128 : Int) ∧
    minOf .s8 ≤ (-128 : Int) ∧ (-128 : Int) ≤ maxOf .s8 := by decide

theorem witness_DivisionTruncatesTowardZero :
    opens base [.div vv .s32 true, .rem vv .n8] = true ∧ (wg? base 0).isSome = true ∧
    minOf .s32 ≤ (-2147483648 : Int) ∧ Ty.s32.signed = true ∧ minOf .s32 = -2147483648 ∧ (-1 : Int) ≤ maxOf .s32 ∧ (0 : Int) ≤ maxOf .s32 := by
  decide +kernel

theorem witness_LongOperationsPendAndTheirResultCompletes_end :
    (let s := withTrain fun t => { t with long := some { instr := .div vv .s32 true, x := vv, wide := false, vals := [(0, 5)], flags := 0, slots := [] } }
     (train? s 0).any fun t => t.long.any fun l => l.vals = [0].map fun t => (t, 5)) = true := by decide +kernel

theorem witness_SelectionTakesTheLowestPc : (eligible placeTrain).getLsbD 63 = true := by decide +kernel

theorem witness_DecodedInstructionsAreWellFormed :
    (match decode (encodeBytes (.add vv .s32 false) ++ [7]) with | .ok (_, [7]) => true | _ => false) = true := by decide +kernel

theorem witness_AReleasePerformsEveryEarlierAccess : train? busyState 0 = some busy := by decide +kernel

theorem witness_LongOperationsPendAndTheirResultCompletes_ulps :
    let y : Ex := ⟨false, 3, -4, true⟩
    y.mant ≠ 0 ∧ ∃ c, decodeFmt (fmtOf .f32) (approxRound (fmtOf .f32) .rcp Ty.f32.code 0x3F800001 y).code = .fin c := by
  refine ⟨by decide, ?_⟩
  unfold approxRound
  generalize Config.approxStep _ _ _ = k
  have hr : ∃ c, decodeFmt (fmtOf .f32) (roundEx (fmtOf .f32) .rn false ⟨false, 3, -4, true⟩).code = .fin c := ⟨_, rfl⟩
  dsimp only
  split
  · rename_i c hc
    split
    · rename_i h
      have h2 := h.2
      unfold withinUlps at h2
      split at h2
      · exact ⟨_, by assumption⟩
      · cases h2
    · exact hr
  · exact hr

theorem witness_JoinInstructionsAndEventsAct_messages :
    sees (joined { threeJoin with proxy := true, home := 2 }) (.jarr { train with d := .s 4, a := .s 6, b := .imm 1 }) (fun c t =>
      c.on && match arriveAt (performEarlier t 0) c.tr.part c.tr.uid c.tr.kpc.isSome (rdOpnd c c.x.a .b32 uniTid).toNat
          (lowWord (src c .b .f32 uniTid)) with
        | .sent _ j => j = 0
        | _ => false) = true ∧
    (train? (withTrain fun t => { t with homes := [{ slot := 0, reg := some 4, rest := none }] }) 0).any (fun t => t.homes ≠ []) = true ∧
    (Tab.get? (joined threeJoin).joins 0).any (fun jn => jn.state = 1 && (Tab.read 0 (joined threeJoin).joinGen 0).toNat = 0) = true ∧
    (let s := joined { threeJoin with contribs := [{ uid := 1, state := .fallen }] }
     (Tab.get? s.joins 0).any fun jn => !jn.proxy && jn.contribs.any fun c => c.uid = 1 && c.state = .fallen) = true ∧
    (let s := joined { threeJoin with proxy := true }
     unitAccess (modJoin (markStragglers s 0 0) 0 fun jn => { jn with state := 2, status := 2 }) 0 1 false .store 0x8006 2 = .mem 0x8006) := by
  decide +kernel

theorem witness_AtomicsActOnTheirPlacesInTidOrder_released :
    sees (joined { threeJoin with state := 2 }) (.faccTagged { lane with a := .s 2, b := .v 6, c := .s 6 }) (fun c t =>
      c.on && near (translateAll t c.tr .store 16 (c.lanes.map fun l => (l, atomicGlobal c l)))
        && ((joinSlot t c.tr.part (rdOpnd c c.x.c .b32 uniTid).toNat).bind (Tab.get? t.joins)).any (·.state ≠ 1)) = true ∧
    sees (modTrain (modPart (joined threeJoin) 0 fun p => { p with stagesz := 0x1000 }) 0 fun t => { t with s := [(2, 0xB000)] }) (.faccTagged { lane with a := .s 2, b := .v 6, c := .s 6 }) (fun c t =>
      c.on && (match stageAll 0 c.tr.uid (fun t => (addend c t).1) (c.lanes.map fun l => (l, atomicGlobal c l, .mem (atomicGlobal c l).toNat))
          (enrol t 0 c.tr.uid) with
        | some (_, []) => true
        | _ => false)) = true := by decide +kernel

theorem witness_EngineInstructionsAndOperationsAct_ends :
    (Tab.get? base.lines 0).isNone = true ∧
    (let s := { base with futures := [(5, { asid := 1, status := some 9, op := 7, line := some (0, 0) })] }
     (Tab.get? s.futures 5).any fun f => f.status.isSome && f.line = some (0, 0)) = true ∧
    (let o := { follows (.d8) with state := .running }
     o.follows = true ∧ o.total ≤ o.pieces.length) ∧
    (Tab.get? (withOp (op .pyr .running [0x8000, 0, 0x9000])).ops 9).any (fun o => !outlived base o) = true ∧
    requestsOf pair (· = 1) = [] := by decide +kernel

/-- A request of the train of slot 0 to module 1. -/
def asked : State := { withTrain id with remote := [(6, { uid := 1, tid := 0, module := 1, pa := 0x8000, op := .read 4 })] }

theorem witness_SystemInstructionsAct_waits :
    ([.tlbiPage { train with a := .s 2 }, .tlbiAsid train, .tlbiPart train].all fun i => sees asked i fun c t =>
      c.on && !foreignAsid t c.tr.part (tlbiTarget c) && requestsOf t (fun a => a = 1) = [6]
        && requestsOf t (asidOwned t c.tr.part) = [6]) = true := by decide +kernel

theorem witness_HostAccessesAndPacketsAct_close :
    (let s := modPart (packet [5, 1, 0x100000000, 0, 0x9000]) 0 fun q => { q with lane := { q.lane with hold := some (.lclose 0 0) } }
     (partAt s 0).lane.packet = some (pk [5, 1, 0x100000000, 0, 0x9000]) ∧ (Tab.get? s.lines 0).isNone = true ∧
     unitAccess s 0 1 false .store 0x9000 8 = .mem 0x9000) ∧
    (packet [5, 1]).parts.all (fun e => e.2.lane.result = none) = true ∧
    (let s := modPart (packet [2, 0x8000, 0, 1]) 0 fun q => { q with lane := { q.lane with hold := some (.waitv 0) } }
     (readMem s 0x8000 8 = 0) ∧ (partAt s 0).lane.hold = some (.waitv 0)) := by decide +kernel

theorem witness_FabricAndPowerEventsAct_messages :
    (trainByUid asked 9 = none) ∧ discards base (pmapByte base 0x8000 % 64) 1 none = false ∧
    discards { base with routes := (List.range 128).map fun i => (i, 2) } (pmapByte base 0x8000 % 64) 1 none = true ∧
    (coordsOf base.moduleNo.toNat).getD 1 0 ≠ (coordsOf 0x60).getD 1 0 ∧ (coordsOf base.moduleNo.toNat).getD 0 0 = (coordsOf 0x60).getD 0 0 ∧
    (let h : FabHeader := { cls := .coll, part := 0, source := 5, dest := 0x60, hop := some { dim := 0, minus := true, channel := 0 } }
     discards base h.part h.dest h.hop = false ∧ discards { base with routes := [(35, 2)] } h.part h.dest h.hop = true ∧
     discards { base with lone := 4 } h.part h.dest h.hop = true ∧ (nextHop base h.part h.dest h.hop).isSome = true) := by decide +kernel

theorem witness_JoinInstructionsAndEventsAct_slots :
    ([CState.arrived, CState.enrolled].all fun st => (Tab.get? (joined { threeJoin with state := 2, contribs := [{ uid := 1, state := st }] }).joins 0).any
      fun jn => jn.state ≠ 1 && jn.contribs.all fun c => c.state = st) = true ∧
    (Tab.get? (joined threeJoin).joins 0).any (fun jn => jn.part = 0) = true := by decide +kernel

theorem witness_FabricAndPowerEventsAct_waiters :
    ({ base with wakes := [{ slot := 0, gen := 0, status := 2 }] } : State).wakes ≠ [] := by decide +kernel

/-- The page of the train lies in module 1. -/
def far : State := { base with
  mem := Tab.writeList 0 base.mem placeTable [0xDF, 0, 0, 0, 0, 0x20, 0, 0], super := { base.super with limp := false, fabReady := true } }

theorem witness_GlobalAccessesReachTheirPlaces_remote :
    sees far (.st { lane with a := .s 2, c := .v 3 } .b32 0) (fun c t =>
      match translateAll t c.tr .store 4 (c.lanes.map fun l => (l, 0x8000)) with
      | (s1, .ok l) => (askRemote s1 0 (fun _ => .write [0, 0, 0, 0]) (remotePlaces l)).any fun q => q.2.length = 64
      | _ => false) = true ∧
    (let c := train? (withTrain fun t =>
        { t with access := some { instr := .pref lane 0, pc := 0x4000, latches := {}, chain := {}, places := [(0, 0x8000, .mem 0x8000)] } }) 0
     c.any (·.access.isSome)) = true := by decide +kernel

theorem witness_TagAndTileInstructionsUseTheirTables_engine :
    sees (modWg tiled 0 fun g => setTile g 1 { tileOf g 1 with engine := true }) (.tst { train with a := .t 1, b := .imm 2 })
      (fun c t => c.on && (wgOf t c.tr).any fun g => (tileOf g 1).engine) = true := by decide

theorem witness_WindowInstructionsActOnLinesAndActivations_wide :
    let wide : Line := { countLine 0 with desc := (countLine 0).desc.set 0 0x400001020, wins := [(7, { key := 5, index := 0 })] }
    let s := modTrain (withLine wide) 0 fun t => { t with act := some { line := 0, gen := 0, wakes := [(0, 7, { kind := .close })] }, selected := 1 }
    keyIsWide s = true ∧ sees s (.wkey { lane with d := .v 1 }) (fun c _ => oddRegister c.x.d) = true ∧
    sees s (.wkey { lane with d := .v 2 }) (fun c t => theAct c t fun _ ln => ln.kwide && !oddRegister c.x.d) = true := by decide +kernel

/-- All 4096 entries of the service table, held by another train. -/
def noTokens : Tab Service := (List.range 4096).map fun i => (i, { part := 0, uid := 7 })

theorem get?_noTokens (l : List Nat) (k : Nat) (h : k ∈ l) :
    Tab.get? (l.map fun i => (i, ({ part := 0, uid := 7 } : Service))) k ≠ none := by
  induction l with
  | nil => cases h
  | cons a l ih =>
    simp only [List.map_cons, Tab.get?]
    split
    · simp
    · exact ih ((List.mem_cons.1 h).resolve_left ‹_›)

theorem noTokens_full (fuel n : Nat) (h : n + fuel ≤ 4096) : Tab.firstFree noTokens fuel n = none := by
  induction fuel generalizing n with
  | zero => rfl
  | succ f ih =>
    have := get?_noTokens (List.range 4096) n (List.mem_range.2 (by omega))
    simp only [Tab.firstFree]
    rw [if_neg (by simpa [noTokens] using this), ih (n + 1) (by omega)]

theorem witness_SystemInstructionsAct_tokens :
    sees { base with services := noTokens } (.svc { train with d := .s 4, a := .s 2, b := .imm 3 })
      (fun c t => c.on && (takeToken (performEarlier t 0) c.tr).isNone) = true := by
  have seen : ∀ tb : Tab Service, sees { base with services := tb } (.svc { train with d := .s 4, a := .s 2, b := .imm 3 })
      (fun c t => c.on && (takeToken (performEarlier t 0) c.tr).isNone) = (takeToken { base with services := tb } placeTrain).isNone :=
    fun _ => rfl
  have held : heldToken { base with services := noTokens } placeTrain.uid = none := by
    simp only [heldToken, noTokens, Option.map_eq_none_iff, List.find?_eq_none, List.mem_map]
    rintro e ⟨i, -, rfl⟩
    simp [placeTrain]
  rw [seen, takeToken, held]
  simp only [noTokens_full 4096 0 (by omega)]
  rfl
theorem witness_NothingElseHoldsAnInstructionBack_guard :
    (let tr := { placeTrain with marks := [(2, .pending 9)] }
     let x := { train with d := .s 4, a := .s 2, b := .imm 1, kg := 1 }
     (pendingMark tr 2).isSome && markedSource tr (.add x .s32 false) { x with kg := 0 } == some 2 && execMask tr x = 0) = true := by
  decide +kernel

/-! ## Single steps: the values are the spec's, or worked out by hand from its formulas -/

/-- Threads 0 and 1 of the train in slot 0 run, with these `v` registers (64 × number + thread). -/
def two (v : Tab Word) : State := withTrain fun t => { t with v := v, selected := 3, exited := ~~~3 }
/-- The train, and the state, after an instruction. -/
def after (i : Instr) (s : State) (p : Train → State → Bool) : Bool :=
  match exec i s with
  | .next t => (train? t 0).any fun tr => p tr t
  | _ => false
/-- What `v4` of thread 0 and the flags become. -/
def gives (i : Instr) (a b : Word) (r : Word) (fl : FlagSet) : Bool :=
  after i (two [(64, a), (128, b)]) fun t _ => rdV t 4 0 = r && t.flags = fl && t.pc = 0x4008
/-- The pending result of thread 0 and the flags of a long operation. -/
def pends (i : Instr) (a b r : Word) (fl : FlagSet) : Bool :=
  after i (two [(64, a), (128, b), (129, b)]) fun t _ => t.long.any fun l => (l.vals.head?.any fun e => e.1 = 0 && lowWord e.2 = r) && l.flags = fl

/-- R104: 2³¹ − 1 + 1 wraps, and saturates with IOV. -/
theorem test_add_wraps : gives (.add vv .s32 false) 0x7FFFFFFF 1 0x80000000 0 = true := by decide +kernel
theorem test_add_saturates : gives (.add vv .s32 true) 0x7FFFFFFF 1 0x7FFFFFFF Fl.iov = true := by decide +kernel
/-- R104, R42: |−128| is 128, which wraps to −128 and is sign-extended. -/
theorem test_abs_of_minimum : gives (.abs v .s8 false) 0x80 0 0xFFFFFF80 0 = true := by decide +kernel
/-- R104: floor(−1 × 1 / 2³²) = −1. -/
theorem test_mulhi_of_negative : gives (.mulhi vv .s32) 0xFFFFFFFF 1 0xFFFFFFFF 0 = true := by decide +kernel
/-- R104: a shift of the width or more gives 0. -/
theorem test_shl_by_width : gives (.shl vv .n32) 1 32 0 0 = true := by decide +kernel
/-- R105: −7 / 2 = −3, remainder −1. -/
theorem test_div_truncates : pends (.div vv .s32 false) 0xFFFFFFF9 2 0xFFFFFFFD 0 = true := by decide +kernel
theorem test_rem_has_sign_of_dividend : pends (.rem vv .s32) 0xFFFFFFF9 2 0xFFFFFFFF 0 = true := by decide +kernel
/-- R105: 5 / 0 is the maximum, with DZ. -/
theorem test_div_by_zero : pends (.div vv .n16 false) 5 0 0xFFFF Fl.dz = true := by decide +kernel
/-- 1.5 × 2 = 3, and 2¹⁰⁰ × 2¹⁰⁰ overflows to +∞ with OVF and INX (R76). -/
theorem test_fmul : gives (.fmul vv .f32 .rn plain) 0x3FC00000 0x40000000 0x40400000 0 = true := by decide +kernel
theorem test_fmul_overflow : gives (.fmul vv .f32 .rn plain) 0x71800000 0x71800000 0x7F800000 (Fl.ovf ||| Fl.inx) = true := by
  decide +kernel
/-- R82: the cells of +1.5, −1.5 and −2⁻⁷⁰. -/
theorem test_cells : (floatToCell (decodeFmt .f32 0x3FC00000)).1 = 0x18000000000000000 ∧
    (floatToCell (decodeFmt .f32 0xBFC00000)).1 = 0xFFFFFFFFFFFFFFFE8000000000000000 ∧
    (floatToCell (decodeFmt .f32 0x9C800000)).1 = 0 := by decide +kernel
/-- R84: element 3 of a row of `.h4` stands in the low half of byte 3, element 515 in its high half. -/
theorem test_h4_row : (rowElems .h4 ((List.replicate 512 (0 : Byte)).set 3 0x0A))[3]? = some 10 ∧
    (rowElems .h4 ((List.replicate 512 (0 : Byte)).set 3 0x0A))[515]? = some 0 := by decide +kernel
/-- R128: the ballot of `v1 ≠ 0` in thread 1 alone. -/
theorem test_vote_ballot : after (.vote { train with d := .s 6, a := .k 3 } .ballot)
    (modTrain (two []) 0 fun t => { t with k := [(3, 2)] }) (fun t _ => rdS t 6 = 2) = true := by decide +kernel

/-- R238: the queue example of the spec, its first step and its last. -/
def five : State := modWg (two []) 0 fun g =>
  [10, 11, 12, 13, 14].foldl (fun g w => push1 g 1 w) { g with qbytes := 4, queues := [(1, { bound := true, size := 4 })] }
theorem test_queue_pops : after (.add { vv with a := .q 1, b := .q 1 } .s32 false) five (fun t s =>
    rdV t 4 0 = 22 && rdV t 4 1 = 24 && (wg? s 0).any fun g => (qdesc g 1).count = 1) = true := by decide +kernel
theorem test_queue_blocks : after (.mov { train with d := .s 3, a := .q 1 } .n64)
    (modWg five 0 fun g => (List.range 4).foldl (fun g _ => (pop1 g 1).2) g) (fun t _ => t.block.isSome && rdS t 3 = 0) = true := by
  decide +kernel

/-- R309: NF = 2, W0 = 2, W1 = 3, COUNT = 18: level 1 grants 0, 4, 8, 12, 16, END. -/
theorem test_grants :
    (let l0 : Launch := { hdr := [0, 0, 2 + 6 * 2 ^ 5 + 2 ^ 37, 18] }
     let l1 := (l0.draw 0 1).2
     let l2 := (l1.draw 0 1).2
     let l5 := ((l2.draw 0 1).2.draw 0 1).2
     ((l0.draw 0 1).1, (l1.draw 0 1).1, (l2.draw 0 1).1, (l5.draw 0 1).1, ((l5.draw 0 1).2.draw 0 1).1)) = (0, 4, 8, 16, endGrant) := by
  decide +kernel

/-- R243: with 7 of 8 slots behind TAIL, two slots are reserved from slot 8, and slot 7 is skipped. -/
theorem test_racq_skips_at_the_end : after (.racq { train with d := .s 4, a := .s 2, b := .imm 2 } .dv) (ring 7 7 7) (fun t s =>
    rdS t 4 = 8 && readMem s 0x8018 8 = 10 && slotState (BitVec.ofNat 16 (readMem s 0xA00E 2)) = slotSkip
      && slotState (BitVec.ofNat 16 (readMem s 0xA000 2)) = slotReserved) = true := by decide +kernel

/-- R223: two threads add 5 to one word, in ascending tid. -/
theorem test_atom_in_tid_order : after (.atom { lane with d := .v 5, a := .s 2, b := .imm 5 } .n32 .add)
    (holding (two []) [(2, 0x8000)]) (fun t s => rdV t 5 0 = 0 && rdV t 5 1 = 5 && readMem s 0x8000 4 = 10) = true := by decide +kernel

/-- R254, R255: `bra` jumps by 4 × 6 bytes where the guard holds; `call` writes the address of the next instruction. -/
theorem test_bra : after (.bra { lane with kg := 1, a := .imm 6 })
    (modTrain (two []) 0 fun t => { t with k := [(1, 2)] }) (fun t _ => pcOf t 0 = 0x4008 && pcOf t 1 = 0x4018 && t.selected = 1) = true := by
  decide +kernel
theorem test_call : after (.call { train with d := .s 30, a := .imm 2 }) (two []) (fun t _ => rdS t 30 = 0x4008 && t.pc = 0x4008) = true := by
  decide +kernel
/-- R257: a barrier that the only train reaches with its live threads releases them behind it. -/
theorem test_bar : after (.bar lane) (two []) (fun t _ => t.heldBar = 0 && t.selected = 3 && t.pc = 0x4008) = true := by decide +kernel

/-- R269, R380: `trap 5` in a user train: the record's detail, the resume point, the handler and the modes. -/
def handled : State := modPart (modTrain (two []) 0 fun t => { t with priv := false }) 0 fun p => { p with tvec := 0x5000 }
theorem test_trap_enters : after (.trap { train with a := .imm 5 }) handled (fun t _ =>
    t.pc = 0x5000 && t.priv && !t.ppriv && t.intrap && Tab.read 0 t.xpc 1 = 0x4008 && t.tq.any fun r => r.detail = 5) = true := by
  decide +kernel
/-- R381: `eret` gives each thread its PC back and the train its mode. -/
theorem test_eret_returns : after (.eret train) (modTrain (two []) 0 fun t =>
    { t with intrap := true, ppriv := false, tq := [{ kind := 1 }], xpc := [(0, 0x6000), (1, 0x6004)] }) (fun t _ =>
      !t.intrap && !t.priv && t.pc = 0x6000 && t.selected = 1 && pcOf t 1 = 0x6004) = true := by decide +kernel
/-- R257, R381: the handler writes LSTATE 2 for both live threads, and the return completes their barrier: they stand behind it. -/
theorem test_eret_completes_a_barrier : after (.eret train) (modTrain (two []) 0 fun t =>
    { t with intrap := true, tq := [{ kind := 1 }], xpc := [(0, 0x6000), (1, 0x6000)], xstate := [(0, 2), (1, 2)] }) (fun t _ =>
      t.heldBar = 0 && t.pc = 0x6008 && t.selected = 3) = true := by decide +kernel
/-- R380: a barrier that completes while a held thread's train is in its handler makes the saved state deferred, behind the barrier. -/
theorem test_barrier_completes_in_a_handler :
    (let tr := deferSaved { placeTrain with intrap := true, xbar := 1, xstate := [(0, 2)], xpc := [(0, 0x6000)] } false true
     (tr.xbar, Tab.read 0 tr.xstate 0, Tab.read 0 tr.xpc 0)) = (0, 1, 0x6008) := by decide +kernel
/-- R344, R345, R347: a released home join whose one contributor has arrived frees its slot before RESUME; its waiters' word is kept. -/
theorem test_join_frees_before_resume :
    (let s := wakeJoin { joined { threeJoin with remote := true, state := 2, arrived := 1, contribs := [{ uid := 1, state := .arrived }] }
                           with super := { resume := 5 } } 0
     (Tab.get? s.joins 0).isNone && (Tab.read 0 s.joinGen 0).toNat = 1
       && s.wakes.any fun w => w.slot = 0 && w.gen = 0 && w.status.toNat % 2 ^ 24 = 2 + 2 ^ 8) = true := by decide +kernel
/-- R338, R340, R345: an arrival of another partition's train names a stale handle; the one of the join's partition is committed. -/
theorem test_foreign_arrival_is_stale :
    ([(7, Rc.stale), (0, 0)].all fun (e : Nat × Dword) =>
      let s := { joined { threeJoin with remote := true } with moduleNo := 0 }
      match exec (.homeRemoteArrival 0 { module := 1, part := e.1 } 0x3F800000 []) s with
      | .next t => match t.outbox.reverse with
        | .fabric h (.arrivalReply d) :: _ => h.dest = 1 && h.part = e.1 && d = e.2
        | _ => false
      | _ => false) = true := by decide +kernel
/-- R69: `eret` is privileged, cause 1 of kind 3, at the instruction. -/
theorem test_privilege : after (.eret train) handled (fun t _ => t.pc = 0x5000 && Tab.read 0 t.xpc 0 = 0x4000
    && t.tq.any fun r => r.kind = 3 && r.cause = 1) = true := by decide +kernel
/-- R163, R164: a misaligned load gives zero, and the trap of cause 4 follows the instruction. -/
theorem test_misaligned_load : after (.ld { lane with d := .v 4, a := .s 2, c := .imm 2 } .b32 0) (holding (two [(256, 9)]) [(2, 0x8000)])
    (fun t _ => rdV t 4 0 = 0 && t.tq.any (fun r => r.kind = 4 && r.cause = 4 && r.addr = 0x8002) && Tab.read 0 t.xpc 0 = 0x4008) = true := by
  decide +kernel
/-- R159: an address without a translation parks the train, with an entry of its cluster's fault buffer. -/
theorem test_translation_fault : after (.ld { lane with d := .v 4, a := .s 2 } .b32 0) (holding (two []) [(2, 0x40000000)])
    (fun t s => t.block.isSome && t.pc = 0x4000 && s.faults.any fun f => f.2.va = 0x40000000 && f.2.pte = 0x20008) = true := by decide +kernel
/-- R400: `mfsr` of TMODE (R407) in a privileged train of ASID 1 outside a trap. -/
-- R30: at most 1 100 W. R188, R207: a page of this module is its own memory. R229, R343: a `waita` that waits is a kill point.
theorem test_power_budget : (govern {} 2000 500).pwrNow = 1100 ∧ (govern {} 900 500).pwrNow = 900 := by decide +kernel
/-- R164, R393: a remote leaf that names this module does not reach a granule of another partition. -/
theorem test_home_page_owner :
    let t : Trans := { asid := 1, page := 0, size := 2 ^ 30, leaf := 0xDF, owner := 0x45 }
    let s := { base with super := { base.super with limp := false, fabReady := true } }
    checkLeaf s 5 true .load 0x8000 8 t = .remote 0 0x8000 ∧ checkLeaf s 0 true .load 0x8000 8 t = .bad causePart := by decide +kernel

theorem test_home_page : homeXl base (.remote 0 0x8000) = .mem 0x8000 ∧ homeXl base (.remote 1 0x8000) = .remote 1 0x8000 := by
  decide +kernel
theorem test_remote_waita_is_a_kill_point :
    atKillPoint { placeTrain with block := some (.remote [6]), atWait := some (.waita lane .n32 true) } = true ∧
    atKillPoint { placeTrain with block := some (.remote [6]) } = false := by decide +kernel
-- R266: a status word is copied, also from a register to which `mov` has brought it.
theorem test_ftest_h_copies_a_status_word : after (.ftestH { train with d := .s 4, a := .s 3 })
    { holding (two []) [(3, 0x700000000)] with futures := [(5, { asid := 1, status := some 0x700000000, op := 7 })] }
    (fun t _ => rdS t 4 = 0x700000000) = true := by decide +kernel

theorem test_mfsr_tmode : after (.mfsr { train with d := .s 4, a := .imm 1 }) (two []) (fun t _ => rdS t 4 = 0x101) = true := by decide +kernel

/-- R420, R406, R414: what the host reads after reset: STATUS with LIMP alone, the shares, SWTHR and QHEAD of partition 1. -/
theorem test_bar0_after_reset : readBar0 State.reset 0 = 1 ∧ readBar0 State.reset 0x38 = 0x010100 ∧
    readBar0 State.reset 0x118010 = 256 ∧ readBar0 State.reset 0x110020 = 0 := by decide +kernel

/-- R398: the digest of a report is SHA-256; its published value for the three bytes of "abc". -/
theorem test_digest_of_abc :
    sha256 [0x61, 0x62, 0x63] = 0xBA7816BF8F01CFEA414140DE5DAE2223B00361A396177A9CB410FF61F20015AD := by decide +kernel

/-! ## Ill-formed terms, one for each check -/

/-- The length that R37 permits, the reserved modifier, an unused field and NWB (check 7), the kind of an operand (check 9), a
reserved value of EXT64, and the ranges of the steps. -/
theorem test_ill_formed :
    ([.add { vv with ext := .ext 0 } .s32 false, .add vv .f32 false, .add vv .b32 true, .abs { v with b := .v 2 } .s32 false,
      .st { lane with nwb := true, a := .s 8, c := .v 3 } .b32 0, .ld { lane with d := .v 4, a := .v 1 } .s32 0,
      .add { vv with d := .k 2 } .s32 false, .add { vv with d := .t 2 } .s32 false, .add { vv with a := .v 1, d := .v 5 } .n64 false,
      .bar train, .eret lane, .ld { lane with d := .v 4, a := .s 2, ext := .ext 0x700000000 } .s32 0,
      .cmp { lane with d := .k 0, a := .v 1, b := .v 2 } .s32 .lt, .unpk v .d8 5,
      .longOpResult 6144, .arrayStep 192, .resolveRecord 12288, .joinCasualty 4096 0, .launchAdmit 64, .hostMemRead 0 65,
      .supervisorRegisterWrite 4 0, .flitRetransmit 120 0, .stagger 0 0 0, .futureEntryFree 1048576, .activationTrainAdmit 48,
      .migrate 1536 0].all fun (i : Instr) => !i.wellFormed) = true := by decide +kernel

/-- R262, R265: the reserved bits of a handle name no operation, so `fwait` waits for the one that the others name. -/
theorem test_fwait_reserved_bits :
    let f : Future := { asid := 1, status := none, op := 7 }
    after (.fwait { train with d := .s 4, a := .s 2 })
      { holding base [(2, futureHandle base 5 f + 0x5000000000000000)] with futures := [(5, f)] }
      (fun t _ => t.block = some (.future (futureHandle base 5 f))) = true := by decide +kernel
/-- R132, R136: an `aalloc` that stands behind an `afree` takes its banks after it, from the reservation that the `afree` refills. -/
theorem test_aalloc_takes_its_turn :
    (let s := withGroup fun g => { g with accs := [], used := [0], banks := 1, resv := 0, mq := [entry (.afree { train with d := .a 4, a := .imm 1 })] }
     after (.aalloc { train with d := .a 5, a := .imm 1 }) s fun t s =>
       (match t.block with | some (.aalloc 1 id _) => !canServe s 0 1 id | _ => false) &&
       (match execArrayStep 0 s with
        | .next u => (match execAallocBanksFree 0 u with
          | .next v => (wg? v 0).any fun g => g.used.length = 1 && g.resv = 0 && g.mq.isEmpty
          | _ => false)
        | _ => false)) = true := by decide +kernel
/-- R226: a misaligned address of an untagged `facc` is ALIGN, cause 4, in the scratchpad too. -/
theorem test_facc_scratchpad_align :
    after (.facc { lane with a := .imm 8, b := .v 6, ext := .ext 0x2000000000 }) (two [])
      (fun t _ => t.tq.any fun r => r.kind = Trap.access && r.cause = 4) = true := by decide +kernel
/-- R341: a contributor that another join killed, whose train goes on, is marked and counted in KILLS. -/
theorem test_release_marks_a_fallen_contributor :
    (Tab.get? (releaseJoin (joined { threeJoin with contribs := [{ uid := 1, state := .fallen, stage := [(0, 5)] }] }) 0 3).joins 0).any
      (fun jn => jn.kills = 1 && jn.casual = 1 && jn.contribs = [{ uid := 1, state := .marked }]) = true := by decide +kernel
/-- R424, R425, R427: module 0x60 has Y = 3; its byte of partition 0 is 35, and DIR 1 leads out of port 3. A message that comes along Y
keeps its direction. -/
theorem test_fabric_ways :
    (nextHop { base with routes := [(35, 1)] } 0 0x60 none).map Hop.port = some 3 ∧ (nextHop base 0 0x60 none).map Hop.port = some 2 ∧
    (nextHop { base with routes := [(35, 1)] } 0 0x60 (some { dim := 1, minus := false, channel := 0 })).map Hop.port = some 2 := by
  decide +kernel
/-- R155: blocks 0, 1 and 64 of the near memory, and the first of the bulk memory. -/
theorem test_slices : [0, 0x100, 0x4000, 0x10000000005].map (fun a => (sliceOf a, sliceOffset a)) = [(0, 0), (1, 0), (1, 256), (0, 5)] := by
  decide +kernel
/-- R384: an `svc` that finds the ring full keeps the token that it took. -/
theorem test_svc_keeps_its_token : after (.svc { train with d := .s 4, a := .s 2, b := .imm 3 }) crowded (fun t s =>
    (match t.block with | some (.svcRoom _) => true | _ => false) && heldToken s t.uid == some 0 && t.pc = 0x4000) = true := by decide +kernel
/-- R36: a U = 1 instruction whose guard fails does not wait for the operation that its source names. -/
theorem test_guard_before_the_mark :
    after (.add { train with d := .s 4, a := .s 2, b := .imm 1, kg := 1 } .s32 false)
      (modTrain (two []) 0 fun t => { t with marks := [(2, .pending 9)] }) (fun t _ => t.block.isNone && t.pc = 0x4008) = true ∧
    after (.add { train with d := .s 4, a := .s 2, b := .imm 1 } .s32 false)
      (modTrain (two []) 0 fun t => { t with marks := [(2, .pending 9)] }) (fun t _ => t.block.isSome && t.pc = 0x4000) = true := by decide +kernel
/-- R290: on a line with 64-bit keys an odd register of `wkey` traps, check 9 of R48, though the guard fails in every thread. -/
theorem test_wkey_odd_register :
    after (.wkey { lane with kg := 1, d := .v 1 }) (modTrain (withLine { countLine 0 with desc := (countLine 0).desc.set 0 0x400001020 }) 0 fun t =>
      { t with act := some { line := 0, gen := 0, wakes := [(0, 7, { kind := .close })] }, selected := 1 })
      (fun t _ => t.tq.any fun r => r.kind = Trap.operand && r.cause = 9) = true := by decide +kernel

end Sys2Proof.Tests
end

section
/-! PROOFS. What module reset leaves (R8, R406, R407, R414, R420, R432). -/

namespace Sys2Proof.Machine

/-- Settles O60: reset lists no byte of memory and issues no train. -/
theorem resetIsInForm : Obligations.ResetIsInForm := ⟨reset_mem_wf, rfl⟩

/-- After reset no partition has an entry of its own, so every page holds the default registers. -/
theorem partAt_reset (p : Nat) : partAt State.reset p = {} := rfl

/-- IDENT while the fabric number is 0: the silicon step alone is left open (R407). -/
theorem identWord_reset_toNat : (identWord State.reset).toNat = 26345473 + 256 * Config.siliconStep.toNat := by
  have hstep := Config.siliconStep.isLt
  rw [identWord, show State.reset.moduleNo.toNat = 0 from rfl]
  generalize Config.siliconStep.toNat = step at hstep ⊢
  rw [BitVec.toNat_ofNat, Nat.mod_eq_of_lt] <;> omega

/-- The silicon step overlaps no other field of IDENT. -/
theorem identFields (step : Nat) (hstep : step < 256) :
    bitsAt (26345473 + 256 * step) 0 8 = 1 ∧ bitsAt (26345473 + 256 * step) 16 16 = 0x0192 ∧
      bitsAt (26345473 + 256 * step) 32 19 = 0 ∧ bitsAt (26345473 + 256 * step) 51 13 = 0 := by
  unfold bitsAt
  omega

/-- Settles O54: the tables are empty, so each register reads as the default of its record; the fields of IDENT are
`identFields`. -/
theorem resetLeavesTheStatedValues : Obligations.ResetLeavesTheStatedValues := by
  unfold Obligations.ResetLeavesTheStatedValues
  refine ⟨fun p => ?_, fun asid => ⟨rfl, rfl⟩, ?_, by decide⟩
  · rw [partAt_reset]
    refine ⟨rfl, rfl, rfl, rfl, rfl, rfl, rfl, rfl, rfl, rfl, rfl, rfl, rfl, rfl, rfl, rfl, rfl, rfl, rfl, rfl, rfl, rfl,
      rfl, rfl, rfl, rfl, ?_⟩
    decide
  · rw [identWord_reset_toNat]
    exact identFields _ Config.siliconStep.isLt

end Sys2Proof.Machine
end

section
/-! PROOFS. Every step keeps memory in canonical form and leaves no train being issued (O59).

A step changes memory through `writeBytes`, `writeMem`, `putImagePiece` and `zeroMemory` alone, and each of them keeps the
form. So does everything built from them: the lemma `InForm.f` says that the function `f` of the machine keeps the form
whatever its other arguments are, and its proof follows the branches of `f` and names the lemmas of what `f` calls. The
lemmas stand in the order of the model's files. -/

/- A kernel check waits for those before it and holds a thread meanwhile; one declaration at a time bounds the threads. -/
set_option Elab.async false

namespace Sys2Proof.Machine

/-! ### The form of a state, and of what the functions of the machine return -/

/-- Memory lists its bytes in the canonical form. -/
def InForm (s : State) : Prop := Memory.wf s.mem = true

/-- Whatever state an outcome goes on with is in form. -/
def Leads (o : Host.Outcome State Fault Refusal) : Prop := ∀ t, o = .next t → InForm t

/-- The state that an optional result carries is in form; `p` says where it stands in the result. -/
def Carries {α : Type} (p : α → State) (o : Option α) : Prop := ∀ a, o = some a → InForm (p a)

/-- The state that a meaning leaves. -/
@[reducible] def Res.state : Res → State
  | .done s _ | .long s _ _ | .trap s _ | .blocked s _ | .left s => s

/-- The state in which the gates of an issue leave the machine. -/
@[reducible] def Gate.state : Gate → State
  | .go _ s | .stop s => s

/-- The state in which a fetch leaves the machine. -/
@[reducible] def Fetched.state : Fetched → State
  | .run _ s | .stop s => s

/-- The state that an arrival leaves. -/
@[reducible] def Arrival.state : Arrival → State
  | .result s _ | .sent s _ => s

/-- The state that the reading of a predicate leaves. -/
@[reducible] def Pred.state : Pred → State
  | .value s _ | .bad s _ _ => s
  | .wait r => r.state

/-- The state that a round of a dispatch leaves. -/
@[reducible] def Round.state : Round → State
  | .fin r => r.state
  | .again s => s

abbrev Res.Formed (r : Res) : Prop := InForm r.state
abbrev Gate.Formed (x : Gate) : Prop := InForm x.state
abbrev Fetched.Formed (x : Fetched) : Prop := InForm x.state
abbrev Arrival.Formed (x : Arrival) : Prop := InForm x.state
abbrev Pred.Formed (x : Pred) : Prop := InForm x.state
abbrev Round.Formed (x : Round) : Prop := InForm x.state

/-- The state that a staged addend leaves, where it is staged, is in form. -/
def Staged.Formed : Staged → Prop
  | .ok s => InForm s
  | .full | .outside => True

/-! The state that a match on a result names is in form. -/

theorem Gate.Formed.go {x : Gate} {c s} (h : x.Formed) (e : x = .go c s) : InForm s := by subst e; exact h
theorem Gate.Formed.stop {x : Gate} {s} (h : x.Formed) (e : x = .stop s) : InForm s := by subst e; exact h
theorem Fetched.Formed.run {x : Fetched} {i s} (h : x.Formed) (e : x = .run i s) : InForm s := by subst e; exact h
theorem Fetched.Formed.stop {x : Fetched} {s} (h : x.Formed) (e : x = .stop s) : InForm s := by subst e; exact h
theorem Staged.Formed.ok {x : Staged} {s} (h : x.Formed) (e : x = .ok s) : InForm s := by subst e; exact h
theorem Arrival.Formed.result {x : Arrival} {s d} (h : x.Formed) (e : x = .result s d) : InForm s := by subst e; exact h
theorem Arrival.Formed.sent {x : Arrival} {s j} (h : x.Formed) (e : x = .sent s j) : InForm s := by subst e; exact h
theorem Pred.Formed.value {x : Pred} {s v} (h : x.Formed) (e : x = .value s v) : InForm s := by subst e; exact h
theorem Pred.Formed.bad {x : Pred} {s va k} (h : x.Formed) (e : x = .bad s va k) : InForm s := by subst e; exact h
theorem Pred.Formed.wait {x : Pred} {r} (h : x.Formed) (e : x = .wait r) : r.Formed := by subst e; exact h
theorem Res.Formed.blocked {x : Res} {s b} (h : x.Formed) (e : x = .blocked s b) : InForm s := by subst e; exact h
theorem Res.Formed.left {x : Res} {s} (h : x.Formed) (e : x = .left s) : InForm s := by subst e; exact h

theorem Res.Formed.ite {c : Prop} [Decidable c] {r r' : Res} (h : r.Formed) (h' : r'.Formed) :
    (if c then r else r').Formed := by
  split
  · exact h
  · exact h'

theorem leads_next {t : State} (h : InForm t) : Leads (.next t) := by
  intro t' e
  cases e
  exact h

theorem leads_fault {f : Fault} : Leads (.fault f) := fun _ e => nomatch e

section
variable {α β : Type} {p : α → State}

theorem carries_none : Carries p none := fun _ e => nomatch e

theorem carries_some {a : α} (h : InForm (p a)) : Carries p (some a) := by
  intro b e
  cases e
  exact h

theorem carries_ite {c : Prop} [Decidable c] {o o' : Option α} (h : Carries p o) (h' : Carries p o') :
    Carries p (if c then o else o') := by
  split
  · exact h
  · exact h'

theorem carries_map {o : Option β} {f : β → α} (h : ∀ b, o = some b → InForm (p (f b))) : Carries p (o.map f) := by
  cases o with
  | none => exact carries_none
  | some b => exact carries_some (h b rfl)

end

namespace InForm
variable {s t : State} {α β : Type}

/-- A change of anything but memory keeps the form. -/
theorem congr (h : InForm s) (e : t.mem = s.mem := by with_reducible rfl) : InForm t := by
  rw [InForm, e]; exact h

theorem ite {c : Prop} [Decidable c] (hs : InForm s) (ht : InForm t) : InForm (if c then s else t) := by
  split
  · exact hs
  · exact ht

theorem foldl {f : State → α → State} {l : List α} (h : InForm s) (hf : ∀ s a, InForm s → InForm (f s a)) :
    InForm (l.foldl f s) := by
  induction l generalizing s with
  | nil => exact h
  | cons a l ih => exact ih (hf s a h)

theorem foldl_fst {f : State × β → α → State × β} {l : List α} {x : State × β} (h : InForm x.1)
    (hf : ∀ x a, InForm x.1 → InForm (f x a).1) : InForm (l.foldl f x).1 := by
  induction l generalizing x with
  | nil => exact h
  | cons a l ih => exact ih (hf x a h)

theorem getD {o : Option State} (h : InForm s) (ho : Carries id o) : InForm (o.getD s) := by
  cases o with
  | none => exact h
  | some t => exact ho t rfl

theorem elim {f : α → State} {o : Option α} (h : InForm s) (hf : ∀ a, InForm (f a)) : InForm (o.elim s f) := by
  cases o with
  | none => exact h
  | some a => exact hf a

theorem fst_eq {p : State × α} {a : α} (h : InForm p.1) (e : p = (t, a)) : InForm t := by
  rw [e] at h; exact h

theorem snd_eq {p : α × State} {a : α} (h : InForm p.2) (e : p = (a, t)) : InForm t := by
  rw [e] at h; exact h

theorem writeBytes {pa bs} (h : InForm s) : InForm (writeBytes s pa bs) := writeBytes_wf pa bs h
theorem writeMem {pa n v} (h : InForm s) : InForm (writeMem s pa n v) := writeMem_wf pa n v h
theorem putImagePiece {m p} (h : InForm s) : InForm (putImagePiece s m p) := putImagePiece_wf m p h
theorem zeroMemory {p} (h : InForm s) : InForm (zeroMemory s p) := zeroMemory_wf p h

end InForm

/-! ### State updates (`Machine/Base.lean`) -/

theorem InForm.putTrain {s k tr} (h : InForm s) : InForm (putTrain s k tr) := h.congr rfl
theorem InForm.modTrain {s k f} (h : InForm s) : InForm (modTrain s k f) := h.congr rfl
theorem InForm.dropTrain {s k} (h : InForm s) : InForm (dropTrain s k) := h.congr rfl
theorem InForm.putWg {s w g} (h : InForm s) : InForm (putWg s w g) := h.congr rfl
theorem InForm.modWg {s w f} (h : InForm s) : InForm (modWg s w f) := h.congr rfl
theorem InForm.putCore {s c x} (h : InForm s) : InForm (putCore s c x) := h.congr rfl
theorem InForm.modCore {s c f} (h : InForm s) : InForm (modCore s c f) := h.putCore
theorem InForm.modPart {s p f} (h : InForm s) : InForm (modPart s p f) := h.congr rfl
theorem InForm.modLaunch {s l f} (h : InForm s) : InForm (modLaunch s l f) := h.congr rfl
theorem InForm.modLine {s l f} (h : InForm s) : InForm (modLine s l f) := h.congr rfl
theorem InForm.modJoin {s j f} (h : InForm s) : InForm (modJoin s j f) := h.congr rfl
theorem InForm.modOp {s o f} (h : InForm s) : InForm (modOp s o f) := h.congr rfl
theorem InForm.freeServices {s gone} (h : InForm s) : InForm (freeServices s gone) := h.foldl fun _ _ h => h.congr
theorem InForm.returnToken {s uid} (h : InForm s) : InForm (returnToken s uid) := h.freeServices
theorem InForm.freshId {s} (h : InForm s) : InForm (freshId s).2 := h.congr rfl
theorem InForm.freshFree {s n} (h : InForm s) : InForm (freshFree s n).2 := h.congr rfl
theorem InForm.sendFabric {s p m o} (h : InForm s) : InForm (sendFabric s p m o) := h.ite h.congr
theorem InForm.loseLatches {s k} (h : InForm s) : InForm (loseLatches s k) := h.congr.modTrain

/-! ### Translation, loads and stores of a train (`Machine/Mmu.lean`) -/

theorem InForm.setIrq {s p b} (h : InForm s) : InForm (setIrq s p b) := h.ite (h.modPart.congr.ite h.modPart)

theorem InForm.logViolation {s p addr pc cause core asid slot mask} (h : InForm s) :
    InForm (logViolation s p addr pc cause core asid slot mask) :=
  (h.writeMem.writeMem.writeMem.writeMem.ite h).modPart.setIrq

theorem InForm.cacheTrans {s c t} (h : InForm s) : InForm (cacheTrans s c t) := h.modCore

theorem InForm.access {s tr acc va align} (h : InForm s) : InForm (access s tr acc va align).1 := by
  unfold Machine.access
  split
  · exact h
  · split
    · exact h
    · split
      · exact h
      · exact h
      · exact h.cacheTrans

theorem InForm.performStore {s k i} (h : InForm s) : InForm (performStore s k i) := by
  unfold Machine.performStore
  split
  · exact h
  · split
    · exact h
    · split
      dsimp only
      exact (h.foldl fun _ _ h => h.writeBytes).modTrain

theorem InForm.performAll {s k} (h : InForm s) : InForm (performAll s k) := by
  unfold Machine.performAll
  split
  · exact h
  · exact (h.foldl fun _ _ h => h.writeBytes).modTrain

theorem InForm.performOverlapping {s k pa n} (h : InForm s) : InForm (performOverlapping s k pa n) := by
  unfold Machine.performOverlapping
  split
  · exact h
  · split
    exact (h.foldl fun _ _ h => h.writeBytes).modTrain

theorem InForm.performWc {s k} (h : InForm s) : InForm (performWc s k) := by
  unfold Machine.performWc
  split
  · exact h
  · exact h.foldl fun _ _ h => h.performOverlapping.ite h

theorem InForm.returnLoad {s k i} (h : InForm s) : InForm (returnLoad s k i) := by
  unfold Machine.returnLoad
  split
  · exact h
  · split
    · exact h
    · dsimp only
      exact h.modTrain

theorem InForm.returnWhere {s k p n} (h : InForm s) : InForm (returnWhere s k p n) := by
  induction n with
  | zero => exact h
  | succ n ih =>
    unfold Machine.returnWhere
    dsimp only
    split
    · exact ih
    · exact ih.returnLoad.ite ih

theorem InForm.returnLoads {s k p} (h : InForm s) : InForm (returnLoads s k p) := by
  unfold Machine.returnLoads
  split
  · exact h
  · exact h.returnWhere

theorem InForm.returnLoadOrdered {s k i} (h : InForm s) : InForm (returnLoadOrdered s k i) := by
  unfold Machine.returnLoadOrdered
  split
  · exact h
  · exact h.returnLoad

theorem InForm.performEarlier {s k} (h : InForm s) : InForm (performEarlier s k) := h.returnLoads.performAll
theorem InForm.settleAsids {s p} (h : InForm s) : InForm (settleAsids s p) := h.foldl fun _ _ h => h.performEarlier

theorem InForm.loadRoom {s k} (h : InForm s) : InForm (loadRoom s k) := by
  unfold Machine.loadRoom
  split
  · exact h.returnLoad.ite h
  · exact h

theorem InForm.issueStore {s k pa bs wc} (h : InForm s) : InForm (issueStore s k pa bs wc) := h.returnLoads.modTrain

theorem InForm.drainBuffer {s k block} (h : InForm s) : InForm (drainBuffer s k block) := by
  unfold Machine.drainBuffer
  split
  · exact h
  · exact h.foldl fun _ _ h => h.performOverlapping

theorem InForm.settleWc {s k block} (h : InForm s) : InForm (settleWc s k block) := by
  unfold Machine.settleWc
  split
  · exact h
  · dsimp only
    refine InForm.ite (h.drainBuffer.ite h) ?_
    split
    · exact (h.drainBuffer.ite h).drainBuffer
    · exact h.drainBuffer.ite h

theorem InForm.drainOld {s} (h : InForm s) : InForm (drainOld s) :=
  h.foldl fun _ _ h => h.foldl fun _ _ h => (h.drainBuffer.ite h).ite (h.performOverlapping.ite h)

theorem InForm.takeEntry {s cl f} (h : InForm s) : InForm (takeEntry s cl f).2 := by
  unfold Machine.takeEntry
  split
  · exact h.congr
  · split
    · exact h
    · split
      · next e2 => exact (h.freshId.snd_eq e2).congr.setIrq

theorem InForm.takeFault {s tr va kind pte pc} (h : InForm s) : InForm (takeFault s tr va kind pte pc).2 := h.takeEntry

theorem InForm.freeFault {s i status} (h : InForm s) : InForm (freeFault s i status) := by
  unfold Machine.freeFault
  split
  · exact h
  · exact h.congr

theorem InForm.dropLink {s i} (h : InForm s) : InForm (dropLink s i) := by
  unfold Machine.dropLink
  split
  · exact h.freeFault.ite h.congr
  · exact h

theorem InForm.park {s k head va kind pte pc skip mask} (h : InForm s) :
    InForm (park s k head va kind pte pc skip mask) := by
  unfold Machine.park
  split
  · exact h
  · split
    · next e1 => exact (h.takeFault.snd_eq e1).modTrain

theorem InForm.unlinkFault {s k} (h : InForm s) : InForm (unlinkFault s k) := by
  unfold Machine.unlinkFault
  split
  · exact h.dropLink
  · exact h

/-! ### Rings (`Machine/Ring.lean`) -/

theorem InForm.writeEntry {u j e x} (h : InForm x.1) : Carries Prod.fst (writeEntry u j e x) := by
  unfold Machine.writeEntry
  split
  · exact carries_none
  · exact carries_some h.writeMem

theorem InForm.writeEntries {u state part j n x} (h : InForm x.1) :
    Carries Prod.fst (writeEntries u state part j n x) := by
  induction n generalizing j x with
  | zero => exact carries_some h
  | succ n ih =>
    unfold Machine.writeEntries
    split
    · exact carries_none
    · next e => exact ih (h.writeEntry _ e)

theorem InForm.changeEntries {u state j n x} (h : InForm x.1) : Carries Prod.fst (changeEntries u state j n x) := by
  induction n generalizing j x with
  | zero => exact carries_some h
  | succ n ih =>
    unfold Machine.changeEntries
    split
    · exact carries_none
    · split
      · exact carries_none
      · next e => exact ih (h.writeEntry _ e)

theorem InForm.advanceHead {u n x} (h : InForm x.1) : Carries Prod.fst (advanceHead u n x) := by
  induction n generalizing x with
  | zero => exact carries_some h
  | succ n ih =>
    unfold Machine.advanceHead
    split
    · split
      · exact carries_none
      · split
        · split
          · exact carries_none
          · next e =>
            have h := h.writeEntry _ e
            exact ih h
        · exact carries_some h
    · exact carries_some h

theorem InForm.ringAcq {u n x} (h : InForm x.1) : Carries (·.1.1) (ringAcq u n x) := by
  refine carries_ite (carries_some h) (carries_ite (carries_some h) (carries_ite (carries_some h) ?_))
  split
  · exact carries_none
  · next e =>
    have h := h.writeEntries _ e
    split
    · exact carries_none
    · next e1 =>
      have h := h.writeEntries _ e1
      exact carries_some h

theorem InForm.ringCom {u skip ticket n x} (h : InForm x.1) : Carries (·.1.1) (ringCom u skip ticket n x) := by
  refine carries_ite (carries_some h) (carries_ite (carries_some h) ?_)
  split
  · exact carries_none
  · exact carries_some h
  · split
    · exact carries_none
    · next e => exact carries_some (h.changeEntries _ e)

theorem InForm.ringPeek {u take x} (h : InForm x.1) : Carries (·.1.1) (ringPeek u take x) := by
  refine carries_ite (carries_some h) ?_
  split
  · exact carries_none
  · refine carries_ite (carries_ite ?_ (carries_some h))
      (carries_ite (carries_ite ?_ (carries_some h)) (carries_some h))
    · split
      · exact carries_none
      · next e =>
        have h := h.writeEntry _ e
        exact carries_some h
    · split
      · exact carries_none
      · split
        · exact carries_none
        · next s1 r1 e =>
          have h : InForm s1 := h.changeEntries _ e
          dsimp only
          split
          · exact carries_none
          · next e1 => exact carries_some (InForm.advanceHead (x := (s1, _)) h _ e1)

theorem InForm.ringRel {u ticket n x} (h : InForm x.1) : Carries (·.1.1) (ringRel u ticket n x) := by
  refine carries_ite (carries_some h) (carries_ite (carries_some h) ?_)
  split
  · exact carries_none
  · exact carries_some h
  · split
    · exact carries_none
    · next e =>
      have h := h.changeEntries _ e
      split
      · exact carries_none
      · next e1 =>
        have h := InForm.advanceHead (x := (_, _)) h _ e1
        exact carries_some h

theorem InForm.apply {op u x} (h : InForm x.1) : Carries (·.1.1) (RingOp.apply op u x) := by
  unfold Machine.RingOp.apply
  split
  · exact h.ringAcq
  · exact h.ringCom
  · exact h.ringPeek
  · exact h.ringRel

theorem InForm.writeBlock {s r} (h : InForm s) : InForm (writeBlock s r) :=
  h.writeMem.writeMem.writeMem.writeMem.writeMem

theorem InForm.keepRing {s r} (h : InForm s) : InForm (keepRing s r) := h.congr rfl

theorem InForm.signalCommit {s u pa a3} (h : InForm s) : InForm (signalCommit s u pa a3) := by
  unfold Machine.signalCommit
  split
  · exact h.setIrq.ite h
  · exact h

theorem InForm.ringAt {s u pa op} (h : InForm s) : InForm (ringAt s u pa op).1 := by
  unfold Machine.ringAt
  split
  · exact h
  · split
    · exact h
    · split
      · exact h.keepRing
      · next e1 =>
          split
          · exact h.keepRing
          · exact (h.apply _ e1).writeBlock.keepRing.signalCommit

theorem InForm.ringUnit {s u va op} (h : InForm s) : InForm (ringUnit s u va op).1 := by
  unfold Machine.ringUnit
  split
  · exact h.ringAt
  · exact h
  · exact h

theorem InForm.repairSlots {p j n s r c} (h : InForm s) : InForm (repairSlots p j n s r c).1 := by
  induction n generalizing j s r c with
  | zero => exact h
  | succ n ih =>
    unfold Machine.repairSlots
    split
    · exact ih h
    · split
      · exact ih h.writeMem
      · split
        · exact ih h.writeMem
        · exact ih h

theorem InForm.repairHead {n s r} (h : InForm s) : InForm (repairHead n s r).1 := by
  induction n generalizing s r with
  | zero => exact h
  | succ n ih =>
    unfold Machine.repairHead
    split
    · split
      · exact ih h.writeMem
      · exact h
    · exact h

theorem InForm.repairRing {p s r} (h : InForm s) : InForm (repairRing p s r) := by
  refine InForm.ite h.congr ?_
  split
  · next e =>
      split
      · next e1 =>
          dsimp only
          exact ((h.repairSlots.fst_eq e).repairHead.fst_eq e1).writeBlock.keepRing

theorem InForm.repairRings {s p} (h : InForm s) : InForm (repairRings s p) := h.foldl fun _ _ h => h.repairRing

/-! ### Ends of threads, trains and workgroups (`Machine/Ends.lean`) -/

theorem InForm.touchStall {s k} (h : InForm s) : InForm (touchStall s k) := by
  unfold Machine.touchStall
  split
  · exact h.modWg
  · exact h

theorem InForm.unblock {s k} (h : InForm s) : InForm (unblock s k) := by
  unfold Machine.unblock
  split
  · exact h
  · exact h.touchStall.putTrain

theorem InForm.withdrawAlloc {s k} (h : InForm s) : InForm (withdrawAlloc s k) := by
  unfold Machine.withdrawAlloc
  split
  · exact h.modWg
  · exact h

theorem InForm.blockAt {s k head b} (h : InForm s) : InForm (blockAt s k head b) := h.touchStall.modTrain

theorem InForm.finishWait {s k val} (h : InForm s) : InForm (finishWait s k val) := by
  unfold Machine.finishWait
  split
  · exact h
  · split
    · exact h
    · dsimp only
      exact h.unblock.modTrain

theorem InForm.forsake {s k} (h : InForm s) : InForm (forsake s k) := by
  unfold Machine.forsake
  split
  · exact h
  · exact h.congr

theorem InForm.answerAsides {s p val} (h : InForm s) : InForm (answerAsides s p val) := h.congr rfl

theorem InForm.finishWaits {s b val} (h : InForm s) : InForm (finishWaits s b val) :=
  (h.foldl fun _ _ h => h.finishWait).answerAsides

theorem InForm.withdrawMatrix {s k} (h : InForm s) : InForm (withdrawMatrix s k) := by
  unfold Machine.withdrawMatrix
  split
  · split
    · dsimp only
      exact h.modWg.modTrain.ite h.modWg
    · exact h
  · exact h

theorem InForm.freeJoin {s j} (h : InForm s) : InForm (freeJoin s j) := by
  unfold Machine.freeJoin
  split
  · exact h
  · exact h.congr.ite h

theorem InForm.endContribs {s uid fall skip} (h : InForm s) : InForm (endContribs s uid fall skip) :=
  h.foldl fun _ _ h => h.ite (h.modJoin.freeJoin.ite h)

theorem InForm.writeRecord {s p asid va off bs} (h : InForm s) : InForm (writeRecord s p asid va off bs) := by
  unfold Machine.writeRecord
  split
  · exact h.writeBytes
  · exact h

theorem InForm.faultTask {s tr kind} (h : InForm s) : InForm (faultTask s tr kind) := by
  unfold Machine.faultTask
  split
  · exact h
  · exact h.writeRecord

theorem InForm.setReadyQueue {s p prio q} (h : InForm s) : InForm (setReadyQueue s p prio q) := h.modPart

theorem InForm.requeueAt {s p asid va prio} (h : InForm s) : InForm (requeueAt s p asid va prio) :=
  h.writeRecord.setReadyQueue

theorem InForm.requeue {s p asid va} (h : InForm s) : InForm (requeue s p asid va) := h.requeueAt

theorem InForm.returnHeld {s k} (h : InForm s) : InForm (returnHeld s k) := by
  unfold Machine.returnHeld
  split
  · exact h
  · split
    · exact h
    · exact h.requeueAt.modTrain

theorem InForm.releaseBarrier {s w gang} (h : InForm s) : InForm (releaseBarrier s w gang) := by
  refine InForm.foldl h (fun _ _ h => ?_)
  dsimp only
  split
  · exact h.performEarlier
  · exact h.performEarlier.modTrain.unblock.ite h.performEarlier.modTrain

theorem InForm.settleBarriers {s w} (h : InForm s) : InForm (settleBarriers s w) :=
  (((h.releaseBarrier.ite h).foldl fun _ _ h => h.modWg).foldl fun _ _ h => h.releaseBarrier).ite
    (h.releaseBarrier.ite h)

theorem InForm.touchBarriers {s w} (h : InForm s) : InForm (touchBarriers s w) := h.modWg.foldl fun _ _ h => h.modWg
theorem InForm.finishSave {s k uid val} (h : InForm s) : InForm (finishSave s k uid val) := h.finishWait.ite h.modTrain

theorem InForm.finishSaves {s uid val} (h : InForm s) : InForm (finishSaves s uid val) :=
  (h.foldl fun _ _ h => h.finishSave).answerAsides

theorem InForm.wgEnded {s w trig} (h : InForm s) : InForm (wgEnded s w trig) := by
  unfold Machine.wgEnded
  split
  · exact h
  · dsimp only
    split
    · exact h.congr.finishSaves.modLaunch.settleBarriers
    · exact h.congr.finishSaves.modLaunch

theorem InForm.closeWg {s w trig} (h : InForm s) : InForm (closeWg s w trig) := by
  unfold Machine.closeWg
  split
  · exact h
  · exact h.putWg.ite h.wgEnded

theorem InForm.settleTrain {s k} (h : InForm s) : InForm (settleTrain s k) := by
  unfold Machine.settleTrain
  split
  · exact h
  · refine InForm.ite h (InForm.ite h.modTrain ?_)
    dsimp only
    split
    · exact h.performAll.endContribs.dropTrain.closeWg.ite h.performAll.endContribs.dropTrain
    · exact h.performAll.endContribs.dropTrain

theorem InForm.exitThreads {s k m pcf} (h : InForm s) : InForm (exitThreads s k m pcf) := by
  unfold Machine.exitThreads
  dsimp only
  split
  · exact h.performAll
  · refine InForm.settleTrain ?_
    split
    · refine InForm.settleBarriers (InForm.touchBarriers (InForm.modTrain ?_))
      split
      · exact h.performAll.modLaunch.ite h.performAll
      · exact h.performAll
    · refine InForm.modTrain ?_
      split
      · exact h.performAll.modLaunch.ite h.performAll
      · exact h.performAll

theorem InForm.failLanes {s k m} (h : InForm s) : InForm (failLanes s k m) := by
  unfold Machine.failLanes
  split
  · dsimp only
    exact h.modLine.modTrain
  · exact h

theorem InForm.failActivations {s k} (h : InForm s) : InForm (failActivations s k) := h.failLanes

theorem InForm.killTrain {s k} (h : InForm s) : InForm (killTrain s k) := by
  unfold Machine.killTrain
  dsimp only
  split
  · exact h.performAll.withdrawAlloc.unlinkFault.returnHeld.failActivations
  · exact h.performAll.withdrawAlloc.unlinkFault.returnHeld.failActivations.endContribs.freeServices.dropTrain

theorem InForm.killWg {s w} (h : InForm s) : InForm (killWg s w) := (h.foldl fun _ _ h => h.killTrain).closeWg
theorem InForm.recordFault {s l f} (h : InForm s) : InForm (recordFault s l f) := h.modLaunch

theorem InForm.endFaulted {s k kind cause pc} (h : InForm s) : InForm (endFaulted s k kind cause pc) := by
  unfold Machine.endFaulted
  split
  · exact h
  · split
    · exact h.killTrain
    · dsimp only
      refine InForm.killWg
        (InForm.foldl ((h.elim fun _ => h.recordFault).foldl fun _ _ h => h.elim fun _ => h.recordFault)
        (fun _ _ h => ?_))
      split
      · exact h.faultTask
      · exact h

/-! ### Ends of engine operations (`Machine/OpEnds.lean`) -/

theorem InForm.releaseMark {s k} (h : InForm s) : InForm (releaseMark s k) := by
  unfold Machine.releaseMark
  split
  · split
    · exact h.unblock.ite h
    · exact h
  · exact h

theorem InForm.completeFuture {s i st} (h : InForm s) : InForm (completeFuture s i st) := by
  unfold Machine.completeFuture
  split
  · exact h
  · exact h.ite (h.congr.foldl fun _ _ h => h.modTrain.releaseMark).finishWaits

theorem InForm.phaseTile {s uid t st engine} (h : InForm s) : InForm (phaseTile s uid t st engine) := by
  unfold Machine.phaseTile
  split
  · exact h.modWg
  · exact h

theorem InForm.endPhases {s o ok} (h : InForm s) : InForm (endPhases s o ok) := h.phaseTile.phaseTile

theorem InForm.takeOpFault {s op o va pte} (h : InForm s) : Carries Prod.snd (takeOpFault s op o va pte) := by
  refine carries_map fun _ _ => ?_
  split
  · next e =>
      dsimp only
      exact (h.freshId.snd_eq e).congr.setIrq

theorem InForm.writePacketStatus {s o st t} (h : InForm s) (e : writePacketStatus s o st = .ok t) : InForm t := by
  unfold Machine.writePacketStatus at e
  split at e
  · cases e; exact h
  · split at e
    · cases e; exact h.writeMem
    · cases e; exact h.logViolation
    · cases e
    · cases e; exact h

theorem InForm.settleWg {s uid} (h : InForm s) : InForm (settleWg s uid) := by
  unfold Machine.settleWg
  split
  · split
    · exact h.closeWg
    · exact h
  · exact h

theorem InForm.closeStream {s o} (h : InForm s) : InForm (closeStream s o) := h.congr.ite h

theorem InForm.freeOpFault {s a1} (h : InForm s) : InForm (freeOpFault s a1) := by
  unfold Machine.freeOpFault
  split
  · exact h.dropLink
  · exact h.dropLink
  · exact h

theorem InForm.dropOp {s o op st} (h : InForm s) : InForm (dropOp s o op st) := by
  refine InForm.settleWg ?_
  split
  · exact h.congr.completeFuture
  · exact h.congr

theorem InForm.endOp {s o ok st} (h : InForm s) : InForm (endOp s o ok st) := by
  unfold Machine.endOp
  split
  · exact h
  · dsimp only
    split
    · next e => exact ((h.endPhases.closeStream.ite h).freeOpFault.writePacketStatus e).dropOp
    · split
      · next e => exact ((h.endPhases.closeStream.ite h).freeOpFault.takeOpFault _ e).modOp
      · exact (h.endPhases.closeStream.ite h).freeOpFault.modOp

theorem InForm.endOpsWhere {s p code} (h : InForm s) : InForm (endOpsWhere s p code) := h.foldl fun _ _ h => h.endOp

theorem InForm.cancelOp {s o} (h : InForm s) : InForm (cancelOp s o).1 := by
  unfold Machine.cancelOp
  split
  · exact h
  · split
    · exact h
    · exact h.endOp

theorem InForm.terminateLaunch {s l} (h : InForm s) : InForm (terminateLaunch s l) :=
  ((h.endOpsWhere.foldl fun _ _ h => h.killWg).foldl fun _ _ h => h.foldl fun _ _ h =>
    h.endContribs).congr.freeServices.modLaunch

/-! ### Engine operations (`Machine/Ops.lean`) -/

theorem InForm.deliverHead {s k} (h : InForm s) : InForm (deliverHead s k) := by
  unfold Machine.deliverHead
  split
  · exact h
  · dsimp only
    exact h.congr.modTrain

theorem InForm.takeTrapAs {s k r waits} (h : InForm s) : InForm (takeTrapAs s k r waits) := by
  unfold Machine.takeTrapAs
  split
  · exact h
  · exact h.modTrain.ite (h.setIrq.endFaulted.ite h.withdrawAlloc.unblock.modTrain.deliverHead)

theorem InForm.takeTrap {s k r} (h : InForm s) : InForm (takeTrap s k r) := h.takeTrapAs

theorem InForm.logTrap {s k r} (h : InForm s) : InForm (logTrap s k r) := by
  unfold Machine.logTrap
  split
  · exact h
  · exact h.logViolation.ite h

theorem InForm.raiseAtAs {s k head r waits} (h : InForm s) : InForm (raiseAtAs s k head r waits) := by
  unfold Machine.raiseAtAs
  split
  · exact h
  · dsimp only
    exact h.modTrain.logTrap.takeTrapAs

theorem InForm.raiseAt {s k head r} (h : InForm s) : InForm (raiseAt s k head r) := h.raiseAtAs

theorem InForm.raiseAfter {s k r} (h : InForm s) : InForm (raiseAfter s k r) := by
  unfold Machine.raiseAfter
  split
  · exact h
  · dsimp only
    exact h.logTrap.takeTrap

theorem InForm.arrive {s k} (h : InForm s) : InForm (arrive s k) := by
  unfold Machine.arrive
  split
  · exact h.touchBarriers.settleBarriers
  · exact h

theorem InForm.deliverFrom {s k code} (h : InForm s) : InForm (deliverFrom s k code) := h.congr.modTrain

theorem InForm.returnTrap {s k} (h : InForm s) : InForm (returnTrap s k) := by
  unfold Machine.returnTrap
  split
  · exact h
  · dsimp only
    split
    · exact h.putTrain.loseLatches.failLanes.exitThreads.ite (h.putTrain.loseLatches.arrive.ite h.putTrain.loseLatches)
    · refine InForm.ite ?_ (InForm.deliverFrom ?_)
      all_goals
        exact h.putTrain.loseLatches.failLanes.exitThreads.ite
          (h.putTrain.loseLatches.arrive.ite h.putTrain.loseLatches)

theorem InForm.workExit {s k value pc} (h : InForm s) : InForm (workExit s k value pc) := by
  unfold Machine.workExit
  split
  · exact h
  · refine InForm.ite ?_ (InForm.ite ?_ h)
    · split
      · exact h.endFaulted
      · exact h.endFaulted
    · split
      · exact h.terminateLaunch
      · dsimp only
        exact h.killTrain.elim fun _ => h.killTrain.terminateLaunch

/-! ### The issue of an instruction (`Machine/Issue.lean`) -/

theorem InForm.pushResults {s tr x wide vals} (h : InForm s) : InForm (pushResults s tr x wide vals) := by
  unfold Machine.pushResults
  split
  · exact h.ite h.modWg
  · exact h

theorem InForm.pushRelease {s k x vals} (h : InForm s) : InForm (pushRelease s k x vals) := by
  unfold Machine.pushRelease
  split
  · exact h.ite h.performEarlier
  · exact h

theorem InForm.complete {i x wide k pc s d} (h : InForm s) : InForm (complete i x wide k pc s d) := by
  unfold Machine.complete
  dsimp only
  split
  · exact h.pushRelease
  · split
    · exact h.pushRelease.pushResults.putTrain
    · exact h.pushRelease.pushResults.putTrain.raiseAfter

theorem InForm.startLong {i x wide k s vals fl} (h : InForm s) : InForm (startLong i x wide k s vals fl) := by
  unfold Machine.startLong
  dsimp only
  split
  · exact h.pushRelease
  · split
    · split
      · exact h.pushRelease.putWg.modTrain
      · exact h.pushRelease
    · exact h.pushRelease.modTrain

theorem InForm.finishLong {s k} (h : InForm s) : InForm (finishLong s k) := by
  unfold Machine.finishLong
  split
  · exact h
  · split
    · exact h
    · dsimp only
      refine InForm.modTrain ?_
      split
      · exact h.modWg
      · exact h

theorem InForm.popAll {i c s} (h : InForm s) : InForm (popAll i c s).2 := by
  unfold Machine.popAll
  split
  · exact h
  · split
    · exact h
    · split
      · dsimp only
        exact h.putWg
      · exact h

theorem InForm.gates {i x s k tr} (h : InForm s) : (gates i x s k tr).Formed := by
  unfold Machine.gates
  dsimp only
  split
  · exact h.raiseAt
  · split
    · exact h.returnLoads
    · split
      · exact h.returnLoads.blockAt
      · split
        · exact h.returnLoads.blockAt
        · split
          · exact h.returnLoads.raiseAt
          · exact h.returnLoads.blockAt
          · exact h.returnLoads.popAll

theorem InForm.settle {i x wide c r} (h : Res.Formed r) : InForm (settle i x wide c r) := by
  cases r with
  | done s d => exact InForm.complete (s := s) h
  | long s vals fl => exact InForm.startLong (s := s) h
  | trap s r => exact InForm.raiseAt (s := s) h
  | blocked s b => exact InForm.blockAt (s := s) h
  | left s => exact h

theorem InForm.issue {i x wide s body} (h : InForm s) (hbody : ∀ c s, InForm s → (body c s).Formed) :
    Leads (issue i x wide s body) := by
  unfold Machine.issue
  split
  · exact leads_fault
  · split
    · exact leads_fault
    · split
      · next e => exact leads_next (h.gates.stop e)
      · next e => exact leads_next (InForm.settle (hbody _ _ (h.gates.go e)))

theorem InForm.issuePure {i x wide s f} (h : InForm s) : Leads (issuePure i x wide s f) := h.issue fun _ _ h => h
theorem InForm.issueLong {i x wide s f} (h : InForm s) : Leads (issueLong i x wide s f) := h.issue fun _ _ h => h
theorem InForm.unitStep {s} (h : InForm s) : Leads (unitStep s) := leads_next h

/-! ### Integer instructions (`Machine/IntClass.lean`) -/

theorem InForm.arith {i x ty saturate s f} (h : InForm s) : Leads (arith i x ty saturate s f) := h.issuePure
theorem InForm.bitwise {i x ty s f} (h : InForm s) : Leads (bitwise i x ty s f) := h.issuePure

/-! ### Memory instructions (`Machine/MemClass.lean`) -/

theorem InForm.translateAll {s tr acc align l} (h : InForm s) : InForm (translateAll s tr acc align l).1 := by
  induction l generalizing s with
  | nil => exact h
  | cons a l ih =>
    unfold Machine.translateAll
    split
    · next e => exact h.access.fst_eq e
    · next e =>
      split
      · next e1 => exact (ih (h.access.fst_eq e)).fst_eq e1
      · exact ih (h.access.fst_eq e)

theorem InForm.askRemote {s k op l} (h : InForm s) : Carries Prod.fst (askRemote s k op l) := by
  unfold Machine.askRemote
  split
  · exact carries_none
  · dsimp only
    split
    · exact carries_none
    · exact carries_some (h.foldl_fst fun _ _ h => h.freshId.congr.sendFabric)

theorem InForm.clearReplies {s k} (h : InForm s) : InForm (clearReplies s k) := h.modTrain

/-- The accesses to this module's memory that an instruction makes beside its requests keep the form. -/
def NearFormed (near : Near) : Prop := ∀ s l, InForm s → InForm (near s l).1

theorem InForm.makeNear {s k near l} (h : InForm s) (hnear : NearFormed near) : InForm (makeNear s k near l).1 :=
  hnear s _ h

theorem InForm.keepAccess {c s near l} (h : InForm s) (hnear : NearFormed near) : InForm (keepAccess c s near l) :=
  (h.makeNear hnear).modTrain

theorem InForm.settleLoads {s k places n} (h : InForm s) : InForm (settleLoads s k places n) := h.returnLoads

theorem InForm.withPlacesNear {c s acc n addrs op go near} (h : InForm s) (hgo : ∀ s l, InForm s → (go s l).Formed)
    (hnear : ∀ f, near = some f → NearFormed f) : (withPlaces c s acc n addrs op go near).Formed := by
  unfold Machine.withPlaces
  split
  · exact hgo _ _ h
  · split
    · next e => exact (h.translateAll.fst_eq e).park
    · next e =>
      have h := h.translateAll.fst_eq e
      split
      · next e1 =>
        have h := h.askRemote _ e1
        cases near with
        | none => exact h
        | some f => exact h.keepAccess (hnear f rfl)
      · exact hgo _ _ h

theorem InForm.withPlaces {c s acc n addrs op go} (h : InForm s) (hgo : ∀ s l, InForm s → (go s l).Formed) :
    (withPlaces c s acc n addrs op go).Formed :=
  h.withPlacesNear hgo nofun

theorem InForm.loadBody {t k c s} (h : InForm s) : (loadBody t k c s).Formed := by
  unfold Machine.loadBody
  refine h.withPlacesNear (fun s l h => ?_) fun f e => ?_
  · dsimp only
    split
    · exact h.clearReplies.settleLoads
    · exact h.clearReplies.loadRoom
  · cases e
    exact fun _ _ h => h.settleLoads

theorem InForm.issueStores {s k n wc val places} (h : InForm s) : InForm (issueStores s k n wc val places) :=
  h.foldl fun _ _ h => h.issueStore.settleWc.ite h.issueStore

theorem InForm.storeBody {t k c s} (h : InForm s) : (storeBody t k c s).Formed := by
  unfold Machine.storeBody
  dsimp only
  refine InForm.withPlacesNear (h.performEarlier.ite h) (fun s l h => ?_) fun f e => ?_
  · exact h.clearReplies.issueStores
  · cases e
    intro s l h
    dsimp only
    exact h.issueStores

theorem InForm.withSp {c s store n addrs go align} (h : InForm s) (hgo : ∀ a b, (go a b).Formed) :
    (withSp c s store n addrs go align).Formed := by
  unfold Machine.withSp
  dsimp only
  split
  · exact h
  · split
    · exact h
    · exact hgo _ _

theorem InForm.spStore {s tr n val places} (h : InForm s) : InForm (spStore s tr n val places) := by
  unfold Machine.spStore
  split
  · exact h
  · exact h.modWg

theorem InForm.ldtBody {t k c s} (h : InForm s) : (ldtBody t k c s).Formed := by
  unfold Machine.ldtBody
  split
  · exact h
  · dsimp only
    split
    · exact h
    · exact h

theorem InForm.sttBody {t k c s} (h : InForm s) : (sttBody t k c s).Formed := by
  unfold Machine.sttBody
  split
  · exact h
  · dsimp only
    split
    · exact h
    · split
      · exact h
      · split
        · exact h
        · split
          · exact h
          · exact h.spStore

theorem InForm.tstBody {c s} (h : InForm s) : (tstBody c s).Formed := by
  unfold Machine.tstBody
  split
  · exact h
  · exact h
  · dsimp only
    split
    · exact h
    · split
      · exact h
      · split
        · exact h
        · exact h.modWg

theorem InForm.tstDefBody {c s} (h : InForm s) : (tstDefBody c s).Formed := by
  unfold Machine.tstDefBody
  split
  · exact h
  · exact h
  · dsimp only
    split
    · exact h
    · split
      · exact h
      · exact h.modWg

theorem InForm.withTags {c s addr go} (h : InForm s) (hgo : ∀ a b d, (go a b d).Formed) :
    (withTags c s addr go).Formed := by
  unfold Machine.withTags
  split
  · exact h
  · split
    · exact hgo _ _ _
    · exact h
  · exact h

theorem InForm.lookBody {c s} (h : InForm s) : (lookBody c s).Formed := h.withTags fun _ _ _ => h

theorem InForm.tagwBody {c s} (h : InForm s) : (tagwBody c s).Formed := by
  refine InForm.withTags h (fun _ _ _ => ?_)
  dsimp only
  split
  · exact h.modWg
  · exact h

theorem InForm.tagiBody {c s} (h : InForm s) : (tagiBody c s).Formed := by
  refine InForm.withTags h (fun _ _ _ => ?_)
  dsimp only
  split
  · exact h.modWg
  · exact h

theorem InForm.tagiAllBody {c s} (h : InForm s) : (tagiAllBody c s).Formed := h.withTags fun _ _ _ => h.modWg

theorem InForm.tagiCfgBody {c s} (h : InForm s) : (tagiCfgBody c s).Formed := by
  unfold Machine.tagiCfgBody
  split
  · exact h
  · dsimp only
    split
    · exact h.modWg
    · split
      · exact h.modWg
      · exact h
  · exact h

theorem InForm.flushIb {s k tr lo size} (h : InForm s) : InForm (flushIb s k tr lo size) := h.modCore
theorem InForm.pruneStale {s c} (h : InForm s) : InForm (pruneStale s c) := h.modCore

theorem InForm.prefetch {s tr va} (h : InForm s) : InForm (prefetch s tr va) := by
  unfold Machine.prefetch
  split
  · next e => exact h.access.fst_eq e
  · next e => exact h.access.fst_eq e
  · exact h
  · exact h

theorem InForm.execFence {x sc o s} (h : InForm s) : Leads (execFence x sc o s) := by
  refine InForm.issue h (fun _ _ h => ?_)
  split
  · exact h
  · split
    · exact h.performEarlier
    · exact h.performEarlier
    · exact h.returnLoads
    · exact h

theorem InForm.execStorePerformed {tr i s} (h : InForm s) : Leads (execStorePerformed tr i s) := by
  refine InForm.unitStep ?_
  split
  · exact h.performStore.ite h
  · exact h

theorem InForm.execWcBufferDrainTimeout {tr i s} (h : InForm s) : Leads (execWcBufferDrainTimeout tr i s) := by
  refine InForm.unitStep ?_
  split
  · split
    · exact h.drainBuffer.ite h
    · exact h
  · exact h

theorem InForm.fillLine {s c tag} (h : InForm s) : Carries id (fillLine s c tag) := by
  unfold Machine.fillLine
  dsimp only
  split
  · exact carries_some h.putCore
  · split
    · exact carries_some h.putCore
    · exact carries_none

theorem InForm.execInstructionFetchFill {tr s} (h : InForm s) : Leads (execInstructionFetchFill tr s) := by
  refine InForm.unitStep ?_
  split
  · split
    · refine InForm.ite (h.unblock.ite h) ?_
      split
      · next e2 => exact (h.fillLine _ e2).unblock.ite (h.fillLine _ e2)
      · exact h
    · exact h.unblock.ite h
  · exact h

theorem InForm.execFaultEntryFreed {tr s} (h : InForm s) : Leads (execFaultEntryFreed tr s) := by
  refine InForm.unitStep ?_
  split
  · exact h.unblock.ite h
  · exact h

theorem InForm.execTileGateRelease {tr s} (h : InForm s) : Leads (execTileGateRelease tr s) := by
  refine InForm.unitStep ?_
  split
  · split
    · exact h.unblock.ite h
    · exact h
  · exact h

/-! ### Atomics and waits (`Machine/Atomic.lean`) -/

theorem InForm.enrol {s j uid} (h : InForm s) : InForm (enrol s j uid) := h.modJoin

theorem InForm.stageCell {s j uid place delta} (h : InForm s) : (stageCell s j uid place delta).Formed := by
  unfold Machine.stageCell
  split
  · exact h
  · split
    · exact trivial
    · dsimp only
      split
      · exact trivial
      · exact h.enrol.modJoin

theorem InForm.atomicAt {s k pa n write f} (h : InForm s) : InForm (atomicAt s k pa n write f).2 :=
  h.performOverlapping.writeMem.ite h.performOverlapping

theorem InForm.atomicAll {k n write f l s} (h : InForm s) : InForm (atomicAll k n write f l s).2 := by
  induction l generalizing s with
  | nil => exact h
  | cons a l ih => exact ih h.atomicAt

theorem InForm.atomicBody {o ret c s} (h : InForm s) : (atomicBody o ret c s).Formed := by
  unfold Machine.atomicBody
  dsimp only
  generalize hs : (if (ret && !c.x.sp) = true then
    Machine.loadRoom (if extOrder c.x ≥ 2 then Machine.performEarlier s c.k else s) c.k
    else if extOrder c.x ≥ 2 then Machine.performEarlier s c.k else s) = s1
  have h : InForm s1 := hs ▸ (h.performEarlier.ite h).loadRoom.ite (h.performEarlier.ite h)
  split
  · refine h.withSp fun _ _ => ?_
    split
    · exact h.putWg
    · exact h
  · refine h.withPlacesNear (fun s l h => ?_) fun f e => ?_
    · exact h.clearReplies.settleLoads.atomicAll
    · cases e
      exact fun _ _ h => h.settleLoads.atomicAll

theorem InForm.stageAll {j uid delta l s} (h : InForm s) : Carries Prod.fst (stageAll j uid delta l s) := by
  induction l generalizing s with
  | nil => exact carries_some h
  | cons a l ih =>
    unfold Machine.stageAll
    split
    · exact carries_none
    · exact carries_map fun r e => ih h r e
    · next e => exact ih (h.stageCell.ok e)

theorem InForm.faccTaggedBody {c s} (h : InForm s) : (faccTaggedBody c s).Formed := by
  unfold Machine.faccTaggedBody
  dsimp only
  split
  · next e => exact (h.translateAll.fst_eq e).park
  · next e =>
      split
      · exact h.translateAll.fst_eq e
      · split
        · exact h.translateAll.fst_eq e
        · next e2 => exact ((h.translateAll.fst_eq e).enrol.ite (h.translateAll.fst_eq e)).stageAll _ e2

theorem InForm.execStagingRoom {tr s} (h : InForm s) : Leads (execStagingRoom tr s) := by
  refine InForm.unitStep ?_
  split
  · exact h.unblock.ite h
  · exact h

theorem InForm.clearDeadline {s k} (h : InForm s) : InForm (clearDeadline s k) := h.modTrain

theorem InForm.forgetDeadline {s k} (h : InForm s) : InForm (forgetDeadline s k) := by
  unfold Machine.forgetDeadline
  split
  · exact h.modTrain
  · exact h.modTrain
  · exact h

theorem InForm.waitaBody {i t eq c s} (h : InForm s) : (waitaBody i t eq c s).Formed := by
  unfold Machine.waitaBody
  dsimp only
  split
  · refine h.withSp fun _ _ => ?_
    split
    · exact h
    · exact Res.Formed.ite h.clearDeadline h.blockAt.modTrain
  · split
    case' h_1 e =>
      refine InForm.forgetDeadline ((InForm.withPlaces h.loadRoom.modTrain fun _ _ h => ?_).left e)
    case' h_2 e =>
      refine InForm.modTrain (InForm.blockAt ((InForm.withPlaces h.loadRoom.modTrain fun _ _ h => ?_).blocked e))
    case' h_3 => refine InForm.withPlaces h.loadRoom.modTrain fun _ _ h => ?_
    all_goals
      split
      · exact h.settleLoads
      · exact Res.Formed.ite h.settleLoads.clearDeadline h.settleLoads.blockAt.modTrain

theorem InForm.finishWaita {s k x t vals pc chain trap} (h : InForm s) :
    InForm (finishWaita s k x t vals pc chain trap) := by
  unfold Machine.finishWaita
  split
  · dsimp only
    exact h.unblock.clearDeadline.forsake.modTrain.complete
  · exact h

theorem InForm.askAgain {s k n cells} (h : InForm s) : InForm (askAgain s k n cells) := by
  unfold Machine.askAgain
  split
  · exact h
  · refine h.foldl fun _ _ h => ?_
    split
    · exact h.ite (h.modTrain.ite (h.getD (carries_map fun _ e => h.askRemote _ e)))
    · exact h

theorem InForm.execWaitaReread {tr s} (h : InForm s) : Leads (execWaitaReread tr s) := by
  refine InForm.unitStep ?_
  split
  · exact h.elim fun _ => h.finishWaita.ite h.modTrain.askAgain
  · exact h

theorem InForm.execWaitaDeadline {tr s} (h : InForm s) : Leads (execWaitaDeadline tr s) := by
  refine InForm.unitStep ?_
  split
  · exact (h.elim fun _ => h.finishWaita).ite h
  · exact h

theorem InForm.renewWait {s k} (h : InForm s) : InForm (renewWait s k) := by
  unfold Machine.renewWait
  split
  · exact h.elim fun _ => h.unblock.forsake.ite h.modTrain
  · exact h

theorem InForm.renewWaits {s p} (h : InForm s) : InForm (renewWaits s p) := h.foldl fun _ _ h => h.renewWait

/-! ### Instruction fetch (`Machine/Fetch.lean`) -/

theorem InForm.fetchFrom {s k tr bs} (h : InForm s) : (fetchFrom s k tr bs).Formed := by
  unfold Machine.fetchFrom
  split
  · exact h
  · exact h.raiseAt

theorem InForm.lineAt {s tr tag} (h : InForm s) : Carries Prod.snd (lineAt s tr tag) := by
  unfold Machine.lineAt
  split
  · exact carries_some h
  · split
    · next e1 => exact carries_map fun _ _ => h.fillLine _ e1
    · exact carries_none

theorem InForm.fetch {s k} (h : InForm s) : (fetch s k).Formed := by
  unfold Machine.fetch
  split
  · exact h
  · split
    · exact h.raiseAt
    · dsimp only
      split
      · exact h.access.park
      · exact h.access.raiseAt
      · exact h.access
      · split
        · exact h.access.blockAt
        · next e2 => exact (h.access.lineAt _ e2).fetchFrom

theorem InForm.leaveWait {s k} (h : InForm s) : InForm (leaveWait s k) :=
  (h.elim fun _ => h.returnToken).modTrain.withdrawAlloc.withdrawMatrix.unlinkFault.returnHeld.forsake.unblock.modTrain

theorem InForm.deliverDue {s k} (h : InForm s) : InForm (deliverDue s k) := by
  unfold Machine.deliverDue
  split
  · exact h.leaveWait.deliverHead.ite h
  · exact h

/-! ### Queues and ring instructions (`Machine/QueueClass.lean`) -/

theorem InForm.withQueues {c s go} (h : InForm s) (hgo : ∀ a b, (go a b).Formed) : (withQueues c s go).Formed := by
  unfold Machine.withQueues
  split
  · exact h
  · split
    · exact hgo _ _
    · exact h

theorem InForm.raiseBlocked {s k cause pc async waits} (h : InForm s) :
    InForm (raiseBlocked s k cause pc async waits) := by
  unfold Machine.raiseBlocked
  split
  · exact h
  · exact h.raiseAtAs.deliverDue

theorem InForm.qbindBody {c s} (h : InForm s) : (qbindBody c s).Formed := by
  refine InForm.withQueues h (fun _ _ => ?_)
  dsimp only
  split
  · split
    · exact h
    · split
      · exact h
      · exact h.putWg.foldl fun _ _ h => h.raiseBlocked
  · split
    · exact h
    · split
      · exact h
      · split
        · exact h
        · exact h.putWg

theorem InForm.execQueueOpIssue {tr s} (h : InForm s) : Leads (execQueueOpIssue tr s) := by
  refine InForm.unitStep ?_
  split
  · split
    · exact h.unblock.ite h
    · exact h
  · exact h

theorem InForm.execQueueStall {wg s} (h : InForm s) : Leads (execQueueStall wg s) := by
  refine InForm.unitStep ?_
  split
  · exact h.ite ((h.foldl fun _ _ h => h.raiseBlocked.touchStall).foldl fun _ _ h => h.raiseBlocked.touchStall)
  · exact h

theorem InForm.ringBody {op c s} (h : InForm s) : (ringBody op c s).Formed := by
  unfold Machine.ringBody
  split
  · exact h
  · dsimp only
    split
    · next e => exact (h.performEarlier.access.fst_eq e).park
    · next e => exact h.performEarlier.access.fst_eq e
    · next e =>
        split
        · exact h.performEarlier.access.fst_eq e
        · exact h.performEarlier.access.fst_eq e
    · next e => exact (h.performEarlier.access.fst_eq e).ringAt

theorem InForm.stageCfgBody {c s} (h : InForm s) : (stageCfgBody c s).Formed := by
  refine InForm.withQueues h (fun _ _ => InForm.withPlaces h (fun _ _ h => ?_))
  dsimp only
  split
  · split
    · split
      · exact h.settleLoads.clearReplies
      · exact h.settleLoads.clearReplies.modWg.foldl fun _ _ h => h.modTrain
    · split
      · exact h.settleLoads.clearReplies
      · exact h.settleLoads.clearReplies.modWg.foldl fun _ _ h => h.modTrain
  · split
    · exact h.settleLoads.clearReplies
    · exact h.settleLoads.clearReplies.modWg.foldl fun _ _ h => h.modTrain

theorem InForm.execStage {x s} (h : InForm s) : Leads (execStage x s) := by
  refine InForm.issue h (fun _ _ h => InForm.withQueues h (fun _ _ => ?_))
  split
  · exact h
  · dsimp only
    exact h.modTrain

/-! ### Control flow, barriers and futures (`Machine/Control.lean`) -/

theorem InForm.branchBody {c s} (h : InForm s) : (branchBody c s).Formed := h

theorem InForm.exitBody {i c s} (h : InForm s) : (exitBody i c s).Formed := by
  unfold Machine.exitBody
  split
  · exact h
  · split
    · exact h
    · dsimp only
      exact h.complete.exitThreads

theorem InForm.barBody {i gang c s} (h : InForm s) : (barBody i gang c s).Formed := by
  unfold Machine.barBody
  split
  · exact h
  · split
    · exact h
    · split
      · split
        · exact h
        · dsimp only
          exact h.modTrain.complete.touchBarriers.settleBarriers
      · exact h

theorem InForm.execBstall {wg gang s} (h : InForm s) : Leads (execBstall wg gang s) := by
  refine InForm.unitStep ?_
  split
  · exact h
  · dsimp only
    exact h.ite
      (((h.foldl fun _ _ h => h.modTrain).foldl fun _ _ h => h.takeTrap.deliverDue).foldl fun _ _ h => h.modWg)

theorem InForm.joinPointBody {c s} (h : InForm s) : (joinPointBody c s).Formed := by
  unfold Machine.joinPointBody
  dsimp only
  split
  · exact h.putTrain
  · exact h.putTrain

theorem InForm.waitHere {i c s b} (h : InForm s) : (waitHere i c s b).Formed := h.blockAt.modTrain
theorem InForm.uniResult {s d} (h : InForm s) : (uniResult s d).Formed := h

theorem InForm.execFwait {x s} (h : InForm s) : Leads (execFwait x s) := by
  refine InForm.issue h (fun _ _ h => ?_)
  split
  · exact h
  · dsimp only
    split
    · exact h.uniResult
    · split
      · exact h.uniResult
      · split
        · exact h.uniResult
        · exact h.waitHere

theorem InForm.execFtest {x s} (h : InForm s) : Leads (execFtest x s) := by
  refine InForm.issue h (fun _ _ h => ?_)
  split
  · exact h
  · dsimp only
    exact h.uniResult

theorem InForm.execFtestH {x s} (h : InForm s) : Leads (execFtestH x s) := by
  refine InForm.issue h (fun _ _ h => ?_)
  split
  · exact h
  · dsimp only
    split
    · exact h.uniResult
    · exact h.uniResult

theorem InForm.execFcancel {x s} (h : InForm s) : Leads (execFcancel x s) := by
  refine InForm.issue h (fun _ _ h => ?_)
  split
  · exact h
  · split
    · exact h.uniResult
    · split
      · exact h.uniResult
      · split
        · exact h.uniResult
        · split
          · next e1 => exact (h.cancelOp.fst_eq e1).uniResult

theorem InForm.trapfBody {clr c s} (h : InForm s) : (trapfBody clr c s).Formed := by
  unfold Machine.trapfBody
  split
  · exact h
  · dsimp only
    split
    · exact h.modTrain
    · split
      · exact h.modTrain
      · exact h

theorem InForm.execTrap {x s} (h : InForm s) : Leads (execTrap x s) := by
  refine InForm.issue h (fun _ _ h => ?_)
  split
  · exact h
  · exact h

/-! ### Cross-lane instructions (`Machine/CrossLane.lean`) -/

theorem InForm.uniformDone {c s v fl} (h : InForm s) : (uniformDone c s v fl).Formed := h
theorem InForm.logic {i x s f} (h : InForm s) : Leads (logic i x s f) := h.issuePure

/-! ### The matrix unit (`Machine/Matrix.lean`) -/

theorem InForm.clearBanks {s core banks} (h : InForm s) : InForm (clearBanks s core banks) := h.modCore

theorem InForm.takeBanks {s w first n} (h : InForm s) : InForm (takeBanks s w first n) := by
  unfold Machine.takeBanks
  split
  · exact h
  · dsimp only
    exact h.clearBanks.putWg

theorem InForm.serveBanks {s w entry need} (h : InForm s) : InForm (serveBanks s w entry need) := by
  unfold Machine.serveBanks
  split
  · exact h
  · dsimp only
    exact h.clearBanks.putWg

theorem InForm.withMatrix {c s tiles go} (h : InForm s) (hgo : ∀ a b, (go a b).Formed) :
    (withMatrix c s tiles go).Formed := by
  unfold Machine.withMatrix
  split
  · exact h
  · split
    · dsimp only
      split
      · exact h
      · split
        · exact h
        · exact hgo _ _
    · exact h

theorem InForm.orMatrixTrap {s checks go} (h : InForm s) (hgo : Res.Formed go) : (orMatrixTrap s checks go).Formed := by
  unfold Machine.orMatrixTrap
  split
  · exact h
  · exact hgo

theorem InForm.enqueue {s w e} (h : InForm s) : InForm (enqueue s w e).2 := by
  unfold Machine.enqueue
  split
  · next e1 => exact (h.freshId.snd_eq e1).modWg

theorem InForm.queued {s w e} (h : InForm s) : (queued s w e).Formed := h.enqueue

theorem InForm.queuedWait {c s w e} (h : InForm s) : (queuedWait c s w e).Formed := by
  unfold Machine.queuedWait
  split
  · next e1 => exact (h.enqueue.snd_eq e1).blockAt

theorem InForm.aallocBody {i c s} (h : InForm s) : (aallocBody i c s).Formed := by
  refine InForm.withMatrix h (fun _ _ => InForm.orMatrixTrap h ?_)
  split
  · exact h.takeBanks
  · split
    · next e => exact (h.enqueue.snd_eq e).modWg.waitHere

theorem InForm.execAallocBanksFree {tr s} (h : InForm s) : Leads (execAallocBanksFree tr s) := by
  refine InForm.unitStep ?_
  split
  · exact h.serveBanks.unblock.complete.ite h
  · exact h

theorem InForm.execMmaTile {x t s} (h : InForm s) : Leads (execMmaTile x t s) := by
  refine InForm.issue h (fun _ _ h => InForm.withMatrix h (fun _ _ => ?_))
  dsimp only
  exact h.orMatrixTrap h.queued

theorem InForm.execMmt {x ta tw s} (h : InForm s) : Leads (execMmt x ta tw s) := by
  refine InForm.issue h (fun _ _ h => InForm.withMatrix h (fun _ _ => ?_))
  dsimp only
  exact h.orMatrixTrap h.modWg.queued

theorem InForm.execMprog {x s} (h : InForm s) : Leads (execMprog x s) := by
  refine InForm.issue h (fun _ _ h => ?_)
  split
  · exact h
  · split
    · exact h.uniResult
    · exact h

theorem InForm.execMatrixQueueRoom {tr s} (h : InForm s) : Leads (execMatrixQueueRoom tr s) := by
  refine InForm.unitStep ?_
  split
  · exact h.unblock.ite h
  · exact h

theorem InForm.execAdrainReg {x t z s} (h : InForm s) : Leads (execAdrainReg x t z s) := by
  refine InForm.issue h (fun _ _ h => ?_)
  split
  · exact h
  · exact h.withMatrix fun _ _ => h.orMatrixTrap h.returnLoads.queuedWait

theorem InForm.passRows {s core rows cols} (h : InForm s) : InForm (passRows s core rows cols).1 := by
  unfold Machine.passRows
  split
  exact h.modCore

theorem InForm.flagTrain {s e fl} (h : InForm s) : InForm (flagTrain s e fl) := by
  unfold Machine.flagTrain
  dsimp only
  split
  · refine InForm.modOp ?_
    split
    · exact h.modTrain
    · exact h
  · split
    · exact h.modTrain
    · exact h

theorem InForm.dropEntry {s w e} (h : InForm s) : InForm (dropEntry s w e) := h.modWg

theorem InForm.settleDraining {s uid} (h : InForm s) : InForm (settleDraining s uid) := by
  unfold Machine.settleDraining
  split
  · exact h.unblock.settleTrain.ite h
  · exact h

theorem InForm.finishEntry {s w e d} (h : InForm s) : InForm (finishEntry s w e d) := by
  refine InForm.settleDraining ?_
  split
  · split
    · refine InForm.endOp ?_
      split
      · exact h.dropEntry.unblock.modTrain.complete.ite h.dropEntry
      · exact h.dropEntry
    · split
      · exact h.dropEntry.unblock.modTrain.complete.ite h.dropEntry
      · exact h.dropEntry
  · split
    · exact h.dropEntry.unblock.modTrain.complete.ite h.dropEntry
    · exact h.dropEntry

theorem InForm.parkEntry {s w k e va kind pte len} (h : InForm s) : InForm (parkEntry s w k e va kind pte len) :=
  h.dropEntry.unblock.modTrain.park

theorem InForm.rowPlaces {s k row acc base n op near} (h : InForm s) (hnear : NearFormed near) :
    InForm (rowPlaces s k row acc base n op near).1 := by
  unfold Machine.rowPlaces
  split
  · exact h
  · next tr _ =>
    have hplaces : InForm (if row.isEmpty then
        Machine.translateAll s tr acc 64 ((List.range (n / 64)).map fun p => (p, base + BitVec.ofNat 64 (64 * p)))
        else (s, .ok row)).1 := by
      split
      · exact h.translateAll
      · exact h
    split
    · next e => exact hplaces.fst_eq e
    · next e =>
      have h := hplaces.fst_eq e
      split
      · exact h
      · split
        · next e1 => exact (h.askRemote _ e1).makeNear hnear
        · exact h

theorem InForm.putEntryIn {s w e} (h : InForm s) : InForm (putEntryIn s w e) := h.modWg
theorem InForm.settleRow {s k l} (h : InForm s) : InForm (settleRow s k l) := h.settleLoads
theorem InForm.nearRow {k s l} (h : InForm s) : InForm (nearRow k s l).1 := h.settleLoads

theorem InForm.storePieces {s k bs l} (h : InForm s) : InForm (storePieces s k bs l) :=
  h.foldl fun _ _ h => h.issueStore.performOverlapping

theorem InForm.storeRow {s k bs l} (h : InForm s) : InForm (storeRow s k bs l) := h.storePieces

theorem InForm.stepMmaMemory {s w k g e x t} (h : InForm s) : InForm (stepMmaMemory s w k g e x t) := by
  have hrow {row acc base n op} := h.rowPlaces (k := k) (row := row) (acc := acc) (base := base) (n := n) (op := op)
    (near := Machine.nearRow k) fun _ _ h => h.nearRow
  unfold Machine.stepMmaMemory
  dsimp only
  split
  · next e1 => exact (hrow.fst_eq e1).parkEntry
  · next e1 => exact (hrow.fst_eq e1).finishEntry
  · next e1 => exact (hrow.fst_eq e1).putEntryIn
  · next e1 =>
    have h := hrow.fst_eq e1
    exact h.settleRow.passRows.flagTrain.modWg.modTrain.finishEntry.ite h.settleRow.passRows.flagTrain.modWg.modTrain

theorem InForm.stepMmt {s w g e x ta tw} (h : InForm s) : InForm (stepMmt s w g e x ta tw) := by
  unfold Machine.stepMmt
  split
  dsimp only
  exact h.passRows.flagTrain.modWg.finishEntry.ite h.passRows.flagTrain.modWg

theorem InForm.endDrain {s w g e b z d} (h : InForm s) : InForm (endDrain s w g e b z d) :=
  (h.clearBanks.ite h).finishEntry

theorem InForm.drainRows {w k g b x t z n e s} (h : InForm s) : InForm (drainRows w k g b x t z n e s) := by
  induction n generalizing e s with
  | zero => exact h.endDrain
  | succ n ih =>
    have hrow {acc base n op bs} := h.rowPlaces (k := k) (row := e.row) (acc := acc) (base := base) (n := n) (op := op)
      (near := fun s l => (Machine.storePieces s k bs l, l.map fun p => (p.1, .data []))) fun _ _ h => h.storePieces
    unfold Machine.drainRows
    dsimp only
    split
    · next e1 => exact (hrow.fst_eq e1).parkEntry
    · next e1 => exact (hrow.fst_eq e1).finishEntry
    · next e1 => exact (hrow.fst_eq e1).putEntryIn
    · next e1 => exact ih (hrow.fst_eq e1).storeRow.flagTrain.modTrain

theorem InForm.stepDrain {s w k g e} (h : InForm s) : InForm (stepDrain s w k g e) := by
  unfold Machine.stepDrain
  dsimp only
  split
  · exact h.dropEntry.unblock.raiseAt
  · split
    · exact h.flagTrain.modTrain.endDrain
    · exact h.flagTrain.modWg.endDrain
    · exact h.drainRows
    · exact h

theorem InForm.endOrphan {s w e} (h : InForm s) : InForm (endOrphan s w e) := by
  refine InForm.settleDraining ?_
  split
  · split
    · refine InForm.endOp ?_
      split
      · exact h.dropEntry.modWg.unblock.raiseAt.ite h.dropEntry.modWg
      · exact h.dropEntry.modWg
    · split
      · exact h.dropEntry.modWg.unblock.raiseAt.ite h.dropEntry.modWg
      · exact h.dropEntry.modWg
  · split
    · exact h.dropEntry.modWg.unblock.raiseAt.ite h.dropEntry.modWg
    · exact h.dropEntry.modWg

theorem InForm.stepEntry {s w g e} (h : InForm s) : InForm (stepEntry s w g e) := by
  refine InForm.ite h.endOrphan ?_
  split
  · exact h.putWg.finishEntry
  · exact h.putWg.finishEntry
  · exact h.clearBanks.finishEntry
  · exact h.putWg.finishEntry
  · exact h.passRows.flagTrain.modWg.finishEntry
  · exact h.dropEntry.elim fun _ => h.stepMmaMemory
  · exact h.stepMmt
  · exact h.dropEntry.elim fun _ => h.stepDrain
  · exact h.dropEntry.elim fun _ => h.stepDrain
  · exact h.dropEntry.elim fun _ => h.stepDrain
  · exact h.dropEntry

theorem InForm.execArrayStep {core s} (h : InForm s) : Leads (execArrayStep core s) := by
  refine InForm.unitStep ?_
  split
  · exact h
  · split
    · split
      · exact h.modCore.stepEntry
      · exact h
    · exact h

theorem InForm.placeFollowOn {s op} (h : InForm s) : InForm (placeFollowOn s op) := by
  unfold Machine.placeFollowOn
  split
  · exact h
  · dsimp only
    refine InForm.ite h ?_
    split
    · exact h.ite h.endOp
    · split
      · refine InForm.ite h (InForm.ite h ?_)
        split
        · exact h.endOp
        · exact h.enqueue
      · exact h

/-! ### Windows and lines (`Machine/Window.lean`) -/

theorem InForm.unitWrite {s u va bs} (h : InForm s) : Carries id (unitWrite s u va bs) :=
  carries_map fun _ _ => h.foldl_fst fun _ _ h => h.writeBytes

theorem InForm.putSlot {s p slot words} (h : InForm s) : InForm (putSlot s p slot words) := h.writeBytes.ite h

theorem InForm.syncSlot {s l id} (h : InForm s) : InForm (syncSlot s l id) := by
  unfold Machine.syncSlot
  split
  · split
    · exact h.putSlot
    · exact h
  · exact h

theorem InForm.writeLate {s ln rec} (h : InForm s) : InForm (writeLate s ln rec).1 := by
  unfold Machine.writeLate
  dsimp only
  split
  · exact h
  · split
    · exact h
    · split
      · exact h
      · split
        · exact h.ringUnit
        · split
          · next e1 => exact (h.ringUnit.unitWrite _ e1).ringUnit
          · exact h.ringUnit.ringUnit

theorem InForm.lateRecord {s l rec} (h : InForm s) : InForm (lateRecord s l rec) := by
  unfold Machine.lateRecord
  split
  · exact h
  · split
    · next e1 => exact (h.writeLate.fst_eq e1).modLine

theorem InForm.ifHeld {s cluster s'} (h : InForm s) (h' : InForm s') : InForm (ifHeld s cluster s') :=
  h'.ite h

theorem InForm.deliverNext {s l ln} (h : InForm s) : InForm (deliverNext s l ln) := by
  unfold Machine.deliverNext
  split
  · exact h
  · dsimp only
    split
    · exact h.congr
    · split
      · exact h.congr
      · exact h.congr.putSlot

theorem InForm.takeRecord {s l ln rec rest} (h : InForm s) : InForm (takeRecord s l ln rec rest) := by
  refine InForm.ite h.congr.lateRecord (InForm.ite ?_ (h.congr.ite h.congr.deliverNext))
  split
  · exact h.congr.lateRecord
  · exact h.congr
  · exact h.congr.ite h.congr.syncSlot

theorem InForm.execResolveRecord {line s} (h : InForm s) : Leads (execResolveRecord line s) := by
  refine InForm.unitStep ?_
  split
  · exact h
  · refine InForm.ite h (InForm.ite (h.ifHeld h.deliverNext) ?_)
    split
    · exact h.ifHeld h.takeRecord
    · exact h

theorem InForm.execWindowPoolSlotFree {line s} (h : InForm s) : Leads (execWindowPoolSlotFree line s) := by
  refine InForm.unitStep ?_
  split
  · exact h.modLine.ite h
  · exact h

theorem InForm.execWatermarkResolve {line s} (h : InForm s) : Leads (execWatermarkResolve line s) := by
  refine InForm.unitStep ?_
  split
  · exact h
  · refine InForm.ite h ?_
    split
    · split
      exact h.congr
    · exact h

theorem InForm.execPaneComplete {line s} (h : InForm s) : Leads (execPaneComplete line s) := by
  refine InForm.unitStep ?_
  split
  · exact h
  · dsimp only
    exact h.congr.ite (h.congr.ite h)

theorem InForm.execLineFlush {line s} (h : InForm s) : Leads (execLineFlush line s) := by
  refine InForm.unitStep ?_
  split
  · exact h
  · dsimp only
    split
    · exact h
    · exact h.congr

theorem InForm.execLineFree {line s} (h : InForm s) : Leads (execLineFree line s) := by
  refine InForm.unitStep ?_
  split
  · exact h
  · exact h.congr.finishWaits.ite h

theorem InForm.execActivationBatchIssue {line s} (h : InForm s) : Leads (execActivationBatchIssue line s) := by
  refine InForm.unitStep ?_
  split
  · exact h
  · exact h.congr.ite h

theorem InForm.execActivationTrainAdmit {cluster s} (h : InForm s) : Leads (execActivationTrainAdmit cluster s) := by
  refine InForm.unitStep ?_
  split
  · split
    · exact h
    · dsimp only
      split
      · exact h.congr
      · exact h.congr.freshId.putTrain
  · exact h

theorem InForm.openLine {s cluster ln} (h : InForm s) : InForm (openLine s cluster ln).1 := by
  unfold Machine.openLine
  split
  · exact h
  · split
    · exact h
    · dsimp only
      exact h.congr

theorem InForm.loadBlock {c s va go} (h : InForm s) (hgo : ∀ a b d, InForm a → (go a b d).Formed) :
    (loadBlock c s va go).Formed :=
  h.withPlaces fun _ _ h => hgo _ _ _ h.clearReplies

theorem InForm.execLopen {x s} (h : InForm s) : Leads (execLopen x s) := by
  refine InForm.issue h (fun _ _ h => ?_)
  split
  · exact h
  · dsimp only
    exact h.performEarlier.loadBlock fun _ _ _ h => h.openLine

theorem InForm.staleFeeds {s l} (h : InForm s) : InForm (staleFeeds s l) := by
  refine InForm.foldl h (fun _ _ h => ?_)
  split
  · exact h.raiseAt
  · exact h

theorem InForm.closeLine {s l} (h : InForm s) : InForm (closeLine s l) := h.modLine.staleFeeds

theorem InForm.execLclose {x s} (h : InForm s) : Leads (execLclose x s) := by
  refine InForm.issue h (fun _ _ h => ?_)
  split
  · exact h
  · split
    · exact h
    · split
      · exact h
      · exact h.closeLine.waitHere

theorem InForm.feedBody {c s} (h : InForm s) : (feedBody c s).Formed := by
  unfold Machine.feedBody
  split
  · exact h
  · split
    · exact h
    · dsimp only
      split
      · exact h
      · split
        · next e1 => exact (h.translateAll.fst_eq e1).park
        · next e1 =>
            split
            · exact h.translateAll.fst_eq e1
            · exact (h.translateAll.fst_eq e1).performEarlier.modLine

theorem InForm.execFeedIntakeRoom {tr s} (h : InForm s) : Leads (execFeedIntakeRoom tr s) := by
  refine InForm.unitStep ?_
  split
  · exact h.unblock.ite h
  · exact h

theorem InForm.execWmark {x s} (h : InForm s) : Leads (execWmark x s) := by
  refine InForm.issue h (fun _ _ h => ?_)
  split
  · exact h
  · split
    · exact h
    · exact h.performEarlier.modLine

theorem InForm.execLstat {x s} (h : InForm s) : Leads (execLstat x s) := by
  refine InForm.issue h (fun _ _ h => ?_)
  split
  · exact h
  · split
    · exact h.uniResult
    · exact h.uniResult

theorem InForm.withAct {c s go} (h : InForm s) (hgo : ∀ a b, (go a b).Formed) : (withAct c s go).Formed := by
  unfold Machine.withAct
  split
  · exact h
  · split
    · exact h
    · split
      · exact h
      · exact hgo _ _

theorem InForm.execWrec {x s} (h : InForm s) : Leads (execWrec x s) := by
  refine InForm.issue h (fun _ _ h => InForm.withAct h (fun _ _ => ?_))
  dsimp only
  split
  · exact h
  · exact h

theorem InForm.execWpane {x s} (h : InForm s) : Leads (execWpane x s) := by
  refine InForm.issue h (fun _ _ h => InForm.withAct h (fun _ _ => ?_))
  dsimp only
  split
  · exact h
  · exact h

theorem InForm.execWkey {x s} (h : InForm s) : Leads (execWkey x s) := by
  refine InForm.issue h (fun _ _ h => ?_)
  split
  · exact h
  · exact h.withAct fun _ _ => h

theorem InForm.writeSlots {c first count ssize l s} (h : InForm s) : InForm (writeSlots c first count ssize l s) := by
  refine InForm.foldl h (fun _ _ h => ?_)
  dsimp only
  split
  · exact h.issueStore
  · exact h

theorem InForm.emitSlots {c s u pa r ticket first count} (h : InForm s) :
    (emitSlots c s u pa r ticket first count).Formed := by
  unfold Machine.emitSlots
  dsimp only
  split
  · next e => exact (h.translateAll.fst_eq e).ringAt.park
  · next e =>
      split
      · exact (h.translateAll.fst_eq e).writeSlots.performEarlier.ringAt
      · exact (h.translateAll.fst_eq e).ringAt

theorem InForm.wemitBody {c s} (h : InForm s) : (wemitBody c s).Formed := by
  refine h.withAct fun _ _ => Res.Formed.ite h.performEarlier ?_
  split
  · next e => exact (h.performEarlier.access.fst_eq e).park
  · next e => exact h.performEarlier.access.fst_eq e
  · next e => exact h.performEarlier.access.fst_eq e
  · next e =>
    have h := h.performEarlier.access.fst_eq e
    split
    · exact h
    · exact Res.Formed.ite h (Res.Formed.ite h.ringAt (Res.Formed.ite h.ringAt h.ringAt.emitSlots))

theorem InForm.execWemitRetry {tr s} (h : InForm s) : Leads (execWemitRetry tr s) := by
  refine InForm.unitStep ?_
  split
  · split
    · exact h.unblock
    · exact h
  · exact h

theorem InForm.endBody {i how c s} (h : InForm s) : (endBody i how c s).Formed := by
  unfold Machine.endBody
  split
  · exact h
  · exact h.withAct fun _ _ =>
      (h.performEarlier.complete.modLine.foldl fun _ _ h => h.elim fun _ => h.syncSlot).modTrain.exitThreads

/-! ### Joins (`Machine/Join.lean`) -/

theorem InForm.fillError {s j} (h : InForm s) : InForm (fillError s j) := h.modJoin

theorem InForm.changeCell {s j jn i f} (h : InForm s) : InForm (changeCell s j jn i f) := by
  unfold Machine.changeCell
  split
  · exact h.writeMem
  · exact h.fillError

theorem InForm.changeCells {s j jn f} (h : InForm s) : InForm (changeCells s j jn f) :=
  h.foldl fun _ _ h => h.changeCell

theorem InForm.substitute {s j jn m i} (h : InForm s) : InForm (substitute s j jn m i) := by
  unfold Machine.substitute
  split
  · exact h.fillError
  · split
    · split
      dsimp only
      exact (h.fillError.ite h).writeMem
    · exact h.fillError

theorem InForm.fillCells {s j jn m} (h : InForm s) : InForm (fillCells s j jn m) := by
  unfold Machine.fillCells
  split
  · split
    · exact h.ite h.changeCells
    · exact h
  · dsimp only
    exact (h.foldl fun _ _ h => h.substitute).modJoin
  · dsimp only
    exact (h.foldl fun _ _ h => h.changeCell).modJoin
  · exact h

theorem InForm.abandonWait {s k} (h : InForm s) : InForm (abandonWait s k) := by
  unfold Machine.abandonWait
  split
  · exact h
  · dsimp only
    split
    · exact h.withdrawAlloc.unblock.endContribs.modTrain.forsake.touchBarriers
    · exact h.withdrawAlloc.unblock.endContribs.modTrain.forsake

theorem InForm.goToKpc {s k} (h : InForm s) : InForm (goToKpc s k) := by
  unfold Machine.goToKpc
  split
  · exact h
  · dsimp only
    exact h.modTrain.failActivations.exitThreads.ite h.modTrain.modTrain

theorem InForm.killNow {s k} (h : InForm s) : InForm (killNow s k) := h.abandonWait.goToKpc

theorem InForm.markKill {s uid kpc} (h : InForm s) : InForm (markKill s uid kpc) := by
  unfold Machine.markKill
  split
  · exact h.modTrain
  · exact h.congr

theorem InForm.markStragglers {s j kpc} (h : InForm s) : InForm (markStragglers s j kpc) := by
  unfold Machine.markStragglers
  split
  · exact h
  · dsimp only
    exact ((h.modJoin.foldl fun _ _ h => h.markKill).foldl fun _ _ h => h.abandonWait).foldl fun _ _ h => h.goToKpc

theorem InForm.wakeJoin {s j} (h : InForm s) : InForm (wakeJoin s j) := by
  unfold Machine.wakeJoin
  split
  · exact h
  · exact h.modJoin.finishWaits.freeJoin.ite h.freeJoin

theorem InForm.wakeFreed {s} (h : InForm s) : InForm (wakeFreed s) := h.congr.foldl fun _ _ h => h.finishWaits

theorem InForm.writeJoinRecord {s jn} (h : InForm s) : InForm (writeJoinRecord s jn) := by
  unfold Machine.writeJoinRecord
  split
  · exact h.writeMem.writeMem.writeMem.writeMem
  · exact h

theorem InForm.writeNotify {s j jn} (h : InForm s) : InForm (writeNotify s j jn) := by
  refine InForm.ite h ?_
  split
  · exact h.writeMem
  · exact h.fillError

theorem InForm.sendKills {s j jn} (h : InForm s) : InForm (sendKills s j jn) :=
  (h.foldl fun _ _ h => h.sendFabric).ite h

theorem InForm.releaseJoin {s j cause} (h : InForm s) : InForm (releaseJoin s j cause) := by
  unfold Machine.releaseJoin
  split
  · exact h
  · dsimp only
    split
    · exact h.modJoin.markStragglers.modJoin.fillCells.ite h.modJoin.markStragglers.modJoin
    · split
      · exact (h.modJoin.markStragglers.modJoin.fillCells.ite
          h.modJoin.markStragglers.modJoin).writeJoinRecord.writeNotify
      · exact (h.modJoin.markStragglers.modJoin.fillCells.ite
          h.modJoin.markStragglers.modJoin).writeJoinRecord.writeNotify.sendKills.wakeJoin

theorem InForm.countCasualty {s j uid} (h : InForm s) : InForm (countCasualty s j uid) := by
  unfold Machine.countCasualty
  split
  · exact h
  · exact (h.modJoin.freeJoin.ite (h.modJoin.releaseJoin.ite h.modJoin)).ite h

theorem InForm.dropStaging {s j uid} (h : InForm s) : InForm (dropStaging s j uid) := h.modJoin

theorem InForm.commitCells {s j deltas} (h : InForm s) : InForm (commitCells s j deltas) := by
  refine InForm.foldl h (fun _ _ h => ?_)
  split
  · exact h
  · exact h.fillError.ite h.changeCell.modJoin

theorem InForm.commitArrival {s j deltas w} (h : InForm s) : InForm (commitArrival s j deltas w) := by
  unfold Machine.commitArrival
  dsimp only
  split
  · exact h.commitCells.modJoin.releaseJoin.ite h.commitCells.modJoin
  · exact h.commitCells.modJoin

theorem InForm.setArrived {s j uid} (h : InForm s) : InForm (setArrived s j uid) := h.modJoin
theorem InForm.lateArrival {s j uid} (h : InForm s) : InForm (lateArrival s j uid) := h.modJoin
theorem InForm.sendArrival {s jn w deltas} (h : InForm s) : InForm (sendArrival s jn w deltas) := h.sendFabric

theorem InForm.arriveAt {s part uid marked handle w} (h : InForm s) : (arriveAt s part uid marked handle w).Formed := by
  unfold Machine.arriveAt
  split
  · exact h
  · dsimp only
    split
    · exact h.countCasualty
    · split
      · exact h.countCasualty.enrol.lateArrival.freeJoin
      · split
        · exact h.countCasualty.enrol.dropStaging
        · split
          · exact h.countCasualty.enrol.dropStaging
          · split
            · exact h.countCasualty.enrol.dropStaging.ite h.countCasualty.enrol.dropStaging.sendArrival
            · exact h.countCasualty.enrol.setArrived.commitArrival

theorem InForm.unitArrive {s part handle} (h : InForm s) : InForm (unitArrive s part handle) := by
  unfold Machine.unitArrive
  split
  · exact h
  · split
    · exact h.ite (h.sendArrival.ite h.commitArrival)
    · exact h

theorem InForm.execKill {tr s} (h : InForm s) : Leads (execKill tr s) := by
  refine InForm.unitStep ?_
  split
  · exact h.killNow.ite h
  · exact h

theorem InForm.execJkp {x s} (h : InForm s) : Leads (execJkp x s) := by
  refine InForm.issue h (fun _ _ h => ?_)
  split
  · exact h.killNow
  · exact h

theorem InForm.registerJoin {s jn} (h : InForm s) : InForm (registerJoin s jn).1 := by
  unfold Machine.registerJoin
  split
  · exact h
  · dsimp only
    split
    · exact h.congr.writeMem
    · exact h.congr

theorem InForm.withPieces {c s n addrs go} (h : InForm s) (hgo : ∀ a b d, InForm a → (go a b d).Formed) :
    (withPieces c s n addrs go).Formed := by
  unfold Machine.withPieces
  split
  · next e => exact (h.translateAll.fst_eq e).park
  · next e =>
      dsimp only
      exact hgo _ _ _ (h.translateAll.fst_eq e).settleLoads

theorem InForm.withRecordOr {c s acc align va bad go} (h : InForm s)
    (hbad : ∀ a b d, InForm b → (bad a b d).Formed) (hgo : ∀ a b, InForm a → (go a b).Formed) :
    (withRecordOr c s acc align va bad go).Formed := by
  unfold Machine.withRecordOr
  split
  · next e =>
      split
      · exact (h.access.fst_eq e).park
      · exact hbad _ _ _ (h.access.fst_eq e)
      · exact h.access.fst_eq e
      · exact hgo _ _ (h.access.fst_eq e)

theorem InForm.withRecord {c s acc align va go} (h : InForm s) (hgo : ∀ a b, InForm a → (go a b).Formed) :
    (withRecord c s acc align va go).Formed :=
  h.withRecordOr (fun _ _ _ h => h) (fun _ _ h => hgo _ _ h)

theorem InForm.jopenFin {s jn trap} (h : InForm s) : (jopenFin s jn trap).Formed := by
  unfold Machine.jopenFin
  split
  · exact h
  · split
    · next e => exact h.registerJoin.fst_eq e

theorem InForm.jopenList {c s jn} (h : InForm s) : (jopenList c s jn).Formed := by
  refine InForm.withPieces h (fun _ _ _ h => ?_)
  split
  · exact h.jopenFin
  · split
    · exact h.jopenFin
    · refine InForm.withPieces h (fun _ _ _ h => ?_)
      split
      · exact h.jopenFin
      · split
        · exact h.jopenFin
        · exact h.jopenFin

theorem InForm.execJopen {x s} (h : InForm s) : Leads (execJopen x s) := by
  refine h.issue fun _ _ h => Res.Formed.ite h ?_
  refine InForm.withRecordOr h.performEarlier (fun _ _ _ h => Res.Formed.ite h h.jopenFin) fun _ _ h => ?_
  exact Res.Formed.ite h.jopenFin (Res.Formed.ite h.jopenFin h.jopenList)

theorem InForm.awaitHome {i c s slot rest flags trap} (h : InForm s) : (awaitHome i c s slot rest flags trap).Formed :=
  h.complete.modTrain.elim fun _ => h.complete.modTrain.raiseAfter

theorem InForm.execJarr {x s} (h : InForm s) : Leads (execJarr x s) := by
  refine InForm.issue h (fun _ _ h => ?_)
  split
  · exact h
  · dsimp only
    split
    · next e => exact h.performEarlier.arriveAt.result e
    · next e => exact (h.performEarlier.arriveAt.sent e).awaitHome

theorem InForm.execJwait {x s} (h : InForm s) : Leads (execJwait x s) := by
  refine InForm.issue h (fun _ _ h => ?_)
  split
  · exact h
  · split
    · exact h
    · split
      · exact h.uniResult
      · split
        · split
          · exact h.uniResult
          · exact h.waitHere
        · exact h.uniResult

theorem InForm.execJstat {x s} (h : InForm s) : Leads (execJstat x s) := by
  refine InForm.issue h (fun _ _ h => ?_)
  split
  · exact h
  · split
    · exact h.uniResult
    · exact h.uniResult

theorem InForm.homeAnswered {s j uid result} (h : InForm s) : InForm (homeAnswered s j uid result) :=
  h.setArrived.freeJoin.ite h

theorem InForm.execProxyReply {tr result s} (h : InForm s) : Leads (execProxyReply tr result s) := by
  refine InForm.unitStep ?_
  split
  · split
    · dsimp only
      exact h.homeAnswered.modTrain.unblock.ite h.homeAnswered.modTrain
    · exact h
  · exact h

theorem InForm.execHomeRemoteArrival {handle source weight deltas s} (h : InForm s) :
    Leads (execHomeRemoteArrival handle source weight deltas s) := by
  unfold Machine.execHomeRemoteArrival
  split
  · exact h.sendFabric.unitStep
  · split
    · exact h.commitArrival.sendFabric.unitStep
    · exact h.sendFabric.unitStep

theorem InForm.execProxyKill {slot status s} (h : InForm s) : Leads (execProxyKill slot status s) := by
  refine InForm.unitStep ?_
  split
  · refine InForm.ite h (InForm.wakeJoin ?_)
    split
    · exact h.markStragglers.modJoin.writeMem
    · exact h.markStragglers.modJoin
  · exact h

theorem InForm.cancelJoin {s j} (h : InForm s) : InForm (cancelJoin s j) := by
  unfold Machine.cancelJoin
  split
  · exact h
  · refine InForm.ite h ?_
    dsimp only
    split
    · exact h.modJoin
    · exact h.modJoin.writeJoinRecord.sendKills.freeJoin

/-! ### Tasks (`Machine/Task.lean`) -/

theorem InForm.taskTrapNext {c s cause} (h : InForm s) : (taskTrapNext c s cause).Formed := h
theorem InForm.setState {s pa st} (h : InForm s) : InForm (setState s pa st) := h.writeMem
theorem InForm.setFcode {s pa code} (h : InForm s) : InForm (setFcode s pa code) := h.writeMem
theorem InForm.setCore {s pa core} (h : InForm s) : InForm (setCore s pa core) := h.writeMem
theorem InForm.makeReady {s p asid va pa} (h : InForm s) : InForm (makeReady s p asid va pa) := h.setState.setReadyQueue

theorem InForm.succList {s tr n va} (h : InForm s) : InForm (succList s tr n va).1 := by
  induction n generalizing s va with
  | zero => exact h
  | succ n ih =>
    unfold Machine.succList
    dsimp only
    split
    · exact h.access
    · exact h.access
    · exact h.access
    · split
      · exact h.access
      · split
        · next e => exact (ih h.access).fst_eq e
        · exact ih h.access

theorem InForm.succPlaces {s tr l} (h : InForm s) : InForm (succPlaces s tr l).1 := by
  induction l generalizing s with
  | nil => exact h
  | cons a l ih =>
    unfold Machine.succPlaces
    split
    · next e => exact h.access.fst_eq e
    · next e =>
      have hrest := ih (h.access.fst_eq e)
      split
      · next e1 =>
        split
        · exact hrest.fst_eq e1
        · exact hrest.fst_eq e1
        · exact hrest.fst_eq e1
      · exact hrest

theorem InForm.successors {s tr pa} (h : InForm s) : InForm (successors s tr pa).1 := by
  have hlist {n va r} : InForm (if bitsAt (readMem s pa 8) 48 1 = 1 then Machine.succList s tr n va else (s, r)).1 := by
    split
    · exact h.succList
    · exact h
  unfold Machine.successors
  dsimp only
  split
  · next e => exact hlist.fst_eq e
  · next e =>
    split
    · next e1 => exact (hlist.fst_eq e).succPlaces.fst_eq e1
    · exact (hlist.fst_eq e).succPlaces

theorem InForm.decrement {s p asid l} (h : InForm s) : InForm (decrement s p asid l).1 := by
  induction l generalizing s with
  | nil => exact h
  | cons a l ih =>
    unfold Machine.decrement
    dsimp only
    split
    · exact ih h
    · exact ih (h.writeMem.makeReady.ite h.writeMem)

theorem InForm.execTsub {x s} (h : InForm s) : Leads (execTsub x s) := by
  refine InForm.issue h (fun _ _ h => ?_)
  split
  · exact h
  · dsimp only
    refine InForm.withRecord h.performEarlier (fun _ _ h => ?_)
    split
    · exact h.uniResult
    · split
      · exact h.uniResult
      · split
        · exact h
        · exact h.makeReady.uniResult

theorem InForm.tdoneFin {c s pa l} (h : InForm s) : InForm (tdoneFin c s pa l).1 := h.setState.decrement.modTrain

theorem InForm.tdoneBody {i c s pa} (h : InForm s) : (tdoneBody i c s pa).Formed := by
  unfold Machine.tdoneBody
  split
  · exact h.uniResult
  · split
    · next e => exact (h.successors.fst_eq e).park
    · next e =>
        split
        · exact h.successors.fst_eq e
        · dsimp only
          split
          · exact (h.successors.fst_eq e).tdoneFin
          · split
            · next e1 => exact ((h.successors.fst_eq e).arriveAt.result e1).tdoneFin
            · next e1 => exact ((h.successors.fst_eq e).arriveAt.sent e1).tdoneFin.awaitHome

theorem InForm.execTdone {x s} (h : InForm s) : Leads (execTdone x s) := by
  refine InForm.issue h (fun _ _ h => ?_)
  split
  · exact h
  · exact h.performEarlier.withRecord fun _ _ h => h.tdoneBody

theorem InForm.takeNext {s k mask} (h : InForm s) : Carries Prod.snd (takeNext s k mask) := by
  unfold Machine.takeNext
  split
  · exact carries_none
  · split
    · exact carries_some h.modTrain
    · refine carries_map fun _ _ => ?_
      split
      exact h.setReadyQueue

theorem InForm.readPred {c s replies rec' pa} (h : InForm s) : (readPred c s replies rec' pa).Formed := by
  unfold Machine.readPred
  dsimp only
  split
  · exact h.access.modTrain.park
  · exact h.access
  · exact h.access
  · split
    · exact h.access
    · exact h.access
    · split
      · next e2 => exact (h.access.clearReplies.askRemote _ e2).modTrain
      · exact h.access

theorem InForm.oweTrap {s k r} (h : InForm s) : InForm (oweTrap s k r) := h.modTrain
theorem InForm.endDispatch {s k} (h : InForm s) : InForm (endDispatch s k) := h.modTrain

theorem InForm.takeTask {c s va pa} (h : InForm s) : (takeTask c s va pa).Formed := by
  unfold Machine.takeTask
  dsimp only
  split
  · exact h.setState.setCore.endDispatch.modTrain.enrol.ite h.setState.setCore.endDispatch.modTrain
  · exact h.setState.setCore.endDispatch.modTrain

theorem InForm.skipTask {c s0 s rec' pa} (h : InForm s0) (h' : InForm s) : (skipTask c s0 s rec' pa).Formed := by
  unfold Machine.skipTask
  split
  · next e => exact (h'.successors.fst_eq e).modTrain.park
  · next e =>
    have h' := h'.successors.fst_eq e
    split
    · exact h.returnHeld
    · refine InForm.ite (InForm.decrement ?_) (InForm.oweTrap (InForm.decrement ?_))
      all_goals exact h'.setState.setCore.ite h'.setState.setCore.unitArrive

theorem InForm.faultRecord {c s va pa pv cause} (h : InForm s) : InForm (faultRecord c s va pa pv cause) :=
  h.setState.setFcode.oweTrap.modTrain.elim fun _ => h.setState.setFcode.oweTrap.modTrain.recordFault

theorem InForm.dispatchRound {c mask replies s r} (h : InForm s) (e : dispatchRound c mask replies s = some r) :
    r.Formed := by
  obtain ⟨⟨rec', s1⟩, e1, rfl⟩ := Option.map_eq_some_iff.1 e
  have h1 : InForm s1 := h.takeNext _ e1
  dsimp only
  split
  · exact h1.requeueAt
  · split
    · exact h1.takeTask
    · split
      · next e2 => exact h1.readPred.wait e2
      · next e2 => exact (h1.readPred.bad e2).faultRecord
      · next e2 => exact h.skipTask (h1.readPred.value e2)
      · next e2 => exact (h1.readPred.value e2).takeTask

theorem InForm.dispatchEmpty {c mask s} (h : InForm s) : (dispatchEmpty c mask s).Formed := by
  unfold Machine.dispatchEmpty
  split
  · exact h
  · split
    · exact h.endDispatch
    · exact h.clearReplies

theorem InForm.dispatchLoop {c mask n replies s} (h : InForm s) : (dispatchLoop c mask n replies s).Formed := by
  induction n generalizing replies s with
  | zero => exact h.modTrain
  | succ n ih =>
    unfold Machine.dispatchLoop
    split
    · exact h.dispatchEmpty
    · next e => exact h.dispatchRound e
    · next e => exact ih (h.dispatchRound e)

theorem InForm.tfetchTaskBody {c s} (h : InForm s) : (tfetchTaskBody c s).Formed := by
  unfold Machine.tfetchTaskBody
  split
  · exact h
  · split
    · exact h.taskTrapNext
    · split
      · exact h.uniResult
      · dsimp only
        exact h.performEarlier.modTrain.dispatchLoop

theorem InForm.execTfetchTaskWake {tr s} (h : InForm s) : Leads (execTfetchTaskWake tr s) := by
  refine InForm.unitStep ?_
  split
  · split
    · exact h.unblock.ite h
    · exact h
  · exact h

theorem InForm.execTfetchTaskDeadline {tr s} (h : InForm s) : Leads (execTfetchTaskDeadline tr s) := by
  refine InForm.unitStep ?_
  split
  · split
    · exact h.unblock.ite h
    · exact h
  · exact h

/-! ### Launches (`Machine/LaunchClass.lean`) -/

theorem InForm.trimGrants {s w} (h : InForm s) : InForm (trimGrants s w) := by
  unfold Machine.trimGrants
  split
  · exact h
  · dsimp only
    exact h.putWg

theorem InForm.takeGrant {s w l level tr} (h : InForm s) : InForm (takeGrant s w l level tr).2 := by
  unfold Machine.takeGrant
  split
  · split
    · split
      exact h.congr
    · split
      · exact h
      · split
        exact h.congr.putWg
  · exact h

theorem InForm.withLaunch {c s go} (h : InForm s) (hgo : ∀ a b, (go a b).Formed) : (withLaunch c s go).Formed := by
  unfold Machine.withLaunch
  split
  · exact h
  · split
    · split
      · exact h.taskTrapNext
      · exact hgo _ _
    · exact h.taskTrapNext

theorem InForm.execTfetch {x s} (h : InForm s) : Leads (execTfetch x s) := by
  refine InForm.issue h (fun _ _ h => InForm.withLaunch h (fun _ _ => ?_))
  dsimp only
  split
  · exact h.taskTrapNext
  · exact h.modLaunch.takeGrant.modTrain.trimGrants.uniResult

theorem InForm.poolLaunch {s x} (h : InForm s) : Carries Prod.fst (poolLaunch s x) := by
  unfold Machine.poolLaunch
  split
  · exact carries_none
  · split
    · next e1 =>
        dsimp only
        exact carries_some (h.freshId.snd_eq e1).congr

theorem InForm.freePool {s l} (h : InForm s) : InForm (freePool s l) := by
  unfold Machine.freePool
  split
  · exact h.congr.modLaunch
  · exact h

theorem InForm.execLaunch {x s} (h : InForm s) : Leads (execLaunch x s) := by
  refine InForm.issue h (fun _ _ h => InForm.withLaunch h (fun _ _ => InForm.withRecord h (fun _ _ h => ?_)))
  split
  · exact h.uniResult
  · split
    · exact h.uniResult
    · next e => exact (h.performEarlier.poolLaunch _ e).uniResult

theorem InForm.execLwait {x s} (h : InForm s) : Leads (execLwait x s) := by
  refine InForm.issue h (fun _ _ h => InForm.withLaunch h (fun _ _ => ?_))
  split
  · exact h.uniResult
  · split
    · exact h.uniResult
    · split
      · exact h.freePool.uniResult
      · exact h.waitHere

theorem InForm.execTsel {x s} (h : InForm s) : Leads (execTsel x s) := by
  refine InForm.issue h (fun _ _ h => InForm.withLaunch h (fun _ _ => ?_))
  dsimp only
  split
  · exact h
  · split
    · exact h.uniResult
    · exact h.withPieces fun _ _ _ h => h

theorem InForm.readHeaders {s p} (h : InForm s) : InForm (readHeaders s p) := h.congr rfl
theorem InForm.writeComp {s l off v} (h : InForm s) : InForm (writeComp s l off v) := h.getD h.unitWrite
theorem InForm.freeChildren {s l} (h : InForm s) : InForm (freeChildren s l) := h.foldl fun _ _ h => h.freePool.ite h

theorem InForm.completeLaunch {s l word} (h : InForm s) : InForm (completeLaunch s l word) := by
  unfold Machine.completeLaunch
  split
  · exact h
  · dsimp only
    split
    · exact h.modLaunch.freeChildren
    · exact h.modLaunch.freeChildren.finishWaits.freePool.ite h.modLaunch.freeChildren.finishWaits

theorem InForm.execLaunchInvalid {launch s} (h : InForm s) : Leads (execLaunchInvalid launch s) := by
  refine InForm.unitStep ?_
  split
  · exact h
  · refine InForm.ite h ?_
    split
    · exact h.completeLaunch
    · exact h.ite (h.writeComp.ite h).modLaunch.completeLaunch

theorem InForm.placeTrains {l id w core trn slots s} (h : InForm s) : InForm (placeTrains l id w core trn slots s) := by
  induction slots generalizing trn s with
  | nil => exact h
  | cons slot slots ih => exact ih h.freshId.putTrain

theorem InForm.placeWg {s id core} (h : InForm s) : InForm (placeWg s id core) := by
  unfold Machine.placeWg
  split
  · exact h
  · split
    · exact h
    · split
      · next e2 =>
          dsimp only
          exact (h.freshId.snd_eq e2).putWg.modLaunch.placeTrains

theorem InForm.execLaunchAdmit {part s} (h : InForm s) : Leads (execLaunchAdmit part s) := by
  refine InForm.unitStep (InForm.ite h ?_)
  dsimp only
  split
  · exact h.readHeaders
  · exact h.readHeaders.foldl fun _ _ h => h.placeWg

theorem InForm.writeCompletion {s l code} (h : InForm s) : InForm (writeCompletion s l code) :=
  h.writeComp.writeComp.writeComp.writeComp.writeComp.writeComp.writeComp.writeComp

theorem InForm.execLaunchComplete {launch s} (h : InForm s) : Leads (execLaunchComplete launch s) := by
  refine InForm.unitStep ?_
  split
  · exact h
  · exact h.ite (h.writeCompletion.ite h).completeLaunch

theorem InForm.startDeps {id x l s} (h : InForm s) : InForm (startDeps id x l s).1 := by
  induction l generalizing s with
  | nil => exact h
  | cons va l ih =>
    unfold Machine.startDeps
    split
    · exact h
    · next e => exact ih (h.poolLaunch _ e)

theorem InForm.execDependantsStart {launch s} (h : InForm s) : Leads (execDependantsStart launch s) := by
  refine InForm.unitStep ?_
  split
  · exact h
  · refine InForm.ite ?_ (InForm.ite ?_ h)
    · split
      · next e1 => exact (h.startDeps.fst_eq e1).modLaunch
    · split
      · next e1 => exact (h.startDeps.fst_eq e1).modLaunch

/-! ### The copy engine and exchanges (`Machine/Engine.lean`) -/

theorem InForm.addOp {s o} (h : InForm s) : InForm (addOp s o) := h

theorem InForm.takeFuture {s asid launch line} (h : InForm s) : Carries Prod.snd (takeFuture s asid launch line) :=
  carries_map fun _ _ => h.congr

theorem InForm.markResult {i c s a3 trap} (h : InForm s) : (markResult i c s a3 trap).Formed := by
  unfold Machine.markResult
  split
  · dsimp only
    exact (h.complete.ite h.complete.modTrain).elim fun _ => (h.complete.ite h.complete.modTrain).raiseAfter
  · exact h

theorem InForm.engineBody {i kind c s} (h : InForm s) : (engineBody i kind c s).Formed := by
  unfold Machine.engineBody
  split
  · exact h
  · dsimp only
    split
    · exact h
    · refine InForm.loadBlock h.performEarlier (fun _ _ _ h => ?_)
      split
      · exact h
      · split
        · exact h
        · next e => exact (h.takeFuture _ e).addOp.markResult

theorem InForm.execEngineQueueRoom {tr s} (h : InForm s) : Leads (execEngineQueueRoom tr s) := by
  refine InForm.unitStep ?_
  split
  · exact h.ite h.unblock
  · exact h.unblock.ite h
  · exact h

theorem InForm.execFutureEntryFree {index s} (h : InForm s) : Leads (execFutureEntryFree index s) := by
  refine InForm.unitStep ?_
  split
  · exact h
  · dsimp only
    exact h.congr.ite h

theorem InForm.openStream {s o} (h : InForm s) : InForm (openStream s o) := h.congr.ite h

theorem InForm.execEngineOperationStart {op s} (h : InForm s) : Leads (execEngineOperationStart op s) := by
  refine InForm.unitStep ?_
  split
  · exact h
  · refine InForm.ite h (InForm.ite h.endOp ?_)
    split
    · exact h.endOp.openStream.closeStream
    · exact h.ite h.phaseTile.phaseTile.openStream.modOp

theorem InForm.pauseOp {s op o va pte} (h : InForm s) : InForm (pauseOp s op o va pte) := by
  unfold Machine.pauseOp
  split
  · exact h
  · next e => exact (h.takeOpFault _ e).modOp

theorem InForm.faultOp {s op o va cause} (h : InForm s) : InForm (faultOp s op o va cause) :=
  (h.logViolation.ite h).endOp

theorem InForm.holdPage {s op o va} (h : InForm s) : InForm (holdPage s op o va) := by
  unfold Machine.holdPage
  split
  · exact h.modOp
  · exact h

theorem InForm.putPiece {s op o n bs} (h : InForm s) : InForm (putPiece s op o n bs) := by
  unfold Machine.putPiece
  split
  · exact h.pauseOp
  · exact h.faultOp
  · exact h.modWg.modOp
  · exact h.writeBytes.holdPage.modOp

theorem InForm.copyPiece {s op o n} (h : InForm s) : InForm (copyPiece s op o n) := by
  unfold Machine.copyPiece
  split
  · exact h.pauseOp
  · exact h.faultOp
  · exact h.putPiece
  · exact h.putPiece

theorem InForm.pieceStep {s op n} (h : InForm s) : InForm (pieceStep s op n) := by
  unfold Machine.pieceStep
  split
  · exact h
  · exact h.ite (h.endOp.ite ((h.elim fun _ => h.holdPage).ite (h.ite h.copyPiece)))

theorem InForm.execCopyComplete {op s} (h : InForm s) : Leads (execCopyComplete op s) := by
  refine InForm.unitStep ?_
  split
  · exact h
  · split
    · exact h.endOp
    · exact h.ite (h.endPhases.modOp.placeFollowOn.ite h.endOp)

theorem InForm.withSpan {s op o sp go} (h : InForm s) (hgo : ∀ a, InForm (go a)) :
    InForm (withSpan s op o sp go) := by
  unfold Machine.withSpan
  split
  · exact hgo _
  · exact h.pauseOp
  · exact h.faultOp

theorem InForm.writePlaces {s l bs} (h : InForm s) : InForm (writePlaces s l bs) := h.foldl fun _ _ h => h.writeBytes

theorem InForm.writeRows {s op o base rows go} (h : InForm s) (hgo : ∀ s, InForm s → InForm (go s)) :
    InForm (writeRows s op o base rows go) := by
  induction rows generalizing go with
  | nil => exact hgo s h
  | cons row rows ih => exact h.withSpan fun _ => ih fun _ h => hgo _ h.writePlaces.holdPage

theorem InForm.execEngineFaultPause {op s} (h : InForm s) : Leads (execEngineFaultPause op s) := by
  refine InForm.unitStep ?_
  split
  · exact h
  · refine InForm.ite h ?_
    split
    · exact h
    · split
      · exact h.pauseOp
      · exact h.pauseOp
      · exact h

/-! ### The decode engine (`Machine/Decoder.lean`) -/

theorem InForm.withContext {s op o l go} (h : InForm s) (hgo : ∀ pages, InForm (go pages)) :
    InForm (withContext s op o l go) := by
  induction l generalizing go with
  | nil => exact hgo []
  | cons va l ih =>
    unfold Machine.withContext
    split
    · exact ih fun _ => hgo _
    · exact h.pauseOp
    · exact h.faultOp
    · exact h

theorem InForm.loseContext {s need pages} (h : InForm s) : InForm (loseContext s need pages) := by
  refine InForm.foldl h (fun _ _ h => ?_)
  split
  · next e =>
      dsimp only
      exact (h.freshFree.snd_eq e).writeBytes

theorem InForm.finishDec {s op o record code detail next} (h : InForm s) :
    InForm (finishDec s op o record code detail next) :=
  h.withSpan fun _ => h.writePlaces.congr.endOp

theorem InForm.writeDec {s op o unit p old rows f} (h : InForm s) : InForm (writeDec s op o unit p old rows f) := by
  unfold Machine.writeDec
  split
  · exact h.writeRows fun _ h => h.finishDec
  · split
    · exact h.endOp
    · exact h.modWg.finishDec

theorem InForm.decodeOp {s op o unit} (h : InForm s) : InForm (decodeOp s op o unit) :=
  h.finishDec.ite (h.endOp.ite (h.endOp.ite (h.withContext fun _ => h.loseContext.writeDec)))

theorem InForm.execDecComplete {op s} (h : InForm s) : Leads (execDecComplete op s) := by
  refine InForm.unitStep ?_
  split
  · exact h
  · exact h.ite (h.endOp.ite (h.withSpan fun _ => h.decodeOp))

/-! ### The pyramid engine (`Machine/Pyramid.lean`) -/

theorem InForm.readRows {s op o len l go} (h : InForm s) (hgo : ∀ r, InForm (go r)) :
    InForm (readRows s op o len l go) := by
  induction l generalizing go with
  | nil => exact hgo []
  | cons off l ih => exact h.withSpan fun _ => ih fun _ => hgo _

theorem InForm.execPyrComplete {op s} (h : InForm s) : Leads (execPyrComplete op s) := by
  refine InForm.unitStep ?_
  split
  · exact h
  · refine InForm.ite h (InForm.ite h.endOp (InForm.readRows h (fun _ => InForm.readRows h (fun _ => ?_))))
    split
    exact h.writeRows fun _ h => h.endOp

theorem InForm.sendTo {s g late rank off n v} (h : InForm s) : InForm (sendTo s g late rank off n v) := by
  unfold Machine.sendTo
  dsimp only
  split
  · exact h.putWg
  · exact h

theorem InForm.execXst {x wide s} (h : InForm s) : Leads (execXst x wide s) := by
  refine h.issue fun _ _ h => Res.Formed.ite h ?_
  split
  · exact h
  · exact Res.Formed.ite h (Res.Formed.ite h (h.performEarlier.foldl fun _ _ h => h.sendTo))

theorem InForm.swapLeaves {s p} (h : InForm s) : InForm (swapLeaves s p) := h.writeMem.writeMem

theorem InForm.dropTranslations {s asid lo len} (h : InForm s) : InForm (dropTranslations s asid lo len) :=
  h.congr.endOpsWhere

theorem InForm.publish {s asid pa front shadow n l} (h : InForm s) : InForm (publish s asid pa front shadow n l) :=
  (h.settleAsids.foldl fun _ _ h => h.swapLeaves).dropTranslations.dropTranslations.renewWaits.writeMem.writeMem

theorem InForm.execPubl {x sc s} (h : InForm s) : Leads (execPubl x sc s) := by
  refine h.issue fun _ _ h => Res.Formed.ite h (InForm.withRecord h.performEarlier fun _ _ h => Res.Formed.ite h ?_)
  split
  · exact h.park
  · exact h
  · split
    · exact h.publish
    · exact h

/-! ### Context images (`Machine/Image.lean`) -/

theorem InForm.poke {s sv off n v} (h : InForm s) : InForm (Saved.poke s sv off n v) := by
  unfold Machine.Saved.poke
  split
  · exact h.writeMem
  · exact h

theorem InForm.replySaved {s uid value} (h : InForm s) : InForm (replySaved s uid value) := by
  unfold Machine.replySaved
  split
  · exact h
  · split
    · exact h
    · dsimp only
      exact h.poke.poke.congr

/-! ### System instructions (`Machine/System.lean`) -/

theorem InForm.laneResolved {s i} (h : InForm s) : InForm (laneResolved s i) := h.foldl fun _ _ h => h.modPart

theorem InForm.replayFault {s i} (h : InForm s) : InForm (replayFault s i) := by
  unfold Machine.replayFault
  split
  · exact h
  · dsimp only
    split
    · exact (h.foldl fun _ _ h => h.unblock).freeFault.laneResolved.endOp
    · exact (h.foldl fun _ _ h => h.unblock).freeFault.laneResolved.modOp
    · exact (h.foldl fun _ _ h => h.unblock).freeFault.laneResolved

theorem InForm.failTrain {s k} (h : InForm s) : InForm (failTrain s k) := by
  unfold Machine.failTrain
  split
  · dsimp only
    exact h.returnHeld.modTrain.raiseAt
  · exact h

theorem InForm.acceptPacket {s p} (h : InForm s) : InForm (acceptPacket s p) := h.modPart

theorem InForm.failFault {s i} (h : InForm s) : InForm (failFault s i) := by
  unfold Machine.failFault
  split
  · exact h
  · dsimp only
    refine InForm.foldl ?_ (fun _ _ h => h.acceptPacket.logViolation)
    split
    · split
      · split
        · exact (h.freeFault.foldl fun _ _ h => h.failTrain).logViolation.dropOp
        · exact (h.freeFault.foldl fun _ _ h => h.failTrain).endOp
      · exact h.freeFault.foldl fun _ _ h => h.failTrain
    · exact h.freeFault.foldl fun _ _ h => h.failTrain

theorem InForm.writeStatus {s p st} (h : InForm s) : InForm (writeStatus s p st) := by
  unfold Machine.writeStatus
  split
  · exact h.replayFault.ite (h.failFault.ite h)
  · exact h

theorem InForm.readFbpend {s p} (h : InForm s) : InForm (readFbpend s p).1 := by
  unfold Machine.readFbpend
  split
  · exact h
  · exact h.congr

theorem InForm.tlbiPage {s a va} (h : InForm s) : InForm (tlbiPage s a va) := h.settleAsids.dropTranslations.renewWaits
theorem InForm.tlbiAsid {s a} (h : InForm s) : InForm (tlbiAsid s a) := h.settleAsids.dropTranslations.renewWaits
theorem InForm.tlbiPart {s p} (h : InForm s) : InForm (tlbiPart s p) := h.settleAsids.congr.renewWaits.endOpsWhere
theorem InForm.advanceGen {s a} (h : InForm s) : InForm (advanceGen s a) := h.congr.endOpsWhere.tlbiAsid

theorem InForm.readPartReg {s p n} (h : InForm s) : InForm (readPartReg s p n).1 := by
  unfold Machine.readPartReg
  split
  · exact h.readFbpend
  · exact h

theorem InForm.writeIrqen {s p v} (h : InForm s) : InForm (writeIrqen s p v) := by
  unfold Machine.writeIrqen
  exact h.modPart.congr

theorem InForm.writePartReg {s p n v} (h : InForm s) : InForm (writePartReg s p n v) := by
  unfold Machine.writePartReg
  split
  case h_20 => exact h.writeStatus
  case h_22 => exact h.congr.ite h
  case h_23 => exact h.advanceGen.ite h
  case h_25 => exact h.writeIrqen
  case h_26 => exact h
  all_goals exact h.modPart

theorem InForm.execMfsr {x s} (h : InForm s) : Leads (execMfsr x s) := by
  refine InForm.issue h (fun _ _ h => ?_)
  split
  · exact h
  · dsimp only
    split
    · exact h
    · split
      · exact h.readPartReg.uniResult
      · exact h

theorem InForm.settleRemote {s k} (h : InForm s) : InForm (settleRemote s k) := by
  unfold Machine.settleRemote
  split
  · exact h.ite (h.finishWait.ite h.unblock)
  · exact h

theorem InForm.judgeLaunch {s l} (h : InForm s) : InForm (judgeLaunch s l) := by
  unfold Machine.judgeLaunch
  split
  · dsimp only
    exact h.modLaunch
  · exact h

theorem InForm.takeToken {s tr} (h : InForm s) : Carries Prod.snd (takeToken s tr) := by
  unfold Machine.takeToken
  split
  · exact carries_some h
  · exact carries_map fun _ _ => h.congr

theorem InForm.noRequest {c s} (h : InForm s) : (noRequest c s).Formed := h.returnToken.uniResult

theorem InForm.postRequest {i c s r ring ticket idx code arg} (h : InForm s) :
    (postRequest i c s r ring ticket idx code arg).Formed := by
  unfold Machine.postRequest
  dsimp only
  split
  · exact h.ringUnit.noRequest
  · next s1 e =>
    have h : InForm s1 := h.unitWrite _ e
    have h : InForm
        (Machine.setIrq (Machine.ringUnit s1 (svcUser c.tr) ring (.com false ticket.toNat 1)).1 c.tr.part 3) :=
      h.ringUnit.setIrq
    dsimp only [Machine.waitHere]
    exact h.congr.blockAt.modTrain.judgeLaunch

theorem InForm.waitForRoom {c s} (h : InForm s) : (waitForRoom c s).Formed := h.blockAt.judgeLaunch

theorem InForm.svcBody {i c s} (h : InForm s) : (svcBody i c s).Formed := by
  unfold Machine.svcBody
  split
  · exact h
  · dsimp only
    split
    · exact h.performEarlier.waitForRoom
    · next e =>
        split
        · exact (h.performEarlier.takeToken _ e).noRequest
        · split
          · exact (h.performEarlier.takeToken _ e).returnToken.park
          · split
            · exact (h.performEarlier.takeToken _ e).waitForRoom
            · split
              · exact (h.performEarlier.takeToken _ e).noRequest
              · split
                · exact (h.performEarlier.takeToken _ e).ringAt.waitForRoom
                · split
                  · exact (h.performEarlier.takeToken _ e).ringAt.noRequest
                  · exact (h.performEarlier.takeToken _ e).ringAt.postRequest
          · exact (h.performEarlier.takeToken _ e).noRequest

theorem InForm.execSvcRetry {tr s} (h : InForm s) : Leads (execSvcRetry tr s) := by
  refine InForm.unitStep ?_
  split
  · split
    · exact h.unblock
    · exact h
  · exact h

theorem InForm.replyService {s part token value} (h : InForm s) : InForm (replyService s part token value) := by
  unfold Machine.replyService
  dsimp only
  split
  · exact h
  · refine InForm.ite h ?_
    split
    · exact h.congr.finishWaits.judgeLaunch
    · exact (h.congr.replySaved.ite h.congr).answerAsides.judgeLaunch

theorem InForm.mtsrBody {c s} (h : InForm s) : (mtsrBody c s).Formed := by
  unfold Machine.mtsrBody
  split
  · exact h
  · dsimp only
    split
    · exact h
    · split
      · exact h.performEarlier.replyService
      · split
        · split
          · exact h.workExit
          · exact h
        · split
          · exact h.writePartReg
          · exact h.modTrain

theorem InForm.resumeAside {s k a} (h : InForm s) : InForm (resumeAside s k a) := by
  refine InForm.judgeLaunch ?_
  split
  · exact h.touchStall.modTrain.finishWait
  · exact h.touchStall.modTrain.settleRemote

theorem InForm.execEret {x s} (h : InForm s) : Leads (execEret x s) := by
  refine InForm.issue h (fun _ _ h => ?_)
  split
  · exact h
  · split
    · exact h
    · exact h.modTrain.returnTrap

theorem InForm.tlbiBody {i gone act c s} (hact : ∀ a b, InForm b → InForm (act a b)) (h' : InForm s) :
    (tlbiBody i gone act c s).Formed := by
  unfold Machine.tlbiBody
  split
  · exact h'
  · split
    · exact h'
    · split
      · exact hact _ _ h'
      · exact (hact _ _ h').waitHere

theorem InForm.execTrapq {x s} (h : InForm s) : Leads (execTrapq x s) := by
  refine InForm.issue h (fun _ _ h => ?_)
  split
  · exact h
  · dsimp only
    exact h.uniResult

theorem InForm.execFbpendRead {p s} (h : InForm s) : Leads (execFbpendRead p s) := by
  unfold Machine.execFbpendRead
  split
  · next e => exact (h.readPartReg.fst_eq e).congr.unitStep

/-! ### Pre-emption and restoration (`Machine/Preempt.lean`) -/

theorem InForm.execTimeSliceExpiry {wg s} (h : InForm s) : Leads (execTimeSliceExpiry wg s) := by
  refine InForm.unitStep ?_
  split
  · exact h
  · exact h.putWg.ite h

theorem InForm.execPreemptDrain {wg s} (h : InForm s) : Leads (execPreemptDrain wg s) := by
  refine InForm.unitStep ?_
  split
  · exact (h.foldl fun _ _ h => h.modWg).ite h
  · exact (h.foldl fun _ _ h => h.modWg).ite h

theorem InForm.stopIssue {s ws b} (h : InForm s) : InForm (stopIssue s ws b) := h.foldl fun _ _ h => h.modWg

theorem InForm.flushTrain {s k} (h : InForm s) : InForm (flushTrain s k) := by
  unfold Machine.flushTrain
  dsimp only
  split
  · exact h.finishLong.performAll.unlinkFault.returnHeld
  · refine InForm.dropTrain (InForm.freeServices (InForm.endContribs ?_))
    split
    · exact h.finishLong.performAll.unlinkFault.returnHeld.requeue
    · exact h.finishLong.performAll.unlinkFault.returnHeld

theorem InForm.flushWg {s w} (h : InForm s) : InForm (flushWg s w) := by
  unfold Machine.flushWg
  split
  · exact h
  · dsimp only
    exact (h.foldl fun _ _ h => h.flushTrain).congr.modLaunch

theorem InForm.stopMatrix {s w k} (h : InForm s) : InForm (stopMatrix s w k) := by
  unfold Machine.stopMatrix
  split
  · split
    · exact h.ite h.modTrain
    · exact h
  · exact h

theorem InForm.restTrain {s w k} (h : InForm s) : InForm (restTrain s w k) := by
  unfold Machine.restTrain
  dsimp only
  split
  · exact h.finishLong.returnLoads.performAll.unlinkFault.returnHeld.stopMatrix
  · exact h.finishLong.returnLoads.performAll.unlinkFault.returnHeld.stopMatrix.putTrain

theorem InForm.writeSaved {s w image place hwimg} (h : InForm s) : InForm (writeSaved s w image place hwimg) := by
  unfold Machine.writeSaved
  split
  · exact h
  · dsimp only
    exact ((h.foldl fun _ _ h => h.putImagePiece).freshId.foldl fun _ _ h => h.dropTrain).congr.clearBanks

theorem InForm.restWg {s w} (h : InForm s) : InForm (restWg s w) := h.foldl fun _ _ h => h.restTrain

theorem InForm.saveToDepot {s w} (h : InForm s) : InForm (saveToDepot s w) := by
  unfold Machine.saveToDepot
  split
  · exact h
  · split
    · exact h.restWg.writeSaved
    · exact h.stopIssue

theorem InForm.saveForCtxs {s w g k asid addr} (h : InForm s) : InForm (saveForCtxs s w g k asid addr) := by
  refine InForm.ite ?_ ?_
  · split
    · exact h.restWg.writeSaved.finishSave.finishSaves
    · exact h.stopIssue.finishSaves
  · split
    · exact h.restWg.writeSaved.finishSave.finishSaves
    · exact h.stopIssue.finishSaves

theorem InForm.saveAll {s ws} (h : InForm s) : InForm (saveAll s ws) := by
  unfold Machine.saveAll
  split
  · split
    · split
      · exact h.elim fun _ => h.saveForCtxs
      · exact h
    · exact h.saveToDepot
  · exact (h.foldl fun _ _ h => h.saveToDepot).ite h.stopIssue

theorem InForm.preemptNow {s ws m} (h : InForm s) : InForm (preemptNow s ws m) := by
  refine InForm.ite h.stopIssue ?_
  split
  · exact h.foldl fun _ _ h => h.flushWg
  · exact h.saveAll
  · exact h

theorem InForm.preemptBy {m wg s} (h : InForm s) : InForm (preemptBy m wg s) := by
  unfold Machine.preemptBy
  dsimp only
  split
  · exact h.stopIssue.ite h
  · exact h.preemptNow.ite h

theorem InForm.execDrainmaxExpiry {wg s} (h : InForm s) : Leads (execDrainmaxExpiry wg s) := by
  refine InForm.unitStep ?_
  split
  · exact h.preemptNow.ite h
  · exact h

theorem InForm.suspendAct {s k} (h : InForm s) : InForm (suspendAct s k) := by
  unfold Machine.suspendAct
  split
  · exact h
  · split
    · exact h
    · dsimp only
      split
      · exact h.modTrain.restTrain.freshId
      · exact h.modTrain.restTrain.freshId.dropTrain.congr

theorem InForm.settleWaits {s k m o} (h : InForm s) : InForm (settleWaits s k m o) := by
  unfold Machine.settleWaits
  split
  · exact h
  · refine InForm.ite h.finishWait ?_
    split
    · exact h.ite h.finishWait
    · exact h.unblock
    · exact h

theorem InForm.claimService {s tr} (h : InForm s) : InForm (claimService s tr) := by
  unfold Machine.claimService
  split
  · exact h
  · dsimp only
    split
    · exact h
    · exact h.congr.ite h

theorem InForm.restoreTrains {m g w core l s} (h : InForm s) : InForm (restoreTrains m g w core l s) := by
  induction l generalizing s with
  | nil => exact h
  | cons a l ih =>
    exact ih (h.claimService.putTrain.loseLatches.ite h.claimService.putTrain.loseLatches.settleWaits)

theorem InForm.enterEntry {s w c g e} (h : InForm s) : InForm (enterEntry s w c g e) := by
  unfold Machine.enterEntry
  split
  dsimp only
  split
  · exact h.enqueue.modWg.blockAt.modTrain.ite h
  · exact (h.enqueue.modWg.ite h.enqueue).blockAt.ite (h.enqueue.modWg.ite h.enqueue)

theorem InForm.enterImage {m w old s i} (h : InForm s) : InForm (enterImage m w old s i) := by
  unfold Machine.enterImage
  split
  · exact h
  · dsimp only
    exact h.modWg
  · dsimp only
    split
    · split
      · exact h.enterEntry.ite h
      · exact h
    · exact h

theorem InForm.settleQueue {s w} (h : InForm s) : InForm (settleQueue s w) := by
  unfold Machine.settleQueue
  split
  · exact h
  · refine InForm.modWg (InForm.foldl h (fun _ _ h => ?_))
    split
    · exact h.unblock.ite h
    · exact h.unblock.ite h
    · exact h

theorem InForm.restoreQueue {m w s} (h : InForm s) : InForm (restoreQueue m w s) :=
  (h.modWg.foldl fun _ _ h => h.enterImage).settleQueue

theorem InForm.loadImage {s id core sv pieces} (h : InForm s) : InForm (loadImage s id core sv pieces) := by
  unfold Machine.loadImage
  split
  · exact h
  · refine InForm.restoreQueue (InForm.restoreTrains (InForm.putWg (InForm.congr ?_)))
    split
    · exact h.modCore.writeMem
    · exact h

theorem InForm.settleLoaded {s sv} (h : InForm s) : InForm (settleLoaded s sv) := by
  refine InForm.foldl ?_ (fun _ _ h => ?_)
  · split
    · exact h.settleBarriers
    · exact h
  · split
    · exact h.settleTrain
    · exact h

theorem InForm.loadImages {s l} (h : InForm s) : InForm (loadImages s l) :=
  (((h.foldl fun _ _ h => h.loadImage).foldl fun _ _ h => h.abandonWait).foldl fun _ _ h => h.goToKpc).foldl fun _ _ h
    => h.settleLoaded

theorem InForm.restoreAct {s id core} (h : InForm s) : InForm (restoreAct s id core) := by
  unfold Machine.restoreAct
  split
  · dsimp only
    exact h.ite (h.congr.putTrain.loseLatches.killNow.ite h.congr.putTrain.loseLatches.settleTrain)
  · exact h

theorem InForm.execRestore {saved core s} (h : InForm s) : Leads (execRestore saved core s) := by
  refine InForm.unitStep ?_
  split
  · exact h.restoreAct
  · dsimp only
    exact h.ite ((h.loadImages.ite h).ite (h.loadImages.ite h))

theorem InForm.execMigrate {wg core s} (h : InForm s) : Leads (execMigrate wg core s) := by
  refine InForm.unitStep ?_
  split
  · exact h
  · dsimp only
    refine InForm.ite h (InForm.ite h.stopIssue ?_)
    split
    · exact h.saveToDepot.loadImages
    · exact h.saveToDepot

theorem InForm.withImage {c acc va go l s} (hgo : ∀ s, InForm s → (go s).Formed) (h : InForm s) :
    (withImage c acc va go l s).Formed := by
  induction l generalizing s with
  | nil => exact hgo s h
  | cons a l ih =>
    unfold Machine.withImage
    dsimp only
    split
    · next e => exact (h.access.fst_eq e).park
    · next e =>
      split
      · exact h.access.fst_eq e
      · exact ih (h.access.fst_eq e)

theorem InForm.execCtxs {x s} (h : InForm s) : Leads (execCtxs x s) := by
  refine InForm.issue h (fun _ _ h => ?_)
  split
  · exact h
  · dsimp only
    split
    · exact h.performEarlier.uniResult
    · split
      · exact h.performEarlier
      · split
        · exact h.performEarlier.uniResult
        · split
          · split
            · exact h.performEarlier.uniResult
            · exact h.performEarlier.waitHere
          · exact InForm.withImage (fun _ h => h.waitHere) h.performEarlier

theorem InForm.foreignSaved {s m} (h : InForm s) : InForm (foreignSaved s m).1 := by
  unfold Machine.foreignSaved
  split
  dsimp only
  exact h.congr

theorem InForm.admitImage {c s m va n} (h : InForm s) : (admitImage c s m va n).Formed := by
  unfold Machine.admitImage
  dsimp only
  split
  · refine InForm.uniResult (InForm.loadImages ?_)
    split
    · exact h
    · exact h.foreignSaved
  · exact h.uniResult

theorem InForm.execCtxl {x s} (h : InForm s) : Leads (execCtxl x s) := by
  refine InForm.issue h (fun _ _ h => ?_)
  split
  · exact h
  · dsimp only
    split
    · exact h.performEarlier.uniResult
    · refine InForm.withImage (fun _ h => InForm.withImage (fun _ h => ?_) h) h.performEarlier
      split
      · exact h.uniResult
      · split
        · exact h.uniResult
        · exact InForm.withImage (fun _ h => h.admitImage) h

/-! ### Partition reset (`Machine/Partition.lean`) -/

theorem InForm.endLaunches {s p} (h : InForm s) : InForm (endLaunches s p) := by
  unfold Machine.endLaunches
  refine InForm.congr
    (InForm.foldl (InForm.foldl (h.foldl fun _ _ h => h.terminateLaunch) (fun _ _ h => ?_)) (fun _ _ h => h.freePool))
  split
  · exact h
  · exact (h.writeCompletion.ite h).completeLaunch

theorem InForm.endLines {s p} (h : InForm s) : InForm (endLines s p) := h.congr.foldl fun _ _ h => h.congr
theorem InForm.endServices {s p} (h : InForm s) : InForm (endServices s p) := h.freeServices
theorem InForm.endTrains {s p} (h : InForm s) : InForm (endTrains s p) := h.foldl fun _ _ h => h.killTrain
theorem InForm.endSaved {s p} (h : InForm s) : InForm (endSaved s p) := (h.foldl fun _ _ h => h.endContribs).congr rfl
theorem InForm.zeroBanks {s p} (h : InForm s) : InForm (zeroBanks s p) := h.foldl fun _ _ h => h.clearBanks

theorem InForm.killPartition {s p} (h : InForm s) : InForm (killPartition s p) := by
  unfold Machine.killPartition
  refine InForm.congr (InForm.foldl (InForm.endServices (InForm.repairRings (InForm.foldl (InForm.endLines ?_) ?_))) ?_)
  · exact h.zeroBanks.endOpsWhere.endLaunches.endTrains.endSaved.congr
  · exact fun _ _ h => h.cancelJoin
  · exact fun _ _ h => h.freeFault

theorem InForm.advanceAll {s p} (h : InForm s) : InForm (advanceAll s p) := h.foldl fun _ _ h => h.advanceGen
theorem InForm.resetRoots {s p} (h : InForm s) : InForm (resetRoots s p) := h.congr rfl

theorem InForm.resetPartition {s p} (h : InForm s) : InForm (resetPartition s p) :=
  h.killPartition.zeroMemory.advanceAll.resetRoots.congr.setIrq

theorem InForm.execPartitionDrainExpiry {p s} (h : InForm s) : Leads (execPartitionDrainExpiry p s) := by
  refine InForm.unitStep ?_
  split
  · exact h.resetPartition.ite h
  · exact h

theorem InForm.setShares {s p slots tokens} (h : InForm s) : InForm (setShares s p slots tokens) := h.congr.modPart
theorem InForm.writeReport {s} (h : InForm s) : InForm (writeReport s) := h.writeBytes.congr.ite h

/-! ### The supervisor window and packets (`Machine/Stationmaster.lean`) -/

theorem InForm.setQueue {s p sup x} (h : InForm s) : InForm (setQueue s p sup x) := h.modPart

theorem InForm.writeTail {s p sup v} (h : InForm s) : InForm (writeTail s p sup v) :=
  h.setQueue.ite (h.setQueue.ite h.setQueue)

theorem InForm.writeState {s p sup v} (h : InForm s) : InForm (writeState s p sup v) := by
  unfold Machine.writeState
  split
  · exact h.setQueue
  · exact h.setQueue.ite h
  · exact h

theorem InForm.queueError {s p sup x addr} (h : InForm s) : InForm (queueError s p sup x addr) :=
  h.setQueue.logViolation

theorem InForm.selectPacket {s p} (h : InForm s) : InForm (selectPacket s p) :=
  h.ite (h.ite (h.queueError.ite h.modPart))

theorem InForm.holdLane {s p a2} (h : InForm s) : InForm (holdLane s p a2) := h.modPart

theorem InForm.parkLane {s p asid va kind pte} (h : InForm s) : InForm (parkLane s p asid va kind pte) := by
  unfold Machine.parkLane
  split
  · next e => exact (h.takeEntry.snd_eq e).holdLane
  · next e => exact (h.takeEntry.snd_eq e).holdLane

theorem InForm.endPacket {s p asid va cause} (h : InForm s) : InForm (endPacket s p asid va cause) :=
  h.logViolation.acceptPacket

theorem InForm.laneAccess {s p pk acc va align go} (h : InForm s) (hgo : ∀ a, InForm (go a)) :
    InForm (laneAccess s p pk acc va align go) := by
  unfold Machine.laneAccess
  dsimp only
  split
  · exact h.parkLane
  · exact h.endPacket
  · exact h.endPacket
  · exact hgo _

theorem InForm.packetStep {s p type body} (h : InForm s) (hbody : ∀ a, InForm (body a)) :
    Leads (packetStep s p type body) := by
  refine InForm.unitStep ?_
  split
  · exact hbody _
  · exact h

theorem InForm.readWaitv {s p pk} (h : InForm s) : InForm (readWaitv s p pk) :=
  h.laneAccess fun _ => h.acceptPacket.ite h.holdLane

theorem InForm.execWaitvReread {p s} (h : InForm s) : Leads (execWaitvReread p s) := by
  refine InForm.unitStep ?_
  split
  · exact h.readWaitv
  · exact h

theorem InForm.execFencePacket {p s} (h : InForm s) : Leads (execFencePacket p s) := by
  refine InForm.unitStep ?_
  split
  · exact h.ite h.acceptPacket
  · split
    · exact h.holdLane.ite h.acceptPacket
    · exact h

theorem InForm.execLineOpenPacket {p s} (h : InForm s) : Leads (execLineOpenPacket p s) := by
  refine InForm.packetStep h (fun _ => InForm.ite h (InForm.laneAccess h (fun _ => InForm.laneAccess h (fun _ => ?_))))
  dsimp only
  exact h.openLine.writeMem.acceptPacket

theorem InForm.finishClose {s p pk result} (h : InForm s) : InForm (finishClose s p pk result) :=
  h.modPart.laneAccess fun _ => h.modPart.writeMem.acceptPacket

theorem InForm.execLineClosePacket {p s} (h : InForm s) : Leads (execLineClosePacket p s) := by
  refine InForm.unitStep ?_
  split
  · exact h.ite h.finishClose
  · split
    · exact h.finishClose
    · refine InForm.ite h (InForm.laneAccess h (fun _ => ?_))
      split
      · exact h.closeLine.holdLane
      · exact h.finishClose
    · exact h

theorem InForm.execLaunchPacket {p s} (h : InForm s) : Leads (execLaunchPacket p s) := by
  refine InForm.packetStep h (fun _ => InForm.ite h.endPacket ?_)
  split
  · next e =>
      dsimp only
      exact (h.freshId.snd_eq e).congr.acceptPacket

theorem InForm.hostWrite {s q bs} (h : InForm s) : InForm (hostWrite s q bs) := by
  induction bs generalizing s q with
  | nil => exact h
  | cons b bs ih => exact ih (h.writeBytes.ite h)

theorem InForm.swapRoutes {s addr} (h : InForm s) : InForm (swapRoutes s addr) := by
  unfold Machine.swapRoutes
  dsimp only
  split
  · exact h.congr
  · exact h.congr

theorem InForm.writeSuper {s off v} (h : InForm s) : InForm (writeSuper s off v) := by
  unfold Machine.writeSuper
  split
  · exact h.congr.ite h
  · exact h.congr
  · exact h.congr
  · exact h.congr
  · exact h.setShares.ite h.congr
  · exact h.congr.writeReport.ite h.congr
  · exact h.swapRoutes.ite h.congr
  · exact h

theorem InForm.writeQueueReg {s p sup off v} (h : InForm s) : InForm (writeQueueReg s p sup off v) := by
  unfold Machine.writeQueueReg
  split
  · exact h.setQueue
  · exact h.setQueue
  · exact h.setQueue
  · exact h.writeTail
  · exact h.writeState
  · exact h

theorem InForm.writePage {s p off v} (h : InForm s) : InForm (writePage s p off v) :=
  h.writeQueueReg.ite (h.writeQueueReg.ite (h.writePartReg.ite h))

theorem InForm.writeMap {s i v} (h : InForm s) : InForm (writeMap s i v) := h.congr rfl

/-! ### Fabric, power and attestation (`Machine/Fabric.lean`) -/

theorem InForm.performRemote {s pa a2} (h : InForm s) : InForm (performRemote s pa a2).2 := by
  unfold Machine.performRemote
  split
  · exact h
  · exact h.writeBytes
  · dsimp only
    exact h.writeMem
  · dsimp only
    exact h.writeMem.ite h
  · dsimp only
    exact h.writeMem
  · exact h.writeMem

theorem InForm.mirror {s q r} (h : InForm s) : InForm (mirror s q r) := by
  unfold Machine.mirror
  split
  · exact h
  · exact h
  · exact h.writeBytes
  · dsimp only
    exact h.writeBytes.performRemote

theorem InForm.answer {s id r} (h : InForm s) : InForm (answer s id r) := by
  unfold Machine.answer
  split
  · exact h
  · dsimp only
    refine InForm.foldl ?_ (fun _ _ h => h.settleRemote)
    split
    · exact (h.congr.ite h.congr.mirror).modTrain
    · exact h.congr.ite h.congr.mirror

theorem InForm.execRemoteAccessRequest {module pa op s} (h : InForm s) :
    Leads (execRemoteAccessRequest module pa op s) := by
  unfold Machine.execRemoteAccessRequest
  dsimp only
  refine InForm.unitStep (InForm.sendFabric ?_)
  split
  · exact h.performRemote
  · exact h

theorem InForm.passOn {s a1 tag} (h : InForm s) : InForm (passOn s a1 tag) := by
  unfold Machine.passOn
  split
  · exact h
  · exact (h.sendFabric.ite h).ite h.congr

theorem InForm.execCollMulticast {index s} (h : InForm s) : Leads (execCollMulticast index s) := by
  refine InForm.unitStep ?_
  split
  · exact h
  · dsimp only
    exact h.congr

theorem InForm.modWave {s e w f} (h : InForm s) : InForm (modWave s e w f) := h.congr rfl

/-! ### The dispatch of an instruction or event (`Machine/Dispatch.lean`) -/

theorem InForm.exec {i s} (h : InForm s) : Leads (exec i s) := by
  unfold Machine.exec
  cases i with
  | add | sub | mul | mulhi | mad | madhi | min | max | abs | lea => exact h.arith
  | div | rem | frcp | frsq | fsqrt | fdiv | fex2 | flg2 | fsin | fcos | ftanh => exact h.issueLong
  | and | or | xor | andn | shl | shr | sra | rol | clz | ctz | popc | bfi | prm | sel | mov => exact h.bitwise
  | bfx | cmp | sext | zext | fadd | fsub | fmul | fma | fnma | fmin | fmax | fcmp | fclass | fsel | cvt | rnd | qnt
  | dqt | pack | unpk | scl | kmov => exact h.issuePure
  | longOpResult => exact h.finishLong.unitStep
  | red | bcst | vote | first => exact h.issue fun _ _ h => h.uniformDone
  | scan | shfl | call | nop => exact h.issue fun _ _ h => h
  | kand | kor | kxor | knot => exact h.logic
  | ld => exact h.issue fun _ _ h => h.loadBody
  | st => exact h.issue fun _ _ h => h.storeBody
  | ldp => exact h.issue fun _ _ h => h.withSp fun _ _ => h
  | stp => exact h.issue fun _ _ h => h.withSp fun _ _ => h.spStore
  | ldt => exact h.issue fun _ _ h => h.ldtBody
  | stt => exact h.issue fun _ _ h => h.sttBody
  | look => exact h.issue fun _ _ h => h.lookBody
  | tagw => exact h.issue fun _ _ h => h.tagwBody
  | tagi => exact h.issue fun _ _ h => h.tagiBody
  | tagiAll => exact h.issue fun _ _ h => h.tagiAllBody
  | tagiCfg => exact h.issue fun _ _ h => h.tagiCfgBody
  | tst => exact h.issue fun _ _ h => h.tstBody
  | tstDef => exact h.issue fun _ _ h => h.tstDefBody
  | pref => exact h.issue fun _ _ h => h.foldl fun _ _ h => h.prefetch
  | fence => exact h.execFence
  | flushWc => exact h.issue fun _ _ h => h.performWc.ite h
  | flushIb => exact h.issue fun _ _ h => h.flushIb.ite h
  | loadDataReturn => exact h.returnLoadOrdered.unitStep
  | storePerformed => exact h.execStorePerformed
  | wcBufferDrainTimeout => exact h.execWcBufferDrainTimeout
  | instructionFetchFill => exact h.execInstructionFetchFill
  | faultEntryFreed => exact h.execFaultEntryFreed
  | atom | cas | facc | faccr => exact h.issue fun _ _ h => h.atomicBody
  | faccTagged => exact h.issue fun _ _ h => h.faccTaggedBody
  | waita => exact h.issue fun _ _ h => h.waitaBody
  | waitaReread => exact h.execWaitaReread
  | waitaDeadline => exact h.execWaitaDeadline
  | qbind => exact h.issue fun _ _ h => h.qbindBody
  | qstat => exact h.issue fun _ _ h => h.withQueues fun _ _ => h
  | qdrain => exact h.issue fun _ _ h => h.withQueues fun _ _ => h.putWg
  | queueOpIssue => exact h.execQueueOpIssue
  | queueStall => exact h.execQueueStall
  | racq | rcom | rcomSkip | rpeek | rpeekTake | rrel => exact h.issue fun _ _ h => h.ringBody
  | stage => exact h.execStage
  | stageCfg => exact h.issue fun _ _ h => h.stageCfgBody
  | bra | brx | ret => exact h.issue fun _ _ h => h.branchBody
  | exit => exact h.issue fun _ _ h => h.exitBody
  | bar | gbar => exact h.issue fun _ _ h => h.barBody
  | bstall => exact h.execBstall
  | yield => exact h.issue fun _ _ h => h.modTrain.ite h
  | joinPointNop => exact h.issue fun _ _ h => h.joinPointBody
  | fwait => exact h.execFwait
  | ftest => exact h.execFtest
  | ftestH => exact h.execFtestH
  | fcancel => exact h.execFcancel
  | trapf | trapfClr => exact h.issue fun _ _ h => h.trapfBody
  | trap => exact h.execTrap
  | aalloc => exact h.issue fun _ _ h => h.aallocBody
  | aallocBanksFree => exact h.execAallocBanksFree
  | afree => exact h.issue fun _ _ h => h.withMatrix fun _ _ => h.orMatrixTrap h.modWg.queued
  | azero | wld => exact h.issue fun _ _ h => h.withMatrix fun _ _ => h.orMatrixTrap h.queued
  | wldZero => exact h.issue fun _ _ h => h.withMatrix fun _ _ => h.queued
  | mmaTile => exact h.execMmaTile
  | mmaMemory | adrainGm => exact h.issue fun _ _ h => h.withMatrix fun _ _ => h.orMatrixTrap h.queuedWait
  | mmt => exact h.execMmt
  | adrainReg => exact h.execAdrainReg
  | adrainSp => exact h.issue fun _ _ h => h.withMatrix fun _ _ => h.orMatrixTrap (h.withSp fun _ _ => h.queuedWait)
  | mred => exact h.issue fun _ _ h => h.withMatrix fun _ _ => h.orMatrixTrap h.modWg
  | mprog => exact h.execMprog
  | matrixQueueRoom => exact h.execMatrixQueueRoom
  | arrayStep => exact h.execArrayStep
  | followOnMma => exact h.placeFollowOn.unitStep
  | tileGateRelease => exact h.execTileGateRelease
  | lopen => exact h.execLopen
  | lclose => exact h.execLclose
  | feed => exact h.issue fun _ _ h => h.feedBody
  | feedIntakeRoom => exact h.execFeedIntakeRoom
  | wmark => exact h.execWmark
  | wrec => exact h.execWrec
  | wemit => exact h.issue fun _ _ h => h.wemitBody
  | wemitRetry => exact h.execWemitRetry
  | wyield | wend => exact h.issue fun _ _ h => h.endBody
  | wpane => exact h.execWpane
  | wkey => exact h.execWkey
  | lstat => exact h.execLstat
  | resolveRecord => exact h.execResolveRecord
  | watermarkResolve => exact h.execWatermarkResolve
  | paneComplete => exact h.execPaneComplete
  | lineFlush => exact h.execLineFlush
  | lineFree => exact h.execLineFree
  | activationBatchIssue => exact h.execActivationBatchIssue
  | activationTrainAdmit => exact h.execActivationTrainAdmit
  | windowPoolSlotFree => exact h.execWindowPoolSlotFree
  | tfetch => exact h.execTfetch
  | tfetchTask => exact h.issue fun _ _ h => h.tfetchTaskBody
  | tfetchTaskWake => exact h.execTfetchTaskWake
  | tfetchTaskDeadline => exact h.execTfetchTaskDeadline
  | tsub => exact h.execTsub
  | tdone => exact h.execTdone
  | launch => exact h.execLaunch
  | lwait => exact h.execLwait
  | trig => exact h.issue fun _ _ h => h.withLaunch fun _ _ => h.performEarlier.ite h.performEarlier.modLaunch
  | tsel => exact h.execTsel
  | jopen => exact h.execJopen
  | jarr => exact h.execJarr
  | jwait => exact h.execJwait
  | jkp => exact h.execJkp
  | jstat => exact h.execJstat
  | joinCasualty => exact h.countCasualty.unitStep
  | kill => exact h.execKill
  | stagingRoom => exact h.execStagingRoom
  | launchAdmit => exact h.execLaunchAdmit
  | launchInvalid => exact h.execLaunchInvalid
  | launchComplete => exact h.execLaunchComplete
  | dependantsStart => exact h.execDependantsStart
  | copy | dec | pyr => exact h.issue fun _ _ h => h.engineBody
  | xst => exact h.execXst
  | publ => exact h.execPubl
  | engineQueueRoom => exact h.execEngineQueueRoom
  | engineOperationStart => exact h.execEngineOperationStart
  | copyComplete => exact h.execCopyComplete
  | decComplete => exact h.execDecComplete
  | pyrComplete => exact h.execPyrComplete
  | engineFaultPause => exact h.execEngineFaultPause
  | futureEntryFree => exact h.execFutureEntryFree
  | svc => exact h.issue fun _ _ h => h.svcBody
  | svcRetry => exact h.execSvcRetry
  | eret => exact h.execEret
  | mfsr => exact h.execMfsr
  | mtsr | svcret | texitFault | texitTerminate => exact h.issue fun _ _ h => h.mtsrBody
  | tlbiPage => exact h.issue fun _ _ h => InForm.tlbiBody (fun _ _ h => h.tlbiPage) h
  | tlbiAsid => exact h.issue fun _ _ h => InForm.tlbiBody (fun _ _ h => h.tlbiAsid) h
  | tlbiPart => exact h.issue fun _ _ h => InForm.tlbiBody (fun _ _ h => h.tlbiPart) h
  | trapq => exact h.execTrapq
  | ctxs => exact h.execCtxs
  | ctxl => exact h.execCtxl
  | faultReplay | faultFail | asidgenAdv | irqenWrite => exact h.writePartReg.unitStep
  | trapDelivery => exact h.deliverDue.unitStep
  | timeSliceExpiry => exact h.execTimeSliceExpiry
  | preemptDrain => exact h.execPreemptDrain
  | drainmaxExpiry => exact h.execDrainmaxExpiry
  | preemptSave | preemptFlushRestart => exact h.preemptBy.unitStep
  | restore => exact h.execRestore
  | partitionResetDrain => exact (h.modPart.ite h).unitStep
  | partitionResetKill => exact (h.resetPartition.ite h).unitStep
  | supervisorRegisterWrite => exact (h.writeSuper.ite (h.congr.ite (h.writeMap.ite (h.writePage.ite h)))).unitStep
  | qtail => exact h.writeTail.unitStep
  | qstate => exact h.writeState.unitStep
  | setv => exact h.packetStep fun _ => h.laneAccess fun _ => h.writeMem.acceptPacket
  | waitv => exact h.packetStep fun _ => h.readWaitv
  | fencePacket => exact h.execFencePacket
  | copyPacket => exact h.packetStep fun _ => h.laneAccess fun _ => h.holdLane.ite h.addOp.acceptPacket
  | lineOpenPacket => exact h.execLineOpenPacket
  | lineClosePacket => exact h.execLineClosePacket
  | launchPacket => exact h.execLaunchPacket
  | padPacket => exact h.packetStep fun _ => h.acceptPacket
  | hostMemRead | powerInterval | moduleReset | opticalTrainingDone | bulkTrainingDone | fabricTrainingDone =>
    exact h.congr.unitStep
  | hostMemWrite => exact h.hostWrite.unitStep
  | remoteResponse | messageDiscard => exact h.answer.unitStep
  | collMulticast => exact h.execCollMulticast
  | partitionDrainExpiry => exact h.execPartitionDrainExpiry
  | waitvReread => exact h.execWaitvReread
  | remoteAccessRequest => exact h.execRemoteAccessRequest
  | proxyReply => exact h.execProxyReply
  | homeRemoteArrival => exact h.execHomeRemoteArrival
  | proxyKill => exact h.execProxyKill
  | fbpendRead => exact h.execFbpendRead
  | migrate => exact h.execMigrate
  | qosSet => exact h.setShares.unitStep
  | routingTableSwap => exact h.swapRoutes.unitStep
  | stagger => exact (h.ite h.congr).unitStep
  | flitRetransmit => exact h.congr.modWave.unitStep
  | wavelengthWithdraw => exact (h.modWave.ite h).unitStep
  | wavelengthReturn => exact h.modWave.unitStep
  | attestationReport => exact h.writeReport.unitStep
  | stationmasterStep => exact (h.ite (h.foldl fun _ _ h => h.selectPacket)).unitStep
  | staggerResume => exact (h.congr.wakeFreed.foldl fun _ _ h => h.wakeJoin).unitStep

/-! ### The turn of a step (`Machine/Schedule.lean`) -/

theorem InForm.takePipe {s k tr} (h : InForm s) : InForm (takePipe s k tr) :=
  ((h.ite h.congr.loseLatches).foldl fun _ _ h => h.modTrain).modTrain

theorem InForm.issueState {s k tr} (h : InForm s) : InForm (issueState s k tr) := by
  unfold Machine.issueState
  exact h.takePipe.pruneStale.congr

theorem InForm.resumeAccess {s k a} (h : InForm s) : InForm (resumeAccess s k a) := h.modTrain

theorem InForm.issueTrain {s k} (h : InForm s) : Leads (issueTrain s k) := by
  unfold Machine.issueTrain
  split
  · exact leads_next h
  · split
    · dsimp only
      split
      · exact leads_next h.issueState.resumeAside
      · split
        · exact h.issueState.resumeAccess.exec
        · split
          · next e4 => exact (h.issueState.fetch.run e4).exec
          · next e4 => exact leads_next (h.issueState.fetch.stop e4)
    · exact leads_next h

theorem InForm.takeTurn {s a1} (h : InForm s) : Leads (takeTurn s a1) := by
  unfold Machine.takeTurn
  split
  · exact h.exec
  · exact h.issueTrain
  · exact leads_next h.pieceStep
  · exact leads_next h.suspendAct
  · exact leads_next h.congr
  · exact leads_next (h.ite h.writeBytes)
  · exact leads_next h.congr
  · exact leads_next h.congr
  · exact leads_next h.passOn
  · exact leads_next (h.ite h.congr)
  · exact leads_next h.modWave

theorem InForm.firstDue {s l} (h : InForm s) : Carries id (firstDue s l) := by
  induction l with
  | nil => exact carries_none
  | cons t l ih =>
    unfold Machine.firstDue
    split
    · next e =>
      split
      · exact ih
      · exact carries_some (h.takeTurn _ e)
    · exact ih

theorem InForm.defaultTurn {s} (h : InForm s) : Leads (defaultTurn s) := by
  unfold Machine.defaultTurn
  dsimp only
  split
  · next e => exact leads_next (h.firstDue _ e)
  · exact h.issueTrain
  · next e _ _ => exact leads_next (h.firstDue _ e)
  · exact leads_next h

theorem InForm.overdue {s} (h : InForm s) : InForm (overdue s) := by
  refine h.drainOld.foldl fun _ _ h => ?_
  split
  · next e => exact h.takeTurn _ e
  · exact h

theorem InForm.turn {s} (h : InForm s) : Leads (turn s) := by
  unfold Machine.turn
  split
  · exact h.congr.takeTurn
  · exact h.defaultTurn

/-- A tick counts the cycle and puts away the train that was issued; memory stays. -/
theorem between_of_tick {o : Host.Outcome State Fault Refusal} {t : State} (h : Leads o) (e : tick o = .next t) :
    Between t := by
  cases o with
  | next s =>
    cases e
    exact ⟨h s rfl, rfl⟩
  | fault _ => cases e
  | refused _ => cases e

/-- Settles O59: each function that the step calls keeps the form (`InForm.<function>`), along the call graph up to
`InForm.overdue` and `InForm.turn`; the tick at the end puts away the train that was issued. -/
theorem everyStepKeepsTheMachineInForm : Obligations.EveryStepKeepsTheMachineInForm := by
  unfold Obligations.EveryStepKeepsTheMachineInForm
  rintro s t ⟨hmem, -⟩ hstep
  exact between_of_tick (InForm.turn (InForm.overdue hmem)) hstep

end Sys2Proof.Machine
end

section
/-! PROOFS. A step at an issue turn of the agenda runs the instruction that the bytes at the train's PC decode to, or goes on with the
wait or the access that the train stands in (R48, R54, R172, R189, R252; O55). -/

namespace Sys2Proof.Machine

/-- The turn at the head of the agenda is the step's turn (log 3). -/
theorem step_of_agenda {s : State} {t : Turn} {rest : List Turn} (h : (overdue s).agenda = t :: rest) :
    step s = tick (takeTurn { overdue s with agenda := rest } t) := by
  simp only [step, turn, h]

@[simp] theorem issueState_current (s : State) (k : Nat) (tr : Train) : (issueState s k tr).current = some k := rfl

/-! ### The fetch -/

/-- Checks that accept an instruction have it from the decoder (R48). -/
theorem decode_of_fetchChecks {priv : Bool} {pc : Dword} {bs : List Byte} {i : Instr} (h : fetchChecks priv pc bs = .ok i) :
    ∃ left, decode bs = .ok (i, left) := by
  unfold fetchChecks at h
  split at h
  · cases h
  · split at h
    · cases h
    · split at h
      · next j left hdec =>
        split at h
        · cases h
        · cases h
          exact ⟨left, hdec⟩
      · split at h <;> cases h
      · cases h

/-- A fetch that reaches an aligned PC's line, whose bytes pass the checks, answers the instruction, at the state that the line
was found in (R48, R172). -/
theorem fetch_of_checks {s s' : State} {k pa : Nat} {tr : Train} {ln : ILine} {i : Instr} (htr : train? s k = some tr)
    (halign : tr.pc.toNat % 4 = 0) (hplace : fetchPlace (access s tr .fetch tr.pc 0).1 tr tr.pc = .mem pa)
    (hline : lineAt (access s tr .fetch tr.pc 0).1 tr (pa / 256) = some (ln, s'))
    (hok : fetchChecks tr.priv tr.pc (lineWindow ln pa) = .ok i) : fetch s k = .run i s' := by
  simp only [fetch, htr, halign, ne_eq, not_true_eq_false, if_false, hplace, hline, fetchFrom, hok]

/-! ### The issue of the train that its pipe issues for -/

section
variable {s : State} {k : Nat} {tr tr' : Train} (htr : train? s k = some tr) (hpipe : pipeChoice s (pipeOfKey k) = some k)
  (htr' : train? (issueState s k tr) k = some tr')
include htr hpipe htr'

/-- A train back at a wait that stands goes on with it (R54, log 28). -/
theorem issueTrain_of_aside {a : Aside} (ha : dueAside tr' = some a) :
    issueTrain s k = .next (resumeAside (issueState s k tr) k a) := by
  simp only [issueTrain, htr, hpipe, htr', if_true, Option.bind_some, ha]

/-- A train whose requests to other modules are answered goes on with the instruction that made them (R189, log 39). -/
theorem issueTrain_of_access {a : PendAccess} (hnone : dueAside tr' = none) (ha : tr'.access = some a) :
    issueTrain s k = exec a.instr (resumeAccess (issueState s k tr) k a) := by
  simp only [issueTrain, htr, hpipe, htr', if_true, Option.bind_some, hnone, ha]

/-- Any other train executes what it fetches. -/
theorem issueTrain_of_fetch {i : Instr} {s' : State} (hnone : dueAside tr' = none) (hacc : tr'.access = none)
    (hfetch : fetch (issueState s k tr) k = .run i s') : issueTrain s k = exec i s' := by
  simp only [issueTrain, htr, hpipe, htr', if_true, Option.bind_some, hnone, hacc, hfetch]

end

/-- Settles O55: the turn of the agenda is the issue, which has three cases (`issueTrain_of_aside`, `issueTrain_of_access`,
`issueTrain_of_fetch`); in the last the fetch answers what its checks accepted, and that is what the bytes decode to. -/
theorem aStepRunsTheDecodedInstruction : Obligations.AStepRunsTheDecodedInstruction := by
  unfold Obligations.AStepRunsTheDecodedInstruction
  intro s k rest tr tr' pa ln s3 i hagenda s0 htr hpipe s1 htr'
  have hstep : step s = tick (issueTrain s0 k) := step_of_agenda hagenda
  refine ⟨fun a ha => ?_, fun a hnone ha => ?_, ?_⟩
  · rw [hstep, issueTrain_of_aside htr hpipe htr' ha]
  · rw [hstep, issueTrain_of_access htr hpipe htr' hnone ha]
  · intro hnone hacc halign s2 hplace hline hok
    have hrun : step s = tick (exec i s3) := by
      rw [hstep, issueTrain_of_fetch htr hpipe htr' hnone hacc (fetch_of_checks htr' halign hplace hline hok)]
    exact ⟨hrun, issueState_current s0 k tr, fun t ht => by rw [hrun, ht, tick], decode_of_fetchChecks hok⟩

end Sys2Proof.Machine
end

section
/-! PROOFS. Decoding an encoding gives the instruction back (O57), what decoding accepts is well formed and encodes back to its bytes
(O58), and worked encodings of the spec decode to their instructions (O56). Both directions turn on three pairs of inverses: the modifier
byte and the instruction (`build_form`), an operand specifier and its code, and the fields of a base word and its number. -/

namespace Sys2Proof
open Machine

/-! ### Codes of the modifier fields, read back -/

theorem Ty.code_of_ofCode {n : Nat} {t : Ty} (h : Ty.ofCode n = some t) : t.code = n := by
  unfold Ty.ofCode at h
  split at h <;> cases h <;> rfl

theorem Cond.code_of_ofCode {n : Nat} {c : Cond} (h : Cond.ofCode n = some c) : c.code = n := by
  unfold Cond.ofCode at h
  split at h <;> cases h <;> rfl

theorem FCond.code_of_ofCode {n : Nat} {c : FCond} (h : FCond.ofCode n = some c) : c.code = n := by
  unfold FCond.ofCode at h
  split at h <;> cases h <;> rfl

theorem LaneOp.code_of_ofCode {n : Nat} {op : LaneOp} (h : LaneOp.ofCode n = some op) : op.code = n := by
  unfold LaneOp.ofCode at h
  split at h <;> cases h <;> rfl

theorem ShflMode.code_of_ofCode {n : Nat} {m : ShflMode} (h : ShflMode.ofCode n = some m) : m.code = n := by
  unfold ShflMode.ofCode at h
  split at h <;> cases h <;> rfl

theorem VoteMode.code_of_ofCode {n : Nat} {m : VoteMode} (h : VoteMode.ofCode n = some m) : m.code = n := by
  unfold VoteMode.ofCode at h
  split at h <;> cases h <;> rfl

theorem AtomOp.code_of_ofCode {n : Nat} {op : AtomOp} (h : AtomOp.ofCode n = some op) : op.code = n := by
  unfold AtomOp.ofCode at h
  split at h <;> cases h <;> rfl

theorem Scope.code_of_ofCode {n : Nat} {sc : Scope} (h : Scope.ofCode n = some sc) : sc.code = n := by
  unfold Scope.ofCode at h
  split at h <;> cases h <;> rfl

theorem RMode.code_ofCode {n : Nat} (h : n < 4) : (RMode.ofCode n).code = n := by
  interval_cases n <;> rfl

theorem Order.code_ofCode {n : Nat} (h : n < 4) : (Order.ofCode n).code = n := by
  interval_cases n <;> rfl

theorem SrcMods.code_ofCode {n : Nat} (h : n < 4) : (SrcMods.ofCode n).code = n := by
  interval_cases n <;> rfl

/-- A one-bit field, read as a Boolean. -/
theorem toNat_decide_eq_one {n : Nat} (h : n < 2) : (decide (n = 1)).toNat = n := by
  interval_cases n <;> rfl

theorem scaleOf_val {n : Nat} {k : Fin 5} (h : scaleOf n = some k) : k.val = n := by
  unfold scaleOf at h
  split at h <;> cases h
  rfl

/-- A reading of a type that admits only some of the types reads the type with that code. -/
theorem Ty.code_of_filter {n : Nat} {p : Ty → Bool} {t : Ty} (h : (Ty.ofCode n).filter p = some t) : t.code = n :=
  Ty.code_of_ofCode (Option.filter_eq_some_iff.1 h).1

theorem ringScope_code {n : Nat} {sc : Scope} (h : ringScope n = some sc) : sc.code = n :=
  Scope.code_of_ofCode (Option.filter_eq_some_iff.1 h).1

/-! ### What each reading of a modifier byte admits has that modifier byte -/

section
variable {m opc : Nat} {x : Args} {i : Instr}

/-- A form with the modifier byte computed. -/
theorem form_of_eq {n : Nat} (hf : i.form = some (opc, n, x)) (hn : n = m) : i.form = some (opc, m, x) := hn ▸ hf

theorem bTS_form {f : Ty → Bool → Instr} (hf : ∀ t sat, (f t sat).form = some (opc, t.code + 16 * sat.toNat, x))
    (h : bTS m f = some i) : i.form = some (opc, m, x) := by
  obtain ⟨hm, h⟩ := Option.ite_none_right_eq_some.1 h
  obtain ⟨t, ht, rfl⟩ := Option.map_eq_some_iff.1 h
  have hcode := Ty.code_of_filter ht
  have hsat := toNat_decide_eq_one (n := m / 16 % 2) (by omega)
  exact form_of_eq (hf _ _) (by omega)

theorem bT_form {all : Bool} {f : Ty → Instr} (hf : ∀ t, (f t).form = some (opc, t.code, x)) (h : bT m all f = some i) :
    i.form = some (opc, m, x) := by
  obtain ⟨hm, h⟩ := Option.ite_none_right_eq_some.1 h
  obtain ⟨t, ht, rfl⟩ := Option.map_eq_some_iff.1 h
  have hcode := Ty.code_of_filter ht
  exact form_of_eq (hf _) (by omega)

theorem bF_form {f : Ty → Instr} (hf : ∀ t, (f t).form = some (opc, t.code, x)) (h : bF m f = some i) :
    i.form = some (opc, m, x) := by
  obtain ⟨hm, h⟩ := Option.ite_none_right_eq_some.1 h
  obtain ⟨t, ht, rfl⟩ := Option.map_eq_some_iff.1 h
  have hcode := Ty.code_of_filter ht
  exact form_of_eq (hf _) (by omega)

theorem bFM_form (hm : m < 256) {f : Ty → RMode → SrcMods → Instr}
    (hf : ∀ t r a, (f t r a).form = some (opc, t.code + 16 * r.code + 64 * a.code, x)) (h : bFM m f = some i) :
    i.form = some (opc, m, x) := by
  obtain ⟨t, ht, rfl⟩ := Option.map_eq_some_iff.1 h
  have hcode := Ty.code_of_filter ht
  have hr := RMode.code_ofCode (n := m / 16 % 4) (by omega)
  have ha := SrcMods.code_ofCode (n := m / 64) (by omega)
  exact form_of_eq (hf _ _ _) (by omega)

theorem bFS_form (hm : m < 256) {f : Ty → SrcMods → Instr} (hf : ∀ t a, (f t a).form = some (opc, t.code + 64 * a.code, x))
    (h : bFS m f = some i) : i.form = some (opc, m, x) := by
  obtain ⟨hr, h⟩ := Option.ite_none_right_eq_some.1 h
  obtain ⟨t, ht, rfl⟩ := Option.map_eq_some_iff.1 h
  have hcode := Ty.code_of_filter ht
  have ha := SrcMods.code_ofCode (n := m / 64) (by omega)
  exact form_of_eq (hf _ _) (by omega)

theorem b0_form {j : Instr} (hf : j.form = some (opc, 0, x)) (h : b0 m j = some i) : i.form = some (opc, m, x) := by
  obtain ⟨hm, hj⟩ := Option.ite_none_right_eq_some.1 h
  cases hj
  exact form_of_eq hf hm.symm

theorem bMem_form {f : Ty → Fin 5 → Instr} (hf : ∀ t k, (f t k).form = some (opc, t.code + 16 * k.val, x))
    (h : bMem m f = some i) : i.form = some (opc, m, x) := by
  unfold bMem at h
  split at h
  · next t k ht hk =>
    cases h
    have hcode := Ty.code_of_filter ht
    have hscale := scaleOf_val hk
    exact form_of_eq (hf _ _) (by omega)
  · cases h

/-- A modifier byte that is one fixed byte. -/
theorem fixed_form {n : Nat} {j : Instr} (hf : j.form = some (opc, n, x)) (h : (if m = n then some j else none) = some i) :
    i.form = some (opc, m, x) := by
  obtain ⟨hm, hj⟩ := Option.ite_none_right_eq_some.1 h
  cases hj
  exact form_of_eq hf hm.symm

/-- A type with a rounding mode (`rnd`, `qnt`, `scl`). -/
theorem rounded_form {p : Ty → Bool} {f : Ty → RMode → Instr}
    (hf : ∀ t r, (f t r).form = some (opc, t.code + 16 * r.code, x))
    (h : (if m / 64 = 0 then ((Ty.ofCode (m % 16)).filter p).map fun t => f t (RMode.ofCode (m / 16 % 4)) else none) = some i) :
    i.form = some (opc, m, x) := by
  obtain ⟨hm, h⟩ := Option.ite_none_right_eq_some.1 h
  obtain ⟨t, ht, rfl⟩ := Option.map_eq_some_iff.1 h
  have hcode := Ty.code_of_filter ht
  have hr := RMode.code_ofCode (n := m / 16 % 4) (by omega)
  exact form_of_eq (hf _ _) (by omega)

/-- A type alone (`dqt`, `cas`). -/
theorem typed_form {p : Ty → Bool} {f : Ty → Instr} (hf : ∀ t, (f t).form = some (opc, t.code, x))
    (h : (if m / 16 = 0 then ((Ty.ofCode (m % 16)).filter p).map f else none) = some i) : i.form = some (opc, m, x) := by
  obtain ⟨hm, h⟩ := Option.ite_none_right_eq_some.1 h
  obtain ⟨t, ht, rfl⟩ := Option.map_eq_some_iff.1 h
  have hcode := Ty.code_of_filter ht
  exact form_of_eq (hf _) (by omega)

/-- A scope alone (`racq`, `rrel`). -/
theorem scoped_form {f : Scope → Instr} (hf : ∀ sc, (f sc).form = some (opc, sc.code, x))
    (h : (ringScope m).map f = some i) : i.form = some (opc, m, x) := by
  obtain ⟨sc, hsc, rfl⟩ := Option.map_eq_some_iff.1 h
  exact form_of_eq (hf _) (ringScope_code hsc)

/-- A scope, and in bit 3 which of two instructions (`rcom`, `rpeek`). -/
theorem scopedPair_form {f g : Scope → Instr} (hf : ∀ sc, (f sc).form = some (opc, sc.code + 8, x))
    (hg : ∀ sc, (g sc).form = some (opc, sc.code, x))
    (h : (if m / 16 = 0 then (ringScope (m % 8)).map fun sc => if m / 8 % 2 = 1 then f sc else g sc else none) = some i) :
    i.form = some (opc, m, x) := by
  obtain ⟨hm, h⟩ := Option.ite_none_right_eq_some.1 h
  obtain ⟨sc, hsc, rfl⟩ := Option.map_eq_some_iff.1 h
  have hcode := ringScope_code hsc
  split
  · exact form_of_eq (hf _) (by omega)
  · exact form_of_eq (hg _) (by omega)

/-- A word or a pair, 8 or 7 (`bcst`, `xst`). -/
theorem wordOrPair_form {f : Bool → Instr} (hf : ∀ w, (f w).form = some (opc, if w then 7 else 8, x))
    (h : (if m = 7 ∨ m = 8 then some (f (m = 7)) else none) = some i) : i.form = some (opc, m, x) := by
  obtain ⟨rfl | rfl, h⟩ := Option.ite_none_right_eq_some.1 h
  · cases h
    exact hf _
  · cases h
    exact hf _

theorem bMtsr_form (x : Args) : (bMtsr x).form = some (0xFB, 0, x) := by
  unfold bMtsr
  split
  · rfl
  · split
    · rfl
    · split <;> rfl

/-! Readings that a single opcode has. -/

theorem build_abs_form (h : build 0x0B m x = some (some i)) : i.form = some (0x0B, m, x) :=
  bTS_form (fun _ _ => rfl) (Option.ite_none_right_eq_some.1 (Option.some.inj h)).2

theorem build_cmp_form (h : build 0x1B m x = some (some i)) : i.form = some (0x1B, m, x) := by
  unfold build at h
  injection h with h
  split at h
  · next t c ht hc =>
    obtain ⟨⟨hbit, -⟩, h⟩ := Option.ite_none_right_eq_some.1 h
    cases h
    have hty := Ty.code_of_filter ht
    have hcond := Cond.code_of_ofCode hc
    exact form_of_eq rfl (by omega)
  · cases h

theorem build_lea_form (h : build 0x1D m x = some (some i)) : i.form = some (0x1D, m, x) := by
  unfold build at h
  injection h with h
  split at h
  · next t k ht hk =>
    obtain ⟨⟨hbit, -⟩, h⟩ := Option.ite_none_right_eq_some.1 h
    cases h
    have hty := Ty.code_of_filter ht
    have hscale := scaleOf_val hk
    exact form_of_eq rfl (by omega)
  · cases h

theorem build_fcmp_form (h : build 0x27 m x = some (some i)) : i.form = some (0x27, m, x) := by
  unfold build at h
  injection h with h
  split at h
  · next t c ht hc =>
    cases h
    have hty := Ty.code_of_filter ht
    have hcond := FCond.code_of_ofCode hc
    exact form_of_eq rfl (by omega)
  · cases h

theorem build_cvt_form (h : build 0x40 m x = some (some i)) : i.form = some (0x40, m, x) := by
  unfold build at h
  injection h with h
  split at h
  · next t u ht hu =>
    cases h
    have hdst := Ty.code_of_filter ht
    have hsrc := Ty.code_of_filter hu
    exact form_of_eq rfl (by omega)
  · cases h

theorem packPositions_le (t : Ty) : packPositions t ≤ 4 := by cases t <;> decide

theorem build_pack_form (h : build 0x44 m x = some (some i)) : i.form = some (0x44, m, x) := by
  unfold build at h
  injection h with h
  split at h
  · next t ht =>
    obtain ⟨hpos, h⟩ := Option.ite_none_right_eq_some.1 h
    cases h
    have hty := Ty.code_of_ofCode ht
    have hr := RMode.code_ofCode (n := m / 16 % 4) (by omega)
    have hp : (Fin.ofNat 4 (m / 64)).val = m / 64 := Nat.mod_eq_of_lt (hpos.trans_le (packPositions_le t))
    exact form_of_eq rfl (by omega)
  · cases h

theorem build_unpk_form (h : build 0x45 m x = some (some i)) : i.form = some (0x45, m, x) := by
  unfold build at h
  injection h with h
  split at h
  · next t ht =>
    obtain ⟨hpos, h⟩ := Option.ite_none_right_eq_some.1 h
    cases h
    have hty := Ty.code_of_ofCode ht
    have hle := packPositions_le t
    have hp : (Fin.ofNat 8 (m / 16)).val = m / 16 := Nat.mod_eq_of_lt (by omega)
    exact form_of_eq rfl (by omega)
  · cases h

theorem build_red_form (h : build 0x50 m x = some (some i)) : i.form = some (0x50, m, x) := by
  unfold build at h
  injection h with h
  split at h
  · next op hop =>
    obtain ⟨t, ht, rfl⟩ := Option.map_eq_some_iff.1 h
    have hty := Ty.code_of_filter ht
    have hcode := LaneOp.code_of_ofCode hop
    exact form_of_eq rfl (by omega)
  · cases h

theorem build_scan_form (hm : m < 256) (h : build 0x51 m x = some (some i)) : i.form = some (0x51, m, x) := by
  unfold build at h
  injection h with h
  split at h
  · next op hop =>
    obtain ⟨t, ht, rfl⟩ := Option.map_eq_some_iff.1 h
    have hty := Ty.code_of_filter ht
    have hcode := LaneOp.code_of_ofCode hop
    have hexcl := toNat_decide_eq_one (n := m / 128) (by omega)
    exact form_of_eq rfl (by omega)
  · cases h

theorem build_shfl_form (h : build 0x52 m x = some (some i)) : i.form = some (0x52, m, x) := by
  unfold build at h
  injection h with h
  split at h
  · next mode hmode =>
    obtain ⟨hw, h⟩ := Option.ite_none_right_eq_some.1 h
    cases h
    have hcode := ShflMode.code_of_ofCode hmode
    have hwide : (if decide (m % 16 = 7) then 7 else 8) = m % 16 := by
      rcases hw with hw | hw <;> simp [hw]
    exact form_of_eq rfl (by omega)
  · cases h

theorem build_vote_form (h : build 0x54 m x = some (some i)) : i.form = some (0x54, m, x) := by
  unfold build at h
  injection h with h
  split at h
  · next mode hmode =>
    obtain ⟨hw, h⟩ := Option.ite_none_right_eq_some.1 h
    cases h
    have hcode := VoteMode.code_of_ofCode hmode
    exact form_of_eq rfl (by omega)
  · cases h

theorem build_pref_form (h : build 0x7A m x = some (some i)) : i.form = some (0x7A, m, x) := by
  unfold build at h
  injection h with h
  obtain ⟨hm, h⟩ := Option.ite_none_right_eq_some.1 h
  obtain ⟨k, hk, rfl⟩ := Option.map_eq_some_iff.1 h
  have hscale := scaleOf_val hk
  exact form_of_eq rfl (by omega)

theorem build_fence_form (h : build 0x7B m x = some (some i)) : i.form = some (0x7B, m, x) := by
  unfold build at h
  injection h with h
  split at h
  · next sc hsc =>
    obtain ⟨⟨hm, -⟩, h⟩ := Option.ite_none_right_eq_some.1 h
    cases h
    have hcode := Scope.code_of_ofCode hsc
    have horder := Order.code_ofCode (n := m / 8) (by omega)
    exact form_of_eq rfl (by omega)
  · cases h

theorem build_atom_form (h : build 0x90 m x = some (some i)) : i.form = some (0x90, m, x) := by
  unfold build at h
  injection h with h
  split at h
  · next t op ht hop =>
    obtain ⟨-, h⟩ := Option.ite_none_left_eq_some.1 h
    cases h
    have hty := Ty.code_of_filter ht
    have hcode := AtomOp.code_of_ofCode hop
    exact form_of_eq rfl (by omega)
  · cases h

theorem build_facc_form (h : build 0x92 m x = some (some i)) : i.form = some (0x92, m, x) := by
  refine fixed_form ?_ (Option.some.inj h)
  split <;> rfl

theorem build_faccr_form (h : build 0x93 m x = some (some i)) : i.form = some (0x93, m, x) := by
  unfold build at h
  injection h with h
  obtain ⟨hm, h⟩ := Option.ite_none_right_eq_some.1 h
  obtain ⟨t, ht, rfl⟩ := Option.map_eq_some_iff.1 h
  have hty := Ty.code_of_filter ht
  have hr := RMode.code_ofCode (n := m / 16 % 4) (by omega)
  have hz := toNat_decide_eq_one (n := m / 64 % 2) (by omega)
  exact form_of_eq rfl (by omega)

theorem build_waita_form (h : build 0x94 m x = some (some i)) : i.form = some (0x94, m, x) := by
  unfold build at h
  injection h with h
  obtain ⟨hm, h⟩ := Option.ite_none_right_eq_some.1 h
  obtain ⟨t, ht, rfl⟩ := Option.map_eq_some_iff.1 h
  have hty := Ty.code_of_filter ht
  have heq := toNat_decide_eq_one (n := m / 16 % 2) (by omega)
  exact form_of_eq rfl (by omega)

theorem build_nop_form (h : build 0xBD m x = some (some i)) : i.form = some (0xBD, m, x) := by
  unfold build at h
  injection h with h
  split at h
  · cases h
    rfl
  · obtain ⟨-, h⟩ := Option.ite_none_left_eq_some.1 h
    cases h
    rfl
  · cases h

theorem build_wld_form (h : build 0xC3 m x = some (some i)) : i.form = some (0xC3, m, x) := by
  unfold build at h
  injection h with h
  split at h
  · next hm =>
    obtain ⟨-, h⟩ := Option.ite_none_right_eq_some.1 h
    cases h
    exact form_of_eq rfl hm.symm
  · obtain ⟨t, ht, rfl⟩ := Option.map_eq_some_iff.1 h
    exact form_of_eq rfl (Ty.code_of_filter ht)

theorem build_mma_form (h : build 0xC4 m x = some (some i)) : i.form = some (0xC4, m, x) := by
  unfold build at h
  injection h with h
  obtain ⟨t, ht, rfl⟩ := Option.map_eq_some_iff.1 h
  split <;> exact form_of_eq rfl (Ty.code_of_filter ht)

theorem build_mmt_form (h : build 0xC5 m x = some (some i)) : i.form = some (0xC5, m, x) := by
  unfold build at h
  injection h with h
  split at h
  · next ta tw ha hw =>
    cases h
    have hact := Ty.code_of_filter ha
    have hweight := Ty.code_of_filter hw
    exact form_of_eq rfl (by omega)
  · cases h

theorem build_adrain_form (h : build 0xC6 m x = some (some i)) : i.form = some (0xC6, m, x) := by
  unfold build at h
  injection h with h
  split at h
  case h_7 => cases h
  all_goals
    next t ht hm =>
      cases h
      have hty := Ty.code_of_filter ht
      refine form_of_eq rfl ?_
      simp only [Bool.toNat_true, Bool.toNat_false]
      omega

theorem build_publ_form (h : build 0xF2 m x = some (some i)) : i.form = some (0xF2, m, x) := by
  unfold build at h
  injection h with h
  obtain ⟨sc, hsc, h⟩ := Option.bind_eq_some_iff.1 h
  obtain ⟨-, h⟩ := Option.ite_none_left_eq_some.1 h
  cases h
  exact form_of_eq rfl (ringScope_code hsc)

end

/-- The instruction that an opcode, a modifier byte and fields are read as has them as its form. The arms are numbered as `build` lists
them: first those with a reading of their own, then the arms that share one. -/
theorem build_form {opc m : Nat} {x : Args} {i : Instr} (hm : m < 256) (h : build opc m x = some (some i)) :
    i.form = some (opc, m, x) := by
  have hbuild := h
  unfold build at h
  split at h
  case h_154 => cases h
  all_goals injection h with h
  case h_11 => exact build_abs_form hbuild
  case h_27 => exact build_cmp_form hbuild
  case h_29 => exact build_lea_form hbuild
  case h_39 => exact build_fcmp_form hbuild
  case h_51 => exact build_cvt_form hbuild
  case h_52 | h_53 | h_57 => exact rounded_form (fun _ _ => rfl) h
  case h_54 | h_83 => exact typed_form (fun _ => rfl) h
  case h_55 => exact build_pack_form hbuild
  case h_56 => exact build_unpk_form hbuild
  case h_58 => exact build_red_form hbuild
  case h_59 => exact build_scan_form hm hbuild
  case h_60 => exact build_shfl_form hbuild
  case h_61 | h_142 => exact wordOrPair_form (fun _ => rfl) h
  case h_62 => exact build_vote_form hbuild
  case h_77 | h_78 | h_81 | h_94 | h_104 | h_106 | h_129 | h_150 => split at h <;> cases h <;> rfl
  case h_79 => exact build_pref_form hbuild
  case h_80 => exact build_fence_form hbuild
  case h_82 => exact build_atom_form hbuild
  case h_84 => exact build_facc_form hbuild
  case h_85 => exact build_faccr_form hbuild
  case h_86 => exact build_waita_form hbuild
  case h_90 | h_93 => exact scoped_form (fun _ => rfl) h
  case h_91 | h_92 => exact scopedPair_form (fun _ => rfl) (fun _ => rfl) h
  case h_108 => exact build_nop_form hbuild
  case h_112 => exact build_wld_form hbuild
  case h_113 => exact build_mma_form hbuild
  case h_114 => exact build_mmt_form hbuild
  case h_115 => exact build_adrain_form hbuild
  case h_143 => exact build_publ_form hbuild
  case h_149 => exact b0_form (bMtsr_form x) h
  -- The other arms are one reading each; what is left of them is the form of the instruction read.
  any_goals with_reducible refine bTS_form ?_ h
  any_goals with_reducible refine bT_form ?_ h
  any_goals with_reducible refine bFM_form hm ?_ h
  any_goals with_reducible refine bFS_form hm ?_ h
  any_goals with_reducible refine bF_form ?_ h
  any_goals with_reducible refine b0_form ?_ h
  any_goals with_reducible refine bMem_form ?_ h
  any_goals with_reducible refine fixed_form ?_ h
  all_goals (intros; rfl)

/-! ### Operand specifiers (R43, R44) -/

theorem Opnd.code_lt (o : Opnd) : o.code < 1024 := by
  cases o with
  | special x => cases x <;> decide
  | zero => decide
  | _ n =>
    have := n.isLt
    simp only [Opnd.code]
    omega

theorem Special.code_of_ofCode {n : Nat} {x : Special} (h : Special.ofCode n = some x) : x.code = n := by
  unfold Special.ofCode at h
  split at h <;> cases h <;> rfl

/-- A code that each branch has, under its condition. -/
theorem Opnd.code_ite {p : Prop} [Decidable p] {o o' : Opnd} {c : Nat} (h : p → o.code = c) (h' : ¬p → o'.code = c) :
    (if p then o else o').code = c := by
  split
  · next hp => exact h hp
  · next hp => exact h' hp

/-- Every code of ten bits is that of the operand read from it; a reserved code keeps its bits. -/
theorem Opnd.code_ofCode {c : Nat} (hc : c < 1024) : (Opnd.ofCode c).code = c := by
  unfold Opnd.ofCode
  repeat' with_reducible refine code_ite (fun _ => ?_) fun _ => ?_
  -- The eighth range holds the specials.
  pick_goal 8
  · split
    · next x hx =>
      rw [Opnd.code, Special.code_of_ofCode hx]
      omega
    · simp only [Opnd.code, BitVec.toNat_ofNat]
      omega
  all_goals
    simp only [Opnd.code, BitVec.toNat_ofNat]
    omega

/-- An operand that is not reserved is read back from its code. -/
theorem Opnd.ofCode_code {o : Opnd} (h : o.isResv = false) : Opnd.ofCode o.code = o := by
  cases o with
  | resv c => cases h
  | zero => rfl
  | special x => cases x <;> rfl
  | _ n =>
    have := n.isLt
    simp only [Opnd.code]
    unfold Opnd.ofCode
    repeat rw [if_neg (by omega)]
    rw [if_pos (by omega)]
    simp

/-! ### The fields of a base word (R35) -/

/-- The fields fit their places. -/
structure Raw.Fits (r : Raw) : Prop where
  len : r.len < 4
  opc : r.opc < 2 ^ 8
  u   : r.u < 2
  nwb : r.nwb < 2
  kg  : r.kg < 8
  kn  : r.kn < 2
  d   : r.d < 2 ^ 10
  a   : r.a < 2 ^ 10
  b   : r.b < 2 ^ 10
  c   : r.c < 2 ^ 10
  m   : r.m < 2 ^ 8

theorem Raw.ofNat_toNat {r : Raw} (h : r.Fits) : Raw.ofNat r.toNat = r := by
  obtain ⟨h1, h2, h3, h4, h5, h6, h7, h8, h9, h10, h11⟩ := h
  cases r
  simp only [Raw.ofNat, Raw.toNat, Raw.mk.injEq] at *
  refine ⟨?_, ?_, ?_, ?_, ?_, ?_, ?_, ?_, ?_, ?_, ?_, ?_⟩ <;> omega

theorem Raw.toNat_ofNat (w : Nat) : (Raw.ofNat w).toNat = w := by
  simp only [Raw.ofNat, Raw.toNat]
  omega

theorem Raw.ofNat_fits (w : Nat) : (Raw.ofNat w).Fits := by
  constructor <;> simp only [Raw.ofNat] <;> omega

/-! ### What follows the base word -/

theorem lenBytes_lenCode (e : Ext) : lenBytes e.lenCode = some (e.bits / 8) := by
  cases e <;> simp only [Ext.lenCode, lenBytes, Ext.bits]

theorem Ext.lenCode_lt (e : Ext) : e.lenCode < 3 := by cases e <;> simp only [Ext.lenCode] <;> decide

theorem extOf_lenCode_value (e : Ext) : extOf e.lenCode e.value = e := by
  cases e <;> simp [extOf, Ext.lenCode, Ext.value]

/-- The encoding of what follows is as long as LEN says. -/
theorem Ext.value_lt (e : Ext) : 2 ^ 64 * e.value + 2 ^ 64 ≤ 256 ^ (e.bits / 8) := by
  cases e with
  | short => decide
  | imm w =>
    have := w.isLt
    simp only [Ext.value, Ext.bits]
    omega
  | ext w =>
    have := w.isLt
    simp only [Ext.value, Ext.bits]
    omega

theorem lenCode_extOf {len v : Nat} (h : len < 3) : (extOf len v).lenCode = len := by
  unfold extOf
  split
  · next h => exact h.symm
  · split
    · next h => exact h.symm
    · simp only [Ext.lenCode]
      omega

/-- The part of `n` bytes behind the base word fits IMM32 or EXT64. -/
theorem value_extOf {len v n : Nat} (hn : lenBytes len = some n) (hv : 2 ^ 64 * v < 256 ^ n) : (extOf len v).value = v := by
  unfold lenBytes at hn
  split at hn <;> cases hn
  · simp only [extOf, Ext.value, if_true]
    omega
  · simp [extOf, Ext.value]
    omega
  · simp [extOf, Ext.value]
    omega

/-! ### The fields of an instruction -/

theorem rawOf_fits {opc m : Nat} (x : Args) (hopc : opc < 256) (hm : m < 256) : (rawOf opc m x).Fits where
  len := x.ext.lenCode_lt.trans (by decide)
  opc := hopc
  u := x.u.toNat_lt
  nwb := x.nwb.toNat_lt
  kg := x.kg.isLt
  kn := x.kn.toNat_lt
  d := x.d.code_lt
  a := x.a.code_lt
  b := x.b.code_lt
  c := x.c.code_lt
  m := hm

/-- Where no field holds a reserved specifier, the fields are read back. -/
theorem args_rawOf {opc m : Nat} {x : Args} (h : check8 x = true) : (rawOf opc m x).args = x := by
  simp only [check8, Bool.not_eq_true', Bool.or_eq_false_iff] at h
  obtain ⟨⟨⟨hd, ha⟩, hb⟩, hc⟩ := h
  simp [Raw.args, rawOf, Opnd.ofCode_code, hd, ha, hb, hc, extOf_lenCode_value]

/-- The fields that are read have the numbers that they were read from. -/
theorem rawOf_args {r : Raw} {n : Nat} (hr : r.Fits) (hn : lenBytes r.len = some n) (he : 2 ^ 64 * r.ext < 256 ^ n) :
    rawOf r.opc r.m r.args = r := by
  have hlen : r.len < 3 := by
    have := hr.len
    by_contra h
    rw [show r.len = 3 by omega] at hn
    cases hn
  simp only [rawOf, Raw.args, lenCode_extOf hlen, value_extOf hn he, toNat_decide_eq_one hr.u, toNat_decide_eq_one hr.nwb,
    toNat_decide_eq_one hr.kn, BitVec.toNat_ofNat, Nat.mod_eq_of_lt hr.kg, Opnd.code_ofCode hr.d, Opnd.code_ofCode hr.a,
    Opnd.code_ofCode hr.b, Opnd.code_ofCode hr.c]

/-! ### Bytes -/

theorem ofBytes_lt (bs : List Byte) : ofBytes bs < 256 ^ bs.length := by
  induction bs with
  | nil => decide
  | cons b bs ih =>
    have := b.isLt
    simp only [ofBytes, List.length_cons, pow_succ]
    omega

theorem bytesOf_ofBytes (bs : List Byte) : bytesOf (ofBytes bs) bs.length = bs := by
  induction bs with
  | nil => rfl
  | cons b bs ih =>
    have := b.isLt
    rw [List.length_cons, ofBytes, bytesOf]
    congr 1
    · refine BitVec.eq_of_toNat_eq ?_
      rw [BitVec.toNat_ofNat]
      omega
    · rw [show (b.toNat + 256 * ofBytes bs) / 256 = ofBytes bs by omega, ih]

theorem bytesOf_add (v a b : Nat) : bytesOf v (a + b) = bytesOf v a ++ bytesOf (v / 256 ^ a) b := by
  induction a generalizing v with
  | zero => simp [bytesOf]
  | succ a ih =>
    rw [Nat.succ_add, bytesOf, ih, bytesOf, Nat.div_div_eq_div_mul, Nat.pow_succ, Nat.mul_comm]
    rfl

/-- Only the low `n` bytes of a number count. -/
theorem bytesOf_mod (v n : Nat) : bytesOf (v % 256 ^ n) n = bytesOf v n := by
  have h := bytesOf_ofBytes (bytesOf v n)
  rwa [bytesOf_length, ofBytes_bytesOf] at h

/-- Bytes in groups of four are 32-bit words, each little-endian (R3, R32). -/
theorem bytesOf_words (v n : Nat) :
    bytesOf v (4 * n) = (List.range n).flatMap fun j => bytesOf (BitVec.ofNat 32 (v / 2 ^ (32 * j))).toNat 4 := by
  induction n with
  | zero => rfl
  | succ n ih =>
    rw [List.range_succ, List.flatMap_append, ← ih, Nat.mul_succ, bytesOf_add]
    congr 1
    have hpow : 2 ^ (32 * n) = 256 ^ (4 * n) := by
      rw [show 256 = 2 ^ 8 by rfl, ← pow_mul]
      congr 1
      omega
    rw [List.flatMap_singleton, BitVec.toNat_ofNat, hpow]
    exact (bytesOf_mod _ 4).symm

/-! ### Decoding -/

/-- The checks of R48 that the decoder makes on the fields of a base word, all passed. -/
structure Accepted (r : Raw) (i : Instr) : Prop where
  len    : r.len ≠ 3
  build  : build r.opc r.m r.args = some (some i)
  length : lengthOk r.opc r.m r.args = true
  static : staticCheck i r.args = none

theorem Accepted.decodeRaw {r : Raw} {i : Instr} (h : Accepted r i) : decodeRaw r = .ok i := by
  simp only [Sys2Proof.decodeRaw, h.len, h.build, h.length, h.static, if_false, if_true]

theorem accepted_of_decodeRaw {r : Raw} {i : Instr} (h : decodeRaw r = .ok i) : Accepted r i := by
  unfold decodeRaw at h
  split at h
  · cases h
  · next hlen =>
    split at h
    · cases h
    · next built hb =>
      split at h
      · next hl =>
        split at h
        · cases h
        · split at h
          · next hs =>
            cases h
            exact ⟨hlen, hb, hl, hs⟩
          · cases h
      · cases h

/-- The decoder takes the bytes that LEN of the first one gives (R32). -/
theorem decode_of_decodeRaw {b : Byte} {bs rest : List Byte} {n : Nat} {i : Instr} (hn : lenBytes (b.toNat % 4) = some n)
    (hlen : n = bs.length + 1) (h : decodeRaw (Raw.ofNat (ofBytes (b :: bs))) = .ok i) : decode (b :: bs ++ rest) = .ok (i, rest) := by
  have htake : takeValue n (b :: bs ++ rest) = some (ofBytes (b :: bs)) := by
    simp [takeValue, hlen]
  have hdrop : (b :: bs ++ rest).drop n = rest := by simp [hlen]
  rw [List.cons_append] at htake hdrop ⊢
  simp only [decode, hn, htake, h, hdrop]

/-- Where decoding answers, the bytes that LEN gives are there, and their fields were accepted. -/
theorem decodeRaw_of_decode {bs rest : List Byte} {i : Instr} (h : decode bs = .ok (i, rest)) :
    ∃ b n, bs.head? = some b ∧ lenBytes (b.toNat % 4) = some n ∧ n ≤ bs.length ∧
      decodeRaw (Raw.ofNat (ofBytes (bs.take n))) = .ok i ∧ rest = bs.drop n := by
  unfold decode at h
  split at h
  · cases h
  · next b bs' =>
    split at h
    · cases h
    · next n hn =>
      split at h
      · cases h
      · next w hw =>
        obtain ⟨hle, hw⟩ := Option.ite_none_right_eq_some.1 hw
        cases hw
        split at h
        · next j hj =>
          cases h
          exact ⟨b, n, rfl, hn, hle, hj, rfl⟩
        · cases h

theorem check8_of_staticCheck {i : Instr} {x : Args} (h : staticCheck i x = none) : check8 x = true := by
  by_contra h8
  simp only [staticCheck, Bool.eq_false_of_not_eq_true h8, Bool.not_false, if_true] at h
  split at h <;> cases h

theorem wellFormed_iff {i : Instr} {opc m : Nat} {x : Args} (hf : i.form = some (opc, m, x)) : WellFormed i ↔
    lengthOk opc m x = true ∧ build opc m x = some (some i) ∧ staticCheck i x = none := by
  simp [WellFormed, Instr.wellFormed, Instr.wfForm, hf, and_assoc]

end Sys2Proof

namespace Sys2Proof.Laws.Encodes

/-- The opcode and the modifier byte of every instruction fit their fields, as the lemma named after it says. -/
theorem form_fits (i : Instr) : Statement i :=
  Instr.casesOn (motive := Statement) i
    add sub mul mulhi mad madhi div rem min max abs and or xor andn shl shr sra rol clz ctz popc bfx bfi prm sel cmp
    mov lea sext zext fadd fsub fmul fma fnma fmin fmax fcmp fclass fsel frcp frsq fsqrt fdiv fex2 flg2 fsin fcos
    ftanh longOpResult cvt rnd qnt dqt pack unpk scl red scan shfl bcst vote first kand kor kxor knot kmov ld st ldp
    stp ldt stt look tagw tagi tagiAll tagiCfg tst tstDef pref fence flushWc flushIb loadDataReturn storePerformed
    wcBufferDrainTimeout instructionFetchFill faultEntryFreed atom cas facc faccTagged faccr waita waitaReread
    waitaDeadline qbind qstat qdrain queueOpIssue queueStall racq rcom rcomSkip rpeek rpeekTake rrel stage stageCfg
    bra brx call ret exit bar gbar bstall yield nop joinPointNop fwait ftest ftestH fcancel trapf trapfClr trap aalloc
    aallocBanksFree afree azero wld wldZero mmaTile mmaMemory mmt adrainReg adrainSp adrainGm mred mprog
    matrixQueueRoom arrayStep followOnMma tileGateRelease lopen lclose feed feedIntakeRoom wmark wrec wemit wemitRetry
    wyield wend wpane wkey lstat resolveRecord watermarkResolve paneComplete lineFlush lineFree activationBatchIssue
    activationTrainAdmit windowPoolSlotFree tfetch tfetchTask tfetchTaskWake tfetchTaskDeadline tsub tdone launch
    lwait trig tsel jopen jarr jwait jkp jstat joinCasualty kill stagingRoom launchAdmit launchInvalid launchComplete
    dependantsStart copy xst publ dec pyr engineQueueRoom engineOperationStart copyComplete decComplete pyrComplete
    engineFaultPause futureEntryFree svc svcRetry eret mfsr mtsr tlbiPage tlbiAsid tlbiPart trapq ctxs ctxl svcret
    texitFault texitTerminate faultReplay faultFail trapDelivery timeSliceExpiry preemptDrain drainmaxExpiry
    preemptSave restore partitionResetDrain partitionResetKill supervisorRegisterWrite qtail qstate setv waitv
    fencePacket copyPacket lineOpenPacket lineClosePacket launchPacket padPacket hostMemRead hostMemWrite
    remoteResponse collMulticast partitionDrainExpiry waitvReread remoteAccessRequest proxyReply homeRemoteArrival
    proxyKill asidgenAdv fbpendRead irqenWrite preemptFlushRestart migrate qosSet routingTableSwap messageDiscard
    stagger flitRetransmit wavelengthWithdraw wavelengthReturn powerInterval attestationReport stationmasterStep
    moduleReset opticalTrainingDone bulkTrainingDone fabricTrainingDone staggerResume

end Sys2Proof.Laws.Encodes

namespace Sys2Proof
open Machine

theorem Raw.toNat_lt {r : Raw} (h : r.Fits) : r.toNat < 2 ^ 64 + 2 ^ 64 * r.ext := by
  obtain ⟨h1, h2, h3, h4, h5, h6, h7, h8, h9, h10, h11⟩ := h
  simp only [Raw.toNat]
  omega

theorem Args.len_pos (x : Args) : ∃ n, x.len = n + 1 := by
  unfold Args.len
  cases x.ext <;> simp only [Ext.bits]
  · exact ⟨7, rfl⟩
  · exact ⟨11, rfl⟩
  · exact ⟨15, rfl⟩

section
variable {i : Instr} {opc m : Nat} {x : Args} (hf : i.form = some (opc, m, x))
include hf

theorem rawOf_fits_of_form : (rawOf opc m x).Fits :=
  let ⟨_, hopc, hm⟩ := Laws.Encodes.form_fits i opc m x hf
  rawOf_fits x hopc hm

theorem encodeBytes_of_form : encodeBytes i = bytesOf (rawOf opc m x).toNat x.len := by
  simp only [encodeBytes, hf]

/-- The fields of a well-formed instruction pass the decoder's checks. -/
theorem accepted_of_wellFormed (hwf : WellFormed i) : Accepted (rawOf opc m x) i := by
  obtain ⟨hlen, hbuild, hstatic⟩ := (wellFormed_iff hf).1 hwf
  have hargs : (rawOf opc m x).args = x := args_rawOf (check8_of_staticCheck hstatic)
  have hcode := x.ext.lenCode_lt
  exact ⟨by simp only [rawOf]; omega, by rw [hargs]; exact hbuild, by rw [hargs]; exact hlen, by rw [hargs]; exact hstatic⟩

theorem decode_encodeBytes (hwf : WellFormed i) (rest : List Byte) : decode (encodeBytes i ++ rest) = .ok (i, rest) := by
  have hfits := rawOf_fits_of_form hf
  have hraw := Raw.ofNat_toNat hfits
  have hlt : (rawOf opc m x).toNat < 256 ^ x.len := (Raw.toNat_lt hfits).trans_le ((Nat.add_comm _ _).trans_le x.ext.value_lt)
  obtain ⟨n, hn⟩ := x.len_pos
  have hlen : lenBytes ((rawOf opc m x).toNat % 4) = some (n + 1) := by
    rw [← hn, show (rawOf opc m x).toNat % 4 = x.ext.lenCode from congrArg Raw.len hraw]
    exact lenBytes_lenCode x.ext
  have hval : ofBytes (bytesOf (rawOf opc m x).toNat (n + 1)) = (rawOf opc m x).toNat := by
    rw [ofBytes_bytesOf, Nat.mod_eq_of_lt (hn ▸ hlt)]
  rw [encodeBytes_of_form hf, hn]
  refine decode_of_decodeRaw (n := n + 1) ?_ (by rw [bytesOf_length]) ?_
  · rw [BitVec.toNat_ofNat, show 2 ^ 8 = 4 * 64 by rfl, Nat.mod_mul_right_mod]
    exact hlen
  · rw [← bytesOf, hval, hraw]
    exact (accepted_of_wellFormed hf hwf).decodeRaw

/-- The bytes of an encoding are those of its words. -/
theorem encodeBytes_eq_words : encodeBytes i = (encode i).flatMap fun w => bytesOf w.toNat 4 := by
  have hlen : x.len = 4 * (x.ext.bits / 32) := by
    unfold Args.len
    cases x.ext <;> simp only [Ext.bits]
  rw [encodeBytes_of_form hf, hlen, bytesOf_words]
  simp only [encode, hf, List.flatMap_map]

end

/-- Settles O57: the number of a well-formed instruction's fields gives the fields back (`Raw.ofNat_toNat`, `args_rawOf`), and they pass
the decoder's checks (`accepted_of_wellFormed`); four bytes at a time the bytes are the words (`bytesOf_words`). -/
theorem decodingAnEncodingGivesTheInstruction : Obligations.DecodingAnEncodingGivesTheInstruction := by
  unfold Obligations.DecodingAnEncodingGivesTheInstruction
  intro i rest hwf hsome
  obtain ⟨⟨opc, m, x⟩, hf⟩ := Option.isSome_iff_exists.1 hsome
  exact ⟨decode_encodeBytes hf hwf rest, encodeBytes_eq_words hf⟩

/-- The instruction that the decoder accepts has the fields that it read, and is well formed. -/
theorem Accepted.wellFormed {r : Raw} {i : Instr} (h : Accepted r i) (hr : r.Fits) :
    i.form = some (r.opc, r.m, r.args) ∧ WellFormed i := by
  have hf := build_form hr.m h.build
  exact ⟨hf, (wellFormed_iff hf).2 ⟨h.length, h.build, h.static⟩⟩

/-- The bytes that were read are the encoding of their fields. -/
theorem encodeBytes_of_read {bs : List Byte} {i : Instr} (hn : lenBytes (ofBytes bs % 4) = some bs.length)
    (hf : i.form = some ((Raw.ofNat (ofBytes bs)).opc, (Raw.ofNat (ofBytes bs)).m, (Raw.ofNat (ofBytes bs)).args)) :
    encodeBytes i = bs := by
  have hext : 2 ^ 64 * (Raw.ofNat (ofBytes bs)).ext < 256 ^ bs.length :=
    (Nat.mul_div_le _ _).trans_lt (ofBytes_lt bs)
  have hraw := rawOf_args (Raw.ofNat_fits _) hn hext
  have hlen : (Raw.ofNat (ofBytes bs)).args.len = bs.length := by
    have hcode := lenBytes_lenCode (Raw.ofNat (ofBytes bs)).args.ext
    rw [show (Raw.ofNat (ofBytes bs)).args.ext.lenCode = ofBytes bs % 4 from congrArg Raw.len hraw, hn] at hcode
    exact (Option.some.inj hcode).symm
  rw [encodeBytes_of_form hf, hraw, Raw.toNat_ofNat, hlen, bytesOf_ofBytes]

/-- LEN of the first byte is LEN of the number. -/
theorem ofBytes_mod_four {bs : List Byte} {b : Byte} {n : Nat} (h : bs.head? = some b) (hn : 0 < n) :
    ofBytes (bs.take n) % 4 = b.toNat % 4 := by
  obtain ⟨n, rfl⟩ := Nat.exists_eq_succ_of_ne_zero hn.ne'
  cases bs with
  | nil => cases h
  | cons c cs =>
    cases h
    rw [List.take_succ_cons, ofBytes]
    omega

theorem lenBytes_pos {c n : Nat} (h : lenBytes c = some n) : 0 < n := by
  unfold lenBytes at h
  split at h <;> cases h <;> decide

/-- Settles O58: the instruction that the checks accept has the opcode, the modifier byte and the fields that were read as its form
(`build_form`), so it is well formed, and these fields have the number that was read (`encodeBytes_of_read`). -/
theorem decodedInstructionsAreWellFormed : Obligations.DecodedInstructionsAreWellFormed := by
  unfold Obligations.DecodedInstructionsAreWellFormed
  intro bs i rest h
  obtain ⟨b, n, hhead, hn, hle, hraw, rfl⟩ := decodeRaw_of_decode h
  obtain ⟨hf, hwf⟩ := (accepted_of_decodeRaw hraw).wellFormed (Raw.ofNat_fits _)
  have htake : (bs.take n).length = n := List.length_take_of_le hle
  have henc : encodeBytes i = bs.take n := by
    refine encodeBytes_of_read ?_ hf
    rw [ofBytes_mod_four hhead (lenBytes_pos hn), hn, htake]
  refine ⟨hwf, by rw [hf]; rfl, b, n, hhead, hn, ?_, by rw [henc, htake]⟩
  rw [henc, List.take_append_drop]

/-- Settles O56: the decoder, run on each word. -/
theorem wordsOfTheSpecDecode : Obligations.WordsOfTheSpecDecode := by
  unfold Obligations.WordsOfTheSpecDecode
  intro lane train
  refine ⟨?_, ?_, ?_, ?_, ?_, ?_, ?_, ?_, ?_, ?_, ?_, ?_, ?_⟩ <;> decide

end Sys2Proof
end

section
/-! PROOFS. The issue of one instruction: the chain that it belongs to (O46), the checks that trap it (O44), what lets it go on to its
meaning (O43), and what its completion leaves (O42). -/

namespace Sys2Proof.Machine

/-! ### The chain (R51 to R53) -/

/-- An instruction names a latch where one of its sources does. -/
theorem namesLatch_iff {x : Args} : namesLatch x = true ↔ ∃ n, x.a = .b n ∨ x.b = .b n ∨ x.c = .b n := by
  constructor
  · intro h
    obtain ⟨o, ho, hb⟩ := List.any_eq_true.1 h
    split at hb
    · next n => exact ⟨n, by simpa [eq_comm] using ho⟩
    · cases hb
  · rintro ⟨n, h | h | h⟩ <;> simp [namesLatch, h]

/-- An instruction is terminal by its class or by a `q` or `t` operand. -/
theorem isTerminal_iff {i : Instr} {opc m : Nat} {x : Args} (hf : i.form = some (opc, m, x)) : isTerminal i x = true ↔
    0x70 ≤ opc ∨ ∃ n n', x.d = .q n ∨ x.a = .q n ∨ x.b = .q n ∨ x.c = .q n ∨
      x.d = .t n' ∨ x.a = .t n' ∨ x.b = .t n' ∨ x.c = .t n' := by
  rw [isTerminal, hf, Bool.or_eq_true, Option.any_some, decide_eq_true_eq]
  refine or_congr Iff.rfl ⟨fun h => ?_, ?_⟩
  · obtain ⟨o, ho, hqt⟩ := List.any_eq_true.1 h
    simp only [List.mem_cons, List.not_mem_nil, or_false, eq_comm (a := o)] at ho
    split at hqt
    · next n => exact ⟨n, 0, by tauto⟩
    · next n => exact ⟨0, n, by tauto⟩
    · cases hqt
  · rintro ⟨n, n', h | h | h | h | h | h | h | h⟩ <;> simp [h]

theorem nextChain_of_member {ch : Chain} {x : Args} (hlen : ch.len ≠ 0) (hx : namesLatch x = true) (i : Instr) (pc : Dword) :
    nextChain ch i x pc = { ch with terminal := isTerminal i x, len := ch.len + 1, reads := ch.reads ++ regsRead i x } := by
  simp [nextChain, hlen, hx]

theorem nextChain_of_head {ch : Chain} {x : Args} (hx : namesLatch x = false) (i : Instr) (pc : Dword) :
    nextChain ch i x pc = { started := true, terminal := isTerminal i x, len := 1, head := pc, reads := regsRead i x,
                            selfWrite := (regsWritten i x).any fun r => (regsRead i x).contains r } := by
  simp [nextChain, hx]

theorem nextChain_terminal (ch : Chain) (i : Instr) (x : Args) (pc : Dword) : (nextChain ch i x pc).terminal = isTerminal i x := by
  unfold nextChain
  dsimp only
  split <;> rfl

/-- Settles O46: a member goes on with the chain (`nextChain_of_member`), any other instruction heads one (`nextChain_of_head`), and what
is terminal is `isTerminal_iff`. -/
theorem chainsFollowTheLatches : Obligations.ChainsFollowTheLatches := by
  unfold Obligations.ChainsFollowTheLatches
  intro i opc m x hf names last
  refine ⟨fun ch pc hlen hx => ?_, fun ch pc hx => ?_, fun ch pc => ?_, fun tr hterm hx => ?_, fun tr => ?_⟩
  · rw [nextChain_of_member hlen (namesLatch_iff.2 hx)]
    exact ⟨rfl, rfl⟩
  · rw [nextChain_of_head (Bool.eq_false_of_not_eq_true (mt namesLatch_iff.1 hx))]
    exact ⟨rfl, rfl⟩
  · rw [nextChain_terminal]
    exact isTerminal_iff hf
  · simp [breaksChain, namesLatch_iff.2 hx, hterm]
  · simp [chainHead]

/-! ### The checks of an issue (R48, R69) -/

section
variable {i : Instr} {x : Args} {s : State} {k : Nat} {tr : Train}

/-! Each check fails first where those before it in the table pass. -/

theorem issueCheck_of_privileged (hp : isPrivileged i = true) (hu : tr.priv = false) : issueCheck tr i x = some (trapOf 3 1) := by
  simp [issueCheck, hp, hu, Trap.privilege]

theorem issueCheck_of_beyond (hp : isPrivileged i = false ∨ tr.priv = true) (hb : beyondDeclared tr x = true) :
    issueCheck tr i x = some (trapOf 2 9) := by
  rcases hp with hp | hp <;> simp [issueCheck, hp, hb, Trap.operand]

theorem issueCheck_of_chain (hp : isPrivileged i = false ∨ tr.priv = true) (hb : beyondDeclared tr x = false)
    (hc : breaksChain tr i x = true) : issueCheck tr i x = some (trapOf 2 10) := by
  rcases hp with hp | hp <;> simp [issueCheck, hp, hb, hc, Trap.operand]

/-- A failing check raises its trap at the head of the chain, and the meaning does not run. -/
theorem issue_of_check {r : TrapRec} (hcur : s.current = some k) (htr : train? s k = some tr) (hr : issueCheck tr i x = some r)
    (wide : Bool) (body : Ctx → State → Res) :
    issue i x wide s body = .next (raiseAt s k (chainHead tr x) { r with pc := tr.pc }) := by
  simp only [issue, hcur, htr, gates, hr]

end

/-- Settles O44: the first failing check is the one that the issue raises (`issue_of_check`). -/
theorem failingChecksTrapInTheirOrder : Obligations.FailingChecksTrapInTheirOrder := by
  unfold Obligations.FailingChecksTrapInTheirOrder
  intro i x wide s k tr body hcur htr stop
  exact ⟨fun hp hu => issue_of_check hcur htr (issueCheck_of_privileged hp hu) wide body,
    fun hp hb => issue_of_check hcur htr (issueCheck_of_beyond hp hb) wide body,
    fun hp hb hc => issue_of_check hcur htr (issueCheck_of_chain hp hb hc) wide body⟩

/-! ### What holds an instruction back (R186, R234, R261, R352) -/

section
variable {i : Instr} {x : Args} {s : State} {k : Nat} {tr : Train}

/-- No load returns where none is asked for. -/
theorem returnLoads_of_none {p : PendLoad → Bool} (htr : train? s k = some tr) (hp : ∀ ld ∈ tr.loads, p ld = false) :
    returnLoads s k p = s := by
  have hany : tr.loads.any p = false := List.any_eq_false.2 fun ld hld => by simp [hp ld hld]
  have hwhere : ∀ n, returnWhere s k p n = s := fun n => by
    induction n with
    | zero => rfl
    | succ n ih => simp [returnWhere, ih, htr, hany]
  simp only [returnLoads, htr, hwhere]

/-- No field of the instruction names a queue. -/
def NamesNoQueue (x : Args) : Prop := ∀ n, x.d ≠ .q n ∧ x.a ≠ .q n ∧ x.b ≠ .q n ∧ x.c ≠ .q n

/-- Such an instruction needs nothing of a queue. -/
theorem queueNeeds_of_none (hq : NamesNoQueue x) (i : Instr) (m : Mask) : queueNeeds i x m = [] := by
  have hpops : queuePops i x m = [] := by
    refine List.filterMap_eq_nil_iff.2 fun e he => ?_
    split
    · next n he' =>
      obtain ⟨-, ha, hb, hc⟩ := hq n
      simp only [List.mem_cons, List.not_mem_nil, or_false] at he
      rcases he with rfl | rfl | rfl
      · exact absurd he' ha
      · exact absurd he' hb
      · exact absurd he' hc
    · rfl
  have hpush : queuePush i x m = none := by
    unfold queuePush
    split
    · next n hd => exact absurd hd (hq n).1
    · rfl
  unfold queueNeeds
  split
  · rfl
  · simp [hpops, hpush]

/-- Such an instruction pops nothing. -/
theorem popAll_of_none {c : Ctx} (hq : NamesNoQueue c.x) (i : Instr) (s : State) : popAll i c s = (c, s) := by
  unfold popAll
  split
  · rfl
  · split
    · rfl
    · rw [if_neg]
      rw [Bool.and_eq_true, not_and]
      rintro - h
      obtain ⟨o, ho, hqo⟩ := List.any_eq_true.1 h
      split at hqo
      · next n =>
        obtain ⟨-, ha, hb, hc⟩ := hq n
        simp [eq_comm, ha, hb, hc] at ho
      · cases hqo

theorem guardedOff_of_off (hu : x.u = true) (hm : execMask tr x = 0) : guardedOff tr x = true := by
  simp [guardedOff, hu, hm]

/-- What the meaning of an instruction that nothing holds back sees: the train as it stands (`gates_of_free`). -/
def ctxOf (i : Instr) (x : Args) (s : State) (k : Nat) (tr : Train) : Ctx :=
  { instr := i, k := k, tr := tr, x := x, head := chainHead tr x, mask := execMask tr x, clk := s.clk,
    wgid := (wgOf s tr).elim 0 (·.wgid), imm := (rules i).imm }

/-- The gates let an instruction go on at once where its checks pass and it meets no mark, no owed answer, no load and no queue. -/
theorem gates_of_free (htr : train? s k = some tr) (hcheck : issueCheck tr i x = none) (hmark : markedSource tr i x = none)
    (howed : owedResult tr i x = false) (hloads : ∀ ld ∈ tr.loads, mustReturn i x ld = false) (hq : NamesNoQueue x) :
    gates i x s k tr = .go (ctxOf i x s k tr) s := by
  have hopen : queueGate s tr [] = .open := rfl
  simp only [gates, hcheck, returnLoads_of_none htr hloads, htr, hmark, howed, queueNeeds_of_none hq, hopen, Bool.false_eq_true, if_false]
  rw [popAll_of_none hq]
  rfl

end

/-- Settles O43: an instruction whose guard fails has no source that counts (`guardedOff_of_off`), and with no mark, no owed answer, no load
and no queue in its way every gate opens (`gates_of_free`). -/
theorem nothingElseHoldsAnInstructionBack : Obligations.NothingElseHoldsAnInstructionBack := by
  unfold Obligations.NothingElseHoldsAnInstructionBack
  intro i x s k tr hcur htr hcheck
  refine ⟨fun hu hm => ?_, fun hmark howed hloads hq => ?_⟩
  · have hoff := guardedOff_of_off hu hm
    exact ⟨by simp [markedSource, hoff], by simp [owedResult, hoff]⟩
  · refine ⟨ctxOf i x s k tr, ⟨hcur, tr, htr, gates_of_free htr hcheck hmark howed hloads hq⟩, rfl, rfl, rfl, fun l => ?_⟩
    exact BitVec.getLsbD_and

/-! ### What a completion leaves (R47, R49, R51, R252) -/

/-- A push performs the earlier accesses of its train; without a queue in D nothing precedes the results (R198). -/
theorem pushRelease_of_no_queue {x : Args} (hd : ∀ n, x.d ≠ .q n) (s : State) (k : Nat) (vals : List (Nat × Dword)) :
    pushRelease s k x vals = s := by
  unfold pushRelease
  split
  · next n h => exact absurd h (hd n)
  · rfl

/-- A completion with a jump selects from the completion without one, its PC not advanced: the selected threads take the PCs that the jump
gives, the others keep theirs. -/
theorem completeTrain_jump (i : Instr) (x : Args) (wide : Bool) (d : Done) (f : Nat → Dword) (pc : Dword) (tr : Train) :
    completeTrain i x wide { d with jump := some f } pc tr
      = selectWith { completeTrain i x wide { d with jump := none } pc tr with pc := tr.pc }
          fun l => if tr.selected.getLsbD l then f l else pcOf tr l := by
  have hframe := (writeResults_sameButRegs (ageLoads tr) x wide d.vals).frame
  unfold completeTrain
  dsimp only
  rw [hframe]
  rfl

/-- Settles O42: the completion without a jump is `completeTrain_after`, on the train that the push leaves; a jump selects from it
(`completeTrain_jump`). -/
theorem aCompletionLeavesItsResults : Obligations.ACompletionLeavesItsResults := by
  unfold Obligations.ACompletionLeavesItsResults
  intro i x wide k s tr lanes val d htr hfits hvals hlatch s0
  obtain ⟨vals, flags, load, jump, latch, trap⟩ := d
  subst hvals hlatch
  obtain ⟨tr0, htr0, hsame, -⟩ := pushRelease_train htr x lanes val
  refine ⟨tr0, _, htr0, fun hd => pushRelease_of_no_queue hd s k _,
    completeTrain_after i x wide lanes val flags load trap tr0 hfits, ?_⟩
  intro after t
  have hafter : completeTrain i x wide { vals := lanes.map (fun l => (l, val l)), flags, load, jump, trap } tr.pc tr0 = after := by
    rw [← hsame.pc]
    cases jump with
    | none => rfl
    | some f => exact completeTrain_jump i x wide { vals := lanes.map fun l => (l, val l), flags, load, trap } f tr0.pc tr0
  simp only [complete, htr0, hafter]
  rfl

end Sys2Proof.Machine
end

section
/-! PROOFS. Privileged instructions trap in user trains, at the fetch and at the issue (O45). -/

namespace Sys2Proof.Machine

/-! ### Privileged instructions (R69, R376) -/

theorem isPrivileged_iff {i : Instr} {opc m : Nat} {x : Args} (hf : i.form = some (opc, m, x)) :
    isPrivileged i = true ↔ opc ∈ [0xF9, 0xFB, 0xFC, 0xFD, 0xFE, 0xFF] := by
  simp [isPrivileged, hf, privilegedOpc, or_assoc]

/-- The instructions that the privileged opcodes are read as. -/
theorem build_privileged {opc m : Nat} {x : Args} {i : Instr} (hopc : opc ∈ [0xF9, 0xFB, 0xFC, 0xFD, 0xFE, 0xFF])
    (h : build opc m x = some (some i)) : i = .eret x ∨ i = .mtsr x ∨ i = .svcret x ∨ i = .texitFault x ∨ i = .texitTerminate x ∨
      i = .tlbiPage x ∨ i = .tlbiAsid x ∨ i = .tlbiPart x ∨ i = .trapq x ∨ i = .ctxs x ∨ i = .ctxl x := by
  have hb0 : ∀ {j}, b0 m j = some i → i = j := fun {j} h => by
    obtain ⟨-, h⟩ := Option.ite_none_right_eq_some.1 h
    exact (Option.some.inj h).symm
  simp only [List.mem_cons, List.not_mem_nil, or_false] at hopc
  rcases hopc with rfl | rfl | rfl | rfl | rfl | rfl <;> unfold build at h <;> injection h with h
  · simp [hb0 h]
  · have hm := hb0 h
    unfold bMtsr at hm
    split at hm
    · simp [hm]
    · split at hm
      · simp [hm]
      · split at hm <;> simp [hm]
  · split at h <;> cases h <;> simp
  · simp [hb0 h]
  · simp [hb0 h]
  · simp [hb0 h]

/-- A privileged instruction runs through the issue. -/
theorem exec_of_privileged {i : Instr} {opc m : Nat} {x : Args} (hf : i.form = some (opc, m, x)) (hp : isPrivileged i = true) :
    ∃ wide body, ∀ s, exec i s = issue i x wide s body := by
  cases i
  case eret | mtsr | svcret | texitFault | texitTerminate | tlbiPage | tlbiAsid | tlbiPart | trapq | ctxs | ctxl =>
    cases hf
    exact ⟨_, _, fun _ => rfl⟩
  all_goals nomatch hp

/-- The fetch of a word that decodes goes by the privilege check alone (R48). -/
theorem fetchChecks_of_decode {priv : Bool} {pc : Dword} {bs rest : List Byte} {n : Nat} {i : Instr} (hd : decode bs = .ok (i, rest))
    (hn : lenBytes ((bs.headD 0).toNat % 4) = some n) (hpc : pc.toNat % 32 + n ≤ 32) :
    fetchChecks priv pc bs = if isPrivileged i && !priv then .error 5 else .ok i := by
  simp only [fetchChecks, hn, hd, if_neg (Nat.not_lt.2 hpc)]

/-- A register that users do not read is refused to a user train before it is asked what the register is held per (R400). -/
theorem regCheck_user {c : Ctx} {n : Nat} {r : RegInfo} (hr : regInfo n = some r) (hread : r.read ≠ .user) (hu : c.tr.priv = false) :
    regCheck c n (·.read) = .error { kind := 3, cause := 3 } := by
  have hno : r.read.permits c.tr.priv = false := by
    rw [hu]
    cases h : r.read with
    | user => exact absurd h hread
    | none => rfl
    | priv => rfl
  simp only [regCheck, hr, hno, Bool.not_false, if_true]
  rfl

/-- `mfsr` of a register that its checks refuse raises their trap. -/
theorem exec_mfsr_of_refused {x : Args} {s : State} {k : Nat} {c : Ctx} {s' : State} {r : TrapRec} (h : Ready (.mfsr x) x s k c s')
    (hon : c.on = true) (hr : regCheck c (sysNumber c) (·.read) = .error r) :
    exec (.mfsr x) s = .next (raiseAt s' k c.head { r with pc := c.tr.pc }) := by
  rw [exec_of_res h rfl (r := .trap s' r) (by simp only [hon, hr, Bool.not_true, Bool.false_eq_true, if_false]), settle, h.seen.slot]

/-- Settles O45: privileged instructions are those of the six opcodes (`isPrivileged_iff`, `build_privileged`), all of them run through the
issue (`exec_of_privileged`), whose first check they fail, as the fetch's (`fetchChecks_of_decode`). -/
theorem privilegedInstructionsTrapInUserTrains : Obligations.PrivilegedInstructionsTrapInUserTrains := by
  unfold Obligations.PrivilegedInstructionsTrapInUserTrains
  refine ⟨fun i opc m x hf => isPrivileged_iff hf, fun x => ⟨rfl, rfl, fun opc hopc i m h => build_privileged hopc h⟩, ?_,
    fun c n r hr hread hu => regCheck_user hr hread hu, fun x s k c s' r h hon hr => exec_mfsr_of_refused h hon hr⟩
  intro i opc m x hf hp
  refine ⟨fun s k tr hcur htr hu => ?_, fun pc bs rest n hd hn hpc => ?_⟩
  · obtain ⟨wide, body, he⟩ := exec_of_privileged hf hp
    rw [he, issue_of_check hcur htr (issueCheck_of_privileged hp hu)]
    rfl
  · simp [fetchChecks_of_decode hd hn hpc, hp]

end Sys2Proof.Machine
end

section
/-! PROOFS. Waiting trains go on when their condition holds, and a stall that lasts raises its trap (O15). -/

namespace Sys2Proof.Machine

/-! ### Waiting trains go on (R54, R161, R168, R234, R294, R298, R339) -/

section
variable {s : State} {k : Nat} {tr : Train} (htr : train? s k = some tr)
include htr

/-- A release step that lets its train go on leaves it unblocked. -/
theorem released {i : Instr} (h : exec i s = .next (unblock s k)) : ∃ t, exec i s = .next t ∧ Unblocked k s t :=
  ⟨_, h, unblock_unblocked htr⟩

theorem exec_faultEntryFreed {va : Dword} {kind : Nat} (hb : tr.block = some (.faultNoEntry va kind))
    (hfree : (Tab.firstFree s.faults 1024 (clusterOfKey k * 1024)).isSome = true) :
    exec (.faultEntryFreed k) s = .next (unblock s k) := by
  obtain ⟨⟩ := tr
  cases hb
  simp [exec, execFaultEntryFreed, unitStep, htr, hfree]

theorem exec_tileGateRelease {i : Nat} {st : List Nat} {free : Bool} {g : Wg} (hb : tr.block = some (.tile i st free))
    (hg : wgOf s tr = some g) (hst : (tileOf g i).state ∈ st) (hfree : free = true → referenced g i = false) :
    exec (.tileGateRelease k) s = .next (unblock s k) := by
  have hadmit : tileAdmits g i st free = true := by
    cases free with
    | false => simp [tileAdmits, hst]
    | true => simp [tileAdmits, hst, hfree rfl]
  simp [exec, execTileGateRelease, unitStep, htr, hb, hg, hadmit]

theorem exec_queueOpIssue {qs : List (Nat × Nat × Nat)} {pc : Dword} {w : Nat} {g : Wg} (hb : tr.block = some (.queue qs pc))
    (hw : tr.wg = some w) (hg : wg? s w = some g)
    (hq : ∀ n ∈ qs, n.2.1 ≤ (qdesc g n.1).count ∧ (qdesc g n.1).count + n.2.2 ≤ (qdesc g n.1).cap + n.2.1 ∧
      ∀ r ∈ (qdesc g n.1).reserved, n.2.1 ≤ r) : exec (.queueOpIssue k) s = .next (unblock s k) := by
  have hall : qs.all (queueAllows g) = true := List.all_eq_true.2 fun n hn => by
    obtain ⟨hcount, hroom, hres⟩ := hq n hn
    simp [queueAllows, hcount, hroom]
    exact fun r hr => hres r hr
  obtain ⟨⟩ := tr
  cases hb
  cases hw
  simp only [exec, execQueueOpIssue, unitStep, htr, hg, hall, if_true]

theorem exec_feedIntakeRoom {l n : Nat} (hb : tr.block = some (.feed l n))
    (hroom : ∀ ln, Tab.get? s.lines l = some ln → ln.records + n ≤ intakeSize) :
    exec (.feedIntakeRoom k) s = .next (unblock s k) := by
  have hall : ((Tab.get? s.lines l).all fun ln => ln.records + n ≤ intakeSize) = true := by
    cases hl : Tab.get? s.lines l with
    | none => rfl
    | some ln => simpa using hroom ln hl
  obtain ⟨⟩ := tr
  cases hb
  simp only [exec, execFeedIntakeRoom, unitStep, htr, hall, if_true]

theorem exec_wemitRetry {n : Nat} (hb : tr.block = some (.wemit n)) : exec (.wemitRetry k) s = .next (unblock s k) := by
  simp only [exec, execWemitRetry, unitStep, htr, hb]

theorem exec_stagingRoom (hb : tr.block = some .staging) (hroom : 16 * (stagedCells s tr.part + 1) ≤ (partAt s tr.part).stagesz.toNat) :
    exec (.stagingRoom k) s = .next (unblock s k) := by
  simp [exec, execStagingRoom, unitStep, htr, hb, stagingFits, hroom]

end

/-! ### Stalls (R136, R236) -/

theorem mem_stalledAalloc {s : State} {w bound k : Nat} {pc : Dword} : (k, pc) ∈ stalledAalloc s w bound ↔
    k ∈ trainsOfWg s w ∧ ∃ tr banks entry since, train? s k = some tr ∧ tr.block = some (.aalloc banks entry since) ∧
      tr.pc = pc ∧ bound < s.clk - since ∧ banksFree s w banks entry = false := by
  unfold stalledAalloc
  rw [List.mem_filterMap]
  constructor
  · rintro ⟨j, hj, h⟩
    split at h
    · next need id since pc' htr =>
      obtain ⟨hlate, h⟩ := Option.ite_none_right_eq_some.1 h
      cases h
      rw [Bool.and_eq_true, decide_eq_true_eq, Bool.not_eq_true'] at hlate
      exact ⟨hj, _, _, _, _, htr, rfl, rfl, hlate⟩
    · cases h
  · rintro ⟨hk, ⟨⟩, banks, entry, since, htr, hb, hpc, hlate, hbanks⟩
    cases hb
    cases hpc
    exact ⟨k, hk, by simp [htr, hlate, hbanks]⟩

theorem exec_queueStall {s : State} {w : Nat} {g : Wg} (hg : wg? s w = some g) (hbound : g.qstall ≠ 0) :
    exec (.queueStall w) s = .next
      ((((if g.qstall < s.clk - g.qSince then stalled s w else []).filter fun e => !(stalledAalloc s w g.qstall).contains e).foldl
        (fun s e => touchStall (raiseBlocked s e.1 6 e.2 true true) e.1)
        ((stalledAalloc s w g.qstall).foldl (fun s e => touchStall (raiseBlocked s e.1 6 e.2 true false) e.1) s))) := by
  simp only [exec, execQueueStall, unitStep, hg, hbound, if_false]

/-- Requests are served in order of issue: none that waits was issued before (R136). -/
theorem earlierRequests_isEmpty {s : State} {core order : Nat} : (earlierRequests s core order).isEmpty = true ↔
    ∀ j t banks id since, (j, t) ∈ s.trains → t.core = core → t.block = some (.aalloc banks id since) → order ≤ id := by
  simp only [earlierRequests, List.isEmpty_iff, List.map_eq_nil_iff, List.filter_eq_nil_iff, Bool.and_eq_true, decide_eq_true_eq, not_and]
  constructor
  · intro h j t banks id since hmem hcore hb
    simpa [hb] using h (j, t) hmem hcore
  · rintro h ⟨j, t⟩ hmem hcore hb
    split at hb
    · next banks id since hblock =>
      have := h j t banks id since hmem hcore hblock
      simp at hb
      omega
    · cases hb

theorem banksFree_iff {s : State} {w need order : Nat} {g : Wg} (hg : wg? s w = some g) : banksFree s w need order = true ↔
    need ≤ g.resv + unreservedBanks s g.core ∧ ∀ j t banks id since, (j, t) ∈ s.trains →
      t.core = g.core → t.block = some (.aalloc banks id since) → order ≤ id := by
  rw [← earlierRequests_isEmpty]
  simp [banksFree, banksMeet, hg, and_comm]

/-- Settles O15: each release step unblocks its train once the condition of its wait holds (`exec_<step>`, `released`); a stall traps the
trains that `mem_stalledAalloc` names and the others that it holds (`exec_queueStall`). -/
theorem waitingTrainsGoOnWhenTheirConditionHolds : Obligations.WaitingTrainsGoOnWhenTheirConditionHolds := by
  unfold Obligations.WaitingTrainsGoOnWhenTheirConditionHolds
  refine ⟨fun s k tr va kind htr hb hfree => released htr (exec_faultEntryFreed htr hb hfree),
    fun s k tr i st free g htr hb hg hst hfree => released htr (exec_tileGateRelease htr hb hg hst hfree),
    fun s k tr qs pc w g htr hb hw hg hq => released htr (exec_queueOpIssue htr hb hw hg hq),
    fun s k tr l n htr hb hroom => released htr (exec_feedIntakeRoom htr hb hroom),
    fun s k tr n htr hb => released htr (exec_wemitRetry htr hb),
    fun s k tr htr hb hroom => released htr (exec_stagingRoom htr hb hroom),
    fun s w g hg hbound => ?_, fun s w need order g hg => banksFree_iff hg⟩
  exact ⟨fun k pc => mem_stalledAalloc, exec_queueStall hg hbound⟩

end Sys2Proof.Machine
end

section
/-! PROOFS. The conversions complete with their result (O7). -/

namespace Sys2Proof.Machine

/-! ### Conversions (R87 to R96) -/

/-- Settles O7: each conversion is issued with the value of R87 to R96 as a pure function of its operands, so `yields_of_pure` applies; the
exponents of `qnt` and `dqt` are signed bytes (`scaleExp`). -/
theorem conversionsYieldTheirResult : Obligations.ConversionsYieldTheirResult := by
  unfold Obligations.ConversionsYieldTheirResult
  refine ⟨fun x dst from_ => ?_, fun x t r => ?_, fun x t r => ?_, fun x t => ?_, fun x t r p => ?_, fun x t n => ?_,
    fun x t r => ?_⟩
  all_goals exact yields_of_pure (fun _ => rfl) rfl (by decide)

end Sys2Proof.Machine
end

section
/-! PROOFS. A row pass accumulates into its row and no other (O30). -/

namespace Sys2Proof.Machine

/-! ### Elements of accumulator memory (R130) -/

theorem accKey_inj {b b' i i' j j' : Nat} (hi : i < 16) (hi' : i' < 16) (hj : j < 64) (hj' : j' < 64) :
    accKey b' i' j' = accKey b i j ↔ b' = b ∧ i' = i ∧ j' = j := by
  unfold accKey
  omega

theorem accKey_column_inj {b i j j' : Nat} : accKey b i j' = accKey b i j ↔ j' = j := by
  unfold accKey
  omega

/-! ### Array passes (R80, R133) -/

section
variable (bank i : Nat) (row : List Num) (sc : Int)

/-- What one array pass with a column leaves of the element that held `v`. -/
def passElem (c : List Num × Int) (v : F48) : F48 := (f48Pass v (products row c.1 (sc + c.2))).1

/-- The passes of columns `j` on pass the first of them into its element, then the others. -/
theorem passCols_cons (j : Nat) (c : List Num × Int) (cols : List (List Num × Int)) (acc : Tab F48) (fl : FlagSet) :
    passCols bank i row sc j (c :: cols) (acc, fl) = passCols bank i row sc (j + 1) cols
      (Tab.write 0 acc (accKey bank i j) (passElem row sc c (Tab.read 0 acc (accKey bank i j))),
        fl ||| (f48Pass (Tab.read 0 acc (accKey bank i j)) (products row c.1 (sc + c.2))).2) := rfl

/-- An element that belongs to no column of the row keeps its value. -/
theorem read_passCols_of_ne {key : Nat} (cols : List (List Num × Int)) (j : Nat) (acc : Tab F48) (fl : FlagSet)
    (hne : ∀ n, j ≤ n → n < j + cols.length → key ≠ accKey bank i n) :
    Tab.read 0 (passCols bank i row sc j cols (acc, fl)).1 key = Tab.read 0 acc key := by
  induction cols generalizing j acc fl with
  | nil => rfl
  | cons c cols ih =>
    rw [List.length_cons] at hne
    rw [passCols_cons, ih _ _ _ fun n hj hn => hne n (by omega) (by omega),
      Tab.read_write_ne 0 acc _ (hne j (by omega) (by omega))]

/-- The element of a column takes the one array pass with that column: no other pass of the row reaches it. -/
theorem read_passCols (cols : List (List Num × Int)) (j n : Nat) (acc : Tab F48) (fl : FlagSet) (hn : n < cols.length) :
    Tab.read 0 (passCols bank i row sc j cols (acc, fl)).1 (accKey bank i (j + n)) =
      passElem row sc (cols.getD n ([], 0)) (Tab.read 0 acc (accKey bank i (j + n))) := by
  induction cols generalizing j n acc fl with
  | nil => cases hn
  | cons c cols ih =>
    rw [passCols_cons]
    cases n with
    | zero =>
      have hlater : ∀ m, j + 1 ≤ m → m < j + 1 + cols.length → accKey bank i j ≠ accKey bank i m :=
        fun m hm _ => accKey_column_inj.not.2 (by omega)
      exact (read_passCols_of_ne bank i row sc cols _ _ _ hlater).trans (Tab.read_write_self ..)
    | succ n =>
      have hother : accKey bank i (j + 1 + n) ≠ accKey bank i j := accKey_column_inj.not.2 (by omega)
      rw [show j + (n + 1) = j + 1 + n by omega, ih (j + 1) n _ _ (Nat.lt_of_succ_lt_succ hn), Tab.read_write_ne 0 acc _ hother,
        List.getD_cons_succ]

end

/-! ### Row passes (R133, R140) -/

/-- A pass of one row into a bank without a check bank leaves in the core's accumulator memory what the passes of its columns do. -/
theorem coreAt_passRows_acc (s : State) (core bank i : Nat) (row : List Num) (sc : Int) (cols : List (List Num × Int)) :
    (coreAt (passRows s core [(⟨bank, none⟩, i, row, sc)] cols).1 core).acc =
      (passCols bank i row sc 0 cols ((coreAt s core).acc, 0)).1 := by
  simp only [passRows, coreAt_modCore, if_true]
  rfl

theorem passRows_sameButCores (s : State) (core : Nat) (rows : List (AccBind × Nat × List Num × Int)) (cols : List (List Num × Int)) :
    SameButCores s (passRows s core rows cols).1 := rfl

/-- Settles O30: the element of column `j` takes the pass with that column (`read_passCols`), and an element of another row or bank, whose
key is no column's of the row (`accKey_inj`), none (`read_passCols_of_ne`). -/
theorem aRowPassAccumulatesIntoItsRow : Obligations.ARowPassAccumulatesIntoItsRow := by
  unfold Obligations.ARowPassAccumulatesIntoItsRow
  intro s core bank i row sc cols hi hcols
  refine ⟨fun b' i' j hi' hj => ?_, passRows_sameButCores ..⟩
  rw [coreAt_passRows_acc]
  split
  · next hrow =>
    obtain ⟨rfl, rfl⟩ := hrow
    simpa only [Nat.zero_add, passElem] using read_passCols b' i' row sc cols 0 j (coreAt s core).acc 0 (hcols ▸ hj)
  · next hother =>
    refine read_passCols_of_ne bank i row sc cols 0 _ 0 fun n _ hn hkey => hother ?_
    obtain ⟨hbank, hi, -⟩ := (accKey_inj hi hi' (by omega) hj).1 hkey
    exact ⟨hbank, hi⟩

end Sys2Proof.Machine
end

section
/-! PROOFS. The integer and floating-point instructions that complete at once (O1, O2, O6). -/

namespace Sys2Proof.Machine

/-! ### Instructions that are pure functions of their operands (R104 to R118) -/

/-- Settles O1: each instruction is issued with the exact integer of its Op column as a pure function of its operands (`arith`), so
`yields_of_pure` applies. -/
theorem integerArithmeticYieldsItsExactResult : Obligations.IntegerArithmeticYieldsItsExactResult := by
  unfold Obligations.IntegerArithmeticYieldsItsExactResult
  refine ⟨fun x t sat => ?_, fun x t sat => ?_, fun x t sat => ?_, fun x t sat => ?_, fun x t => ?_, fun x t => ?_, fun x t => ?_,
    fun x t => ?_, fun x t sat => ?_, fun x t k => ?_⟩
  all_goals exact yields_of_pure (fun _ => rfl) rfl (by decide)

/-- Settles O2: each instruction is issued with its bits as a pure function of its operands (`bitwise`), its shift and rotation counts taken
from the low byte (`countOf`), so `yields_of_pure` applies. -/
theorem bitInstructionsYieldTheirBits : Obligations.BitInstructionsYieldTheirBits := by
  unfold Obligations.BitInstructionsYieldTheirBits
  refine ⟨fun x t => ?_, fun x t => ?_, fun x t => ?_, fun x t => ?_, fun x t => ?_, fun x t => ?_, fun x t => ?_, fun x t => ?_,
    fun x t => ?_, fun x t => ?_, fun x t => ?_, fun x t => ?_, fun x t => ?_, fun x => ?_, fun x t => ?_, fun x t cond => ?_,
    fun x t => ?_, fun x t => ?_, fun x t => ?_⟩
  all_goals exact yields_of_pure (fun _ => rfl) rfl (by decide)

/-- Settles O6: each instruction is issued with its rounded, selected or compared operands as a pure function of them, so
`yields_of_pure` applies. -/
theorem floatInstructionsYieldTheirRoundedResult : Obligations.FloatInstructionsYieldTheirRoundedResult := by
  unfold Obligations.FloatInstructionsYieldTheirRoundedResult
  refine ⟨fun x t r m => ?_, fun x t r m => ?_, fun x t r m => ?_, fun x t r m => ?_, fun x t r m => ?_, fun x t m => ?_,
    fun x t m => ?_, fun x t cnd => ?_, fun x t => ?_, fun x t => ?_⟩
  all_goals exact yields_of_pure (fun _ => rfl) rfl (by decide)

end Sys2Proof.Machine
end

section
/-! PROOFS. Cross-lane instructions complete with their result (O8). -/

namespace Sys2Proof.Machine

/-! ### Cross-lane instructions (R123 to R129) -/

/-- `Yields` of an instruction that sets no flag. -/
theorem yields_of_values {i : Instr} {x : Args} {wide : Bool} {val : Ctx → Nat → Dword} {opc m : Nat} (body : Ctx → State → Res)
    (he : ∀ s, exec i s = issue i x wide s body)
    (hb : ∀ c s, body c s = .done s { vals := c.lanes.map fun l => (l, val c l) })
    (hf : i.form = some (opc, m, x)) (ha : opc ≠ 0xC6) : Yields i x wide fun c l => (val c l, 0) :=
  yields_of_done body he (fun c s => by rw [hb, joinFlags_zeros]) hf ha

/-- What `Yields` says of a completion, for an instruction whose flags belong to no single thread. -/
theorem completes_of_done {i : Instr} {x : Args} {s : State} {k : Nat} {c : Ctx} {s' : State} {wide : Bool} {opc m : Nat}
    {body : Ctx → State → Res} {val : Nat → Dword} {fl : FlagSet} (h : Ready i x s k c s') (he : exec i s = issue i x wide s body)
    (hb : body c s' = .done s' { vals := c.lanes.map fun l => (l, val l), flags := fl })
    (hw : WellFormed i) (hf : i.form = some (opc, m, x)) (ha : opc ≠ 0xC6) :
    ∃ t, exec i s = .next t ∧ Completes i x wide c.lanes val fl c s' t ∧ MemoryAfter x c.lanes c.tr s t ∧ OtherTrains k s t := by
  obtain ⟨t, ht, hc⟩ := issue_completes hw hf ha h wide body val fl s' hb h.seen.train
  have hk := h.seen.slot
  refine ⟨t, he.trans ht, hc, (hc.memoryAfter (hk ▸ h.seen.train)).of_same h.seen.readByte, fun j hj => ?_⟩
  exact (hc.otherTrains j (hk ▸ hj)).trans (h.seen.trains j hj)

/-- Settles O8: the moves and votes answer a value for each participant and no flag (`yields_of_values`), the predicate instructions are pure
functions (`yields_of_pure`), and the tree of `red` and `scan` sets its flags once for all participants (`completes_of_done`). -/
theorem crossLaneInstructionsYieldTheirResult : Obligations.CrossLaneInstructionsYieldTheirResult := by
  unfold Obligations.CrossLaneInstructionsYieldTheirResult
  refine ⟨fun x wide m => ?shfl, fun x wide => ?bcst, fun x m => ?vote, fun x => ?first, fun x => ?kand, fun x => ?kor, fun x => ?kxor,
    fun x => ?knot, fun x => ?kmov, fun x t op s k c s' hw h => ?red, fun x t op excl s k c s' hw h => ?scan⟩
  case shfl | bcst | vote | first => exact yields_of_values _ (fun _ => rfl) (fun _ _ => rfl) rfl (by decide)
  case kand | kor | kxor | knot | kmov => exact yields_of_pure (fun _ => rfl) rfl (by decide)
  case red => exact completes_of_done h rfl rfl hw rfl (by decide)
  case scan =>
    exact completes_of_done h rfl (by simp only [List.map_map, Function.comp_def]) hw rfl (by decide)

end Sys2Proof.Machine
end

section
/-! PROOFS. Exact integers wrap or saturate, and division truncates (O4, O5). -/

namespace Sys2Proof.Machine

/-! ### Wrapping and sign extension (R10) -/

theorem wrap_modEq (x : Int) (n : Nat) : (wrap x n : Int) ≡ x [ZMOD (2 ^ n : Nat)] := by
  have hpos : (0 : Int) < (2 ^ n : Nat) := by exact_mod_cast Nat.two_pow_pos n
  rw [wrap, Int.toNat_of_nonneg (Int.emod_nonneg x hpos.ne')]
  exact Int.mod_modEq ..

theorem signExt_modEq (x n : Nat) : signExt x n ≡ x [ZMOD (2 ^ n : Nat)] := by
  have hmod : ((x % 2 ^ n : Nat) : Int) ≡ x [ZMOD (2 ^ n : Nat)] := Int.natCast_modEq_iff.2 (Nat.mod_modEq ..)
  unfold signExt
  dsimp only
  split
  · next h => subst h; exact Int.modEq_one
  · split
    · exact hmod
    · exact Int.sub_modulus_modEq_iff.2 hmod

theorem signExt_range {n : Nat} (hn : 0 < n) (x : Nat) :
    -(2 ^ (n - 1) : Nat) ≤ signExt x n ∧ signExt x n < (2 ^ (n - 1) : Nat) := by
  have hlt : x % 2 ^ n < 2 ^ n := Nat.mod_lt _ (Nat.two_pow_pos n)
  have htwo : 2 * 2 ^ (n - 1) = 2 ^ n := mul_pow_sub_one hn.ne' 2
  unfold signExt
  dsimp only
  rw [if_neg hn.ne']
  split <;> omega

/-! ### Integer results (R104) -/

theorem width_of_wide {t : Ty} (h : t.wide = true) : t.width = 64 := by
  cases t with
  | s64 | n64 => rfl
  | _ => cases h

theorem width_le_of_narrow {t : Ty} (h : t.wide = false) : t.width ≤ 32 := by
  cases t with
  | s64 | n64 => cases h
  | _ => decide

theorem width_pos (t : Ty) : 0 < t.width := by cases t <;> decide

/-- A register keeps of a dword what is narrower. -/
theorem toNat_ofNat_modEq {w : Nat} (hw : w ≤ 64) (n : Nat) : ((BitVec.ofNat 64 n).toNat : Int) ≡ n [ZMOD (2 ^ w : Nat)] := by
  rw [BitVec.toNat_ofNat]
  exact (Int.natCast_modEq_iff.2 (Nat.mod_modEq ..)).of_dvd (by exact_mod_cast pow_dvd_pow 2 hw)

/-- A result of a type stands in its register modulo the width, whatever the register keeps above it (R71). -/
theorem placed_modEq (t : Ty) (n : Nat) : ((placed t n).toNat : Int) ≡ n [ZMOD (2 ^ t.width : Nat)] := by
  unfold placed
  cases hwide : t.wide with
  | true => exact toNat_ofNat_modEq (width_of_wide hwide).le n
  | false =>
    have hw := width_le_of_narrow hwide
    cases t.signed with
    | true =>
      have hword : (wrap (signExt n t.width) 32 : Int) ≡ signExt n t.width [ZMOD (2 ^ t.width : Nat)] :=
        (wrap_modEq _ 32).of_dvd (by exact_mod_cast pow_dvd_pow 2 hw)
      exact (toNat_ofNat_modEq (by omega) _).trans (hword.trans (signExt_modEq n _))
    | false => exact (toNat_ofNat_modEq (by omega) _).trans (Int.natCast_modEq_iff.2 (Nat.mod_modEq ..))

/-- The number that a result of a type stands for, as `numOf` reads it from an operand. -/
def typedValue (t : Ty) (d : Dword) : Int := if t.signed then signExt d.toNat t.width else (d.toNat % 2 ^ t.width : Nat)

theorem numOf_eq_typedValue (c : Ctx) (f : ImmField) (t : Ty) (l : Nat) : numOf c f t l = typedValue t (src c f t l) := rfl

theorem typedValue_modEq (t : Ty) (d : Dword) : typedValue t d ≡ d.toNat [ZMOD (2 ^ t.width : Nat)] := by
  unfold typedValue
  split
  · exact signExt_modEq _ _
  · exact Int.natCast_modEq_iff.2 (Nat.mod_modEq ..)

theorem minOf_signed {t : Ty} (h : t.signed = true) : minOf t = -(2 ^ (t.width - 1) : Nat) := if_pos h
theorem maxOf_signed {t : Ty} (h : t.signed = true) : maxOf t = (2 ^ (t.width - 1) : Nat) - 1 := if_pos h
theorem minOf_unsigned {t : Ty} (h : t.signed = false) : minOf t = 0 := by simp [minOf, h]
theorem maxOf_unsigned {t : Ty} (h : t.signed = false) : maxOf t = (2 ^ t.width : Nat) - 1 := by simp [maxOf, h]

theorem typedValue_range (t : Ty) (d : Dword) : minOf t ≤ typedValue t d ∧ typedValue t d ≤ maxOf t := by
  unfold typedValue
  cases h : t.signed with
  | true =>
    have := signExt_range (width_pos t) d.toNat
    rw [minOf_signed h, maxOf_signed h, if_pos rfl]
    omega
  | false =>
    have := Nat.mod_lt d.toNat (Nat.two_pow_pos t.width)
    rw [minOf_unsigned h, maxOf_unsigned h, if_neg Bool.false_ne_true]
    omega

/-- A type has as many numbers as encodings. -/
theorem maxOf_sub_minOf (t : Ty) : maxOf t - minOf t = (2 ^ t.width : Nat) - 1 := by
  cases h : t.signed with
  | true =>
    have : 2 * 2 ^ (t.width - 1) = 2 ^ t.width := mul_pow_sub_one (width_pos t).ne' 2
    rw [minOf_signed h, maxOf_signed h]
    omega
  | false => rw [minOf_unsigned h, maxOf_unsigned h, sub_zero]

theorem minOf_le_maxOf (t : Ty) : minOf t ≤ maxOf t := by
  have := maxOf_sub_minOf t
  have := Nat.two_pow_pos t.width
  omega

/-- A number is the only one of its type with its encoding. -/
theorem eq_of_modEq_of_range {t : Ty} {x y : Int} (h : x ≡ y [ZMOD (2 ^ t.width : Nat)]) (hx : minOf t ≤ x ∧ x ≤ maxOf t)
    (hy : minOf t ≤ y ∧ y ≤ maxOf t) : x = y := by
  have hn := maxOf_sub_minOf t
  have hdvd : ((2 ^ t.width : Nat) : Int) ∣ x - y := Int.modEq_iff_dvd.1 h.symm
  exact Int.eq_of_sub_eq_zero (Int.eq_zero_of_abs_lt_dvd hdvd (abs_lt.2 ⟨by omega, by omega⟩))

theorem typedValue_placed_wrap_modEq (t : Ty) (x : Int) : typedValue t (placed t (wrap x t.width)) ≡ x [ZMOD (2 ^ t.width : Nat)] :=
  (typedValue_modEq t _).trans ((placed_modEq t _).trans (wrap_modEq x _))

/-- A number of its type comes back from its encoding. -/
theorem typedValue_placed_wrap {t : Ty} {x : Int} (hx : minOf t ≤ x ∧ x ≤ maxOf t) :
    typedValue t (placed t (wrap x t.width)) = x :=
  eq_of_modEq_of_range (typedValue_placed_wrap_modEq t x) (typedValue_range t _) hx

theorem intResult_of_inRange {t : Ty} {x : Int} (hx : minOf t ≤ x ∧ x ≤ maxOf t) (sat : Bool) :
    intResult t sat x = (placed t (wrap x t.width), 0) :=
  if_neg (by simp [hx])

theorem intResult_wrapped (t : Ty) (x : Int) : intResult t false x = (placed t (wrap x t.width), 0) := rfl

theorem intResult_of_lt {t : Ty} {x : Int} (hx : x < minOf t) :
    intResult t true x = (placed t (wrap (minOf t) t.width), Fl.iov) := by
  simp [intResult, sat, hx]

theorem intResult_of_gt {t : Ty} {x : Int} (hx : maxOf t < x) :
    intResult t true x = (placed t (wrap (maxOf t) t.width), Fl.iov) := by
  have hmin : ¬x < minOf t := not_lt.2 ((minOf_le_maxOf t).trans hx.le)
  simp [intResult, sat, hx, hmin]

/-- Settles O4: an encoding stands for one number of the type (`eq_of_modEq_of_range`), so a number in range comes back from its own
(`typedValue_placed_wrap`), and any other one modulo the width. -/
theorem exactIntegersWrapOrSaturate : Obligations.ExactIntegersWrapOrSaturate := by
  unfold Obligations.ExactIntegersWrapOrSaturate
  intro t sat x _
  have hle := minOf_le_maxOf t
  refine ⟨fun hx => ?_, fun hsat hx => ?_, fun hsat hx => ?_, fun hsat => ?_⟩
  · rw [intResult_of_inRange hx]
    exact ⟨typedValue_placed_wrap hx, rfl⟩
  · rw [hsat, intResult_of_lt hx]
    exact ⟨typedValue_placed_wrap ⟨le_rfl, hle⟩, rfl⟩
  · rw [hsat, intResult_of_gt hx]
    exact ⟨typedValue_placed_wrap ⟨hle, le_rfl⟩, rfl⟩
  · rw [hsat, intResult_wrapped]
    have hmod := typedValue_placed_wrap_modEq t x
    exact ⟨rfl, Int.emod_eq_emod_iff_emod_sub_eq_zero.1 hmod, typedValue_range t _⟩

/-! ### Division (R105) -/

/-- The remainder of a division that truncates is zero or has the sign of the dividend. -/
theorem tmod_zero_or_sign (a b : Int) : a.tmod b = 0 ∨ (a.tmod b < 0 ↔ a < 0) := by
  rcases lt_or_ge a 0 with ha | ha
  · have := Int.tmod_nonneg b (Int.neg_nonneg.2 ha.le)
    rw [Int.neg_tmod] at this
    omega
  · have := Int.tmod_nonneg b ha
    omega

theorem natAbs_tmod_lt (a : Int) {b : Int} (hb : b ≠ 0) : (a.tmod b).natAbs < b.natAbs := by
  rw [Int.natAbs_tmod]
  exact Nat.mod_lt _ (Int.natAbs_pos.2 hb)

/-- A quotient reaches the magnitude of the dividend only where the divisor is 1 or −1. -/
theorem tdiv_natAbs_lt {a b : Int} (ha : a ≠ 0) (hb : 1 < b.natAbs) : (a.tdiv b).natAbs < a.natAbs := by
  rw [Int.natAbs_tdiv]
  exact Nat.div_lt_self (Int.natAbs_pos.2 ha) hb

/-- The quotient of two numbers of a type is one of the type, but for the minimum by −1. -/
theorem tdiv_range {t : Ty} {a b : Int} (ha : minOf t ≤ a ∧ a ≤ maxOf t) (hb : minOf t ≤ b) (hb0 : b ≠ 0)
    (hcorner : ¬(t.signed = true ∧ a = minOf t ∧ b = -1)) : minOf t ≤ a.tdiv b ∧ a.tdiv b ≤ maxOf t := by
  cases h : t.signed with
  | true =>
    rcases eq_or_ne a 0 with rfl | ha0
    · rwa [Int.zero_tdiv]
    rcases Nat.lt_or_ge 1 b.natAbs with hb1 | hb1
    · have := tdiv_natAbs_lt ha0 hb1
      rw [minOf_signed h, maxOf_signed h] at *
      omega
    · obtain rfl | rfl : b = 1 ∨ b = -1 := by omega
      · rwa [Int.tdiv_one]
      · have hne : a ≠ minOf t := fun hmin => hcorner ⟨h, hmin, rfl⟩
        rw [Int.tdiv_neg, Int.tdiv_one]
        rw [minOf_signed h, maxOf_signed h] at *
        omega
  | false =>
    have hle : (a.tdiv b).natAbs ≤ a.natAbs := Int.natAbs_tdiv_le_natAbs ..
    rw [minOf_unsigned h, maxOf_unsigned h] at *
    have : 0 ≤ a.tdiv b := Int.tdiv_nonneg ha.1 hb
    omega

theorem divide_zero (t : Ty) (sat : Bool) (a : Int) : divide t sat a 0 = (if 0 ≤ a then maxOf t else minOf t, a, Fl.dz) := rfl

theorem divide_corner {t : Ty} (h : t.signed = true) (sat : Bool) :
    divide t sat (minOf t) (-1) = (if sat then maxOf t else minOf t, 0, Fl.iov) := by
  simp [divide, h]

theorem divide_exact {t : Ty} {a b : Int} (hb : b ≠ 0) (hcorner : ¬(t.signed = true ∧ a = minOf t ∧ b = -1)) (sat : Bool) :
    divide t sat a b = (a.tdiv b, a.tmod b, 0) := by
  rw [divide, if_neg hb, if_neg (by simpa [and_assoc] using hcorner)]

/-- Settles O5: both are issued as long operations (`pends_of_long`); `divide` has three cases, and only the minimum by −1 leaves the type
(`tdiv_range`). -/
theorem divisionTruncatesTowardZero : Obligations.DivisionTruncatesTowardZero := by
  unfold Obligations.DivisionTruncatesTowardZero
  refine ⟨fun x t sat => pends_of_long fun _ => rfl, fun x t => pends_of_long fun _ => rfl, ?_⟩
  intro t sat a b hmin hmax hbmin _ _
  refine ⟨fun hb => ?_, fun hb hcorner => ?_, fun hsigned ha hb => ?_⟩
  · rw [hb]
    exact divide_zero t sat a
  · rw [divide_exact hb hcorner]
    exact ⟨(Int.mul_tdiv_add_tmod a b).symm, natAbs_tmod_lt a hb, tmod_zero_or_sign a b, rfl,
      tdiv_range ⟨hmin, hmax⟩ hbmin hb hcorner⟩
  · rw [ha, hb]
    exact divide_corner hsigned sat

end Sys2Proof.Machine
end

section
/-! PROOFS. What the counting and bit-field formulas of the integer class mean (O3). -/

namespace Sys2Proof.Machine

/-! ### Counting (R107) -/

theorem clzBits_zero (w : Nat) : clzBits w 0 = w := rfl

/-- Where a number fits the width, its width less its leading zeros is its length in bits. -/
theorem sub_clzBits {w a : Nat} (ha : a ≠ 0) (hw : a < 2 ^ w) : w - clzBits w a = Nat.log2 a + 1 := by
  have : Nat.log2 a < w := (Nat.log2_lt ha).2 hw
  rw [clzBits, if_neg ha]
  omega

theorem clzBits_le (w a : Nat) : clzBits w a ≤ w := by
  unfold clzBits
  split <;> omega

/-- The count of trailing zeros passes over zeros and stops at a one. -/
theorem ctzFrom_spec {a : Nat} : ∀ {fuel n : Nat}, a % 2 ^ n = 0 → 0 < a → a < 2 ^ (n + fuel) →
    ctzFrom a fuel n < n + fuel ∧ a % 2 ^ ctzFrom a fuel n = 0 ∧ a / 2 ^ ctzFrom a fuel n % 2 = 1
  | 0, n, hn, ha, hlt => absurd (hn.symm.trans (Nat.mod_eq_of_lt hlt)) ha.ne
  | fuel + 1, n, hn, ha, hlt => by
    unfold ctzFrom
    split
    · next hbit => exact ⟨by omega, hn, hbit⟩
    · next hbit =>
      have hnext : a % 2 ^ (n + 1) = 0 := by
        rw [Nat.pow_succ, Nat.mod_mul, hn, Nat.mod_two_ne_one.1 hbit]
        rfl
      rw [← Nat.add_assoc, Nat.add_right_comm] at hlt ⊢
      exact ctzFrom_spec hnext ha hlt

theorem ctzFrom_zero : ∀ fuel n : Nat, ctzFrom 0 fuel n = n + fuel
  | 0, _ => rfl
  | fuel + 1, n => by
    rw [ctzFrom, if_neg (by simp), ctzFrom_zero fuel]
    omega

theorem ctzBits_zero (w : Nat) : ctzBits w 0 = w := (ctzFrom_zero w 0).trans (Nat.zero_add w)

theorem popBits_zero (a : Nat) : popBits 0 a = 0 := rfl

/-- The ones below bit `w` are those of the number cut there, and what is left is bit `w`. -/
theorem popBits_succ {w a : Nat} (ha : a < 2 ^ (w + 1)) : popBits (w + 1) a = popBits w (a % 2 ^ w) + a / 2 ^ w := by
  have hlow : ∀ i ∈ List.range w, decide (a / 2 ^ i % 2 = 1) = decide (a % 2 ^ w / 2 ^ i % 2 = 1) := fun i hi => by
    have hbit := Nat.testBit_mod_two_pow a w i
    simpa [Nat.testBit_eq_decide_div_mod_eq, List.mem_range.1 hi] using hbit.symm
  have htop : a / 2 ^ w < 2 := Nat.div_lt_of_lt_mul (by rwa [← Nat.pow_succ])
  unfold popBits
  rw [List.range_succ, List.filter_append, List.length_append, List.filter_congr hlow]
  congr 1
  obtain h | h : a / 2 ^ w = 0 ∨ a / 2 ^ w = 1 := Nat.le_one_iff_eq_zero_or_eq_one.1 (Nat.le_of_lt_succ htop) <;> simp [h]

/-! ### Bit fields (R108) -/

theorem fieldOf_pos (w ctl : Nat) : (fieldOf w ctl).1 = ctl % 256 := rfl

theorem fieldOf_len_of_le {w ctl : Nat} (h : w ≤ ctl % 256) : (fieldOf w ctl).2 = 0 := if_pos h

theorem fieldOf_len_of_lt {w ctl : Nat} (h : ctl % 256 < w) :
    (fieldOf w ctl).2 = Min.min (ctl / 256 % 256) (w - ctl % 256) := by
  simp only [fieldOf, ge_iff_le, not_le.2 h, if_false]
  split <;> omega

theorem bfxResult_of_empty {t : Ty} {a ctl : Nat} (h : (fieldOf t.width ctl).2 = 0) : bfxResult t a ctl = 0 := if_pos h

theorem bfxResult_unsigned {t : Ty} (h : t.signed = false) (a ctl : Nat) :
    bfxResult t a ctl = (bitsAt a (fieldOf t.width ctl).1 (fieldOf t.width ctl).2 : Nat) := by
  unfold bfxResult
  dsimp only
  split
  · next hn => rw [hn]; simp [bitsAt, Nat.mod_one]
  · rw [h]; rfl

theorem bfxResult_signed {t : Ty} {a ctl : Nat} (h : t.signed = true) (hn : 0 < (fieldOf t.width ctl).2) :
    bfxResult t a ctl = signExt (bitsAt a (fieldOf t.width ctl).1 (fieldOf t.width ctl).2) (fieldOf t.width ctl).2 := by
  simp only [bfxResult, hn.ne', h, if_true, if_false]

/-- A signed field is the number of its length whose bits the operand holds there. -/
theorem bfxResult_signed_spec {t : Ty} {a ctl : Nat} (h : t.signed = true) (hn : 0 < (fieldOf t.width ctl).2) :
    bfxResult t a ctl ≡ (bitsAt a (fieldOf t.width ctl).1 (fieldOf t.width ctl).2 : Nat) [ZMOD (2 ^ (fieldOf t.width ctl).2 : Nat)] ∧
      -(2 ^ ((fieldOf t.width ctl).2 - 1) : Nat) ≤ bfxResult t a ctl ∧
      bfxResult t a ctl < (2 ^ ((fieldOf t.width ctl).2 - 1) : Nat) := by
  rw [bfxResult_signed h hn]
  exact ⟨signExt_modEq .., signExt_range hn _⟩

/-- `bfi` keeps what lies above and below the field. -/
theorem bfiResult_eq (w a ctl u : Nat) : bfiResult w a ctl u =
    2 ^ (fieldOf w ctl).1 * (2 ^ (fieldOf w ctl).2 * (u / 2 ^ (fieldOf w ctl).1 / 2 ^ (fieldOf w ctl).2) + a % 2 ^ (fieldOf w ctl).2)
      + u % 2 ^ (fieldOf w ctl).1 := by
  unfold bfiResult
  generalize fieldOf w ctl = f
  obtain ⟨pos, n⟩ := f
  dsimp only [bitsAt]
  have hpos := Nat.div_add_mod u (2 ^ pos)
  have hn := Nat.div_add_mod (u / 2 ^ pos) (2 ^ n)
  split
  · next h => subst h; simpa [Nat.mod_one] using hpos.symm
  · rw [← hn, Nat.mul_add, Nat.mul_comm _ (_ % _)] at hpos
    rw [Nat.mul_add, Nat.mul_comm _ (a % _)]
    omega

theorem testBit_bfiResult (w a ctl u i : Nat) : (bfiResult w a ctl u).testBit i =
    if (fieldOf w ctl).1 ≤ i ∧ i < (fieldOf w ctl).1 + (fieldOf w ctl).2 then a.testBit (i - (fieldOf w ctl).1) else u.testBit i := by
  rw [bfiResult_eq]
  generalize fieldOf w ctl = f
  obtain ⟨pos, n⟩ := f
  dsimp only
  rw [Nat.testBit_two_pow_mul_add _ (Nat.mod_lt _ (Nat.two_pow_pos pos)), Nat.testBit_two_pow_mul_add _ (Nat.mod_lt _ (Nat.two_pow_pos n))]
  simp only [Nat.testBit_mod_two_pow, Nat.testBit_div_two_pow]
  rcases Nat.lt_or_ge i pos with hi | hi
  · simp [hi, not_le.2 hi]
  · rcases Nat.lt_or_ge i (pos + n) with hj | hj
    · simp [hi, hj, not_lt.2 hi, show i - pos < n by omega]
    · simp [not_lt.2 hi, not_lt.2 hj, show ¬ i - pos < n by omega, show i - pos - n + n + pos = i by omega]

/-- Settles O3: the counts by what their searches pass over (`sub_clzBits`, `ctzFrom_spec`, `popBits_succ`), the fields by the bits that they
hold (`bfxResult_signed_spec`, `testBit_bfiResult`). -/
theorem countingInstructionsCount : Obligations.CountingInstructionsCount := by
  unfold Obligations.CountingInstructionsCount
  refine ⟨fun w a hw => ⟨clzBits_le w a, ?_⟩, fun w a ha hw => ?_, fun w => ⟨ctzBits_zero w, clzBits_zero w⟩,
    fun w a ha => popBits_succ ha, popBits_zero,
    fun w ctl => ⟨fieldOf_pos w ctl, fieldOf_len_of_le, fieldOf_len_of_lt⟩,
    fun t a ctl => ⟨bfxResult_of_empty, fun h => bfxResult_unsigned h a ctl, fun h hn => ?_⟩, testBit_bfiResult⟩
  · rcases eq_or_ne a 0 with rfl | ha
    · exact ⟨Nat.two_pow_pos _, absurd rfl⟩
    · rw [sub_clzBits ha hw]
      have := Nat.log2_self_le ha
      exact ⟨Nat.lt_log2_self, fun _ => by omega⟩
  · simpa only [ctzBits, Nat.zero_add] using ctzFrom_spec (n := 0) (Nat.mod_one a) ha ((Nat.zero_add w).symm ▸ hw)
  · obtain ⟨hmod, hrange⟩ := bfxResult_signed_spec h hn
    exact ⟨Int.emod_eq_emod_iff_emod_sub_eq_zero.1 hmod, hrange⟩

end Sys2Proof.Machine
end

section
/-! PROOFS. Long operations pend, their approximations keep their bound, and their result completes them (O9). -/

namespace Sys2Proof.Machine

/-! ### Magnitudes of finite numbers (R70, R72) -/

/-- The magnitude of a finite number in units of `2 ^ q`, without what `sticky` adds. -/
def Ex.mag (e : Ex) (q : Int) : ℚ := e.mant * 2 ^ (e.exp - q)

/-- The number with its sign. -/
def Ex.val (e : Ex) (q : Int) : ℚ := if e.neg then -e.mag q else e.mag q

theorem Ex.mag_nonneg (e : Ex) (q : Int) : 0 ≤ e.mag q := by unfold Ex.mag; positivity

theorem Ex.abs_val (e : Ex) (q : Int) : |e.val q| = e.mag q := by
  unfold Ex.val
  split
  · rw [abs_neg, abs_of_nonneg (e.mag_nonneg q)]
  · exact abs_of_nonneg (e.mag_nonneg q)

theorem Ex.mag_rescale (e : Ex) (q p : Int) : e.mag q = e.mag p * 2 ^ (p - q) := by
  rw [Ex.mag, Ex.mag, mul_assoc, ← zpow_add₀ two_ne_zero, sub_add_sub_cancel]

theorem Ex.val_rescale (e : Ex) (q p : Int) : e.val q = e.val p * 2 ^ (p - q) := by
  unfold Ex.val
  split
  · rw [e.mag_rescale q p, neg_mul]
  · exact e.mag_rescale q p

theorem Ex.mag_mono (e : Ex) {p q : Int} (h : p ≤ q) : e.mag q ≤ e.mag p := by
  rw [e.mag_rescale q p]
  exact mul_le_of_le_one_right (e.mag_nonneg p) (zpow_le_one_of_nonpos₀ one_le_two (sub_nonpos.2 h))

theorem Ex.mag_of_le (e : Ex) {q : Int} (h : q ≤ e.exp) : e.mag q = (e.mant * 2 ^ (e.exp - q).toNat : Nat) := by
  rw [Ex.mag, Nat.cast_mul, Nat.cast_pow, Nat.cast_two, ← zpow_natCast, Int.toNat_of_nonneg (sub_nonneg.2 h)]

theorem Ex.mag_of_ge (e : Ex) {q : Int} (h : e.exp ≤ q) : e.mag q = (e.mant : ℚ) / (2 ^ (q - e.exp).toNat : Nat) := by
  rw [Ex.mag, div_eq_mul_inv, Nat.cast_pow, Nat.cast_two, ← zpow_natCast, Int.toNat_of_nonneg (sub_nonneg.2 h), ← zpow_neg, neg_sub]

theorem Ex.val_of_zero {e : Ex} (h : e.mant = 0) (q : Int) : e.val q = 0 := by simp [Ex.val, Ex.mag, h]

/-- The units of a number at or below its exponent are its value. -/
theorem Ex.units_eq_val (e : Ex) {q : Int} (h : q ≤ e.exp) : (e.units q : ℚ) = e.val q := by
  rw [Ex.units, Ex.val, e.mag_of_le h]
  split <;> push_cast <;> rfl

theorem Ex.val_of_units (s : Int) (q : Int) (st : Bool) : Ex.val ⟨s < 0, s.natAbs, q, st⟩ q = s := by
  rw [Ex.val, Ex.mag, sub_self, zpow_zero, mul_one]
  dsimp only
  split
  · next h => rw [Nat.cast_natAbs, abs_of_neg (of_decide_eq_true h), Int.cast_neg, neg_neg]
  · next h => rw [Nat.cast_natAbs, abs_of_nonneg (not_lt.1 (of_decide_eq_false (Bool.eq_false_iff.2 h)))]

/-- The sum is exact (R115). -/
theorem Ex.val_add (mode : RMode) (a b : Ex) (q : Int) : (a.add mode b).val q = a.val q + b.val q := by
  unfold Ex.add
  split
  · next h => rw [Ex.val_of_zero h.1, Ex.val_of_zero h.2, Ex.val_of_zero rfl, add_zero]
  split
  · next h => rw [Ex.val_of_zero h, zero_add]
  split
  · next h => rw [Ex.val_of_zero h, add_zero]
  have hp : ∃ p, (if a.exp < b.exp then a.exp else b.exp) = p ∧ p ≤ a.exp ∧ p ≤ b.exp :=
    ⟨_, rfl, by split <;> omega, by split <;> omega⟩
  obtain ⟨p, hp, ha, hb⟩ := hp
  have hsum : ((a.units p + b.units p : Int) : ℚ) = a.val p + b.val p := by
    rw [Int.cast_add, a.units_eq_val ha, b.units_eq_val hb]
  rw [hp, a.val_rescale q p, b.val_rescale q p, ← add_mul, ← hsum]
  dsimp only
  split
  · next h => rw [h, Ex.val_of_zero rfl, Int.cast_zero, zero_mul]
  · rw [Ex.val_rescale _ q p, Ex.val_of_units]

/-! ### Cutting and rounding to nearest (R73) -/

/-- What a cut keeps is the whole part of the magnitude. -/
theorem cutAt_n (e : Ex) (q : Int) : (cutAt e q).n = ⌊e.mag q⌋₊ := by
  unfold cutAt
  dsimp only
  split
  · next h => rw [e.mag_of_le (by omega), Nat.floor_natCast, neg_sub]
  next h =>
  rw [e.mag_of_ge (by omega), Nat.floor_div_eq_div]
  split
  · next hfar =>
    have hlt : e.mant < 2 ^ (q - e.exp).toNat :=
      Nat.lt_log2_self.trans_le (Nat.pow_le_pow_right two_pos (by omega))
    exact (Nat.div_eq_of_lt hlt).symm
  · rfl

/-- Where half a unit or more is left of a cut, the magnitude lies above what it keeps. -/
theorem cutAt_lt_mag {e : Ex} {q : Int} (h : 2 ≤ (cutAt e q).rest) : ((cutAt e q).n : ℚ) < e.mag q := by
  unfold cutAt at *
  dsimp only at *
  split at h
  · dsimp only at h; split at h <;> omega
  split at h
  · dsimp only at h; split at h <;> omega
  next hsh hnear =>
  have hrem : 0 < e.mant % 2 ^ (q - e.exp).toNat := Nat.pos_of_ne_zero fun hzero => by
    have hhalf : 0 < 2 ^ ((q - e.exp).toNat - 1) := Nat.two_pow_pos _
    simp only [hzero, hhalf, if_true] at h
    split at h <;> omega
  rw [if_neg hsh, if_neg hnear, e.mag_of_ge (by omega), lt_div_iff₀ (by positivity)]
  have := Nat.div_add_mod' e.mant (2 ^ (q - e.exp).toNat)
  exact_mod_cast (by omega : e.mant / 2 ^ (q - e.exp).toNat * 2 ^ (q - e.exp).toNat < e.mant)

/-- The whole number that a cut rounds to, to nearest. -/
def nearest (e : Ex) (q : Int) : Nat := if roundsUp .rn e.neg (cutAt e q) then (cutAt e q).n + 1 else (cutAt e q).n

theorem nearest_within (e : Ex) (q : Int) : |(nearest e q : ℚ) - e.mag q| < 1 := by
  have hle : ((cutAt e q).n : ℚ) ≤ e.mag q := by rw [cutAt_n]; exact Nat.floor_le (e.mag_nonneg q)
  have hlt : e.mag q < (cutAt e q).n + 1 := by rw [cutAt_n]; exact Nat.lt_floor_add_one _
  unfold nearest
  split
  · next hup =>
    have hrest : 2 ≤ (cutAt e q).rest := by
      simp only [roundsUp, Bool.or_eq_true, Bool.and_eq_true, decide_eq_true_eq] at hup
      omega
    have := cutAt_lt_mag hrest
    rw [abs_lt]
    push_cast
    constructor <;> linarith
  · rw [abs_lt]
    constructor <;> linarith

/-! ### Encodings (R72, R73) -/

/-- The number that the exponent and fraction fields `k` stand for, in units of the last place of the subnormals. -/
def fieldUnits (f : Fmt) (k : Nat) : Nat :=
  if k / 2 ^ f.fbits = 0 then k % 2 ^ f.fbits else (k % 2 ^ f.fbits + 2 ^ f.fbits) * 2 ^ (k / 2 ^ f.fbits - 1)

/-- Up to twice the implicit one, `n` units of exponent `j` are encoded by one sum, which carries into the exponent field. -/
theorem fieldUnits_sum (f : Fmt) {j n : Nat} (hn : n ≤ 2 ^ (f.fbits + 1)) (hj : j = 0 ∨ 2 ^ f.fbits ≤ n) :
    fieldUnits f (j * 2 ^ f.fbits + n) = n * 2 ^ j := by
  have hpos := Nat.two_pow_pos f.fbits
  rw [Nat.pow_succ] at hn
  unfold fieldUnits
  generalize 2 ^ f.fbits = F at *
  rw [Nat.mul_comm j, Nat.mul_add_div hpos, Nat.mul_add_mod]
  rcases Nat.lt_or_ge n F with hlt | hge
  · obtain rfl : j = 0 := by omega
    simp [Nat.div_eq_of_lt hlt, Nat.mod_eq_of_lt hlt]
  rcases Nat.lt_or_ge n (2 * F) with hlt2 | hge2
  · have hdiv : n / F = 1 := Nat.div_eq_of_lt_le (by omega) (by omega)
    have hmod : n % F + F = n := by have := Nat.div_add_mod n F; rw [hdiv] at this; omega
    simp [hdiv, hmod]
  · obtain rfl : n = 2 * F := by omega
    simp [Nat.mul_div_cancel _ hpos, Nat.pow_succ]
    ring

theorem signCode_eq (f : Fmt) (neg : Bool) : signCode f neg = neg.toNat * 2 ^ f.ebits * 2 ^ f.fbits := by
  have : f.width - 1 = f.ebits + f.fbits := by rw [Fmt.width]; omega
  rw [signCode, this, Nat.pow_add]
  cases neg <;> simp

theorem bitsAt_fraction (f : Fmt) (neg : Bool) (k : Nat) : bitsAt (signCode f neg + k) 0 f.fbits = k % 2 ^ f.fbits := by
  rw [bitsAt, signCode_eq, Nat.mul_comm _ (2 ^ f.fbits), Nat.pow_zero, Nat.div_one, Nat.mul_add_mod]

section
variable (f : Fmt) (neg : Bool) {k : Nat} (hk : k < 2 ^ f.ebits * 2 ^ f.fbits)
include hk

theorem bitsAt_sign : bitsAt (signCode f neg + k) (f.width - 1) 1 = neg.toNat := by
  have hw : f.width - 1 = f.ebits + f.fbits := by rw [Fmt.width]; omega
  rw [bitsAt, signCode_eq, hw, Nat.pow_add, Nat.mul_assoc, Nat.mul_comm _ (_ * _), Nat.mul_add_div (by positivity), Nat.div_eq_of_lt hk]
  cases neg <;> rfl

theorem bitsAt_exponent : bitsAt (signCode f neg + k) f.fbits f.ebits = k / 2 ^ f.fbits := by
  rw [bitsAt, signCode_eq, Nat.mul_comm _ (2 ^ f.fbits), Nat.mul_add_div (by positivity), Nat.mul_comm _ (2 ^ f.ebits), Nat.mul_add_mod,
    Nat.mod_eq_of_lt (Nat.div_lt_of_lt_mul (by rwa [Nat.mul_comm]))]

/-- A finite encoding is the number of its fields with its sign. -/
theorem decodeFmt_fin {c : Ex} (h : decodeFmt f (signCode f neg + k) = .fin c) : c.neg = neg ∧ c.mag f.qmin = fieldUnits f k := by
  unfold decodeFmt at h
  rw [bitsAt_sign f neg hk, bitsAt_exponent f neg hk, bitsAt_fraction f neg k] at h
  dsimp only at h
  have hneg : decide (neg.toNat = 1) = neg := by cases neg <;> rfl
  rw [hneg] at h
  split at h
  · split at h <;> cases h
  unfold fieldUnits
  split at h
  · next hzero =>
    cases h
    rw [if_pos hzero]
    exact ⟨rfl, by rw [Ex.mag, sub_self, zpow_zero, mul_one]⟩
  · next hnorm =>
    cases h
    rw [if_neg hnorm]
    refine ⟨rfl, ?_⟩
    rw [Ex.mag, add_sub_cancel_left, zpow_natCast]
    push_cast
    rfl

end

theorem expMax_lt (f : Fmt) : f.expMax * 2 ^ f.fbits < 2 ^ f.ebits * 2 ^ f.fbits :=
  Nat.mul_lt_mul_of_pos_right (Nat.sub_lt (Nat.two_pow_pos _) one_pos) (Nat.two_pow_pos _)

/-- Infinities are no finite numbers. -/
theorem decodeFmt_infCode (f : Fmt) (neg : Bool) (c : Ex) : decodeFmt f (f.infCode neg) ≠ .fin c := by
  have hcode : f.infCode neg = signCode f neg + f.expMax * 2 ^ f.fbits := rfl
  rw [hcode, decodeFmt, bitsAt_exponent f neg (expMax_lt f), Nat.mul_div_cancel _ (Nat.two_pow_pos _)]
  simp only [if_true]
  split <;> exact Num.noConfusion

/-- The exponent of the unit in the last place of a number (R73, R119). -/
def ulpExp (f : Fmt) (e : Ex) : Int :=
  if e.exp + Nat.log2 e.mant - f.fbits < f.qmin then f.qmin else e.exp + Nat.log2 e.mant - f.fbits

theorem qmin_le_ulpExp (f : Fmt) (e : Ex) : f.qmin ≤ ulpExp f e := by
  unfold ulpExp
  split <;> omega

theorem top_le_ulpExp (f : Fmt) (e : Ex) : e.exp + Nat.log2 e.mant - f.fbits ≤ ulpExp f e := by
  unfold ulpExp
  split <;> omega

/-- A number rounded to nearest is an infinity, or the whole number of its last places next to it. -/
theorem roundEx_nearest (f : Fmt) {e : Ex} (he : e.mant ≠ 0) : (roundEx f .rn false e).code = f.infCode e.neg ∨
    ((ulpExp f e - f.qmin).toNat * 2 ^ f.fbits + nearest e (ulpExp f e) < f.expMax * 2 ^ f.fbits ∧
      (roundEx f .rn false e).code = signCode f e.neg + ((ulpExp f e - f.qmin).toNat * 2 ^ f.fbits + nearest e (ulpExp f e))) := by
  unfold roundEx
  rw [if_neg fun h => he h.1]
  dsimp only
  split
  · exact .inl rfl
  rcases lt_or_ge ((ulpExp f e - f.qmin).toNat * 2 ^ f.fbits + nearest e (ulpExp f e)) (f.expMax * 2 ^ f.fbits) with hlt | hge
  · exact .inr ⟨hlt, congrArg Enc.code (if_neg (not_le.2 hlt))⟩
  · exact .inl (congrArg Enc.code (if_pos hge))

/-- The leading bit of a number stands at the top of the fraction, in units in the last place of a normal one. -/
theorem mag_top (f : Fmt) {e : Ex} (he : e.mant ≠ 0) : 2 ^ f.fbits ≤ e.mag (e.exp + Nat.log2 e.mant - f.fbits) ∧
    e.mag (e.exp + Nat.log2 e.mant - f.fbits) < 2 ^ (f.fbits + 1) := by
  have hscale : e.mag (e.exp + Nat.log2 e.mant - f.fbits) = e.mant / 2 ^ Nat.log2 e.mant * 2 ^ f.fbits := by
    rw [Ex.mag, show e.exp - (e.exp + Nat.log2 e.mant - f.fbits) = -(Nat.log2 e.mant : Int) + f.fbits by ring, zpow_add₀ two_ne_zero,
      zpow_neg, zpow_natCast, zpow_natCast, div_eq_mul_inv, mul_assoc]
  have hle : (2 ^ Nat.log2 e.mant : ℚ) ≤ e.mant := by exact_mod_cast Nat.log2_self_le he
  have hlt : (e.mant : ℚ) < 2 * 2 ^ Nat.log2 e.mant := by
    rw [← pow_succ']
    exact_mod_cast Nat.lt_log2_self
  rw [hscale, pow_succ']
  constructor
  · exact le_mul_of_one_le_left (by positivity) ((one_le_div₀ (by positivity)).2 hle)
  · exact mul_lt_mul_of_pos_right ((div_lt_iff₀ (by positivity)).2 hlt) (by positivity)

theorem nearest_le (f : Fmt) {e : Ex} (he : e.mant ≠ 0) : nearest e (ulpExp f e) ≤ 2 ^ (f.fbits + 1) := by
  have hmag := (e.mag_mono (top_le_ulpExp f e)).trans_lt (mag_top f he).2
  have := (abs_lt.1 (nearest_within e (ulpExp f e))).2
  exact Nat.le_of_lt_succ (by exact_mod_cast (by linarith : (nearest e (ulpExp f e) : ℚ) < 2 ^ (f.fbits + 1) + 1))

theorem ulpExp_qmin_or_le_nearest (f : Fmt) {e : Ex} (he : e.mant ≠ 0) :
    (ulpExp f e - f.qmin).toNat = 0 ∨ 2 ^ f.fbits ≤ nearest e (ulpExp f e) := by
  rcases lt_or_ge (e.exp + Nat.log2 e.mant - f.fbits) f.qmin with h | h
  · left
    rw [ulpExp, if_pos h, sub_self]
    rfl
  · right
    have hnear := (abs_lt.1 (nearest_within e (ulpExp f e))).1
    have hmag := (mag_top f he).1
    rw [ulpExp, if_neg (not_lt.2 h)] at *
    refine Nat.le_of_lt_succ ?_
    exact_mod_cast (by linarith : (2 ^ f.fbits : ℚ) < nearest e (e.exp + Nat.log2 e.mant - f.fbits) + 1)

/-- A number rounded to nearest lies less than one unit in the last place away, where the result is finite. -/
theorem roundEx_within (f : Fmt) {e c : Ex} (he : e.mant ≠ 0) (hc : decodeFmt f (roundEx f .rn false e).code = .fin c) :
    |c.val (ulpExp f e) - e.val (ulpExp f e)| < 1 := by
  obtain hinf | ⟨hlt, hcode⟩ := roundEx_nearest f he
  · exact absurd (hinf ▸ hc) (decodeFmt_infCode f e.neg c)
  rw [hcode] at hc
  obtain ⟨hneg, hmag⟩ := decodeFmt_fin f e.neg (hlt.trans (expMax_lt f)) hc
  rw [fieldUnits_sum f (nearest_le f he) (ulpExp_qmin_or_le_nearest f he)] at hmag
  have hc : c.mag (ulpExp f e) = nearest e (ulpExp f e) := by
    rw [c.mag_rescale _ f.qmin, hmag, Nat.cast_mul, Nat.cast_pow, Nat.cast_two, ← zpow_natCast,
      Int.toNat_of_nonneg (sub_nonneg.2 (qmin_le_ulpExp f e)),
      mul_assoc, ← zpow_add₀ two_ne_zero, sub_add_sub_cancel', sub_self, zpow_zero, mul_one]
  have hnear := nearest_within e (ulpExp f e)
  rw [Ex.val, Ex.val, hneg, hc]
  split
  · rwa [neg_sub_neg, abs_sub_comm]
  · exact hnear

/-! ### The bound of the approximations (R119) -/

theorem Ex.val_neg (e : Ex) (st : Bool) (q : Int) : Ex.val { e with neg := !e.neg, sticky := st } q = -e.val q := by
  unfold Ex.val
  cases e.neg with
  | true => exact (neg_neg _).symm
  | false => rfl

/-- The distance that `withinUlps` measures between a code's number and a value, with what the value's `sticky` adds. -/
def distance (c y : Ex) : Ex := { c.add .rn { y with neg := !y.neg, sticky := false } with sticky := y.sticky }

theorem distance_mag (c y : Ex) (q : Int) : (distance c y).mag q = |c.val q - y.val q| := by
  rw [sub_eq_add_neg, ← Ex.val_neg y false, ← Ex.val_add .rn, Ex.abs_val]
  rfl

theorem withinUlps_of_fin {f : Fmt} {code : Nat} {c : Ex} (hc : decodeFmt f code = .fin c) (n : Nat) (y : Ex) :
    withinUlps f n code y = decide (cmpMag (distance c y) n (ulpExp f y) ≤ 1) := by
  unfold withinUlps
  rw [hc]
  rfl

/-- A code that lies less than a unit in the last place away is within the bound of any number of them. -/
theorem withinUlps_of_lt {f : Fmt} {n code : Nat} {y c : Ex} (hn : 0 < n) (hc : decodeFmt f code = .fin c)
    (h : |c.val (ulpExp f y) - y.val (ulpExp f y)| < 1) : withinUlps f n code y = true := by
  rw [← distance_mag] at h
  have hcut : (cutAt (distance c y) (ulpExp f y)).n < n := by rwa [cutAt_n, Nat.floor_eq_zero.2 h]
  have hcmp : cmpMag (distance c y) n (ulpExp f y) = 0 := if_pos hcut
  rw [withinUlps_of_fin hc, hcmp]
  rfl

theorem ulps_pos (op : ApproxOp) : 0 < op.ulps := by cases op <;> decide

/-- Either the value is rounded to nearest, or it is moved within the bound. -/
theorem approxRound_code (f : Fmt) (op : ApproxOp) (tyCode bits : Nat) (y : Ex) :
    (approxRound f op tyCode bits y).code = (roundEx f .rn false y).code ∨
      withinUlps f op.ulps (approxRound f op tyCode bits y).code y = true := by
  unfold approxRound
  dsimp only
  split
  · split
    · next hmoved => exact .inr hmoved.2
    · exact .inl rfl
  · exact .inl rfl

theorem approxRound_within {f : Fmt} {op : ApproxOp} {tyCode bits : Nat} {y c : Ex} (hy : y.mant ≠ 0)
    (hc : decodeFmt f (approxRound f op tyCode bits y).code = .fin c) :
    withinUlps f op.ulps (approxRound f op tyCode bits y).code y = true := by
  obtain hround | hmoved := approxRound_code f op tyCode bits y
  · rw [hround] at hc ⊢
    exact withinUlps_of_lt (ulps_pos op) hc (roundEx_within f hy hc)
  · exact hmoved

/-! ### The completion of a long operation (R99, R234) -/

/-- The state in which the reserved places of a queue hold the pending result (R234). -/
def fillReserved (s : State) (tr : Train) (l : LongOp) : State :=
  match tr.wg with
  | some w => modWg s w (fillVals l.x l.wide l.vals l.slots)
  | none => s

@[simp] theorem train?_fillReserved (s : State) (tr : Train) (l : LongOp) (k : Nat) : train? (fillReserved s tr l) k = train? s k := by
  unfold fillReserved
  split <;> rfl

/-- The pending result of a long operation is written as the completion of the instruction. -/
theorem exec_longOpResult {s : State} {k : Nat} {tr : Train} {l : LongOp} (htr : train? s k = some tr) (hl : tr.long = some l) :
    exec (.longOpResult k) s = .next (putTrain (fillReserved s tr l) k
      (completeTrain l.instr l.x l.wide { vals := l.vals, flags := l.flags } tr.pc { tr with long := none })) := by
  have hmod := modTrain_eq ((train?_fillReserved s tr l k).trans htr) fun tr =>
    completeTrain l.instr l.x l.wide { vals := l.vals, flags := l.flags } tr.pc { tr with long := none }
  rw [← hmod]
  simp only [exec, execLongOpResult, unitStep, finishLong, htr, hl]
  rfl

theorem longOpResult_completes {s : State} {k : Nat} {tr : Train} {l : LongOp} {lanes : List Nat} {val : Nat → Dword}
    (htr : train? s k = some tr) (hl : tr.long = some l) (hvals : l.vals = lanes.map fun t => (t, val t)) (hfits : DstFits l.x.d lanes) :
    ∃ tr', TrainAfter l.instr l.x l.wide lanes val l.flags [] { tr with long := none } tr' ∧
      exec (.longOpResult k) s = .next (putTrain (fillReserved s tr l) k tr') := by
  refine ⟨_, ?_, exec_longOpResult htr hl⟩
  rw [hvals]
  exact completeTrain_after l.instr l.x l.wide lanes val l.flags none none { tr with long := none } hfits

/-- Settles O9: each operation is issued as a long operation (`pends_of_long`); a finite approximation is rounded to nearest or moved within
its bound (`approxRound_within`), and the pending result is written as a completion (`longOpResult_completes`). -/
theorem longOperationsPendAndTheirResultCompletes : Obligations.LongOperationsPendAndTheirResultCompletes := by
  unfold Obligations.LongOperationsPendAndTheirResultCompletes
  exact ⟨fun _ _ _ _ => pends_of_long fun _ => rfl, fun _ _ _ _ => pends_of_long fun _ => rfl, fun _ _ _ => pends_of_long fun _ => rfl,
    fun _ _ _ => pends_of_long fun _ => rfl, fun _ _ _ => pends_of_long fun _ => rfl, fun _ _ _ => pends_of_long fun _ => rfl,
    fun _ _ _ => pends_of_long fun _ => rfl, fun _ _ _ => pends_of_long fun _ => rfl, fun _ _ _ => pends_of_long fun _ => rfl,
    fun _ _ _ _ _ _ hy hc => approxRound_within hy hc, fun _ _ _ _ _ _ htr hl hvals hfits => longOpResult_completes htr hl hvals hfits⟩

end Sys2Proof.Machine
end

section
/-! PROOFS. Scratchpad and tile accesses reach their places (O11). -/

namespace Sys2Proof.Machine

/-! ### Scratchpad accesses (R165 to R168, R179) -/

/-- A train of a resident workgroup uses that workgroup's scratchpad and tiles. -/
theorem wgOf_eq {s : State} {tr : Train} {w : Nat} {g : Wg} (hw : tr.wg = some w) (hg : wg? s w = some g) : wgOf s tr = some g := by
  simp only [wgOf, hw, Option.bind_some, hg]

/-- The stores of a train of a workgroup are writes of its scratchpad, one for each thread in their order. -/
theorem spStore_eq {s : State} {tr : Train} {w : Nat} (hw : tr.wg = some w) (n : Nat) (val : Nat → Nat) (lanes : List Nat)
    (f : Nat → Nat) : spStore s tr n val (lanes.map fun l => (l, f l)) =
      modWg s w fun g => lanes.foldl (fun g l => spWrite g (f l) n (val l)) g := by
  simp only [spStore, hw, List.foldl_map]

/-- An `ldt` whose tile is READY and whose offsets lie in it reads the tile's bytes of each thread. -/
theorem ldtBody_done {t : Ty} {sc : Nat} {c : Ctx} {s : State} {g : Wg} (hg : wgOf s c.tr = some g)
    (hready : (tileOf g (tileNum c.x.a)).state = 2)
    (hfits : ∀ l ∈ c.lanes, tileOffset c sc true l % tyBytes t = 0 ∧
      tileOffset c sc true l + tyBytes t ≤ (tileOf g (tileNum c.x.a)).size) :
    ldtBody t sc c s = .done s { vals := c.lanes.map fun l =>
      (l, placed t (spRead g ((tileOf g (tileNum c.x.a)).base + tileOffset c sc true l) (tyBytes t))) } := by
  simp only [ldtBody, hg, hready, ne_eq, not_true_eq_false, if_false, tilePlaces_ok hfits, spLoad_eq hg, violationTrap_nil]

/-- An `stt` whose tile is EMPTY or READY, neither latched nor referred to, and whose offsets lie in it writes each thread's bytes, where
no other tile that it hits is latched or referred to. -/
theorem sttBody_done {t : Ty} {sc : Nat} {c : Ctx} {s : State} {w : Nat} {g : Wg} (hw : c.tr.wg = some w) (hg : wg? s w = some g)
    (hstate : (tileOf g (tileNum c.x.a)).state = 0 ∨ (tileOf g (tileNum c.x.a)).state = 2)
    (hlatched : latchedTile g (tileNum c.x.a) = false) (hreferenced : referenced g (tileNum c.x.a) = false)
    (hfits : ∀ l ∈ c.lanes, tileOffset c sc false l % tyBytes t = 0 ∧
      tileOffset c sc false l + tyBytes t ≤ (tileOf g (tileNum c.x.a)).size)
    (hhit : ∀ j ∈ tilesHit g (tyBytes t) (c.lanes.map fun l => (l, (tileOf g (tileNum c.x.a)).base + tileOffset c sc false l)),
      latchedTile g j = false ∧ referenced g j = false) :
    sttBody t sc c s = .done (modWg s w fun g' => c.lanes.foldl (fun g' l =>
      spWrite g' ((tileOf g (tileNum c.x.a)).base + tileOffset c sc false l) (tyBytes t) (rdOpnd c c.x.c t l).toNat) g') {} := by
  have hopen : ¬((tileOf g (tileNum c.x.a)).state ≠ 0 ∧ (tileOf g (tileNum c.x.a)).state ≠ 2) := by omega
  simp only [sttBody, wgOf_eq hw hg, if_neg hopen, tilePlaces_ok hfits, hlatched, hreferenced, Bool.and_false, Bool.false_or,
    Bool.false_eq_true, if_false]
  rw [if_neg (by simpa using fun j hj => (hhit j hj).1), List.find?_eq_none.2 (by simpa using fun j hj => (hhit j hj).2)]
  simp only [spStore_eq hw, violationTrap_nil]

/-- Settles O11: the regions allow every access (`withSp_ok`), or every offset lies in the tile (`ldtBody_done`, `sttBody_done`), so the
loads read (`spLoad_eq`) and the stores write (`spStore_eq`) the place of each thread. -/
theorem scratchpadAccessesReachTheirPlaces : Obligations.ScratchpadAccessesReachTheirPlaces := by
  unfold Obligations.ScratchpadAccessesReachTheirPlaces
  refine ⟨fun x t sc s k c s' g h hg hok => ?_, fun x t sc s k c s' w g h hw hg hok => ?_,
    fun x t sc s k c s' g n h hg ha hready hfits => ?_,
    fun x t sc s k c s' w g n h hw hg ha hstate hlatched hreferenced hfits hhit => ?_⟩
  · exact endsWith_of_done h rfl ((withSp_ok hg hok _).trans (by rw [spLoad_eq hg]))
  · exact endsWith_of_done h rfl ((withSp_ok (wgOf_eq hw hg) hok _).trans (by rw [spStore_eq hw]))
  · obtain rfl := h.seen.args
    have hn : tileNum c.x.a = n.toNat := by rw [ha, tileNum]
    rw [← hn] at hready hfits ⊢
    exact endsWith_of_done h rfl (ldtBody_done hg hready hfits)
  · obtain rfl := h.seen.args
    have hn : tileNum c.x.a = n.toNat := by rw [ha, tileNum]
    rw [← hn] at hstate hlatched hreferenced hfits hhit ⊢
    exact endsWith_of_done h rfl (sttBody_done hw hg hstate hlatched hreferenced hfits hhit)

end Sys2Proof.Machine
end

section
/-! PROOFS. Matrix instructions bind banks or enter the matrix queue (O29). -/

namespace Sys2Proof.Machine

/-! ### The checks of matrix instructions (R135) -/

theorem NamesBound.last_le {g : Wg} {first n : Nat} (h : NamesBound g first n) : first + n ≤ 64 := by
  obtain ⟨-, hlast, -⟩ := h
  exact hlast

/-- Names that are bound are a range of the 64 (R131). -/
theorem NamesBound.inRange {g : Wg} {first n : Nat} (h : NamesBound g first n) : (n = 0 || first + n > 64) = false := by
  obtain ⟨hpos, hlast, -⟩ := h
  simp
  omega

/-- The checks of `afree` and `azero` pass. -/
theorem boundChecks_ok {g : Wg} {first n : Nat} (h : NamesBound g first n) :
    ∀ e ∈ [(3, n = 0 || first + n > 64), (1, unboundIn g first n)], e.2 = false :=
  List.forall_mem_cons.2 ⟨h.inRange, List.forall_mem_singleton.2 (unboundIn_ok h)⟩

/-- Full throughput, or a type other than `f32` (R432). -/
theorem limpF32_eq_false {s : State} {t : Ty} (h : t = .f32 → s.super.limp = false) : limpF32 s t = false := by
  unfold limpF32
  by_cases ht : t = .f32 <;> simp [ht, h]

/-- An operand that names a tile names one of `m` bytes or more. -/
theorem tileTooShort_eq_false {g : Wg} {o : Opnd} {m : Nat} (h : ∀ n, o = .t n → m ≤ tileSize g o) :
    (isTile o && tileSize g o < m) = false := by
  cases o with
  | t n => simpa [isTile] using h n rfl
  | _ => rfl

/-- The checks of `wld` pass. -/
theorem wldChecks_ok {s : State} {g : Wg} {t : Ty} {a b : Opnd} (hlimp : t = .f32 → s.super.limp = false)
    (hsize : 64 * rowBytes g ≤ tileSize g a) (hscales : ∀ n, b = .t n → 64 ≤ tileSize g b) :
    ∀ e ∈ [(13, limpF32 s t), (6, tileSize g a < 64 * rowBytes g || (isTile b && tileSize g b < 64))], e.2 = false :=
  List.forall_mem_cons.2 ⟨limpF32_eq_false hlimp, List.forall_mem_singleton.2 (by
    rw [tileTooShort_eq_false hscales]
    simpa using hsize)⟩

/-- The tile form has the checks of `mma` for its rows, which the tiles must hold. -/
theorem mmaTileChecks_eq (s : State) (g : Wg) (t : Ty) (first : Nat) (ctl : Opnd) (val : Dword) (a sc : Opnd) :
    mmaTileChecks s g t first ctl val a sc =
      ((mmaRows ctl val (tileSize g a) (rowBytes g)).1, mmaChecks s g t first (mmaRows ctl val (tileSize g a) (rowBytes g)).1 false
        (((mmaRows ctl val (tileSize g a) (rowBytes g)).2 && tileSize g a % rowBytes g ≠ 0) ||
          (mmaRows ctl val (tileSize g a) (rowBytes g)).1 * rowBytes g > tileSize g a ||
          (isTile sc && tileSize g sc < (mmaRows ctl val (tileSize g a) (rowBytes g)).1))) := rfl

/-- The checks of the tile form of `mma` pass. -/
theorem mmaTileChecks_ok {s : State} {g : Wg} {t : Ty} {first : Nat} {ctl a sc : Opnd} {val : Dword} {m : Nat × Bool}
    (hrows : mmaRows ctl val (tileSize g a) (rowBytes g) = m) (hlatch : LatchFits s g t) (hpos : 0 < m.1) (hmax : m.1 ≤ 1024)
    (hwhole : m.2 = true → tileSize g a % rowBytes g = 0) (hsize : m.1 * rowBytes g ≤ tileSize g a)
    (hscale : ∀ n, sc = .t n → m.1 ≤ tileSize g sc) (hbound : NamesBound g first (ceilDiv m.1 16)) :
    ∀ e ∈ (mmaTileChecks s g t first ctl val a sc).2, e.2 = false := by
  rw [mmaTileChecks_eq, hrows]
  refine mmaChecks_ok hlatch hpos hmax hbound rfl ?_
  rw [tileTooShort_eq_false hscale]
  simpa using ⟨hwhole, hsize⟩

/-- The checks of `mmt` pass. -/
theorem mmtChecks_ok {s : State} {g : Wg} {ta tw : Ty} {first m ks nb names sizeA sizeB needA needB : Nat}
    (hlimp : ta = .f32 ∨ tw = .f32 → s.super.limp = false) (hwidth : ta.width = tw.width) (hm : 0 < m) (hmax : m ≤ 1024)
    (hks : 0 < ks) (hnb : 0 < nb) (hnbmax : nb ≤ 64) (hbound : NamesBound g first names) (hA : needA ≤ sizeA) (hB : needB ≤ sizeB) :
    ∀ e ∈ [(13, limpF32 s ta || limpF32 s tw), (3, m = 0 || m > 1024 || ks = 0 || nb = 0 || nb > 64 || first + names > 64),
      (1, unboundIn g first names), (4, ta.width ≠ tw.width), (6, sizeA < needA || sizeB < needB)], e.2 = false := by
  have hlast := hbound.last_le
  simp only [List.forall_mem_cons, List.not_mem_nil, false_imp_iff, implies_true, and_true]
  refine ⟨?_, by simp; omega, unboundIn_ok hbound, by simp [hwidth], by simp; omega⟩
  rw [limpF32_eq_false fun h => hlimp (.inl h), limpF32_eq_false fun h => hlimp (.inr h), Bool.or_self]

/-! ### Requests for banks (R131, R132, R136) -/

/-- A request is served at its issue where nothing stands before it and its banks are there (R131, R132). -/
theorem canTakeNow_iff {s : State} {w need : Nat} {g : Wg} (hg : wg? s w = some g) :
    canTakeNow s w need = true ↔ g.mq = [] ∧ (need ≤ g.resv ∨ banksFree s w need s.nextId = true) := by
  simp only [canTakeNow, hg, Option.any_some, Bool.or_eq_true, Bool.and_eq_true, List.isEmpty_iff, decide_eq_true_eq, and_or_left]

/-- The checks of `aalloc` pass. -/
theorem aallocChecks_ok {g : Wg} {first n banks : Nat} (hpos : 0 < n) (hlast : first + n ≤ 64)
    (hfree : ∀ j, j < n → Tab.get? g.accs (first + j) = none) (hbanks : banks ≤ 64) :
    ∀ e ∈ [(3, n = 0 || first + n > 64), (2, (List.range n).any fun j => (Tab.get? g.accs (first + j)).isSome),
      (10, banks > 64)], e.2 = false := by
  simp only [List.forall_mem_cons, List.not_mem_nil, false_imp_iff, implies_true, and_true]
  refine ⟨by simp; omega, ?_, by simpa using hbanks⟩
  simpa [Option.isSome_iff_ne_none] using hfree

theorem unbindNames_eq (g : Wg) (first n : Nat) :
    unbindNames g first n = { g with accs := g.accs.filter fun a => !(first ≤ a.1 && a.1 < first + n) } := by
  simp only [unbindNames, Bool.or_false]

/-! ### Matrix instructions at their issue (R130 to R149) -/

section
variable {i : Instr} {x : Args} {s : State} {k : Nat} {c : Ctx} {s' : State} {w : Nat} {g : Wg}

theorem MatrixReady.wg?_eq {tiles : List Opnd} (h : MatrixReady c s w g tiles) : wg? s w = some g := by
  obtain ⟨-, -, hg, -, -⟩ := h
  exact hg
theorem MatrixReady.wgOf_eq {tiles : List Opnd} (h : MatrixReady c s w g tiles) : wgOf s c.tr = some g := by
  obtain ⟨-, hw, hg, -, -⟩ := h
  exact Machine.wgOf_eq hw hg

/-- A matrix instruction that is ready and fails no check goes on with what follows its checks. -/
theorem withMatrix_checked {tiles : List Opnd} {checks : List (Nat × Bool)} {r : Res} {go : Nat → Wg → Res}
    (hm : MatrixReady c s' w g tiles) (hgo : go w g = orMatrixTrap s' checks r) (hchecks : ∀ e ∈ checks, e.2 = false) :
    withMatrix c s' tiles go = r :=
  (withMatrix_ok hm go).trans (hgo.trans (orMatrixTrap_ok hchecks r))

/-- The train that waits for the entry that it placed blocks at the head of its chain. -/
theorem exec_of_queuedWait {s'' : State} {wide : Bool} {body : Ctx → State → Res} {e : MqEntry} (h : Ready i x s k c s')
    (he : exec i s = issue i x wide s body) (hb : body c s' = queuedWait c s'' w e) :
    exec i s = .next (blockAt (enqueue s'' w e).2 k c.head (.matrixOp (enqueue s'' w e).1)) := by
  obtain rfl := h.seen.slot
  exact exec_of_left h he hb

/-- An `aalloc` whose banks are there binds its names as it issues (R136). -/
theorem aalloc_endsWith (h : Ready (.aalloc x) x s k c s') (hm : MatrixReady c s' w g []) (hpos : 0 < countOperand c)
    (hlast : accNum x.d + countOperand c ≤ 64) (hfree : ∀ j, j < countOperand c → Tab.get? g.accs (accNum x.d + j) = none)
    (hbanks : g.accs.foldl (fun m e => m + (AccBind.list e.2).length) 0 + banksNeeded g (countOperand c)
      + (wgsOnCore s' g.core).foldl (fun m e => if e.1 = w then m else m + e.2.banks) 0 ≤ 64)
    (htake : canTakeNow s' w (banksNeeded g (countOperand c)) = true) :
    EndsWith (.aalloc x) x false s c (takeBanks s' w (accNum x.d) (countOperand c)) {} := by
  obtain rfl := h.seen.args
  refine endsWith_of_done h rfl ((withMatrix_checked hm rfl (aallocChecks_ok hpos hlast hfree hbanks)).trans ?_)
  rw [if_pos htake]

/-- An `aalloc` whose banks are not there, or that finds an earlier entry, enters the queue and waits (R132, R136). -/
theorem exec_aalloc_waits (h : Ready (.aalloc x) x s k c s') (hm : MatrixReady c s' w g []) (hpos : 0 < countOperand c)
    (hlast : accNum x.d + countOperand c ≤ 64) (hfree : ∀ j, j < countOperand c → Tab.get? g.accs (accNum x.d + j) = none)
    (hbanks : g.accs.foldl (fun m e => m + (AccBind.list e.2).length) 0 + banksNeeded g (countOperand c)
      + (wgsOnCore s' g.core).foldl (fun m e => if e.1 = w then m else m + e.2.banks) 0 ≤ 64)
    (hwait : ¬canTakeNow s' w (banksNeeded g (countOperand c)) = true) :
    let q := enqueue s' w (entryOf c (.aalloc x))
    let s2 := modWg q.2 w fun g' =>
      { g' with accs := (pendingNames g' q.1 (accNum x.d) (countOperand c)).foldl (fun t e => Tab.put t e.1 e.2) g'.accs }
    exec (.aalloc x) s = .next (modTrain (blockAt s2 k c.head (.aalloc (banksNeeded g (countOperand c)) q.1 q.2.clk)) k
      fun tr => { tr with atWait := some (.aalloc x) }) := by
  obtain rfl := h.seen.args
  obtain rfl := h.seen.slot
  refine exec_of_left h rfl ((withMatrix_checked hm rfl (aallocChecks_ok hpos hlast hfree hbanks)).trans ?_)
  rw [if_neg hwait]
  rfl

end

/-- Settles O29: a ready instruction whose checks pass (`withMatrix_checked`) takes its banks or places its entry; a form that the train
waits for blocks it there (`exec_of_queuedWait`), and an `aalloc` is served at its issue just where `canTakeNow_iff` says. -/
theorem matrixInstructionsAreQueued : Obligations.MatrixInstructionsAreQueued := by
  unfold Obligations.MatrixInstructionsAreQueued
  refine ⟨fun x s k c s' w g h hm => ?_, fun x s k c s' w g h hm => ?_, fun x s k c s' w g h hm hbound => ?_,
    fun x t s k c s' w g h hm hlimp hsize hscales => ?_, fun x s k c s' w g h hm => ?_,
    fun x t s k c s' w g m h hm hlatch hrows hpos hmax hwhole hsize hscale hbound => ?_,
    fun x t s k c s' w g h hm hlatch => ?_, fun x ta tw s k c s' w g h hm hlimp hwidth => ?_,
    fun x t z s k c s' w g h hm hregs hbound => ?_, fun x t z s k c s' w g h hm hbound => ?_,
    fun x t z s k c s' w g h hm hbound hbase hstride => ?_, fun x s k c s' w g h hm haccs hmq => ?_,
    fun x s k c s' g h hon hg => ?_⟩
  · intro first n hpos hlast hfree hbanks
    have htakes := canTakeNow_iff hm.wg?_eq (need := banksNeeded g n)
    refine ⟨fun hmq htake => aalloc_endsWith h hm hpos hlast hfree hbanks (htakes.2 ⟨hmq, htake⟩),
      fun hwait => exec_aalloc_waits h hm hpos hlast hfree hbanks fun htake => ?_⟩
    obtain ⟨hmq, hthere⟩ := htakes.1 htake
    obtain hne | ⟨hresv, hnone⟩ := hwait
    · exact hne hmq
    · rw [hnone] at hthere
      exact hthere.elim (Nat.not_le.2 hresv) Bool.false_ne_true
  · intro first n hbound
    refine endsWith_of_done h rfl ((withMatrix_checked hm rfl (boundChecks_ok hbound)).trans ?_)
    simp only [unbindNames_eq]
    rfl
  · exact endsWith_of_done h rfl (withMatrix_checked hm rfl (boundChecks_ok hbound))
  · obtain rfl := h.seen.args
    exact endsWith_of_done h rfl (withMatrix_checked hm rfl (wldChecks_ok hlimp hsize hscales))
  · exact endsWith_of_done h rfl (withMatrix_ok hm _)
  · obtain rfl := hrows
    exact endsWith_of_done h rfl
      (withMatrix_checked hm rfl (mmaTileChecks_ok rfl hlatch hpos hmax hwhole hsize hscale hbound))
  · intro m hpos hmax hbound hbase hstride hscale
    exact exec_of_queuedWait h rfl (withMatrix_checked hm rfl
      (mmaChecks_ok hlatch hpos hmax hbound (by simp [hbase, hstride]) (tileTooShort_eq_false hscale)))
  · intro m ks nb hpos hmax hks hnb hnbmax hbound hA hB
    exact endsWith_of_done h rfl (withMatrix_checked hm rfl
      (mmtChecks_ok hlimp hwidth hpos hmax hks hnb hnbmax hbound hA hB))
  · obtain rfl := h.seen.slot
    exact exec_of_queuedWait h rfl ((if_neg (by simp [hregs])).trans
      (withMatrix_checked hm rfl (List.forall_mem_singleton.2 (unboundIn_ok hbound))))
  · intro addr haligned hfates
    refine exec_of_queuedWait h rfl ((withMatrix_checked hm rfl
      (List.forall_mem_cons.2 ⟨unboundIn_ok hbound, List.forall_mem_singleton.2 (by simp [addr, haligned])⟩)).trans ?_)
    exact withSp_ok (f := fun p => addr + 64 * p) hm.wgOf_eq (fun p hp => hfates p (List.mem_range.1 hp)) _
  · exact exec_of_queuedWait h rfl (withMatrix_checked hm rfl
      (List.forall_mem_cons.2 ⟨unboundIn_ok hbound, List.forall_mem_singleton.2 (by simp [hbase, hstride])⟩))
  · intro m hmax
    exact endsWith_of_done h rfl (withMatrix_checked hm rfl (List.forall_mem_singleton.2 (by simp [haccs, hmq, m, hmax])))
  · refine endsWith_of_done h rfl ?_
    simp only [hon, hg, Bool.not_true, Bool.false_eq_true, if_false, uniResult]

end Sys2Proof.Machine
end

section
/-! PROOFS. The array performs the entry at the head of a queue (O31). -/

namespace Sys2Proof.Tab
variable {α : Type}

/-! ### The first entry that satisfies a test, after a write -/

/-- An entry that the test does not accept is replaced by another such: the first accepted entry is the same. -/
theorem find?_put_of_false {m : Tab α} {k : Nat} {a v : α} {q : Nat × α → Bool} (hget : get? m k = some a)
    (ha : q (k, a) = false) (hv : q (k, v) = false) : (put m k v).find? q = m.find? q := by
  induction m with
  | nil => cases hget
  | cons e r ih =>
    obtain ⟨k', v'⟩ := e
    simp only [get?] at hget
    simp only [put]
    split
    · rw [List.find?_cons_of_neg (by simp [hv])]
    · split at hget
      · next hkey =>
        cases hkey
        cases hget
        rw [if_pos rfl, List.find?_cons_of_neg (by simp [hv]), List.find?_cons_of_neg (by simp [ha])]
      · next hkey =>
        rw [if_neg hkey, List.find?_cons, List.find?_cons, ih hget]

/-- Where the first accepted entry has the key `k`, an accepted entry at that key is the first one. -/
theorem get?_of_find? {m : Tab α} {k : Nat} {a b : α} {q : Nat × α → Bool} (hget : get? m k = some a) (ha : q (k, a) = true)
    (hfind : m.find? q = some (k, b)) : a = b := by
  induction m with
  | nil => cases hget
  | cons e r ih =>
    obtain ⟨k', v'⟩ := e
    simp only [get?] at hget
    split at hget
    · next hkey =>
      cases hkey
      cases hget
      rw [List.find?_cons_of_pos ha] at hfind
      cases hfind
      rfl
    · next hkey =>
      rw [List.find?_cons] at hfind
      split at hfind
      · cases hfind
        exact absurd rfl hkey
      · exact ih hget hfind

/-- The first accepted entry is replaced by another accepted one, which is the first then. -/
theorem find?_put_of_true {m : Tab α} {k : Nat} {a v : α} {q : Nat × α → Bool} (hfind : m.find? q = some (k, a))
    (hv : q (k, v) = true) : (put m k v).find? q = some (k, v) := by
  induction m with
  | nil => cases hfind
  | cons e r ih =>
    obtain ⟨k', v'⟩ := e
    simp only [put]
    split
    · exact List.find?_cons_of_pos hv
    · split
      · exact List.find?_cons_of_pos hv
      · next hkey =>
        rw [List.find?_cons] at hfind ⊢
        split at hfind
        · cases hfind
          exact absurd rfl hkey
        · exact ih hfind

end Sys2Proof.Tab

namespace Sys2Proof.Machine

/-! ### Where the train with an identity stands -/

/-- The resident train with the identity `uid` stands in slot `k`, and what it waits for satisfies `p`. -/
def StandsAt (s : State) (uid k : Nat) (p : Option Block → Prop) : Prop := ∃ tr, trainByUid s uid = some (k, tr) ∧ p tr.block

section
variable {s t : State} {uid k : Nat} {p : Option Block → Prop}

theorem StandsAt.of_trains (h : StandsAt s uid k p) (ht : t.trains = s.trains) : StandsAt t uid k p := by
  obtain ⟨tr, hfind, hp⟩ := h
  exact ⟨tr, by rw [trainByUid, ht]; exact hfind, hp⟩

/-- A change of the train in the slot that keeps identities and the test. -/
theorem StandsAt.modTrain (h : StandsAt s uid k p) {f : Train → Train} (huid : ∀ tr, (f tr).uid = tr.uid)
    (hp : ∀ tr, p tr.block → p (f tr).block) : StandsAt (modTrain s k f) uid k p := by
  obtain ⟨tr, hfind, htr⟩ := h
  cases hget : train? s k with
  | none =>
    refine ⟨tr, ?_, htr⟩
    rw [← hfind]
    simp only [train?] at hget
    simp only [trainByUid, Machine.modTrain, Tab.adjust, hget]
  | some tr0 =>
    rw [modTrain_eq hget]
    by_cases h0 : tr0.uid = uid
    · obtain rfl : tr0 = tr := Tab.get?_of_find? hget (by simpa using h0) hfind
      exact ⟨f tr0, Tab.find?_put_of_true hfind (by simpa [huid] using h0), hp tr0 htr⟩
    · refine ⟨tr, (Tab.find?_put_of_false hget (by simpa using h0) (by simpa [huid] using h0)).trans hfind, htr⟩

theorem touchStall_trains (s : State) (k : Nat) : (touchStall s k).trains = s.trains := by
  unfold touchStall
  split <;> rfl

theorem StandsAt.unblock (h : StandsAt s uid k p) (hp : p none) : StandsAt (unblock s k) uid k p := by
  unfold Machine.unblock
  split
  · exact h
  · next tr htr =>
    have htr' : train? (touchStall s k) k = some tr := by rw [train?, touchStall_trains]; exact htr
    rw [← modTrain_eq htr' fun tr => { tr with block := none, atWait := none }]
    exact (h.of_trains (touchStall_trains s k)).modTrain (fun _ => rfl) fun _ _ => hp

theorem StandsAt.returnLoad (h : StandsAt s uid k p) (i : Nat) : StandsAt (returnLoad s k i) uid k p := by
  unfold Machine.returnLoad
  split
  · exact h
  · split
    · exact h
    · refine h.modTrain (fun tr => ?_) fun tr htr => ?_
      · rw [(writeLoad_sameButResults ..).frame]
      · rw [(writeLoad_sameButResults ..).frame]
        exact htr

theorem StandsAt.returnWhere (h : StandsAt s uid k p) (q : PendLoad → Bool) (n : Nat) :
    StandsAt (returnWhere s k q n) uid k p := by
  induction n with
  | zero => exact h
  | succ n ih =>
    simp only [Machine.returnWhere]
    split
    · exact ih
    · split
      · exact ih.returnLoad 0
      · exact ih

theorem foldl_writeBytes_trains (l : List PendStore) (s : State) :
    (l.foldl (fun s x => writeBytes s x.pa x.bytes) s).trains = s.trains := by
  induction l generalizing s with
  | nil => rfl
  | cons x l ih => exact (ih _).trans rfl

theorem StandsAt.performEarlier (h : StandsAt s uid k p) : StandsAt (performEarlier s k) uid k p := by
  have hloads : StandsAt (returnLoads s k fun _ => true) uid k p := by
    unfold returnLoads
    split
    · exact h
    · exact h.returnWhere _ _
  unfold Machine.performEarlier performAll
  split
  · exact hloads
  · exact (hloads.of_trains (foldl_writeBytes_trains _ _)).modTrain (fun _ => rfl) fun _ hp => hp

/-! ### Completion keeps a train's identity and what it waits for -/

theorem selectWith_uid (tr : Train) (pcf : Nat → Dword) : (selectWith tr pcf).uid = tr.uid := by
  unfold selectWith
  dsimp only
  split <;> rfl
theorem selectWith_block (tr : Train) (pcf : Nat → Dword) : (selectWith tr pcf).block = tr.block := by
  unfold selectWith
  dsimp only
  split <;> rfl

theorem writeResults_uid (tr : Train) (x : Args) (wide : Bool) (vals : List (Nat × Dword)) :
    (writeResults tr x wide vals).uid = tr.uid := by
  rw [(writeResults_sameButRegs tr x wide vals).frame]
theorem writeResults_block (tr : Train) (x : Args) (wide : Bool) (vals : List (Nat × Dword)) :
    (writeResults tr x wide vals).block = tr.block := by
  rw [(writeResults_sameButRegs tr x wide vals).frame]

theorem completeTrain_uid (i : Instr) (x : Args) (wide : Bool) (d : Done) (pc : Dword) (tr : Train) :
    (completeTrain i x wide d pc tr).uid = tr.uid := by
  unfold completeTrain
  split <;> simp [selectWith_uid, writeResults_uid]
theorem completeTrain_block (i : Instr) (x : Args) (wide : Bool) (d : Done) (pc : Dword) (tr : Train) :
    (completeTrain i x wide d pc tr).block = tr.block := by
  unfold completeTrain
  split <;> simp [selectWith_block, writeResults_block]

theorem pushResults_trains (s : State) (tr : Train) (x : Args) (wide : Bool) (vals : List (Nat × Dword)) :
    (pushResults s tr x wide vals).trains = s.trains := by
  unfold pushResults
  split
  · split <;> rfl
  · rfl

theorem StandsAt.pushRelease (h : StandsAt s uid k p) (x : Args) (vals : List (Nat × Dword)) :
    StandsAt (pushRelease s k x vals) uid k p := by
  unfold Machine.pushRelease
  split
  · split
    · exact h
    · exact h.performEarlier
  · exact h

theorem StandsAt.complete (h : StandsAt s uid k p) (i : Instr) (x : Args) (wide : Bool) (pc : Dword) {d : Done}
    (hd : d.trap = none) : StandsAt (complete i x wide k pc s d) uid k p := by
  have hpush := h.pushRelease x d.vals
  unfold Machine.complete
  dsimp only
  split
  · exact hpush
  · next tr htr =>
    have htr' := (pushResults_train? (Machine.pushRelease s k x d.vals) tr x wide d.vals k).trans htr
    rw [hd, ← modTrain_eq htr' fun tr => completeTrain i x wide d pc tr]
    exact (hpush.of_trains (pushResults_trains ..)).modTrain (completeTrain_uid i x wide d pc)
      fun tr htr => (completeTrain_block i x wide d pc tr).symm ▸ htr

/-- A train that has not exited goes on after its last matrix instruction. -/
theorem StandsAt.settleDraining_eq (h : StandsAt s uid k (· ≠ some .draining)) : settleDraining s uid = s := by
  obtain ⟨tr, hfind, hp⟩ := h
  simp only [settleDraining, hfind, if_neg hp]

end

/-! ### The end of an entry (R132, R143) -/

/-- No train waits for the entry, and the train that issued it has not exited. -/
def Unattended (s : State) (e : MqEntry) : Prop :=
  ∀ k tr, trainByUid s e.uid = some (k, tr) → tr.block ≠ some (.matrixOp e.id) ∧ tr.block ≠ some .draining

/-- The entry of a train that went on leaves the queue, and nothing else happens (R132). -/
theorem finishEntry_of_unattended {s : State} {w : Nat} {e : MqEntry} (hfollow : e.follow = none) (hun : Unattended s e) :
    finishEntry s w e {} = dropEntry s w e := by
  have hsame : trainByUid (dropEntry s w e) e.uid = trainByUid s e.uid := rfl
  unfold finishEntry settleDraining
  cases hfind : trainByUid s e.uid with
  | none => simp only [hsame, hfind, hfollow]
  | some f =>
    obtain ⟨k, tr⟩ := f
    obtain ⟨hwait, hdrain⟩ := hun k tr hfind
    cases hargs : matrixArgs e.instr <;> simp only [hsame, hfind, hfollow, if_neg hwait, if_neg hdrain]

/-- The train that waits for an entry completes with it (R132, R143). -/
theorem finishEntry_completes {s : State} {w k : Nat} {e : MqEntry} {tr : Train} {x : Args} {d : Done}
    (hfind : trainByUid s e.uid = some (k, tr)) (hwait : tr.block = some (.matrixOp e.id)) (hfollow : e.follow = none)
    (hargs : matrixArgs e.instr = some x) (htrap : d.trap = none) :
    finishEntry s w e d = complete e.instr x false k e.pc (modTrain (unblock (dropEntry s w e) k) k fun tr =>
      { tr with rowprog := rowsAfter tr e, replies := [] }) d := by
  have hsame : trainByUid (dropEntry s w e) e.uid = some (k, tr) := hfind
  have hstands : StandsAt (dropEntry s w e) e.uid k (· ≠ some .draining) := ⟨tr, hfind, by simp [hwait]⟩
  have hdone := (hstands.unblock (by simp)).modTrain (f := fun tr => { tr with rowprog := rowsAfter tr e, replies := [] })
    (fun _ => rfl) fun _ hp => hp
  simp only [finishEntry, hsame, hargs, hwait, hfollow, if_true]
  exact (hdone.complete e.instr x false e.pc htrap).settleDraining_eq

/-- The flags of a pass change nothing of who waits. -/
theorem Unattended.flagTrain {s : State} {e : MqEntry} (hfollow : e.follow = none) (hun : Unattended s e) (fl : FlagSet) :
    Unattended (flagTrain s e fl) e := by
  unfold Machine.flagTrain
  rw [hfollow]
  cases hfind : trainByUid s e.uid with
  | none => exact hun
  | some f =>
    obtain ⟨k, tr⟩ := f
    have hstands : StandsAt s e.uid k fun b => b ≠ some (.matrixOp e.id) ∧ b ≠ some .draining := ⟨tr, hfind, hun k tr hfind⟩
    obtain ⟨tr', hfind', htr'⟩ := hstands.modTrain (f := fun tr => setFlags tr fl) (setFlags_uid · fl)
      fun tr hp => (setFlags_block tr fl).symm ▸ hp
    intro j tr'' hj
    cases hfind'.symm.trans hj
    exact htr'

/-! ### What an entry does at the head of its queue (R138 to R149) -/

section
variable {s : State} {w : Nat} {g : Wg} {e : MqEntry}

theorem stepEntry_wld (horphan : orphaned e = false) {x : Args} {t : Ty} (hi : e.instr = .wld x t) : stepEntry s w g e =
    finishEntry (putWg s w { g with wlatch := some ⟨t, tileNum x.a, wldScales g x.b e.val⟩ }) w e {} := by
  simp only [stepEntry, horphan, hi, Bool.false_eq_true, if_false]

theorem stepEntry_wldZero (horphan : orphaned e = false) {x : Args} (hi : e.instr = .wldZero x) :
    stepEntry s w g e = finishEntry (putWg s w { g with wlatch := none }) w e {} := by
  simp only [stepEntry, horphan, hi, Bool.false_eq_true, if_false]

theorem stepEntry_azero (horphan : orphaned e = false) {x : Args} (hi : e.instr = .azero x) :
    stepEntry s w g e = finishEntry (clearBanks s g.core (e.banks.flatMap AccBind.list)) w e {} := by
  simp only [stepEntry, horphan, hi, Bool.false_eq_true, if_false]

theorem stepEntry_afree (horphan : orphaned e = false) {x : Args} (hi : e.instr = .afree x) :
    stepEntry s w g e = finishEntry (putWg s w (returnBanks g (e.banks.flatMap AccBind.list))) w e {} := by
  simp only [stepEntry, horphan, hi, Bool.false_eq_true, if_false]

/-- The rows that the tile form of `mma` passes: bank, row of the bank, values and scale of each (R141). -/
def mmaTileRows (g : Wg) (e : MqEntry) (x : Args) (t : Ty) : List (AccBind × Nat × List Num × Int) :=
  (List.range e.rows).map fun i =>
    (bankOfRow e i, i % 16, rowValues t (spBytes g ((tileOf g (tileNum x.a)).base + i * rowBytes g) (rowBytes g)),
      scaleExp e.val.toNat + rowScale g x.c i)

theorem stepEntry_mmaTile (horphan : orphaned e = false) {x : Args} {t : Ty} (hi : e.instr = .mmaTile x t) :
    let p := passRows s g.core (mmaTileRows g e x t) (latchedCols g)
    stepEntry s w g e = finishEntry (modWg (flagTrain p.1 e p.2) w fun g =>
      noteSource g e.banks false (BitVec.ofNat 64 (tileNum x.a))) w e {} := by
  simp only [stepEntry, horphan, hi, Bool.false_eq_true, if_false]
  rfl

theorem stepEntry_mmt (horphan : orphaned e = false) {x : Args} {ta tw : Ty} (hi : e.instr = .mmt x ta tw) :
    stepEntry s w g e = stepMmt s w g e x ta tw := by
  simp only [stepEntry, horphan, hi, Bool.false_eq_true, if_false]

theorem stepEntry_mmaMemory (horphan : orphaned e = false) {k : Nat} {tr : Train} (hfind : trainByUid s e.uid = some (k, tr))
    {x : Args} {t : Ty} (hi : e.instr = .mmaMemory x t) : stepEntry s w g e = stepMmaMemory s w k g e x t := by
  simp only [stepEntry, horphan, hi, hfind, Bool.false_eq_true, if_false]
  rfl

theorem stepEntry_drain (horphan : orphaned e = false) {k : Nat} {tr : Train} (hfind : trainByUid s e.uid = some (k, tr))
    {x : Args} {t : Ty} {z : Bool} (hi : e.instr = .adrainReg x t z ∨ e.instr = .adrainSp x t z ∨ e.instr = .adrainGm x t z) :
    stepEntry s w g e = stepDrain s w k g e := by
  obtain hi | hi | hi := hi <;> simp only [stepEntry, horphan, hi, hfind, Bool.false_eq_true, if_false] <;> rfl

end

/-! ### One row of the memory form of `mma` (R142, R189) -/

/-- A row that is reached passes into its bank; the last one ends the entry. -/
theorem stepMmaMemory_ok {s s1 : State} {w k : Nat} {g : Wg} {e : MqEntry} {x : Args} {t : Ty} {l : List (Nat × Dword × Xl)}
    (hplaces : rowPlaces s k e.row .load (e.addr + BitVec.ofNat 64 (e.done * bitsAt (extWord x) 0 32)) (rowBytes g)
      (fun _ => .read 64) (nearRow k) = (s1, .ok l)) :
    let s2 := settleRow s1 k l
    let p := passRows s2 g.core [(bankOfRow e e.done, e.done % 16, rowValues t (rowData s2 k l),
      scaleExp e.val.toNat + rowScale g x.c e.done)] (latchedCols g)
    let e' := { e with done := e.done + 1, row := [] }
    let s3 := modTrain (modWg (flagTrain p.1 e p.2) w fun g =>
      { noteSource g [bankOfRow e e.done] true e.addr with mq := g.mq.map fun m => if m.id = e.id then e' else m }) k
      fun tr => { tr with replies := [] }
    stepMmaMemory s w k g e x t = if e.rows ≤ e.done + 1 then finishEntry s3 w e' {} else s3 := by
  simp only [stepMmaMemory, hplaces]

/-! ### Drains (R147, R148) -/

section
variable {s : State} {w k : Nat} {g : Wg} {e : MqEntry} {x : Args} {t : Ty} {z : Bool}

theorem matrixArgs_of_drain (hi : e.instr = .adrainReg x t z ∨ e.instr = .adrainSp x t z ∨ e.instr = .adrainGm x t z) :
    matrixArgs e.instr = some x := by
  obtain hi | hi | hi := hi <;> rw [hi, matrixArgs]

/-- Banks that differ end the drain with MISMATCH, and nothing is written (R148). -/
theorem stepDrain_mismatch {d : Nat × Nat × F48 × F48} (hargs : matrixArgs e.instr = some x)
    (hd : mismatch s g.core (e.banks.getD 0 noBind) = some d) : stepDrain s w k g e =
      raiseAt (unblock (dropEntry s w e) k) k e.pc (mismatchRec g e (accNum x.a) (e.banks.getD 0 noBind) d) := by
  simp only [stepDrain, hd, hargs, Option.elim_some]

/-- Pieces that are allowed raise no violation. -/
theorem spViolations_ok (l : List (Nat × Nat)) : spViolations (l.map fun p => (p.1, p.2, SpFate.ok)) = [] := by
  simp [spViolations, List.filterMap_map]

variable (hsame : mismatch s g.core (e.banks.getD 0 noBind) = none)
include hsame

theorem stepDrain_reg {d : BitVec 8} (hi : e.instr = .adrainReg x t z) (hd : x.d = .v d) :
    let row := drainRow s g.core (e.banks.getD 0 noBind) t
    stepDrain s w k g e = endDrain
      (modTrain (flagTrain s e (joinFlags ((List.range 16).map fun i => (row i).2))) k fun tr =>
        (List.range 16).foldl (fun tr i => drainToReg tr (d.toNat + i) (row i).1) tr) w g e (e.banks.getD 0 noBind) z
      { latch := some (tids.foldl (fun m t => Tab.write 0 m t (lowWord ((row 0).1.getD t 0))) []) } := by
  simp only [stepDrain, hsame, hi, hd, List.foldl_map, List.map_map]
  rfl

theorem stepDrain_sp (hi : e.instr = .adrainSp x t z) (hfates : ∀ p ∈ drainPieces t e.addr.toNat, spFate g true p.2 64 = .ok) :
    let row := drainRow s g.core (e.banks.getD 0 noBind) t
    let bs := (List.range 16).flatMap fun i => drainBytes t (row i).1
    stepDrain s w k g e = endDrain
      (modWg (flagTrain s e (joinFlags ((List.range 16).map fun i => (row i).2))) w fun g =>
        (drainPieces t e.addr.toNat).foldl (fun g p => spPut g p.2 ((bs.drop (64 * p.1)).take 64)) g) w g e
      (e.banks.getD 0 noBind) z {} := by
  have hall : ((drainPieces t e.addr.toNat).map fun p => (p.1, p.2, spFate g true p.2 64)) =
      (drainPieces t e.addr.toNat).map fun p => (p.1, p.2, SpFate.ok) :=
    List.map_congr_left fun p hp => by rw [hfates p hp]
  simp only [stepDrain, hsame, hi, hall, spViolations_ok, List.foldl_map, List.map_map, List.flatMap_map]
  rfl

theorem stepDrain_gm (hi : e.instr = .adrainGm x t z) :
    stepDrain s w k g e = drainRows w k g (e.banks.getD 0 noBind) x t z (16 - e.done) e s := by
  simp only [stepDrain, hsame, hi]

end

section
variable {s s1 : State} {w k n : Nat} {g : Wg} {b : AccBind} {x : Args} {t : Ty} {z : Bool} {e : MqEntry}
  {l : List (Nat × Dword × Xl)}

/-- Where row `e.done` of a memory drain goes. -/
def drainPlaces (s : State) (k : Nat) (g : Wg) (b : AccBind) (x : Args) (t : Ty) (e : MqEntry) : State × RowPlaces :=
  let bs := drainBytes t (drainRow s g.core b t e.done).1
  rowPlaces s k e.row .store (e.addr + BitVec.ofNat 64 (e.done * bitsAt (extWord x) 0 32)) bs.length
    (fun p => .write ((bs.drop (64 * p)).take 64)) fun s l => (storePieces s k bs l, l.map fun p => (p.1, .data []))

/-- A row that is reached is written, and the rows behind it follow (R147). -/
theorem drainRows_ok (h : drainPlaces s k g b x t e = (s1, .ok l)) :
    let row := drainRow s g.core b t e.done
    drainRows w k g b x t z (n + 1) e s = drainRows w k g b x t z n { e with done := e.done + 1, row := [] }
      (modTrain (flagTrain (storeRow s1 k (drainBytes t row.1) l) e row.2) k fun tr => { tr with replies := [] }) := by
  unfold drainPlaces at h
  simp only [drainRows, h]

/-- A row of which some pieces lie in other modules waits for them (R189). -/
theorem drainRows_asked (h : drainPlaces s k g b x t e = (s1, .asked l)) :
    drainRows w k g b x t z (n + 1) e s = putEntryIn s1 w { e with row := l } := by
  unfold drainPlaces at h
  simp only [drainRows, h]

end

/-! ### Steps of the array, of requests for banks and of follow-ons (R133, R136, R149) -/

theorem exec_arrayStep {s : State} {core w : Nat} {g : Wg} {e : MqEntry} {rest : List MqEntry} (hnext : nextForArray s core = some w)
    (hg : wg? s w = some g) (hmq : g.mq = e :: rest) :
    exec (.arrayStep core) s = .next (stepEntry (modCore s core fun co => { co with array := w }) w g e) := by
  simp only [exec, execArrayStep, unitStep, hnext, hg, hmq]

theorem exec_aallocBanksFree {s : State} {k w need id since : Nat} {tr : Train} {g : Wg} {e : MqEntry} {rest : List MqEntry} {x : Args}
    (htr : train? s k = some tr) (hb : tr.block = some (.aalloc need id since)) (hw : tr.wg = some w)
    (hwait : tr.atWait = some (.aalloc x)) (hg : wg? s w = some g) (hmq : g.mq = e :: rest) (hid : e.id = id)
    (hfree : banksFree s w need id = true) : exec (.aallocBanksFree k) s =
      .next (complete (.aalloc x) x false k tr.pc (unblock (serveBanks s w id need) k) {}) := by
  have hserve : canServe s w need id = true := by simp [canServe, hg, hmq, hid, hfree]
  obtain ⟨⟩ := tr
  cases hb
  cases hw
  cases hwait
  simp only [exec, execAallocBanksFree, unitStep, htr, hserve, if_true]

theorem exec_matrixQueueRoom {s : State} {k w : Nat} {tr : Train} {g : Wg} (htr : train? s k = some tr)
    (hb : tr.block = some .matrixQueue) (hw : tr.wg = some w) (hg : wg? s w = some g) (hroom : g.mq.length < 8) :
    exec (.matrixQueueRoom k) s = .next (unblock s k) := by
  obtain ⟨⟩ := tr
  cases hb
  cases hw
  simp only [exec, execMatrixQueueRoom, unitStep, htr, hg, Option.any_some, hroom, decide_true, if_true]

/-- A follow-on has its scale in its instruction (R365). -/
theorem followInstr_scale {o : EngOp} {x : Args} {t : Ty} (h : followInstr o = .mmaTile x t) : ∃ i, x.b = .imm i := by
  cases h
  exact ⟨_, rfl⟩

theorem firstFail_eq_none {l : List (Nat × Bool)} (h : ∀ e ∈ l, e.2 = false) : firstFail l = none := by
  simpa [firstFail] using h

/-- A follow-on that finds room and its tiles READY, and whose checks pass, is placed (R149). -/
theorem exec_followOnMma {s : State} {op w : Nat} {o : EngOp} {g : Wg} {x : Args} {t : Ty} {i : BitVec 8} {m : Nat × Bool}
    (ho : Tab.get? s.ops op = some o) (hstate : o.state = .placed) (hw : o.wg.bind (wgByUid s) = some w) (hg : wg? s w = some g)
    (hinstr : followInstr o = .mmaTile x t) (hnew : ∀ e ∈ g.mq, e.follow ≠ some op) (hroom : g.mq.length < 8)
    (htiles : ∀ n ∈ tilesOf [x.a, x.c], (tileOf g n).state = 2) (hscale : x.b = .imm i)
    (hrows : mmaRows x.b (immValue .n64 i) (tileSize g x.a) (rowBytes g) = m)
    (hchecks : ∀ e ∈ (mmaTileChecks s g t (accNum x.d) x.b (immValue .n64 i) x.a x.c).2, e.2 = false) :
    exec (.followOnMma op) s = .next (enqueue s w
      { id := 0, instr := .mmaTile x t, pc := o.pc, uid := o.uid, trn := 0, banks := bindsOf g (accNum x.d) (ceilDiv m.1 16)
        val := immValue .n64 i, rows := m.1, tiles := tilesOf [x.a, x.c], follow := some op }).2 := by
  have hunplaced : g.mq.any (fun e => e.follow = some op) = false := by simpa using hnew
  have hready : (tilesOf [x.a, x.c]).any (fun n => (tileOf g n).state ≠ 2) = false := by simpa using htiles
  have hfull : decide (g.mq.length ≥ 8) = false := by simpa using hroom
  have hpass := firstFail_eq_none hchecks
  have hm : (mmaTileChecks s g t (accNum x.d) x.b (immValue .n64 i) x.a x.c).1 = m.1 := by rw [mmaTileChecks_eq, hrows]
  rw [hscale] at hpass hm
  simp only [exec, execFollowOnMma, unitStep, placeFollowOn, ho, hstate, hw, hg, hinstr, hunplaced, hready, hfull, hscale, hpass, hm,
    ne_eq, not_true_eq_false, if_false, Bool.or_self, Bool.false_eq_true]

/-- Settles O31: the head entry of an instruction does what `stepEntry_<instruction>` says. It ends in `finishEntry`, which drops the entry
where no train waits for it (`finishEntry_of_unattended`; the flags of a pass leave that so) and completes the train that waits
(`finishEntry_completes`), since the train with an identity stays where it stands (`StandsAt`). -/
theorem theArrayPerformsTheEntryAtTheHead : Obligations.TheArrayPerformsTheEntryAtTheHead := by
  unfold Obligations.TheArrayPerformsTheEntryAtTheHead
  refine ⟨fun s core w g e rest hnext hg hmq => exec_arrayStep hnext hg hmq,
    fun s w g e hfollow horphan hg (hun : Unattended s e) => ?_,
    fun s w g e k tr hfind horphan hg => ?_, fun s w k g b x t z e => ?_,
    fun s w e k tr x d hfind hwait hfollow hargs htrap => finishEntry_completes hfind hwait hfollow hargs htrap,
    fun s k tr w g e rest need id since x htr hb hw hwait hg hmq hid hfree =>
      exec_aallocBanksFree htr hb hw hwait hg hmq hid hfree,
    fun s k tr w g htr hb hw hg hroom => released htr (exec_matrixQueueRoom htr hb hw hg hroom),
    fun s op o w g x t m ho hstate hw hg hinstr hnew hroom htiles => ?_⟩
  · refine ⟨fun x t hi => ?_, fun x hi => ?_, fun x hi => ?_, fun x hi => ?_, fun x t hi => ?_,
      fun x ta tw m ks nb hi hshape => ?_⟩
    · exact (stepEntry_wld horphan hi).trans (finishEntry_of_unattended hfollow hun)
    · exact (stepEntry_wldZero horphan hi).trans (finishEntry_of_unattended hfollow hun)
    · exact (stepEntry_azero horphan hi).trans (finishEntry_of_unattended hfollow hun)
    · exact (stepEntry_afree horphan hi).trans (finishEntry_of_unattended hfollow hun)
    · intro rows p
      have hpassed : Unattended p.1 e := hun
      exact (stepEntry_mmaTile horphan hi).trans (finishEntry_of_unattended hfollow (hpassed.flagTrain hfollow p.2))
    · intro rbk r k n rb sw rows p d last more s'
      have hpassed : Unattended p.1 e := hun
      have hstep : Unattended s' e := hpassed.flagTrain hfollow p.2
      have hrun : stepMmt s w g e x ta tw = if last then finishEntry s' w e {} else s' := by
        cases hshape
        exact (if_congr decide_eq_true_iff rfl rfl).symm
      rw [stepEntry_mmt horphan hi, hrun, finishEntry_of_unattended hfollow hstep]
  · refine ⟨fun x t s1 l hi hplaces => (stepEntry_mmaMemory horphan hfind hi).trans (stepMmaMemory_ok hplaces),
      fun x t z hi => ?_⟩
    intro b row fl zero
    have hdrain := stepEntry_drain (w := w) (g := g) horphan hfind hi
    refine ⟨fun d hd => hdrain.trans (stepDrain_mismatch (matrixArgs_of_drain hi) hd),
      fun hsame => ⟨fun d hi hd => ?_, fun hi hfates => ?_, fun hi => ?_⟩⟩
    · exact hdrain.trans (stepDrain_reg hsame hi hd)
    · exact hdrain.trans (stepDrain_sp hsame hi hfates)
    · exact hdrain.trans (stepDrain_gm hsame hi)
  · exact ⟨rfl, fun n s1 l => ⟨drainRows_ok, drainRows_asked⟩⟩
  · intro val hrows hlatch hpos hmax hwhole hsize hscale hbound
    obtain ⟨i, hi⟩ := followInstr_scale hinstr
    have hval : val = immValue .n64 i := by simp only [val, hi]
    clear_value val
    subst hval
    exact exec_followOnMma ho hstate hw hg hinstr hnew hroom htiles hi hrows
      (mmaTileChecks_ok hrows hlatch hpos hmax hwhole hsize hscale hbound)

end Sys2Proof.Machine
end

section
/-! PROOFS. Releases perform every earlier access of their train (O53). -/

namespace Sys2Proof.Machine

/-- Settles O53: the loads of the train return and its stores are performed oldest first (`performEarlier_train`), and nothing but memory and
the train changes (`performEarlier_frame`). -/
theorem aReleasePerformsEveryEarlierAccess : Obligations.AReleasePerformsEveryEarlierAccess := by
  unfold Obligations.AReleasePerformsEveryEarlierAccess
  intro s k tr htr
  obtain ⟨tr', htr', hloads, hstores, -, hmem⟩ := performEarlier_train htr
  obtain ⟨ts, ms, hframe, hothers⟩ := performEarlier_frame s k
  exact ⟨⟨tr', htr', hloads, hstores⟩, hmem, fun j hj => by rw [hframe]; exact hothers j hj⟩

end Sys2Proof.Machine
end

section
/-! PROOFS. Global accesses reach their places, and violating threads load zero (O10, O52). -/

namespace Sys2Proof.Machine

/-! ### Global accesses whose places lie in this module (R173 to R178, R186) -/

section
variable {c : Ctx} {s s1 s2 : State} {t : Ty} {sc : Nat} {l : List (Nat × Dword × Xl)}

/-- Without a place in another module an instruction asks none, and goes on with the places of its translation. -/
theorem withPlaces_of_local {acc : Access} {n : Nat} {addrs : List (Nat × Dword)} (hnew : c.tr.access = none)
    (hplaces : translateAll s c.tr acc n addrs = (s2, .ok l)) (hlocal : remotePlaces l = []) (op : Nat → RemoteOp)
    (go : State → List (Nat × Dword × Xl) → Res) (near : Option Near) : withPlaces c s acc n addrs op go near = go s2 l := by
  simp only [withPlaces, hnew, hplaces, hlocal, askRemote_nil]

theorem train?_clearReplies {k : Nat} {tr : Train} (htr : train? s k = some tr) :
    train? (clearReplies s k) k = some { tr with replies := [], access := none } := by
  rw [clearReplies, modTrain_eq htr, train?_putTrain, if_pos rfl]

/-- A seventeenth load makes the oldest return. -/
theorem loadRoom_clearReplies {k : Nat} {tr : Train} (htr : train? s k = some tr) : loadRoom (clearReplies s k) k =
    if tr.loads.length ≥ 16 then returnLoad (clearReplies s k) k 0 else clearReplies s k := by
  simp only [loadRoom, train?_clearReplies htr]

/-- The threads that violate load zero. -/
def zeroed (c : Ctx) (l : List (Nat × Dword × Xl)) : List (Nat × Dword) := (violations c.tr.replies l).map fun e => (e.1, 0)

/-- The outstanding load of the places in this module. -/
def loadOf (c : Ctx) (t : Ty) (l : List (Nat × Nat)) : Option PendLoad :=
  if l.isEmpty then none else some { u := c.x.u, dst := c.x.d, ty := t, parts := l }

/-- A load without ACQ leaves its places outstanding, once there is room. -/
theorem loadBody_outstanding (hnew : c.tr.access = none)
    (hplaces : translateAll s c.tr .load (tyBytes t) (c.lanes.map fun l => (l, globalAddr c sc true l)) = (s2, .ok l))
    (hlocal : remotePlaces l = []) (horder : extOrder c.x ≠ 1) : loadBody t sc c s = .done (loadRoom (clearReplies s2 c.k) c.k)
      { vals := zeroed c l, load := loadOf c t (localPlaces l), trap := violationTrap c (violations c.tr.replies l) } := by
  rw [loadBody, withPlaces_of_local hnew hplaces hlocal]
  simp only [hlocal, if_neg horder, List.map_nil, List.filter_nil, List.nil_append]
  rfl

/-- A load with ACQ has the bytes at once, after the outstanding loads of the same bytes and the train's own stores. -/
theorem loadBody_acquire {tr : Train} (hnew : c.tr.access = none)
    (hplaces : translateAll s c.tr .load (tyBytes t) (c.lanes.map fun l => (l, globalAddr c sc true l)) = (s2, .ok l))
    (hlocal : remotePlaces l = []) (horder : extOrder c.x = 1)
    (htr : train? (settleLoads (clearReplies s2 c.k) c.k (localPlaces l) (tyBytes t)) c.k = some tr) :
    loadBody t sc c s = .done (settleLoads (clearReplies s2 c.k) c.k (localPlaces l) (tyBytes t))
      { vals := (localPlaces l).map (fun e =>
          (e.1, placed t (trainMem (settleLoads (clearReplies s2 c.k) c.k (localPlaces l) (tyBytes t)) tr e.2 (tyBytes t)))) ++ zeroed c l
        trap := violationTrap c (violations c.tr.replies l) } := by
  rw [loadBody, withPlaces_of_local hnew hplaces hlocal]
  simp only [hlocal, if_pos horder, List.map_nil, List.filter_nil, List.nil_append, loadNow, htr, List.map_map, Function.comp_def]
  rfl

/-- A release performs the earlier accesses of its train first. -/
def storeStart (c : Ctx) (s : State) : State := if extOrder c.x = 2 then performEarlier s c.k else s

/-- A store leaves its places outstanding. -/
theorem storeBody_outstanding (hnew : c.tr.access = none)
    (hplaces : translateAll (storeStart c s) c.tr .store (tyBytes t) (c.lanes.map fun l => (l, globalAddr c sc false l)) = (s2, .ok l))
    (hlocal : remotePlaces l = []) : storeBody t sc c s = .done
      (issueStores (clearReplies s2 c.k) c.k (tyBytes t) (extHint c.x = 2) (fun l => (rdOpnd c c.x.c t l).toNat) (localPlaces l))
      { trap := violationTrap c (violations c.tr.replies l) } := by
  rw [storeBody, ← storeStart, withPlaces_of_local hnew hplaces hlocal]

/-- A store whose requests are answered goes on with the places that it had. -/
theorem storeBody_resumed {a : PendAccess} (ha : c.tr.access = some a) : storeBody t sc c s = .done
      (issueStores (clearReplies (storeStart c s) c.k) c.k (tyBytes t) (extHint c.x = 2) (fun l => (rdOpnd c c.x.c t l).toNat)
        (localPlaces a.places)) { trap := violationTrap c (violations c.tr.replies a.places) } := by
  rw [storeBody, ← storeStart, withPlaces_resumed ha]

end

/-! ### Requests to other modules (R189, R207) -/

/-- The accesses that an instruction makes beside its requests leave it no place in this module. -/
theorem localPlaces_makeNear {s : State} {near : Near} {l : List (Nat × Dword × Xl)} (k : Nat)
    (hanswers : (near s (localPlaces l)).2.map (·.1) = (localPlaces l).map (·.1)) : localPlaces (makeNear s k near l).2 = [] := by
  rw [localPlaces, List.filterMap_eq_nil_iff]
  intro e he
  obtain ⟨e0, he0, rfl⟩ := List.mem_map.1 (show e ∈ l.map (asAnswered _ _) from he)
  cases hplace : e0.2.2 with
  | mem pa =>
    have hlocal : (e0.1, pa) ∈ localPlaces l := List.mem_filterMap.2 ⟨e0, he0, by simp only [hplace]⟩
    have hanswered : (near s (localPlaces l)).2.any (fun a => decide (a.1 = e0.1)) = true := by
      have hkey : e0.1 ∈ (near s (localPlaces l)).2.map (·.1) := by rw [hanswers]; exact List.mem_map.2 ⟨_, hlocal, rfl⟩
      obtain ⟨a, ha, hkey⟩ := List.mem_map.1 hkey
      exact List.any_eq_true.2 ⟨a, ha, decide_eq_true hkey⟩
    simp only [asAnswered, hplace, hanswered, if_true]
  | fault pte => simp only [asAnswered, hplace]
  | bad cause => simp only [asAnswered, hplace]
  | remote m pa => simp only [asAnswered, hplace]

/-- Settles O10: every place lies in this module, so a load and a store go on with their places (`loadBody_outstanding`,
`loadBody_acquire`, `storeBody_outstanding`); an answered store goes on with those that it had (`storeBody_resumed`). -/
theorem globalAccessesReachTheirPlaces : Obligations.GlobalAccessesReachTheirPlaces := by
  unfold Obligations.GlobalAccessesReachTheirPlaces
  refine ⟨fun x t sc s k c s' pa s2 h ht => ?_, fun x t sc s k c s' pa s2 h ht => ?_,
    fun c s acc n addrs op go near s1 l s2 ids hnew hplaces hask => ?_,
    fun s k near l hanswers => localPlaces_makeNear k hanswers, fun x t sc s k c s' a h ha => ?_⟩
  · obtain rfl := h.seen.args
    obtain rfl := h.seen.slot
    have htr : train? s2 c.k = some c.tr := (ht.train? c.k).trans h.seen.train
    have hnone : zeroed c (c.lanes.map fun l => (l, globalAddr c sc.val true l, Xl.mem (pa l))) = [] := by
      rw [zeroed, violations_mem, List.map_nil]
    refine ⟨fun horder => ?_, fun horder => ?_⟩
    · have hbody := loadBody_outstanding ht.1 ht.2 (remotePlaces_mem ..) horder
      rw [loadRoom_clearReplies htr, hnone, violations_mem, violationTrap_nil, localPlaces_mem, loadOf, List.isEmpty_map] at hbody
      exact endsWith_of_done h rfl hbody
    · obtain ⟨tr, hsettled⟩ := Option.isSome_iff_exists.1
        (settle_train (train?_clearReplies htr) (c.lanes.map fun l => (l, pa l)) (tyBytes t))
      refine ⟨tr, hsettled, endsWith_of_done h rfl ?_⟩
      rw [← localPlaces_mem c.lanes (globalAddr c sc.val true)] at hsettled
      have hbody := loadBody_acquire ht.1 ht.2 (remotePlaces_mem ..) horder hsettled
      rw [hnone, violations_mem, violationTrap_nil, localPlaces_mem, List.append_nil, List.map_map] at hbody
      exact hbody
  · obtain rfl := h.seen.args
    obtain rfl := h.seen.slot
    have hbody := storeBody_outstanding ht.1 ht.2 (remotePlaces_mem ..)
    rw [violations_mem, violationTrap_nil, localPlaces_mem] at hbody
    exact endsWith_of_done h rfl hbody
  · simp only [withPlaces, hnew, hplaces, hask, Option.elim_some]
  · obtain rfl := h.seen.args
    obtain rfl := h.seen.slot
    exact endsWith_of_done h rfl (storeBody_resumed ha)

/-! ### Violations (R163) -/

/-- Places that are reached here or violate. -/
def Checked (l : List (Nat × Dword × Xl)) : Prop := ∀ e ∈ l, (∃ pa, e.2.2 = .mem pa) ∨ ∃ cause, e.2.2 = .bad cause

theorem Checked.remotePlaces_eq {l : List (Nat × Dword × Xl)} (h : Checked l) : remotePlaces l = [] := by
  rw [remotePlaces, List.filterMap_eq_nil_iff]
  intro e he
  rcases h e he with ⟨pa, hmem⟩ | ⟨cause, hbad⟩
  · simp only [hmem]
  · simp only [hbad]

/-- A list of zeros for the threads that violate, written as a filter of their places. -/
theorem Checked.zeroed_eq {c : Ctx} {l : List (Nat × Dword × Xl)} (h : Checked l) {f : Nat × Dword × Xl → Option (Nat × Dword)}
    (hmem : ∀ e pa, e.2.2 = .mem pa → f e = none) (hbad : ∀ e cause, e.2.2 = .bad cause → f e = some (e.1, 0)) :
    zeroed c l = l.filterMap f := by
  rw [zeroed, violations, List.map_filterMap]
  refine List.filterMap_congr fun e he => ?_
  rcases h e he with ⟨pa, hplace⟩ | ⟨cause, hplace⟩
  · simp only [hmem e pa hplace, hplace, Option.map_none]
  · simp only [hbad e cause hplace, hplace, Option.map_some]

/-- Settles O52: no place lies in another module, so the accesses go on (`loadBody_outstanding`, `storeBody_outstanding`), the violating
threads load zero (`Checked.zeroed_eq`), and the trap of the violations follows. -/
theorem violatingThreadsLoadZeroAndTrapAfterwards : Obligations.ViolatingThreadsLoadZeroAndTrapAfterwards := by
  unfold Obligations.ViolatingThreadsLoadZeroAndTrapAfterwards
  refine ⟨fun x t sc s k c s' l s2 h horder hnew hplaces (hchecked : Checked l) hroom => ?_,
    fun x t sc s k c s' l s2 h horder hnew hplaces (hchecked : Checked l) => ?_, fun c tid va cause rest => rfl⟩
  · obtain rfl := h.seen.args
    obtain rfl := h.seen.slot
    have htr : train? s2 c.k = some c.tr := by
      have hcores := translateAll_sameButCores c.tr .load (tyBytes t) (c.lanes.map fun l => (l, globalAddr c sc.val true l)) s'
      rw [hplaces] at hcores
      rw [show s2 = _ from hcores]
      exact h.seen.train
    have hbody := loadBody_outstanding hnew hplaces hchecked.remotePlaces_eq horder
    rw [loadRoom_clearReplies htr, if_neg (by omega), loadOf] at hbody
    simp only [List.isEmpty_iff] at hbody
    refine endsWith_of_done h rfl ?_
    rw [← hchecked.zeroed_eq (c := c) ?mem ?bad, hbody]
    case mem => intro e pa hplace; rw [hplace]
    case bad => intro e cause hplace; rw [hplace]
  · obtain rfl := h.seen.args
    obtain rfl := h.seen.slot
    refine endsWith_of_done h rfl (storeBody_outstanding hnew ?_ hchecked.remotePlaces_eq)
    rw [storeStart, if_neg horder]; exact hplaces

end Sys2Proof.Machine
end

section
/-! PROOFS. Translation faults park, and trap records name their threads and their resume point (O51, O48). -/

namespace Sys2Proof.Machine

/-! ### Interrupt bits (R394) -/

/-- An interrupt changes its partition's registers and what leaves the module. -/
theorem setIrq_frame (s : State) (p b : Nat) : ∃ ps ob, setIrq s p b = { s with parts := ps, outbox := ob } := by
  unfold setIrq
  dsimp only
  split
  · exact ⟨s.parts, s.outbox, rfl⟩
  · split
    · exact ⟨_, _, rfl⟩
    · exact ⟨_, s.outbox, rfl⟩

@[simp] theorem setIrq_mem (s : State) (p b : Nat) : (setIrq s p b).mem = s.mem := by
  obtain ⟨_, _, h⟩ := setIrq_frame s p b; rw [h]
@[simp] theorem setIrq_faults (s : State) (p b : Nat) : (setIrq s p b).faults = s.faults := by
  obtain ⟨_, _, h⟩ := setIrq_frame s p b; rw [h]
@[simp] theorem train?_setIrq (s : State) (p b k : Nat) : train? (setIrq s p b) k = train? s k := by
  obtain ⟨_, _, h⟩ := setIrq_frame s p b; rw [h]; rfl
@[simp] theorem readMem_setIrq (s : State) (p b pa n : Nat) : readMem (setIrq s p b) pa n = readMem s pa n := by
  rw [readMem, setIrq_mem]; rfl

/-- An interrupt sets its bit and no other register of the partition. -/
theorem partAt_setIrq (s : State) (p b : Nat) :
    partAt (setIrq s p b) p = { partAt s p with irq := (partAt s p).irq ||| (1#64 <<< b) } := by
  unfold setIrq
  dsimp only
  split
  · next hset =>
    have hsame : (partAt s p).irq ||| (1#64 <<< b) = (partAt s p).irq := by
      ext i hi
      by_cases hib : i = b
      · subst hib; simp_all
      · have : (1#64 <<< b)[i] = false := by simp; omega
        rw [BitVec.getElem_or, this, Bool.or_false]
    rw [hsame]
  · have hpart : partAt (modPart s p fun q => { q with irq := q.irq ||| (1#64 <<< b) }) p =
        { partAt s p with irq := (partAt s p).irq ||| (1#64 <<< b) } := by simp
    split
    · exact hpart
    · exact hpart

theorem setIrq_sets (s : State) (p : Nat) {b : Nat} (hb : b < 64) : (partAt (setIrq s p b) p).irq.getLsbD b = true := by
  rw [partAt_setIrq]; simp [hb]

/-! ### Parking (R159, R161) -/

/-- A fault at a page-table entry that no entry of the buffer records takes the lowest free entry of its cluster and interrupts its
partition. -/
theorem takeEntry_of_new {s : State} {cl i : Nat} {f : FaultEnt} (hnew : ∀ e ∈ s.faults, e.2.pte ≠ f.pte)
    (hfree : Tab.firstFree s.faults 1024 (cl * 1024) = some i) :
    takeEntry s cl f =
      (some i, setIrq { s with nextId := s.nextId + 1, faults := Tab.put s.faults i { f with order := s.nextId } } f.part 0) := by
  have hfind : s.faults.find? (fun e => decide (e.1 / 1024 = cl) && decide (e.2.asid = f.asid) && decide (e.2.pte = f.pte)
      && decide (e.2.status = 0) && decide (e.2.kind ≠ 3)) = none :=
    List.find?_eq_none.2 fun e he => by simp [hnew e he]
  unfold takeEntry
  simp only [hfind, hfree, freshId]

/-- Settles O51: no entry stands at the page-table entry, so the fault takes a free one (`takeEntry_of_new`), in which it interrupts
the partition (`setIrq_sets`), and the train parks on it. -/
theorem translationFaultsPark : Obligations.TranslationFaultsPark := by
  unfold Obligations.TranslationFaultsPark
  intro s k tr head va kind pte pc skip mask i htr hnew hfree
  let f : FaultEnt := { va := va, asid := tr.asid, part := tr.part, kind := kind, core := tr.core % 4, slot := tr.slot
                        pc := pc, links := 1, pte := pte }
  let s1 : State := { s with nextId := s.nextId + 1, faults := Tab.put s.faults i { f with order := s.nextId } }
  have hpark : park s k head va kind pte pc skip mask =
      modTrain (setIrq s1 tr.part 0) k fun tr => { rewindTo tr head with block := some (.fault i va pc skip mask) } := by
    have htake : takeFault s tr va kind pte pc = (some i, setIrq s1 tr.part 0) := takeEntry_of_new (f := f) hnew hfree
    simp only [park, htr, htake]
  have hentry : Tab.get? (park s k head va kind pte pc skip mask).faults i = some { f with order := s.nextId } := by
    rw [hpark, modTrain_faults, setIrq_faults]; exact Tab.get?_put_self ..
  refine ⟨_, hentry, rfl, rfl, rfl, rfl, rfl, rfl, rfl, rfl, ?_, ?_, fun a => ?_⟩
  · have htr1 : train? s1 k = some tr := htr
    rw [hpark, train?_modTrain, train?_setIrq, htr1, if_pos rfl]; rfl
  · rw [hpark]; exact setIrq_sets s1 tr.part (by decide)
  · rw [hpark, readByte, modTrain_mem, setIrq_mem]; rfl

/-! ### Trap records (R163, R378, R379) -/

theorem logTrap_of_unlogged {s : State} {r : TrapRec} (h : loggedCause r = false) (k : Nat) : logTrap s k r = s := by
  unfold logTrap
  split
  · rfl
  · rw [if_neg (by simp [h])]

theorem logTrap_of_logged {s : State} {k : Nat} {r : TrapRec} {tr : Train} (htr : train? s k = some tr) (h : loggedCause r = true) :
    logTrap s k r = logViolation s tr.part r.addr r.pc r.cause tr.core tr.asid tr.slot r.mask := by
  simp only [logTrap, htr, h, if_true]

/-- Writing a number beside the place read leaves what is read there. -/
theorem readMem_writeMem_ne (s : State) {pa n a m : Nat} (v : Nat) (h : a + m ≤ pa ∨ pa + n ≤ a) :
    readMem (writeMem s pa n v) a m = readMem s a m := by
  simp only [readMem, writeMem, writeBytes]
  rw [readList_writeList _ _ _ _ _ _ (by rw [bytesOf_length]; exact h)]

theorem readMem_writeMem_self (s : State) (pa n v : Nat) : readMem (writeMem s pa n v) pa n = v % 256 ^ n := by
  have h := readList_writeList_self unwritten (bytesOf v n) s.mem pa
  rw [bytesOf_length] at h
  simp only [readMem, writeMem, writeBytes, h, ofBytes_bytesOf]

/-- The place of the next entry of a partition's violation log (R406). -/
def nextLogEntry (s : State) (p : Nat) : Nat :=
  (partAt s p).vlogbase.toNat + 32 * ((partAt s p).vloghead.toNat % 2 ^ (partAt s p).vlogsz.toNat)

theorem partAt_writeMem (s : State) (pa n v p : Nat) : partAt (writeMem s pa n v) p = partAt s p := rfl

theorem partAt_ite {c : Prop} [Decidable c] {s t : State} {p : Nat} {q : Part} (hs : partAt s p = q) (ht : partAt t p = q) :
    partAt (if c then s else t) p = q := by
  split
  · exact hs
  · exact ht

/-- A violation writes memory at most, advances the head of the log and interrupts the partition. -/
theorem logViolation_eq (s : State) (p : Nat) (addr pc : Dword) (cause core asid slot : Nat) (mask : Mask) :
    ∃ t, logViolation s p addr pc cause core asid slot mask = setIrq (modPart t p fun q => { q with vloghead := q.vloghead + 1 }) p 1 ∧
      partAt t p = partAt s p := by
  refine ⟨_, rfl, partAt_ite ?_ rfl⟩
  rw [partAt_writeMem, partAt_writeMem, partAt_writeMem, partAt_writeMem]

theorem partAt_logViolation (s : State) (p : Nat) (addr pc : Dword) (cause core asid slot : Nat) (mask : Mask) :
    partAt (logViolation s p addr pc cause core asid slot mask) p =
      { partAt s p with vloghead := (partAt s p).vloghead + 1, irq := (partAt s p).irq ||| (1#64 <<< 1) } := by
  obtain ⟨t, hlog, hpart⟩ := logViolation_eq s p addr pc cause core asid slot mask
  rw [hlog, partAt_setIrq, partAt_modPart, if_pos rfl, hpart]

/-- A violation whose log lies in memory of the partition is written there. -/
theorem logViolation_of_owned {s : State} {p : Nat} (hbase : (partAt s p).vlogbase ≠ 0) (howned : ownedBy s p (nextLogEntry s p) = true)
    (addr pc : Dword) (cause core asid slot : Nat) (mask : Mask) :
    ∃ c0 c1 c2, logViolation s p addr pc cause core asid slot mask = setIrq (modPart (writeMem (writeMem (writeMem (writeMem s
      (nextLogEntry s p) 8 addr.toNat) (nextLogEntry s p + 8) 8 c0) (nextLogEntry s p + 16) 8 c1) (nextLogEntry s p + 24) 8 c2) p
      fun q => { q with vloghead := q.vloghead + 1 }) p 1 := by
  refine ⟨pc.toNat % 2 ^ 48 + cause * 2 ^ 48 + core * 2 ^ 56, asid + slot * 2 ^ 12, mask.toNat, ?_⟩
  unfold nextLogEntry at howned ⊢
  unfold logViolation
  dsimp only
  rw [if_pos ⟨hbase, howned⟩]

/-- The entry of a logged violation, where the log lies in memory of the partition, begins with the address. -/
theorem readMem_logViolation {s : State} {p : Nat} (hbase : (partAt s p).vlogbase ≠ 0) (howned : ownedBy s p (nextLogEntry s p) = true)
    (addr pc : Dword) (cause core asid slot : Nat) (mask : Mask) :
    readMem (logViolation s p addr pc cause core asid slot mask) (nextLogEntry s p) 8 = addr.toNat := by
  have hlt : addr.toNat < 256 ^ 8 := lt_of_lt_of_eq addr.isLt (by norm_num)
  have hmod : ∀ (t : State) (f : Part → Part) (a n : Nat), readMem (modPart t p f) a n = readMem t a n := fun _ _ _ _ => rfl
  obtain ⟨c0, c1, c2, hlog⟩ := logViolation_of_owned hbase howned addr pc cause core asid slot mask
  rw [hlog, readMem_setIrq, hmod]
  generalize nextLogEntry s p = a
  rw [readMem_writeMem_ne _ _ (.inl (by omega)), readMem_writeMem_ne _ _ (.inl (by omega)),
    readMem_writeMem_ne _ _ (.inl (by omega)), readMem_writeMem_self, Nat.mod_eq_of_lt hlt]

/-- Settles O48: a trap that is not logged is taken at once with its resume point and its threads; a logged one advances the log
(`partAt_logViolation`) and stands in it (`readMem_logViolation`). -/
theorem trapRecordsNameTheirThreadsAndResumePoint : Obligations.TrapRecordsNameTheirThreadsAndResumePoint := by
  unfold Obligations.TrapRecordsNameTheirThreadsAndResumePoint
  refine ⟨fun s k head r tr waits htr hlog => ⟨rfl, ?_⟩, fun s k r tr htr hlog => ?_, fun s k r tr htr hlog => ?_,
    fun s k tr r htr hasync => ?_, fun q r hq => if_pos hq, fun q l r hq => ?_⟩
  · simp only [raiseAtAs, htr, modTrain_eq htr]
    rw [logTrap_of_unlogged]
    · rfl
    · exact hlog
  · simp only [raiseAfter, htr]
    rw [logTrap_of_unlogged]
    exact hlog
  · rw [logTrap_of_logged htr hlog]
    refine ⟨by rw [partAt_logViolation]; simp, by rw [partAt_logViolation], fun hbase howned => ?_⟩
    exact readMem_logViolation hbase howned _ _ _ _ _ _ _
  · simp only [takeTrap, takeTrapAs, htr, hasync, if_true, modTrain_eq htr]
  · have hfull : ¬(q ++ [l]).length < 8 := by simp [hq]
    simp only [enqueueTrap, if_neg hfull, List.reverse_append, List.reverse_cons, List.reverse_nil, List.nil_append,
      List.singleton_append, List.reverse_reverse]

end Sys2Proof.Machine
end

section
/-! PROOFS. Prefetch, fences and flushes (O13); tags and tiles (O12). -/

namespace Sys2Proof.Machine

/-! ### Prefetch, fences and flushes (R183 to R185) -/

theorem foldl_prefetch_sameButCores (tr : Train) (va : Nat → Dword) (lanes : List Nat) (s : State) :
    SameButCores s (lanes.foldl (fun s l => prefetch s tr (va l)) s) := by
  induction lanes generalizing s with
  | nil => exact .refl s
  | cons l lanes ih => exact (prefetch_sameButCores s tr (va l)).trans (ih _)

theorem flushIb_sameButCores (s : State) (k : Nat) (tr : Train) (lo size : Nat) : SameButCores s (flushIb s k tr lo size) := rfl

/-- After a flush no line that a train may still fetch meets the range: what met it is gone or stale (R185). -/
theorem flushIb_ibuf {s : State} {k lo size : Nat} {tr : Train} {ln : ILine} (hln : ln ∈ (coreAt (flushIb s k tr lo size) tr.core).ibuf)
    (hfresh : ln.stale = false) {r : Nat × Nat} (hr : r ∈ physRanges s tr.asid lo (Min.min (lo + size) (2 ^ 64))) (hsize : r.2 ≠ 0) :
    overlaps (ln.tag * 256) 256 r.1 r.2 = false := by
  have hmin : (if lo + size < 2 ^ 64 then lo + size else 2 ^ 64) = Min.min (lo + size) (2 ^ 64) := by
    rw [Nat.min_def]; split <;> split <;> omega
  simp only [flushIb, hmin, coreAt_modCore, if_true, List.mem_filterMap] at hln
  obtain ⟨old, -, hage⟩ := hln
  split at hage
  · rw [Option.ite_none_left_eq_some, Option.some.injEq] at hage
    obtain ⟨-, rfl⟩ := hage
    cases hfresh
  · next hmiss =>
    obtain rfl := Option.some.inj hage
    simp only [List.any_eq_true, List.mem_filter, decide_eq_true_eq, not_exists, not_and, and_imp] at hmiss
    simpa using hmiss r hr hsize

/-- Settles O13: a prefetch changes what a core caches (`foldl_prefetch_sameButCores`), a fence and a flush of the buffers perform what
their meanings say, and a flush of the instruction buffer leaves no fresh line that meets its range (`flushIb_ibuf`). -/
theorem fencesAndFlushesOrderEarlierAccesses : Obligations.FencesAndFlushesOrderEarlierAccesses := by
  unfold Obligations.FencesAndFlushesOrderEarlierAccesses
  refine ⟨fun x sc s k c s' h => ?_, fun x sc o s k c s' h => ?_, fun x s k c s' h hon => ?_, fun x s k c s' h hon => ?_⟩
  · exact ⟨_, foldl_prefetch_sameButCores c.tr _ c.lanes s', endsWith_of_done h rfl rfl⟩
  · obtain rfl := h.seen.slot
    refine ⟨fun hoff => endsWith_of_done h rfl ?_, fun hon ho => endsWith_of_done h rfl ?_, fun hon ho => endsWith_of_done h rfl ?_⟩
    · rcases hoff with hoff | rfl
      · simp only [hoff, Bool.not_false, if_true]
      · split <;> rfl
    · subst ho
      simp only [hon, Bool.not_true, Bool.false_eq_true, if_false]
    · rcases ho with rfl | rfl
      · simp only [hon, Bool.not_true, Bool.false_eq_true, if_false]
      · simp only [hon, Bool.not_true, Bool.false_eq_true, if_false]
  · obtain rfl := h.seen.slot
    exact endsWith_of_done h rfl (by rw [hon, if_pos rfl])
  · refine ⟨_, flushIb_sameButCores s' c.k c.tr _ _, endsWith_of_done h rfl (by rw [hon, if_pos rfl]), ?_⟩
    exact fun ln hln hfresh r hr hsize => flushIb_ibuf hln hfresh hr hsize

/-! ### Tags (R169, R170, R180, R181) -/

section
variable {i : Instr} {x : Args} {s : State} {k : Nat} {c : Ctx} {s' : State} {w : Nat} {g : Wg} {v : Dword}

theorem lookBody_done (hg : wgOf s c.tr = some g) (hv : g.tagCfg = some v) :
    lookBody c s = .done s { vals := c.lanes.map fun l => (l, lookResult g (tagCfgOf v) (rdOpnd c c.x.a .n64 l).toNat) } := by
  cases hon : c.on with
  | false => simp only [lookBody, withTags, hon, lanes_off hon, List.map_nil]
  | true =>
    obtain ⟨w, hw, hg⟩ := Option.bind_eq_some_iff.1 hg
    exact withTags_ok hw hg hv hon _ _

/-- `tagw` writes the entry of each thread, whose slot lies in the set of its address. -/
theorem tagwBody_done (hw : c.tr.wg = some w) (hg : wg? s w = some g) (hv : g.tagCfg = some v) (hon : c.on = true)
    (hslots : ∀ l ∈ c.lanes, (rdOpnd c c.x.a .b32 l).toNat < 2 ^ (tagCfgOf v).eshift ∧
      (rdOpnd c c.x.a .b32 l).toNat / 8 = (tagCfgOf v).set (rdOpnd c c.x.b .n64 l).toNat) :
    tagwBody c s = .done (modWg s w fun g => c.lanes.foldl (fun g l =>
      tagWrite g (tagCfgOf v) (rdOpnd c c.x.a .b32 l).toNat (rdOpnd c c.x.b .n64 l).toNat) g) {} := by
  rw [tagwBody, withTags_ok hw hg hv hon]
  dsimp only
  rw [List.filterMap_eq_nil_iff.2]
  · simp only [List.foldl_map]
  · rintro e he
    obtain ⟨l, hl, rfl⟩ := List.mem_map.1 he
    obtain ⟨hslot, hset⟩ := hslots l hl
    exact if_neg (by simp [hset, hslot])

/-- `tagi` clears the entry of each thread. -/
theorem tagiBody_done (hw : c.tr.wg = some w) (hg : wg? s w = some g) (hv : g.tagCfg = some v) (hon : c.on = true)
    (hslots : ∀ l ∈ c.lanes, (rdOpnd c c.x.a .b32 l).toNat < 2 ^ (tagCfgOf v).eshift) :
    tagiBody c s = .done (modWg s w fun g => c.lanes.foldl (fun g l =>
      clearTag g (tagCfgOf v) (rdOpnd c c.x.a .b32 l).toNat) g) {} := by
  rw [tagiBody, withTags_ok hw hg hv hon]
  dsimp only
  rw [List.filterMap_eq_nil_iff.2]
  · simp only [List.foldl_map]
  · rintro e he
    obtain ⟨l, hl, rfl⟩ := List.mem_map.1 he
    exact if_neg (by simpa using hslots l hl)

/-- A tag configuration of zero takes the table away. -/
theorem tagiCfgBody_zero (hw : c.tr.wg = some w) (hg : wg? s w = some g) (hon : c.on = true)
    (hzero : bitsAt (rdOpnd c c.x.a .n64 uniTid).toNat 0 8 = 0 ∧ bitsAt (rdOpnd c c.x.a .n64 uniTid).toNat 32 22 = 0) :
    tagiCfgBody c s = .done (modWg s w fun g => { g with tagCfg := none }) {} := by
  simp only [tagiCfgBody, hon, wgOf_eq hw hg, hw, if_pos hzero]

/-- A tag configuration in range makes a table, which is empty. -/
theorem tagiCfgBody_table (hw : c.tr.wg = some w) (hg : wg? s w = some g) (hon : c.on = true)
    (hnonzero : ¬(bitsAt (rdOpnd c c.x.a .n64 uniTid).toNat 0 8 = 0 ∧ bitsAt (rdOpnd c c.x.a .n64 uniTid).toNat 32 22 = 0))
    (hok : tagCfgOk g (rdOpnd c c.x.a .n64 uniTid).toNat = true) :
    tagiCfgBody c s = .done (modWg s w fun g =>
      clearTags { g with tagCfg := some (rdOpnd c c.x.a .n64 uniTid) } (tagCfgOf (rdOpnd c c.x.a .n64 uniTid))) {} := by
  simp only [tagiCfgBody, hon, wgOf_eq hw hg, hw, if_neg hnonzero, hok, if_true]

/-! ### Tile states (R169, R182) -/

/-- `tst` sets the state of a tile in no engine phase, but takes READY from none that the matrix unit uses. -/
theorem tstBody_done (hw : c.tr.wg = some w) (hg : wg? s w = some g) (hon : c.on = true)
    (hengine : (tileOf g (tileNum c.x.a)).engine = false)
    (hfree : (tileOf g (tileNum c.x.a)).state ≠ 2 ∨ (rdOpnd c c.x.b .n64 uniTid).toNat % 4 = 2 ∨
      latchedTile g (tileNum c.x.a) = false ∧ referenced g (tileNum c.x.a) = false) :
    tstBody c s = .done (modWg s w fun g' => setTile g' (tileNum c.x.a)
      { tileOf g (tileNum c.x.a) with state := (rdOpnd c c.x.b .n64 uniTid).toNat % 4 }) {} := by
  have hunused : ∀ used : Bool, (latchedTile g (tileNum c.x.a) = false ∧ referenced g (tileNum c.x.a) = false → used = false) →
      ((tileOf g (tileNum c.x.a)).state = 2 && (rdOpnd c c.x.b .n64 uniTid).toNat % 4 ≠ 2 && used) = false := by
    intro used hused
    rcases hfree with hstate | hready | hfree
    · simp [hstate]
    · simp [hready]
    · simp [hused hfree]
  simp only [tstBody, hon, wgOf_eq hw hg, hengine, hunused _ And.left, hunused _ And.right, Bool.false_eq_true, if_false, hw,
    Option.getD_some]

/-- `tst` in an engine phase waits for its end. -/
theorem tstBody_blocked (hw : c.tr.wg = some w) (hg : wg? s w = some g) (hon : c.on = true)
    (hengine : (tileOf g (tileNum c.x.a)).engine = true) :
    tstBody c s = .blocked s (.tile (tileNum c.x.a) [0, 2] false) := by
  simp only [tstBody, hon, wgOf_eq hw hg, hengine, if_true]

/-- `tst.def` of an EMPTY tile sets its place, a whole number of granules within the tile space. -/
theorem tstDefBody_done {base size : Nat} (hw : c.tr.wg = some w) (hg : wg? s w = some g) (hon : c.on = true)
    (hbase : (rdOpnd c c.x.b .n64 uniTid).toNat % 2 ^ 32 = base) (hsize : (rdOpnd c c.x.b .n64 uniTid).toNat / 2 ^ 32 = size)
    (hempty : (tileOf g (tileNum c.x.a)).state = 0) (hwhole : base % 256 = 0 ∧ size % 256 = 0) (hpos : size ≠ 0)
    (hlow : g.qbytes * 256 ≤ base) (hhigh : base + size ≤ (g.qbytes + g.tbytes) * 256) :
    tstDefBody c s = .done (modWg s w fun g' => setTile g' (tileNum c.x.a)
      { tileOf g (tileNum c.x.a) with base := base, size := size }) {} := by
  obtain ⟨hb, hs⟩ := hwhole
  have hplace : ¬(base % 256 ≠ 0 ∨ size % 256 ≠ 0 ∨ size = 0 ∨ base < g.qbytes * 256 ∨
      base + size > g.qbytes * 256 + g.tbytes * 256) := by omega
  simp only [tstDefBody, hon, wgOf_eq hw hg, hbase, hsize, hempty, ne_eq, not_true_eq_false, if_false, if_neg hplace, hw,
    Option.getD_some]

end

/-- Settles O12: the table is configured and the slots lie in it, so each instruction does what its meaning says (`lookBody_done` to
`tstDefBody_done`). -/
theorem tagAndTileInstructionsUseTheirTables : Obligations.TagAndTileInstructionsUseTheirTables := by
  unfold Obligations.TagAndTileInstructionsUseTheirTables
  refine ⟨fun x s k c s' g v h hg hv => ?_, fun x s k c s' w g v h hw hg hv hslots hon => ?_,
    fun x s k c s' w g v h hw hg hv hslots hon => ?_, fun x s k c s' w g v h hw hg hv hon => ?_,
    fun x s k c s' w g h hw hg hon => ?_, fun x s k c s' w g n h hw hg ha hon hengine hfree => ?_,
    fun x s k c s' w g n h hw hg ha hon hengine => ?_,
    fun x s k c s' w g n h hw hg ha hon hempty hbase hsize hpos hlow hhigh => ?_⟩
  all_goals obtain rfl := h.seen.args
  · exact endsWith_of_done h rfl (lookBody_done hg hv)
  · exact endsWith_of_done h rfl (tagwBody_done hw hg hv hon hslots)
  · exact endsWith_of_done h rfl (tagiBody_done hw hg hv hon hslots)
  · exact endsWith_of_done h rfl (withTags_ok hw hg hv hon _ _)
  · exact ⟨fun hzero => endsWith_of_done h rfl (tagiCfgBody_zero hw hg hon hzero),
      fun hnonzero hok => endsWith_of_done h rfl (tagiCfgBody_table hw hg hon hnonzero hok)⟩
  · obtain hn : n.toNat = tileNum c.x.a := by rw [ha, tileNum]
    rw [hn] at hengine hfree ⊢
    exact endsWith_of_done h rfl (tstBody_done hw hg hon hengine hfree)
  · obtain hn : n.toNat = tileNum c.x.a := by rw [ha, tileNum]
    rw [hn] at hengine ⊢
    obtain rfl := h.seen.slot
    exact exec_of_res h rfl (tstBody_blocked hw hg hon hengine)
  · obtain hn : n.toNat = tileNum c.x.a := by rw [ha, tileNum]
    rw [hn] at hempty ⊢
    exact endsWith_of_done h rfl (tstDefBody_done hw hg hon rfl rfl hempty ⟨hbase, hsize⟩ hpos hlow hhigh)

end Sys2Proof.Machine
end

section
/-! PROOFS. The steps of the memory system (O14). -/

namespace Sys2Proof.Machine

/-! ### Loads that return (R186, R189, R194) -/

/-- A load before which no outstanding load touches its bytes is the one that returns. -/
theorem firstLoad_eq {loads : List PendLoad} {i fuel : Nat} {ld : PendLoad} (hld : loads[i]? = some ld) (hfuel : 0 < fuel)
    (hfirst : ∀ e ∈ loads.take i, ∀ q ∈ ld.parts, loadTouches e q.2 (tyBytes ld.ty) = false) : firstLoad loads fuel i = i := by
  obtain ⟨n, rfl⟩ := Nat.exists_eq_add_one_of_ne_zero hfuel.ne'
  have hnone : (loads.take i).findIdx? (fun e => ld.parts.any fun q => loadTouches e q.2 (ld.ty.width / 8)) = none := by
    rw [List.findIdx?_eq_none_iff]
    intro e he
    rw [List.any_eq_false]
    intro q hq
    rw [← tyBytes, hfirst e he q hq]
    exact Bool.false_ne_true
  simp only [firstLoad, hld, hnone]

/-- The bytes of a load as they are written to its registers. -/
def loadVals (s : State) (tr : Train) (ld : PendLoad) : List (Nat × Nat) :=
  ld.parts.map fun e => (e.1, trainMem s tr e.2 (tyBytes ld.ty))

theorem exec_loadDataReturn {s : State} {k i : Nat} {tr : Train} {ld : PendLoad} (htr : train? s k = some tr) (hld : tr.loads[i]? = some ld)
    (hfirst : ∀ e ∈ tr.loads.take i, ∀ q ∈ ld.parts, loadTouches e q.2 (tyBytes ld.ty) = false) : exec (.loadDataReturn k i) s =
      .next (putTrain s k (writeLoad { tr with loads := tr.loads.eraseIdx i } ld (loadVals s tr ld))) := by
  have hfuel : 0 < tr.loads.length := Nat.zero_lt_of_lt (List.getElem?_eq_some_iff.1 hld).1
  have hexec : exec (.loadDataReturn k i) s = .next (returnLoad s k (firstLoad tr.loads tr.loads.length i)) := by
    simp only [exec, execLoadDataReturn, unitStep, returnLoadOrdered, htr]
  rw [hexec, firstLoad_eq hld hfuel hfirst, returnLoad_eq htr hld, loadVals]

/-- The registers of a train whose load has returned. -/
theorem regAt_returned {s : State} {tr : Train} {ld : PendLoad} {lanes : List Nat} {pa : Nat → Nat}
    (hparts : ld.parts = lanes.map fun l => (l, pa l)) (hlanes : ∀ l ∈ lanes, l < 64) (i : Nat) (r : Reg) {l : Nat} (hl : l < 64) :
    regAt (writeLoad { tr with loads := tr.loads.eraseIdx i } ld (loadVals s tr ld)) r l =
      (writtenTo ld.dst ld.ty.wide lanes (fun l => placed ld.ty (trainMem s tr (pa l) (tyBytes ld.ty))) r l).getD (regAt tr r l) := by
  have hfits : ∀ e ∈ loadVals s tr ld, DstFits ld.dst [e.1] := by
    intro e he
    simp only [loadVals, hparts, List.map_map, List.mem_map] at he
    obtain ⟨l, hmem, rfl⟩ := he
    unfold DstFits
    split
    · simpa using hlanes l hmem
    · simpa using hlanes l hmem
    · trivial
  rw [regAt_writeLoad ld r l hl _ _ hfits, ← listWritten_eq]
  simp only [loadVals, hparts, List.map_map, Function.comp_def]
  congr 1

/-! ### Stores that are performed (R178, R195, R196) -/

theorem exec_storePerformed {s : State} {k i : Nat} {tr : Train} {st : PendStore} (htr : train? s k = some tr) (hst : tr.stores[i]? = some st)
    (hwc : st.wc = false) : exec (.storePerformed k i) s = .next (performStore s k i) := by
  simp only [exec, execStorePerformed, unitStep, htr, List.head?_drop, hst, Option.any_some, hwc, Bool.not_false, if_true]

theorem exec_wcBufferDrainTimeout {s : State} {k i : Nat} {tr : Train} {st : PendStore} (htr : train? s k = some tr)
    (hst : tr.stores[i]? = some st) (hwc : st.wc = true) :
    exec (.wcBufferDrainTimeout k i) s = .next (drainBuffer s k (blockOf st.pa)) := by
  simp only [exec, execWcBufferDrainTimeout, unitStep, htr, List.head?_drop, hst, hwc, if_true]

section
variable {s : State} {k i : Nat} {tr : Train} {st : PendStore}

/-- After a store is performed a byte reads as its own store, and those that go before it, leave it. -/
theorem readByte_performStore (htr : train? s k = some tr) (hst : tr.stores[i]? = some st) (a : Nat) :
    readByte (performStore s k i) a = overlay ((splitOverlap st (tr.stores.take i)).1 ++ [st]) s a := by
  rw [performStore_eq htr hst]
  exact readByte_stores ..

theorem performStore_otherTrains (htr : train? s k = some tr) (hst : tr.stores[i]? = some st) : OtherTrains k s (performStore s k i) := by
  intro j hj
  rw [performStore_eq htr hst, train?_putTrain, if_neg hj, foldl_writeBytes_train?]

/-- The stores that stay outstanding are some of the others, in their order. -/
theorem performStore_stores (htr : train? s k = some tr) (hst : tr.stores[i]? = some st) :
    ∃ tr', train? (performStore s k i) k = some tr' ∧ tr'.stores.Sublist (tr.stores.eraseIdx i) := by
  rw [performStore_eq htr hst]
  refine ⟨_, (train?_putTrain ..).trans (if_pos rfl), ?_⟩
  rw [List.eraseIdx_eq_take_drop_succ]
  exact (splitOverlap_sublist st _).2.append (.refl _)

/-- What goes before a store are stores up to it. -/
theorem mem_performed (hst : tr.stores[i]? = some st) {y : PendStore} (hy : y ∈ (splitOverlap st (tr.stores.take i)).1 ++ [st]) :
    y ∈ tr.stores.take (i + 1) := by
  rw [List.take_add_one, hst]
  exact List.mem_append.2 ((List.mem_append.1 hy).imp (splitOverlap_sublist st _).1.mem id)

end

/-! ### Instruction fetch (R172) -/

theorem fetchLine_eq_none {co : Core} {uid tag : Nat} : fetchLine co uid tag = none ↔
    co.ibuf.find? (fun ln => decide (ln.tag = tag) && ln.stale && ln.users.contains uid) = none ∧
      co.ibuf.find? (fun ln => decide (ln.tag = tag) && !ln.stale) = none := by
  unfold fetchLine
  split
  · next h =>
      rw [h]
      exact ⟨nofun, fun hno => nomatch hno.1⟩
  · next h => exact ⟨fun e => ⟨h, e⟩, And.right⟩

/-- A fresh line behind lines of which none is fetched is fetched. -/
theorem fetchLine_append {co : Core} {uid : Nat} {new : ILine} {old : List ILine} (hnone : fetchLine co uid new.tag = none)
    (hold : old.Sublist co.ibuf) (hfresh : new.stale = false) : fetchLine { co with ibuf := old ++ [new] } uid new.tag = some new := by
  obtain ⟨hstale, hline⟩ := fetchLine_eq_none.1 hnone
  have hno : ∀ p : ILine → Bool, co.ibuf.find? p = none → old.find? p = none := fun p h =>
    List.find?_eq_none.2 fun ln hln => List.find?_eq_none.1 h ln (hold.mem hln)
  simp only [fetchLine, List.find?_append, hno _ hstale, hno _ hline, List.find?_singleton, hfresh, decide_true, Bool.and_false,
    Bool.false_and, Bool.false_eq_true, if_false, Bool.not_false, Bool.and_self, if_true, Option.none_or]

/-- A fill puts the line's bytes behind lines that its core holds. -/
theorem fillLine_some {s s2 : State} {c tag : Nat} (h : fillLine s c tag = some s2) : ∃ old, old.Sublist (coreAt s c).ibuf ∧
    s2 = putCore s c { coreAt s c with ibuf := old ++ [{ tag := tag, bytes := lineBytes s tag }] } := by
  unfold fillLine at h
  dsimp only at h
  split at h
  · exact ⟨_, .refl _, (Option.some.inj h).symm⟩
  · split at h
    · exact ⟨_, List.eraseIdx_sublist .., (Option.some.inj h).symm⟩
    · cases h

theorem putCore_sameButCores (s : State) (c : Nat) (x : Core) : SameButCores s (putCore s c x) := rfl

theorem Unblocked.of_sameButCores {k : Nat} {s s2 t : State} (hs : SameButCores s s2) (h : Unblocked k s2 t) : Unblocked k s t := by
  rw [hs] at h
  exact h

/-- A train that waits for a line which may be filled goes on with it. -/
theorem exec_instructionFetchFill {s s2 : State} {k pa : Nat} {tr : Train} (htr : train? s k = some tr) (hblock : tr.block = some .fetchLine)
    (hplace : fetchPlace s tr tr.pc = .mem pa) (hnone : fetchLine (coreAt s tr.core) tr.uid (pa / 256) = none)
    (hfill : fillLine s tr.core (pa / 256) = some s2) : exec (.instructionFetchFill k) s = .next (unblock s2 k) := by
  simp only [exec, execInstructionFetchFill, unitStep, htr, hplace, hnone, Option.isSome_none, Bool.false_eq_true, if_false, hfill,
    hblock, if_true]

/-- Settles O14: the load named returns (`exec_loadDataReturn`, `regAt_returned`), a store is performed with those that go before it
(`readByte_performStore`), a buffer drains, and a line is filled behind those that stay (`fillLine_some`, `fetchLine_append`). -/
theorem memoryStepsPerformWhatWasIssued : Obligations.MemoryStepsPerformWhatWasIssued := by
  unfold Obligations.MemoryStepsPerformWhatWasIssued
  refine ⟨fun s k tr i ld htr hld hfirst => ?_, fun s k tr i st htr hst hwc => ?_,
    fun s k tr i st htr hst hwc => exec_wcBufferDrainTimeout htr hst hwc, fun s k tr pa s2 htr hblock hplace hnone hfill => ?_⟩
  · refine ⟨_, exec_loadDataReturn htr hld hfirst, by rw [writeLoad_loads], fun lanes pa hparts hlanes _ r l hl => ?_⟩
    exact regAt_returned hparts hlanes i r hl
  · refine ⟨_, exec_storePerformed htr hst hwc, performStore_otherTrains htr hst, fun a hlow hhigh => ?_, fun a hout => ?_,
      performStore_stores htr hst⟩
    · rw [readByte_performStore htr hst, overlay_last _ _ _ _ ⟨hlow, hhigh⟩]
    · rw [readByte_performStore htr hst, overlay_of_uncovered _ _ _ fun y hy => hout y (mem_performed hst hy)]
  · obtain ⟨old, hold, rfl⟩ := fillLine_some hfill
    refine ⟨exec_instructionFetchFill htr hblock hplace hnone hfill,
      .of_sameButCores (putCore_sameButCores ..) (unblock_unblocked htr), ?_⟩
    rw [show coreAt (putCore s tr.core _) tr.core = _ from Tab.read_write_self ..]
    exact fetchLine_append hnone hold rfl

end Sys2Proof.Machine
end

section
/-! PROOFS. Walks and the checks of an access (O50). -/

namespace Sys2Proof.Machine

/-! ### The checks of a leaf (R154, R155, R163, R164) -/

/-- The permission bits of R156 that an access needs. -/
def permBits : Access → List Nat
  | .load => [2]
  | .store => [3]
  | .fetch => [4]
  | .rmw => [2, 3]

/-- An entry permits an access. -/
def Permits (e : Nat) (acc : Access) (priv : Bool) : Prop :=
  (∀ b ∈ permBits acc, bitsAt e b 1 = 1) ∧ (bitsAt e 5 1 = 1 → priv = true)

/-- The page of a leaf lies in the region of its kind. -/
def InRegion (e size : Nat) : Prop :=
  (bitsAt e 6 2 = 0 → entryAddr e + size ≤ nearEnd) ∧ (bitsAt e 6 2 ≠ 0 → bulkBase ≤ entryAddr e ∧ entryAddr e + size ≤ bulkEnd)

theorem bitsAt_one_eq_zero_iff {x lo : Nat} : bitsAt x lo 1 = 0 ↔ ¬ bitsAt x lo 1 = 1 := by
  unfold bitsAt
  omega

theorem permits_iff {e : Nat} {acc : Access} {priv : Bool} :
    ¬ ((permBits acc).any (fun b => bitsAt e b 1 = 0) || (bitsAt e 5 1 = 1 && !priv)) = true ↔ Permits e acc priv := by
  simp only [Bool.or_eq_true, List.any_eq_true, Bool.and_eq_true, Bool.not_eq_true', decide_eq_true_eq, bitsAt_one_eq_zero_iff, Permits,
    not_or, not_exists, not_and, not_not, Bool.not_eq_false]

theorem ownedBy_iff {t : Trans} {p : Nat} : t.ownedBy p = true ↔ bitsAt t.owner 6 1 = 1 ∧ t.owner % 64 = p := by
  simp only [Trans.ownedBy, Bool.and_eq_true, decide_eq_true_eq]

theorem cutOff_iff {s : State} {p m : Nat} (hlimp : s.super.limp = false) :
    cutOff s p m = true ↔ s.super.fabReady = false ∨ m ∈ s.mute ∨ discards s p m none = true := by
  simp only [cutOff, hlimp, Bool.false_or, Bool.or_eq_true, Bool.not_eq_true', List.contains_iff_mem, or_assoc]

theorem cutOff_eq_false {s : State} {p m : Nat} (hlimp : s.super.limp = false) (hfab : s.super.fabReady = true) (hmute : m ∉ s.mute)
    (hdiscards : discards s p m none = false) : cutOff s p m = false := by
  rw [Bool.eq_false_iff, Ne, cutOff_iff hlimp, hfab, hdiscards]
  simpa using hmute

/-- The physical address that a translation gives. -/
def Trans.place (t : Trans) (va : Dword) : Nat := entryAddr t.leaf.toNat + va.toNat % t.size

section
variable {s : State} {p : Nat} {priv : Bool} {acc : Access} {va : Dword} {align : Nat} {t : Trans}

/-- The checks in their order, with the permission bits by name. -/
theorem checkLeaf_eq : checkLeaf s p priv acc va align t =
    if (permBits acc).any (fun b => bitsAt t.leaf.toNat b 1 = 0) || (bitsAt t.leaf.toNat 5 1 = 1 && !priv) then .bad causePerm
    else if bitsAt t.leaf.toNat 6 2 = 3 then
      if cutOff s p (bitsAt t.leaf.toNat 45 19) then .bad causeRemote
      else if bitsAt t.leaf.toNat 45 19 = s.moduleNo.toNat && reachable s (t.place va) && !t.ownedBy p then .bad causePart
      else if align ≠ 0 && va.toNat % align ≠ 0 then .bad causeAlign
      else .remote (bitsAt t.leaf.toNat 45 19) (t.place va)
    else if bitsAt t.leaf.toNat 6 2 = 0 && entryAddr t.leaf.toNat + t.size > nearEnd then .bad causeRange
    else if bitsAt t.leaf.toNat 6 2 ≠ 0 && !(bulkBase ≤ entryAddr t.leaf.toNat && entryAddr t.leaf.toNat + t.size ≤ bulkEnd) then
      .bad causeRange
    else if !reachable s (t.place va) then .bad causeRange
    else if !t.ownedBy p then .bad causePart
    else if align ≠ 0 && va.toNat % align ≠ 0 then .bad causeAlign
    else .mem (t.place va) := by
  cases acc <;> rfl

theorem misaligned_iff {align x : Nat} : (align ≠ 0 && x % align ≠ 0) = true ↔ ¬ (align = 0 ∨ x % align = 0) := by
  simp only [Bool.and_eq_true, decide_eq_true_eq, not_or, ne_eq]

/-- A leaf of another module's memory, behind the permission bits. -/
theorem checkLeaf_remote (hperm : Permits t.leaf.toNat acc priv) (hkind : bitsAt t.leaf.toNat 6 2 = 3) :
    checkLeaf s p priv acc va align t =
      if cutOff s p (bitsAt t.leaf.toNat 45 19) then .bad causeRemote
      else if bitsAt t.leaf.toNat 45 19 = s.moduleNo.toNat && reachable s (t.place va) && !t.ownedBy p then .bad causePart
      else if align ≠ 0 && va.toNat % align ≠ 0 then .bad causeAlign
      else .remote (bitsAt t.leaf.toNat 45 19) (t.place va) := by
  rw [checkLeaf_eq, if_neg (permits_iff.2 hperm), if_pos hkind]

theorem checkLeaf_answered (hperm : Permits t.leaf.toNat acc priv) (hkind : bitsAt t.leaf.toNat 6 2 = 3)
    (hcut : cutOff s p (bitsAt t.leaf.toNat 45 19) = false)
    (hhome : bitsAt t.leaf.toNat 45 19 = s.moduleNo.toNat ∧ reachable s (t.place va) = true → t.ownedBy p = true)
    (halign : align = 0 ∨ va.toNat % align = 0) :
    checkLeaf s p priv acc va align t = .remote (bitsAt t.leaf.toNat 45 19) (t.place va) := by
  have hno : ¬ (bitsAt t.leaf.toNat 45 19 = s.moduleNo.toNat && reachable s (t.place va) && !t.ownedBy p) = true := by
    simpa only [Bool.and_eq_true, decide_eq_true_eq, Bool.not_eq_true', not_and, Bool.not_eq_false] using hhome
  rw [checkLeaf_remote hperm hkind, if_neg (Bool.eq_false_iff.1 hcut), if_neg hno, if_neg (mt misaligned_iff.1 (not_not_intro halign))]

theorem checkLeaf_foreign (hperm : Permits t.leaf.toNat acc priv) (hkind : bitsAt t.leaf.toNat 6 2 = 3)
    (hcut : cutOff s p (bitsAt t.leaf.toNat 45 19) = false)
    (hhome : bitsAt t.leaf.toNat 45 19 = s.moduleNo.toNat ∧ reachable s (t.place va) = true) (howned : ¬ t.ownedBy p = true) :
    checkLeaf s p priv acc va align t = .bad causePart := by
  rw [checkLeaf_remote hperm hkind, if_neg (Bool.eq_false_iff.1 hcut), if_pos]
  simp only [hhome.1, hhome.2, Bool.eq_false_iff.2 howned, decide_true, Bool.and_self, Bool.not_false]

/-- A leaf of this module's memory whose page and place are there and belong to the partition. -/
theorem checkLeaf_local (hperm : Permits t.leaf.toNat acc priv) (hkind : bitsAt t.leaf.toNat 6 2 ≠ 3)
    (hregion : InRegion t.leaf.toNat t.size) (hreach : reachable s (t.place va) = true) (howned : t.ownedBy p = true) :
    checkLeaf s p priv acc va align t = if align ≠ 0 && va.toNat % align ≠ 0 then .bad causeAlign else .mem (t.place va) := by
  obtain ⟨hnear, hbulk⟩ := hregion
  have hn : ¬ (bitsAt t.leaf.toNat 6 2 = 0 && entryAddr t.leaf.toNat + t.size > nearEnd) = true := by
    simpa only [Bool.and_eq_true, decide_eq_true_eq, not_and, gt_iff_lt, not_lt] using hnear
  have hb : ¬ (bitsAt t.leaf.toNat 6 2 ≠ 0 &&
      !(bulkBase ≤ entryAddr t.leaf.toNat && entryAddr t.leaf.toNat + t.size ≤ bulkEnd)) = true := by
    simpa only [Bool.and_eq_true, decide_eq_true_eq, not_and, Bool.not_eq_true', Bool.not_eq_false] using hbulk
  rw [checkLeaf_eq, if_neg (permits_iff.2 hperm), if_neg hkind, if_neg hn, if_neg hb, hreach, howned]
  rfl

theorem ite_bad_eq_mem {c : Prop} [Decidable c] {n q : Nat} {x : Xl} : (if c then Xl.bad n else x) = .mem q ↔ ¬ c ∧ x = .mem q := by
  by_cases hc : c
  · rw [if_pos hc]
    exact ⟨nofun, fun h => absurd hc h.1⟩
  · rw [if_neg hc]
    exact ⟨fun h => ⟨hc, h⟩, And.right⟩

/-- What an access needs to reach a byte of this module. -/
theorem checks_of_mem {q : Nat} (h : checkLeaf s p priv acc va align t = .mem q) :
    Permits t.leaf.toNat acc priv ∧ bitsAt t.leaf.toNat 6 2 ≠ 3 ∧ InRegion t.leaf.toNat t.size ∧ reachable s (t.place va) = true ∧
      t.ownedBy p = true := by
  rw [checkLeaf_eq, ite_bad_eq_mem, permits_iff] at h
  obtain ⟨hperm, h⟩ := h
  by_cases hkind : bitsAt t.leaf.toNat 6 2 = 3
  · rw [if_pos hkind, ite_bad_eq_mem, ite_bad_eq_mem, ite_bad_eq_mem] at h
    exact nomatch h.2.2.2
  · rw [if_neg hkind] at h
    simp only [ite_bad_eq_mem, Bool.and_eq_true, decide_eq_true_eq, not_and, gt_iff_lt, not_lt, Bool.not_eq_true', Bool.not_eq_false] at h
    obtain ⟨hnear, hbulk, hreach, howned, -⟩ := h
    exact ⟨hperm, hkind, ⟨hnear, hbulk⟩, hreach, howned⟩

theorem checkLeaf_eq_mem_iff {q : Nat} : checkLeaf s p priv acc va align t = .mem q ↔
    (Permits t.leaf.toNat acc priv ∧ bitsAt t.leaf.toNat 6 2 ≠ 3 ∧ InRegion t.leaf.toNat t.size ∧ reachable s (t.place va) = true ∧
      t.ownedBy p = true) ∧ (align = 0 ∨ va.toNat % align = 0) ∧ q = t.place va := by
  constructor
  · intro h
    have hchecks := checks_of_mem h
    obtain ⟨hperm, hkind, hregion, hreach, howned⟩ := hchecks
    rw [checkLeaf_local hperm hkind hregion hreach howned, ite_bad_eq_mem, misaligned_iff, not_not] at h
    exact ⟨⟨hperm, hkind, hregion, hreach, howned⟩, h.1, (Xl.mem.inj h.2).symm⟩
  · rintro ⟨⟨hperm, hkind, hregion, hreach, howned⟩, halign, rfl⟩
    rw [checkLeaf_local hperm hkind hregion hreach howned, if_neg (mt misaligned_iff.1 (not_not_intro halign))]

end

/-! ### Accesses of a train (R153, R158) -/

theorem access_of_not_canonical {s : State} {tr : Train} {acc : Access} {va : Dword} {align : Nat} (hva : canonicalVa va = false) :
    access s tr acc va align = (s, .bad causeRange) := by
  rw [access, hva]
  rfl

/-- An access that reaches memory has a translation, kept or walked for now. -/
theorem access_mem {s : State} {tr : Train} {acc : Access} {va : Dword} {align pa : Nat} (h : (access s tr acc va align).2 = .mem pa) :
    ∃ t : Trans, (t ∈ (coreAt s tr.core).utlb ∧ t.covers tr.asid va.toNat = true ∨ walk s tr.asid va = .leaf t) ∧
      checkLeaf s tr.part tr.priv acc va align t = .mem pa := by
  unfold access at h
  split at h
  · cases h
  · split at h
    · next t hfind =>
        have hcovers := List.find?_some (p := fun t : Trans => t.covers tr.asid va.toNat) hfind
        exact ⟨t, .inl ⟨List.mem_of_find?_eq_some hfind, hcovers⟩, h⟩
    · split at h
      · cases h
      · cases h
      · next t hwalk => exact ⟨t, .inr hwalk, h⟩

/-! ### Slices (R155) -/

theorem bitsAt_lt (x lo n : Nat) : bitsAt x lo n < 2 ^ n := Nat.mod_lt _ (Nat.two_pow_pos n)

theorem sliceOf_lt (pa : Nat) : sliceOf pa < 64 := by
  have h : ∀ lo, bitsAt (regionRel pa) lo 6 < 2 ^ 6 := fun lo => bitsAt_lt _ lo 6
  exact Nat.xor_lt_two_pow (Nat.xor_lt_two_pow (Nat.xor_lt_two_pow (Nat.xor_lt_two_pow (h 8) (h 14)) (h 20)) (h 26)) (h 32)

theorem regionRel_near {pa : Nat} (h : pa < nearEnd) : regionRel pa = pa :=
  if_pos (h.trans (by decide))

theorem regionRel_bulk {pa : Nat} (h : bulkBase ≤ pa) : regionRel pa + bulkBase = pa := by
  rw [regionRel, if_neg h.not_gt, Nat.sub_add_cancel h]

/-- A slice has an offset for every 64th of its region's bytes. -/
theorem offsetAt_lt {q n : Nat} (hq : q < n * 2 ^ 14) : offsetAt q < n * 256 := by
  unfold offsetAt bitsAt
  omega

/-- The offset holds every bit of an address but six, which the slice tells when the others are known. -/
theorem eq_of_sliceAt_of_offsetAt {p q : Nat} (hp : p < 2 ^ 64) (hq : q < 2 ^ 64) (hslice : sliceAt p = sliceAt q)
    (hoffset : offsetAt p = offsetAt q) : p = q := by
  have hhigh : p / 2 ^ 14 = q / 2 ^ 14 := by
    unfold offsetAt bitsAt at hoffset
    omega
  have hlow : p % 256 = q % 256 := by
    unfold offsetAt bitsAt at hoffset
    omega
  have hfield : ∀ i, bitsAt p (14 + i) 6 = bitsAt q (14 + i) 6 := by
    intro i
    rw [bitsAt, bitsAt, pow_add, ← Nat.div_div_eq_div_mul, ← Nat.div_div_eq_div_mul, hhigh]
  have hsix : bitsAt p 8 6 = bitsAt q 8 6 := by
    unfold sliceAt at hslice
    rw [hfield 0, hfield 6, hfield 12, hfield 18] at hslice
    simpa only [Nat.xor_left_inj] using hslice
  unfold bitsAt at hsix
  omega

/-- The two regions are told apart by the side of the near memory's end on which an address lies. -/
theorem regionRel_inj {p q : Nat} (hp : physOk p = true) (hq : physOk q = true) (hside : p < nearEnd ↔ q < nearEnd)
    (h : regionRel p = regionRel q) : p = q := by
  have hbulk : ∀ {x}, physOk x = true → ¬ x < nearEnd → bulkBase ≤ x := by
    intro x hx hn
    simp only [physOk, hn, decide_false, Bool.false_or, Bool.and_eq_true, decide_eq_true_eq] at hx
    exact hx.1
  by_cases hn : p < nearEnd
  · rw [← regionRel_near hn, h, regionRel_near (hside.1 hn)]
  · rw [← regionRel_bulk (hbulk hp hn), h, regionRel_bulk (hbulk hq (mt hside.2 hn))]

theorem regionRel_lt {p : Nat} (hp : physOk p = true) : regionRel p < 2 ^ 64 := by
  have hle : p < 2 ^ 64 := by
    simp only [physOk, Bool.or_eq_true, Bool.and_eq_true, decide_eq_true_eq] at hp
    unfold nearEnd bulkEnd at hp
    omega
  unfold regionRel
  split <;> omega

/-! ### Walks (R156, R157) -/

section
variable {s : State} {asid va table : Nat} {l : Level} {ls : List Level}

/-- One level of a walk, its index and entry by name. -/
theorem walkFrom_cons {ea e : Nat} (hea : ea = table + 8 * bitsAt va l.lo l.bits) (he : e = readMem s ea 8)
    (hreach : reachable s ea = true) :
    walkFrom s asid va (l :: ls) table =
      if e % 2 = 0 then .fault ea
      else if (bitsAt e 1 1 = 1 && l.page = 0) || (!(bitsAt e 1 1 = 1) && l.next = 0) then .bad causePte
      else if entryAddr e % (if bitsAt e 1 1 = 1 then l.page else l.next) ≠ 0 ||
          (bitsAt e 45 19 ≠ 0 && !(bitsAt e 1 1 = 1 && bitsAt e 6 2 = 3)) then .bad causePte
      else if bitsAt e 1 1 = 1 then
        .leaf { asid := asid, page := va / l.page * l.page, size := l.page, leaf := BitVec.ofNat 64 e
                granule := va % l.page / 2 ^ 21, owner := pmapByte s (entryAddr e + va % l.page) }
      else walkFrom s asid va ls (entryAddr e) := by
  subst hea he
  rw [walkFrom, hreach]
  dsimp only
  simp only [Bool.not_true, Bool.false_eq_true, if_false]

/-- A level whose entry holds a table goes on there. -/
theorem walkFrom_table {ea e : Nat} (hea : ea = table + 8 * bitsAt va l.lo l.bits) (he : e = readMem s ea 8)
    (hreach : reachable s ea = true) (hvalid : e % 2 = 1) (hleaf : bitsAt e 1 1 = 0) (hnext : l.next ≠ 0)
    (haddr : entryAddr e % l.next = 0) (hbits : bitsAt e 45 19 = 0) :
    walkFrom s asid va (l :: ls) table = walkFrom s asid va ls (entryAddr e) := by
  have hne : ¬ bitsAt e 1 1 = 1 := by omega
  rw [walkFrom_cons hea he hreach, if_neg (by omega)]
  simp [hne, hnext, haddr, hbits]

/-- A level whose entry is a leaf maps its page. -/
theorem walkFrom_leaf {ea e : Nat} (hea : ea = table + 8 * bitsAt va l.lo l.bits) (he : e = readMem s ea 8)
    (hreach : reachable s ea = true) (hvalid : e % 2 = 1) (hleaf : bitsAt e 1 1 = 1) (hpage : l.page ≠ 0)
    (haddr : entryAddr e % l.page = 0) (hbits : bitsAt e 45 19 = 0 ∨ bitsAt e 6 2 = 3) :
    walkFrom s asid va (l :: ls) table =
      .leaf { asid := asid, page := va / l.page * l.page, size := l.page, leaf := BitVec.ofNat 64 e
              granule := va % l.page / 2 ^ 21, owner := pmapByte s (entryAddr e + va % l.page) } := by
  rw [walkFrom_cons hea he hreach, if_neg (by omega)]
  simpa [hleaf, hpage, haddr] using hbits.resolve_left

end

/-- The walk of an ASID whose root is valid. -/
theorem walk_of_root {s : State} {asid : Nat} {va : Dword} (hroot : (Tab.read 0 s.roots asid).getLsbD 0 = true) :
    walk s asid va = walkFrom s asid va.toNat levels (bitsAt (Tab.read 0 s.roots asid).toNat 16 29 * 2 ^ 16) := by
  have hvalid : (Tab.read 0 s.roots asid).toNat % 2 = 1 := by
    simpa only [BitVec.getLsbD, Nat.testBit_zero, decide_eq_true_eq] using hroot
  exact if_neg (by omega)

/-- Settles O50: the checks are taken one after another (`checkLeaf_remote`, `checkLeaf_eq_mem_iff`), the slice restores the six bits
that the offset leaves out (`eq_of_sliceAt_of_offsetAt`), and a walk goes level by level (`walkFrom_cons`). -/
theorem accessesReachMemoryWhereEveryCheckPasses : Obligations.AccessesReachMemoryWhereEveryCheckPasses := by
  unfold Obligations.AccessesReachMemoryWhereEveryCheckPasses
  refine ⟨fun s p priv acc va align t pa => ?_, fun s tr acc va align => access_of_not_canonical,
    fun s tr acc va align pa => access_mem, access_sameButCores,
    fun pa => ⟨rfl, rfl, sliceOf_lt pa, fun h => ⟨regionRel_near h, ?_⟩, fun hlow hhigh => ⟨regionRel_bulk hlow, ?_⟩⟩,
    fun p q hp hq hside hslice hoffset => regionRel_inj hp hq hside
      (eq_of_sliceAt_of_offsetAt (regionRel_lt hp) (regionRel_lt hq) hslice hoffset),
    fun s asid va hroot => ?_⟩
  · intro e kind base passes aligned m
    have hpasses : passes ↔
        Permits e acc priv ∧ kind ≠ 3 ∧ InRegion e t.size ∧ reachable s (t.place va) = true ∧ t.ownedBy p = true := by
      simp only [passes, Permits, InRegion, ownedBy_iff, and_assoc]
      rfl
    refine ⟨fun hkind hb hp hlimp => ?_, ?_, fun hpass hna => ?_⟩
    · intro home owned
      have hperm : Permits e acc priv := ⟨hb, hp⟩
      refine ⟨fun hfab hmute hdisc hhome halign => ?_, fun hfab hmute hdisc hhome howned => ?_, fun hcut => ?_⟩
      · exact checkLeaf_answered hperm hkind (cutOff_eq_false hlimp hfab hmute hdisc) (fun h => ownedBy_iff.2 (hhome h)) halign
      · exact checkLeaf_foreign hperm hkind (cutOff_eq_false hlimp hfab hmute hdisc) hhome (mt ownedBy_iff.1 howned)
      · rw [checkLeaf_remote hperm hkind, (cutOff_iff hlimp).2 hcut]
        rfl
    · rw [checkLeaf_eq_mem_iff, hpasses]
      rfl
    · obtain ⟨hperm, hkind, hregion, hreach, howned⟩ := hpasses.1 hpass
      rw [checkLeaf_local hperm hkind hregion hreach howned, if_pos (misaligned_iff.2 hna)]
      rfl
  · have := offsetAt_lt (q := pa) (n := 2 ^ 21) (by unfold nearEnd at h; omega)
    rw [sliceOffset, regionRel_near h]
    omega
  · have := offsetAt_lt (q := regionRel pa) (n := 12 * 2 ^ 22) (by
      have := regionRel_bulk hlow
      unfold bulkEnd at hhigh
      unfold bulkBase at this
      omega)
    rw [sliceOffset]
    omega
  · intro root a1 e1 a2 e2 table
    rw [walk_of_root hroot]
    refine ⟨fun hreach habsent => ?_, fun hreach hvalid hleaf => ?_, fun hreach ⟨hvalid, hleaf, hbits⟩ haddr hreach2 => ?_⟩
    · rw [levels, walkFrom_cons (l := ⟨43, 13, 2 ^ 16, 0⟩) (ea := a1) (e := e1) rfl rfl hreach, if_pos habsent]
    · rw [levels, walkFrom_cons (l := ⟨43, 13, 2 ^ 16, 0⟩) (ea := a1) (e := e1) rfl rfl hreach, if_neg (by omega),
        if_pos (by simp [hleaf])]
      rfl
    · rw [levels, walkFrom_table (l := ⟨43, 13, 2 ^ 16, 0⟩) (ea := a1) (e := e1) rfl rfl hreach hvalid hleaf (by decide) haddr hbits]
      refine ⟨fun habsent => ?_, fun hvalid2 hleaf2 haddr2 hbits2 => ?_⟩
      · rw [walkFrom_cons (l := ⟨30, 13, 2 ^ 12, 2 ^ 30⟩) (ea := a2) (e := e2) rfl rfl hreach2, if_pos habsent]
      · rw [walkFrom_leaf (l := ⟨30, 13, 2 ^ 12, 2 ^ 30⟩) (ea := a2) (e := e2) rfl rfl hreach2 hvalid2 hleaf2 (by decide) haddr2
          hbits2]

end Sys2Proof.Machine
end

section
/-! PROOFS. Fault resolution, trap delivery, pre-emption and partition reset (O39). -/

namespace Sys2Proof.Machine

/-! ### The selected entry of the fault buffer (R160, R407) -/

/-- An entry that is selected is one of the buffer. -/
theorem get?_of_selectedFault {s : State} {p i : Nat} {f : FaultEnt} (h : selectedFault s p = some (i, f)) :
    Tab.get? s.faults i = some f := by
  unfold selectedFault at h
  dsimp only at h
  split at h
  · next e hget =>
      split at h
      · obtain ⟨rfl, rfl⟩ := Prod.mk.inj (Option.some.inj h)
        exact hget
      · cases h
  · cases h

theorem exec_faultReplay {s : State} {p i : Nat} {f : FaultEnt} (hsel : selectedFault s p = some (i, f)) (hop : f.op = none) :
    exec (.faultReplay p) s = .next (laneResolved (freeFault ((linkedTo s i).foldl unblock s) i 1) i) := by
  simp only [exec, execFaultReplay, unitStep, writePartReg, writeStatus, hsel, replayFault, get?_of_selectedFault hsel, hop]
  rfl

theorem exec_faultFail {s : State} {p i : Nat} {f : FaultEnt} (hsel : selectedFault s p = some (i, f)) (hop : f.op = none) :
    exec (.faultFail p) s = .next ((lanesOn s i).foldl
      (fun t e => logViolation (acceptPacket t e.1) e.1 e.2 0 causeUnresolved 0xFF f.asid 0 0)
      ((linkedTo s i).foldl failTrain (freeFault s i 2))) := by
  simp only [exec, execFaultFail, unitStep, writePartReg, writeStatus, hsel, failFault, get?_of_selectedFault hsel, hop]
  rfl

/-- An entry that is freed stands among the free ones, with its last fields. -/
theorem freeFault_frees {s : State} {i st : Nat} {f : FaultEnt} (hget : Tab.get? s.faults i = some f) :
    Tab.get? (freeFault s i st).faults i = none ∧
      Tab.get? (freeFault s i st).freed i = some { f with links := 0, status := st, op := none } := by
  unfold freeFault
  rw [hget]
  exact ⟨Tab.get?_del_self .., Tab.get?_put_self ..⟩

/-! ### Trains that retry, and records that are due (R379, R385) -/

theorem exec_svcRetry {s : State} {k n : Nat} {tr : Train} (htr : train? s k = some tr) (hblock : tr.block = some (.svcRoom n)) :
    exec (.svcRetry k) s = .next (unblock s k) := by
  simp only [exec, execSvcRetry, unitStep, htr, hblock]

theorem exec_trapDelivery {s : State} {k : Nat} {tr : Train} (htr : train? s k = some tr) (hdue : recordDue s tr = true) :
    exec (.trapDelivery k) s = .next (deliverHead (leaveWait s k) k) := by
  simp only [exec, execTrapDelivery, unitStep, deliverDue, htr, hdue, if_true]

theorem recordDue_of {s : State} {tr : Train} (htrap : tr.intrap = false) (hrecords : tr.tq ≠ []) (hboundary : chainBoundary s tr = true)
    (hwait : interruptible s tr = true) : recordDue s tr = true := by
  simp only [recordDue, htrap, hboundary, hwait, Bool.not_false, Bool.true_and, Bool.and_true, Bool.not_eq_true', List.isEmpty_eq_false_iff]
  exact hrecords

/-! ### Pre-emption (R312, R387 to R390) -/

theorem exec_timeSliceExpiry {s : State} {w : Nat} {g : Wg} (hg : wg? s w = some g)
    (hslice : (partAt s g.part).tslice.toNat ≤ s.clk - g.since) :
    exec (.timeSliceExpiry w) s = .next (putWg s w { g with sliceOver := true }) := by
  simp only [exec, execTimeSliceExpiry, unitStep, hg, ge_iff_le, hslice, if_true]

theorem exec_preemptDrain {s : State} {w : Nat} (hreason : reasonOf s (together s w) = some .any)
    (hdrain : canDrain s (together s w) = true) (hnone : ∀ v ∈ together s w, ∀ g, wg? s v = some g → g.drain = none) :
    exec (.preemptDrain w) s = .next ((together s w).foldl (fun t v => modWg t v fun g => { g with drain := some s.clk }) s) := by
  have hall : (together s w).all (fun v => (wg? s v).all (·.drain.isNone)) = true := by
    simp only [List.all_eq_true, Option.all_eq_true, Option.isNone_iff_eq_none]
    exact hnone
  simp only [exec, execPreemptDrain, unitStep, hreason, hdrain, hall, Bool.and_self, if_true]

theorem exec_drainmaxExpiry {s : State} {w : Nat} {r : Reason} (hreason : reasonOf s (together s w) = some r)
    (hover : drainOver s (together s w) = true) :
    exec (.drainmaxExpiry w) s = .next (preemptNow s (together s w) (methodFor s (together s w) r)) := by
  simp only [exec, execDrainmaxExpiry, unitStep, hreason, hover, if_true]

theorem preemptBy_of_reason {s : State} {w : Nat} {r : Reason} (hreason : reasonOf s (together s w) = some r) :
    preemptBy (methodFor s (together s w) r) w s = preemptNow s (together s w) (methodFor s (together s w) r) := by
  simp only [preemptBy, hreason, if_true]

/-- Workgroups that stand at a chain boundary and have nothing to finish are pre-empted now. -/
theorem preemptNow_of_atBoundary {s : State} {ws : List Nat} {m : Method} (hboundary : atBoundary s ws = true)
    (hfinished : ∀ v ∈ ws, mustFinish s v = false) :
    preemptNow s ws m = match m with
      | .flush => ws.foldl flushWg s
      | .save => saveAll s ws
      | .drain => s := by
  have hany : ws.any (mustFinish s) = false := List.any_eq_false.2 fun v hv => Bool.eq_false_iff.1 (hfinished v hv)
  unfold preemptNow
  rw [hany, hboundary]
  cases m <;> rfl

/-! ### Restoration and migration (R285, R313, R390) -/

theorem exec_restore {s : State} {id core : Nat} {sv : Saved} (hsv : Tab.get? s.saved id = some sv) (himg : sv.hwimg = true)
    (hlaunch : ∀ l, launch? s sv.wg.launch = some l → l.halted = false) (hcls : sv.wg.cls ≠ 0) (hgang : sv.wg.gang = 0)
    (hcore : core < 192) (htakes : coreTakes s sv core = true) (hfirst : firstServed s sv core = false) :
    exec (.restore id core) s = .next (loadImages s [(id, sv, core, sv.pieces s)]) := by
  have hrun : (launch? s sv.wg.launch).any (·.halted) = false := by
    simpa only [Option.any_eq_false, Bool.not_eq_true] using hlaunch
  simp [exec, execRestore, unitStep, hsv, himg, hrun, hcls, hgang, hcore, htakes, hfirst]

theorem suspendAct_of_not_canSuspend {s : State} {k : Nat} {tr : Train} (htr : train? s k = some tr) (hno : canSuspend s tr = false) :
    suspendAct s k = s := by
  simp only [suspendAct, htr, hno, Bool.not_false, if_true]

theorem exec_restore_act {s : State} {id core slot : Nat} {tr : Train} {rest : List Nat} (hsaved : Tab.get? s.saved id = none)
    (hact : Tab.get? s.savedActs id = some tr) (hslot : freeTrainSlots s core = slot :: rest) (hcluster : actCluster tr = some (core / 4))
    (htrains : 1 ≤ (available s none core).trains) (hgrans : 4 ≤ (available s none core).grans) (hkilled : killedSaved tr = false) :
    exec (.restore id core) s
      = .next (settleTrain (loseLatches (putTrain { s with savedActs := Tab.del s.savedActs id } (trainKey core slot)
          (settleMarks { s with savedActs := Tab.del s.savedActs id }
            (reselect (rewindTo { tr with core := core, slot := slot, block := none, atWait := none } tr.pc)))) (trainKey core slot))
          (trainKey core slot)) := by
  have hroom : ¬ (actCluster tr ≠ some (core / 4) || (available s none core).trains < 1 || (available s none core).grans < 4) = true := by
    simp [hcluster, Nat.pos_iff_ne_zero.1 htrains, hgrans]
  simp only [exec, execRestore, unitStep, hsaved, restoreAct, hact, hslot, List.head?_cons, hroom, hkilled]
  rfl

/-- What a workgroup needs of a core to which it migrates. -/
def migrationNeed (s : State) (g : Wg) : WgNeed :=
  { deep := (launch? s g.launch).any (·.depth ≥ 1), trains := g.ntrains, grans := g.ntrains * g.vgran
    pad := g.pad, banks := g.used.length + g.resv }

theorem exec_migrate {s : State} {w core id : Nat} {g : Wg} {sv : Saved} (hg : wg? s w = some g) (hcls : g.cls ≠ 0) (hgang : g.gang = 0)
    (hother : core ≠ g.core) (hcore : core < 192) (hwants : gangWants s g = true)
    (hfits : (available s none core).fits (migrationNeed s g) = true) (hdepot : (depotRoom s g.part (imageSize g)).isSome = true)
    (hfinished : mustFinish s w = false) (hboundary : atBoundary s [w] = true)
    (hsaved : (saveToDepot s w).saved.find? (fun e => e.2.wg.uid = g.uid) = some (id, sv)) :
    exec (.migrate w core) s = .next (loadImages (saveToDepot s w) [(id, sv, core, sv.pieces (saveToDepot s w))]) := by
  have hnone : (depotRoom s g.part (imageSize g)).isNone = false := by
    rw [Option.isNone_eq_false_iff, hdepot]
  unfold migrationNeed at hfits
  simp [exec, execMigrate, unitStep, hg, hcls, hgang, hother, hcore, hwants, hfits, hnone, hfinished, hboundary, hsaved]

/-! ### Partition reset (R395) -/

theorem exec_partitionResetDrain {s : State} {p : Nat} (hasked : resetAsked s p false = true) (hnone : (partAt s p).resetDrain = none) :
    exec (.partitionResetDrain p) s = .next (modPart s p fun q => { q with closed := true, resetDrain := some s.clk }) := by
  simp only [exec, execPartitionResetDrain, unitStep, hasked, hnone, Option.isNone_none, Bool.and_self, if_true]

theorem exec_partitionResetKill {s : State} {p : Nat} (hasked : resetAsked s p true = true) :
    exec (.partitionResetKill p) s = .next (resetPartition s p) := by
  simp only [exec, execPartitionResetKill, unitStep, hasked, Bool.true_or, if_true]

theorem exec_partitionDrainExpiry {s : State} {p n : Nat} (hdrain : (partAt s p).resetDrain = some n)
    (hover : (partAt s p).drainmax.toNat ≤ s.clk - n) : exec (.partitionDrainExpiry p) s = .next (resetPartition s p) := by
  simp only [exec, execPartitionDrainExpiry, unitStep, hdrain, ge_iff_le, hover, if_true]

/-- Settles O39: each event's equation, under the condition in which it acts. -/
theorem systemEventsAct : Obligations.SystemEventsAct := by
  unfold Obligations.SystemEventsAct
  refine ⟨fun s k tr n htr hblock => released htr (exec_svcRetry htr hblock), fun s p i f => exec_faultReplay, fun s p i f => exec_faultFail,
    fun s i st f => freeFault_frees,
    fun s k tr htr htrap hrecords hboundary hwait => exec_trapDelivery htr (recordDue_of htrap hrecords hboundary hwait),
    fun s w g => exec_timeSliceExpiry, fun s w => exec_preemptDrain, fun s w r => exec_drainmaxExpiry, ?_, fun s id core sv => exec_restore,
    fun s k tr => suspendAct_of_not_canSuspend, fun s id core tr slot rest => exec_restore_act, fun s w core g id sv => exec_migrate,
    fun s p => exec_partitionResetDrain, fun s p => exec_partitionResetKill, fun s p n => exec_partitionDrainExpiry⟩
  intro s w r hreason hboundary hfinished
  have hnow := preemptBy_of_reason hreason
  rw [preemptNow_of_atBoundary hboundary hfinished] at hnow
  refine ⟨fun hmethod => ?_, fun hmethod => ?_⟩
  · rw [hmethod] at hnow
    exact congrArg Host.Outcome.next hnow
  · rw [hmethod] at hnow
    exact congrArg Host.Outcome.next hnow

end Sys2Proof.Machine
end

section
/-! PROOFS. One atomic reads and writes its bytes; atomics act on their places, and tagged addends are staged (O17, O16). -/

namespace Sys2Proof.Machine

/-! ### One atomic (R222, R223) -/

section
variable {s : State} {k pa n : Nat} {tr : Train}

/-- The stores of a train that an access of some bytes follows (R178). -/
def storesBefore (tr : Train) (pa n : Nat) : List PendStore := (splitOverlap { pa := pa, bytes := List.replicate n 0 } tr.stores).1

theorem readByte_performOverlapping (htr : train? s k = some tr) (pa n a : Nat) :
    readByte (performOverlapping s k pa n) a = overlay (storesBefore tr pa n) s a := by
  rw [performOverlapping_eq htr]
  exact readByte_stores _ s a

/-- After the stores that an access of some bytes follows, memory holds those bytes as the train's stores left them. -/
theorem readByte_performOverlapping_inside (htr : train? s k = some tr) {a : Nat} (ha : pa ≤ a ∧ a < pa + n) :
    readByte (performOverlapping s k pa n) a = overlay tr.stores s a := by
  rw [readByte_performOverlapping htr]
  exact overlay_split _ tr.stores s a (by simpa using ha)

/-- No byte changes that no store of the train covers. -/
theorem readByte_performOverlapping_uncovered (htr : train? s k = some tr) {a : Nat}
    (ha : ∀ x ∈ tr.stores, ¬(x.pa ≤ a ∧ a < x.pa + x.bytes.length)) :
    readByte (performOverlapping s k pa n) a = readByte s a := by
  rw [readByte_performOverlapping htr]
  exact overlay_of_uncovered _ s a fun x hx => ha x ((splitOverlap_sublist _ _).1.subset hx)

theorem readByte_writeMem_inside {a : Nat} (v : Nat) (ha : pa ≤ a ∧ a < pa + n) :
    readByte (writeMem s pa n v) a = BitVec.ofNat 8 (v / 256 ^ (a - pa)) := by
  rw [writeMem, readByte_writeBytes, bytesOf_length, if_pos ha]
  exact bytesOf_getD v n (a - pa) (by omega)

theorem readByte_writeMem_outside {a : Nat} (v : Nat) (ha : ¬(pa ≤ a ∧ a < pa + n)) :
    readByte (writeMem s pa n v) a = readByte s a := by
  rw [writeMem, readByte_writeBytes, bytesOf_length, if_neg ha]

end

/-- Settles O17: the stores that the access follows come first (`readByte_performOverlapping`), then the bytes are read and the new value is
written. -/
theorem oneAtomicReadsThenWritesItsBytes : Obligations.OneAtomicReadsThenWritesItsBytes := by
  unfold Obligations.OneAtomicReadsThenWritesItsBytes
  intro s k tr pa n write f htr
  refine ⟨fun a hle hlt => ?_, ?_, fun a hout huncovered => ?_⟩
  · cases write
    · exact readByte_performOverlapping_inside htr ⟨hle, hlt⟩
    · exact readByte_writeMem_inside _ ⟨hle, hlt⟩
  · refine (readMem_eq _ pa n).trans (congrArg ofBytes (List.map_congr_left fun i hi => ?_))
    exact readByte_performOverlapping_inside htr ⟨Nat.le_add_right pa i, by simpa using hi⟩
  · cases write
    · exact readByte_performOverlapping_uncovered htr huncovered
    · exact (readByte_writeMem_outside _ hout).trans (readByte_performOverlapping_uncovered htr huncovered)

/-! ### Atomics of all threads (R219 to R227) -/

section
variable {c : Ctx} {s : State} {o : AtomicOp}

/-- What the atomics with the old values `olds` leave to their instruction. -/
def atomicDone (o : AtomicOp) (ret : Bool) (olds : List (Nat × Nat)) : Done :=
  { vals := if ret then olds.map fun e => (e.1, (o.res e.2).1) else []
    flags := joinFlags (olds.map fun e => (o.res e.2).2 ||| o.flags e.1) }

/-- The order that EXT64 demands performs the earlier accesses of the train first. -/
def atomicStart (c : Ctx) (s : State) : State := if extOrder c.x ≥ 2 then performEarlier s c.k else s

theorem atomicBody_global {ret : Bool} {pa : Nat → Nat} {s2 : State} (hsp : c.x.sp = false)
    (ht : Translates c (if ret then loadRoom (atomicStart c s) c.k else atomicStart c s) o.acc o.n (atomicGlobal c) pa s2) :
    let places := c.lanes.map fun l => (l, pa l)
    let r := atomicAll c.k o.n o.write o.new places (settleLoads (clearReplies s2 c.k) c.k places o.n)
    atomicBody o ret c s = .done r.2 (atomicDone o ret r.1) := by
  rw [atomicBody, ← atomicStart]
  simp only [hsp, Bool.not_false, Bool.and_true, Bool.false_eq_true, if_false, withPlaces_ok ht,
    violations_mem, remotePlaces_mem, localPlaces_mem, violationTrap_nil, List.filter_nil, List.map_nil, List.append_nil, List.map_map,
    Function.comp_def, atomicDone]

theorem atomicBody_scratchpad {ret : Bool} {w : Nat} {g : Wg} (hsp : c.x.sp = true) (hw : c.tr.wg = some w)
    (hg : wg? (atomicStart c s) w = some g) (hok : ∀ l ∈ c.lanes, spFate g true (atomicSp c l) o.n = .ok) :
    let r := atomicAllSp o.n o.write o.new (c.lanes.map fun l => (l, atomicSp c l)) g
    atomicBody o ret c s = .done (putWg (atomicStart c s) w r.2) (atomicDone o ret r.1) := by
  have hnone : c.lanes.filter (fun t => !(c.lanes.map fun l => (l, atomicSp c l)).any fun e => decide (e.1 = t)) = [] := by
    simp
  rw [atomicBody, ← atomicStart]
  simp only [hsp, Bool.not_true, Bool.and_false, Bool.false_eq_true, if_false, if_true,
    withSp_ok (wgOf_eq hw hg) hok, hw, wgOf_eq hw hg, hnone, List.map_nil, List.append_nil, List.map_map, Function.comp_def, atomicDone]

/-- An instruction whose meaning is an atomic makes the atomics of its threads on memory in their order. -/
theorem endsWith_atomic_global {i : Instr} {x : Args} {wide ret : Bool} {op : Ctx → AtomicOp} {s s' s2 : State} {k : Nat} {c : Ctx}
    {pa : Nat → Nat} (he : ∀ s, exec i s = issue i x wide s fun c s => atomicBody (op c) ret c s) (h : Ready i x s k c s')
    (hsp : x.sp = false)
    (ht : Translates c (if ret then loadRoom (if extOrder x ≥ 2 then performEarlier s' k else s') k
      else if extOrder x ≥ 2 then performEarlier s' k else s') (op c).acc (op c).n (atomicGlobal c) pa s2) :
    let places := c.lanes.map fun l => (l, pa l)
    let r := atomicAll k (op c).n (op c).write (op c).new places (settleLoads (clearReplies s2 k) k places (op c).n)
    EndsWith i x wide s c r.2 (atomicDone (op c) ret r.1) := by
  obtain rfl := h.seen.args
  obtain rfl := h.seen.slot
  exact endsWith_of_done h (he s) (atomicBody_global hsp ht)

/-- So does it on a scratchpad that allows all of them. -/
theorem endsWith_atomic_scratchpad {i : Instr} {x : Args} {wide ret : Bool} {op : Ctx → AtomicOp} {s s' : State} {k w : Nat} {c : Ctx}
    {g : Wg} (he : ∀ s, exec i s = issue i x wide s fun c s => atomicBody (op c) ret c s) (h : Ready i x s k c s') (hsp : x.sp = true)
    (hw : c.tr.wg = some w) (hg : wg? (if extOrder x ≥ 2 then performEarlier s' k else s') w = some g)
    (hok : ∀ l ∈ c.lanes, spFate g true (atomicSp c l) (op c).n = .ok) :
    let r := atomicAllSp (op c).n (op c).write (op c).new (c.lanes.map fun l => (l, atomicSp c l)) g
    EndsWith i x wide s c (putWg (if extOrder x ≥ 2 then performEarlier s' k else s') w r.2) (atomicDone (op c) ret r.1) := by
  obtain rfl := h.seen.args
  obtain rfl := h.seen.slot
  exact endsWith_of_done h (he s) (atomicBody_scratchpad hsp hw hg hok)

end

/-! ### Tagged addends (R226, R339) -/

section
variable {c : Ctx} {s s2 s3 : State}

theorem reachXl_mem (s : State) (pa : Nat) : reachXl s (.mem pa) = .mem pa := rfl

/-- The handle names no open join: none that is registered, or one that is released. -/
theorem taggedJoin_none (hnone : ∀ j jn, joinSlot s c.tr.part (rdOpnd c c.x.c .b32 uniTid).toNat = some j → Tab.get? s.joins j = some jn →
    jn.state ≠ 1) : taggedJoin c s = none := by
  rw [taggedJoin, Option.filter_eq_none_iff]
  intro j hj
  cases hjoin : Tab.get? s.joins j with
  | none => simp
  | some jn => simpa using hnone j jn hj hjoin

theorem taggedJoin_open {j : Nat} {jn : Join} (hslot : joinSlot s c.tr.part (rdOpnd c c.x.c .b32 uniTid).toNat = some j)
    (hjoin : Tab.get? s.joins j = some jn) (hopen : jn.state = 1) : taggedJoin c s = some j := by
  simp [taggedJoin, hslot, hjoin, hopen]

/-- A tagged `facc` to an open join that has room for every addend stages them. -/
theorem faccTaggedBody_staged {pa : Nat → Nat} {j : Nat} (hon : c.on = true)
    (ht : Translates c s .store 16 (atomicGlobal c) pa s2) (hjoin : taggedJoin c s2 = some j)
    (hstage : stageAll j c.tr.uid (fun t => (addend c t).1) (c.lanes.map fun l => (l, atomicGlobal c l, .mem (pa l)))
      (enrol s2 j c.tr.uid) = some (s3, [])) :
    faccTaggedBody c s = .done s3 { flags := joinFlags (c.lanes.map fun t => (addend c t).2) } := by
  simp only [faccTaggedBody, ht.2, hjoin, List.map_map, Function.comp_def, reachXl_mem, violations_mem, List.any_nil, Bool.not_false,
    List.filter_true, hon, if_true, hstage, List.append_nil, sortTids_nil, violationTrap_nil]

/-- One whose handle names no open join sets its flags alone. -/
theorem faccTaggedBody_unnamed {l : List (Nat × Dword × Xl)}
    (hplaces : translateAll s c.tr .store 16 (c.lanes.map fun t => (t, atomicGlobal c t)) = (s2, .ok l)) (hnone : taggedJoin c s2 = none) :
    faccTaggedBody c s = .done s2 { flags := joinFlags (c.lanes.map fun t => (addend c t).2) } := by
  simp only [faccTaggedBody, hplaces, hnone]

end

/-- Settles O16: the untagged atomics are the atomics of all threads on memory or on a scratchpad (`endsWith_atomic_global`,
`endsWith_atomic_scratchpad`); a tagged `facc` stages its addends where its handle names an open join (`faccTaggedBody_staged`), and only
there (`faccTaggedBody_unnamed`). -/
theorem atomicsActOnTheirPlacesInTidOrder : Obligations.AtomicsActOnTheirPlacesInTidOrder := by
  unfold Obligations.AtomicsActOnTheirPlacesInTidOrder
  refine ⟨?_, fun x s k c s' pa s2 j jn s3 h hon ht hslot hjoin hopen hstage => ?_, fun x s k c s' s2 l h hplaces hnone => ?_⟩
  · intro act
    have hact : ∀ i x wide ret op, (∀ s, exec i s = issue i x wide s fun c s => atomicBody (op c) ret c s) → act i x wide ret op :=
      fun i x wide ret op he => ⟨fun s k c s' pa s2 h hsp ht => endsWith_atomic_global he h hsp ht,
        fun s k c s' w g h hsp hw hg hok => endsWith_atomic_scratchpad he h hsp hw hg hok⟩
    exact ⟨fun x t op => hact _ x _ _ _ fun s => rfl, fun x t => hact _ x _ _ _ fun s => rfl, fun x => hact _ x _ _ _ fun s => rfl,
      fun x t r z => hact _ x _ _ _ fun s => rfl⟩
  · obtain rfl := h.seen.args
    exact endsWith_of_done h rfl (faccTaggedBody_staged hon ht (taggedJoin_open hslot hjoin hopen) hstage)
  · obtain rfl := h.seen.args
    exact endsWith_of_done h rfl (faccTaggedBody_unnamed hplaces (taggedJoin_none hnone))

end Sys2Proof.Machine
end

section
/-! PROOFS. Engine instructions queue operations; operations start, run, pause and complete; exchanges and pairs (O37). -/

namespace Sys2Proof.Machine

/-! ### Engine instructions (R261, R361) -/

section
variable {c : Ctx} {s : State}

/-- A U = 1 instruction whose guard holds executes once, for its train. -/
theorem lanes_uniform (hu : c.x.u = true) (hon : c.on = true) : c.lanes = [uniTid] := by
  simp only [Ctx.lanes, hu, hon, if_true]

/-- A block whose place lies in this module is read as the train sees it. -/
theorem loadBlock_ok {va : Dword} {pa : Nat} {s2 : State} (hlanes : c.lanes = [uniTid])
    (ht : Translates c s .load 64 (fun _ => va) (fun _ => pa) s2) (go : State → List Dword → Option TrapRec → Res) :
    loadBlock c s va go = go (clearReplies s2 c.k)
      ((List.range 8).map fun j => BitVec.ofNat 64 (bitsAt (trainMem s2 c.tr pa 64) (64 * j) 64)) none := by
  have hplaces := withPlaces_ok ht
  rw [hlanes] at hplaces
  simp only [List.map_cons, List.map_nil] at hplaces
  rw [loadBlock, hplaces]
  rfl

/-- A handle that goes to a register leaves it marked as pending (R261). -/
theorem markResult_register {n : BitVec 6} (hd : c.x.d = .s n) (hnwb : c.x.nwb = false) (i : Instr) (h : Dword) :
    markResult i c s h none = .left (modTrain (complete i c.x true c.k c.tr.pc s { vals := [(uniTid, h)] }) c.k fun tr =>
      { tr with marks := Tab.put tr.marks n.toNat (.pending h) }) := by
  simp only [markResult, hd, hnwb, Bool.false_eq_true, if_false, Option.elim_none]

/-- An engine instruction whose descriptor is reached and whose engine and future table have room queues its operation. -/
theorem engineBody_queues {i : Instr} {kind : EngKind} {n : BitVec 6} {pa f : Nat} {s2 s4 : State} (hon : c.on = true) (hu : c.x.u = true)
    (hd : c.x.d = .s n) (hnwb : c.x.nwb = false) (halign : (rdOpnd c c.x.a .n64 uniTid).toNat % 64 = 0)
    (ht : Translates c (performEarlier s c.k) .load 64 (fun _ => rdOpnd c c.x.a .n64 uniTid) (fun _ => pa) s2) :
    let s3 := clearReplies s2 c.k
    let o := opOf c s3 kind ((List.range 8).map fun j => BitVec.ofNat 64 (bitsAt (trainMem s2 c.tr pa 64) (64 * j) 64))
    engineFull s3 o.engine = false →
    takeFuture s3 c.tr.asid c.tr.launch (c.tr.act.map fun a => (a.line, a.gen)) = some (f, s4) →
    let h := (Tab.get? s4.futures f).elim 0 (futureHandle s4 f)
    engineBody i kind c s = .left (modTrain (complete i c.x true c.k c.tr.pc (addOp s4 { o with future := some f })
      { vals := [(uniTid, h)] }) c.k fun tr => { tr with marks := Tab.put tr.marks n.toNat (.pending h) }) := by
  intro s3 o hroom hfuture h
  simp only [engineBody, hon, Bool.not_true, Bool.false_eq_true, if_false, halign, ne_eq, not_true_eq_false,
    loadBlock_ok (lanes_uniform hu hon) ht]
  rw [if_neg (by simpa using hroom), hfuture]
  exact markResult_register hd hnwb i h

end

/-! ### The queues of engines and the future table (R264, R358) -/

section
variable {s : State}

theorem exec_engineQueueRoom {k e : Nat} {tr : Train} (htr : train? s k = some tr) (hblock : tr.block = some (.engineQueue e))
    (hroom : engineFull s e = false) : exec (.engineQueueRoom k) s = .next (unblock s k) := by
  obtain ⟨⟩ := tr
  cases hblock
  simp only [exec, execEngineQueueRoom, unitStep, htr, hroom, Bool.false_eq_true, if_false]

/-- Entry `i` of the future table is free, in its next generation. -/
def freeFuture (s : State) (i : Nat) : State :=
  { s with futures := Tab.del s.futures i, futGen := Tab.write 0 s.futGen i (Tab.read 0 s.futGen i + 1) }

/-- The entry of a completed operation of no line frees with the end of its launch. -/
theorem exec_futureEntryFree_launch {i : Nat} {f : Future} (hf : Tab.get? s.futures i = some f) (hdone : f.status.isSome = true)
    (hline : f.line = none) (hlaunch : ∀ l y, f.launch = some l → launch? s l = some y → y.state = .complete) :
    exec (.futureEntryFree i) s = .next (freeFuture s i) := by
  have hover : (f.launch.all fun l => (launch? s l).all fun x => decide (x.state = .complete)) = true := by
    rw [Option.all_eq_true]
    intro l hl
    rw [Option.all_eq_true]
    exact fun y hy => decide_eq_true (hlaunch l y hl hy)
  simp only [exec, execFutureEntryFree, unitStep, hf, hdone, hline, Option.isSome_none, Bool.false_eq_true, if_false, hover, Bool.and_self,
    if_true, freeFuture]

/-- The entry of a completed operation of a line frees with the line's generation. -/
theorem exec_futureEntryFree_line {i : Nat} {f : Future} {l : Nat × Nat} (hf : Tab.get? s.futures i = some f)
    (hdone : f.status.isSome = true) (hline : f.line = some l) (hgone : ∀ ln, Tab.get? s.lines l.1 = some ln → ln.gen ≠ l.2) :
    exec (.futureEntryFree i) s = .next (freeFuture s i) := by
  have hnone : ((Tab.get? s.lines l.1).any fun ln => decide (ln.gen = l.2)) = false := by
    rw [Option.any_eq_false]
    exact fun ln hln => by simpa using hgone ln hln
  simp only [exec, execFutureEntryFree, unitStep, hf, hdone, hline, Option.isSome_some, Option.all_some, hnone, Bool.not_false, Bool.and_self,
    if_true, freeFuture]

end

/-! ### Operations (R359, R363 to R365, R370 to R374) -/

section
variable {s : State} {op : Nat} {o : EngOp} (hop : Tab.get? s.ops op = some o)
include hop

theorem exec_engineOperationStart (hstate : o.state = .queued) (hnext : nextOfEngine s o = true) (hlive : outlived s o = false)
    (hgood : o.bad = none) (htiles : tilesAdmit s o = true) : exec (.engineOperationStart op) s
      = .next (modOp (openStream (phaseTile (phaseTile s o.wg o.srcTile 3 true) o.wg o.dstTile 1 true) o) op
          fun o => { o with state := .running }) := by
  simp [exec, execEngineOperationStart, unitStep, hop, hstate, hnext, hlive, hgood, htiles]

theorem exec_copyComplete (hkind : o.kind = .copy) (hstate : o.state = .running) (hall : o.total ≤ o.pieces.length) :
    exec (.copyComplete op) s
      = .next (if o.follows then placeFollowOn (modOp (endPhases s o true) op fun o => { o with state := .placed }) op
        else endOp s op true (statusWord Code.done 0 0 (o.total % 2 ^ 32))) := by
  simp [exec, execCopyComplete, unitStep, hop, hkind, hstate, Nat.not_lt.2 hall]

/-- A decode whose access unit is reached decodes its bytes. -/
theorem exec_decComplete {places : List Nat} (hkind : o.kind = .dec) (hstate : o.state = .running) (hlive : outlived s o = false)
    (hspan : spanOf s o .load (o.desc.getD 0 0) (bitsAt (o.word 1) 0 32) = .ok places) :
    exec (.decComplete op) s = .next (decodeOp s op o (readPlaces s places)) := by
  simp only [exec, execDecComplete, unitStep, hop, hkind, hstate, hlive, hspan, withSpan, ne_eq, not_true_eq_false, decide_false,
    Bool.or_self, Bool.false_eq_true, if_false]

theorem exec_pyrComplete (hkind : o.kind = .pyr) (hstate : o.state = .running) (hlive : outlived s o = false) :
    let len := o.pw * (if o.pten then 2 else 1)
    let base := ceilDivN o.ph 16 * 16
    exec (.pyrComplete op) s = .next (readRows s op o len ((List.range o.ph).map (o.pstride * ·)) fun luma =>
      readRows s op o len ((List.range (o.ph / 2)).map fun i => o.pstride * (base + i)) fun chroma =>
        writeRows s op o (o.desc.getD 2 0) (pyramid o luma chroma).1 fun s =>
          endOp s op true (statusWord Code.done 0 (pyramid o luma chroma).2.toNat 0)) := by
  simp [exec, execPyrComplete, unitStep, hop, hkind, hstate, hlive]

/-- A running copy pauses at a piece whose source does not translate. -/
theorem exec_engineFaultPause {n pte : Nat} {va : Dword} (hkind : o.kind = .copy) (hstate : o.state = .running)
    (hnext : nextPiece o = some n) (hfault : srcSite s o n = .fault va pte) :
    exec (.engineFaultPause op) s = .next (pauseOp s op o va pte) := by
  simp [exec, execEngineFaultPause, unitStep, hop, hkind, hstate, hnext, hfault]

end

/-! ### Exchanges and pairs (R366 to R369) -/

section
variable {s s' : State} {k : Nat} {c : Ctx}

/-- An `xst` of a gang's train whose ranks and places lie in the gang's windows sends the data of its threads in their order. -/
theorem exec_xst {x : Args} {wide : Bool} {g : Wg} (h : Ready (.xst x wide) x s k c s') (hon : c.on = true)
    (hg : wgOf s' c.tr = some g) (hgang : g.gang ≠ 0)
    (hfits : ∀ t ∈ c.lanes, (rdOpnd c x.a .b32 t).toNat < gangCores g ∧ (rdOpnd c x.b .b32 t).toNat % (if wide then 8 else 4) = 0 ∧
      (rdOpnd c x.b .b32 t).toNat + (if wide then 8 else 4) ≤ 16384) :
    let late := fun t => if x.u then c.tr.selected &&& ~~~(arrivedGbar c.tr) = 0 else (arrivedGbar c.tr).getLsbD t
    EndsWith (.xst x wide) x false s c (c.lanes.foldl (fun s t =>
      sendTo s g (late t) (rdOpnd c x.a .b32 t).toNat (rdOpnd c x.b .b32 t).toNat (if wide then 8 else 4)
        (rdOpnd c x.c (if wide then .n64 else .b32) t).toNat) (performEarlier s' k)) {} := by
  obtain rfl := h.seen.slot
  have hinside : (c.lanes.any fun t => decide ((rdOpnd c x.a .b32 t).toNat ≥ gangCores g) ||
      decide ((rdOpnd c x.b .b32 t).toNat % (if wide then 8 else 4) ≠ 0) ||
      decide ((rdOpnd c x.b .b32 t).toNat + (if wide then 8 else 4) > 16384)) = false := by
    rw [List.any_eq_false]
    intro t ht
    obtain ⟨hrank, halign, hend⟩ := hfits t ht
    simp [hrank, halign, hend]
  refine endsWith_of_done h rfl ?_
  simp only [hon, Bool.not_true, Bool.false_eq_true, if_false, hg, hgang, hinside]

/-- A `publ` of a pair that passes its checks, with no request of its address space under way, exchanges the pair. -/
theorem exec_publ {x : Args} {sc : Scope} {s2 : State} {pa : Nat} {l : List (Nat × Nat)} (h : Ready (.publ x sc) x s k c s')
    (hon : c.on = true) (hpair : access (performEarlier s' k) c.tr .rmw (rdOpnd c x.a .n64 uniTid) 64 = (s2, .mem pa)) :
    let front := readMem s2 pa 8
    let shadow := readMem s2 (pa + 8) 8
    let n := readMem s2 (pa + 0x10) 4
    front % 65536 = 0 → shadow % 65536 = 0 → 0 < n → n ≤ 65536 → canonicalRange front (n * 65536) = true →
    canonicalRange shadow (n * 65536) = true → overlaps front (n * 65536) shadow (n * 65536) = false →
    pairLeaves s2 c.tr.asid n (BitVec.ofNat 64 front) (BitVec.ofNat 64 shadow) = .ok l →
    requestsOf s2 (· = c.tr.asid) = [] →
    EndsWith (.publ x sc) x false s c (publish s2 c.tr.asid pa front shadow n l) {} := by
  intro front shadow n hfront hshadow hpos hle hcfront hcshadow hapart hleaves hrequests
  obtain rfl := h.seen.slot
  have hvalid : (decide (front % 65536 ≠ 0) || decide (shadow % 65536 ≠ 0) || decide (n = 0) || decide (n > 65536)
      || !canonicalRange front (n * 65536) || !canonicalRange shadow (n * 65536)
      || overlaps front (n * 65536) shadow (n * 65536)) = false := by
    simp [hfront, hshadow, Nat.pos_iff_ne_zero.1 hpos, hle, hcfront, hcshadow, hapart]
  refine endsWith_of_done h rfl ?_
  simp only [hon, Bool.not_true, Bool.false_eq_true, if_false, withRecord_ok hpair]
  rw [if_neg (by rw [hvalid]; exact Bool.false_ne_true), hleaves, hrequests]

end

/-- Settles O37: an engine instruction queues its operation (`engineBody_queues`), and each event's equation says what it does under the
condition in which it acts. -/
theorem engineInstructionsAndOperationsAct : Obligations.EngineInstructionsAndOperationsAct := by
  unfold Obligations.EngineInstructionsAndOperationsAct
  refine ⟨?_, fun s k tr e htr hblock hroom => released htr (exec_engineQueueRoom htr hblock hroom),
    fun s i f => exec_futureEntryFree_launch, fun s i f l => exec_futureEntryFree_line, fun s op o => exec_engineOperationStart,
    fun s op o => exec_copyComplete, fun s op o places hop => exec_decComplete hop, fun s op o => exec_pyrComplete,
    fun s op o n va pte hop => exec_engineFaultPause hop, ?_, ?_⟩
  · intro i kind hi x s k c s' pa s2 n f s4 h hon hu hd hnwb va halign ht s3 o hroom hfuture
    obtain rfl := h.seen.args
    obtain rfl := h.seen.slot
    have he : ∀ s, exec (i c.x) s = issue (i c.x) c.x true s (engineBody (i c.x) kind) := by
      obtain ⟨rfl, rfl⟩ | ⟨rfl, rfl⟩ | ⟨rfl, rfl⟩ := hi <;> exact fun s => rfl
    exact exec_of_left h (he s) (engineBody_queues hon hu hd hnwb halign ht hroom hfuture)
  · exact fun x wide s k c s' g h hon hg hgang hfits => exec_xst h hon hg hgang hfits
  · exact fun x sc s k c s' s2 pa l h hon hpair => exec_publ h hon hpair

end Sys2Proof.Machine
end

section
/-! PROOFS. The answer of another module reaches the train that asked where no slot is listed twice, and not in every state (O41). -/

namespace Sys2Proof.Tab
variable {α : Type}

theorem key_ge_of_risingFrom {m : Tab α} {lo : Nat} {e : Nat × α} (h : risingFrom lo m = true) (he : e ∈ m) : lo ≤ e.1 := by
  induction m generalizing lo with
  | nil => cases he
  | cons a r ih =>
    simp only [risingFrom, Bool.and_eq_true, decide_eq_true_eq] at h
    obtain ⟨hle, hrest⟩ := h
    rcases List.mem_cons.1 he with rfl | he
    · exact hle
    · exact Nat.le_of_lt (Nat.lt_of_le_of_lt hle (ih hrest he))

/-- In a rising table every listed entry is the one at its key. -/
theorem get?_of_mem {m : Tab α} {lo k : Nat} {v : α} (h : risingFrom lo m = true) (he : (k, v) ∈ m) : get? m k = some v := by
  induction m generalizing lo with
  | nil => cases he
  | cons a r ih =>
    simp only [risingFrom, Bool.and_eq_true] at h
    rcases List.mem_cons.1 he with rfl | he
    · exact if_pos rfl
    · have hkey : a.1 < k := key_ge_of_risingFrom h.2 he
      exact (if_neg (by omega)).trans (ih h.2 he)

end Sys2Proof.Tab

namespace Sys2Proof.Machine

/-! ### Answers of other modules (R207) -/

section
variable {s : State} {id : Nat} {q : RemoteReq} {r : RemoteReply}

theorem performRemote_trains (s : State) (pa : Nat) (op : RemoteOp) : (performRemote s pa op).2.trains = s.trains := by
  cases op with
  | compareSwap n old new => exact (apply_ite State.trains ..).trans (ite_self _)
  | read n => rfl
  | write bs => rfl
  | atom op t v => rfl
  | cellAdd d => rfl
  | cellTake => rfl

theorem mirror_trains (s : State) (q : RemoteReq) (r : RemoteReply) : (mirror s q r).trains = s.trains := by
  unfold mirror
  split
  · rfl
  · rfl
  · rfl
  · exact performRemote_trains ..

/-- The machine without a request that is answered: this module's view of the other's memory is as the answer leaves it. -/
def withoutRequest (s : State) (id : Nat) (q : RemoteReq) (r : RemoteReply) : State :=
  let s1 := { s with remote := Tab.del s.remote id }
  if q.module = s.moduleNo.toNat || !physOk q.pa then s1 else mirror s1 q r

theorem withoutRequest_trains : (withoutRequest s id q r).trains = s.trains := by
  unfold withoutRequest
  dsimp only
  split
  · rfl
  · exact mirror_trains ..

/-- Where no slot is listed twice, the answer goes to the train that asked, if it waits for it. -/
theorem answer_of_awaits {k : Nat} {tr : Train} (hrising : Tab.rising s.trains = true) (hq : Tab.get? s.remote id = some q)
    (hfind : trainByUid s q.uid = some (k, tr)) (hwait : awaits tr id = true) :
    let s3 := modTrain (withoutRequest s id q r) k fun t => { t with replies := Tab.put t.replies q.tid r }
    answer s id r = (waitersOf s3 id).foldl settleRemote s3 := by
  have htr : train? (withoutRequest s id q r) k = some tr := by
    rw [train?, withoutRequest_trains]
    exact Tab.get?_of_mem hrising (List.mem_of_find?_eq_some hfind)
  have hfind' : trainByUid (withoutRequest s id q r) q.uid = some (k, tr) := by rw [trainByUid, withoutRequest_trains]; exact hfind
  have htake : modTrain (withoutRequest s id q r) k (fun t => takeReply t id q.tid r) =
      modTrain (withoutRequest s id q r) k fun t => { t with replies := Tab.put t.replies q.tid r } := by
    rw [modTrain_eq htr, modTrain_eq htr, takeReply, if_pos hwait]
  simp only [answer, hq, ← htake]
  rw [withoutRequest] at hfind' ⊢
  simp only [hfind']

end

/-- Two trains listed in slot 0: the second, number 2, awaits the reply to request 0. -/
def slotListedTwice : State :=
  { State.reset with
    trains := [(0, { uid := 1 }), (0, { uid := 2, block := some (.remote [0]) })]
    remote := [(0, { uid := 2, tid := 0, module := 0, pa := 0, op := .read 4 })] }

/-- The replies that the train in slot 0 has after a step. -/
def repliesAfter (t : Host.Outcome State Fault Refusal) : Option (Tab RemoteReply) :=
  match t with
  | .next t => (train? t 0).map (·.replies)
  | _ => none

/-- Refutes O41: its first clause holds where no slot is listed twice (`answer_of_awaits`), and it speaks of every state. In `slotListedTwice`
the reply is for the second train of slot 0, which awaits it, and reaches slot 0's first, which does not: that train takes no reply, where
the clause gives it one. -/
theorem not_fabricAndPowerEventsAct : ¬ Obligations.FabricAndPowerEventsAct := by
  unfold Obligations.FabricAndPowerEventsAct
  intro ⟨hanswers, _⟩
  obtain ⟨hwaiting, _⟩ := hanswers slotListedTwice 0 { uid := 2, tid := 0, module := 0, pa := 0, op := .read 4 } .error rfl
  obtain ⟨hresponse, _⟩ := hwaiting 0 { uid := 2, block := some (.remote [0]) } rfl rfl
  have hnone : repliesAfter (exec (.remoteResponse 0 .error) slotListedTwice) = some [] := by decide
  rw [hresponse] at hnone
  exact absurd hnone (by decide)

end Sys2Proof.Machine
end

section
/-! PROOFS. Queue registers are first in, first out, and are bound, read and drained (O20, O19). -/

namespace Sys2Proof.Machine

/-! ### Entries of a queue (R232, R233) -/

section
variable {g : Wg} {q : Nat} {w : Word}

/-- Different entries of a queue lie at different words of its ring. -/
theorem entryOffset_disjoint {d : QDesc} {i j : Nat} (hij : i < j) (hj : j < d.cap) :
    entryOffset d i + 4 ≤ entryOffset d j ∨ entryOffset d j + 4 ≤ entryOffset d i := by
  have hne : (d.head + i) % d.cap ≠ (d.head + j) % d.cap := fun heq =>
    hij.ne ((Nat.ModEq.add_left_cancel' d.head heq).eq_of_lt_of_lt (hij.trans hj) hj)
  simp only [entryOffset]
  omega

/-- A push adds one to the count and leaves the rest of the descriptor. -/
theorem qdesc_push1 : qdesc (push1 g q w) q = { qdesc g q with count := (qdesc g q).count + 1 } := qdesc_setQ ..

theorem pop1_fst (g : Wg) (q : Nat) : (pop1 g q).1 = spWord g (entryOffset (qdesc g q) 0) := rfl

theorem qdesc_pop1_count (g : Wg) (q : Nat) : (qdesc (pop1 g q).2 q).count = (qdesc g q).count - 1 :=
  congrArg QDesc.count (qdesc_setQ ..)

/-- A push leaves the place of every entry. -/
theorem entryOffset_push1 (i : Nat) : entryOffset (qdesc (push1 g q w) q) i = entryOffset (qdesc g q) i := by
  rw [qdesc_push1]
  rfl

/-- The word that is pushed stands behind the entries. -/
theorem spWord_push1_last : spWord (push1 g q w) (entryOffset (qdesc g q) (qdesc g q).count) = w := spWord_setSpWord ..

/-- A push to a queue with room leaves the words of the entries. -/
theorem spWord_push1_entry {i : Nat} (hi : i < (qdesc g q).count) (hroom : (qdesc g q).count < (qdesc g q).cap) :
    spWord (push1 g q w) (entryOffset (qdesc g q) i) = spWord g (entryOffset (qdesc g q) i) :=
  spWord_setSpWord_ne g _ _ w (entryOffset_disjoint hi hroom)

end

/-- Settles O20: a push writes the place behind the entries (`spWord_push1_last`) and no entry's (`spWord_push1_entry`), and a pop reads the
place of entry 0 (`pop1_fst`). -/
theorem queuesAreFirstInFirstOut : Obligations.QueuesAreFirstInFirstOut := by
  unfold Obligations.QueuesAreFirstInFirstOut
  intro g q w d hcap hroom hhead g'
  have hcount : (qdesc g' q).count = d.count + 1 := congrArg QDesc.count qdesc_push1
  have hpopped : (qdesc (pop1 g' q).2 q).count = d.count := by rw [qdesc_pop1_count, hcount, Nat.add_sub_cancel]
  have hlast : spWord g' (entryOffset (qdesc g' q) d.count) = w := by rw [entryOffset_push1]; exact spWord_push1_last
  have hentry : ∀ i, i < d.count → spWord g' (entryOffset (qdesc g' q) i) = spWord g (entryOffset d i) := fun i hi => by
    rw [entryOffset_push1]
    exact spWord_push1_entry hi hroom
  exact ⟨hcount, fun hzero => ⟨by rwa [hzero] at hlast, hpopped.trans hzero⟩, fun hpos => ⟨hentry 0 hpos, hpopped⟩, hentry, hlast⟩

/-! ### Queue registers (R235 to R238) -/

section
variable {c : Ctx} {s : State} {w : Nat} {g : Wg} {n : BitVec 4} (hon : c.on = true) (hw : c.tr.wg = some w) (hg : wg? s w = some g)
include hon hw hg

/-- `qbind` of a region that lies in the queue bytes and overlaps no other queue's binds a queue that is unbound or empty. -/
theorem qbindBody_binds (hd : c.x.d = .q n) (hsize : (src c .b .n64 uniTid).toNat ≠ 0)
    (hbase : (src c .a .n64 uniTid).toNat % 256 = 0) (hwhole : (src c .b .n64 uniTid).toNat % 256 = 0)
    (hend : (src c .a .n64 uniTid).toNat + (src c .b .n64 uniTid).toNat ≤ g.qbytes * 256)
    (hapart : qbindOverlaps g n.toNat (src c .a .n64 uniTid).toNat (src c .b .n64 uniTid).toNat = false)
    (hidle : (qdesc g n.toNat).bound = false ∨ (qdesc g n.toNat).count = 0) :
    qbindBody c s = .done (putWg s w (setQ g n.toNat { qdesc g n.toNat with
      bound := true, base := (src c .a .n64 uniTid).toNat / 256, size := (src c .b .n64 uniTid).toNat / 256, count := 0, head := 0 })) {} := by
  have hregion : ¬((src c .a .n64 uniTid).toNat % 256 ≠ 0 ∨ (src c .b .n64 uniTid).toNat % 256 ≠ 0 ∨
      (src c .a .n64 uniTid).toNat + (src c .b .n64 uniTid).toNat > g.qbytes * 256) := by omega
  have hbusy : ((qdesc g n.toNat).bound && decide ((qdesc g n.toNat).count ≠ 0)) = false := by
    rw [Bool.and_eq_false_iff]
    exact hidle.imp id fun h => by simp [h]
  rw [qbindBody, withQueues_ok hw hg hon]
  simp only [hd, queueNum, if_neg hsize, if_neg hregion, hapart, hbusy, Bool.false_eq_true, if_false]

/-- Unbinding a queue that is not bound does nothing. -/
theorem qbindBody_unbound (hd : c.x.d = .q n) (hsize : (src c .b .n64 uniTid).toNat = 0) (hbound : (qdesc g n.toNat).bound = false) :
    qbindBody c s = .done s {} := by
  rw [qbindBody, withQueues_ok hw hg hon]
  simp only [hd, queueNum, hsize, hbound, Bool.not_false, if_true]

/-- Unbinding an empty queue at which no train waits leaves its epoch alone. -/
theorem qbindBody_unbinds (hd : c.x.d = .q n) (hsize : (src c .b .n64 uniTid).toNat = 0) (hbound : (qdesc g n.toNat).bound = true)
    (hempty : (qdesc g n.toNat).count = 0) (hnone : blockedOn s w n.toNat = []) :
    qbindBody c s = .done (putWg s w (setQ g n.toNat { epoch := (qdesc g n.toNat).epoch })) {} := by
  rw [qbindBody, withQueues_ok hw hg hon]
  simp only [hd, queueNum, hsize, hbound, hempty, hnone, Bool.not_true, Bool.false_eq_true, if_false, if_true, ne_eq,
    not_true_eq_false, List.foldl_nil]

end

/-- Settles O19: in a resident workgroup (`withQueues_ok`) the instructions act on the descriptor of the queue that they name; `qbind` has the
three cases of `qbindBody_binds`, `qbindBody_unbound` and `qbindBody_unbinds`. -/
theorem queueRegistersAreBoundReadAndDrained : Obligations.QueueRegistersAreBoundReadAndDrained := by
  unfold Obligations.QueueRegistersAreBoundReadAndDrained
  refine ⟨fun x s k c s' w g n h hon hw hg hd => ?_, fun x s k c s' w g n h hon hw hg ha => ?_,
    fun x s k c s' w g n h hon hw hg ha => ?_⟩
  all_goals obtain rfl := h.seen.args
  · exact ⟨fun hsize hbase hwhole hend hapart hidle =>
        endsWith_of_done h rfl (qbindBody_binds hon hw hg hd hsize hbase hwhole hend hapart hidle),
      fun hsize hbound => endsWith_of_done h rfl (qbindBody_unbound hon hw hg hd hsize hbound),
      fun hsize hbound hempty hnone => endsWith_of_done h rfl (qbindBody_unbinds hon hw hg hd hsize hbound hempty hnone)⟩
  · refine endsWith_of_done h rfl ((withQueues_ok hw hg hon _).trans ?_)
    simp only [ha, queueNum]
  · refine endsWith_of_done h rfl ((withQueues_ok hw hg hon _).trans ?_)
    simp only [ha, queueNum]

end Sys2Proof.Machine
end

section
/-! PROOFS. A failed ring operation changes no memory, every one keeps the order of the pointers, and the ring instructions perform them
(O22, O23, O21). -/

namespace Sys2Proof.Machine

/-! ### Failures (R242) -/

/-- Settles O22: a failure, the mark of which is bit 63 of the result, at most keeps or frees the ring's register (`keepRing_mem`). -/
theorem failedRingOperationsChangeNoMemory : Obligations.FailedRingOperationsChangeNoMemory := by
  unfold Obligations.FailedRingOperationsChangeNoMemory
  intro s u pa op
  unfold ringAt
  split
  next => exact fun _ _ => rfl
  next r _ =>
    split
    next => exact fun _ _ => rfl
    next =>
      split
      next => exact fun _ => keepRing_mem s r
      next s' r' res _ =>
        split
        next => exact fun _ => keepRing_mem s r
        next hok => exact fun hfail => absurd hfail hok

/-! ### Pointers of a ring (R239) -/

namespace RingReg

/-- The order of the pointers: HEAD, READ, TAIL, no further apart than the slots. -/
structure Ordered (r : RingReg) : Prop where
  length : r.block.length = 8
  hd_rd : r.hd ≤ r.rd
  rd_tl : r.rd ≤ r.tl
  tl_hd : r.tl ≤ r.hd + r.nslot

/-- The pointers of `r'` are in order, and none lies before that of `r`. -/
structure Advances (r r' : RingReg) : Prop where
  ordered : r'.Ordered
  hd : r.hd ≤ r'.hd
  rd : r.rd ≤ r'.rd
  tl : r.tl ≤ r'.tl
  nslot : r'.nslot = r.nslot

section
variable {r r' r'' : RingReg} {i v : Nat}

theorem word_lt (r : RingReg) (i : Nat) : r.word i < 2 ^ 64 := BitVec.isLt _

/-- A word of the block beside the one that is set. -/
theorem word_set_ne {j : Nat} (h : j ≠ i) : (r.set i v).word j = r.word j := by simp [word, set, List.getD, h.symm]

theorem hd_set_ne (h : 2 ≠ i) : (r.set i v).hd = r.hd := word_set_ne h
theorem tl_set_ne (h : 3 ≠ i) : (r.set i v).tl = r.tl := word_set_ne h
theorem rd_set_ne (h : 6 ≠ i) : (r.set i v).rd = r.rd := word_set_ne h
theorem nslot_set_ne (h : 1 ≠ i) : (r.set i v).nslot = r.nslot := by rw [nslot, word_set_ne h, nslot]

theorem Ordered.refl (h : r.Ordered) : r.Advances r := ⟨h, le_rfl, le_rfl, le_rfl, rfl⟩

theorem Advances.trans (h : r.Advances r') (h' : r'.Advances r'') : r.Advances r'' :=
  ⟨h'.ordered, h.hd.trans h'.hd, h.rd.trans h'.rd, h.tl.trans h'.tl, h'.nslot.trans h.nslot⟩

/-- The pointers are words of the block. -/
theorem pointers_of_block (hblock : r'.block = r.block) : r'.hd = r.hd ∧ r'.rd = r.rd ∧ r'.tl = r.tl ∧ r'.nslot = r.nslot := by
  simp only [hd, rd, tl, nslot, word, hblock, and_self]

/-- What leaves the block leaves the pointers. -/
theorem Ordered.of_block (h : r.Ordered) (hblock : r'.block = r.block) : r.Advances r' := by
  obtain ⟨hhd, hrd, htl, hnslot⟩ := pointers_of_block hblock
  obtain ⟨hlen, hhd_rd, hrd_tl, htl_hd⟩ := h
  exact ⟨⟨hblock ▸ hlen, by omega, by omega, by omega⟩, hhd.ge, hrd.ge, htl.ge, hnslot⟩

/-- Counting the tickets moves no pointer. -/
theorem Ordered.set_tickets (h : r.Ordered) (v : Nat) : r.Advances (r.set 4 v) := by
  have hhd : (r.set 4 v).hd = r.hd := hd_set_ne (by decide)
  have hrd : (r.set 4 v).rd = r.rd := rd_set_ne (by decide)
  have htl : (r.set 4 v).tl = r.tl := tl_set_ne (by decide)
  have hnslot : (r.set 4 v).nslot = r.nslot := nslot_set_ne (by decide)
  obtain ⟨hlen, hhd_rd, hrd_tl, htl_hd⟩ := h
  exact ⟨⟨(set_len ..).trans hlen, by omega, by omega, by omega⟩, hhd.ge, hrd.ge, htl.ge, hnslot⟩

/-- TAIL moves on as far as there are slots. -/
theorem Ordered.set_tl (h : r.Ordered) (hv : v < 2 ^ 64) (hmore : r.tl ≤ v) (hroom : v ≤ r.hd + r.nslot) :
    r.Advances (r.set 3 v) := by
  have hhd : (r.set 3 v).hd = r.hd := hd_set_ne (by decide)
  have hrd : (r.set 3 v).rd = r.rd := rd_set_ne (by decide)
  have htl : (r.set 3 v).tl = v := (set_word r 3 3 v h.length hv (by decide)).trans (if_pos rfl)
  have hnslot : (r.set 3 v).nslot = r.nslot := nslot_set_ne (by decide)
  obtain ⟨hlen, hhd_rd, hrd_tl, htl_hd⟩ := h
  exact ⟨⟨(set_len ..).trans hlen, by omega, by omega, by omega⟩, hhd.ge, hrd.ge, by omega, hnslot⟩

/-- READ moves on as far as TAIL. -/
theorem Ordered.set_rd (h : r.Ordered) (hmore : r.rd ≤ v) (hlast : v ≤ r.tl) : r.Advances (r.set 6 v) := by
  have hhd : (r.set 6 v).hd = r.hd := hd_set_ne (by decide)
  have hrd : (r.set 6 v).rd = v := (set_word r 6 6 v h.length (hlast.trans_lt (word_lt r 3)) (by decide)).trans (if_pos rfl)
  have htl : (r.set 6 v).tl = r.tl := tl_set_ne (by decide)
  have hnslot : (r.set 6 v).nslot = r.nslot := nslot_set_ne (by decide)
  obtain ⟨hlen, hhd_rd, hrd_tl, htl_hd⟩ := h
  exact ⟨⟨(set_len ..).trans hlen, by omega, by omega, by omega⟩, hhd.ge, by omega, htl.ge, hnslot⟩

/-- HEAD passes released slots as far as READ (R246). -/
theorem Ordered.advanceHead {u : RingUser} {n : Nat} {x y : State × RingReg} (h : x.2.Ordered) (hadv : advanceHead u n x = some y) :
    x.2.Advances y.2 := by
  obtain ⟨hlen, hhd_rd, hrd_tl, htl_hd⟩ := h
  obtain ⟨hlen', hhd, hhd_rd', hrd, htl, hnslot⟩ := advanceHead_ptr hadv hlen hhd_rd (word_lt x.2 6)
  exact ⟨⟨hlen', hhd_rd', by omega, by omega⟩, hhd, hrd.ge, htl.ge, hnslot⟩

end

end RingReg

/-! ### Ring operations (R243 to R246) -/

section
variable {u : RingUser} {n ticket : Nat} {x y : State × RingReg} {res : Dword}

/-- `racq` moves TAIL past the slots that it skips and reserves, where there are so many (R243). -/
theorem ringAcq_advances (ho : x.2.Ordered) (hwrap : x.2.tl + 2 * x.2.nslot < 2 ^ 64) (h : ringAcq u n x = some (y, res)) :
    x.2.Advances y.2 := by
  unfold ringAcq at h
  dsimp only at h
  generalize (if x.2.tl % x.2.nslot + n > x.2.nslot then x.2.nslot - x.2.tl % x.2.nslot else 0) = skipped at h
  split at h
  next => cases h; exact ho.refl
  split at h
  next => cases h; exact ho.refl
  split at h
  next => cases h; exact ho.refl
  next hroom =>
    split at h
    next => cases h
    next hskip =>
      split at h
      next => cases h
      next s' r' hreserve =>
        cases h
        have hblock := (writeEntries_block hreserve).trans (writeEntries_block hskip)
        obtain ⟨hhd, -, htl, hnslot⟩ := RingReg.pointers_of_block hblock
        have hsame := ho.of_block hblock
        have hmoved : r'.Advances (r'.set 3 (x.2.tl + skipped + n)) := by
          have hhd_tl := ho.hd_rd.trans ho.rd_tl
          exact hsame.ordered.set_tl (by omega) (by omega) (by omega)
        exact (hsame.trans hmoved).trans (hmoved.ordered.set_tickets _)

/-- `rcom` moves no pointer (R244). -/
theorem ringCom_advances {skip : Bool} (ho : x.2.Ordered) (h : ringCom u skip ticket n x = some (y, res)) : x.2.Advances y.2 := by
  unfold ringCom at h
  dsimp only at h
  split at h
  next => cases h; exact ho.refl
  split at h
  next => cases h; exact ho.refl
  split at h
  next => cases h
  next => cases h; exact ho.refl
  next =>
    split at h
    next => cases h
    next hchange => cases h; exact ho.of_block (changeEntries_block hchange)

/-- `rpeek` that takes moves READ past the slot or the run that it takes, which ends at TAIL (R245). -/
theorem ringPeek_advances {take : Bool} (ho : x.2.Ordered) (h : ringPeek u take x = some (y, res)) : x.2.Advances y.2 := by
  unfold ringPeek at h
  dsimp only at h
  split at h
  next => cases h; exact ho.refl
  next hsome =>
    split at h
    next => cases h
    split at h
    next =>
      split at h
      next =>
        split at h
        next => cases h
        next s' r' hwrite =>
          cases h
          have hblock : r'.block = x.2.block := writeEntry_block hwrite
          obtain ⟨-, hrd, htl, -⟩ := RingReg.pointers_of_block hblock
          have hsame := ho.of_block hblock
          have hrd_tl := ho.rd_tl
          exact hsame.trans (hsame.ordered.set_rd (by omega) (by omega))
      next => cases h; exact ho.refl
    split at h
    next =>
      split at h
      next =>
        split at h
        next => cases h
        next m hrun =>
          split at h
          next => cases h
          next s' r' hchange =>
            split at h
            next => cases h
            next hadv =>
              cases h
              have hblock : r'.block = x.2.block := changeEntries_block hchange
              obtain ⟨-, hrd, htl, -⟩ := RingReg.pointers_of_block hblock
              have hsame := ho.of_block hblock
              have hend := skipRun_le hrun ho.rd_tl
              have hmoved := hsame.ordered.set_rd (v := r'.rd + m) (by omega) (by omega)
              exact (hsame.trans hmoved).trans (hmoved.ordered.advanceHead hadv)
      next => cases h; exact ho.refl
    next => cases h; exact ho.refl

/-- `rrel` lets HEAD pass released slots (R246). -/
theorem ringRel_advances (ho : x.2.Ordered) (h : ringRel u ticket n x = some (y, res)) : x.2.Advances y.2 := by
  unfold ringRel at h
  dsimp only at h
  split at h
  next => cases h; exact ho.refl
  split at h
  next => cases h; exact ho.refl
  split at h
  next => cases h
  next => cases h; exact ho.refl
  next =>
    split at h
    next => cases h
    next hchange =>
      split at h
      next => cases h
      next hadv =>
        cases h
        have hsame := ho.of_block (changeEntries_block hchange)
        exact hsame.trans (hsame.ordered.advanceHead hadv)

end

/-- Settles O23: what an operation writes of the bitmap leaves the block (`RingReg.Ordered.of_block`), and where it moves a pointer, the
pointer stays in order (`ringAcq_advances`, `ringPeek_advances`, `ringRel_advances`). -/
theorem ringPointersStayOrdered : Obligations.RingPointersStayOrdered := by
  unfold Obligations.RingPointersStayOrdered
  intro s u op r s' r' res happly hlen hhd hrd htl hwrap
  have ho : r.Ordered := ⟨hlen, hhd, hrd, htl⟩
  have hadv : r.Advances r' := by
    cases op with
    | acq n => exact ringAcq_advances ho hwrap happly
    | com skip ticket n => exact ringCom_advances ho happly
    | peek take => exact ringPeek_advances ho happly
    | rel ticket n => exact ringRel_advances ho happly
  exact ⟨hadv.ordered.hd_rd, hadv.ordered.rd_tl, hadv.ordered.tl_hd, hadv.hd, hadv.rd, hadv.tl, hadv.nslot⟩

/-! ### Ring instructions (R241, R247) -/

/-- A ring instruction whose block is reached performs its operation there, after its train's earlier accesses. -/
theorem ringBody_performs {op : Ctx → RingOp} {c : Ctx} {s s2 : State} {pa : Nat} (hon : c.on = true)
    (hblock : access (performEarlier s c.k) c.tr .load (rdOpnd c c.x.a .n64 uniTid) 64 = (s2, .mem pa)) :
    let r := ringAt s2 { part := c.tr.part, asid := c.tr.asid, priv := c.tr.priv } pa (op c)
    ringBody op c s = .done r.1 { vals := [(uniTid, r.2)] } := by
  simp only [ringBody, hon, Bool.not_true, Bool.false_eq_true, if_false, hblock]

/-- Settles O21: each ring instruction is issued with its operation as its meaning, so `ringBody_performs` applies. -/
theorem ringInstructionsPerformTheirOperation : Obligations.RingInstructionsPerformTheirOperation := by
  unfold Obligations.RingInstructionsPerformTheirOperation
  intro act
  have hact : ∀ i x op, (∀ s, exec i s = issue i x true s (ringBody op)) → act i x op := by
    intro i x op he s k c s' s2 pa h hon hblock
    obtain rfl := h.seen.args
    obtain rfl := h.seen.slot
    exact endsWith_of_done h (he s) (ringBody_performs hon hblock)
  exact ⟨fun x sc => hact _ x _ fun s => rfl, fun x sc => hact _ x _ fun s => rfl, fun x sc => hact _ x _ fun s => rfl,
    fun x sc => hact _ x _ fun s => rfl, fun x sc => hact _ x _ fun s => rfl, fun x sc => hact _ x _ fun s => rfl⟩

end Sys2Proof.Machine
end

section
/-! PROOFS. `stage.cfg` makes the outstanding loads of the table's bytes return first, which the statement that it refutes
leaves out (O24). -/

namespace Sys2Proof.Machine

/-! ### The load of a stage table (R189, R249) -/

/-- A train reads the same bytes where memory is the same. -/
theorem trainMem_congr {s s' : State} (h : SameMemory s s') (tr : Train) (pa n : Nat) : trainMem s' tr pa n = trainMem s tr pa n := by
  have hbytes : trainBytes s' tr pa n = trainBytes s tr pa n := by
    induction n generalizing pa with
    | zero => rfl
    | succ n ih => simp only [trainBytes, overlay_congr h, ih]
  rw [trainMem, hbytes, trainMem]

/-- Loads that return change no byte of memory. -/
theorem trainMem_settleLoads (s : State) (k : Nat) (places : List (Nat × Nat)) (m : Nat) (tr : Train) (pa n : Nat) :
    trainMem (settleLoads s k places m) tr pa n = trainMem s tr pa n := by
  obtain ⟨ts, hframe, -⟩ := returnLoads_frame s k fun ld => places.any fun e => loadTouches ld e.2 m
  exact trainMem_congr (fun a => by rw [settleLoads, hframe]; rfl) tr pa n

/-- The stage table that a train reads at a place. -/
def stageTableAt (s : State) (tr : Train) (pa : Nat) : List Dword :=
  (List.range 8).map fun i => BitVec.ofNat 64 (bitsAt (trainMem s tr pa 64) (64 * i) 64)

/-- `stage.cfg` whose table is reached and is no valid one: the outstanding loads of its bytes return, and nothing else changes. -/
theorem stageCfgBody_invalid {c : Ctx} {s s2 : State} {w pa : Nat} {g : Wg} (hon : c.on = true) (hu : c.x.u = true)
    (hw : c.tr.wg = some w) (hg : wg? s w = some g)
    (ht : Translates c s .load 64 (fun _ => rdOpnd c c.x.a .n64 uniTid) (fun _ => pa) s2)
    (hinvalid : StageTab.invalid (stageTableAt s2 c.tr pa) = true) :
    stageCfgBody c s = .done (clearReplies (settleLoads s2 c.k [(uniTid, pa)] 64) c.k) { vals := [(uniTid, Rc.invalid)] } := by
  have hplaces := withPlaces_ok ht (fun _ => .read 64)
  have hviol := violations_mem c.tr.replies c.lanes (fun _ => rdOpnd c c.x.a .n64 uniTid) fun _ => pa
  have hlocal := localPlaces_mem c.lanes (fun _ => rdOpnd c c.x.a .n64 uniTid) fun _ => pa
  simp only [lanes_uniform hu hon, List.map_cons, List.map_nil] at hplaces hviol hlocal
  rw [stageTableAt] at hinvalid
  rw [stageCfgBody, withQueues_ok hw hg hon, hplaces]
  simp only [hviol, hlocal, List.isEmpty_nil, if_true, violationTrap_nil, trainMem_settleLoads, hinvalid]

/-! ### A train that waits for a byte of its table -/

/-- `stage.cfg` of the table to which `s2` points. -/
def configuring : Args := { u := true, nwb := false, kg := 0, kn := false, d := .s 4, a := .s 2, b := .zero, c := .zero, ext := .short }

/-- A train that issues `configuring` while it has a load of the first word of the table outstanding. -/
def loadingTrain : Train :=
  { placeTrain with s := [(2, 0x8000)], loads := [{ u := false, dst := .v 5, ty := .b32, parts := [(0, 0x8000)] }] }

def loadingState : State := { putTrain (placeFetch State.reset 0) 0 loadingTrain with current := some 0 }

/-- What `configuring` sees there: no gate holds it back. -/
def configuringCtx : Ctx := ctxOf (.stageCfg configuring) configuring loadingState 0 loadingTrain

theorem configuring_ready : Ready (.stageCfg configuring) configuring loadingState 0 configuringCtx loadingState :=
  ⟨rfl, loadingTrain, rfl, gates_of_free rfl rfl rfl rfl (by decide) (by simp [NamesNoQueue, configuring])⟩

/-- The core keeps the translation of the table. -/
def loadingTranslated : State := (access loadingState loadingTrain .load 0x8000 64).1

theorem configuring_translates : Translates configuringCtx loadingState .load 64 (fun _ => rdOpnd configuringCtx configuring.a .n64 uniTid)
    (fun _ => 0x8000) loadingTranslated := by
  have hva : rdOpnd configuringCtx configuring.a .n64 uniTid = 0x8000 := by decide
  have hplace : access loadingState configuringCtx.tr .load 0x8000 64 = (loadingTranslated, .mem 0x8000) := Prod.ext rfl (by decide)
  refine ⟨rfl, ?_⟩
  simp only [lanes_uniform (c := configuringCtx) rfl rfl, List.map_cons, List.map_nil, hva, translateAll, hplace, homeXl_mem]

/-- The number of outstanding loads of the train in slot 0. -/
def loadsLeft (s : State) : Option Nat := (train? s 0).map (·.loads.length)

/-- Refutes O24: where the train has a load of a byte of the table outstanding, as `loadingTrain` has, that load returns before
`stage.cfg` reads the table (`stageCfgBody_invalid`, R189), but the state that the statement's first clause gives leaves it outstanding. -/
theorem not_stageInstructionsRunTheStageTable : ¬ Obligations.StageInstructionsRunTheStageTable := by
  unfold Obligations.StageInstructionsRunTheStageTable
  intro ⟨hcfg, _⟩
  have hinvalid : StageTab.invalid (stageTableAt loadingTranslated loadingTrain 0x8000) = true := by decide +kernel
  obtain ⟨hends, _⟩ := hcfg configuring loadingState 0 configuringCtx loadingState 0 placeWorkgroup 0x8000 loadingTranslated
    configuring_ready rfl rfl rfl rfl configuring_translates
  have hsettled := endsWith_of_done configuring_ready rfl
    (stageCfgBody_invalid rfl rfl rfl rfl configuring_translates hinvalid)
  have hsame := (hends hinvalid).symm.trans hsettled
  have hloads := congrArg loadsLeft (Host.Outcome.next.inj hsame)
  exact absurd hloads (by decide)

end Sys2Proof.Machine
end

section
/-! PROOFS. `waita` waits while a condition fails, and completes when every one holds or at its deadline (O18). -/

namespace Sys2Proof.Machine

/-! ### One round of reads (R229) -/

theorem waitHolds_iff {eq : Bool} {w : WaitCell} {v : Nat} : waitHolds eq w v = true ↔ (v = w.operand ↔ eq = true) := by
  cases eq <;> simp [waitHolds]

/-- A round in which every thread reads a value: the threads whose condition fails are left. -/
theorem waitRound_values {read : WaitCell → WaitGot} {mk : Nat → WaitCell} {val : Nat → Nat} (eq : Bool) (htid : ∀ l, (mk l).tid = l)
    {lanes : List Nat} (hread : ∀ l ∈ lanes, read (mk l) = .value (val l)) {vals : List (Nat × Nat)} (hnodup : lanes.Nodup)
    (hnew : ∀ l ∈ lanes, ∀ e ∈ vals, e.1 ≠ l) :
    waitRound read eq (lanes.map mk) vals =
      { left := (lanes.map mk).filter fun w => !waitHolds eq w (val w.tid), vals := vals ++ lanes.map fun l => (l, val l) } := by
  induction lanes generalizing vals with
  | nil => simp [waitRound]
  | cons a lanes ih =>
    obtain ⟨ha, hnodup⟩ := List.nodup_cons.1 hnodup
    have hkept : vals.filter (fun e => decide (e.1 ≠ a)) = vals :=
      List.filter_eq_self.2 fun e he => by simpa using hnew a List.mem_cons_self e he
    have hnew' : ∀ l ∈ lanes, ∀ e ∈ vals ++ [(a, val a)], e.1 ≠ l := by
      intro l hl e he
      rcases List.mem_append.1 he with he | he
      · exact hnew l (List.mem_cons_of_mem a hl) e he
      · obtain rfl := List.mem_singleton.1 he
        rintro rfl
        exact ha hl
    simp only [List.map_cons, waitRound, hread a List.mem_cons_self, htid, hkept,
      ih (fun l hl => hread l (List.mem_cons_of_mem a hl)) hnodup hnew', List.filter_cons, List.append_assoc, List.singleton_append]
    cases waitHolds eq (mk a) (val a) <;> rfl

/-! ### What a `waita` leaves of the machine before its first read (R186, R189) -/

/-- Beside the train in slot `k` nothing that `waita` reads has changed: no other train, no byte of memory, not the clock. -/
structure SameBeside (k : Nat) (s t : State) : Prop where
  trains : OtherTrains k s t
  memory : SameMemory s t
  clk : t.clk = s.clk
  train : (train? s k).isSome → (train? t k).isSome

section
variable {s t u : State} {k : Nat}

theorem SameBeside.trans (h : SameBeside k s t) (h' : SameBeside k t u) : SameBeside k s u :=
  ⟨fun j hj => (h'.trains j hj).trans (h.trains j hj), fun a => (h'.memory a).trans (h.memory a), h'.clk.trans h.clk,
    fun hs => h'.train (h.train hs)⟩

theorem modTrain_sameBeside (s : State) (k : Nat) (f : Train → Train) : SameBeside k s (modTrain s k f) :=
  ⟨fun j hj => by rw [train?_modTrain, if_neg hj], fun _ => rfl, rfl, fun h => by simpa using h⟩

theorem touchStall_sameBeside (s : State) (k : Nat) : SameBeside k s (touchStall s k) := by
  unfold touchStall
  split
  · exact ⟨fun _ _ => rfl, fun _ => rfl, rfl, id⟩
  · exact ⟨fun _ _ => rfl, fun _ => rfl, rfl, id⟩

theorem loadRoom_sameBeside (s : State) (k : Nat) : SameBeside k s (loadRoom s k) := by
  unfold loadRoom
  split
  · next tr htr =>
    split
    · obtain ⟨ts, hframe, hothers⟩ := returnLoad_frame s k 0
      obtain ⟨tr', htr', -⟩ := returnLoad_train htr 0
      refine ⟨?_, ?_, ?_, fun _ => Option.isSome_of_eq_some htr'⟩ <;> rw [hframe]
      · exact hothers
      · exact fun _ => rfl
    · exact ⟨fun _ _ => rfl, fun _ => rfl, rfl, id⟩
  · exact ⟨fun _ _ => rfl, fun _ => rfl, rfl, id⟩

theorem settleLoads_sameBeside (s : State) (k : Nat) (places : List (Nat × Nat)) (n : Nat) :
    SameBeside k s (settleLoads s k places n) := by
  obtain ⟨ts, hframe, hothers⟩ := returnLoads_frame s k fun ld => places.any fun e => loadTouches ld e.2 n
  refine ⟨?_, ?_, ?_, fun h => ?_⟩
  · rw [settleLoads, hframe]
    exact hothers
  · rw [settleLoads, hframe]
    exact fun _ => rfl
  · rw [settleLoads, hframe]
  · obtain ⟨tr, htr⟩ := Option.isSome_iff_exists.1 h
    exact settle_train htr places n

theorem SameButCores.sameBeside (h : SameButCores s t) (k : Nat) : SameBeside k s t := by
  rw [h]
  exact ⟨fun _ _ => rfl, fun _ => rfl, rfl, id⟩

theorem Seen.sameBeside {i : Instr} {x : Args} {c : Ctx} (h : Seen i x s k c t) : SameBeside k s t :=
  ⟨h.trains, h.readByte, by rw [h.frame], fun _ => Option.isSome_of_eq_some h.train⟩

end

/-! ### The first read of a `waita` (R228, R229) -/

/-- The end of the bound of a `waita`, if it has one; one that was under way before keeps its own. -/
def waitBound (c : Ctx) (s : State) : Option Nat :=
  if c.x.c = .zero then none else some (c.tr.deadline.getD (s.clk + (rdOpnd c c.x.c .b32 uniTid).toNat))

/-- The state in which the train waits for the threads of `r` that are left. -/
def waiting (i : Instr) (dl : Option Nat) (c : Ctx) (s : State) (tr : Train) (r : Waiting) : State :=
  modTrain (blockAt s c.k c.head (.waita c.x.sp r.left r.vals tr.pc tr.chain none s.clk)) c.k fun tr =>
    { tr with deadline := dl, atWait := some i, replies := [] }

/-- The first read of threads of which none violates: the `waita` completes, or its train waits. -/
def firstRead (i : Instr) (dl : Option Nat) (c : Ctx) (s : State) (tr : Train) (r : Waiting) : Res :=
  if r.left.isEmpty || dl.any (· ≤ s.clk) then .done (clearDeadline s c.k) { vals := waitVals r.vals }
  else .left (waiting i dl c s tr r)

/-- What a thread waits for at its place. -/
def waitCell (c : Ctx) (t : Ty) (addr : Nat → Nat) (va : Nat → Dword) (l : Nat) : WaitCell :=
  { tid := l, addr := addr l, operand := atomData c c.x.b t l, va := va l }

theorem map_waitCell (c : Ctx) (t : Ty) (addr : Nat → Nat) (va : Nat → Dword) (lanes : List Nat) : lanes.map (waitCell c t addr va) =
    lanes.map fun l => { tid := l, addr := addr l, operand := atomData c c.x.b t l, va := va l } := rfl

section
variable {i : Instr} {t : Ty} {eq : Bool} {c : Ctx} {s s2 : State} {tr : Train} {dl : Option Nat} {r : Waiting}

/-- The train waits at the head of its chain, with the bound of its `waita`. -/
theorem train?_waiting (htr : train? s c.k = some tr) : train? (waiting i dl c s tr r) c.k = some { rewindTo tr c.head with
    block := some (.waita c.x.sp r.left r.vals tr.pc tr.chain none s.clk), deadline := dl, atWait := some i, replies := [] } := by
  have htouched : train? (touchStall s c.k) c.k = some tr := by rw [train?, touchStall_trains]; exact htr
  simp only [waiting, blockAt, train?_modTrain, if_true, htouched, Option.map_some]

/-- A train that waits in `waita` keeps its deadline. -/
theorem forgetDeadline_waiting (htr : train? s c.k = some tr) :
    forgetDeadline (waiting i dl c s tr r) c.k = waiting i dl c s tr r := by
  simp only [forgetDeadline, train?_waiting htr, Option.bind_some]

/-- A `waita` on a scratchpad that allows all its reads. -/
theorem waitaBody_scratchpad {g : Wg} (hsp : c.x.sp = true) (htr : train? s c.k = some c.tr) (hg : wgOf s c.tr = some g)
    (hok : ∀ l ∈ c.lanes, spFate g true (atomicSp c l) (tyBytes t) = .ok) :
    waitaBody i t eq c s = firstRead i (waitBound c s) c s c.tr
      (waitRound (waitRead s c.tr c.x.sp (tyBytes t)) eq (c.lanes.map (waitCell c t (atomicSp c) fun _ => 0)) []) := by
  have hnone : c.lanes.filter (fun l => !(c.lanes.map fun l => (l, atomicSp c l)).any fun e => decide (e.1 = l)) = [] := by simp
  simp only [waitaBody, hsp, if_true, withSp_ok hg hok, htr, hnone, List.map_nil, List.map_map, Function.comp_def, firstRead, waiting,
    waitBound, map_waitCell]

/-- A `waita` on memory whose reads all reach this module's: the loads of the bytes return first. -/
theorem waitaBody_global {pa : Nat → Nat} {s3 : State} (hsp : c.x.sp = false)
    (ht : Translates c (modTrain (loadRoom s c.k) c.k fun tr => { tr with deadline := waitBound c s }) .load (tyBytes t)
      (atomicGlobal c) pa s2)
    (hs3 : settleLoads s2 c.k (c.lanes.map fun l => (l, pa l)) (tyBytes t) = s3) (htr : train? s3 c.k = some tr) :
    waitaBody i t eq c s = firstRead i (waitBound c s) c s3 tr
      (waitRound (waitRead s3 tr c.x.sp (tyBytes t)) eq (c.lanes.map (waitCell c t pa (atomicGlobal c))) []) := by
  have hplaces := withPlaces_ok ht fun _ => .read (tyBytes t)
  have hforget := forgetDeadline_waiting (i := i) (dl := waitBound c s) (r := waitRound (waitRead s3 tr c.x.sp (tyBytes t)) eq
    (c.lanes.map (waitCell c t pa (atomicGlobal c))) []) htr
  have hbound : (if c.x.c = .zero then none else some (c.tr.deadline.getD (s.clk + (rdOpnd c c.x.c .b32 uniTid).toNat)))
      = waitBound c s := rfl
  simp only [waitaBody, hsp, hbound, Bool.false_eq_true, if_false, hplaces, violations_mem, localPlaces_mem, violationTrap_nil, hs3, htr,
    List.map_nil, List.filterMap_map, Function.comp_def, List.filterMap_eq_map', firstRead, waiting, map_waitCell]
  simp only [waiting, hsp, map_waitCell] at hforget
  split_ifs
  · rfl
  · exact congrArg Res.left hforget

/-- Where every thread reads a value, the wait is over when every condition holds. -/
theorem waitRound_cells {read : WaitCell → WaitGot} {addr val : Nat → Nat} {va : Nat → Dword}
    (hread : ∀ l, read (waitCell c t addr va l) = .value (val l)) :
    let r := waitRound read eq (c.lanes.map (waitCell c t addr va)) []
    (r.left = [] ↔ ∀ l ∈ c.lanes, val l = atomData c c.x.b t l ↔ eq = true) ∧ r.vals = c.lanes.map fun l => (l, val l) := by
  rw [waitRound_values eq (fun _ => rfl) (fun l _ => hread l) (lanes_nodup c) (by simp)]
  simp [List.filter_eq_nil_iff, waitHolds_iff, waitCell]

/-- A `waita` completes when no thread waits any more, and at the end of its bound. -/
theorem waitOver_iff : (r.left.isEmpty || dl.any (· ≤ s.clk)) = true ↔ r.left = [] ∨ ∃ d, dl = some d ∧ d ≤ s.clk := by
  simp [Option.any_eq_true]

theorem firstRead_done {val : Nat → Nat} (hvals : r.vals = c.lanes.map fun l => (l, val l))
    (hends : r.left = [] ∨ ∃ d, dl = some d ∧ d ≤ s.clk) : firstRead i dl c s tr r = .done (clearDeadline s c.k)
      { vals := c.lanes.map fun l => (l, BitVec.ofNat 64 (val l)) } := by
  rw [firstRead, if_pos (waitOver_iff.2 hends), hvals, waitVals, List.map_map]
  rfl

theorem firstRead_left (hleft : r.left ≠ []) (hbound : ∀ d, dl = some d → s.clk < d) :
    firstRead i dl c s tr r = .left (waiting i dl c s tr r) :=
  if_neg fun hover => (waitOver_iff.1 hover).elim hleft fun ⟨d, hd, hle⟩ => (hbound d hd).not_ge hle

theorem waiting_sameBeside (i : Instr) (dl : Option Nat) (c : Ctx) (s : State) (tr : Train) (r : Waiting) :
    SameBeside c.k s (waiting i dl c s tr r) :=
  ((touchStall_sameBeside s c.k).trans (modTrain_sameBeside _ c.k _)).trans (modTrain_sameBeside _ c.k _)

/-- The bound has passed exactly when there is one and its end lies behind. -/
theorem waitBound_le : (∃ d, waitBound c s = some d ∧ d ≤ s.clk) ↔
    c.x.c ≠ .zero ∧ c.tr.deadline.getD (s.clk + (rdOpnd c c.x.c .b32 uniTid).toNat) ≤ s.clk := by
  by_cases hzero : c.x.c = .zero <;> simp [waitBound, hzero]

end

/-! ### Later reads, and the end of the wait -/

section
variable {s : State} {k : Nat} {tr : Train} {x : Args} {t : Ty} {eq sp : Bool} {cells : List WaitCell} {vals : List (Nat × Nat)}
  {pc : Dword} {chain : Chain} {trap : Option TrapRec} {last : Nat} (htr : train? s k = some tr)
  (hblock : tr.block = some (.waita sp cells vals pc chain trap last)) (hatWait : tr.atWait = some (.waita x t eq))
include htr hblock hatWait

/-- A later read ends the wait when no thread is left, and asks again for the others. -/
theorem exec_waitaReread : let r := waitRound (waitRead s tr sp (tyBytes t)) eq cells vals
    exec (.waitaReread k) s = .next (if r.left.isEmpty then finishWaita s k x t r.vals pc chain (addViolations x pc trap r.viol)
      else askAgain (modTrain s k fun me => { me with
        block := some (.waita sp r.left r.vals pc chain (addViolations x pc trap r.viol) s.clk), replies := [] })
        k (tyBytes t) r.left) := by
  obtain ⟨⟩ := tr
  cases hblock
  cases hatWait
  simp only [exec, execWaitaReread, unitStep, htr, Option.elim_some]

/-- At the deadline the threads that wait read once more. -/
theorem exec_waitaDeadline {d : Nat} (hdeadline : tr.deadline = some d) (hpast : d ≤ s.clk) :
    let r := waitRound (waitRead s tr sp (tyBytes t)) eq cells vals
    exec (.waitaDeadline k) s = .next (finishWaita s k x t r.vals pc chain (addViolations x pc trap r.viol)) := by
  obtain ⟨⟩ := tr
  cases hblock
  cases hatWait
  cases hdeadline
  simp only [exec, execWaitaDeadline, unitStep, htr, if_pos hpast, Option.elim_some]

end

/-- The train when its wait ends: it stands behind its first read again, with nothing awaited. -/
def awake (tr : Train) (pc : Dword) (chain : Chain) : Train :=
  { tr with block := none, atWait := none, deadline := none, replies := [], pc := pc, chain := chain }

/-- The end of a wait completes the `waita` of the train that is awake. -/
theorem train?_finishWaita {s : State} {k : Nat} {tr : Train} {x : Args} {t : Ty} {i : Instr} {pc : Dword} {chain : Chain}
    {vals : List (Nat × Nat)} (htr : train? s k = some tr) (hatWait : tr.atWait = some i) (hd : ∀ n, x.d ≠ .q n) :
    train? (finishWaita s k x t vals pc chain none) k =
      some (completeTrain i x t.wide { vals := waitVals vals } pc (awake tr pc chain)) := by
  obtain ⟨_, hs, hunblocked, -, -⟩ := unblock_unblocked htr
  obtain rfl := Option.some.inj (htr.symm.trans hs)
  have hawake : train? (modTrain (forsake (clearDeadline (unblock s k) k) k) k fun tr => { tr with pc := pc, chain := chain }) k
      = some (awake tr pc chain) := by
    simp only [train?_modTrain, if_true, forsake_train?, clearDeadline, hunblocked, Option.map_some, awake]
  obtain ⟨⟩ := tr
  cases hatWait
  simp only [finishWaita, htr, complete, pushRelease_of_no_queue hd, hawake, train?_putTrain, if_true]

/-! ### What the first read decides -/

/-- With `val` read in the state `s3`, a `waita` completes where every condition holds or its bound has passed, and else its train waits
for the threads that are left. -/
structure FirstReadDecides (x : Args) (t : Ty) (eq : Bool) (s : State) (k : Nat) (c : Ctx) (s' s3 : State) (val : Nat → Nat) : Prop where
  ends : (∀ l ∈ c.lanes, val l = atomData c x.b t l ↔ eq = true) ∨ (∃ d, waitBound c s' = some d ∧ d ≤ s'.clk) →
    EndsWith (.waita x t eq) x t.wide s c (clearDeadline s3 k) { vals := c.lanes.map fun l => (l, BitVec.ofNat 64 (val l)) }
  waits : ¬(∀ l ∈ c.lanes, val l = atomData c x.b t l ↔ eq = true) → (∀ d, waitBound c s' = some d → s'.clk < d) →
    ∃ s2 tr' cells vals pc chain last, exec (.waita x t eq) s = .next s2 ∧ train? s2 k = some tr' ∧ OtherTrains k s s2 ∧
      SameMemory s s2 ∧ tr'.block = some (.waita x.sp cells vals pc chain none last) ∧ cells ≠ [] ∧
      tr'.atWait = some (.waita x t eq) ∧ tr'.deadline = waitBound c s'

section
variable {x : Args} {t : Ty} {eq : Bool} {s s' : State} {k : Nat} {c : Ctx}

/-- A first read in a state that differs from the ready one in its own train only. -/
theorem firstReadDecides_of_body {s3 : State} {tr : Train} {addr val : Nat → Nat} {va : Nat → Dword}
    (h : Ready (.waita x t eq) x s k c s')
    (hbody : waitaBody (.waita x t eq) t eq c s' = firstRead (.waita x t eq) (waitBound c s') c s3 tr
      (waitRound (waitRead s3 tr c.x.sp (tyBytes t)) eq (c.lanes.map (waitCell c t addr va)) []))
    (hread : ∀ l, waitRead s3 tr c.x.sp (tyBytes t) (waitCell c t addr va l) = .value (val l))
    (htr : train? s3 k = some tr) (hbeside : SameBeside k s' s3) : FirstReadDecides x t eq s k c s' s3 val := by
  obtain rfl := h.seen.args
  obtain rfl := h.seen.slot
  obtain ⟨hleft, hvals⟩ := waitRound_cells (eq := eq) hread
  generalize waitRound .. = r at hbody hleft hvals
  constructor
  · intro hends
    rw [← hleft, ← hbeside.clk] at hends
    exact endsWith_of_done h rfl (hbody.trans (firstRead_done hvals hends))
  · intro hwaits hbound
    rw [← hleft] at hwaits
    rw [← hbeside.clk] at hbound
    have hall := (h.seen.sameBeside.trans hbeside).trans (waiting_sameBeside (.waita c.x t eq) (waitBound c s') c s3 tr r)
    exact ⟨_, _, _, _, _, _, _, exec_of_left h rfl (hbody.trans (firstRead_left hwaits hbound)), train?_waiting htr, hall.trains,
      hall.memory, rfl, hwaits, rfl, rfl⟩

theorem waita_scratchpad {w : Nat} {g : Wg} (h : Ready (.waita x t eq) x s k c s') (hsp : x.sp = true) (hw : c.tr.wg = some w)
    (hg : wg? s' w = some g) (hok : ∀ l ∈ c.lanes, spFate g true (atomicSp c l) (tyBytes t) = .ok) :
    FirstReadDecides x t eq s k c s' s' fun l => spRead g (atomicSp c l) (tyBytes t) := by
  obtain rfl := h.seen.args
  obtain rfl := h.seen.slot
  refine firstReadDecides_of_body h (waitaBody_scratchpad hsp h.seen.train (wgOf_eq hw hg) hok) (fun l => ?_) h.seen.train
    ⟨fun _ _ => rfl, fun _ => rfl, rfl, id⟩
  simp only [waitRead, hsp, if_true, wgOf_eq hw hg, Option.elim_some, waitCell]

theorem waita_global {pa : Nat → Nat} {s2 : State} (h : Ready (.waita x t eq) x s k c s') (hsp : x.sp = false)
    (ht : Translates c (modTrain (loadRoom s' k) k fun tr => { tr with deadline := waitBound c s' }) .load (tyBytes t)
      (atomicGlobal c) pa s2) :
    let s3 := settleLoads s2 k (c.lanes.map fun l => (l, pa l)) (tyBytes t)
    ∃ tr, train? s3 k = some tr ∧ FirstReadDecides x t eq s k c s' s3 fun l => trainMem s3 tr (pa l) (tyBytes t) := by
  obtain rfl := h.seen.args
  obtain rfl := h.seen.slot
  intro s3
  have hbeside : SameBeside c.k s' s3 := (((loadRoom_sameBeside s' c.k).trans (modTrain_sameBeside _ c.k _)).trans
    (ht.sameButCores.sameBeside c.k)).trans (settleLoads_sameBeside ..)
  obtain ⟨tr, htr⟩ := Option.isSome_iff_exists.1 (hbeside.train (Option.isSome_of_eq_some h.seen.train))
  refine ⟨tr, htr, firstReadDecides_of_body h (waitaBody_global hsp ht rfl htr) (fun l => ?_) htr hbeside⟩
  simp only [waitRead, hsp, Bool.false_eq_true, if_false, waitCell]

end

/-- Settles O18: the first read decides (`waita_scratchpad`, `waita_global`), a later one and that at the deadline go on from the threads
that are left (`exec_waitaReread`, `exec_waitaDeadline`), and the end of the wait completes the instruction (`train?_finishWaita`). -/
theorem waitaEndsWhenEveryConditionHolds : Obligations.WaitaEndsWhenEveryConditionHolds := by
  unfold Obligations.WaitaEndsWhenEveryConditionHolds
  refine ⟨fun x t eq s k c s' w g h hsp hw hg hok hends => ?_, fun x t eq s k c s' w g h hsp hw hg hok hwaits hbound => ?_,
    fun x t eq s k c s' pa s2 h hsp ht => ?_,
    fun s k tr x t eq sp cells vals pc chain trap last htr hblock hatWait => ⟨fun hleft => ?_, fun hleft => ?_⟩,
    fun s k tr x t eq sp cells vals pc chain trap last d htr hblock hatWait hdeadline hpast =>
      exec_waitaDeadline htr hblock hatWait hdeadline hpast,
    fun s k tr x t eq sp cells lanes val pc chain last htr hblock hatWait hfits hd => ?_⟩
  · obtain rfl := h.seen.args
    exact (waita_scratchpad h hsp hw hg hok).ends (hends.imp_right waitBound_le.2)
  · obtain rfl := h.seen.args
    have hbefore : ∀ d, waitBound c s' = some d → s'.clk < d := fun d hd => lt_of_not_ge fun hle =>
      let ⟨hbounded, hpast⟩ := waitBound_le.1 ⟨d, hd, hle⟩
      (hbound hbounded).not_ge hpast
    have hleft := (waita_scratchpad h hsp hw hg hok).waits hwaits hbefore
    rw [hsp] at hleft
    exact hleft
  · obtain rfl := h.seen.args
    obtain ⟨tr, htr, hdecides⟩ := waita_global h hsp ht
    have hleft := hdecides.waits
    rw [hsp] at hleft
    exact ⟨tr, htr, hdecides.ends, hleft⟩
  · exact (exec_waitaReread htr hblock hatWait).trans (by rw [if_pos (List.isEmpty_iff.2 hleft)])
  · exact (exec_waitaReread htr hblock hatWait).trans (by rw [if_neg (mt List.isEmpty_iff.1 hleft)])
  · have hwoken := train?_finishWaita (vals := lanes.map fun l => (l, val l)) (t := t) (pc := pc) (chain := chain) htr hatWait hd
    have hafter := completeTrain_after (.waita x t eq) x t.wide lanes (fun l => BitVec.ofNat 64 (val l)) 0 none none
      (awake tr pc chain) hfits
    have hvals : waitVals (lanes.map fun l => (l, val l)) = lanes.map fun l => (l, BitVec.ofNat 64 (val l)) := by
      simp only [waitVals, List.map_map, Function.comp_def]
    rw [hvals] at hwoken
    exact ⟨_, hwoken, congrArg Train.block hafter.frame, congrArg Train.deadline hafter.frame, hafter.pc, hafter.regs⟩

end Sys2Proof.Machine
end

section
/-! PROOFS. Branches set the next PCs, a selection takes the lowest of them, barriers hold and release, and hints, futures and traps by
request complete (O25 to O28). -/

namespace Sys2Proof.Machine

/-! ### Branches, calls and returns (R254, R255) -/

/-- Settles O25: the meaning of each answers the jump of `branchPc`, `call` with its link. -/
theorem branchesSetTheNextPcOfEachSelectedThread : Obligations.BranchesSetTheNextPcOfEachSelectedThread := by
  unfold Obligations.BranchesSetTheNextPcOfEachSelectedThread
  refine ⟨fun x s k c s' h => endsWith_of_done h (body := branchBody) rfl rfl,
    fun x s k c s' h => endsWith_of_done h (body := branchBody) rfl rfl,
    fun x s k c s' h => endsWith_of_done h (body := branchBody) rfl rfl, fun x s k c s' h => ?call⟩
  case call =>
    obtain rfl := h.seen.args
    exact endsWith_of_done h rfl rfl

/-! ### Masks and tables of threads (R9, R252) -/

theorem mem_threads {m : Mask} {l : Nat} : l ∈ m.threads ↔ l < 64 ∧ m.getLsbD l = true := by
  simp [Mask.threads, tids]

theorem threads_ne_nil {m : Mask} (h : m ≠ 0) : m.threads ≠ [] := fun hnil => h <| BitVec.eq_of_getLsbD_eq fun l hl => by
  have hl' : l ∉ m.threads := by simp [hnil]
  simpa [mem_threads, hl] using hl'

/-- Setting the bits of a list of threads that pass a test, one after another. -/
theorem getLsbD_setBits (p : Nat → Bool) {l : Nat} (hl : l < 64) (ts : List Nat) (m : Mask) :
    (ts.foldl (fun m t => if p t then m ||| (1#64 <<< t) else m) m).getLsbD l = (m.getLsbD l || (decide (l ∈ ts) && p l)) := by
  induction ts generalizing m with
  | nil => simp
  | cons t ts ih =>
    have hbit : (if p t then m ||| (1#64 <<< t) else m).getLsbD l = (m.getLsbD l || (decide (l = t) && p l)) := by
      by_cases ht : l = t
      · subst ht
        cases p l <;> simp [hl]
      · have hoff : (1#64 <<< t).getLsbD l = false := by simp; omega
        split <;> simp [ht, hoff]
    rw [List.foldl_cons, ih, hbit]
    simp only [List.mem_cons, Bool.decide_or, Bool.and_or_distrib_right, Bool.or_assoc]

theorem getLsbD_allThreads {l : Nat} (hl : l < 64) : allThreads.getLsbD l = true := by
  rw [allThreads, BitVec.getLsbD_allOnes, decide_eq_true hl]

theorem getLsbD_maskOf (p : Nat → Bool) {l : Nat} (hl : l < 64) : (maskOf p).getLsbD l = p l := by
  rw [maskOf, getLsbD_setBits p hl]
  simp [tids, hl]

/-- PCs written thread by thread, read back (`read_writes` is the same of words). -/
theorem read_pcWrites (f : Nat → Dword) (ts : List Nat) (m : Tab Dword) (l : Nat) :
    Tab.read 0 (ts.foldl (fun m t => Tab.write 0 m t (f t)) m) l = if l ∈ ts then f l else Tab.read 0 m l := by
  induction ts generalizing m with
  | nil => rfl
  | cons t ts ih =>
    rw [List.foldl_cons, ih, Tab.read_write]
    by_cases ht : l = t <;> simp [ht]

theorem read_pcTable {m : Mask} {l : Nat} (hl : l < 64) (hm : m.getLsbD l = true) (pcf : Nat → Dword) :
    Tab.read 0 (pcTable m pcf) l = pcf l := by
  rw [pcTable, read_pcWrites, if_pos (mem_threads.2 ⟨hl, hm⟩)]

/-! ### Selection (R252) -/

theorem minPc_eq_none {pcs : List Dword} (h : minPc pcs = none) : pcs = [] := by
  cases pcs with
  | nil => rfl
  | cons a pcs =>
    rw [minPc] at h
    split at h <;> cases h

/-- The least of a list of PCs is one of them, and none is lower. -/
theorem minPc_least {pcs : List Dword} {p : Dword} (h : minPc pcs = some p) : p ∈ pcs ∧ ∀ q ∈ pcs, p ≤ q := by
  induction pcs generalizing p with
  | nil => cases h
  | cons a pcs ih =>
    rw [minPc] at h
    split at h
    · next hnone =>
      cases h
      simp [minPc_eq_none hnone]
    · next b hb =>
      obtain ⟨hmem, hle⟩ := ih hb
      cases h
      by_cases hab : a ≤ b
      · rw [if_pos hab]
        exact ⟨List.mem_cons_self, List.forall_mem_cons.2 ⟨BitVec.le_refl a, fun q hq => BitVec.le_trans hab (hle q hq)⟩⟩
      · rw [if_neg hab]
        exact ⟨List.mem_cons_of_mem a hmem, List.forall_mem_cons.2 ⟨(BitVec.le_total a b).resolve_left hab, hle⟩⟩

/-- A selection finds no eligible thread, and none is selected; or `p` is the lowest PC of one, and those that stand there are selected. -/
theorem selectWith_cases (tr : Train) (pcf : Nat → Dword) :
    (eligible tr = 0 ∧ selectWith tr pcf = { tr with selected := 0, pcs := pcTable allThreads pcf }) ∨
    ∃ p, (∃ l, l < 64 ∧ (eligible tr).getLsbD l = true ∧ pcf l = p) ∧
      (∀ l, l < 64 → (eligible tr).getLsbD l = true → p ≤ pcf l) ∧
      let sel := maskOf fun t => (eligible tr).getLsbD t && pcf t = p
      selectWith tr pcf = { tr with pc := p, selected := sel, pcs := pcTable (~~~sel) pcf } := by
  cases hmin : minPc ((eligible tr).threads.map pcf) with
  | none =>
    refine .inl ⟨by_contra fun hne => threads_ne_nil hne (List.map_eq_nil_iff.1 (minPc_eq_none hmin)), ?_⟩
    simp only [selectWith, hmin]
  | some p =>
    obtain ⟨hmem, hle⟩ := minPc_least hmin
    obtain ⟨l, hl, hp⟩ := List.mem_map.1 hmem
    obtain ⟨hl64, hel⟩ := mem_threads.1 hl
    refine .inr ⟨p, ⟨l, hl64, hel, hp⟩, fun l hl hel => hle _ (List.mem_map_of_mem (mem_threads.2 ⟨hl, hel⟩)), ?_⟩
    simp only [selectWith, hmin]

/-- Settles O26: in each case of `selectWith_cases` the mask and the table of PCs are read bit by bit (`getLsbD_maskOf`, `read_pcTable`). -/
theorem selectionTakesTheLowestPc : Obligations.SelectionTakesTheLowestPc := by
  unfold Obligations.SelectionTakesTheLowestPc
  intro tr pcf t
  rcases selectWith_cases tr pcf with ⟨hnone, (hsel : t = _)⟩ | ⟨p, ⟨l₀, hl₀, hel₀, hp⟩, hle, (hsel : t = _)⟩
  · rw [hsel]
    exact ⟨fun l hl => by simp [hnone], fun l hl hel => by simp [hnone] at hel,
      fun l hl => (if_neg (by simp)).trans (read_pcTable hl (getLsbD_allThreads hl) pcf), fun hne => absurd hnone hne⟩
  · have hpc : t.pc = p := congrArg Train.pc hsel
    have hpcs : t.pcs = pcTable (~~~t.selected) pcf := by rw [hsel]
    have hbit : ∀ l, l < 64 → (t.selected.getLsbD l = true ↔ (eligible tr).getLsbD l = true ∧ pcf l = t.pc) := fun l hl => by
      simp only [hsel, getLsbD_maskOf _ hl, Bool.and_eq_true, decide_eq_true_eq]
    refine ⟨hbit, fun l hl hel => hpc ▸ hle l hl hel, fun l hl => ?_, fun _ hzero => ?_⟩
    · rw [pcOf]
      split
      · next hin => exact ((hbit l hl).1 hin).2.symm
      · next hout => rw [hpcs, read_pcTable hl (by simpa [hl] using hout)]
    · have hin := (hbit l₀ hl₀).2 ⟨hel₀, hp.trans hpc.symm⟩
      simp [hzero] at hin

/-! ### Exits and barriers (R256 to R259) -/

section
variable {i : Instr} {c : Ctx} {s : State} (hon : c.on = true) (hact : c.tr.act = none)
include hon hact

theorem exitBody_exits : let m := if c.x.u then live c.tr else c.mask
    exitBody i c s = .left (exitThreads (complete i c.x false c.k c.tr.pc s {}) c.k m fun t =>
      if c.tr.selected.getLsbD t && !m.getLsbD t then c.tr.pc + BitVec.ofNat 64 c.x.len else pcOf c.tr t) := by
  simp only [exitBody, hon, hact, Bool.not_true, Option.isSome_none, Bool.false_eq_true, if_false]

/-- A barrier that the workgroup may use holds the threads whose guard holds, and completes if they are the last to arrive. -/
theorem barBody_holds {gang : Bool} {w : Nat} {g : Wg} (hw : c.tr.wg = some w) (hg : wg? s w = some g)
    (hgang : gang = true → g.gang ≠ 0) :
    let held := modTrain s c.k fun tr =>
      if gang then { tr with heldGbar := tr.heldGbar ||| c.mask } else { tr with heldBar := tr.heldBar ||| c.mask }
    let gone := complete i c.x false c.k c.tr.pc held
      { jump := some fun t => if c.mask.getLsbD t then c.tr.pc else c.tr.pc + BitVec.ofNat 64 c.x.len }
    barBody i gang c s = .left (settleBarriers (touchBarriers gone w) w) := by
  have hallowed : (gang && decide (g.gang = 0)) = false := by
    rw [Bool.and_eq_false_imp]
    exact fun h => decide_eq_false (hgang h)
  simp only [barBody, hon, hact, hw, wgOf_eq hw hg, hallowed, Bool.not_true, Option.isSome_none, Bool.false_eq_true, if_false]

end

theorem countMask_ne_zero {m : Mask} (h : m ≠ 0) : countMask m ≠ 0 := mt List.length_eq_zero_iff.1 (threads_ne_nil h)

/-- The `bar` of a workgroup of one train, some threads of which have waited for longer than the bound, is withdrawn with BSTALL. -/
theorem exec_bstall_of_one_train {s : State} {w k : Nat} {g : Wg} {tr : Train} (hg : wg? s w = some g) (hone : trainsOfWg s w = [k])
    (htr : train? s k = some tr) (harrived : arrivedBar tr ≠ 0) (hbound : g.bstall ≠ 0) (hlate : g.bstall < s.clk - g.bSince) :
    let s1 := deliverDue (takeTrap (putTrain s k (withdraw tr false)) k (bstallRec s tr false (countMask (arrivedBar tr)))) k
    exec (.bstall w false) s = .next (modWg s1 w fun x => { x with bSince := s1.clk }) := by
  have hdue : ¬(g.bstall = 0 ∨ countMask (arrivedBar tr) = 0 ∨ s.clk - g.bSince ≤ g.bstall) := by
    have hn := countMask_ne_zero harrived
    omega
  change execBstall w false s = _
  simp only [execBstall, unitStep, hg, Bool.false_eq_true, if_false, List.flatMap_cons, List.flatMap_nil, List.append_nil, hone,
    List.foldl_cons, List.foldl_nil, htr, Option.elim_some, Nat.zero_add, if_neg hdue, List.filterMap_cons, if_neg harrived,
    List.filterMap_nil, modTrain_eq htr]

/-- Settles O27: `exitBody_exits`, `barBody_holds` for both barriers, and `exec_bstall_of_one_train`. -/
theorem exitsAndBarriersHoldAndRelease : Obligations.ExitsAndBarriersHoldAndRelease := by
  unfold Obligations.ExitsAndBarriersHoldAndRelease
  refine ⟨fun x s k c s' h hon hact => ?_, fun x s k c s' w g h hon hact hw hg => ?_,
    fun x s k c s' w g h hon hact hw hg hgang => ?_,
    fun s w g k tr hg hone htr harrived hbound hlate => exec_bstall_of_one_train hg hone htr harrived hbound hlate⟩
  all_goals
    obtain rfl := h.seen.args
    obtain rfl := h.seen.slot
  · exact exec_of_left h rfl (exitBody_exits hon hact)
  · exact exec_of_left h rfl (barBody_holds (gang := false) hon hact hw hg nofun)
  · exact exec_of_left h rfl (barBody_holds (gang := true) hon hact hw hg fun _ => hgang)

/-! ### Hints, futures and traps by request (R260 to R269) -/

/-- An instruction that does nothing where its guard fails, in a train for which it holds. -/
theorem endsWith_of_on {i : Instr} {x : Args} {s : State} {k : Nat} {c : Ctx} {s' : State} {wide : Bool} {body : Ctx → State → Res}
    {s'' : State} {d : Done} (h : Ready i x s k c s') (he : exec i s = issue i x wide s fun c s => if !c.on then .done s {} else body c s)
    (hon : c.on = true) (hb : body c s' = .done s'' d) : EndsWith i x wide s c s'' d :=
  endsWith_of_done h he ((if_neg (by simp [hon])).trans hb)

/-- `fwait` of a future that is pending waits for it at the instruction. -/
theorem exec_fwait_waits {x : Args} {s : State} {k : Nat} {c : Ctx} {s' : State} {j : Nat} {f : Future} (h : Ready (.fwait x) x s k c s')
    (hon : c.on = true) (hstatus : holdsStatus c = false) (hf : futureOf s' c.tr.asid (rdOpnd c x.a .n64 uniTid) = some (j, f))
    (hpending : f.status = none) :
    exec (.fwait x) s = .next (modTrain (blockAt s' k c.head (.future (futureHandle s' j f))) k
      fun tr => { tr with atWait := some (.fwait x) }) := by
  obtain rfl := h.seen.slot
  refine exec_of_left h rfl ?_
  simp only [hon, hstatus, hf, hpending, Bool.not_true, Bool.false_eq_true, if_false, waitHere]

/-- `trapf` and `trapf.clr` answer the flag word and clear the flags of their mask; `trapf` traps where it clears one. -/
theorem trapfBody_done {clr : Bool} {c : Ctx} {s : State} (hon : c.on = true) (htr : train? s c.k = some c.tr) :
    let cleared := putTrain s c.k { c.tr with flags := c.tr.flags &&& ~~~trapMask c }
    let vals := [(uniTid, BitVec.ofNat 64 c.tr.flags.toNat)]
    trapfBody clr c s =
      if clr then .done cleared { vals := vals }
      else if c.tr.flags &&& trapMask c ≠ 0 then
        .done cleared { vals := vals, trap := some { kind := Trap.flag, flagw := c.tr.flags, pc := c.tr.pc } }
      else .done s { vals := vals } := by
  simp only [trapfBody, hon, Bool.not_true, Bool.false_eq_true, if_false, modTrain_eq htr]

/-- Settles O28: each meaning ends where its condition decides; `fwait` of a pending future waits (`exec_fwait_waits`), and the cases of
`trapf` are those of `trapfBody_done`. -/
theorem hintsFuturesAndTrapRequestsComplete : Obligations.HintsFuturesAndTrapRequestsComplete := by
  unfold Obligations.HintsFuturesAndTrapRequestsComplete
  refine ⟨fun x s k c s' h => endsWith_of_done h rfl rfl, fun x s k c s' h hon => ?yield, fun x s k c s' h => ?joinPoint,
    fun x s k c s' h hon => ?fwait, fun x s k c s' h hon => endsWith_of_on h rfl hon rfl, fun x s k c s' h hon => ?ftestH,
    fun x s k c s' h hon => ?fcancel, fun x s k c s' h hon => ?trapf, fun x s k c s' h hon => ?trapfClr,
    fun x s k c s' h hon => endsWith_of_on h rfl hon rfl⟩
  all_goals obtain rfl := h.seen.slot
  case yield =>
    refine endsWith_of_done h rfl ?_
    simp only [hon, if_true, modTrain_eq h.seen.train]
  case joinPoint =>
    exact ⟨fun hpc => endsWith_of_done h (body := joinPointBody) rfl (if_pos hpc),
      fun hpc => exec_of_left h (body := joinPointBody) rfl (if_neg hpc)⟩
  case fwait =>
    refine ⟨fun hstatus => endsWith_of_on h rfl hon (if_pos hstatus), fun hstatus hnone => endsWith_of_on h rfl hon ?_,
      fun j f st hstatus hf hdone => endsWith_of_on h rfl hon ?_,
      fun j f hstatus hf hpending => exec_fwait_waits h hon hstatus hf hpending⟩
    · simp only [hstatus, hnone, Bool.false_eq_true, if_false, uniResult]
    · simp only [hstatus, hf, hdone, Bool.false_eq_true, if_false, uniResult]
  case ftestH =>
    refine endsWith_of_on h rfl hon ?_
    simp only [uniResult]
    split <;> rfl
  case fcancel =>
    refine ⟨fun hstatus => endsWith_of_on h rfl hon (if_pos hstatus), fun hstatus hnone => endsWith_of_on h rfl hon ?_,
      fun j f st hstatus hf hdone => endsWith_of_on h rfl hon ?_,
      fun j f hstatus hf hpending => endsWith_of_on h rfl hon ?_⟩
    · simp only [hstatus, hnone, Bool.false_eq_true, if_false, uniResult]
    · simp only [hstatus, hf, hdone, Option.isSome_some, Bool.false_eq_true, if_false, if_true, uniResult]
    · simp only [hstatus, hf, hpending, Option.isSome_none, Bool.false_eq_true, if_false, uniResult]
  case trapf =>
    have hbody := trapfBody_done (clr := false) hon h.seen.train
    exact ⟨fun hnone => endsWith_of_done h rfl (hbody.trans (if_neg (not_not.2 hnone))),
      fun hset => endsWith_of_done h rfl (hbody.trans (if_pos hset))⟩
  case trapfClr => exact endsWith_of_done h rfl (trapfBody_done (clr := true) hon h.seen.train)

end Sys2Proof.Machine
end

section
/-! PROOFS. The Roundhouse resolves the intake of a line, and the window class acts on lines and activations (O32, O33). -/

namespace Sys2Proof.Machine

/-! ### The intake (R274, R277, R289) -/

section
variable {s : State} {l : Nat} {ln : Line}

theorem ifHeld_of_le {cluster : Nat} {s' : State} (h : roundhouseLoad s' cluster ≤ roundhouseSize) : ifHeld s cluster s' = s' := if_pos h

/-- A membership for a window that is there is delivered to it; one whose window has no points to resolve leaves it at that. -/
theorem deliverNext_found {d : Delivery} {rest : List Delivery} {id : Nat} (hdeliver : ln.deliver = d :: rest)
    (hfind : ln.find d.key d.index d.pane = some id) :
    let n := if d.part.isSome then ln.panelen else 1
    let ln1 := { ln with deliver := rest }.deliverTo s.clk id n (d.part.getD { kind := .record, bytes := d.bytes })
    ln1.isTime = false ∨ d.pane = true → deliverNext s l ln = { s with lines := Tab.put s.lines l ln1 } := by
  intro n ln1 hpoints
  have hnone : ¬(ln1.isTime && !d.pane) = true := by
    rcases hpoints with h | h <;> simp [h]
  simp only [deliverNext, hdeliver, hfind]
  exact congrArg (fun ln' => { s with lines := Tab.put s.lines l ln' }) (if_neg hnone)

/-- Without a free slot of the pool the line stops before the window is born (R288). -/
theorem deliverNext_noSlot {d : Delivery} {rest : List Delivery} (hdeliver : ln.deliver = d :: rest)
    (hfind : ln.find d.key d.index d.pane = none) (hpool : poolSlot s ln.part = none) :
    deliverNext s l ln = { s with lines := Tab.put s.lines l { ln with poolWait := true } } := by
  simp only [deliverNext, hdeliver, hfind, hpool]

variable (hln : Tab.get? s.lines l = some ln) (hgoes : ln.poolWait = false) (hroom : roundhouseRoom s (l / 256) = true)
include hln hgoes hroom

theorem exec_resolveRecord_delivers (hdeliver : ln.deliver ≠ []) (hheld : roundhouseLoad (deliverNext s l ln) (l / 256) ≤ roundhouseSize) :
    exec (.resolveRecord l) s = .next (deliverNext s l ln) := by
  change execResolveRecord l s = _
  simp only [execResolveRecord, unitStep, hln, hgoes, hroom, Bool.not_true, Bool.or_self, Bool.false_eq_true, if_false,
    List.isEmpty_eq_false_iff.2 hdeliver, Bool.not_false, if_true, ifHeld_of_le hheld]

theorem exec_resolveRecord_takes {rec : List Byte} {rest : List Intake} (hdeliver : ln.deliver = [])
    (hintake : ln.intake = .record rec :: rest) (hheld : roundhouseLoad (takeRecord s l ln rec rest) (l / 256) ≤ roundhouseSize) :
    exec (.resolveRecord l) s = .next (takeRecord s l ln rec rest) := by
  change execResolveRecord l s = _
  simp only [execResolveRecord, unitStep, hln, hgoes, hroom, hdeliver, hintake, Bool.not_true, Bool.or_self, Bool.false_eq_true, if_false,
    List.isEmpty_nil, ifHeld_of_le hheld]

theorem exec_watermarkResolve_mark {v : Dword} {rest : List Intake} (hdeliver : ln.deliver = []) (hintake : ln.intake = .mark v :: rest) :
    let r := if v.toNat ≥ ln.w then { ln with w := v.toNat }.resolvePoints s.clk (lineCap s l ln) else (ln, true)
    exec (.watermarkResolve l) s = .next { s with lines := Tab.put s.lines l { r.1 with intake := if r.2 then rest else ln.intake } } := by
  change execWatermarkResolve l s = _
  simp only [execWatermarkResolve, unitStep, hln, hgoes, hroom, hdeliver, hintake, Bool.not_true, Bool.or_self, Bool.false_eq_true, if_false]

end

/-! ### Panes, the flush, batches and the end of a line (R280, R281, R287, R288, R293) -/

section
variable {s : State} {l : Nat} {ln : Line} (hln : Tab.get? s.lines l = some ln)
include hln

theorem exec_windowPoolSlotFree_goesOn (hwait : ln.poolWait = true) (hpool : (poolSlot s ln.part).isSome = true) :
    exec (.windowPoolSlotFree l) s = .next (modLine s l fun ln => { ln with poolWait := false }) := by
  change execWindowPoolSlotFree l s = _
  simp only [execWindowPoolSlotFree, unitStep, hln, hwait, hpool, Bool.and_self, if_true]

/-- The panes that are due die together, and their partials are on their way. -/
theorem exec_paneComplete_due (hdue : ln.duePanes ≠ []) :
    exec (.paneComplete l) s = .next { s with lines := Tab.put s.lines l { ln with
      wins := ln.duePanes.foldl Tab.del ln.wins
      deliver := ln.deliver ++ ln.duePanes.flatMap ln.paneDeliveries } } := by
  change execPaneComplete l s = _
  simp only [execPaneComplete, unitStep, hln, List.isEmpty_eq_false_iff.2 hdue, Bool.not_false, if_true]

theorem exec_lineFlush_close {rest : List Intake} (hflush : ln.flush = 0) (hdeliver : ln.deliver = []) (hintake : ln.intake = .close :: rest)
    (hpanes : ∀ e ∈ ln.wins, e.2.pane = false) :
    let ln1 := { ln with intake := rest, flush := 1 }
    let ln2 := ln1.ordered.foldl (fun ln3 id =>
      if (ln3.flushWin s.clk id).waitingCount ≤ lineCap s l ln1 then ln3.flushWin s.clk id else ln3) ln1
    exec (.lineFlush l) s
      = .next { s with lines := Tab.put s.lines l { ln2 with flush := if ln2.wins.all fun e => flushed e.2 then 2 else 1 } } := by
  have hnone : (ln.wins.any fun e => e.2.pane) = false := List.any_eq_false.2 fun e he => by simp [hpanes e he]
  have hfull : (ln.wins.any fun e => e.2.pane && ln.paneFull e.2) = false := List.any_eq_false.2 fun e he => by simp [hpanes e he]
  change execLineFlush l s = _
  simp only [execLineFlush, unitStep, hln, hflush, hdeliver, hintake, hnone, hfull, Bool.false_eq_true, if_false]

theorem exec_lineFree_flushed (hflush : ln.flush = 2) (hwins : ln.wins = []) (hbatch : ln.batch = []) :
    exec (.lineFree l) s = .next (finishWaits { s with
      lines := Tab.del s.lines l, lineGen := Tab.write 0 s.lineGen l (Tab.read 0 s.lineGen l + 1) } (.lclose l ln.gen) 0) := by
  change execLineFree l s = _
  simp only [execLineFree, unitStep, hln, hflush, hwins, hbatch, List.isEmpty_nil, decide_true, Bool.and_self, if_true]

/-- A batch leaves once it fills a train, nothing of the line is unresolved, or its time is up. -/
theorem exec_activationBatchIssue_leaves (hbatch : ln.batch ≠ [])
    (hleaves : 64 ≤ ln.batch.length ∨ (ln.unresolved = false ∧ ln.duePanes = []) ∨ ln.batchAt + 32 ≤ s.clk) :
    exec (.activationBatchIssue l) s = .next { s with
      pendActs := s.pendActs ++ [{ line := l, wakes := ln.batch.take 64 }]
      lines := Tab.put s.lines l { ln with batch := ln.batch.drop 64, batchAt := s.clk } } := by
  have hissue : (!ln.batch.isEmpty && (ln.batch.length ≥ 64 || !(ln.unresolved || !ln.duePanes.isEmpty) || s.clk ≥ ln.batchAt + 32)) = true := by
    simpa [hbatch, or_assoc] using hleaves
  change execActivationBatchIssue l s = _
  simp only [execActivationBatchIssue, unitStep, hln, hissue, if_true]

end

/-! ### Activation trains (R21, R281, R282) -/

/-- Only the `v` and `o` registers of a train differ. -/
def SameButLanes (tr tr' : Train) : Prop := tr' = { tr with v := tr'.v, o := tr'.o }

namespace SameButLanes

theorem refl (tr : Train) : SameButLanes tr tr := rfl

theorem trans {a b c : Train} (h : SameButLanes a b) (h' : SameButLanes b c) : SameButLanes a c := by
  unfold SameButLanes at *
  rw [h', h]

theorem wrV {a b : Train} (h : SameButLanes a b) (n t : Nat) (w : Word) : SameButLanes a (wrV b n t w) := h.trans rfl
theorem wrO {a b : Train} (h : SameButLanes a b) (n t : Nat) (w : Word) : SameButLanes a (wrO b n t w) := h.trans rfl

/-- So of vector registers written one after another. -/
theorem foldl_wrV {a b : Train} (h : SameButLanes a b) (is : List Nat) (n : Nat → Nat) (t : Nat) (w : Nat → Word) :
    SameButLanes a (is.foldl (fun tr i => Machine.wrV tr (n i) t (w i)) b) := by
  induction is generalizing b with
  | nil => exact h
  | cons i is ih => exact ih (h.wrV (n i) t (w i))

end SameButLanes

theorem wakeRegs_sameButLanes (ln : Line) (w : Win) (wk : Wake) (merge t : Nat) (tr : Train) :
    SameButLanes tr (wakeRegs ln w wk merge t tr) := by
  have hstate := (SameButLanes.refl tr).foldl_wrV (List.range 16) (fun i => i) t fun i => w.words.getD i 0
  simp only [wakeRegs]
  iterate 7 refine .wrO ?_ ..
  exact hstate.foldl_wrV (List.range 8) (fun i => 16 + i) t _

/-- The registers that an activation receives are vector and overflow registers of its threads. -/
theorem fillWakes_sameButLanes (s : State) (ln : Line) (wakes : List (Nat × Wake)) (t : Nat) (tr : Train) :
    SameButLanes tr (fillWakes s ln wakes t tr) := by
  induction wakes generalizing t tr with
  | nil => exact .refl tr
  | cons e wakes ih =>
    refine .trans ?_ (ih (t + 1) _)
    split
    · exact wakeRegs_sameButLanes ..
    · exact .refl tr

/-- The train of a batch before its threads receive their registers. -/
def activationTrain (s : State) (core slot : Nat) (a : PendAct) (ln : Line) : Train :=
  { uid := s.nextId, core := core, slot := slot, part := ln.part, asid := ln.asid, prio := ln.prio, depth := ln.depth
    vgran := 4, sgran := 1, s := Tab.write 0 (Tab.write 0 [] 0 (ln.handleOf a.line)) 1 ln.descVA
    pc := BitVec.ofNat 64 ln.handler, exited := threadsFrom a.wakes.length, selected := ~~~(threadsFrom a.wakes.length)
    pcs := pcTable (threadsFrom a.wakes.length) fun _ => BitVec.ofNat 64 ln.handler
    act := some { line := a.line, gen := ln.gen, wakes := (List.range a.wakes.length).zip a.wakes } }

/-- The first activation train that waits is admitted where its cluster has room. -/
theorem exec_activationTrainAdmit_first {s : State} {cluster core slot : Nat} {a : PendAct} {rest : List PendAct} {ln : Line}
    (hcore : activationCore s cluster = some (core, slot)) (hpend : s.pendActs = a :: rest) (hcluster : a.line / 256 = cluster)
    (hln : Tab.get? s.lines a.line = some ln) :
    let s1 := { s with pendActs := rest, nextId := s.nextId + 1 }
    exec (.activationTrainAdmit cluster) s
      = .next (putTrain s1 (trainKey core slot) (fillWakes s1 ln a.wakes 0 (activationTrain s core slot a ln))) := by
  change execActivationTrainAdmit cluster s = _
  simp only [execActivationTrainAdmit, unitStep, hpend, List.findIdx?_cons, hcluster, decide_true, if_true, hcore, List.drop_zero,
    List.take_zero, List.nil_append, hln, freshId, activationTrain]

/-- Settles O33: each step of the Roundhouse by the lemma named after it; an admitted train is `activationTrain` but for the registers of
its threads (`fillWakes_sameButLanes`). -/
theorem theRoundhouseResolvesTheIntake : Obligations.TheRoundhouseResolvesTheIntake := by
  unfold Obligations.TheRoundhouseResolvesTheIntake
  refine ⟨fun s l ln d rest id hln hgoes hroom hdeliver hfind => ?deliver, fun s l ln d rest hln hgoes hroom hdeliver hfind hpool => ?noSlot,
    fun s l ln rec rest hln hgoes hroom hdeliver hintake hheld => exec_resolveRecord_takes hln hgoes hroom hdeliver hintake hheld,
    fun s l ln hln hwait hpool => exec_windowPoolSlotFree_goesOn hln hwait hpool,
    fun s l ln v rest hln hgoes hroom hdeliver hintake => exec_watermarkResolve_mark hln hgoes hroom hdeliver hintake,
    fun s l ln hln hdue => exec_paneComplete_due hln hdue,
    fun s l ln rest hln hflush hdeliver hintake hpanes => exec_lineFlush_close hln hflush hdeliver hintake hpanes,
    fun s l ln hln hflush hwins hbatch => exec_lineFree_flushed hln hflush hwins hbatch,
    fun s l ln hln hbatch hleaves => exec_activationBatchIssue_leaves hln hbatch hleaves,
    fun s cluster core slot a rest ln hcore hpend hcluster hln => ?activationTrain⟩
  case deliver =>
    intro n ln1 t hpoints hheld
    have ht : deliverNext s l ln = t := deliverNext_found hdeliver hfind hpoints
    exact ht ▸ exec_resolveRecord_delivers hln hgoes hroom (by simp [hdeliver]) (ht ▸ hheld)
  case noSlot =>
    intro t hheld
    have ht : deliverNext s l ln = t := deliverNext_noSlot hdeliver hfind hpool
    exact ht ▸ exec_resolveRecord_delivers hln hgoes hroom (by simp [hdeliver]) (ht ▸ hheld)
  case activationTrain =>
    have hsame := fillWakes_sameButLanes { s with pendActs := rest, nextId := s.nextId + 1 } ln a.wakes 0 (activationTrain s core slot a ln)
    refine ⟨_, _, exec_activationTrainAdmit_first hcore hpend hcluster hln, rfl, (train?_putTrain ..).trans (if_pos rfl), ?_⟩
    rw [hsame]
    refine ⟨rfl, rfl, rfl, rfl, rfl, ?_, ?_⟩
    · simp [rdS, activationTrain, Tab.read_write]
    · simp [rdS, activationTrain]

/-! ### Intakes of lines (R292 to R294) -/

/-- A record whose pieces all lie in memory joins the intake with those of its train, where the intake has room for all of them. -/
theorem feedBody_reached {c : Ctx} {s s2 : State} {l : Nat} {ln : Line} {places : List (Nat × Dword × Xl)} (hon : c.on = true)
    (hline : lineOf s c.tr (rdOpnd c c.x.a .n64 uniTid) = some (l, ln)) (hforeign : actOfLine c.tr l = false)
    (ht : translateAll s c.tr .load 4 (feedPieces c ln.rsize) = (s2, .ok places)) :
    let reached := places.map fun e => (e.1, e.2.1, reachXl s2 e.2.2)
    (∀ e ∈ reached, ∃ pa, e.2.2 = .mem pa) →
    feedBody c s = if ln.records + c.lanes.length > intakeSize then .blocked s2 (.feed l c.lanes.length)
      else
        let s3 := performEarlier s2 c.k
        .done (modLine s3 l fun ln => { ln with intake := ln.intake ++ c.lanes.map fun t => Intake.record (feedBytes s3 c.tr reached t) }) {} := by
  intro reached hmem
  have hviol : feedViolations c (violations [] reached) = [] := by
    rw [violations_all hmem]
    simp [feedViolations]
  have hlanes : (c.lanes.filter fun t => !([] : List (Nat × Dword × Nat)).any fun v => v.1 = t) = c.lanes := by simp
  simp only [feedBody, hon, hline, hforeign, ht, reached, Bool.not_true, Bool.false_eq_true, if_false, hviol, hlanes, violationTrap_nil]

/-! ### `wemit` (R298) -/

/-- Places in memory stand where they are. -/
theorem map_reachXl_of_mem {places : List (Nat × Dword × Xl)} (h : ∀ e ∈ places, ∃ pa, e.2.2 = .mem pa) (s : State) :
    (places.map fun e => (e.1, e.2.1, reachXl s e.2.2)) = places := by
  refine (List.map_congr_left fun e he => ?_).trans (List.map_id places)
  obtain ⟨tid, va, xl⟩ := e
  obtain ⟨pa, rfl⟩ := h _ he
  rfl

section
variable {c : Ctx} {s s4 : State} {u : RingUser} {pa : Nat} {r : RingReg} {ticket first count : Nat} {places : List (Nat × Dword × Xl)}

/-- Reserved slots that all lie in memory are written and committed. -/
theorem emitSlots_commits (ht : translateAll s c.tr .store 8 (slotPieces r ticket c.lanes.length) = (s4, .ok places))
    (hmem : ∀ e ∈ places, ∃ pa, e.2.2 = .mem pa) :
    emitSlots c s u pa r ticket first count
      = .done (ringAt (performEarlier (writeSlots c first count r.ssize places s4) c.k) u pa (.com false ticket c.lanes.length)).1 {} := by
  have hbyThread : ((List.range c.lanes.length).filterMap fun i =>
      (([] : List (Nat × Dword × Nat)).find? fun e => e.1 / 8192 = i).map fun e =>
        (c.lanes.getD i 0, e.2.1 - BitVec.ofNat 64 (8 * (e.1 % 8192)), e.2.2)) = [] := by simp
  simp only [emitSlots, ht, map_reachXl_of_mem hmem, violations_all hmem, hbyThread, List.isEmpty_nil, if_true]

/-- A ticket is no failure of a reservation (R242). -/
theorem ne_failure_of_ticket {d e : Dword} (hd : d.getLsbD 63 = false) (he : e.getLsbD 63 = true) : d ≠ e := by
  rintro rfl
  exact Bool.false_ne_true (hd.symm.trans he)

/-- `wemit` whose block is held by its Ticket Office and gives a ticket writes the slots of its ticket. -/
theorem wemitBody_ticket {a : Act} {ln : Line} {n : BitVec 8} {k : BitVec 8} {s2 s3 : State} {d : Dword} (hrun : RunsLine c s a ln)
    (ha : c.x.a = .v n) (hb : c.x.b = .imm k) (hring : ln.outring ≠ 0)
    (hblock : access (performEarlier s c.k) c.tr .load ln.outring 64 = (s2, .mem pa)) (hreg : ringReg? s2 pa = some r)
    (hfits : 4 * k.toNat ≤ r.ssize) :
    let u : RingUser := { part := c.tr.part, asid := c.tr.asid, priv := c.tr.priv }
    ringAt s2 u pa (.acq c.lanes.length) = (s3, d) → d.getLsbD 63 = false →
    wemitBody c s = emitSlots c s3 u pa r d.toNat n.toNat k.toNat := by
  intro u hacq hticket
  have hopen : ¬(d = Rc.full || d = Rc.busy) = true := by
    simp [ne_failure_of_ticket hticket (e := Rc.full) (by decide), ne_failure_of_ticket hticket (e := Rc.busy) (by decide)]
  simp only [wemitBody, withAct_ok hrun, ha, hb, hring, if_false, hblock, hreg, Nat.not_lt.2 hfits, gt_iff_lt]
  rw [hacq]
  simp only [u, hopen, hticket, Bool.false_eq_true, if_false]

end

/-! ### `wyield`, `wend` (R287, R299) -/

/-- Activations end at one instant: the results of the windows, their slots of the pool, the train's wake-ups, and the threads. -/
theorem endBody_ends {i : Instr} {how : List Word → Line.EndHow} {c : Ctx} {s : State} {a : Act} {ln : Line} (hrun : RunsLine c s a ln) :
    let s1 := performEarlier s c.k
    let s2 := complete i c.x false c.k c.tr.pc s1 {}
    let s3 := modLine s2 a.line fun ln => ln.endActivations s2.clk (c.lanes.filterMap fun t =>
      (Tab.get? a.wakes t).map fun e => (e.1, how (stateWords ((train? s1 c.k).getD c.tr) ln.swords t)))
    let s4 := c.lanes.foldl (fun s t => (Tab.get? a.wakes t).elim s fun e => syncSlot s a.line e.1) s3
    let s5 := modTrain s4 c.k fun tr => { tr with act := some { a with wakes := a.wakes.filter fun e => !c.lanes.contains e.1 } }
    endBody i how c s = .left (exitThreads s5 c.k c.mask fun t =>
      if c.tr.selected.getLsbD t && !c.mask.getLsbD t then c.tr.pc + BitVec.ofNat 64 c.x.len else pcOf c.tr t) := by
  simp only [endBody, withAct_ok hrun, hrun.1, Bool.not_true, Bool.false_eq_true, if_false]

/-- Settles O32: the meaning of each instruction answers what its conditions give, by `openLine` for `lopen`, `feedBody_reached`,
`wemitBody_ticket` and `emitSlots_commits`, and `endBody_ends`. -/
theorem windowInstructionsActOnLinesAndActivations : Obligations.WindowInstructionsActOnLinesAndActivations := by
  unfold Obligations.WindowInstructionsActOnLinesAndActivations
  refine ⟨fun x s k c s' pa s2 h hon hu ht => ?lopen, fun x s k c s' l ln h hon hline hforeign => ?lclose,
    fun x s k c s' l ln s2 places h hon hline hforeign ht => ?feed, fun x s k c s' l ln h hon hline => ?wmark,
    fun x s k c s' h hon => ?lstat, fun x s k c s' a ln h hrun => ?wrec, fun x s k c s' a ln h hrun => ?wpane,
    fun x s k c s' h hwide hodd => ?wkeyOdd, fun x s k c s' a ln h hrun heven => ?wkey,
    fun x s k c s' a ln first count s2 pa r ticket s3 s4 places h hrun ha hb hring hblock hreg hfits => ?wemit,
    fun i how hi x s k c s' a ln h hrun => ?ends⟩
  all_goals
    obtain rfl := h.seen.args
    obtain rfl := h.seen.slot
  case lopen =>
    refine endsWith_of_on h rfl hon ?_
    simp only [loadBlock_ok (lanes_uniform hu hon) ht]
  case lclose =>
    refine exec_of_left h rfl ?_
    simp only [hon, hline, hforeign, Bool.not_true, Bool.false_eq_true, if_false, waitHere]
  case feed =>
    intro reached hmem
    have hbody := feedBody_reached hon hline hforeign ht hmem
    exact ⟨fun hroom => endsWith_of_done h rfl (hbody.trans (if_neg (Nat.not_lt.2 hroom))),
      fun hfull => exec_of_res h rfl (hbody.trans (if_pos hfull))⟩
  case wmark =>
    refine endsWith_of_on h rfl hon ?_
    simp only [hline]
  case lstat =>
    refine ⟨fun hnone => endsWith_of_on h rfl hon ?_, fun l ln hline => endsWith_of_on h rfl hon ?_⟩
    · simp only [hnone, uniResult]
    · simp only [hline, uniResult]
  case wrec =>
    intro off hinputs
    refine endsWith_of_done h rfl ((withAct_ok hrun _).trans ?_)
    have hchecks := inputChecks_ok (kind := isRecordWake) (range := fun t => off t % 4 = 0 && off t < ln.rsize)
      fun t ht => by simpa using hinputs t ht
    simp only [off] at hchecks ⊢
    simp only [hchecks]
  case wpane =>
    intro idx hinputs
    refine endsWith_of_done h rfl ((withAct_ok hrun _).trans ?_)
    have hchecks := inputChecks_ok (kind := isPaneWake) (range := fun t => idx t < ln.swords) fun t ht => by simpa using hinputs t ht
    simp only [idx] at hchecks ⊢
    simp only [hchecks]
  case wkeyOdd => exact exec_of_res h rfl (if_pos (by simp [hwide, hodd]))
  case wkey =>
    refine endsWith_of_done h rfl ((if_neg ?_).trans (withAct_ok hrun _))
    simpa using heven
  case wemit =>
    intro u hacq hticket ht hmem
    exact endsWith_of_done h rfl ((wemitBody_ticket hrun ha hb hring hblock hreg hfits hacq hticket).trans (emitSlots_commits ht hmem))
  case ends =>
    obtain ⟨rfl, rfl⟩ | ⟨rfl, rfl⟩ := hi
    · exact exec_of_left h rfl (endBody_ends hrun)
    · exact exec_of_left h rfl (endBody_ends hrun)

end Sys2Proof.Machine
end

section
/-! PROOFS. Joins are opened, arrived at, waited for and read; casualties, kills and the messages of proxies act on them (O34). -/

namespace Sys2Proof.Machine

/-! ### Join instructions (R337, R340, R345, R348, R357) -/

/-- A record that is reached, whatever is done where it is not (`withRecord_ok` is the same of the other instructions). -/
theorem withRecordOr_ok {c : Ctx} {s s2 : State} {acc : Access} {n : Nat} {va : Dword} {pa : Nat}
    (h : access s c.tr acc va n = (s2, .mem pa)) (bad : Nat → State → Option TrapRec → Res) (go : State → Nat → Res) :
    withRecordOr c s acc n va bad go = go s2 pa := by
  simp only [withRecordOr, h, reachXl]

section
variable {x : Args} {s s' : State} {k : Nat} {c : Ctx}

/-- `jopen` of a record that is reached: a bad one is INVALID, a good one without a contributor list is registered. -/
theorem exec_jopen_reached {s2 : State} {pa : Nat} (h : Ready (.jopen x) x s k c s') (hon : c.on = true)
    (hrec : access (performEarlier s' k) c.tr .load (rdOpnd c x.a .n64 uniTid) 64 = (s2, .mem pa)) :
    let d := (List.range 8).map fun i => BitVec.ofNat 64 (trainMem s2 c.tr (pa + 8 * i) 8)
    let jn := joinOfRecord c (rdOpnd c x.a .n64 uniTid) d
    (badRecord jn d = true → EndsWith (.jopen x) x true s c s2 { vals := [(uniTid, Rc.invalid)] }) ∧
      (badRecord jn d = false → jn.clist = 0 →
        EndsWith (.jopen x) x true s c (registerJoin s2 jn).1 { vals := [(uniTid, (registerJoin s2 jn).2)] }) := by
  obtain rfl := h.seen.slot
  intro d jn
  refine ⟨fun hbad => endsWith_of_on h rfl hon ((withRecordOr_ok hrec ..).trans (if_pos hbad)),
    fun hgood hlist => endsWith_of_on h rfl hon ((withRecordOr_ok hrec ..).trans ?_)⟩
  exact (if_neg (Bool.eq_false_iff.1 hgood)).trans (if_pos hlist)

theorem exec_jarr_result {t : State} {d : Dword} (h : Ready (.jarr x) x s k c s') (hon : c.on = true)
    (harrive : arriveAt (performEarlier s' k) c.tr.part c.tr.uid c.tr.kpc.isSome (rdOpnd c x.a .b32 uniTid).toNat
      (lowWord (src c .b .f32 uniTid)) = .result t d) :
    EndsWith (.jarr x) x true s c t
      { vals := [(uniTid, d)], flags := flagIf (decodeFmt .f32 (lowWord (src c .b .f32 uniTid)).toNat).isSnan Fl.inv } := by
  obtain rfl := h.seen.slot
  refine endsWith_of_on h rfl hon ?_
  simp only [harrive]

/-- An arrival at a proxy completes, and its register awaits the answer of the home. -/
theorem exec_jarr_sent {t : State} {j : Nat} {n : BitVec 6} (h : Ready (.jarr x) x s k c s') (hon : c.on = true) (hd : x.d = .s n)
    (hnwb : x.nwb = false)
    (harrive : arriveAt (performEarlier s' k) c.tr.part c.tr.uid c.tr.kpc.isSome (rdOpnd c x.a .b32 uniTid).toNat
      (lowWord (src c .b .f32 uniTid)) = .sent t j) :
    let fl := flagIf (decodeFmt .f32 (lowWord (src c .b .f32 uniTid)).toNat).isSnan Fl.inv
    exec (.jarr x) s = .next (modTrain (complete (.jarr x) x true k c.tr.pc t { vals := [(uniTid, 0)], flags := fl }) k fun tr =>
      { tr with homes := tr.homes ++ [{ slot := j, reg := some n.toNat, rest := none, again := owesHome tr j }] }) := by
  obtain rfl := h.seen.slot
  obtain rfl := h.seen.args
  refine exec_of_left h rfl ?_
  simp only [hon, harrive, awaitHome, hd, hnwb, Bool.not_true, Bool.false_eq_true, if_false, Option.elim_none]

theorem exec_jwait {j : Nat} {jn : Join} (h : Ready (.jwait x) x s k c s') (hon : c.on = true) (hact : c.tr.act = none)
    (hslot : joinSlot s' c.tr.part (rdOpnd c x.a .b32 uniTid).toNat = some j) (hjn : Tab.get? s'.joins j = some jn) :
    (jn.state ≠ 1 → jn.awake = true → EndsWith (.jwait x) x true s c s' { vals := [(uniTid, joinStatus jn)] }) ∧
      (jn.state = 1 ∨ jn.awake = false → exec (.jwait x) s = .next (modTrain
        (blockAt s' k c.head (.jwait j (Tab.read 0 s'.joinGen j).toNat)) k fun tr => { tr with atWait := some (.jwait x) })) := by
  obtain rfl := h.seen.slot
  refine ⟨fun hreleased hawake => endsWith_of_on h rfl hon ?_, fun hopen => exec_of_left h rfl ?_⟩
  · simp [hact, hslot, hjn, hreleased, hawake, uniResult]
  · have hwaits : (decide (jn.state ≠ 1) && jn.awake) = false := by
      rcases hopen with hopen | hasleep
      · simp [hopen]
      · simp [hasleep]
    simp only [hon, hact, hslot, hjn, hwaits, Bool.not_true, Option.isSome_none, Bool.false_eq_true, if_false, waitHere]

/-- `jkp` is a kill point of its own train. -/
theorem exec_jkp (h : Ready (.jkp x) x s k c s') : (c.on = false ∨ c.tr.kpc = none → EndsWith (.jkp x) x false s c s' {}) ∧
    (c.on = true → c.tr.kpc ≠ none → exec (.jkp x) s = .next (killNow s' k)) := by
  obtain rfl := h.seen.slot
  refine ⟨fun hunmarked => endsWith_of_done h rfl (if_neg ?_), fun hon hmarked => exec_of_left h rfl (if_pos ?_)⟩
  · rcases hunmarked with hoff | hunmarked
    · simp [hoff]
    · simp [hunmarked]
  · simp [hon, Option.isSome_iff_ne_none, hmarked]

theorem exec_jstat (h : Ready (.jstat x) x s k c s') (hon : c.on = true) :
    let j := (joinSlot s' c.tr.part (rdOpnd c x.a .b32 uniTid).toNat).bind (Tab.get? s'.joins)
    EndsWith (.jstat x) x true s c s' { vals := [(uniTid, match j with | some jn => joinStatus jn | none => Rc.stale)] } := by
  intro j
  refine endsWith_of_on h rfl hon ?_
  change (match j with | some jn => uniResult s' (joinStatus jn) | none => uniResult s' Rc.stale) = _
  clear_value j
  cases j with
  | none => rfl
  | some jn => rfl

end

/-! ### Casualties and kills (R342, R343) -/

/-- A join whose fallen contributor is counted. -/
def Join.withCasualty (uid : Nat) (jn : Join) : Join :=
  { jn with
    casual := jn.casual + 1
    contribs := jn.contribs.map fun c => if c.uid = uid then { c with state := .settled, stage := [] } else c }

section
variable {s : State} {j : Nat} {jn : Join} (hjn : Tab.get? s.joins j = some jn)
include hjn

/-- A fallen contributor of an open join is counted once, and the join releases SHORT when its quorum is out of reach. -/
theorem exec_joinCasualty_fallen {uid : Nat} (hopen : jn.state = 1) (hhome : jn.proxy = false)
    (hfallen : ∃ c ∈ jn.contribs, c.uid = uid ∧ c.state = .fallen) :
    ∃ s1, Tab.get? s1.joins j = some (jn.withCasualty uid) ∧ SameMemory s s1 ∧
      exec (.joinCasualty j uid) s = .next (if jn.n - (jn.casual + 1) < jn.q then releaseJoin s1 j 3 else s1) := by
  have hany : (jn.contribs.any fun c => decide (c.uid = uid) && decide (c.state = .fallen)) = true := by
    simpa [List.any_eq_true] using hfallen
  refine ⟨modJoin s j (Join.withCasualty uid), (Tab.get?_adjust ..).trans ?_, fun a => rfl, ?_⟩
  · rw [if_pos rfl, hjn, Option.map_some]
  · simp only [exec, execJoinCasualty, unitStep, countCasualty, hjn, hany, hopen, hhome, if_true, ne_eq, not_true_eq_false, if_false,
      Bool.not_false, Bool.true_and, decide_eq_true_eq]
    rfl

/-- A released join of which every contributor has arrived or ended frees its slot; waiters that did not wake keep its word. -/
theorem freeJoin_settled (hreleased : jn.state ≠ 1) (hall : ∀ c ∈ jn.contribs, c.state = .arrived ∨ c.state = .settled) :
    freeJoin s j = { s with
      joins := Tab.del s.joins j, joinGen := Tab.write 0 s.joinGen j (Tab.read 0 s.joinGen j + 1)
      wakes := if jn.awake then s.wakes
        else s.wakes ++ [{ slot := j, gen := (Tab.read 0 s.joinGen j).toNat, status := joinStatus jn }] } := by
  have hfree : (decide (jn.state ≠ 1) && jn.contribs.all fun c => decide (c.state = .arrived) || decide (c.state = .settled)) = true := by
    simpa [hreleased] using hall
  simp only [freeJoin, hjn, hfree, if_true]

/-- A contributor that has neither arrived nor ended keeps the slot of its join. -/
theorem freeJoin_unsettled (hsome : ∃ c ∈ jn.contribs, c.state ≠ .arrived ∧ c.state ≠ .settled) : freeJoin s j = s := by
  have hkeep : (jn.contribs.all fun c => decide (c.state = .arrived) || decide (c.state = .settled)) = false := by
    simpa [List.all_eq_false] using hsome
  simp only [freeJoin, hjn, hkeep, Bool.and_false, Bool.false_eq_true, if_false]

theorem exec_proxyKill_open {status : Dword} (hproxy : jn.proxy = true) (hopen : jn.state = 1) :
    let st := bitsAt status.toNat 0 8
    let s1 := modJoin (markStragglers s j 0) j fun jn => { jn with state := st, status := status }
    ∀ pa, unitAccess s1 jn.part jn.asid jn.priv .store (jn.recVA + 6) 2 = .mem pa →
      exec (.proxyKill j status) s = .next (wakeJoin (writeMem s1 pa 2 st) j) := by
  intro st s1 pa hreach
  simp only [exec, execProxyKill, unitStep, hjn, hproxy, hopen, Bool.not_true, ne_eq, not_true_eq_false, decide_false, Bool.or_self,
    Bool.false_eq_true, if_false]
  simp only [st, s1] at hreach ⊢
  rw [hreach]

end

theorem exec_kill {s : State} {k : Nat} {tr : Train} (htr : train? s k = some tr) (hmarked : tr.kpc.isSome = true)
    (hpoint : atKillPoint tr = true) : exec (.kill k) s = .next (killNow s k) := by
  simp only [exec, execKill, unitStep, htr, hmarked, hpoint, Bool.and_self, if_true]

/-! ### Arrivals at homes and their answers (R345) -/

/-- The answer of a home is the result of the oldest arrival of the train, and of those that stand behind it at the same join. -/
theorem exec_proxyReply {s : State} {k : Nat} {tr : Train} {h : HomeWait} {rest : List HomeWait} {result : Dword}
    (htr : train? s k = some tr) (hhomes : tr.homes = h :: rest) :
    let s1 := modTrain (homeAnswered s h.slot tr.uid result) k fun t =>
      (homeResults h rest result).foldl (fun t e => writeHome t e.1 (homeValue e.1 e.2))
        { t with homes := rest.filter fun x => !(x.again && x.slot = h.slot) }
    exec (.proxyReply k result) s = .next (if (train? s1 k).any fun t => t.block = some .proxy then unblock s1 k else s1) := by
  intro s1
  simp only [exec, execProxyReply, unitStep, htr, hhomes, s1]

/-- A handle is stale for a partition when it names no join, or a join of another generation or partition. -/
def StaleJoin (s : State) (part handle : Nat) : Prop :=
  ∀ jn, Tab.get? s.joins (bitsAt handle 0 12) = some jn →
    bitsAt handle 12 16 ≠ (Tab.read 0 s.joinGen (bitsAt handle 0 12)).toNat ∨ jn.part ≠ part

theorem joinSlot_stale {s : State} {part handle : Nat} (h : StaleJoin s part handle) : joinSlot s part handle = none := by
  unfold joinSlot
  dsimp only
  split
  · next jn hjn =>
    refine if_neg fun hmatch => ?_
    obtain ⟨hgen, hpart⟩ := Bool.and_eq_true_iff.1 hmatch
    exact (h jn hjn).elim (· (of_decide_eq_true hgen)) (· (of_decide_eq_true hpart))
  · rfl

theorem joinSlot_live {s : State} {part handle : Nat} (h : ¬StaleJoin s part handle) :
    joinSlot s part handle = some (bitsAt handle 0 12) := by
  simp only [StaleJoin, not_forall, not_or, not_not] at h
  obtain ⟨jn, hjn, hgen, hpart⟩ := h
  simp only [joinSlot, hjn, hgen, hpart, decide_true, Bool.and_self, if_true]

/-- A home answers an arrival: STALE, LATE, or 0 once it has committed it. -/
theorem exec_homeRemoteArrival (s : State) (handle : Word) (source : Sender) (w : Word) (deltas : List (Nat × WideCell)) :
    let j := bitsAt handle.toNat 0 12
    let answer := fun (s : State) (d : Dword) => sendFabric s source.part source.module (.arrivalReply d)
    (StaleJoin s source.part handle.toNat → exec (.homeRemoteArrival handle source w deltas) s = .next (answer s Rc.stale)) ∧
      (∀ jn, ¬StaleJoin s source.part handle.toNat → Tab.get? s.joins j = some jn →
        exec (.homeRemoteArrival handle source w deltas) s
          = .next (if jn.state = 1 then answer (commitArrival s j deltas w) 0 else answer s Rc.late)) := by
  intro j answer
  refine ⟨fun hstale => ?_, fun jn hlive hjn => ?_⟩
  · simp only [exec, execHomeRemoteArrival, unitStep, joinSlot_stale hstale, answer]
  · simp only [exec, execHomeRemoteArrival, unitStep, joinSlot_live hlive, j, answer] at hjn ⊢
    simp only [hjn, Option.any_some, decide_eq_true_eq]
    split <;> rfl

/-- Settles O34: each instruction by the lemma `exec_<instruction>`, each event by its own; a released join frees its slot by
`freeJoin_settled`, and keeps it by `freeJoin_unsettled`. -/
theorem joinInstructionsAndEventsAct : Obligations.JoinInstructionsAndEventsAct := by
  unfold Obligations.JoinInstructionsAndEventsAct
  exact ⟨fun x s k c s' s2 pa h hon hrec => exec_jopen_reached h hon hrec, fun x s k c s' t d h hon => exec_jarr_result h hon,
    fun x s k c s' t j n h hon hd hnwb => exec_jarr_sent h hon hd hnwb, fun x s k c s' j jn h hon hact => exec_jwait h hon hact,
    fun x s k c s' h => exec_jkp h, fun x s k c s' h hon => exec_jstat h hon,
    fun s j jn uid hjn hopen hhome => exec_joinCasualty_fallen hjn hopen hhome, fun s k tr htr => exec_kill htr,
    fun s k tr h rest result htr hhomes => exec_proxyReply htr hhomes,
    fun s handle source w deltas => exec_homeRemoteArrival s handle source w deltas,
    fun s j jn hjn hreleased => ⟨freeJoin_settled hjn hreleased, freeJoin_unsettled hjn⟩,
    fun s j jn status hjn hproxy hopen => exec_proxyKill_open hjn hproxy hopen⟩

end Sys2Proof.Machine
end

section
/-! PROOFS. Tasks are submitted, fetched, started and completed (O35). -/

namespace Sys2Proof.Tab
variable {α : Type}

/-- Of two entries put at one key the second stays. -/
theorem put_put (m : Tab α) (k : Nat) (v w : α) : put (put m k v) k w = put m k w := by
  induction m with
  | nil => simp [put]
  | cons e r ih =>
    obtain ⟨k', v'⟩ := e
    simp only [put]
    split
    · simp [put]
    · split
      · simp [put]
      · simp [put, *]

end Sys2Proof.Tab

namespace Sys2Proof.Machine

theorem putTrain_putTrain (s : State) (k : Nat) (a b : Train) : putTrain (putTrain s k a) k b = putTrain s k b := by
  simp only [putTrain, Tab.put_put]

/-! ### Submission and completion (R326, R332) -/

section
variable {x : Args} {s s' : State} {k : Nat} {c : Ctx}

/-- `tsub` of a record that is reached is refused in another STATE, does nothing more while the record has dependencies, and queues it where
the ready queues have room. -/
theorem exec_tsub_reached {s2 : State} {pa : Nat} (h : Ready (.tsub x) x s k c s') (hon : c.on = true)
    (hrec : access (performEarlier s' k) c.tr .rmw (rdOpnd c x.a .n64 uniTid) 64 = (s2, .mem pa)) :
    (taskState s2 pa ≠ 0 → EndsWith (.tsub x) x true s c s2 { vals := [(uniTid, Rc.badState)] }) ∧
      (taskState s2 pa = 0 → taskDeps s2 pa ≠ 0 → EndsWith (.tsub x) x true s c s2 { vals := [(uniTid, 1)] }) ∧
      (taskState s2 pa = 0 → taskDeps s2 pa = 0 → readyRoom s2 c.tr.part ≠ 0 →
        EndsWith (.tsub x) x true s c (makeReady s2 c.tr.part c.tr.asid (rdOpnd c x.a .n64 uniTid) pa) { vals := [(uniTid, 0)] }) := by
  obtain rfl := h.seen.slot
  refine ⟨fun hstate => ?_, fun hstate hdeps => ?_, fun hstate hdeps hroom => ?_⟩
  all_goals refine endsWith_of_on h rfl hon ((withRecord_ok hrec _).trans ?_)
  · exact if_pos hstate
  · exact (if_neg (not_not.2 hstate)).trans (if_pos hdeps)
  · exact ((if_neg (not_not.2 hstate)).trans (if_neg (not_not.2 hdeps))).trans (if_neg hroom)

/-- `tdone` of a RUNNING record of no join whose successors are all reached, and for which the ready queues have room. -/
theorem exec_tdone_reached {s2 s3 : State} {pa : Nat} {l : List (Dword × Nat)} (h : Ready (.tdone x) x s k c s') (hon : c.on = true)
    (hrec : access (performEarlier s' k) c.tr .rmw (rdOpnd c x.a .n64 uniTid) 64 = (s2, .mem pa)) (hstate : taskState s2 pa = 2)
    (hsucc : successors s2 c.tr pa = (s3, .ok l [])) (hroom : (decrement s3 c.tr.part c.tr.asid l).2.1 ≤ readyRoom s3 c.tr.part)
    (hjoin : readMem s3 (pa + 0x30) 4 = 0) :
    EndsWith (.tdone x) x true s c (tdoneFin c s3 pa l).1 { vals := [(uniTid, BitVec.ofNat 64 (tdoneFin c s3 pa l).2)] } := by
  obtain rfl := h.seen.slot
  refine endsWith_of_on h rfl hon ((withRecord_ok hrec _).trans ?_)
  rw [tdoneBody, if_neg (not_not.2 hstate), hsucc]
  exact (if_neg (Nat.not_lt.2 hroom)).trans (if_pos hjoin)

end

/-! ### The train that takes a record (R329, R331) -/

/-- A train that has taken the record at `va` and `pa`: its dispatch is over. -/
def Train.withTask (tr : Train) (va wkid : Dword) : Train :=
  { tr with deadline := none, predTrap := none, noWait := false, replies := [], task := some va, killed := false, wkid := wkid }

/-- A record that a core has started. -/
def startRecord (s : State) (pa core : Nat) : State := setCore (setState s pa 2) pa core

theorem setCore_setState (s : State) (pa core : Nat) : setCore (setState s pa 2) pa core = startRecord s pa core := rfl

theorem readMem_startRecord (s : State) (pa core : Nat) {a n : Nat} (h : a + n ≤ pa + 0x38) :
    readMem (startRecord s pa core) a n = readMem s a n :=
  (readMem_writeMem_ne _ _ (.inl (by omega))).trans (readMem_writeMem_ne _ _ (.inl h))

/-- A record that starts shows RUNNING and its core, and no other byte changes. -/
theorem readByte_startRecord (s : State) (pa core a : Nat) : readByte (startRecord s pa core) a =
    if a = pa + 0x38 then 2 else if a = pa + 0x3A then BitVec.ofNat 8 core else readByte s a := by
  simp only [startRecord, setCore, setState, writeMem, readByte_writeBytes, bytesOf, List.length_cons, List.length_nil]
  by_cases hstate : a = pa + 0x38
  · subst hstate
    rw [if_neg (by omega), if_pos (by omega), if_pos rfl]
    simp
  · by_cases hcore : a = pa + 0x3A
    · subst hcore
      rw [if_pos (by omega), if_neg hstate, if_pos rfl]
      simp
    · rw [if_neg (by omega), if_neg (by omega), if_neg hstate, if_neg hcore]

/-- A record of no join is taken: nothing changes but the record and the train. -/
theorem takeTask_of_no_join {c : Ctx} {s : State} {va : Dword} {pa : Nat} {tr : Train} (htr : train? s c.k = some tr)
    (hjoin : readMem s (pa + 0x30) 4 = 0) :
    takeTask c s va pa = .done (putTrain (startRecord s pa c.tr.core) c.k (tr.withTask va (BitVec.ofNat 64 (readMem s (pa + 0x10) 8))))
      { vals := [(uniTid, va)], trap := tr.predTrap } := by
  have htr1 : train? (startRecord s pa c.tr.core) c.k = some tr := htr
  have hend : endDispatch (startRecord s pa c.tr.core) c.k = putTrain (startRecord s pa c.tr.core) c.k
      { tr with deadline := none, predTrap := none, noWait := false, replies := [] } := modTrain_eq htr1 _
  have hjoin1 (t : Train) : readMem (putTrain (startRecord s pa c.tr.core) c.k t) (pa + 0x30) 4 = 0 :=
    (readMem_startRecord s pa _ (by omega)).trans hjoin
  have hput (t : Train) : train? (putTrain (startRecord s pa c.tr.core) c.k t) c.k = some t := (train?_putTrain ..).trans (if_pos rfl)
  simp only [takeTask, setCore_setState, htr1, hend, modTrain_eq (hput _), putTrain_putTrain, hjoin1, ne_eq, not_true_eq_false, if_false,
    readMem_startRecord s pa c.tr.core (a := pa + 0x10) (n := 8) (by omega)]
  congr 1
  split
  · rfl
  · rfl

/-- The train that takes a record becomes its task train, the record is RUNNING on its core, and nothing else changes. -/
theorem takeTask_starts {c : Ctx} {s : State} {va : Dword} {pa : Nat} {tr : Train} (htr : train? s c.k = some tr)
    (hjoin : readMem s (pa + 0x30) 4 = 0) :
    ∃ t, takeTask c s va pa = .done t { vals := [(uniTid, va)], trap := tr.predTrap } ∧
      (∃ tr', train? t c.k = some tr' ∧ tr'.task = some va ∧ tr'.killed = false ∧ tr'.deadline = none ∧
        tr'.pc = tr.pc ∧ tr'.selected = tr.selected) ∧
      OtherTrains c.k s t ∧ readByte t (pa + 0x38) = 2 ∧ readByte t (pa + 0x3A) = BitVec.ofNat 8 c.tr.core ∧
      (∀ a, a ≠ pa + 0x38 → a ≠ pa + 0x3A → readByte t a = readByte s a) := by
  refine ⟨_, takeTask_of_no_join htr hjoin, ⟨_, (train?_putTrain ..).trans (if_pos rfl), rfl, rfl, rfl, rfl, rfl⟩,
    fun j hj => (train?_putTrain ..).trans (if_neg hj), (readByte_startRecord ..).trans (if_pos rfl),
    (readByte_startRecord ..).trans ?_, fun a hstate hcore => (readByte_startRecord ..).trans ?_⟩
  · rw [if_neg (by omega), if_pos rfl]
  · rw [if_neg hstate, if_neg hcore]

/-! ### The dispatch (R329, R330) -/

/-- Which record a train may take is told by its partition and ASID, and by what a train does not hold of the machine. -/
theorem findRecord_congr {s : State} {tr tr' : Train} (hpart : tr'.part = tr.part) (hasid : tr'.asid = tr.asid) (mask : Nat) :
    findRecord s tr' mask = findRecord s tr mask := by
  rw [findRecord, findRecord, hpart, hasid]

section
variable {c : Ctx} {s : State} {mask : Nat} {tr : Train} (htr : train? s c.k = some tr) (hfree : tr.held = none)
include htr hfree

/-- The loop takes the first record, where that one has no condition. -/
theorem dispatchLoop_takes {p pa n : Nat} {r : ReadyRec} {replies : Tab RemoteReply} (hpart : tr.part = c.tr.part)
    (hfind : findRecord s tr mask = some (p, r)) :
    let s2 := setReadyQueue s c.tr.part p ((readyQueue s c.tr.part p).erase r)
    recordPa s2 c.tr.part c.tr.asid r.va = some pa → bitsAt (readMem s2 (pa + 0x28) 8) 35 1 = 0 →
    dispatchLoop c mask (n + 1) replies s = takeTask c s2 r.va pa := by
  intro s2 hpa hcond
  have htake : takeNext s c.k mask = some ((r.va, p), s2) := by
    rw [takeNext_ok htr hfree hfind, hpart]
  have hround : dispatchRound c mask replies s = some (.fin (takeTask c s2 r.va pa)) := by
    simp only [dispatchRound, htake, Option.map_some, hpa, hcond, if_true]
  simp only [dispatchLoop, hround]

/-- The loop with no record to take. -/
theorem dispatchLoop_empty {n : Nat} {replies : Tab RemoteReply} (hfind : findRecord s tr mask = none) (hwaits : tr.noWait = false) :
    dispatchLoop c mask (n + 1) replies s =
      if pastDeadline s tr then .done (endDispatch s c.k) { vals := [(uniTid, Rc.empty)], trap := tr.predTrap }
      else .blocked (clearReplies s c.k) (.tfetch mask) := by
  have hround : dispatchRound c mask replies s = none := by
    simp only [dispatchRound, takeNext, htr, hfree, hfind, Option.map_none]
  simp only [dispatchLoop, hround, dispatchEmpty, htr, hwaits, Bool.false_or]

end

section
variable {x : Args} {s s' : State} {k : Nat} {c : Ctx}

/-- The cycle up to which a `tfetch.task` waits, if its bound is given. -/
def dispatchBound (c : Ctx) (s : State) : Option Nat :=
  if c.x.b = .zero then none else some (c.tr.deadline.getD (s.clk + (rdOpnd c c.x.b .b32 uniTid).toNat))

/-- The machine before the dispatch: the earlier accesses of the train are performed, and its bound runs. -/
def dispatchState (c : Ctx) (s : State) : State :=
  modTrain (performEarlier s c.k) c.k fun tr => { tr with deadline := dispatchBound c s }

/-- `tfetch.task` of a train that runs no task is the loop of R329. -/
theorem tfetchTaskBody_loops {s : State} (hon : c.on = true) (hact : c.tr.act = none) (htask : c.tr.task = none) :
    tfetchTaskBody c s = dispatchLoop c ((src c .a .n64 uniTid).toNat % 256)
      (countReady (partAt (dispatchState c s) c.tr.part) (fun _ => true) + 2) c.tr.replies (dispatchState c s) := by
  simp only [tfetchTaskBody, hon, hact, htask, Bool.not_true, Option.isSome_none, Bool.false_eq_true, if_false]
  rfl

/-- The train at its dispatch is as it was, but for its registers, its accesses and its bound. -/
theorem dispatchState_train {s : State} (htr : train? s c.k = some c.tr) :
    ∃ tr, train? (dispatchState c s) c.k = some tr ∧ tr.deadline = dispatchBound c s ∧ tr.part = c.tr.part ∧ tr.asid = c.tr.asid ∧
      tr.held = c.tr.held ∧ tr.noWait = c.tr.noWait ∧ tr.predTrap = c.tr.predTrap := by
  obtain ⟨tr, htr', -, -, hsame, -⟩ := performEarlier_train htr
  refine ⟨{ tr with deadline := dispatchBound c s }, by rw [dispatchState, modTrain_eq htr', train?_putTrain, if_pos rfl], rfl, ?_⟩
  rw [hsame.frame]
  exact ⟨rfl, rfl, rfl, rfl, rfl⟩

theorem dispatchState_clk (c : Ctx) (s : State) : (dispatchState c s).clk = s.clk := by
  obtain ⟨ts, ms, hframe, -⟩ := performEarlier_frame s c.k
  rw [dispatchState, hframe]
  rfl

/-- A dispatch takes the first record, answers EMPTY once its bound has passed, or waits. -/
theorem exec_tfetchTask (h : Ready (.tfetchTask x) x s k c s') (hon : c.on = true) (hact : c.tr.act = none) (htask : c.tr.task = none)
    (hheld : c.tr.held = none) :
    let mask := (src c .a .n64 uniTid).toNat % 256
    let bound := dispatchBound c s'
    let s1 := dispatchState c s'
    (∀ p r pa, findRecord s1 c.tr mask = some (p, r) →
      let s2 := setReadyQueue s1 c.tr.part p ((readyQueue s1 c.tr.part p).erase r)
      recordPa s2 c.tr.part c.tr.asid r.va = some pa → bitsAt (readMem s2 (pa + 0x28) 8) 35 1 = 0 →
      exec (.tfetchTask x) s = .next (settle (.tfetchTask x) x true c (takeTask c s2 r.va pa))) ∧
    (findRecord s1 c.tr mask = none → c.tr.predTrap = none → c.tr.noWait = false →
      (∀ d, bound = some d → d ≤ s'.clk →
        EndsWith (.tfetchTask x) x true s c (endDispatch s1 c.k) { vals := [(uniTid, Rc.empty)] }) ∧
      ((∀ d, bound = some d → s'.clk < d) →
        exec (.tfetchTask x) s = .next (blockAt (clearReplies s1 c.k) c.k c.head (.tfetch mask)))) := by
  intro mask bound s1
  have hbody := tfetchTaskBody_loops (s := s') hon hact htask
  obtain ⟨tr, htr, hdeadline, hpart, hasid, hfree, hnoWait, hpred⟩ := dispatchState_train (h.seen.slot ▸ h.seen.train)
  have hfind := findRecord_congr (s := s1) hpart hasid mask
  have hpast : pastDeadline s1 tr = bound.any fun d => d ≤ s'.clk := by rw [pastDeadline, hdeadline, dispatchState_clk]
  refine ⟨fun p r pa hsome => ?_, fun hnone hclear hwaits => ?_⟩
  · intro s2 hpa hcond
    refine exec_of_res h rfl ?_
    exact hbody.trans (dispatchLoop_takes htr (hfree.trans hheld) hpart (hfind.trans hsome) hpa hcond)
  · have hempty := hbody.trans (dispatchLoop_empty htr (hfree.trans hheld) (hfind.trans hnone) (hnoWait.trans hwaits))
    rw [hpred, hclear] at hempty
    refine ⟨fun d hd hle => endsWith_of_done h rfl (hempty.trans (if_pos ?_)), fun hlate => exec_of_res h rfl (hempty.trans (if_neg ?_))⟩
    · rw [hpast, hd]
      exact decide_eq_true hle
    · rw [hpast, Option.any_eq_true]
      rintro ⟨d, hd, hle⟩
      exact absurd (of_decide_eq_true hle) (Nat.not_le.2 (hlate d hd))

end

section
variable {s : State} {k mask : Nat} {tr : Train} (htr : train? s k = some tr) (hblock : tr.block = some (.tfetch mask))
include htr hblock

theorem exec_tfetchTaskWake (hready : (findRecord s tr mask).isSome = true) : exec (.tfetchTaskWake k) s = .next (unblock s k) := by
  simp only [exec, execTfetchTaskWake, unitStep, htr, hblock, hready, if_true]

theorem exec_tfetchTaskDeadline {d : Nat} (hdeadline : tr.deadline = some d) (hpast : d ≤ s.clk) :
    exec (.tfetchTaskDeadline k) s = .next (unblock s k) := by
  simp only [exec, execTfetchTaskDeadline, unitStep, htr, hblock, pastDeadline, hdeadline, Option.any_some, hpast, decide_true, if_true]

end

/-- Settles O35: `exec_tsub_reached`, `exec_tdone_reached` and `exec_tfetchTask`; the two wakes unblock their train, and a taken record
makes its train a task train (`takeTask_starts`). -/
theorem taskInstructionsRunTheReadyQueues : Obligations.TaskInstructionsRunTheReadyQueues := by
  unfold Obligations.TaskInstructionsRunTheReadyQueues
  refine ⟨fun x s k c s' s2 pa h hon hrec => exec_tsub_reached h hon hrec,
    fun x s k c s' s2 s3 pa l h hon hrec => exec_tdone_reached h hon hrec, fun x s k c s' h hon hact htask hheld => ?fetch,
    fun s k tr mask htr hblock hready => released htr (exec_tfetchTaskWake htr hblock hready),
    fun s k tr mask d htr hblock hdeadline hpast => released htr (exec_tfetchTaskDeadline htr hblock hdeadline hpast),
    fun c s va pa tr htr hjoin => takeTask_starts htr hjoin⟩
  case fetch =>
    obtain rfl := h.seen.args
    obtain rfl := h.seen.slot
    exact exec_tfetchTask h hon hact htask hheld

end Sys2Proof.Machine
end

section
/-! PROOFS. Launches are granted, issued, waited for, admitted and completed, and start their dependants (O36). -/

namespace Sys2Proof.Machine

/-! ### Launch instructions (R309, R310, R315 to R318, R323 to R325) -/

/-- Pieces of a table that all lie in memory are read as the train sees them, and leave no trap. -/
theorem withPieces_ok {c : Ctx} {s s2 : State} {n : Nat} {addrs : List (Nat × Dword)} {places : List (Nat × Dword × Xl)}
    (ht : translateAll s c.tr .load n addrs = (s2, .ok places)) (go : State → List Nat → Option TrapRec → Res) :
    let reached := places.map fun e => (e.1, e.2.1, reachXl s2 e.2.2)
    let s3 := settleLoads s2 c.k (localPlaces reached) n
    (∀ e ∈ reached, ∃ pa, e.2.2 = .mem pa) → withPieces c s n addrs go = go s3 (piecesAt s3 c.tr n reached) none := by
  intro reached s3 hmem
  have htrap : violationTrap c (violations [] reached) = none := by rw [violations_all hmem, violationTrap_nil]
  simp only [withPieces, ht]
  exact congrArg (go s3 (piecesAt s3 c.tr n reached)) htrap

section
variable {x : Args} {s s' : State} {k : Nat} {c : Ctx} {l : Nat} {ln : Launch}

/-- A launch instruction that executes in a train of a launch does what its meaning says for that launch. -/
theorem endsWith_of_launch {i : Instr} {wide : Bool} {go : Ctx → State → Nat → Launch → Res} {s'' : State} {d : Done}
    (h : Ready i x s k c s') (he : exec i s = issue i x wide s fun c s => withLaunch c s (go c s)) (hon : c.on = true)
    (hact : c.tr.act = none) (hl : c.tr.launch = some l) (hln : launch? s' l = some ln) (hgo : go c s' l ln = .done s'' d) :
    EndsWith i x wide s c s'' d :=
  endsWith_of_done h he ((withLaunch_ok hon hact hl hln _).trans hgo)

variable (hon : c.on = true) (hact : c.tr.act = none) (hl : c.tr.launch = some l) (hln : launch? s' l = some ln)
include hon hact hl hln

/-- `tfetch` of the launch's level takes the next grant of the train. -/
theorem exec_tfetch {w : Nat} (h : Ready (.tfetch x) x s k c s') (hw : c.tr.wg = some w) :
    let level := (rdOpnd c x.a .b32 uniTid).toNat
    level < ln.nf → (ln.level = none ∨ ln.level = some level) →
    let r := takeGrant (modLaunch s' l fun y => { y with level := some level }) w l level c.tr
    EndsWith (.tfetch x) x true s c (trimGrants (modTrain r.2 k fun tr => { tr with
      wkid := r.1, grant := some r.1, gotEnd := tr.gotEnd || r.1 = endGrant
      gidx := tr.gidx + (if (wgOf r.2 tr).any (·.disp) then 1 else 0) }) w)
      { vals := [(uniTid, r.1)] } := by
  intro level hlt hlevel r
  obtain rfl := h.seen.slot
  have hallowed : (decide (level ≥ ln.nf) || ln.level.any fun n => decide (n ≠ level)) = false := by
    rcases hlevel with hnone | hsame
    · simp [hlt, hnone]
    · simp [hlt, hsame]
  refine endsWith_of_launch h rfl hon hact hl hln ((if_neg (Bool.eq_false_iff.1 hallowed)).trans ?_)
  simp only [hw, Option.getD_some]
  rfl

/-- `launch` of a header that is reached: DEPTH at depth 8, FULL without a pool entry, else the handle of the new launch. -/
theorem exec_launch_reached {s2 : State} {pa : Nat} (h : Ready (.launch x) x s k c s')
    (hhdr : access s' c.tr .load (rdOpnd c x.a .n64 uniTid) 128 = (s2, .mem pa)) :
    (ln.depth = 8 → EndsWith (.launch x) x true s c s2 { vals := [(uniTid, Rc.depth)] }) ∧
    (ln.depth ≠ 8 →
      let new : Launch := { part := c.tr.part, asid := c.tr.asid, depth := ln.depth + 1, priv := c.tr.priv
                            hdrVA := rdOpnd c x.a .n64 uniTid, parent := some l }
      (poolLaunch (performEarlier s2 k) new = none → EndsWith (.launch x) x true s c s2 { vals := [(uniTid, Rc.full)] }) ∧
      (∀ s3 h, poolLaunch (performEarlier s2 k) new = some (s3, h) →
        EndsWith (.launch x) x true s c s3 { vals := [(uniTid, h)] })) := by
  obtain rfl := h.seen.slot
  refine ⟨fun hdepth => ?_, fun hdepth => ⟨fun hfull => ?_, fun s3 hd hpool => ?_⟩⟩
  all_goals refine endsWith_of_launch h rfl hon hact hl hln ((withRecord_ok hhdr _).trans ?_)
  · exact if_pos hdepth
  · simp only [hdepth, if_false, hfull, uniResult]
  · simp only [hdepth, if_false, hpool, uniResult]

/-- `lwait` of a handle: STALE, the word of a complete launch, or a wait for its end. -/
theorem exec_lwait (h : Ready (.lwait x) x s k c s') :
    (launchOfHandle s' c.tr.asid (rdOpnd c x.a .n64 uniTid) = none →
      EndsWith (.lwait x) x true s c s' { vals := [(uniTid, Rc.stale)] }) ∧
    (∀ i m y, launchOfHandle s' c.tr.asid (rdOpnd c x.a .n64 uniTid) = some (i, m) → launch? s' m = some y →
      (y.state = .complete → EndsWith (.lwait x) x true s c (freePool s' m) { vals := [(uniTid, y.record)] }) ∧
      (y.state ≠ .complete → exec (.lwait x) s = .next (modTrain
        (blockAt s' k c.head (.lwait i (Tab.read 0 s'.poolGen i).toNat)) k fun tr => { tr with atWait := some (.lwait x) }))) := by
  obtain rfl := h.seen.slot
  refine ⟨fun hstale => ?_, fun i m y hm hy => ⟨fun hdone => ?_, fun hruns => exec_of_left h rfl ?_⟩⟩
  · refine endsWith_of_launch h rfl hon hact hl hln ?_
    simp only [hstale, uniResult]
  · refine endsWith_of_launch h rfl hon hact hl hln ?_
    simp only [hm, hy, hdone, if_true, uniResult]
  · refine (withLaunch_ok hon hact hl hln _).trans ?_
    simp only [hm, hy, hruns, if_false, waitHere]

theorem exec_trig {g : Wg} (h : Ready (.trig x) x s k c s') (hg : wgOf (performEarlier s' k) c.tr = some g) :
    EndsWith (.trig x) x false s c (if ln.ndeps = 0 || ln.trig.contains g.wgid then performEarlier s' k
      else modLaunch (performEarlier s' k) l fun y => { y with trig := y.trig ++ [g.wgid] }) {} := by
  obtain rfl := h.seen.slot
  refine endsWith_of_launch h rfl hon hact hl hln ?_
  simp only [hg, Option.elim_some]

/-- `tsel` of a class of the launch's Timetable: NOTABLE, NOFIT, or the value of the entry that serves the size. -/
theorem exec_tsel (h : Ready (.tsel x) x s k c s') :
    let cls := (rdOpnd c x.a .b32 uniTid).toNat
    let n := (src c .b .n64 uniTid).toNat
    cls ≤ 15 →
    (ln.ttab = 0 → EndsWith (.tsel x) x true s c s' { vals := [(uniTid, Rc.noTable)] }) ∧
    (ln.ttab ≠ 0 → ∀ s2 places,
      translateAll s' c.tr .load 8 (pieceAddrs 8 (ln.ttab + BitVec.ofNat 64 (128 * cls)) 16) = (s2, .ok places) →
      let reached := places.map fun e => (e.1, e.2.1, reachXl s2 e.2.2)
      let s3 := settleLoads s2 k (localPlaces reached) 8
      let v := piecesAt s3 c.tr 8 reached
      (∀ e ∈ reached, ∃ pa, e.2.2 = .mem pa) →
      EndsWith (.tsel x) x true s c s3 { vals := [(uniTid, match bestEntry n v with
        | none => Rc.noFit
        | some i => BitVec.ofNat 64 (bitsAt (v.getD (2 * i + 1) 0) 0 48))] }) := by
  intro cls n hcls
  obtain rfl := h.seen.slot
  refine ⟨fun hnone => ?_, fun htable s2 places ht => ?_⟩
  · exact endsWith_of_launch h rfl hon hact hl hln ((if_neg (Nat.not_lt.2 hcls)).trans (if_pos hnone))
  · intro reached s3 v hmem
    refine endsWith_of_launch h rfl hon hact hl hln ((if_neg (Nat.not_lt.2 hcls)).trans ((if_neg htable).trans ?_))
    exact withPieces_ok ht _ hmem

end

/-! ### Admission, completion and dependants (R306, R311, R320, R322, R323) -/

theorem exec_launchAdmit_first {s : State} {p id : Nat} {l : Launch} (hopen : (partAt s p).closed = false) :
    let s1 := readHeaders s p
    (launchOrder s1).find? (fun e => e.2.part = p && e.2.state ≠ .complete && !e.2.halted && !(admissible s1 e.1 e.2).isEmpty)
      = some (id, l) →
    exec (.launchAdmit p) s = .next ((admissible s1 id l).foldl (fun s c => placeWg s id c) s1) := by
  intro s1 hfirst
  simp only [exec, execLaunchAdmit, unitStep, hopen, Bool.false_eq_true, if_false]
  rw [hfirst]

section
variable {s : State} {id : Nat} {l : Launch} (hl : launch? s id = some l)
include hl

theorem exec_launchInvalid_unreached (hunread : l.unread = true) (hnone : readHeader s l = none) :
    exec (.launchInvalid id) s = .next (completeLaunch s id 4) := by
  simp only [exec, execLaunchInvalid, unitStep, hl, hunread, hnone, Bool.not_true, Bool.false_eq_true, if_false]

theorem exec_launchComplete_over (hover : launchOver s id l = true) (hhdr : l.hdr ≠ []) :
    let code := if l.doomed then 3 else if l.nfault > 0 then 2 else 1
    exec (.launchComplete id) s = .next (completeLaunch
      (if l.comp ≠ 0 ∧ l.comp.toNat % 64 = 0 then writeCompletion s l code else s) id (BitVec.ofNat 64 (compWord l code))) := by
  simp only [exec, execLaunchComplete, unitStep, hl, hover, List.isEmpty_eq_false_iff.2 hhdr, Bool.not_true, Bool.false_eq_true, if_false]

theorem exec_dependantsStart_triggered (hfirst : l.started = false) (htrig : allTriggered l = true) :
    let r := startDeps id l (readDeps s l) s
    exec (.dependantsStart id) s = .next (modLaunch r.1 id fun x => { x with started := true, depsLeft := r.2 }) := by
  simp only [exec, execDependantsStart, unitStep, hl, hfirst, htrig, Bool.false_eq_true, if_false, if_true]

end

/-- Settles O36: each instruction by the lemma `exec_<instruction>`, and each event's equation under the condition in which it acts. -/
theorem launchInstructionsAndEventsAct : Obligations.LaunchInstructionsAndEventsAct := by
  unfold Obligations.LaunchInstructionsAndEventsAct
  exact ⟨fun x s k c s' l ln w h hon hact hl hln hw => exec_tfetch hon hact hl hln h hw,
    fun x s k c s' l ln s2 pa h hon hact hl hln => exec_launch_reached hon hact hl hln h,
    fun x s k c s' l ln h hon hact hl hln => exec_lwait hon hact hl hln h,
    fun x s k c s' l ln g h hon hact hl hln => exec_trig hon hact hl hln h,
    fun x s k c s' l ln h hon hact hl hln => exec_tsel hon hact hl hln h, fun s p id l => exec_launchAdmit_first,
    fun s id l => exec_launchInvalid_unreached, fun s id l => exec_launchComplete_over, fun s id l => exec_dependantsStart_triggered⟩

end Sys2Proof.Machine
end

section
/-! PROOFS. Tokens of `svc` in a table that lists no slot twice, and a table in which the statement on the system class fails (O38). -/

namespace Sys2Proof.Machine

/-! ### The token that a train takes (R384) -/

section
variable {s s' : State} {tr : Train} {idx : Nat}

/-- A token that a train holds stands in the table under its name, not yet posted, where the table lists no slot twice. -/
theorem get?_heldToken (hrising : Tab.rising s.services = true) (h : heldToken s tr.uid = some idx) :
    ∃ sv, Tab.get? s.services idx = some sv ∧ sv.uid = tr.uid ∧ sv.posted = false := by
  obtain ⟨⟨i, sv⟩, hfind, rfl⟩ := Option.map_eq_some_iff.1 h
  have hown := List.find?_some hfind
  simp only [Bool.and_eq_true, decide_eq_true_eq, Bool.not_eq_true'] at hown
  exact ⟨sv, Tab.get?_of_mem hrising (List.mem_of_find?_eq_some hfind), hown⟩

theorem takeToken_of_none (h : heldToken s tr.uid = none) :
    takeToken s tr = (Tab.firstFree s.services 4096 0).map fun idx =>
      (idx, { s with services := Tab.put s.services idx { part := tr.part, uid := tr.uid } }) := by
  simp only [takeToken, h]

/-- What O38 says of the token that a train takes, where the table lists no slot twice. -/
theorem get?_takeToken (hrising : Tab.rising s.services = true) (h : takeToken s tr = some (idx, s')) :
    ∃ sv, Tab.get? s'.services idx = some sv ∧ sv.uid = tr.uid ∧ sv.posted = false := by
  cases hheld : heldToken s tr.uid with
  | some i =>
    simp only [takeToken, hheld, Option.some.injEq, Prod.mk.injEq] at h
    obtain ⟨rfl, rfl⟩ := h
    exact get?_heldToken hrising hheld
  | none =>
    rw [takeToken_of_none hheld] at h
    obtain ⟨i, -, hput⟩ := Option.map_eq_some_iff.1 h
    obtain ⟨rfl, rfl⟩ := Prod.mk.inj hput
    exact ⟨_, Tab.get?_put_self .., rfl, rfl⟩

end

/-- Two requests listed in slot 0: the second is train 2's, and no train has posted its own yet. -/
def tokenListedTwice : State :=
  { State.reset with services := [(0, { part := 0, uid := 1 }), (0, { part := 0, uid := 2 })] }

/-- Refutes O38: its sixth clause holds where no slot is listed twice (`get?_takeToken`), and it speaks of every state. In
`tokenListedTwice` train 2 holds slot 0 by the second request there; the slot's first, which a read of the table gives, is train 1's. -/
theorem not_systemInstructionsAct : ¬ Obligations.SystemInstructionsAct := by
  unfold Obligations.SystemInstructionsAct
  intro ⟨_, _, _, _, _, htoken, _⟩
  obtain ⟨hlisted, _⟩ := htoken tokenListedTwice { uid := 2 }
  obtain ⟨sv, hget, huid, _⟩ := hlisted 0 tokenListedTwice rfl
  have hfirst : (Tab.get? tokenListedTwice.services 0).map (·.uid) = some 1 := rfl
  rw [hget, Option.map_some, huid] at hfirst
  exact absurd hfirst (by decide)

end Sys2Proof.Machine
end

section
/-! PROOFS. Host software's registers, the queues and packets of the Stationmaster, and host accesses to memory (O40). -/

namespace Sys2Proof.Machine

/-! ### The supervisor window (R412, R413, R420) -/

section
variable {s : State}

theorem exec_supervisorRegisterWrite_asidTab {i : Nat} (v : Dword) (hi : i < 4096) :
    exec (.supervisorRegisterWrite (0x10000 + 8 * i) v) s
      = .next { s with asidTab := Tab.write 0 s.asidTab i (BitVec.ofNat 64 (bitsAt v.toNat 0 7)) } := by
  have hnot : ¬ 0x10000 + 8 * i < 0x1000 := by omega
  have hin : 0x10000 ≤ 0x10000 + 8 * i ∧ 0x10000 + 8 * i < 0x18000 := by omega
  have hindex : (0x10000 + 8 * i - 0x10000) / 8 = i := by omega
  simp only [exec, execSupervisorRegisterWrite, unitStep, hnot, hin, hindex, and_self, if_true, if_false]

theorem exec_supervisorRegisterWrite_map {i : Nat} (v : Dword) (hi : i < 51200) :
    exec (.supervisorRegisterWrite (0x20000 + 8 * i) v) s = .next (writeMap s (8 * i) v) := by
  have hlow : ¬ 0x20000 + 8 * i < 0x1000 := by omega
  have hasid : ¬ (0x10000 ≤ 0x20000 + 8 * i ∧ 0x20000 + 8 * i < 0x18000) := by omega
  have hin : 0x20000 ≤ 0x20000 + 8 * i ∧ 0x20000 + 8 * i < 0x84000 := by omega
  have hindex : 0x20000 + 8 * i - 0x20000 = 8 * i := by omega
  simp only [exec, execSupervisorRegisterWrite, unitStep, hlow, hasid, hin, hindex, and_self, if_true, if_false]

/-- The map after a write of a dword: its eight bytes at the granules of the dword, the others as they were. -/
theorem read_pmap_writeMap (i : Nat) (v : Dword) (g : Nat) :
    Tab.read 0 (writeMap s (8 * i) v).pmap g
      = if g / 8 = i then BitVec.ofNat 8 (bitsAt v.toNat (8 * (g % 8)) 8) else Tab.read 0 s.pmap g := by
  refine (Tab.read_writeList ..).trans ?_
  rw [bytesOf_length]
  split
  next hin =>
    have hoff : g - 8 * i = g % 8 := by omega
    have hquot : g / 8 = i := by omega
    rw [if_pos hquot, hoff, bytesOf_getD _ _ _ (Nat.mod_lt g (by decide)), bitsAt]
    apply BitVec.eq_of_toNat_eq
    rw [BitVec.toNat_ofNat, BitVec.toNat_ofNat, Nat.mod_mod, Nat.pow_mul]
  next hout => rw [if_neg (by omega)]

theorem exec_supervisorRegisterWrite_part {p n : Nat} (v : Dword) (hp : p < 64) (hn : n < 0x40) :
    exec (.supervisorRegisterWrite (0x108000 + 0x10000 * p + 8 * n) v) s = .next (writePartReg s p (0x40 + n) v) := by
  have hlow : ¬ 0x108000 + 0x10000 * p + 8 * n < 0x1000 := by omega
  have hasid : ¬ (0x10000 ≤ 0x108000 + 0x10000 * p + 8 * n ∧ 0x108000 + 0x10000 * p + 8 * n < 0x18000) := by omega
  have hmap : ¬ (0x20000 ≤ 0x108000 + 0x10000 * p + 8 * n ∧ 0x108000 + 0x10000 * p + 8 * n < 0x84000) := by omega
  have hin : 0x100000 ≤ 0x108000 + 0x10000 * p + 8 * n ∧ 0x108000 + 0x10000 * p + 8 * n < 0x500000 := by omega
  have hpage : (0x108000 + 0x10000 * p + 8 * n - 0x100000) / 0x10000 = p := by omega
  have hoff : (0x108000 + 0x10000 * p + 8 * n) % 0x10000 = 0x8000 + 8 * n := by omega
  have huser : ¬ 0x8000 + 8 * n < 0x40 := by omega
  have hsuper : ¬ 0x8000 + 8 * n < 0x80 := by omega
  have hpart : 0x8000 ≤ 0x8000 + 8 * n := Nat.le_add_right ..
  have hreg : (0x8000 + 8 * n - 0x8000) / 8 = n := by rw [Nat.add_sub_cancel_left, Nat.mul_div_cancel_left n (by decide)]
  simp only [exec, execSupervisorRegisterWrite, unitStep, hlow, hasid, hmap, hin, and_self, if_true, if_false, hpage, hoff, writePage,
    huser, hsuper, hpart, hreg]

/-- A write in the supervisor registers. -/
theorem exec_supervisorRegisterWrite_super {off : Nat} (v : Dword) (h : off < 0x1000) :
    exec (.supervisorRegisterWrite off v) s = .next (writeSuper s off v) := by
  simp only [exec, execSupervisorRegisterWrite, unitStep, h, if_true]

theorem writeSuper_short (v : Dword) :
    writeSuper s 0 v = { s with super := { s.super with short := s.super.short && bitsAt v.toNat 4 1 = 0 } } := by
  have hbit := bitsAt_one_eq_zero_iff (x := v.toNat) (lo := 4)
  by_cases hset : bitsAt v.toNat 4 1 = 1
  · simp [writeSuper, hset]
  · simp [writeSuper, hset, hbit]

/-- A write with GO 0 changes the registers alone. -/
theorem writeSuper_idle {v : Dword} (hgo : bitsAt v.toNat 63 1 = 0) :
    let n := v.toNat
    let x := s.super
    writeSuper s 0x030 v = { s with super := { x with rpart := BitVec.ofNat 6 n, rmode := decide (bitsAt n 8 1 = 1) } } ∧
    writeSuper s 0x038 v = { s with super := { x with
      qpart := BitVec.ofNat 6 n, qslots := BitVec.ofNat 8 (bitsAt n 8 8), qtokens := BitVec.ofNat 8 (bitsAt n 16 8) } } ∧
    writeSuper s 0x040 v = { s with super := { x with attAddr := BitVec.ofNat 56 n } } ∧
    writeSuper s 0x048 v = { s with super := { x with rtAddr := BitVec.ofNat 56 n } } := by
  simp [writeSuper, hgo]

/-- A write with GO 1 starts the action of its register. -/
theorem writeSuper_go {v : Dword} (hgo : bitsAt v.toNat 63 1 = 1) :
    let n := v.toNat
    let x := s.super
    let job := (bitsAt n 0 6, decide (bitsAt n 8 1 = 1))
    writeSuper s 0x030 v = { s with super := { x with
      rpart := BitVec.ofNat 6 n, rmode := job.2, resets := if job ∈ x.resets then x.resets else x.resets ++ [job] } } ∧
    writeSuper s 0x038 v = setShares s (bitsAt n 0 6) (BitVec.ofNat 8 (bitsAt n 8 8)) (BitVec.ofNat 8 (bitsAt n 16 8)) ∧
    writeSuper s 0x040 v = writeReport { s with super := { x with attAddr := BitVec.ofNat 56 n } } ∧
    writeSuper s 0x048 v = swapRoutes s v := by
  intro n x job
  refine ⟨?_, ?_, ?_, ?_⟩
  · by_cases hin : job ∈ x.resets
    · have hlisted : (!x.resets.contains job) = false := by simp [hin]
      simp only [writeSuper, hgo, decide_true, Bool.true_and, hin, if_true, n, x, job] at hlisted ⊢
      simp only [hlisted, Bool.false_eq_true, if_false]
    · have hlisted : (!x.resets.contains job) = true := by simp [hin]
      simp only [writeSuper, hgo, decide_true, Bool.true_and, hin, if_false, n, x, job] at hlisted ⊢
      simp only [hlisted, if_true]
  all_goals simp only [writeSuper, hgo, if_true, n, x]

end

/-! ### Queue registers (R414, R415) -/

section
variable {s : State} {p : Nat} {sup : Bool}

theorem exec_qtail (v : Word) :
    let x := queueOf (partAt s p) sup
    (x.state = 0 → exec (.qtail p sup v) s = .next (setQueue s p sup { x with tail := v, head := v })) ∧
    (x.state ≠ 0 → (v - x.head).toNat ≤ x.size → exec (.qtail p sup v) s = .next (setQueue s p sup { x with tail := v })) ∧
    (x.state ≠ 0 → x.size < (v - x.head).toNat →
      exec (.qtail p sup v) s = .next (setQueue s p sup { x with tail := v, state := 2, err := x.base })) :=
  ⟨fun hstopped => congrArg Host.Outcome.next (if_pos hstopped),
    fun hruns hle => congrArg Host.Outcome.next ((if_neg hruns).trans (if_neg (Nat.not_lt.2 hle))),
    fun hruns hlt => congrArg Host.Outcome.next ((if_neg hruns).trans (if_pos hlt))⟩

theorem exec_qstate (v : Dword) :
    let x := queueOf (partAt s p) sup
    (bitsAt v.toNat 0 2 = 0 → exec (.qstate p sup v) s = .next (setQueue s p sup { x with state := 0 })) ∧
    (bitsAt v.toNat 0 2 = 1 → exec (.qstate p sup v) s
      = .next (if queueValid s p x then setQueue s p sup { x with state := 1 } else s)) := by
  refine ⟨fun hstop => ?_, fun hstart => ?_⟩
  · simp only [exec, execQstate, unitStep, writeState, hstop]
  · simp only [exec, execQstate, unitStep, writeState, hstart]

theorem exec_stationmasterStep_of_idle (hidle : ∀ e ∈ s.parts, pendingType e.2 = none) :
    exec .stationmasterStep s = .next ((s.parts.map (·.1)).foldl selectPacket s) := by
  have hnone : (s.parts.any fun e => (pendingType e.2).isSome) = false := List.any_eq_false.2 fun e he => by simp [hidle e he]
  simp only [exec, execStationmasterStep, unitStep, hnone, Bool.false_eq_true, if_false]

end

/-! ### Packets (R418, R419) -/

section
variable {s : State} {p : Nat} {pk : Packet}

/-- A packet of a type runs when its type has its turn. -/
theorem packetStep_of_turn {type : Nat} (ht : turnOf s p type = some pk) (body : Packet → State) :
    packetStep s p type body = .next (body pk) := by
  simp only [packetStep, unitStep, ht]

/-- An access of a packet that reaches this module's memory goes on with its place. -/
theorem laneAccess_mem {acc : Access} {va : Dword} {align pa : Nat}
    (h : unitAccess s p (laneAsid s p pk) pk.sup acc va align = .mem pa) (go : Nat → State) :
    laneAccess s p pk acc va align go = go pa := by
  simp only [laneAccess, h]

theorem exec_setv {pa : Nat} (ht : turnOf s p 1 = some pk)
    (h : unitAccess s p (laneAsid s p pk) pk.sup .store (pk.words.getD 1 0) 8 = .mem pa) :
    exec (.setv p) s = .next (acceptPacket (writeMem s pa 8 (pk.words.getD 2 0).toNat) p) :=
  (packetStep_of_turn ht _).trans (congrArg Host.Outcome.next (laneAccess_mem h _))

/-- The condition of a WAITV that holds lets the packet go. -/
theorem readWaitv_of_holds {pa : Nat} (h : unitAccess s p (laneAsid s p pk) pk.sup .load (pk.words.getD 1 0) 8 = .mem pa)
    (hval : (readMem s pa 8 = (pk.words.getD 2 0).toNat) ↔ pk.word 3 = 1) : readWaitv s p pk = acceptPacket s p := by
  refine (laneAccess_mem h _).trans (if_pos ?_)
  rw [beq_iff_eq, Bool.eq_iff_iff, decide_eq_true_eq, decide_eq_true_eq]
  exact hval

theorem exec_waitv {pa : Nat} (h : unitAccess s p (laneAsid s p pk) pk.sup .load (pk.words.getD 1 0) 8 = .mem pa)
    (hval : (readMem s pa 8 = (pk.words.getD 2 0).toNat) ↔ pk.word 3 = 1) :
    (turnOf s p 2 = some pk → exec (.waitv p) s = .next (acceptPacket s p)) ∧
    (∀ last, (partAt s p).lane.hold = some (.waitv last) → (partAt s p).lane.packet = some pk →
      exec (.waitvReread p) s = .next (acceptPacket s p)) := by
  have hread := readWaitv_of_holds h hval
  refine ⟨fun ht => (packetStep_of_turn ht _).trans (congrArg Host.Outcome.next hread), fun last hhold hpk => ?_⟩
  simp only [exec, execWaitvReread, unitStep, hhold, hpk, hread]

theorem exec_fencePacket (ht : turnOf s p 3 = some pk) (hidle : queueBusy s p pk.sup = false)
    (hhold : ∀ sup, (partAt s p).lane.hold ≠ some (.fence sup)) : exec (.fencePacket p) s = .next (acceptPacket s p) := by
  simp only [exec, execFencePacket, unitStep]
  split
  next sup _ h _ => exact absurd h (hhold sup)
  next => simp only [ht, hidle, Bool.false_eq_true, if_false]

theorem exec_copyPacket {pa : Nat} (ht : turnOf s p 4 = some pk)
    (h : unitAccess s p (laneAsid s p pk) pk.sup .store (pk.words.getD 1 0) 8 = .mem pa)
    (hroom : engineFull s (copyOp s p pk).engine = false) :
    exec (.copyPacket p) s = .next (acceptPacket (addOp s (copyOp s p pk)) p) :=
  (packetStep_of_turn ht _).trans (congrArg Host.Outcome.next
    ((laneAccess_mem h _).trans (if_neg (Bool.eq_false_iff.1 hroom))))

theorem exec_lineOpenPacket {pa qa : Nat} (ht : turnOf s p 5 = some pk) (hopen : pk.word 1 = 0)
    (hresult : unitAccess s p (laneAsid s p pk) pk.sup .store (pk.words.getD 4 0) 8 = .mem qa)
    (hdesc : unitAccess s p (laneAsid s p pk) pk.sup .load (pk.words.getD 2 0) 64 = .mem pa) :
    let desc := (List.range 8).map fun i => (BitVec.ofNat 64 (readMem s (pa + 8 * i) 8) : Dword)
    let r := openLine s (anyCluster s (pk.word 3))
      { desc := desc, descVA := pk.words.getD 2 0, asid := laneAsid s p pk, part := p, priv := pk.sup }
    exec (.lineOpenPacket p) s = .next (acceptPacket (writeMem r.1 qa 8 r.2.toNat) p) := by
  have hop : ¬ pk.word 1 = 1 := by omega
  exact (packetStep_of_turn ht _).trans (congrArg Host.Outcome.next
    ((if_neg hop).trans ((laneAccess_mem hresult _).trans (laneAccess_mem hdesc _))))

/-- A close that has its turn closes its line and holds its lane. -/
theorem exec_lineClosePacket_turn {pa l : Nat} {ln : Line} (ht : turnOf s p 5 = some pk) (hclose : pk.word 1 = 1)
    (hhold : ∀ l gen, (partAt s p).lane.hold ≠ some (.lclose l gen)) (hnew : (partAt s p).lane.result = none)
    (hresult : unitAccess s p (laneAsid s p pk) pk.sup .store (pk.words.getD 4 0) 8 = .mem pa)
    (hline : lineOf s { part := p, asid := laneAsid s p pk } (pk.words.getD 2 0) = some (l, ln)) :
    exec (.lineClosePacket p) s = .next (holdLane (closeLine s l) p (some (.lclose l ln.gen))) := by
  have hop : ¬ pk.word 1 = 0 := by omega
  simp only [exec, execLineClosePacket, unitStep]
  split
  next l gen _ h _ => exact absurd h (hhold l gen)
  next => simp only [ht, hnew, hop, if_false, laneAccess_mem hresult, hline]

/-- A lane whose line is gone writes its result and is free. -/
theorem exec_lineClosePacket_end {pa l : Nat} {gen : Nat} (hhold : (partAt s p).lane.hold = some (.lclose l gen))
    (hpk : (partAt s p).lane.packet = some pk) (hgone : (Tab.get? s.lines l).any (·.gen = gen) = false) :
    let s1 := modPart s p fun q => { q with lane := { q.lane with hold := none, result := some 0 } }
    unitAccess s1 p (laneAsid s1 p pk) pk.sup .store (pk.words.getD 4 0) 8 = .mem pa →
    exec (.lineClosePacket p) s = .next (acceptPacket (writeMem s1 pa 8 0) p) := by
  intro s1 hresult
  simp only [exec, execLineClosePacket, unitStep, hhold, hpk, hgone, Bool.false_eq_true, if_false]
  exact congrArg Host.Outcome.next (laneAccess_mem hresult _)

theorem exec_launchPacket (ht : turnOf s p 6 = some pk) (halign : (pk.words.getD 1 0).toNat % 128 = 0) :
    let new : Launch := { part := p, asid := laneAsid s p pk, priv := pk.sup, hdrVA := pk.words.getD 1 0
                          fromQueue := some (p, pk.sup) }
    exec (.launchPacket p) s = .next (acceptPacket { (freshId s).2 with
      launches := Tab.put (freshId s).2.launches (freshId s).1 new } p) :=
  (packetStep_of_turn ht _).trans (congrArg Host.Outcome.next (if_neg (not_not_intro halign)))

theorem exec_padPacket (ht : turnOf s p 7 = some pk) : exec (.padPacket p) s = .next (acceptPacket s p) := packetStep_of_turn ht _

end

/-! ### Memory of the host (R412, R413) -/

/-- A write leaves the addresses that the host reaches as they were. -/
theorem hostReaches_writeBytes (s : State) (pa : Nat) (bs : List Byte) (q : Nat) :
    hostReaches (writeBytes s pa bs) q = hostReaches s q := rfl

theorem hostWrite_frame (bs : List Byte) : ∀ (s : State) (q : Nat), hostWrite s q bs = { s with mem := (hostWrite s q bs).mem } := by
  induction bs with
  | nil => exact fun _ _ => rfl
  | cons b bs ih =>
    intro s q
    rw [hostWrite]
    split
    · exact ih ..
    · exact ih ..

/-- After a host write, a byte that it names and reaches has the byte given for it, and any other is as it was. -/
theorem readByte_hostWrite (bs : List Byte) : ∀ (s : State) (q : Nat),
    (∀ i, i < bs.length → hostReaches s (q + i) → readByte (hostWrite s q bs) (bulkBase + q + i) = bs.getD i 0) ∧
    ∀ a, (∀ i, i < bs.length → hostReaches s (q + i) → a ≠ bulkBase + q + i) → readByte (hostWrite s q bs) a = readByte s a := by
  induction bs with
  | nil => exact fun s q => ⟨fun i hi => absurd hi (Nat.not_lt_zero i), fun a _ => rfl⟩
  | cons b bs ih =>
    intro s q
    let s1 := if hostReaches s q then writeBytes s (bulkBase + q) [b] else s
    have hreach (j : Nat) : hostReaches s1 j = hostReaches s j := by simp only [s1]; split <;> rfl
    have hfirst : hostReaches s q → readByte s1 (bulkBase + q) = b := fun h => by
      simp only [s1, if_pos h, readByte_writeBytes, List.length_singleton]
      simp
    have hother (a : Nat) (ha : hostReaches s q → a ≠ bulkBase + q) : readByte s1 a = readByte s a := by
      by_cases h : hostReaches s q
      · simp only [s1, if_pos h, readByte_writeBytes, List.length_singleton]
        exact if_neg (by have := ha h; omega)
      · simp only [s1, if_neg h]
    obtain ⟨hrest, hframe⟩ := ih s1 (q + 1)
    refine ⟨fun i hi hr => ?_, fun a ha => ?_⟩
    · cases i with
      | zero => exact (hframe _ fun j _ _ => by omega).trans (hfirst hr)
      | succ i =>
        have hindex : q + (i + 1) = q + 1 + i := by omega
        have haddr : bulkBase + q + (i + 1) = bulkBase + (q + 1) + i := by omega
        rw [haddr]
        exact hrest i (by simpa using hi) (by rw [hreach, ← hindex]; exact hr)
    · refine (hframe a fun i hi hr => ?_).trans (hother a fun hr => ha 0 (Nat.succ_pos _) hr)
      have hindex : q + 1 + i = q + (i + 1) := by omega
      rw [hreach, hindex] at hr
      have := ha (i + 1) (by simpa using hi) hr
      omega

theorem exec_asidgenAdv {s : State} {p : Nat} (h : asidOwned s p (selectedAsid s p)) :
    exec (.asidgenAdv p) s = .next (advanceGen s (selectedAsid s p)) := by
  have hadv : (asidOwned s p (selectedAsid s p) && (1#64 <<< 63).getLsbD 63) = true := by rw [h]; decide
  exact congrArg Host.Outcome.next (if_pos hadv)

/-- Settles O40: the register window's rows, each packet and the host's accesses by the lemma `exec_<event>`; a host write by
`readByte_hostWrite`, the induction over its bytes. -/
theorem hostAccessesAndPacketsAct : Obligations.HostAccessesAndPacketsAct := by
  unfold Obligations.HostAccessesAndPacketsAct
  refine ⟨fun s i v => exec_supervisorRegisterWrite_asidTab v, fun s i v hi => ?map,
    fun s p n v => exec_supervisorRegisterWrite_part v, fun s v => ?window, fun s p sup v => exec_qtail v,
    fun s p sup v => exec_qstate v, fun s => exec_stationmasterStep_of_idle, fun s p pk pa => exec_setv,
    fun s p pk pa => exec_waitv, fun s p pk => exec_fencePacket, fun s p pk pa => exec_copyPacket,
    fun s p pk pa qa => exec_lineOpenPacket, fun s p pk pa l ln => exec_lineClosePacket_turn,
    fun s p pk pa l gen => exec_lineClosePacket_end, fun s p pk => exec_launchPacket, fun s p pk => exec_padPacket,
    fun s q n => rfl, fun s q bs => ⟨_, rfl, hostWrite_frame bs s q, readByte_hostWrite bs s q⟩, fun s p => exec_asidgenAdv,
    fun s p => rfl, fun s p v => rfl, fun s p slots tokens => ⟨_, rfl, ?slots, ?tokens, fun a => rfl⟩⟩
  case map =>
    refine ⟨_, exec_supervisorRegisterWrite_map v hi, rfl, fun j hj => ?_, fun g hg => ?_⟩
    · rw [read_pmap_writeMap, if_pos (by omega), Nat.mul_add_mod, Nat.mod_eq_of_lt hj]
    · rw [read_pmap_writeMap, if_neg hg]
  case window =>
    intro x n w job
    have hwrite (off : Nat) (h : off < 0x1000) : w off = .next (writeSuper s off v) := exec_supervisorRegisterWrite_super v h
    rw [hwrite 0x000 (by decide), hwrite 0x010 (by decide), hwrite 0x018 (by decide), hwrite 0x030 (by decide),
      hwrite 0x038 (by decide), hwrite 0x040 (by decide), hwrite 0x048 (by decide), writeSuper_short]
    refine ⟨rfl, rfl, rfl, fun hgo => ?_, fun hgo => ?_⟩
    · obtain ⟨h30, h38, h40, h48⟩ := writeSuper_idle (s := s) hgo
      rw [h30, h38, h40, h48]
      exact ⟨rfl, rfl, rfl, rfl⟩
    · obtain ⟨h30, h38, h40, h48⟩ := writeSuper_go (s := s) hgo
      rw [h30, h38, h40, h48]
      exact ⟨rfl, rfl, rfl, rfl⟩
  case slots => simp only [setShares, partAt_modPart, if_true]
  case tokens => simp only [setShares, partAt_modPart, if_true]

end Sys2Proof.Machine
end

section
/-! PROOFS. An exact trap enters the handler with what its threads stood at (O47). -/

namespace Sys2Proof.Machine

/-! ### Values written thread by thread and register by register (R380, R381) -/

/-- Values written at each key of a list, read back (`read_pcWrites` is the same of PCs). -/
theorem read_foldl_write {α : Type} [DecidableEq α] (d : α) (f : Nat → α) (ts : List Nat) (m : Tab α) (l : Nat) :
    Tab.read d (ts.foldl (fun m t => Tab.write d m t (f t)) m) l = if l ∈ ts then f l else Tab.read d m l := by
  induction ts generalizing m with
  | nil => rfl
  | cons t ts ih =>
    rw [List.foldl_cons, ih, Tab.read_write]
    by_cases ht : l = t <;> simp [ht]

/-- Registers that take new bits in the threads of one mask and keep their own in those of another: a bit of the first mask reads new. -/
theorem getLsbD_read_foldl_merge (new : Nat → Mask) {taken kept : Mask} {l : Nat} (htaken : taken.getLsbD l = true)
    (hkept : kept.getLsbD l = false) (ns : List Nat) (m : Tab Mask) {n : Nat} (hn : n ≠ 0) :
    (Tab.read 0 (ns.foldl (fun m n =>
      if n = 0 then m else Tab.write 0 m n ((new n &&& taken) ||| (Tab.read 0 m n &&& kept))) m) n).getLsbD l
      = if n ∈ ns then (new n).getLsbD l else (Tab.read 0 m n).getLsbD l := by
  induction ns generalizing m with
  | nil => rfl
  | cons i ns ih =>
    rw [List.foldl_cons, ih]
    by_cases hin : n ∈ ns
    · simp [hin]
    · by_cases hi : n = i
      · subst hi
        simp [hin, hn, htaken, hkept]
      · have hsame : Tab.read 0 (if i = 0 then m else Tab.write 0 m i ((new i &&& taken) ||| (Tab.read 0 m i &&& kept))) n
            = Tab.read 0 m n := by
          split
          · rfl
          · exact (Tab.read_write ..).trans (if_neg hi)
        rw [hsame, if_neg hin, if_neg (by simp [hin, hi])]

theorem getLsbD_live (tr : Train) {l : Nat} (hl : l < 64) : (live tr).getLsbD l = !tr.exited.getLsbD l := by
  simp [live, hl]

theorem getLsbD_lanesWith {tr : Train} {l : Nat} (hl : l < 64) (hlive : tr.exited.getLsbD l = false) (code : Nat → BitVec 3)
    (n : BitVec 3) : (lanesWith tr code n).getLsbD l = decide (code l = n) := by
  rw [lanesWith, BitVec.getLsbD_and, getLsbD_live tr hl, hlive, getLsbD_maskOf _ hl]
  rfl

/-! ### What delivery saves of a thread that has not exited (R380) -/

section
variable {tr : Train} {l : Nat} (hl : l < 64) (hlive : tr.exited.getLsbD l = false)
variable (tvec : Dword) (pcf : Nat → Dword) (code : Nat → BitVec 3) (free : Nat)
include hl hlive

theorem mem_threads_live : l ∈ (live tr).threads := mem_threads.2 ⟨hl, by rw [getLsbD_live tr hl, hlive]; rfl⟩

/-- Such a thread's state code in the held masks, its PC and its state, and its predicates. -/
theorem deliver_saves :
    let tr' := deliver tr tvec pcf code free
    tr'.xbar.getLsbD l = decide (code l = 2) ∧ tr'.xgbar.getLsbD l = decide (code l = 3) ∧
    Tab.read 0 tr'.xpc l = BitVec.ofNat 64 ((pcf l).toNat % 2 ^ 48) ∧ Tab.read 0 tr'.xstate l = code l ∧
    ∀ n, 0 < n → n < 8 → (Tab.read 0 tr'.xk n).getLsbD l = (rdK tr n).getLsbD l := by
  have hmem := mem_threads_live hl hlive
  have hbit : (live tr).getLsbD l = true := (mem_threads.1 hmem).2
  refine ⟨getLsbD_lanesWith hl hlive .., getLsbD_lanesWith hl hlive .., ?_, (read_foldl_write ..).trans (if_pos hmem),
    fun n hn hn8 => ?_⟩
  · refine (read_pcWrites ..).trans ((if_pos hmem).trans ?_)
    rw [bitsAt, Nat.pow_zero, Nat.div_one]
  · exact (getLsbD_read_foldl_merge (rdK tr) hbit hlive _ _ (by omega)).trans (if_pos (List.mem_range.2 hn8))

end

theorem deliverHead_eq {s : State} {k : Nat} {tr : Train} (htr : train? s k = some tr) :
    deliverHead s k = putTrain { s with freeCount := s.freeCount + 4 } k
      (deliver tr (tvecOf s tr.part) (pcOf tr) (laneState tr) s.freeCount) := by
  have hsame : train? { s with freeCount := s.freeCount + 4 } k = some tr := htr
  simp only [deliverHead, htr, modTrain_eq hsame]

theorem deliverHead_putTrain (s : State) (k : Nat) (tr : Train) :
    deliverHead (putTrain s k tr) k = putTrain { s with freeCount := s.freeCount + 4 } k
      (deliver tr (tvecOf s tr.part) (pcOf tr) (laneState tr) s.freeCount) := by
  refine (deliverHead_eq ((train?_putTrain ..).trans (if_pos rfl))).trans ?_
  simp only [putTrain, Tab.put_put]
  rfl

/-! ### Taking an exact trap (R380, R382) -/

theorem withdrawAlloc_frame (s : State) (k : Nat) : ∃ wgs, withdrawAlloc s k = { s with wgs := wgs } := by
  unfold withdrawAlloc
  split
  · exact ⟨_, rfl⟩
  · exact ⟨s.wgs, rfl⟩

theorem unblock_frame {s : State} {k : Nat} {tr : Train} (htr : train? s k = some tr) :
    ∃ wgs, unblock s k = putTrain { s with wgs := wgs } k { tr with block := none, atWait := none } := by
  simp only [unblock, htr, touchStall]
  split
  · exact ⟨_, rfl⟩
  · exact ⟨s.wgs, rfl⟩

/-- A train outside a handler takes an exact trap by the delivery of its record from where its threads stand. -/
theorem takeTrapAs_exact {s : State} {k : Nat} {tr : Train} (htr : train? s k = some tr) (hout : tr.intrap = false) (r : TrapRec) :
    ∃ wgs, takeTrapAs s k r false = putTrain { s with wgs := wgs, freeCount := s.freeCount + 4 } k
      (deliver { tr with block := none, atWait := none, tq := enqueueTrap tr.tq r } (tvecOf s tr.part) (pcOf tr) (laneState tr)
        s.freeCount) := by
  obtain ⟨wgs1, hwithdraw⟩ := withdrawAlloc_frame s k
  obtain ⟨wgs2, hunblock⟩ := unblock_frame (s := { s with wgs := wgs1 }) (k := k) (tr := tr) htr
  have htaken : train? (unblock (withdrawAlloc s k) k) k = some { tr with block := none, atWait := none } := by
    rw [hwithdraw, hunblock, train?_putTrain, if_pos rfl]
  refine ⟨wgs2, ?_⟩
  simp only [takeTrapAs, htr, hout, Bool.false_eq_true, if_false, modTrain_eq htaken]
  rw [hwithdraw, hunblock, putTrain_putTrain, deliverHead_putTrain]
  rfl

theorem takeTrapAs_double {s : State} {k : Nat} {tr : Train} (htr : train? s k = some tr) (hin : tr.intrap = true) (r : TrapRec) :
    takeTrapAs s k r false = endFaulted (setIrq s tr.part 2) k 13 r.kind r.pc := by
  simp only [takeTrapAs, htr, hin, Bool.false_eq_true, if_false, if_true, Trap.double]

/-- The first fault of a launch is recorded as it is. -/
theorem launch?_recordFault_first {s : State} {l : Nat} {y : Launch} (hl : launch? s l = some y) (hfirst : y.ffault = none)
    (f : FaultInfo) : ∃ y', launch? (recordFault s l f) l = some y' ∧ y'.ffault = some f := by
  refine ⟨_, by rw [recordFault, launch?, modLaunch, Tab.get?_adjust, if_pos rfl, ← launch?, hl, Option.map_some], ?_⟩
  simp only [hfirst, Option.getD_none, ite_self]

/-- Settles O47: the train after an exact trap is `deliver`ed (`takeTrapAs_exact`), and what it saved is read thread by thread. -/
theorem anExactTrapEntersTheHandler : Obligations.AnExactTrapEntersTheHandler := by
  unfold Obligations.AnExactTrapEntersTheHandler
  refine ⟨fun s k r => rfl, fun s k tr r htr hout hfirst => ?_, fun s k tr r htr hin => ⟨takeTrapAs_double htr hin r,
    setIrq_sets s tr.part (by decide), fun l y f hl => (launch?_recordFault_first hl · f)⟩⟩
  obtain ⟨wgs, htaken⟩ := takeTrapAs_exact htr hout r
  rw [htaken]
  refine ⟨_, (train?_putTrain ..).trans (if_pos rfl), ?_, rfl, rfl, rfl, rfl, rfl, rfl, rfl, rfl, rfl, rfl, rfl, fun l hl hlive => ?_,
    fun r l => ?_, fun j hj => ?_, fun a => rfl⟩
  · rw [hfirst]
    rfl
  · exact deliver_saves hl hlive (tvecOf s tr.part) (pcOf tr) (laneState tr) s.freeCount
  · cases r <;> rfl
  · rw [train?_putTrain, if_neg hj]
    rfl

end Sys2Proof.Machine
end

section
/-! PROOFS. `eret` gives the threads and the train what delivery saved (O49). -/

namespace Sys2Proof.Machine

/-! ### What a return restores (R381) -/

/-- The PC to which a return sends a thread: an exited one stays where it exited. -/
def savedPc (tr : Train) (t : Nat) : Dword := if tr.exited.getLsbD t then pcOf tr t else Tab.read 0 tr.xpc t

def savedState (tr : Train) (t : Nat) : BitVec 3 := Tab.read 0 tr.xstate t

/-- The predicates after a return: the saved ones in the threads that have not exited. -/
def restoredK (tr : Train) : Tab Mask :=
  (List.range 8).foldl (fun m n =>
    if n = 0 then m
    else Tab.write 0 m n ((Tab.read 0 tr.xk n &&& live tr) ||| (Tab.read 0 m n &&& tr.exited))) tr.k

/-- A train whose head record has left its queue and whose threads, none of them selected anew yet, have what delivery saved. -/
def restored (tr : Train) : Train :=
  { tr with
    tq := tr.tq.drop 1, k := restoredK tr, g := BitVec.ofNat 8 (1 + 2 * bitsAt tr.xg.toNat 1 7)
    flags := BitVec.ofNat 7 (bitsAt tr.xg.toNat 8 7), priv := tr.ppriv, intrap := false
    heldBar := lanesWith tr (savedState tr) 2, heldGbar := lanesWith tr (savedState tr) 3, xbar := 0, xgbar := 0
    chain := { tr.chain with started := true, terminal := true, len := 0, reads := [], selfWrite := false } }

/-- The state in which a return has restored the train in slot `k`, before any thread arrives at a barrier. -/
def returned (s : State) (k : Nat) (tr : Train) : State :=
  loseLatches (putTrain s k (keepAsides (selectWith (restored tr) (savedPc tr)))) k

/-- The threads that the handler made HELD. -/
def newlyHeld (tr : Train) : Mask :=
  (lanesWith tr (savedState tr) 2 &&& ~~~tr.xbar) ||| (lanesWith tr (savedState tr) 3 &&& ~~~tr.xgbar)

theorem mask_ne_zero_iff {m : Mask} : m ≠ 0 ↔ ∃ l, l < 64 ∧ m.getLsbD l = true := by
  refine ⟨fun hne => by_contra fun hnone => hne (BitVec.eq_of_getLsbD_eq fun l hl => ?_), fun ⟨l, _, hin⟩ hzero => by simp [hzero] at hin⟩
  simpa [hl] using fun hin => hnone ⟨l, hl, hin⟩

theorem newlyHeld_ne_zero_iff (tr : Train) : newlyHeld tr ≠ 0 ↔ ∃ l, (l < 64 ∧ tr.exited.getLsbD l = false) ∧
    (savedState tr l = 2 ∧ tr.xbar.getLsbD l = false ∨ savedState tr l = 3 ∧ tr.xgbar.getLsbD l = false) := by
  have hbit (l : Nat) (hl : l < 64) : (newlyHeld tr).getLsbD l = true ↔ tr.exited.getLsbD l = false ∧
      (savedState tr l = 2 ∧ tr.xbar.getLsbD l = false ∨ savedState tr l = 3 ∧ tr.xgbar.getLsbD l = false) := by
    cases hlive : tr.exited.getLsbD l with
    | false =>
      rw [newlyHeld, BitVec.getLsbD_or, BitVec.getLsbD_and, BitVec.getLsbD_and, getLsbD_lanesWith hl hlive, getLsbD_lanesWith hl hlive,
        BitVec.getLsbD_not, BitVec.getLsbD_not]
      simp only [hl, decide_true, Bool.true_and, true_and, Bool.or_eq_true, Bool.and_eq_true, decide_eq_true_eq, Bool.not_eq_true']
    | true => simp [newlyHeld, lanesWith, getLsbD_live tr hl, hlive]
  rw [mask_ne_zero_iff]
  exact exists_congr fun l => ⟨fun ⟨hl, hin⟩ => ⟨⟨hl, ((hbit l hl).1 hin).1⟩, ((hbit l hl).1 hin).2⟩,
    fun ⟨⟨hl, hlive⟩, hheld⟩ => ⟨hl, (hbit l hl).2 ⟨hlive, hheld⟩⟩⟩

/-- A selection changes the PCs and the selected threads alone. -/
theorem selectWith_frame (tr : Train) (pcf : Nat → Dword) :
    ∃ pc sel pcs, selectWith tr pcf = { tr with pc := pc, selected := sel, pcs := pcs } := by
  rcases selectWith_cases tr pcf with ⟨-, h⟩ | ⟨p, -, -, h⟩
  · exact ⟨tr.pc, 0, _, h⟩
  · exact ⟨p, _, _, h⟩

theorem getLsbD_bitsAt {x i lo n w : Nat} (hi : i < n) (hw : i < w) :
    (BitVec.ofNat w (bitsAt x lo n)).getLsbD i = x.testBit (lo + i) := by
  rw [BitVec.getLsbD_ofNat, bitsAt, Nat.testBit_mod_two_pow, Nat.testBit_div_two_pow, Nat.add_comm]
  simp [hi, hw]

/-- The `g` flags of a saved word; bit 0 is `g0`, which reads as 1 (R22). -/
theorem getLsbD_savedG (xg : BitVec 15) {n : Nat} (hn : 0 < n) (hn8 : n < 8) :
    (BitVec.ofNat 8 (1 + 2 * bitsAt xg.toNat 1 7)).getLsbD n = xg.getLsbD n := by
  obtain ⟨m, rfl⟩ := Nat.exists_eq_add_of_lt hn
  have hhalf : (1 + 2 * bitsAt xg.toNat 1 7) / 2 = bitsAt xg.toNat 1 7 := by omega
  have hbit := getLsbD_bitsAt (x := xg.toNat) (lo := 1) (show 0 + m < 7 by omega) (show 0 + m < 8 by omega)
  rw [BitVec.getLsbD_ofNat, Nat.testBit_succ, hhalf, ← BitVec.testBit_toNat, ← Nat.add_comm 1 (0 + m), ← hbit, BitVec.getLsbD_ofNat]
  simp only [hn8, show 0 + m < 8 by omega, Nat.add_comm 1]

/-- What a train `tr'` has after a return of `tr` from its handler. -/
structure Restores (tr tr' : Train) : Prop where
  part : tr'.part = tr.part
  wg : tr'.wg = tr.wg
  tq : tr'.tq = tr.tq.drop 1
  intrap : tr'.intrap = false
  priv : tr'.priv = tr.ppriv
  exited : tr'.exited = tr.exited
  flags : ∀ b, b < 7 → tr'.flags.getLsbD b = tr.xg.getLsbD (b + 8)
  g : ∀ n, 0 < n → n < 8 → rdG tr' n = tr.xg.getLsbD n
  threads : ∀ l, l < 64 ∧ tr.exited.getLsbD l = false → pcOf tr' l = Tab.read 0 tr.xpc l ∧
    tr'.heldBar.getLsbD l = decide (savedState tr l = 2) ∧ tr'.heldGbar.getLsbD l = decide (savedState tr l = 3) ∧
    ∀ n, 0 < n → n < 8 → (rdK tr' n).getLsbD l = (Tab.read 0 tr.xk n).getLsbD l
  regs : ∀ r l, (∀ n, r ≠ .k n) → (∀ n, r ≠ .g n) → regAt tr' r l = regAt tr r l

theorem train?_returned (s : State) (k : Nat) (tr : Train) : ∃ tr', train? (returned s k tr) k = some tr' ∧ Restores tr tr' := by
  obtain ⟨-, -, hpc, -⟩ := selectionTakesTheLowestPc (restored tr) (savedPc tr)
  obtain ⟨pc, sel, pcs, hsel⟩ := selectWith_frame (restored tr) (savedPc tr)
  rw [hsel] at hpc
  simp only [returned, hsel, loseLatches, train?_modTrain, if_true]
  refine ⟨_, congrArg (Option.map _) ((train?_putTrain ..).trans (if_pos rfl)), rfl, rfl, rfl, rfl, rfl, rfl, fun b hb => ?_,
    fun n hn hn8 => ?_, fun l ⟨hl, hlive⟩ => ⟨?_, getLsbD_lanesWith hl hlive .., getLsbD_lanesWith hl hlive .., fun n hn hn8 => ?_⟩,
    fun r l hk hg => ?_⟩
  · refine (getLsbD_bitsAt hb hb).trans ?_
    rw [Nat.add_comm, BitVec.testBit_toNat]
  · refine (congrArg (· || _) (decide_eq_false (by omega))).trans ?_
    exact (Bool.false_or _).trans (getLsbD_savedG tr.xg hn hn8)
  · exact (hpc l hl).trans (if_neg (by simp [hlive]))
  · have hbit : (live tr).getLsbD l = true := by rw [getLsbD_live tr hl, hlive]; rfl
    refine (congrArg (BitVec.getLsbD · l) (if_neg (by omega))).trans ?_
    exact (getLsbD_read_foldl_merge (Tab.read 0 tr.xk) hbit hlive _ _ (by omega)).trans (if_pos (List.mem_range.2 hn8))
  · cases r with
    | k n => exact absurd rfl (hk n)
    | g n => exact absurd rfl (hg n)
    | _ => rfl

theorem returned_others (s : State) (k : Nat) (tr : Train) : OtherTrains k s (returned s k tr) := fun j hj => by
  simp only [returned, loseLatches, train?_modTrain, if_neg hj]
  exact (train?_putTrain ..).trans (if_neg hj)

/-- A further record is delivered to a train as it stands after a return and what that completed. -/
theorem deliverFrom_eq {s : State} {k : Nat} {tr : Train} (htr : train? s k = some tr) (code : Nat → BitVec 3) :
    deliverFrom s k code = putTrain { s with freeCount := s.freeCount + 4 } k
      (deliver tr (tvecOf s tr.part) (pcOf tr) (resumedState tr code) s.freeCount) :=
  modTrain_eq (s := { s with freeCount := s.freeCount + 4 }) htr _

theorem deliverFrom_of_restores {s : State} {k : Nat} {tr tr' : Train} (htr' : train? s k = some tr') (h : Restores tr tr')
    (code : Nat → BitVec 3) : ∃ tr2, train? (deliverFrom s k code) k = some tr2 ∧ tr2.tq = tr.tq.drop 1 ∧ tr2.intrap = true ∧
      tr2.priv = true ∧ tr2.ppriv = tr.ppriv ∧ tr2.pc = tvecOf s tr.part ∧ tr2.selected = ~~~tr.exited :=
  ⟨_, (congrArg (train? · k) (deliverFrom_eq htr' code)).trans ((train?_putTrain ..).trans (if_pos rfl)), h.tq, rfl, rfl, h.priv,
    congrArg (tvecOf s) h.part, congrArg (~~~ ·) h.exited⟩

/-! ### How a return ends (R257, R258, R381) -/

section
variable {s u : State} {k : Nat} {tr tr2 : Train} (htr : train? s k = some tr)
variable (hstay : ∀ l, l < 64 ∧ tr.exited.getLsbD l = false → savedState tr l ≠ 4)
include hstay

theorem exitingThreads_eq_zero : (maskOf fun t => (live tr).threads.contains t && savedState tr t = 4) = 0 :=
  BitVec.eq_of_getLsbD_eq fun l hl => by
    refine (getLsbD_maskOf _ hl).trans (Eq.trans ?_ BitVec.getLsbD_zero.symm)
    rw [Bool.and_eq_false_iff]
    cases hlive : tr.exited.getLsbD l with
    | false => exact .inr (decide_eq_false (hstay l ⟨hl, hlive⟩))
    | true => exact .inl (by simp [mem_threads, getLsbD_live tr hl, hlive])

include htr

/-- A return by which no thread exits ends in `u`, where the threads that the handler made HELD have arrived, or in a further record's
delivery from there. -/
theorem returnTrap_of_stays (hu : (if newlyHeld tr ≠ 0 then arrive (returned s k tr) k else returned s k tr) = u)
    (htr2 : train? u k = some tr2) :
    returnTrap s k = if (tr.tq.drop 1).isEmpty then u else deliverFrom u k (savedState tr) := by
  have hnone := not_not_intro (exitingThreads_eq_zero hstay)
  simp only [returnTrap, htr]
  split
  next hgone =>
    exact absurd (hgone.symm.trans ((congrArg (train? · k) ((if_neg hnone).trans hu)).trans htr2)) (by simp)
  next =>
    exact congrArg (fun v => if (tr.tq.drop 1).isEmpty then v else deliverFrom v k (savedState tr)) ((if_neg hnone).trans hu)

/-- Such a return of the last record ends there; with a further one it goes on to that one's delivery. -/
theorem returnTrap_ends (hu : (if newlyHeld tr ≠ 0 then arrive (returned s k tr) k else returned s k tr) = u)
    (htr2 : train? u k = some tr2) :
    (tr.tq.length = 1 → returnTrap s k = u) ∧ (2 ≤ tr.tq.length → returnTrap s k = deliverFrom u k (savedState tr)) := by
  have hreturn := returnTrap_of_stays htr hstay hu htr2
  have hempty : (tr.tq.drop 1).isEmpty = true ↔ tr.tq.length ≤ 1 := List.isEmpty_iff.trans List.drop_eq_nil_iff
  exact ⟨fun hlen => hreturn.trans (if_pos (hempty.2 hlen.le)), fun hlen => hreturn.trans (if_neg fun h => by have := hempty.1 h; omega)⟩

end

/-! ### `eret` (R381, R400) -/

section
variable {x : Args} {s s' : State} {k : Nat} {c : Ctx} (h : Ready (.eret x) x s k c s')
include h

theorem exec_eret_outside (hon : c.on = true) (hout : c.tr.intrap = false) :
    exec (.eret x) s = .next (raiseAt s' k c.head { kind := 1, cause := 11, pc := c.tr.pc }) := by
  obtain rfl := h.seen.slot
  exact exec_of_res h (i := .eret x) rfl ((if_neg (by simp [hon])).trans (if_pos (by simp [hout])))

theorem exec_eret_returns (hon : c.on = true) (hin : c.tr.intrap = true) :
    exec (.eret x) s = .next (returnTrap (putTrain s' k (ageLoads c.tr)) k) := by
  obtain rfl := h.seen.slot
  refine exec_of_left h (i := .eret x) rfl ((if_neg (by simp [hon])).trans ((if_neg (by simp [hin])).trans ?_))
  rw [modTrain_eq h.seen.train]

end

/-- Settles O49: `Restores` says what the train has after the return (`train?_returned`); how the step ends is `returnTrap_of_stays`, with
no thread newly held or after their arrival. -/
theorem eretRestoresWhatWasSaved : Obligations.EretRestoresWhatWasSaved := by
  unfold Obligations.EretRestoresWhatWasSaved
  intro x s k c s' h live code newly
  refine ⟨fun hoff => endsWith_of_done h rfl (if_pos (by simp [hoff])), exec_eret_outside h, fun hon hin hqueue hstay => ?_⟩
  have hseen := h.seen
  let tr := ageLoads c.tr
  let s1 := putTrain s' k tr
  have htr : train? s1 k = some tr := (train?_putTrain ..).trans (if_pos rfl)
  obtain ⟨tr', htr', hrestores⟩ := train?_returned s1 k tr
  have hheld : newlyHeld tr ≠ 0 ↔ newly := newlyHeld_ne_zero_iff tr
  have hreturn := exec_eret_returns h hon hin
  have hplain (hnot : ¬newly) := returnTrap_ends htr hstay (if_neg fun hne => hnot (hheld.1 hne)) htr'
  refine ⟨returned s1 k tr, tr', htr', hrestores.tq, hrestores.intrap, hrestores.priv, hrestores.exited, hrestores.flags, hrestores.g,
    hrestores.threads, hrestores.regs, fun j hj => ?_, fun a => hseen.readByte a, fun hnot hlen => ?_, fun hnot hlen => ⟨?_, ?_⟩, ?_⟩
  · exact (returned_others s1 k tr j hj).trans (((train?_putTrain ..).trans (if_neg hj)).trans (hseen.trains j hj))
  · exact hreturn.trans (congrArg _ ((hplain hnot).1 hlen))
  · exact hreturn.trans (congrArg _ ((hplain hnot).2 hlen))
  · have hpart : tvecOf (returned s1 k tr) c.tr.part = tvecOf s c.tr.part := by
      change tvecOf s' c.tr.part = _
      rw [hseen.frame]
      rfl
    rw [← hpart]
    exact deliverFrom_of_restores htr' hrestores code
  · intro w tr2 hnew hw u htr2
    have harrive : arrive (returned s1 k tr) k = u := by
      rw [arrive, htr', Option.bind_some, show tr'.wg = some w from hrestores.wg.trans hw]
    obtain ⟨hlast, hmore⟩ := returnTrap_ends htr hstay ((if_pos (hheld.2 hnew)).trans harrive) htr2
    exact ⟨fun hlen => hreturn.trans (congrArg _ (hlast hlen)), fun hlen => hreturn.trans (congrArg _ (hmore hlen))⟩

end Sys2Proof.Machine
end
